-- ==== Sys2Proof/Word.lean ====
section
/-! DEFINITION. The word types of the Glierau 9440 and their plainest arithmetic. -/

namespace Sys2Proof

/-- The smallest unit of memory (R6). -/
abbrev Byte := BitVec 8

/-- A vector register of one lane (R24). -/
abbrev Word32 := BitVec 32

/-- A scalar register, an instruction word or a record word (R91, R77). -/
abbrev Word64 := BitVec 64

/-- A virtual address (R155). -/
abbrev VAddr := BitVec 48

end Sys2Proof
end

