-- ==== Sys2Proof/Config.lean ====
section
/-! DEFINITION. What an implementation fixes, and the free values: every constant below is `opaque`, so no proof
sees which value it has. A free value is applied to `Dev.fresh`, a counter that every step advances (log 1). -/

namespace Sys2Proof.Config

/-- Which of several enabled moves comes next (R10, R99, R175; log 1). -/
opaque pick : Nat → Nat

/-- How many steps may pass while a split that an issue port has chosen does not issue (R20; log 52). -/
opaque patience : Nat

/-- Cycles of the 1.6 GHz clock that pass after a step (R10, R238; log 4). -/
opaque elapse : Nat → Nat

/-- A choice between two values the spec allows, by step and by place (R104, R194, R215, R240; log 1). -/
opaque freeBool : Nat → Nat → Bool

/-- A value the spec leaves open, by step and by place (R104; log 1). -/
opaque freeWord : Nat → Nat → Word64

/-- A core's lease clock less the device's cycle count (R238; log 4). -/
opaque clkOffset : Nat → Word64

/-- A die's reference less the device's cycle count, in cycles: its 1 µs ticks are not aligned (R9; log 4). -/
opaque tickOffset : Nat → Nat

/-- A lease a home grants, before it is limited (R239; log 1). -/
opaque lease : Nat → Nat

/-- What a line written under one key reads as under another: the key ids and key generations, the line's number,
and the plaintext (R382; log 7). -/
opaque recrypt : (BitVec 8 × Nat) → (BitVec 8 × Nat) → Nat → BitVec 1024 → BitVec 1024

/-- The fixed functions of a stepping on a binary32 operand; a result outside the bounds of R148 is replaced by the
nearest value (R148; log 12). -/
opaque exp2 : Word32 → Word32
opaque log2 : Word32 → Word32
opaque sin : Word32 → Word32
opaque cos : Word32 → Word32
opaque tanh : Word32 → Word32

/-- Which neighbour of an inexact 1/√a RSQ and DRSQ give: their error is below 1 ulp (R148, R149; log 12). -/
opaque rsqUp : Word32 → Bool
opaque drsqUp : Word64 → Bool

/-- SHA-512 (R36, R377, R378, R381; log 13). -/
opaque sha512 : List Byte → BitVec 512

/-- Ed25519 verification of a signature over a digest, and signing with the identity key (R378, R381; log 13). -/
opaque edVerify : BitVec 256 → BitVec 512 → BitVec 512 → Bool
opaque edSign : BitVec 256 → List Byte → BitVec 512

/-- The public key stored with an image, and the fused digest of each key id (R378; log 13). -/
opaque imageKey : List Byte → BitVec 256
opaque keyDigest : BitVec 2 → BitVec 512

/-- The bytes of a fatal dump after its header, whose layout the spec does not give, and where a flash write that is cut
short stops (R380, R385; log 1). -/
opaque dumpBytes : Nat → List Byte
opaque cutAt : Nat → Nat

/-- The part's stepping, its UDS, its boot ROM and its certificate chain (R377, R381; log 13). -/
opaque stepping : BitVec 16
opaque uds : BitVec 256
opaque bootRom : List Byte
opaque certificates : List Byte

/-- The device's own part of an SPDM exchange: its nonce, its DHE exchange data, and the HMAC checks (R381; log 13). -/
opaque spdmNonce : Nat → BitVec 256
opaque spdmShare : Nat → BitVec 768
opaque spdmFinishOk : BitVec 768 → BitVec 768 → BitVec 512 → Bool

/-- The host physical address of the device-memory range (R362). -/
opaque hdmBase : Nat

/-- The entry table words 9 to 63 and the 256 micro-words that a firmware image's Zither section holds (R222, R224). -/
opaque zitherEntry : List Byte → Nat → Word64
opaque zitherMicro : List Byte → Nat → Nat

end Sys2Proof.Config
end

