-- ==== Sys2Proof/Syntax.lean ====
section
/-! DEFINITION. The steps of the 9440, one constructor of `Instr` per row of the opcode table: the instruction
words of R85, and the events, packets, mailbox commands and engine steps, which have no encoding. -/

namespace Sys2Proof

/-- A guard: predicate `p`, inverted when `neg` (R81). -/
structure Guard where
  p   : BitVec 3
  neg : Bool
  deriving DecidableEq, Repr

/-- A register operand of classes 1 to 5: the vector file or the scalar file (R80, R122). -/
inductive Reg where
  | v (n : BitVec 8)
  | s (n : BitVec 6)
  deriving DecidableEq, Repr

/-- The last source of an instruction that has F and FI forms (R78, R79). -/
inductive Src where
  | reg (r : Reg)
  | imm (i : BitVec 20)
  deriving DecidableEq, Repr

/-- Rounding modes, encoded 00 to 11 in this order (R131). -/
inductive Rnd where
  | rne | rz | ru | rd
  deriving DecidableEq, Repr

/-- The element format of a class 3 instruction (R145). -/
inductive PFmt where
  | f32 | f16x2 | bf16x2
  deriving DecidableEq, Repr

/-- The integer type of a class 1 instruction (R137). -/
structure IntTy where
  w64 : Bool
  uns : Bool
  deriving DecidableEq, Repr

/-- Memory spaces, encoded 0 to 4 in this order (R155, R178). -/
inductive Space where
  | g | s | c | p | k
  deriving DecidableEq, Repr

/-- Access widths, encoded 0 to 6 in this order (R178). -/
inductive Wid where
  | b8 | b16 | b32 | b64 | b128 | s8 | s16
  deriving DecidableEq, Repr

/-- Ordering scopes, encoded 1 to 5 in this order (R243). -/
inductive Scope where
  | core | clu | dev | fab | sys
  deriving DecidableEq, Repr

/-- The ORD field of class 7 (R178). -/
inductive MemOrd where
  | relaxed
  | acq (sc : Scope)
  | rel (sc : Scope)
  deriving DecidableEq, Repr

/-- The SEM and SCOPE fields of class 8 (R275). -/
inductive Sem where
  | relaxed
  | acq (sc : Scope)
  | rel (sc : Scope)
  | ar  (sc : Scope)
  deriving DecidableEq, Repr

/-- Cache policies, encoded 0 to 3 in this order (R167). -/
inductive Pol where
  | ca | nl | str | uc
  deriving DecidableEq, Repr

/-- The clause header's fields (R73); 15 means no flag. -/
structure Header where
  wait : BitVec 12
  setA : BitVec 4
  setB : BitVec 4
  len  : BitVec 4
  rgne : Bool
  pf   : BitVec 2
  deriving DecidableEq, Repr

/-- A slot of a paired word (R82). -/
structure Slot where
  pop  : BitVec 7
  d    : BitVec 8
  s    : BitVec 8
  imm5 : BitVec 5
  g    : BitVec 3
  deriving DecidableEq, Repr

/-- Two-source integer instructions (R138, R139). -/
structure IntBin where
  ty  : IntTy
  sat : Bool
  d   : Reg
  a   : Reg
  b   : Src
  g   : Guard
  deriving DecidableEq, Repr

/-- Three-source integer instructions (R138). -/
structure IntTri where
  ty  : IntTy
  sat : Bool
  d   : Reg
  a   : Reg
  b   : Reg
  c   : Reg
  g   : Guard
  deriving DecidableEq, Repr

/-- One-source integer instructions (R138). -/
structure IntUn where
  w64 : Bool
  sat : Bool
  d   : Reg
  a   : Reg
  g   : Guard
  deriving DecidableEq, Repr

/-- IDOT4 (R138): `au`, `bu` are FN[1], FN[0]. -/
structure Dot4 where
  sat : Bool
  au  : Bool
  bu  : Bool
  d   : Reg
  a   : Reg
  b   : Reg
  c   : Reg
  g   : Guard
  deriving DecidableEq, Repr

/-- ISET (R140); `cmp` is 0 EQ, 1 NE, 2 LT, 3 LE, 4 GT, 5 GE. -/
structure IntSet where
  ty  : IntTy
  cmp : BitVec 3
  pd  : BitVec 3
  a   : Reg
  b   : Src
  g   : Guard
  deriving DecidableEq, Repr

/-- SEL (R140). -/
structure SelOp where
  b64 : Bool
  d   : Reg
  a   : Reg
  b   : Reg
  pc  : BitVec 3
  g   : Guard
  deriving DecidableEq, Repr

/-- LEA (R140). -/
structure LeaOp where
  ty : IntTy
  sh : BitVec 5
  d  : Reg
  a  : Reg
  b  : Src
  g  : Guard
  deriving DecidableEq, Repr

/-- Two-source logic and shift instructions (R142). -/
structure LogBin where
  b64 : Bool
  d   : Reg
  a   : Reg
  b   : Src
  g   : Guard
  deriving DecidableEq, Repr

/-- One-source logic instructions and MOV (R142, R140). -/
structure LogUn where
  b64 : Bool
  d   : Reg
  a   : Reg
  g   : Guard
  deriving DecidableEq, Repr

/-- BOOL3 and its table (R142). -/
structure Bool3Op where
  tab : BitVec 8
  d   : Reg
  a   : Reg
  b   : Reg
  c   : Reg
  g   : Guard
  deriving DecidableEq, Repr

/-- FUNNEL (`flag` is .L) and PRMT (`flag` false) (R142); BFI (`flag` is .B64) (R143). -/
structure LogTri where
  flag : Bool
  d    : Reg
  a    : Reg
  b    : Reg
  c    : Reg
  g    : Guard
  deriving DecidableEq, Repr

/-- BFE (R143). -/
structure BfeOp where
  sgn : Bool
  b64 : Bool
  d   : Reg
  a   : Reg
  b   : Src
  g   : Guard
  deriving DecidableEq, Repr

/-- PAND, POR, PXOR (R144). -/
structure PredBin where
  na : Bool
  nb : Bool
  pd : BitVec 3
  pa : BitVec 3
  pb : BitVec 3
  g  : Guard
  deriving DecidableEq, Repr

/-- PNOT (R144). -/
structure PredUn where
  na : Bool
  pd : BitVec 3
  pa : BitVec 3
  g  : Guard
  deriving DecidableEq, Repr

/-- The three forms of PMOV (R144). -/
inductive PMovForm where
  | pp (na : Bool) (pd pa : BitVec 3)
  | toV (vd : BitVec 8)
  | fromV (va : BitVec 8)
  deriving DecidableEq, Repr

/-- Two-source class 3 instructions (R146). -/
structure FBin where
  fmt : PFmt
  rnd : Rnd
  ftz : Bool
  na  : Bool
  nb  : Bool
  d   : Reg
  a   : Reg
  b   : Src
  g   : Guard
  deriving DecidableEq, Repr

/-- FFMA (R146). -/
structure FTri where
  fmt : PFmt
  rnd : Rnd
  ftz : Bool
  na  : Bool
  nb  : Bool
  nc  : Bool
  d   : Reg
  a   : Reg
  b   : Reg
  c   : Reg
  g   : Guard
  deriving DecidableEq, Repr

/-- FSET, and DSET with `ftz` false (R147, R149). -/
structure FSetOp where
  cmp : BitVec 3
  ftz : Bool
  na  : Bool
  pd  : BitVec 3
  a   : Reg
  b   : Src
  g   : Guard
  deriving DecidableEq, Repr

/-- One-source class 3 instructions: FCLASS, FRND and the special functions (R147, R148). -/
structure FUn where
  fmt : PFmt
  rnd : Rnd
  ftz : Bool
  na  : Bool
  d   : Reg
  a   : Reg
  g   : Guard
  deriving DecidableEq, Repr

/-- FSCALE (R147). -/
structure FScaleOp where
  rnd : Rnd
  ftz : Bool
  na  : Bool
  d   : Reg
  a   : Reg
  b   : Src
  g   : Guard
  deriving DecidableEq, Repr

/-- Two-source class 4 instructions (R149). -/
structure DBin where
  rnd : Rnd
  na  : Bool
  nb  : Bool
  d   : Reg
  a   : Reg
  b   : Src
  g   : Guard
  deriving DecidableEq, Repr

/-- DFMA (R149). -/
structure DTri where
  rnd : Rnd
  na  : Bool
  nb  : Bool
  nc  : Bool
  d   : Reg
  a   : Reg
  b   : Reg
  c   : Reg
  g   : Guard
  deriving DecidableEq, Repr

/-- One-source class 4 instructions (R149). -/
structure DUn where
  rnd : Rnd
  na  : Bool
  d   : Reg
  a   : Reg
  g   : Guard
  deriving DecidableEq, Repr

/-- CVT and FCVT; `dt`, `st` are type codes of R150 (R151, R152). -/
structure CvtOp where
  dt  : BitVec 4
  st  : BitVec 4
  rnd : Rnd
  sat : Bool
  d   : Reg
  a   : Reg
  g   : Guard
  deriving DecidableEq, Repr

/-- QPACK and QUNPK; `q` is the FMT code (R153). -/
structure QOp where
  q   : BitVec 4
  rnd : Rnd
  d   : BitVec 8
  a   : BitVec 8
  b   : Reg
  g   : Guard
  deriving DecidableEq, Repr

/-- QSCALE (R153). -/
structure QScaleOp where
  q : BitVec 4
  d : Reg
  a : Reg
  g : Guard
  deriving DecidableEq, Repr

/-- AMAX; `fmt` is 8, 10 or 11 (R154). -/
structure AMaxOp where
  fmt : BitVec 4
  d   : Reg
  a   : Reg
  b   : Reg
  g   : Guard
  deriving DecidableEq, Repr

/-- VOTE; `op` is 0 EVERY, 1 SOME, 2 NONE, 3 SAME (R116). -/
structure VoteOp where
  op : BitVec 2
  G  : Bool
  pd : BitVec 3
  pa : BitVec 3
  g  : Guard
  deriving DecidableEq, Repr

/-- BALLOT (R116). -/
structure BallotOp where
  G  : Bool
  d  : Reg
  pa : BitVec 3
  g  : Guard
  deriving DecidableEq, Repr

/-- SHFL; `op` is 0 SEL, 1 RISE, 2 FALL, 3 FLIP, 4 ROT; `b` is a vector register or I20 (R117). -/
structure ShflOp where
  op : BitVec 4
  G  : Bool
  pr : BitVec 3
  d  : BitVec 8
  a  : BitVec 8
  b  : BitVec 8 ⊕ BitVec 20
  g  : Guard
  deriving DecidableEq, Repr

/-- REDUX (`exc` false) and SCAN (R118). -/
structure ReduxOp where
  op  : BitVec 4
  G   : Bool
  exc : Bool
  d   : BitVec 8
  a   : BitVec 8
  g   : Guard
  deriving DecidableEq, Repr

/-- MATCH (R119). -/
structure MatchOp where
  b64 : Bool
  G   : Bool
  pr  : BitVec 3
  d   : BitVec 8
  a   : BitVec 8
  g   : Guard
  deriving DecidableEq, Repr

/-- The index and displacement of a class 7 address: F form with IX, or FI form with DISP (R177). -/
inductive MemForm where
  | f (ix : Bool)
  | fi (disp : BitVec 12)
  deriving DecidableEq, Repr

/-- LD, ST, LDU, STU, LDF, STF (R177 to R179). For LDU and STU `data` is a scalar number. -/
structure MemOp where
  space : Space
  wid   : Wid
  ord   : MemOrd
  pol   : Pol
  data  : BitVec 8
  base  : BitVec 6
  idx   : BitVec 8
  form  : MemForm
  pr    : BitVec 3
  g     : Guard
  deriving DecidableEq, Repr

/-- PREF (R183). -/
structure PrefOp where
  home  : Bool
  space : Space
  pol   : Pol
  base  : BitVec 6
  idx   : BitVec 8
  form  : MemForm
  g     : Guard
  deriving DecidableEq, Repr

/-- The CCTL operations on an address; `pr` is written by LOCK only (R184). -/
structure CctlOp where
  space : Space
  base  : BitVec 6
  idx   : BitVec 8
  ix    : Bool
  pr    : BitVec 3
  g     : Guard
  deriving DecidableEq, Repr

/-- ATOM, RED, CAS and WAITA (R275 to R278). -/
structure AtomOp where
  space : Space
  w64   : Bool
  sem   : Sem
  op    : BitVec 4
  d     : BitVec 8
  base  : BitVec 6
  idx   : BitVec 8
  c     : BitVec 8
  g     : Guard
  deriving DecidableEq, Repr

/-- The two encodings of CPY (R197). -/
inductive CpyForm where
  | short (dsp ssp : BitVec 2) (d a : BitVec 6) (len12 : BitVec 12) (dd sd : BitVec 10)
  | full (dsp ssp mode cmp : BitVec 2) (crc lb : Bool) (lbs : BitVec 2) (d a b c : BitVec 6)
  deriving DecidableEq, Repr

/-- CPG (R198). -/
structure CpgOp where
  dsp : BitVec 2
  cmp : BitVec 2
  d   : BitVec 6
  a   : BitVec 6
  b   : BitVec 8
  c   : BitVec 6
  g   : Guard
  deriving DecidableEq, Repr

/-- Four scalar operands, of REC (R285), DENSE (R311) and the barrier instructions. -/
structure Sc4 where
  d : BitVec 6
  a : BitVec 6
  b : BitVec 6
  c : BitVec 6
  g : Guard
  deriving DecidableEq, Repr

/-- MMA (R212) and MMAH (R213); `fmt` is the form code of R203; `la` is zero for MMA, `bsp` false for MMAH. -/
structure MmaOp where
  fmt : BitVec 3
  mx  : Bool
  sb  : BitVec 2
  zs  : Bool
  asp : Bool
  bsp : Bool
  la  : BitVec 2
  d   : BitVec 8
  a   : BitVec 8
  b   : BitVec 8
  c   : BitVec 8
  deriving DecidableEq, Repr

/-- ADRAIN (R221); `scope` none exactly when `c` is 63. -/
structure DrainOp where
  fmt   : BitVec 3
  dspS  : Bool
  rnd   : Rnd
  sat   : Bool
  scope : Option Scope
  h     : Bool
  d     : BitVec 6
  a     : BitVec 8
  b     : BitVec 6
  c     : BitVec 6
  g     : Guard
  deriving DecidableEq, Repr

/-- NMCALL (R225). -/
structure NmcallOp where
  ent : BitVec 6
  f64 : Bool
  d   : BitVec 6
  a   : BitVec 6
  b   : BitVec 6
  c   : BitVec 6
  g   : Guard
  deriving DecidableEq, Repr

/-- A group, by its team's instance and its number in the team (R26, R344). -/
structure GroupRef where
  team  : Nat
  group : Nat
  deriving DecidableEq, Repr

/-- A split of a group, by its stamp (R92). -/
structure SplitRef where
  team  : Nat
  group : Nat
  stamp : BitVec 16
  deriving DecidableEq, Repr

/-- A datagram of a block: the block's number, and the offset in it of the datagram's first byte (R375). -/
structure GramAt where
  block : Nat
  off   : Nat
  deriving DecidableEq, Repr

/-- One step of the device: one constructor per row of spec/opcode_table.json. -/
inductive Instr where
  -- class 0, and the words of R73, R82 and R89
  | clauseIssue (h : Header)
  | illop (sub : BitVec 8)
  | pairedWord (x y : Slot)
  | nop (g : Guard)
  | bra (g : Guard) (rcv : BitVec 16) (disp : BitVec 32)
  | brx (g : Guard) (rcv : BitVec 20) (target : Reg)
  | call (g : Guard) (disp : BitVec 32)
  | callx (g : Guard) (target : Reg)
  | ret
  | join
  | joint (pd : BitVec 3) (cycles : BitVec 32)
  | jointTimeout (r : SplitRef)
  | exit (g : Guard)
  | delay (g : Guard) (cycles : BitVec 32)
  | delayExpiry (r : SplitRef)
  | yield
  | rgn
  | phint (smask : BitVec 8) (live : BitVec 8) (vmask : BitVec 32)
  | ipf (g : Guard) (lines : BitVec 4) (disp : BitVec 32)
  -- class 1
  | iadd (o : IntBin)
  | isub (o : IntBin)
  | iadd3 (o : IntTri)
  | imul (o : IntBin)
  | imulh (o : IntBin)
  | imad (o : IntTri)
  | imadw (o : IntTri)
  | idiv (o : IntBin)
  | irem (o : IntBin)
  | imin (o : IntBin)
  | imax (o : IntBin)
  | iabs (o : IntUn)
  | ineg (o : IntUn)
  | isad (o : IntTri)
  | idot4 (o : Dot4)
  | iset (o : IntSet)
  | sel (o : SelOp)
  | lea (o : LeaOp)
  | mov (o : LogUn)
  | movi (d : Reg) (imm : BitVec 32) (g : Guard)
  | movw (d : Reg) (imm : BitVec 32) (g : Guard)
  -- class 2
  | and (o : LogBin)
  | or (o : LogBin)
  | xor (o : LogBin)
  | not (o : LogUn)
  | bool3 (o : Bool3Op)
  | shl (o : LogBin)
  | shr (o : LogBin)
  | sar (o : LogBin)
  | rot (o : LogBin)
  | funnel (o : LogTri)
  | bfe (o : BfeOp)
  | bfi (o : LogTri)
  | popc (o : LogUn)
  | clz (o : LogUn)
  | ctz (o : LogUn)
  | brev (o : LogUn)
  | prmt (o : LogTri)
  | pand (o : PredBin)
  | por (o : PredBin)
  | pxor (o : PredBin)
  | pnot (o : PredUn)
  | pmov (f : PMovForm) (g : Guard)
  -- class 3
  | fadd (o : FBin)
  | fmul (o : FBin)
  | ffma (o : FTri)
  | fmin (o : FBin)
  | fmax (o : FBin)
  | fdiv (o : FBin)
  | fset (o : FSetOp)
  | fclass (o : FUn)
  | frnd (o : FUn)
  | fscale (o : FScaleOp)
  | rcp (o : FUn)
  | rsq (o : FUn)
  | sqrt (o : FUn)
  | exp2 (o : FUn)
  | log2 (o : FUn)
  | sin (o : FUn)
  | cos (o : FUn)
  | tanh (o : FUn)
  -- class 4
  | dadd (o : DBin)
  | dmul (o : DBin)
  | dfma (o : DTri)
  | dmin (o : DBin)
  | dmax (o : DBin)
  | dset (o : FSetOp)
  | dclass (o : DUn)
  | dfrnd (o : DUn)
  | dscale (o : DBin)
  | drcp (o : DUn)
  | drsq (o : DUn)
  | dsqrt (o : DUn)
  | ddiv (o : DBin)
  -- class 5
  | cvt (o : CvtOp)
  | fcvt (o : CvtOp)
  | qpack (o : QOp)
  | qunpk (o : QOp)
  | qscale (o : QScaleOp)
  | amax (o : AMaxOp)
  -- class 6
  | vote (o : VoteOp)
  | ballot (o : BallotOp)
  | shfl (o : ShflOp)
  | redux (o : ReduxOp)
  | scan (o : ReduxOp)
  | match_ (o : MatchOp)
  | elect (G : Bool) (pd : BitVec 3) (g : Guard)
  | regroup (va : BitVec 8) (sb : BitVec 6)
  | xmget (sd : BitVec 6)
  | xmset (src : BitVec 6 ⊕ BitVec 32)
  -- class 7
  | ld (o : MemOp)
  | st (o : MemOp)
  | ldu (o : MemOp)
  | stu (o : MemOp)
  | ldf (o : MemOp)
  | stf (o : MemOp)
  | pref (o : PrefOp)
  | cctlInv (o : CctlOp)
  | cctlWb (o : CctlOp)
  | cctlLock (o : CctlOp)
  | cctlUnlock (o : CctlOp)
  | cctlInvall (space : Space)
  | cctlIinv (o : CctlOp)
  -- class 8
  | atom (o : AtomOp)
  | red (o : AtomOp)
  | cas (o : AtomOp)
  | fence (sem : Sem)
  | waita (o : AtomOp)
  | waitaWake (op : Nat)
  | watchDrop (op : Nat)
  | waitge (sc : Scope) (a b : BitVec 6)
  -- class 9
  | cpy (f : CpyForm) (g : Guard)
  | cpg (o : CpgOp)
  | cpbat (sd : BitVec 6)
  | cpwait (src : BitVec 6 ⊕ BitVec 32)
  | etail (a b : BitVec 6) (g : Guard)
  | rec_ (scratch : Bool) (a b c : BitVec 6) (g : Guard)
  | dense (o : Sc4)
  -- class 10
  | mma (o : MmaOp)
  | mmah (o : MmaOp)
  | mfence (va : BitVec 8) (n1 : BitVec 4)
  | mwait (t : BitVec 8) (all : Bool)
  | aclr (t : BitVec 8) (n1 : BitVec 4) (g : Guard)
  | afill (b64 : Bool) (t : BitVec 8) (sa : BitVec 6) (n1 : BitVec 4) (g : Guard)
  | adrain (o : DrainOp)
  | amov (dir : Bool) (v t : BitVec 8) (g : Guard)
  -- class 11
  | nmcall (o : NmcallOp)
  | nmclose (a d : BitVec 6) (g : Guard)
  | embag (red : BitVec 2) (o : Sc4)
  -- class 12
  | bar (id : BitVec 4)
  | cbar (id : BitVec 2)
  | mbinit (a b : BitVec 6) (g : Guard)
  | mbarv (d a : BitVec 6) (n1 : BitVec 8) (g : Guard)
  | mbexp (d a b : BitVec 6) (n : BitVec 8) (g : Guard)
  | mbwait (a b : BitVec 6) (pr : BitVec 3)
  | mbinv (a : BitVec 6) (g : Guard)
  -- class 13
  | trap (code : BitVec 8) (g : Guard)
  | rte
  | bkpt (g : Guard)
  | srd (d : Reg) (sr : BitVec 8) (g : Guard)
  | swr (sr : BitVec 8) (a : BitVec 6)
  | pmev (n : BitVec 2) (ev : BitVec 16)
  -- events of the core, the homes and the units
  | longLatencyWriteback (op : Nat)
  | icacheFill (core line : Nat)
  | pageWalk (die : Nat)
  | homeAccess (req : Nat)
  | storeAnswer (req : Nat)
  | flushMarker (r : GroupRef) (die : Nat)
  | leaseExpiry (line : Nat)
  | peerProbe (req core : Nat)
  | scratchpadRemoteAccess (req : Nat)
  | hostSnoop (line : Nat)
  | hostMemRead (hpa n : Nat)
  | hostMemWrite (hpa : Nat) (bytes : List Byte)
  | copyComplete (id : Nat)
  | barrierArrival (id : Nat)
  | matrixOpComplete (id : Nat)
  | mmahFetch (id : Nat)
  | zitherCallStart (id : Nat)
  | zitherCallEnd (id : Nat)
  | roundCloseAck (id : Nat)
  | embagComplete (id : Nat)
  -- queues and Theorbo
  | kick (pid page : Nat) (x : BitVec 32)
  | theorboRound (die : Nat)
  | abort (q : Nat)
  | resetQueue (q : Nat)
  | fencePacket (q : Nat)
  | waitPacket (q : Nat)
  | waitTimeout (q : Nat)
  | signal (q : Nat)
  | graph (q : Nat)
  | launch (q : Nat)
  | nodeRecord (q : Nat)
  | chainPacket (q : Nat)
  | nopPacket (q : Nat)
  -- placement, nodes, graphs, pre-emption, retirement
  | dispatch
  | ageingTick (q : Nat)
  | rampWindow (die : Nat)
  | teamStart (team : Nat)
  | powerGate (core : Nat)
  | coreWake (core : Nat)
  | nodeTimerLapse (node : Nat)
  | graphNodeStart (graph node : Nat)
  | phintWindowExpiry (r : GroupRef)
  | teamSave (team : Nat)
  | teamRestore (team : Nat)
  | retire (team : Nat)
  -- engines
  | galliardStart (chain : Nat)
  | galliardStop (chain : Nat)
  | galliardAttempt (ctx : Nat)
  | recordRetire (ctx idx : Nat)
  | denseServe (ctx : Nat)
  | blockTransfer (chain : Nat)
  | citternFact (job : Nat)
  | citternSolve (job : Nat)
  | citternFsolve (job : Nat)
  | citternGmres (ctx : Nat)
  | cteSend (chain : Nat)
  | cteBlockReceive (win : Nat) (idx : GramAt) (src stream : Nat) (bytes : List Byte)
  | cteAck (chain entry : Nat) (block : GramAt) (code : BitVec 8)
  | cteResend (chain entry : Nat) (block : GramAt)
  | parzonFlit (port : Nat) (crcOk retrainOk : Bool)
  | linkTraining (port : Nat) (identity : Nat)
  | ethernetFrame (port : Nat) (isCte : Bool)
  -- function page accesses and device events
  | mailboxWriteWhileBusy (pid : Nat) (v : BitVec 64)
  | stsRead (pid : Nat)
  | evtClear (pid : Nat) (v : BitVec 64)
  | registerWrite (pid off : Nat) (v : BitVec 64)
  | functionLevelReset (pid : Nat)
  | spdmGetCertificate (off len : Nat)
  | spdmChallenge (nonce : BitVec 256)
  | spdmGetMeasurements (idx : BitVec 8)
  | spdmKeyExchange (peer : BitVec 768)
  | spdmFinish (verify : BitVec 512)
  | boot (warm : Bool)
  | fatalError (cause : BitVec 8) (die : BitVec 2)
  | patrolScrub (sector : Nat)
  | settleDeadline (r : GroupRef)
  | ideKmMessage (stream : BitVec 8) (key : BitVec 256)
  | msixUnmask (pid vec : Nat)
  -- mailbox commands, by the function that issues them
  | loadModule (pid : Nat)
  | setRoot (pid : Nat)
  | invalidate (pid : Nat)
  | createQueue (pid : Nat)
  | destroyQueue (pid : Nat)
  | resumeQueue (pid : Nat)
  | createNode (pid : Nat)
  | destroyNode (pid : Nat)
  | registerChain (pid : Nat)
  | resumeChain (pid : Nat)
  | dropChain (pid : Nat)
  | faultCfg (pid : Nat)
  | faultRead (pid : Nat)
  | replayAll (pid : Nat)
  | debugAttach (pid : Nat)
  | debugDetach (pid : Nat)
  | debugStop (pid : Nat)
  | debugRead (pid : Nat)
  | debugWrite (pid : Nat)
  | cteWindow (pid : Nat)
  | cteEndpoint (pid : Nat)
  | partSet (pid : Nat)
  | partReset (pid : Nat)
  | peerSet (pid : Nat)
  | portMode (pid : Nat)
  | fecfg (pid : Nat)
  | writeSlot (pid : Nat)
  | bootOnce (pid : Nat)
  | commit (pid : Nat)
  | zreload (pid : Nat)
  | dumpRead (pid : Nat)
  | dumpClear (pid : Nat)
  | dumpConfig (pid : Nat)
  | unknownCommand (pid : Nat)
  -- requests without operands
  | spdmGetVersion
  | spdmGetCapabilities
  | spdmNegotiateAlgorithms
  | spdmGetDigests
  | spdmEndSession
  | clockThrottle
  | clockRaise
  | powerLoss
  deriving DecidableEq, Repr

end Sys2Proof
end

