-- ==== Sys2Proof/WellFormed.lean ====
section
/-! DEFINITION. Which instructions an encoding admits in a given launch: the register checks of R89 subcode 0x05
and the field checks of subcode 0x06, and the two facts of R76 and R102 that the clause checks need. -/

namespace Sys2Proof

/-- What a word's checks depend on beside the word: the launch's vector count N and width W (R24, R202), and
whether the split is in handler mode (R331, R333). -/
structure LaunchCtx where
  nvec    : Nat
  width   : Nat
  handler : Bool
  deriving DecidableEq, Repr

/-- A vector register the launch has: v0 to v(N-1), or v255 (R24, R89). -/
def LaunchCtx.vecOk (c : LaunchCtx) (n : Nat) : Bool := n < c.nvec || n == 255

/-- A run of `k` vector registers from `n`, none above N-1 but v255 (R153, R179, R211). -/
def LaunchCtx.runOk (c : LaunchCtx) (n : BitVec 8) (k : Nat) : Bool :=
  (List.range k).all fun j => c.vecOk (n.toNat + j)

/-- A register operand; for a pair the even register decides for both (R122, `Reg.pairOk`). -/
def LaunchCtx.regOk (c : LaunchCtx) (r : Reg) : Bool :=
  match r with
  | .v n => c.runOk n 1
  | .s _ => true

def LaunchCtx.srcOk (c : LaunchCtx) (b : Src) : Bool :=
  match b with
  | .reg r => c.regOk r
  | .imm _ => true

/-- A 64-bit vector operand is an even pair (R122). -/
def Reg.pairOk (r : Reg) (w64 : Bool) : Bool :=
  match r with
  | .v n => !w64 || n.toNat % 2 == 0
  | .s _ => true

def Src.pairOk (b : Src) (w64 : Bool) : Bool :=
  match b with
  | .reg r => r.pairOk w64
  | .imm _ => true

def Reg.isScalar : Reg → Bool
  | .v _ => false
  | .s _ => true

def Src.isScalarOrImm : Src → Bool
  | .reg r => r.isScalar
  | .imm _ => true

def Src.isImm : Src → Bool
  | .reg _ => false
  | .imm _ => true

/-- With a scalar destination every register source must be scalar (R122). -/
def Reg.kindRule (d : Reg) (srcs : List Bool) : Bool := !d.isScalar || srcs.all id

/-- The guard an instruction takes that accepts no other: p7, not negated. -/
def Guard.always : Guard := ⟨7, false⟩

def Wid.bytes : Wid → Nat
  | .b8 | .s8 => 1
  | .b16 | .s16 => 2
  | .b32 => 4
  | .b64 => 8
  | .b128 => 16

/-- Registers an access of width `w` fills or reads (R179). -/
def Wid.regs (w : Wid) : Nat := (w.bytes + 3) / 4

def MemForm.ix : MemForm → Bool
  | .f ix => ix
  | .fi _ => false

/-- Register words of the A and B operands of an MMA form (R203). -/
def mmaRegs (fmt : BitVec 3) : Nat × Nat :=
  match fmt.toNat with
  | 6 => (8, 2)
  | 7 => (2, 2)
  | _ => (8, 8)

/-- The form takes block scales (R207). -/
def MmaOp.scaled (o : MmaOp) : Bool := o.fmt == 4 || o.mx

/-- Elements in a quantised register (R153). -/
def qRun (q : BitVec 4) : Nat := if q == 14 then 8 else 4

/-- The width in bits of a type code of R150, as registers hold it: 64-bit types are 64-bit operands. -/
def cvtWide (t : BitVec 4) : Bool := t == 2 || t == 3 || t == 9

def srWide (n : BitVec 8) : Bool := 0x10 ≤ n.toNat && n.toNat ≤ 0x19

/-- The slot kinds of R83. -/
inductive PairKind where
  | b | u | i | k | n
  deriving DecidableEq, Repr

/-- R84: the kind of a pair-opcode; none when it is unassigned. -/
def pairKind (pop : BitVec 7) : Option PairKind :=
  let n := pop.toNat
  if n == 0 then some .n
  else if n == 0x0B then some .k
  else if n == 0x0C then some .i
  else if 0x08 ≤ n && n ≤ 0x0A then some .u
  else if n ≤ 0x0C then some .b
  else if n == 0x13 then some .u
  else if 0x10 ≤ n && n ≤ 0x17 then some .b
  else if 0x18 ≤ n && n ≤ 0x1B then some .i
  else if 0x1C ≤ n && n ≤ 0x1F then some .u
  else if 0x20 ≤ n && n ≤ 0x29 then some .b
  else none

/-- R82, R84: the fields a slot's kind leaves unused are zero. -/
def Slot.fieldsOk (s : Slot) : Bool :=
  match pairKind s.pop with
  | none => false
  | some .n => s.d == 0 && s.s == 0 && s.imm5 == 0
  | some .b | some .u => s.imm5 == 0
  | some .i | some .k => s.s == 0

/-- The registers a slot reads, counted each time (R83). -/
def Slot.reads (s : Slot) : List (BitVec 8) :=
  match pairKind s.pop with
  | some .b => [s.d, s.s]
  | some .u => [s.s]
  | some .i => [s.d]
  | _ => []

def Slot.dest (s : Slot) : Option (BitVec 8) :=
  match pairKind s.pop with
  | some .n | none => none
  | _ => some s.d

/-- R83's bank rules: distinct destination banks, and no bank read more than twice. -/
def pairBanksOk (x y : Slot) : Bool :=
  let rs := (x.reads ++ y.reads).map fun r => r.toNat % 4
  let dOk := match x.dest, y.dest with
    | some a, some b => a.toNat % 4 != b.toNat % 4
    | _, _ => true
  dOk && (List.range 4).all fun k => (rs.filter (· == k)).length ≤ 2

def Slot.regsOk (c : LaunchCtx) (s : Slot) : Bool :=
  (s.reads ++ s.dest.toList).all fun r => c.vecOk r.toNat

/-- The header's own rule, broken by subcode 0x03 (R73, R89). -/
def Header.ok (h : Header) : Bool :=
  h.len != 0 && (h.setA.toNat ≤ 11 || h.setA == 15) && (h.setB.toNat ≤ 11 || h.setB == 15) &&
  (h.setA != h.setB || h.setA == 15)

/-- Subcode 0x05: every register the instruction names lies in its file and in the launch (R89). -/
def Instr.regsOk (c : LaunchCtx) : Instr → Bool
  | .pairedWord x y => x.regsOk c && y.regsOk c
  | .brx _ _ t | .callx _ t => c.regOk t
  | .iadd o | .isub o | .imul o | .imulh o | .idiv o | .irem o | .imin o | .imax o =>
      c.regOk o.d && c.regOk o.a && c.srcOk o.b
  | .iadd3 o | .imad o =>
      c.regOk o.d && c.regOk o.a && c.regOk o.b && c.regOk o.c
  | .imadw o => c.regOk o.d && c.regOk o.a && c.regOk o.b && c.regOk o.c
  | .isad o => c.regOk o.d && c.regOk o.a && c.regOk o.b && c.regOk o.c
  | .iabs o | .ineg o => c.regOk o.d && c.regOk o.a
  | .idot4 o => c.regOk o.d && c.regOk o.a && c.regOk o.b && c.regOk o.c
  | .iset o => c.regOk o.a && c.srcOk o.b
  | .sel o => c.regOk o.d && c.regOk o.a && c.regOk o.b
  | .lea o => c.regOk o.d && c.regOk o.a && c.srcOk o.b
  | .mov o | .not o | .brev o => c.regOk o.d && c.regOk o.a
  | .movi d _ _ => c.regOk d
  | .movw d _ _ => c.regOk d
  | .and o | .or o | .xor o => c.regOk o.d && c.regOk o.a && c.srcOk o.b
  | .shl o | .shr o | .sar o | .rot o => c.regOk o.d && c.regOk o.a && c.srcOk o.b
  | .bool3 o => c.regOk o.d && c.regOk o.a && c.regOk o.b && c.regOk o.c
  | .funnel o | .prmt o => c.regOk o.d && c.regOk o.a && c.regOk o.b && c.regOk o.c
  | .bfe o => c.regOk o.d && c.regOk o.a && c.srcOk o.b
  | .bfi o => c.regOk o.d && c.regOk o.a && c.regOk o.b && c.regOk o.c
  | .popc o | .clz o | .ctz o => c.regOk o.d && c.regOk o.a
  | .pmov (.toV vd) _ => c.runOk vd 1
  | .pmov (.fromV va) _ => c.runOk va 1
  | .fadd o | .fmul o | .fmin o | .fmax o | .fdiv o =>
      c.regOk o.d && c.regOk o.a && c.srcOk o.b
  | .ffma o => c.regOk o.d && c.regOk o.a && c.regOk o.b && c.regOk o.c
  | .fset o => c.regOk o.a && c.srcOk o.b
  | .fclass o | .frnd o | .rcp o | .rsq o | .sqrt o | .exp2 o | .log2 o | .sin o | .cos o | .tanh o =>
      c.regOk o.d && c.regOk o.a
  | .fscale o => c.regOk o.d && c.regOk o.a && c.srcOk o.b
  | .dadd o | .dmul o | .dmin o | .dmax o | .dscale o | .ddiv o =>
      c.regOk o.d && c.regOk o.a && c.srcOk o.b
  | .dfma o => c.regOk o.d && c.regOk o.a && c.regOk o.b && c.regOk o.c
  | .dset o => c.regOk o.a && c.srcOk o.b
  | .dclass o => c.regOk o.d && c.regOk o.a
  | .dfrnd o | .drcp o | .drsq o | .dsqrt o => c.regOk o.d && c.regOk o.a
  | .cvt o | .fcvt o => c.regOk o.d && c.regOk o.a
  | .qpack o => c.runOk o.d 1 && c.runOk o.a (qRun o.q) && c.regOk o.b
  | .qunpk o => c.runOk o.d (qRun o.q) && c.runOk o.a 1 && c.regOk o.b
  | .qscale o => c.regOk o.d && c.regOk o.a
  | .amax o => c.regOk o.d && c.regOk o.a && c.regOk o.b
  | .ballot o => c.regOk o.d
  | .shfl o => c.runOk o.d 1 && c.runOk o.a 1 &&
      (match o.b with | .inl b => c.runOk b 1 | .inr _ => true)
  | .redux o | .scan o => c.runOk o.d 1 && c.runOk o.a 1
  | .match_ o => c.runOk o.d 1 && c.runOk o.a 1
  | .regroup va _ => c.runOk va 1
  | .ld o | .st o | .ldf o | .stf o => c.runOk o.data o.wid.regs && c.runOk o.idx 1
  | .pref o => c.runOk o.idx 1
  | .cctlInv o | .cctlWb o | .cctlLock o | .cctlUnlock o | .cctlIinv o => c.runOk o.idx 1
  | .atom o | .waita o => c.runOk o.d (if o.w64 then 2 else 1) && c.runOk o.idx 1 && c.runOk o.c (if o.w64 then 2 else 1)
  | .red o => c.runOk o.idx 1 && c.runOk o.c (if o.w64 then 2 else 1)
  | .cas o => c.runOk o.d (if o.w64 then 2 else 1) && c.runOk o.idx 1 && c.runOk o.c (if o.w64 then 4 else 2)
  | .cpg o => c.runOk o.b 1
  | .mma o => (o.asp || c.runOk o.a (mmaRegs o.fmt).1) && (o.bsp || c.runOk o.b (mmaRegs o.fmt).2) &&
      (!o.scaled || c.runOk o.c 2)
  | .mmah o => (o.asp || c.runOk o.a (mmaRegs o.fmt).1) && (!o.scaled || c.runOk o.c 1)
  | .mfence va n1 => c.runOk va (n1.toNat + 1)
  | .amov _ v _ _ => c.runOk v 8
  | .srd (.v d) _ _ => c.runOk d 1
  | _ => true

/-- Subcode 0x06: the kinds, pairs and modifier values the instruction accepts (R89, and each instruction's rule). -/
def Instr.fieldsOk (c : LaunchCtx) : Instr → Bool
  | .clauseIssue h => h.ok
  | .pairedWord x y => x.fieldsOk && y.fieldsOk && pairBanksOk x y
  | .brx _ _ t | .callx _ t => t.pairOk true
  | .iadd o | .isub o | .imul o =>
      o.d.pairOk o.ty.w64 && o.a.pairOk o.ty.w64 && o.b.pairOk o.ty.w64 && o.d.kindRule [o.a.isScalar, o.b.isScalarOrImm]
  | .imulh o | .idiv o | .irem o | .imin o | .imax o => !o.sat &&
      o.d.pairOk o.ty.w64 && o.a.pairOk o.ty.w64 && o.b.pairOk o.ty.w64 && o.d.kindRule [o.a.isScalar, o.b.isScalarOrImm]
  | .iadd3 o | .imad o =>
      o.d.pairOk o.ty.w64 && o.a.pairOk o.ty.w64 && o.b.pairOk o.ty.w64 && o.c.pairOk o.ty.w64 &&
      o.d.kindRule [o.a.isScalar, o.b.isScalar, o.c.isScalar]
  | .imadw o => !o.ty.w64 && !o.sat && o.d.pairOk true && o.c.pairOk true &&
      o.d.kindRule [o.a.isScalar, o.b.isScalar, o.c.isScalar]
  | .isad o => !o.ty.w64 && !o.sat && o.d.kindRule [o.a.isScalar, o.b.isScalar, o.c.isScalar]
  | .iabs o | .ineg o => o.d.pairOk o.w64 && o.a.pairOk o.w64 && o.d.kindRule [o.a.isScalar]
  | .idot4 o => o.d.kindRule [o.a.isScalar, o.b.isScalar, o.c.isScalar]
  | .iset o => o.cmp.toNat ≤ 5 && o.a.pairOk o.ty.w64 && o.b.pairOk o.ty.w64
  | .sel o => o.d.pairOk o.b64 && o.a.pairOk o.b64 && o.b.pairOk o.b64 && o.d.kindRule [o.a.isScalar, o.b.isScalar]
  | .lea o => o.d.pairOk o.ty.w64 && o.a.pairOk o.ty.w64 && o.d.kindRule [o.a.isScalar, o.b.isScalarOrImm]
  | .mov o => o.d.pairOk o.b64 && o.a.pairOk o.b64
  | .movw d _ _ => d.pairOk true
  | .not o | .brev o => o.d.pairOk o.b64 && o.a.pairOk o.b64 && o.d.kindRule [o.a.isScalar]
  | .and o | .or o | .xor o => o.d.pairOk o.b64 && o.a.pairOk o.b64 && o.b.pairOk o.b64 &&
      o.d.kindRule [o.a.isScalar, o.b.isScalarOrImm]
  | .shl o | .shr o | .sar o | .rot o => o.d.pairOk o.b64 && o.a.pairOk o.b64 &&
      o.d.kindRule [o.a.isScalar, o.b.isScalarOrImm]
  | .bool3 o => o.d.kindRule [o.a.isScalar, o.b.isScalar, o.c.isScalar]
  | .funnel o => o.d.kindRule [o.a.isScalar, o.b.isScalar, o.c.isScalar]
  | .prmt o => !o.flag && o.d.kindRule [o.a.isScalar, o.b.isScalar, o.c.isScalar]
  | .bfe o => o.d.pairOk o.b64 && o.a.pairOk o.b64 && o.d.kindRule [o.a.isScalar, o.b.isScalarOrImm]
  | .bfi o => o.d.pairOk o.flag && o.a.pairOk o.flag && o.b.pairOk o.flag &&
      o.d.kindRule [o.a.isScalar, o.b.isScalar, o.c.isScalar]
  | .popc o | .clz o | .ctz o => o.a.pairOk o.b64 && o.d.kindRule [o.a.isScalar]
  | .fadd o | .fmul o => (o.fmt == .f32 || (!o.ftz && !o.b.isImm)) && o.d.kindRule [o.a.isScalar, o.b.isScalarOrImm]
  | .fmin o | .fmax o => o.rnd == .rne && (o.fmt == .f32 || (!o.ftz && !o.b.isImm)) &&
      o.d.kindRule [o.a.isScalar, o.b.isScalarOrImm]
  | .fdiv o => o.fmt == .f32 && o.d.kindRule [o.a.isScalar, o.b.isScalarOrImm]
  | .ffma o => (o.fmt == .f32 || !o.ftz) && o.d.kindRule [o.a.isScalar, o.b.isScalar, o.c.isScalar]
  | .fclass o => o.rnd == .rne && !o.na && (o.fmt == .f32 || !o.ftz) && o.d.kindRule [o.a.isScalar]
  | .frnd o | .rcp o | .sqrt o => (o.fmt == .f32 || !o.ftz) && o.d.kindRule [o.a.isScalar]
  | .rsq o | .exp2 o | .log2 o | .sin o | .cos o | .tanh o =>
      o.rnd == .rne && (o.fmt == .f32 || !o.ftz) && o.d.kindRule [o.a.isScalar]
  | .fscale o => o.d.kindRule [o.a.isScalar, o.b.isScalarOrImm]
  | .dadd o | .dmul o | .ddiv o => o.d.pairOk true && o.a.pairOk true && o.b.pairOk true &&
      o.d.kindRule [o.a.isScalar, o.b.isScalarOrImm]
  | .dmin o | .dmax o => o.rnd == .rne && o.d.pairOk true && o.a.pairOk true && o.b.pairOk true &&
      o.d.kindRule [o.a.isScalar, o.b.isScalarOrImm]
  | .dscale o => !o.nb && o.d.pairOk true && o.a.pairOk true && o.b.pairOk true &&
      o.d.kindRule [o.a.isScalar, o.b.isScalarOrImm]
  | .dfma o => o.d.pairOk true && o.a.pairOk true && o.b.pairOk true && o.c.pairOk true &&
      o.d.kindRule [o.a.isScalar, o.b.isScalar, o.c.isScalar]
  | .dset o => !o.ftz && o.a.pairOk true && o.b.pairOk true
  | .dclass o => o.rnd == .rne && !o.na && o.a.pairOk true && o.d.kindRule [o.a.isScalar]
  | .dfrnd o | .drcp o | .dsqrt o => o.d.pairOk true && o.a.pairOk true && o.d.kindRule [o.a.isScalar]
  | .drsq o => o.rnd == .rne && o.d.pairOk true && o.a.pairOk true && o.d.kindRule [o.a.isScalar]
  | .cvt o =>
      let di := o.dt.toNat ≤ 7
      let si := o.st.toNat ≤ 7
      (di || si) && o.dt.toNat ≤ 11 && o.st.toNat ≤ 11 && (!o.sat || (di && si)) && (!(di && si) || o.rnd == .rne) &&
      o.d.pairOk (cvtWide o.dt) && o.a.pairOk (cvtWide o.st) && o.d.kindRule [o.a.isScalar]
  | .fcvt o => 8 ≤ o.dt.toNat && o.dt.toNat ≤ 13 && 8 ≤ o.st.toNat && o.st.toNat ≤ 13 &&
      o.d.pairOk (cvtWide o.dt) && o.a.pairOk (cvtWide o.st) && o.d.kindRule [o.a.isScalar]
  | .qpack o => o.q == 12 || o.q == 13 || o.q == 14 || o.q == 5
  | .qunpk o => (o.q == 12 || o.q == 13 || o.q == 14 || o.q == 5) && o.rnd == .rne && !o.b.isScalar
  | .qscale o => (o.q == 12 || o.q == 13 || o.q == 14 || o.q == 5) && o.d.kindRule [o.a.isScalar]
  | .amax o => (o.fmt == 8 || o.fmt == 10 || o.fmt == 11) && o.d.kindRule [o.a.isScalar, o.b.isScalar]
  | .shfl o => o.op.toNat ≤ 4 && (match o.b with | .inl _ => true | .inr i => i.toNat ≤ 31)
  | .redux o => o.op.toNat ≤ 10 && !o.exc
  | .scan o => o.op.toNat ≤ 10
  | .match_ o => !o.b64 || o.a.toNat % 2 == 0
  | .ld o => memOk o false false && o.pr == 0
  | .st o => memOk o true false && o.pr == 0
  | .ldu o => memOk o false true && o.wid != .b128 && o.idx == 255 && o.form.ix == false && isFi o.form && o.pr == 0 &&
      o.data.toNat < 64
  | .stu o => memOk o true true && o.wid != .b128 && o.idx == 255 && isFi o.form && o.pr == 0 && o.data.toNat < 64
  | .ldf o => memOk o false false && !isFi o.form
  | .stf o => memOk o true false && !isFi o.form
  | .pref o => (o.space == .g || o.space == .p || o.space == .k) && (o.pol == .ca || (o.pol == .str && o.space != .p)) &&
      ixOk o.idx o.form.ix
  | .cctlInv o | .cctlWb o | .cctlUnlock o => o.pr == 0 && cctlSpace o.space && ixOk o.idx o.ix
  | .cctlLock o => cctlSpace o.space && ixOk o.idx o.ix
  | .cctlInvall sp => cctlSpace sp
  | .cctlIinv o => o.pr == 0 && o.space == .g && ixOk o.idx o.ix
  | .atom o => atomOk o && o.op.toNat ≤ 9 && (!o.w64 || (o.d.toNat % 2 == 0 && o.c.toNat % 2 == 0))
  | .red o => atomOk o && o.op.toNat ≤ 9 && o.op != 8 && (!o.w64 || o.c.toNat % 2 == 0) && o.d == 0 &&
      (match o.sem with | .relaxed | .rel _ => true | _ => false)
  | .cas o => atomOk o && o.op == 0 && (!o.w64 || (o.d.toNat % 2 == 0 && o.c.toNat % 4 == 0))
  | .fence s => s != .relaxed
  | .waita o => o.space == .g && o.op == 0 && (!o.w64 || (o.d.toNat % 2 == 0 && o.c.toNat % 2 == 0)) &&
      (match o.sem with | .relaxed | .acq _ => true | _ => false)
  | .cpy (.short dsp ssp ..) _ => dsp != 3 && ssp != 3
  | .cpy (.full dsp ssp mode cmp crc lb lbs _ _ b c) _ =>
      dsp != 3 && ssp != 3 && mode != 3 && cmp != 3 && (!crc || (cmp == 2 && mode == 0)) && (!lb || mode == 1) &&
      (lb || lbs == 0) && (cmp != 0 || c == 0) &&
      (mode != 1 || (ssp == 0 && dsp != 0)) && (mode != 2 || (dsp == 0 && ssp != 0)) && (mode == 0 || b.toNat ≤ 60)
  | .cpg o => (o.dsp == 1 || o.dsp == 2) && o.cmp != 3 && (o.cmp != 0 || o.c == 0)
  | .dense o => o.d.toNat ≤ 62
  | .mma o => c.width == 32 && mmaFieldsOk o && o.la == 0 && (!o.asp || o.a.toNat < 64) && (!o.bsp || o.b.toNat < 64) &&
      (o.fmt != 7 || ((o.asp || o.a.toNat % 2 == 0) && (o.bsp || o.b.toNat % 2 == 0)))
  | .mmah o => c.width == 32 && mmaFieldsOk o && o.fmt != 6 && !o.bsp && o.b.toNat ≤ 61 && (!o.asp || o.a.toNat < 64) &&
      (o.fmt != 7 || o.asp || o.a.toNat % 2 == 0)
  | .mwait t all => !all || t == 0
  | .adrain o => o.fmt.toNat ≤ 5 && ((o.fmt != 0 && o.fmt != 5) || o.rnd == .rne) &&
      (!o.sat || o.fmt == 2 || o.fmt == 3) && (o.scope.isNone == (o.c == 63)) && (!o.h || o.fmt == 5) &&
      (o.scope.isNone || o.fmt != 5) && (!o.dspS || (o.scope != some .fab && o.scope != some .sys))
  | .nmcall o => o.a.toNat ≤ 58
  | .embag _ o => o.a.toNat ≤ 60
  | .srd d sr _ => sr.toNat ≤ 0x19 &&
      (match d with | .v n => !srWide sr || n.toNat % 2 == 0 | .s n => n != 63)
  | .swr sr _ => (0x16 ≤ sr.toNat && sr.toNat ≤ 0x19) || (sr == 0x12 && c.handler)
  | .rte => c.handler
  | .pmev _ ev => ev.toNat ≤ 9
  | _ => true
where
  isFi : MemForm → Bool
    | .f _ => false
    | .fi _ => true
  ixOk (idx : BitVec 8) (ix : Bool) : Bool := !ix || idx.toNat % 2 == 0
  cctlSpace (sp : Space) : Bool := sp == .g || sp == .p || sp == .k
  memOk (o : MemOp) (store scalar : Bool) : Bool :=
    (match o.ord with | .relaxed => true | .acq _ => !store | .rel _ => store) &&
    (!store || (o.wid != .s8 && o.wid != .s16)) &&
    ((o.space != .s && o.space != .c && o.space != .p) || o.pol == .ca) &&
    (o.space != .p || o.ord == .relaxed) &&
    ixOk o.idx o.form.ix &&
    (scalar || o.data.toNat % o.wid.regs == 0)
  atomOk (o : AtomOp) : Bool := o.space == .g || o.space == .s || o.space == .c
  mmaFieldsOk (o : MmaOp) : Bool :=
    (!o.mx || o.fmt == 2 || o.fmt == 3) &&
    (if o.fmt == 4 then o.sb == 0 || o.sb == 2
     else if o.mx then true
     else if o.fmt == 7 then o.sb.toNat ≤ 1
     else o.sb == 0) &&
    (!o.zs || o.fmt != 7) && (o.scaled || o.c == 0)

/-- The instruction is one an encoding admits in launch `c`. -/
def Instr.wf (c : LaunchCtx) (i : Instr) : Bool := i.regsOk c && i.fieldsOk c

/-- The instructions that end their clause (R76, R329). -/
def Instr.endsClause : Instr → Bool
  | .bra .. | .brx .. | .call .. | .callx .. | .ret | .rte | .exit _ | .trap .. | .bkpt _ => true
  | _ => false

/-- Long-latency instructions that count on SETA (R102). -/
def Instr.longA : Instr → Bool
  | .ld _ | .ldu _ | .ldf _ | .atom _ | .cas _ | .waita _ => true
  | _ => false

/-- Long-latency instructions that count on SETB (R102). -/
def Instr.longB : Instr → Bool
  | .rcp _ | .rsq _ | .sqrt _ | .exp2 _ | .log2 _ | .sin _ | .cos _ | .tanh _ | .fdiv _ => true
  | .drcp _ | .drsq _ | .dsqrt _ | .ddiv _ | .idiv _ | .irem _ => true
  | .shfl o => o.G
  | _ => false

/-- Rendezvous instructions: JOIN, JOINT and every `.G` form (R98). -/
def Instr.rendezvous : Instr → Bool
  | .join | .joint .. => true
  | .vote o => o.G
  | .ballot o => o.G
  | .shfl o => o.G
  | .redux o | .scan o => o.G
  | .match_ o => o.G
  | .elect G _ _ => G
  | _ => false

/-- The instructions after which an idempotent region begins (R321); branches, calls and returns begin one where
they arrive. -/
def Instr.regionAfter : Instr → Bool
  | .atom _ | .red _ | .cas _ | .fence _ => true
  | .st o | .stu o | .stf o => match o.ord with | .rel _ => true | _ => false
  | .mma _ | .mmah _ | .aclr .. | .afill .. => true
  | .cpy (.full _ _ _ cmp ..) _ => cmp != 0
  | .cpg o => o.cmp != 0
  | .cpbat _ | .nmcall _ | .nmclose .. | .embag .. | .dense _ | .rec_ .. | .etail .. => true
  | .bar _ | .cbar _ | .mbinit .. | .mbarv .. | .mbexp .. | .mbinv .. => true
  | .regroup .. | .xmset _ | .phint .. | .trap .. | .bkpt _ => true
  | i => i.rendezvous

end Sys2Proof
end

