-- ==== Sys2Proof/Decode.lean ====
section
/-! DEFINITION. Decoding an instruction word (R73 to R89), total on any word and rejecting by subcode; the encoder,
from the same rulers. -/

namespace Sys2Proof

/-- A field [lo+len-1 : lo] of a word (R7). -/
def fld (w : Word64) (lo len : Nat) : BitVec len := w.extractLsb' lo len

/-! ## The fields of the rulers -/

/-- The F ruler of R78 and the two layouts of the FI ruler of R79. -/
inductive Fields where
  | f (opc : BitVec 10) (d a b c : BitVec 8) (m : BitVec 12) (g : Guard)
  | fm (opc : BitVec 10) (d a : BitVec 8) (m : BitVec 12) (i : BitVec 20) (g : Guard)
  | fi (opc : BitVec 10) (d a : BitVec 8) (imm : BitVec 32) (g : Guard)
  deriving DecidableEq, Repr

/-- The word that holds the fields. -/
def Fields.pack : Fields → Word64
  | .f opc d a b c m g => 0#2 ++ opc ++ d ++ a ++ b ++ c ++ m ++ g.p ++ BitVec.ofBool g.neg ++ 0#4
  | .fm opc d a m i g => 2#2 ++ opc ++ d ++ a ++ m ++ i ++ BitVec.ofBool g.neg ++ g.p
  | .fi opc d a imm g => 2#2 ++ opc ++ d ++ a ++ imm ++ BitVec.ofBool g.neg ++ g.p

def unpackF (w : Word64) : Fields :=
  .f (fld w 52 10) (fld w 44 8) (fld w 36 8) (fld w 28 8) (fld w 20 8) (fld w 8 12) ⟨fld w 5 3, fld w 4 1 == 1⟩

def unpackFm (w : Word64) : Fields :=
  .fm (fld w 52 10) (fld w 44 8) (fld w 36 8) (fld w 24 12) (fld w 4 20) ⟨fld w 0 3, fld w 3 1 == 1⟩

def unpackFi (w : Word64) : Fields :=
  .fi (fld w 52 10) (fld w 44 8) (fld w 36 8) (fld w 4 32) ⟨fld w 0 3, fld w 3 1 == 1⟩

/-- The clause header (R73). -/
def Header.pack (h : Header) : Word64 :=
  15#4 ++ h.wait ++ h.setA ++ h.setB ++ h.len ++ BitVec.ofBool h.rgne ++ h.pf ++ 0#33

def Header.unpack (w : Word64) : Header :=
  ⟨fld w 48 12, fld w 44 4, fld w 40 4, fld w 36 4, fld w 35 1 == 1, fld w 33 2⟩

def Slot.pack (s : Slot) : BitVec 31 := s.pop ++ s.d ++ s.s ++ s.imm5 ++ s.g

def Slot.unpack (w : BitVec 31) : Slot :=
  ⟨w.extractLsb' 24 7, w.extractLsb' 16 8, w.extractLsb' 8 8, w.extractLsb' 3 5, w.extractLsb' 0 3⟩

/-- The two slots of a P word (R82). -/
def packPair (x y : Slot) : Word64 := 1#2 ++ x.pack ++ y.pack

/-! ## The opcode map -/

/-- How an opcode's words are laid out: F accepted, and which FI layout, if any (R85, R86). -/
structure Forms where
  f   : Bool
  i20 : Bool
  i32 : Bool
  deriving DecidableEq, Repr

/-- R85's map, with the forms of each instruction; none for an unassigned opcode of classes 0 to 13. -/
def opcForms (opc : BitVec 10) : Option Forms :=
  let F := some ⟨true, false, false⟩
  let I := some ⟨true, true, false⟩
  let W := some ⟨false, false, true⟩
  let FW := some ⟨true, false, true⟩
  let M := some ⟨false, true, false⟩
  let n := opc.toNat
  let k := n % 64
  match n / 64 with
  | 0 => match k with
    | 1 | 5 | 6 | 7 | 9 | 0xB | 0xC => F
    | 2 | 4 | 8 | 0xA | 0xD | 0xE => W
    | 3 => M
    | _ => none
  | 1 => match k with
    | 0 | 1 | 3 | 4 | 7 | 8 | 9 | 0xA | 0xF | 0x11 => I
    | 2 | 5 | 6 | 0xB | 0xC | 0xD | 0xE | 0x10 | 0x12 => F
    | 0x13 | 0x14 => W
    | _ => none
  | 2 => match k with
    | 0 | 1 | 2 | 5 | 6 | 7 | 8 | 0xA => I
    | _ => if k ≤ 0x15 then F else none
  | 3 => match k with
    | 0 | 1 | 3 | 4 | 5 | 8 | 9 => I
    | _ => if k ≤ 0x11 then F else none
  | 4 => match k with
    | 0 | 1 | 3 | 4 | 5 | 8 | 0xC => I
    | _ => if k ≤ 0xC then F else none
  | 5 => if k ≤ 5 then F else none
  | 6 => match k with
    | 2 => I
    | 9 => FW
    | _ => if k ≤ 9 then F else none
  | 7 => match k with
    | 0 | 1 | 6 => I
    | 2 | 3 => M
    | 4 | 5 | 7 => F
    | _ => none
  | 8 => if k ≤ 5 then F else none
  | 9 => match k with
    | 0 | 3 => FW
    | _ => if k ≤ 6 then F else none
  | 10 => if k ≤ 7 then F else none
  | 11 => if k ≤ 2 then F else none
  | 12 => if k ≤ 6 then F else none
  | 13 => match k with
    | 0 | 5 => W
    | 1 | 2 | 3 | 4 => F
    | _ => none
  | _ => none

/-! ## Reading the fields of one instruction -/

/-- An instruction as read, with what the reading itself found wrong: a register number its file does not hold
(0x05) or a field with no meaning (0x06). -/
structure Parsed where
  i  : Instr
  b5 : Bool
  b6 : Bool
  deriving DecidableEq, Repr

def mbit (m : BitVec 12) (k : Nat) : Bool := m.getLsbD k

/-- A register of the file its kind bit names. -/
def kreg (k : Bool) (n : BitVec 8) : Reg := if k then .s (n.setWidth 6) else .v n

/-- A scalar number of 64 or more, a predicate number of 8 or more. -/
def sc64 (n : BitVec 8) : Bool := 64 ≤ n.toNat
def pr8 (n : BitVec 8) : Bool := 8 ≤ n.toNat

def kbad (k : Bool) (n : BitVec 8) : Bool := k && sc64 n

def rnd2 (r : BitVec 2) : Rnd :=
  match r.toNat with
  | 0 => .rne
  | 1 => .rz
  | 2 => .ru
  | _ => .rd

def pfmt2 (r : BitVec 2) : PFmt :=
  match r.toNat with
  | 1 => .f16x2
  | 2 => .bf16x2
  | _ => .f32

def space3 (r : BitVec 3) : Space :=
  match r.toNat with
  | 1 => .s
  | 2 => .c
  | 3 => .p
  | 4 => .k
  | _ => .g

def wid3 (r : BitVec 3) : Wid :=
  match r.toNat with
  | 0 => .b8
  | 1 => .b16
  | 2 => .b32
  | 3 => .b64
  | 4 => .b128
  | 5 => .s8
  | _ => .s16

def scope3 (r : BitVec 3) : Option Scope :=
  match r.toNat with
  | 1 => some .core
  | 2 => some .clu
  | 3 => some .dev
  | 4 => some .fab
  | 5 => some .sys
  | _ => none

/-- ORD of R178; none for a reserved code. -/
def ord4 (r : BitVec 4) : Option MemOrd :=
  if r == 0 then some .relaxed
  else if r.toNat < 8 then (scope3 (r.setWidth 3)).map .acq
  else (scope3 ((r - 8).setWidth 3)).map .rel

def pol2 (r : BitVec 2) : Pol :=
  match r.toNat with
  | 0 => .ca
  | 1 => .nl
  | 2 => .str
  | _ => .uc

/-- SEM and SCOPE of R275; none where the table forbids them together. -/
def sem5 (sem : BitVec 2) (sc : BitVec 3) : Option Sem :=
  match sem.toNat with
  | 0 => if sc == 0 then some .relaxed else none
  | 1 => (scope3 sc).map .acq
  | 2 => (scope3 sc).map .rel
  | _ => (scope3 sc).map .ar

def orElse' {α : Type} (o : Option α) (d : α) : α := o.getD d

def Guard.isAlways (g : Guard) : Bool := g == Guard.always

/-- The kind bits DK, AK, BK, CK (R80). -/
def dk (m : BitVec 12) : Bool := mbit m 11
def ak (m : BitVec 12) : Bool := mbit m 10
def bk (m : BitVec 12) : Bool := mbit m 9
def ck (m : BitVec 12) : Bool := mbit m 8

/-- The modifier bits [hi:lo] are all zero. -/
def mzero (m : BitVec 12) (lo len : Nat) : Bool := m.extractLsb' lo len == 0

def intTy (m : BitVec 12) : IntTy := ⟨mbit m 7, mbit m 6⟩

/-- Classes 1 to 5, F form, with the kind bits' files. -/
def pD (m : BitVec 12) (d : BitVec 8) : Reg := kreg (dk m) d

/-- The B source of an instruction that has both forms. -/
inductive BSrc where
  | reg (k : Bool) (n : BitVec 8) (c : BitVec 8) (ck : Bool)
  | imm (i : BitVec 20) (bk ck : Bool)

def BSrc.src : BSrc → Src
  | .reg k n _ _ => .reg (kreg k n)
  | .imm i _ _ => .imm i

def BSrc.b5 : BSrc → Bool
  | .reg k n _ _ => kbad k n
  | .imm .. => false

/-- C unused, and BK and CK zero with an immediate (R78, R80). -/
def BSrc.b6 : BSrc → Bool
  | .reg _ _ c ck => c != 0 || ck
  | .imm _ bk ck => bk || ck

def mkIntBin (k : IntBin → Instr) (d a : BitVec 8) (m : BitVec 12) (b : BSrc) (g : Guard) : Parsed :=
  ⟨k ⟨intTy m, mbit m 5, kreg (dk m) d, kreg (ak m) a, b.src, g⟩,
   kbad (dk m) d || kbad (ak m) a || b.b5, b.b6 || !mzero m 0 5⟩

def mkIntTri (k : IntTri → Instr) (d a b c : BitVec 8) (m : BitVec 12) (g : Guard) : Parsed :=
  ⟨k ⟨intTy m, mbit m 5, kreg (dk m) d, kreg (ak m) a, kreg (bk m) b, kreg (ck m) c, g⟩,
   kbad (dk m) d || kbad (ak m) a || kbad (bk m) b || kbad (ck m) c, !mzero m 0 5⟩

/-- One-source F instructions: B, C and their kind bits are zero. -/
def unused2 (b c : BitVec 8) (m : BitVec 12) : Bool := b != 0 || c != 0 || bk m || ck m

def mkIntUn (k : IntUn → Instr) (d a b c : BitVec 8) (m : BitVec 12) (g : Guard) : Parsed :=
  ⟨k ⟨mbit m 7, mbit m 5, kreg (dk m) d, kreg (ak m) a, g⟩,
   kbad (dk m) d || kbad (ak m) a, unused2 b c m || mbit m 6 || !mzero m 0 5⟩

def mkLogBin (k : LogBin → Instr) (d a : BitVec 8) (m : BitVec 12) (b : BSrc) (g : Guard) : Parsed :=
  ⟨k ⟨mbit m 7, kreg (dk m) d, kreg (ak m) a, b.src, g⟩,
   kbad (dk m) d || kbad (ak m) a || b.b5, b.b6 || !mzero m 0 7⟩

def mkLogUn (k : LogUn → Instr) (d a b c : BitVec 8) (m : BitVec 12) (g : Guard) : Parsed :=
  ⟨k ⟨mbit m 7, kreg (dk m) d, kreg (ak m) a, g⟩, kbad (dk m) d || kbad (ak m) a, unused2 b c m || !mzero m 0 7⟩

def kbad4 (d a b c : BitVec 8) (m : BitVec 12) : Bool :=
  kbad (dk m) d || kbad (ak m) a || kbad (bk m) b || kbad (ck m) c

def mkPredBin (k : PredBin → Instr) (d a b c : BitVec 8) (m : BitVec 12) (g : Guard) : Parsed :=
  ⟨k ⟨mbit m 1, mbit m 0, d.setWidth 3, a.setWidth 3, b.setWidth 3, g⟩,
   pr8 d || pr8 a || pr8 b, c != 0 || !mzero m 2 10⟩

def mkFBin (k : FBin → Instr) (d a : BitVec 8) (m : BitVec 12) (b : BSrc) (g : Guard) : Parsed :=
  ⟨k ⟨pfmt2 (m.extractLsb' 6 2), rnd2 (m.extractLsb' 4 2), mbit m 3, mbit m 2, mbit m 1, kreg (dk m) d, kreg (ak m) a,
      b.src, g⟩,
   kbad (dk m) d || kbad (ak m) a || b.b5, b.b6 || mbit m 0 || m.extractLsb' 6 2 == 3#2⟩

def mkFUn (k : FUn → Instr) (d a b c : BitVec 8) (m : BitVec 12) (g : Guard) : Parsed :=
  ⟨k ⟨pfmt2 (m.extractLsb' 6 2), rnd2 (m.extractLsb' 4 2), mbit m 3, mbit m 2, kreg (dk m) d, kreg (ak m) a, g⟩,
   kbad (dk m) d || kbad (ak m) a, unused2 b c m || !mzero m 0 2 || m.extractLsb' 6 2 == 3#2⟩

def mkFSet (k : FSetOp → Instr) (d a : BitVec 8) (m : BitVec 12) (b : BSrc) (g : Guard) : Parsed :=
  ⟨k ⟨m.extractLsb' 0 3, mbit m 3, mbit m 4, d.setWidth 3, kreg (ak m) a, b.src, g⟩,
   pr8 d || kbad (ak m) a || b.b5, b.b6 || dk m || !mzero m 5 3⟩

def mkDBin (k : DBin → Instr) (d a : BitVec 8) (m : BitVec 12) (b : BSrc) (g : Guard) : Parsed :=
  ⟨k ⟨rnd2 (m.extractLsb' 4 2), mbit m 2, mbit m 1, kreg (dk m) d, kreg (ak m) a, b.src, g⟩,
   kbad (dk m) d || kbad (ak m) a || b.b5, b.b6 || mbit m 0 || mbit m 3 || !mzero m 6 2⟩

def mkDUn (k : DUn → Instr) (d a b c : BitVec 8) (m : BitVec 12) (g : Guard) : Parsed :=
  ⟨k ⟨rnd2 (m.extractLsb' 4 2), mbit m 2, kreg (dk m) d, kreg (ak m) a, g⟩,
   kbad (dk m) d || kbad (ak m) a, unused2 b c m || !mzero m 0 2 || mbit m 3 || !mzero m 6 2⟩

def mkCvt (k : CvtOp → Instr) (d a b c : BitVec 8) (m : BitVec 12) (g : Guard) : Parsed :=
  ⟨k ⟨m.extractLsb' 4 4, m.extractLsb' 0 4, rnd2 (c.extractLsb' 0 2), c.getLsbD 2, kreg (dk m) d, kreg (ak m) a, g⟩,
   kbad (dk m) d || kbad (ak m) a, b != 0 || bk m || ck m || c.extractLsb' 3 5 != 0⟩

/-- The instructions with an F form and an FI form in the M12 + I20 layout, by opcode (classes 1 to 4). -/
def parseBin (opc : Nat) (d a : BitVec 8) (m : BitVec 12) (b : BSrc) (g : Guard) : Option Parsed :=
  match opc with
  | 0x040 => some (mkIntBin .iadd d a m b g)
  | 0x041 => some (mkIntBin .isub d a m b g)
  | 0x043 => some (mkIntBin .imul d a m b g)
  | 0x044 => some (mkIntBin .imulh d a m b g)
  | 0x047 => some (mkIntBin .idiv d a m b g)
  | 0x048 => some (mkIntBin .irem d a m b g)
  | 0x049 => some (mkIntBin .imin d a m b g)
  | 0x04A => some (mkIntBin .imax d a m b g)
  | 0x04F => some ⟨.iset ⟨intTy m, m.extractLsb' 0 3, d.setWidth 3, kreg (ak m) a, b.src, g⟩,
      pr8 d || kbad (ak m) a || b.b5, b.b6 || dk m || mbit m 5 || !mzero m 3 2⟩
  | 0x051 => some ⟨.lea ⟨intTy m, m.extractLsb' 0 5, kreg (dk m) d, kreg (ak m) a, b.src, g⟩,
      kbad (dk m) d || kbad (ak m) a || b.b5, b.b6 || mbit m 5⟩
  | 0x080 => some (mkLogBin .and d a m b g)
  | 0x081 => some (mkLogBin .or d a m b g)
  | 0x082 => some (mkLogBin .xor d a m b g)
  | 0x085 => some (mkLogBin .shl d a m b g)
  | 0x086 => some (mkLogBin .shr d a m b g)
  | 0x087 => some (mkLogBin .sar d a m b g)
  | 0x088 => some (mkLogBin .rot d a m b g)
  | 0x08A => some ⟨.bfe ⟨mbit m 6, mbit m 7, kreg (dk m) d, kreg (ak m) a, b.src, g⟩,
      kbad (dk m) d || kbad (ak m) a || b.b5, b.b6 || !mzero m 0 6⟩
  | 0x0C0 => some (mkFBin .fadd d a m b g)
  | 0x0C1 => some (mkFBin .fmul d a m b g)
  | 0x0C3 => some (mkFBin .fmin d a m b g)
  | 0x0C4 => some (mkFBin .fmax d a m b g)
  | 0x0C5 => some (mkFSet .fset d a m b g)
  | 0x0C8 => some ⟨.fscale ⟨rnd2 (m.extractLsb' 4 2), mbit m 3, mbit m 2, kreg (dk m) d, kreg (ak m) a, b.src, g⟩,
      kbad (dk m) d || kbad (ak m) a || b.b5, b.b6 || !mzero m 0 2 || !mzero m 6 2⟩
  | 0x0C9 => some (mkFBin .fdiv d a m b g)
  | 0x100 => some (mkDBin .dadd d a m b g)
  | 0x101 => some (mkDBin .dmul d a m b g)
  | 0x103 => some (mkDBin .dmin d a m b g)
  | 0x104 => some (mkDBin .dmax d a m b g)
  | 0x105 => some (mkFSet .dset d a m b g)
  | 0x108 => some (mkDBin .dscale d a m b g)
  | 0x10C => some (mkDBin .ddiv d a m b g)
  | _ => none

/-- The instructions of classes 1 to 5 that have an F form only. -/
def parseF15 (opc : Nat) (d a b c : BitVec 8) (m : BitVec 12) (g : Guard) : Option Parsed :=
  match opc with
  | 0x042 => some (mkIntTri .iadd3 d a b c m g)
  | 0x045 => some (mkIntTri .imad d a b c m g)
  | 0x046 => some (mkIntTri .imadw d a b c m g)
  | 0x04B => some (mkIntUn .iabs d a b c m g)
  | 0x04C => some (mkIntUn .ineg d a b c m g)
  | 0x04D => some (mkIntTri .isad d a b c m g)
  | 0x04E => some ⟨.idot4 ⟨mbit m 5, mbit m 1, mbit m 0, kreg (dk m) d, kreg (ak m) a, kreg (bk m) b, kreg (ck m) c, g⟩,
      kbad4 d a b c m, !mzero m 6 2 || !mzero m 2 3⟩
  | 0x050 => some ⟨.sel ⟨mbit m 7, kreg (dk m) d, kreg (ak m) a, kreg (bk m) b, c.setWidth 3, g⟩,
      kbad (dk m) d || kbad (ak m) a || kbad (bk m) b || pr8 c, ck m || !mzero m 0 7⟩
  | 0x052 => some (mkLogUn .mov d a b c m g)
  | 0x083 => some (mkLogUn .not d a b c m g)
  | 0x084 => some ⟨.bool3 ⟨m.extractLsb' 0 8, kreg (dk m) d, kreg (ak m) a, kreg (bk m) b, kreg (ck m) c, g⟩,
      kbad4 d a b c m, false⟩
  | 0x089 => some ⟨.funnel ⟨mbit m 0, kreg (dk m) d, kreg (ak m) a, kreg (bk m) b, kreg (ck m) c, g⟩,
      kbad4 d a b c m, !mzero m 1 7⟩
  | 0x08B => some ⟨.bfi ⟨mbit m 7, kreg (dk m) d, kreg (ak m) a, kreg (bk m) b, kreg (ck m) c, g⟩,
      kbad4 d a b c m, !mzero m 0 7⟩
  | 0x08C => some (mkLogUn .popc d a b c m g)
  | 0x08D => some (mkLogUn .clz d a b c m g)
  | 0x08E => some (mkLogUn .ctz d a b c m g)
  | 0x08F => some (mkLogUn .brev d a b c m g)
  | 0x090 => some ⟨.prmt ⟨false, kreg (dk m) d, kreg (ak m) a, kreg (bk m) b, kreg (ck m) c, g⟩,
      kbad4 d a b c m, !mzero m 0 8⟩
  | 0x091 => some (mkPredBin .pand d a b c m g)
  | 0x092 => some (mkPredBin .por d a b c m g)
  | 0x093 => some (mkPredBin .pxor d a b c m g)
  | 0x094 => some ⟨.pnot ⟨mbit m 1, d.setWidth 3, a.setWidth 3, g⟩, pr8 d || pr8 a,
      b != 0 || c != 0 || mbit m 0 || !mzero m 2 10⟩
  | 0x095 =>
      let z := b != 0 || c != 0 || !mzero m 4 8 || mbit m 0
      match (m.extractLsb' 2 2 : BitVec 2).toNat with
      | 0 => some ⟨.pmov (.pp (mbit m 1) (d.setWidth 3) (a.setWidth 3)) g, pr8 d || pr8 a, z⟩
      | 1 => some ⟨.pmov (.toV d) g, false, z || mbit m 1 || a != 0⟩
      | 2 => some ⟨.pmov (.fromV a) g, false, z || mbit m 1 || d != 0⟩
      | _ => some ⟨.pmov (.toV 0) g, false, true⟩
  | 0x0C2 => some ⟨.ffma ⟨pfmt2 (m.extractLsb' 6 2), rnd2 (m.extractLsb' 4 2), mbit m 3, mbit m 2, mbit m 1, mbit m 0,
      kreg (dk m) d, kreg (ak m) a, kreg (bk m) b, kreg (ck m) c, g⟩, kbad4 d a b c m, m.extractLsb' 6 2 == 3#2⟩
  | 0x0C6 => some (mkFUn .fclass d a b c m g)
  | 0x0C7 => some (mkFUn .frnd d a b c m g)
  | 0x0CA => some (mkFUn .rcp d a b c m g)
  | 0x0CB => some (mkFUn .rsq d a b c m g)
  | 0x0CC => some (mkFUn .sqrt d a b c m g)
  | 0x0CD => some (mkFUn .exp2 d a b c m g)
  | 0x0CE => some (mkFUn .log2 d a b c m g)
  | 0x0CF => some (mkFUn .sin d a b c m g)
  | 0x0D0 => some (mkFUn .cos d a b c m g)
  | 0x0D1 => some (mkFUn .tanh d a b c m g)
  | 0x102 => some ⟨.dfma ⟨rnd2 (m.extractLsb' 4 2), mbit m 2, mbit m 1, mbit m 0,
      kreg (dk m) d, kreg (ak m) a, kreg (bk m) b, kreg (ck m) c, g⟩, kbad4 d a b c m, mbit m 3 || !mzero m 6 2⟩
  | 0x106 => some (mkDUn .dclass d a b c m g)
  | 0x107 => some (mkDUn .dfrnd d a b c m g)
  | 0x109 => some (mkDUn .drcp d a b c m g)
  | 0x10A => some (mkDUn .drsq d a b c m g)
  | 0x10B => some (mkDUn .dsqrt d a b c m g)
  | 0x140 => some (mkCvt .cvt d a b c m g)
  | 0x141 => some (mkCvt .fcvt d a b c m g)
  | 0x142 => some ⟨.qpack ⟨m.extractLsb' 4 4, rnd2 (m.extractLsb' 2 2), d, a, kreg (bk m) b, g⟩,
      kbad (bk m) b, c != 0 || dk m || ak m || ck m || !mzero m 0 2⟩
  | 0x143 => some ⟨.qunpk ⟨m.extractLsb' 4 4, .rne, d, a, kreg (bk m) b, g⟩,
      kbad (bk m) b, c != 0 || dk m || ak m || ck m || !mzero m 0 4⟩
  | 0x144 => some ⟨.qscale ⟨m.extractLsb' 4 4, kreg (dk m) d, kreg (ak m) a, g⟩,
      kbad (dk m) d || kbad (ak m) a, unused2 b c m || !mzero m 0 4⟩
  | 0x145 => some ⟨.amax ⟨m.extractLsb' 4 4, kreg (dk m) d, kreg (ak m) a, kreg (bk m) b, g⟩,
      kbad (dk m) d || kbad (ak m) a || kbad (bk m) b, c != 0 || ck m || !mzero m 0 4⟩
  | _ => none

/-- Class 0, F form. -/
def parseF0 (opc : Nat) (d a b c : BitVec 8) (m : BitVec 12) (g : Guard) : Option Parsed :=
  let z := d != 0 || a != 0 || b != 0 || c != 0 || m != 0
  match opc with
  | 0x001 => some ⟨.nop g, false, z⟩
  | 0x005 => some ⟨.callx g (kreg (mbit m 0) a), kbad (mbit m 0) a, d != 0 || b != 0 || c != 0 || !mzero m 1 11⟩
  | 0x006 => some ⟨.ret, false, z || !g.isAlways⟩
  | 0x007 => some ⟨.join, false, z || !g.isAlways⟩
  | 0x009 => some ⟨.exit g, false, z⟩
  | 0x00B => some ⟨.yield, false, z || !g.isAlways⟩
  | 0x00C => some ⟨.rgn, false, z || !g.isAlways⟩
  | _ => none

/-- The FI form in the I32 layout, all classes. -/
def parseFi (opc : Nat) (d a : BitVec 8) (imm : BitVec 32) (g : Guard) : Option Parsed :=
  match opc with
  | 0x002 => some ⟨.bra g (d ++ a) imm, false, false⟩
  | 0x004 => some ⟨.call g imm, false, d != 0 || a != 0⟩
  | 0x008 => some ⟨.joint (d.setWidth 3) imm, pr8 d, a != 0 || !g.isAlways⟩
  | 0x00A => some ⟨.delay g imm, false, d != 0 || a != 0⟩
  | 0x00D => some ⟨.phint d a imm, false, !g.isAlways⟩
  | 0x00E => some ⟨.ipf g (d.setWidth 4) imm, false, a != 0 || 16 ≤ d.toNat⟩
  | 0x053 => some ⟨.movi (kreg (a == 1) d) imm g, kbad (a == 1) d, 2 ≤ a.toNat⟩
  | 0x054 => some ⟨.movw (kreg (a == 1) d) imm g, kbad (a == 1) d, 2 ≤ a.toNat⟩
  | 0x189 => some ⟨.xmset (.inr imm), false, d != 0 || a != 0 || !g.isAlways⟩
  | 0x240 => some ⟨.cpy (.short (d.extractLsb' 6 2) (a.extractLsb' 6 2) (d.extractLsb' 0 6) (a.extractLsb' 0 6)
      (imm.extractLsb' 20 12) (imm.extractLsb' 10 10) (imm.extractLsb' 0 10)) g, false, false⟩
  | 0x243 => some ⟨.cpwait (.inr imm), false, d != 0 || a != 0 || !g.isAlways⟩
  | 0x340 => some ⟨.trap (imm.setWidth 8) g, false, d != 0 || a != 0 || imm.extractLsb' 8 24 != 0⟩
  | 0x345 => some ⟨.pmev (d.setWidth 2) (imm.setWidth 16), false,
      4 ≤ d.toNat || a != 0 || imm.extractLsb' 16 16 != 0 || !g.isAlways⟩
  | _ => none

/-- Class 6, F form (R115). -/
def parseF6 (opc : Nat) (d a b c : BitVec 8) (m : BitVec 12) (g : Guard) : Option Parsed :=
  let G := mbit m 11
  let op : BitVec 4 := m.extractLsb' 0 4
  let pr : BitVec 3 := m.extractLsb' 4 3
  let res := c != 0 || !mzero m 7 2
  let noPr := !mzero m 4 3
  let noOp := !mzero m 0 4
  let noDk := mbit m 10
  let noEx := mbit m 9
  match opc with
  | 0x180 => some ⟨.vote ⟨op.setWidth 2, G, d.setWidth 3, a.setWidth 3, g⟩, pr8 d || pr8 a,
      res || noPr || noDk || noEx || b != 0 || 4 ≤ op.toNat⟩
  | 0x181 => some ⟨.ballot ⟨G, kreg (mbit m 10) d, a.setWidth 3, g⟩, kbad (mbit m 10) d || pr8 a,
      res || noPr || noEx || noOp || b != 0⟩
  | 0x182 => some ⟨.shfl ⟨op, G, pr, d, a, .inl b, g⟩, false, res || noDk || noEx⟩
  | 0x183 => some ⟨.redux ⟨op, G, mbit m 9, d, a, g⟩, false, res || noPr || noDk || b != 0⟩
  | 0x184 => some ⟨.scan ⟨op, G, mbit m 9, d, a, g⟩, false, res || noPr || noDk || b != 0⟩
  | 0x185 => some ⟨.match_ ⟨op == 1, G, pr, d, a, g⟩, false, res || noDk || noEx || b != 0 || 2 ≤ op.toNat⟩
  | 0x186 => some ⟨.elect G (d.setWidth 3) g, pr8 d, res || noPr || noDk || noEx || noOp || a != 0 || b != 0⟩
  | 0x187 => some ⟨.regroup a (b.setWidth 6), sc64 b, d != 0 || c != 0 || m != 0 || !g.isAlways⟩
  | 0x188 => some ⟨.xmget (d.setWidth 6), sc64 d, a != 0 || b != 0 || c != 0 || m != 0 || !g.isAlways⟩
  | 0x189 => some ⟨.xmset (.inl (a.setWidth 6)), sc64 a, d != 0 || b != 0 || c != 0 || m != 0 || !g.isAlways⟩
  | _ => none

/-- Class 7, both forms; in the FI form PR is zero and the index is the low word (R177). -/
def parse7 (opc : Nat) (d a b : BitVec 8) (form : MemForm) (pr : BitVec 3) (m : BitVec 12) (g : Guard) : Option Parsed :=
  let sp : BitVec 3 := m.extractLsb' 9 3
  let wd : BitVec 3 := m.extractLsb' 6 3
  let od : BitVec 4 := m.extractLsb' 2 4
  let po : BitVec 2 := m.extractLsb' 0 2
  let bad := 5 ≤ sp.toNat || wd == 7 || (ord4 od).isNone
  let mo : MemOp := ⟨space3 sp, wid3 wd, orElse' (ord4 od) .relaxed, pol2 po, d, a.setWidth 6, b, form, pr, g⟩
  let co : CctlOp := ⟨space3 sp, a.setWidth 6, b, form.ix, pr, g⟩
  match opc with
  | 0x1C0 => some ⟨.ld mo, sc64 a, bad⟩
  | 0x1C1 => some ⟨.st mo, sc64 a, bad⟩
  | 0x1C2 => some ⟨.ldu mo, sc64 a || sc64 d, bad⟩
  | 0x1C3 => some ⟨.stu mo, sc64 a || sc64 d, bad⟩
  | 0x1C4 => some ⟨.ldf mo, sc64 a, bad⟩
  | 0x1C5 => some ⟨.stf mo, sc64 a, bad⟩
  | 0x1C6 => some ⟨.pref ⟨d == 1, space3 sp, pol2 po, a.setWidth 6, b, form, g⟩, sc64 a,
      5 ≤ sp.toNat || wd != 0 || od != 0 || pr != 0 || 2 ≤ d.toNat⟩
  | 0x1C7 =>
      let bad := 5 ≤ sp.toNat || wd != 0 || od != 0 || po != 0
      match d.toNat with
      | 0 => some ⟨.cctlInv co, sc64 a, bad⟩
      | 1 => some ⟨.cctlWb co, sc64 a, bad⟩
      | 2 => some ⟨.cctlLock co, sc64 a, bad⟩
      | 3 => some ⟨.cctlUnlock co, sc64 a, bad⟩
      | 4 => some ⟨.cctlInvall (space3 sp), sc64 a,
          bad || a != 63 || b != 255 || form.ix || pr != 0 || !g.isAlways⟩
      | 5 => some ⟨.cctlIinv co, sc64 a, bad⟩
      | _ => some ⟨.cctlInvall (space3 sp), sc64 a, true⟩
  | _ => none

/-- Class 8 (R275). -/
def parseF8 (opc : Nat) (d a b c : BitVec 8) (m : BitVec 12) (g : Guard) : Option Parsed :=
  let sp : BitVec 2 := m.extractLsb' 10 2
  let sem := sem5 (m.extractLsb' 4 2) (m.extractLsb' 6 3)
  let op : BitVec 4 := m.extractLsb' 0 4
  let bad := sp == 3 || sem.isNone
  let o : AtomOp := ⟨space3 (sp.setWidth 3), mbit m 9, orElse' sem .relaxed, op, d, a.setWidth 6, b, c, g⟩
  match opc with
  | 0x200 => some ⟨.atom o, sc64 a, bad⟩
  | 0x201 => some ⟨.red o, sc64 a, bad⟩
  | 0x202 => some ⟨.cas o, sc64 a, bad⟩
  | 0x203 => some ⟨.fence (orElse' sem .relaxed), false,
      sem.isNone || d != 0 || a != 0 || b != 0 || c != 0 || sp != 0 || mbit m 9 || op != 0 || !g.isAlways⟩
  | 0x204 => some ⟨.waita o, sc64 a, bad⟩
  | 0x205 => some ⟨.waitge (match sem with | some (.acq s) => s | _ => .dev) (a.setWidth 6) (b.setWidth 6), sc64 a || sc64 b,
      (match sem with | some (.acq _) => false | _ => true) || d != 0 || c != 0 || sp != 0 || mbit m 9 || op != 0 ||
      !g.isAlways⟩
  | _ => none

/-- Class 9, F form (R197 to R200, R283, R285, R311). -/
def parseF9 (opc : Nat) (d a b c : BitVec 8) (m : BitVec 12) (g : Guard) : Option Parsed :=
  let s6 (x : BitVec 8) : BitVec 6 := x.setWidth 6
  match opc with
  | 0x240 => some ⟨.cpy (.full (m.extractLsb' 10 2) (m.extractLsb' 8 2) (m.extractLsb' 6 2) (m.extractLsb' 4 2)
      (mbit m 3) (mbit m 2) (m.extractLsb' 0 2) (s6 d) (s6 a) (s6 b) (s6 c)) g,
      sc64 d || sc64 a || sc64 b || sc64 c, false⟩
  | 0x241 => some ⟨.cpg ⟨m.extractLsb' 10 2, m.extractLsb' 4 2, s6 d, s6 a, b, s6 c, g⟩,
      sc64 d || sc64 a || sc64 c, !mzero m 6 4 || !mzero m 0 4⟩
  | 0x242 => some ⟨.cpbat (s6 d), sc64 d, a != 0 || b != 0 || c != 0 || m != 0 || !g.isAlways⟩
  | 0x243 => some ⟨.cpwait (.inl (s6 a)), sc64 a, d != 0 || b != 0 || c != 0 || m != 0 || !g.isAlways⟩
  | 0x244 => some ⟨.etail (s6 a) (s6 b) g, sc64 a || sc64 b, d != 0 || c != 0 || m != 0⟩
  | 0x245 => some ⟨.rec_ (m.extractLsb' 10 2 == 1#2) (s6 a) (s6 b) (s6 c) g, sc64 a || sc64 b || sc64 c,
      d != 0 || !mzero m 0 10 || mbit m 11⟩
  | 0x246 => some ⟨.dense ⟨s6 d, s6 a, s6 b, s6 c, g⟩, false, sc64 d || sc64 a || sc64 b || sc64 c || m != 0⟩
  | _ => none

/-- Class 10 (R211). -/
def parseF10 (opc : Nat) (d a b c : BitVec 8) (m : BitVec 12) (g : Guard) : Option Parsed :=
  let s6 (x : BitVec 8) : BitVec 6 := x.setWidth 6
  let mo (la : BitVec 2) (bsp : Bool) : MmaOp :=
    ⟨m.extractLsb' 8 3, mbit m 7, m.extractLsb' 5 2, mbit m 4, mbit m 3, bsp, la, d, a, b, c⟩
  match opc with
  | 0x280 => some ⟨.mma (mo 0 (mbit m 2)), false, mbit m 11 || !mzero m 0 2 || !g.isAlways⟩
  | 0x281 => some ⟨.mmah (mo (m.extractLsb' 0 2) false), false, mbit m 11 || mbit m 2 || !g.isAlways⟩
  | 0x282 => some ⟨.mfence a (m.extractLsb' 0 4), false, d != 0 || b != 0 || c != 0 || !mzero m 4 8 || !g.isAlways⟩
  | 0x283 => some ⟨.mwait d (mbit m 0), false, a != 0 || b != 0 || c != 0 || !mzero m 1 11 || !g.isAlways⟩
  | 0x284 => some ⟨.aclr d (m.extractLsb' 0 4) g, false, a != 0 || b != 0 || c != 0 || !mzero m 4 8⟩
  | 0x285 => some ⟨.afill (mbit m 4) d (s6 a) (m.extractLsb' 0 4) g, false,
      sc64 a || b != 0 || c != 0 || !mzero m 5 7⟩
  | 0x286 => some ⟨.adrain ⟨m.extractLsb' 9 3, mbit m 8, rnd2 (m.extractLsb' 6 2), mbit m 5, scope3 (m.extractLsb' 2 3),
      mbit m 1, s6 d, a, s6 b, s6 c, g⟩, false,
      sc64 d || sc64 b || sc64 c || mbit m 0 || 6 ≤ (m.extractLsb' 2 3 : BitVec 3).toNat⟩
  | 0x287 => some ⟨if mbit m 0 then .amov true a d g else .amov false d a g, false, b != 0 || c != 0 || !mzero m 1 11⟩
  | _ => none

/-- Classes 11 to 13, F form (R225, R232, R237, R270, R329). -/
def parseF11 (opc : Nat) (d a b c : BitVec 8) (m : BitVec 12) (g : Guard) : Option Parsed :=
  let s6 (x : BitVec 8) : BitVec 6 := x.setWidth 6
  let g7 := !g.isAlways
  match opc with
  | 0x2C0 => some ⟨.nmcall ⟨m.extractLsb' 6 6, m.extractLsb' 2 4 == 9#4, s6 d, s6 a, s6 b, s6 c, g⟩, false,
      sc64 d || sc64 a || sc64 b || sc64 c || !mzero m 0 2 ||
      (m.extractLsb' 2 4 != 8#4 && m.extractLsb' 2 4 != 9#4)⟩
  | 0x2C1 => some ⟨.nmclose (s6 a) (s6 d) g, false, sc64 d || sc64 a || b != 0 || c != 0 || m != 0⟩
  | 0x2C2 => some ⟨.embag (m.extractLsb' 10 2) ⟨s6 d, s6 a, s6 b, s6 c, g⟩, false,
      sc64 d || sc64 a || sc64 b || sc64 c || !mzero m 0 10⟩
  | 0x300 => some ⟨.bar (m.extractLsb' 0 4), false,
      d != 0 || a != 0 || b != 0 || c != 0 || !mzero m 4 8 || g7⟩
  | 0x301 => some ⟨.cbar (m.extractLsb' 0 2), false,
      d != 0 || a != 0 || b != 0 || c != 0 || !mzero m 2 10 || g7⟩
  | 0x302 => some ⟨.mbinit (s6 a) (s6 b) g, sc64 a || sc64 b, d != 0 || c != 0 || m != 0⟩
  | 0x303 => some ⟨.mbarv (s6 d) (s6 a) (m.extractLsb' 0 8) g, sc64 d || sc64 a,
      b != 0 || c != 0 || !mzero m 8 4⟩
  | 0x304 => some ⟨.mbexp (s6 d) (s6 a) (s6 b) (m.extractLsb' 0 8) g, sc64 d || sc64 a || sc64 b,
      c != 0 || !mzero m 8 4⟩
  | 0x305 => some ⟨.mbwait (s6 a) (s6 b) (m.extractLsb' 0 3), sc64 a || sc64 b,
      d != 0 || c != 0 || !mzero m 3 9 || g7⟩
  | 0x306 => some ⟨.mbinv (s6 a) g, sc64 a, d != 0 || b != 0 || c != 0 || m != 0⟩
  | 0x341 => some ⟨.rte, false, d != 0 || a != 0 || b != 0 || c != 0 || m != 0 || g7⟩
  | 0x342 => some ⟨.bkpt g, false, d != 0 || a != 0 || b != 0 || c != 0 || m != 0⟩
  | 0x343 => some ⟨.srd (kreg (mbit m 11) d) a g, false,
      kbad (mbit m 11) d || b != 0 || c != 0 || !mzero m 0 11⟩
  | 0x344 => some ⟨.swr d (s6 a), sc64 a, b != 0 || c != 0 || m != 0 || g7⟩
  | _ => none

/-- The F form of any opcode. -/
def parseF (opc : BitVec 10) (d a b c : BitVec 8) (m : BitVec 12) (g : Guard) : Option Parsed :=
  let n := opc.toNat
  match n / 64 with
  | 0 => parseF0 n d a b c m g
  | 6 => parseF6 n d a b c m g
  | 7 => (parse7 n d a b (.f (c.getLsbD 0)) (c.extractLsb' 4 3) m g).map fun p =>
      { p with b6 := p.b6 || c.getLsbD 7 || c.extractLsb' 1 3 != 0 }
  | 8 => parseF8 n d a b c m g
  | 9 => parseF9 n d a b c m g
  | 10 => parseF10 n d a b c m g
  | 11 | 12 | 13 => parseF11 n d a b c m g
  | _ => (parseBin n d a m (.reg (bk m) b c (ck m)) g).or (parseF15 n d a b c m g)

/-- The FI form in the M12 + I20 layout. -/
def parseFm (opc : BitVec 10) (d a : BitVec 8) (m : BitVec 12) (i : BitVec 20) (g : Guard) : Option Parsed :=
  let n := opc.toNat
  match n / 64 with
  | 0 => if n == 0x003 then
      some ⟨.brx g i (kreg (mbit m 0) a), kbad (mbit m 0) a, d != 0 || !mzero m 1 11⟩ else none
  | 6 => if n == 0x182 then
      some ⟨.shfl ⟨m.extractLsb' 0 4, mbit m 11, m.extractLsb' 4 3, d, a, .inr i, g⟩, false,
        !mzero m 7 2 || mbit m 9 || mbit m 10⟩ else none
  | 7 => parse7 n d a (i.extractLsb' 12 8) (.fi (i.extractLsb' 0 12)) 0 m g
  | _ => parseBin n d a m (.imm i (bk m) (ck m)) g

def Fields.parse : Fields → Option Parsed
  | .f opc d a b c m g => parseF opc d a b c m g
  | .fm opc d a m i g => parseFm opc d a m i g
  | .fi opc d a imm g => parseFi opc.toNat d a imm g

/-! ## The decoder -/

/-- What the position of a word in its clause adds to the checks (R76, R89). -/
structure DecodeCtx extends LaunchCtx where
  /-- the word is the last of its clause -/
  last     : Bool
  /-- the clause's SETA and SETB are both 15 -/
  flagless : Bool
  deriving DecidableEq, Repr

/-- The word read under its own layout: F, then the FI layout its opcode takes. -/
def unpackFields (w : Word64) (fm : Forms) : Option Fields :=
  if fld w 62 2 == 0#2 then (if fm.f then some (unpackF w) else none)
  else if fm.i20 then some (unpackFm w)
  else if fm.i32 then some (unpackFi w)
  else none

/-- A word of form F or FI: the instruction, or the lowest subcode of R89 that applies. -/
def decodeFields (c : DecodeCtx) (w : Word64) : Except (BitVec 8) Instr :=
  let fixedBad := fld w 62 2 == 0#2 && fld w 0 4 != 0#4
  if (fld w 58 4 : BitVec 4) == 15 then .error 0x01
  else if (fld w 58 4 : BitVec 4) == 14 then .error (if fixedBad then 0x06 else 0x0A)
  else match opcForms (fld w 52 10) with
  | none => .error 0x01
  | some fm => match (unpackFields w fm).bind Fields.parse with
    | none => .error 0x06
    | some p =>
      if p.b5 || !p.i.regsOk c.toLaunchCtx then .error 0x05
      else if fixedBad || p.b6 || !p.i.fieldsOk c.toLaunchCtx then .error 0x06
      else if p.i.endsClause && !c.last then .error 0x08
      else if p.i == .rgn then .error 0x09
      else if (p.i.longA || p.i.longB) && c.flagless then .error 0x0B
      else .ok p.i

/-- A paired word: R82 and R83, broken by subcode 0x04. -/
def decodePair (c : DecodeCtx) (w : Word64) : Except (BitVec 8) Instr :=
  let x := Slot.unpack (fld w 31 31)
  let y := Slot.unpack (fld w 0 31)
  if (pairKind x.pop).isNone || (pairKind y.pop).isNone then .error 0x01
  else if !x.fieldsOk || !y.fieldsOk || !pairBanksOk x y then .error 0x04
  else if !(Instr.pairedWord x y).regsOk c.toLaunchCtx then .error 0x05
  else .ok (.pairedWord x y)

/-- R89: a word inside a clause. DEDUCED (log 11): it is no header there, so the header pattern is 0x08 whatever its
fields hold. -/
def decode (c : DecodeCtx) (w : Word64) : Except (BitVec 8) Instr :=
  if (fld w 60 4 : BitVec 4) == 15 then
    .error 0x08
  else if fld w 62 2 == 3#2 then .error 0x02
  else if fld w 62 2 == 1#2 then decodePair c w
  else decodeFields c w

/-- R73, R89: a word at a clause start. DEDUCED (log 11): it is read as a header only, so what is no header is 0x07. -/
def decodeStart (w : Word64) : Except (BitVec 8) Header :=
  if (fld w 60 4 : BitVec 4) == 15 then
    (if (Header.unpack w).ok && fld w 0 33 == 0#33 then .ok (Header.unpack w) else .error 0x03)
  else .error 0x07

/-- The widest launch: 256 vector registers, 32 lanes, handler mode. -/
def LaunchCtx.widest : LaunchCtx := ⟨256, 32, true⟩

def DecodeCtx.widest : DecodeCtx := ⟨LaunchCtx.widest, true, false⟩

/-- The instruction in one 64-bit word, header words included. -/
def decodeAny (w : Word64) : Option Instr :=
  if (fld w 60 4 : BitVec 4) == 15 then (decodeStart w).toOption.map .clauseIssue
  else (decode DecodeCtx.widest w).toOption

/-- The eight bytes of a word as memory holds them, lowest address first (R6). -/
def wordBytes (w : Word64) : List Byte := (List.range 8).map fun k => w.extractLsb' (8 * k) 8

def bytesWord (bs : List Byte) : Word64 :=
  bs.foldr (fun b acc => (acc <<< 8) ||| b.setWidth 64) 0

/-- The host's view of the decoder: an instruction's bits numbered as the opcode table numbers them. -/
def decodeTableWord (_nbits w : Nat) : Option Instr := decodeAny (bytesWord (wordBytes (BitVec.ofNat 64 w)))

/-! ## The encoder -/

def Rnd.enc : Rnd → BitVec 2
  | .rne => 0
  | .rz => 1
  | .ru => 2
  | .rd => 3

def PFmt.enc : PFmt → BitVec 2
  | .f32 => 0
  | .f16x2 => 1
  | .bf16x2 => 2

def Space.enc : Space → BitVec 3
  | .g => 0
  | .s => 1
  | .c => 2
  | .p => 3
  | .k => 4

def Wid.enc : Wid → BitVec 3
  | .b8 => 0
  | .b16 => 1
  | .b32 => 2
  | .b64 => 3
  | .b128 => 4
  | .s8 => 5
  | .s16 => 6

def Scope.enc : Scope → BitVec 3
  | .core => 1
  | .clu => 2
  | .dev => 3
  | .fab => 4
  | .sys => 5

def MemOrd.enc : MemOrd → BitVec 4
  | .relaxed => 0
  | .acq s => s.enc.setWidth 4
  | .rel s => s.enc.setWidth 4 + 8

def Sem.enc : Sem → BitVec 5
  | .relaxed => 0
  | .acq s => s.enc ++ 1#2
  | .rel s => s.enc ++ 2#2
  | .ar s => s.enc ++ 3#2

def Pol.enc : Pol → BitVec 2
  | .ca => 0
  | .nl => 1
  | .str => 2
  | .uc => 3

def b1 (b : Bool) : BitVec 1 := BitVec.ofBool b

def Reg.num : Reg → BitVec 8
  | .v n => n
  | .s n => n.setWidth 8

def e6 (n : BitVec 6) : BitVec 8 := n.setWidth 8
def e3 (n : BitVec 3) : BitVec 8 := n.setWidth 8

/-- An instruction whose last source is a register or an I20. -/
def encBin (opc : BitVec 10) (d a : BitVec 8) (dk ak : Bool) (b : Src) (m : BitVec 8) (g : Guard) : Fields :=
  match b with
  | .reg r => .f opc d a r.num 0 (b1 dk ++ b1 ak ++ b1 r.isScalar ++ 0#1 ++ m) g
  | .imm i => .fm opc d a (b1 dk ++ b1 ak ++ 0#2 ++ m) i g

def encTri (opc : BitVec 10) (d a b c : Reg) (m : BitVec 8) (g : Guard) : Fields :=
  .f opc d.num a.num b.num c.num (b1 d.isScalar ++ b1 a.isScalar ++ b1 b.isScalar ++ b1 c.isScalar ++ m) g

def encUn (opc : BitVec 10) (d a : Reg) (m : BitVec 8) (g : Guard) : Fields :=
  .f opc d.num a.num 0 0 (b1 d.isScalar ++ b1 a.isScalar ++ 0#2 ++ m) g

def encIntBin (opc : BitVec 10) (o : IntBin) : Fields :=
  encBin opc o.d.num o.a.num o.d.isScalar o.a.isScalar o.b (b1 o.ty.w64 ++ b1 o.ty.uns ++ b1 o.sat ++ 0#5) o.g

def encIntTri (opc : BitVec 10) (o : IntTri) : Fields :=
  encTri opc o.d o.a o.b o.c (b1 o.ty.w64 ++ b1 o.ty.uns ++ b1 o.sat ++ 0#5) o.g

def encIntUn (opc : BitVec 10) (o : IntUn) : Fields :=
  encUn opc o.d o.a (b1 o.w64 ++ 0#1 ++ b1 o.sat ++ 0#5) o.g

def encLogBin (opc : BitVec 10) (o : LogBin) : Fields :=
  encBin opc o.d.num o.a.num o.d.isScalar o.a.isScalar o.b (b1 o.b64 ++ 0#7) o.g

def encLogUn (opc : BitVec 10) (o : LogUn) : Fields := encUn opc o.d o.a (b1 o.b64 ++ 0#7) o.g

def encPredBin (opc : BitVec 10) (o : PredBin) : Fields :=
  .f opc (e3 o.pd) (e3 o.pa) (e3 o.pb) 0 (0#10 ++ b1 o.na ++ b1 o.nb) o.g

def encFBin (opc : BitVec 10) (o : FBin) : Fields :=
  encBin opc o.d.num o.a.num o.d.isScalar o.a.isScalar o.b
    (o.fmt.enc ++ o.rnd.enc ++ b1 o.ftz ++ b1 o.na ++ b1 o.nb ++ 0#1) o.g

def encFUn (opc : BitVec 10) (o : FUn) : Fields :=
  encUn opc o.d o.a (o.fmt.enc ++ o.rnd.enc ++ b1 o.ftz ++ b1 o.na ++ 0#2) o.g

def encFSet (opc : BitVec 10) (o : FSetOp) : Fields :=
  encBin opc (e3 o.pd) o.a.num false o.a.isScalar o.b (0#3 ++ b1 o.na ++ b1 o.ftz ++ o.cmp) o.g

def encDBin (opc : BitVec 10) (o : DBin) : Fields :=
  encBin opc o.d.num o.a.num o.d.isScalar o.a.isScalar o.b (0#2 ++ o.rnd.enc ++ 0#1 ++ b1 o.na ++ b1 o.nb ++ 0#1) o.g

def encDUn (opc : BitVec 10) (o : DUn) : Fields :=
  encUn opc o.d o.a (0#2 ++ o.rnd.enc ++ 0#1 ++ b1 o.na ++ 0#2) o.g

def encCvt (opc : BitVec 10) (o : CvtOp) : Fields :=
  .f opc o.d.num o.a.num 0 (0#5 ++ b1 o.sat ++ o.rnd.enc) (b1 o.d.isScalar ++ b1 o.a.isScalar ++ 0#2 ++ o.dt ++ o.st) o.g

def encLane (opc : BitVec 10) (d a b : BitVec 8) (G dk exc : Bool) (pr : BitVec 3) (op : BitVec 4) (g : Guard) : Fields :=
  .f opc d a b 0 (b1 G ++ b1 dk ++ b1 exc ++ 0#2 ++ pr ++ op) g

def encMemM (o : MemOp) : BitVec 12 := o.space.enc ++ o.wid.enc ++ o.ord.enc ++ o.pol.enc

def enc7 (opc : BitVec 10) (d : BitVec 8) (base : BitVec 6) (idx : BitVec 8) (form : MemForm) (pr : BitVec 3)
    (m : BitVec 12) (g : Guard) : Fields :=
  match form with
  | .f ix => .f opc d (e6 base) idx (0#1 ++ pr ++ 0#3 ++ b1 ix) m g
  | .fi disp => .fm opc d (e6 base) m (idx ++ disp) g

def encMem (opc : BitVec 10) (o : MemOp) : Fields := enc7 opc o.data o.base o.idx o.form o.pr (encMemM o) o.g

def encCctl (d : BitVec 8) (o : CctlOp) : Fields :=
  enc7 0x1C7 d o.base o.idx (.f o.ix) o.pr (o.space.enc ++ 0#9) o.g

def encAtom (opc : BitVec 10) (o : AtomOp) : Fields :=
  .f opc o.d (e6 o.base) o.idx o.c ((o.space.enc.setWidth 2) ++ b1 o.w64 ++ o.sem.enc ++ o.op) o.g

def encMmaM (o : MmaOp) (low : BitVec 3) : BitVec 12 :=
  0#1 ++ o.fmt ++ b1 o.mx ++ o.sb ++ b1 o.zs ++ b1 o.asp ++ low

def always : Guard := Guard.always

/-- The fields of an instruction word; none for a header, a paired word and the steps that have no encoding. -/
def Instr.fields : Instr → Option Fields
  | .nop g => some (.f 0x001 0 0 0 0 0 g)
  | .bra g rcv disp => some (.fi 0x002 (rcv.extractLsb' 8 8) (rcv.extractLsb' 0 8) disp g)
  | .brx g rcv t => some (.fm 0x003 0 t.num (0#11 ++ b1 t.isScalar) rcv g)
  | .call g disp => some (.fi 0x004 0 0 disp g)
  | .callx g t => some (.f 0x005 0 t.num 0 0 (0#11 ++ b1 t.isScalar) g)
  | .ret => some (.f 0x006 0 0 0 0 0 always)
  | .join => some (.f 0x007 0 0 0 0 0 always)
  | .joint pd cyc => some (.fi 0x008 (e3 pd) 0 cyc always)
  | .exit g => some (.f 0x009 0 0 0 0 0 g)
  | .delay g cyc => some (.fi 0x00A 0 0 cyc g)
  | .yield => some (.f 0x00B 0 0 0 0 0 always)
  | .rgn => some (.f 0x00C 0 0 0 0 0 always)
  | .phint s l v => some (.fi 0x00D s l v always)
  | .ipf g lines disp => some (.fi 0x00E (lines.setWidth 8) 0 disp g)
  | .iadd o => some (encIntBin 0x040 o)
  | .isub o => some (encIntBin 0x041 o)
  | .iadd3 o => some (encIntTri 0x042 o)
  | .imul o => some (encIntBin 0x043 o)
  | .imulh o => some (encIntBin 0x044 o)
  | .imad o => some (encIntTri 0x045 o)
  | .imadw o => some (encIntTri 0x046 o)
  | .idiv o => some (encIntBin 0x047 o)
  | .irem o => some (encIntBin 0x048 o)
  | .imin o => some (encIntBin 0x049 o)
  | .imax o => some (encIntBin 0x04A o)
  | .iabs o => some (encIntUn 0x04B o)
  | .ineg o => some (encIntUn 0x04C o)
  | .isad o => some (encIntTri 0x04D o)
  | .idot4 o => some (encTri 0x04E o.d o.a o.b o.c (0#2 ++ b1 o.sat ++ 0#3 ++ b1 o.au ++ b1 o.bu) o.g)
  | .iset o => some (encBin 0x04F (e3 o.pd) o.a.num false o.a.isScalar o.b
      (b1 o.ty.w64 ++ b1 o.ty.uns ++ 0#3 ++ o.cmp) o.g)
  | .sel o => some (.f 0x050 o.d.num o.a.num o.b.num (e3 o.pc)
      (b1 o.d.isScalar ++ b1 o.a.isScalar ++ b1 o.b.isScalar ++ 0#1 ++ b1 o.b64 ++ 0#7) o.g)
  | .lea o => some (encBin 0x051 o.d.num o.a.num o.d.isScalar o.a.isScalar o.b
      (b1 o.ty.w64 ++ b1 o.ty.uns ++ 0#1 ++ o.sh) o.g)
  | .mov o => some (encLogUn 0x052 o)
  | .movi d imm g => some (.fi 0x053 d.num (if d.isScalar then 1 else 0) imm g)
  | .movw d imm g => some (.fi 0x054 d.num (if d.isScalar then 1 else 0) imm g)
  | .and o => some (encLogBin 0x080 o)
  | .or o => some (encLogBin 0x081 o)
  | .xor o => some (encLogBin 0x082 o)
  | .not o => some (encLogUn 0x083 o)
  | .bool3 o => some (encTri 0x084 o.d o.a o.b o.c o.tab o.g)
  | .shl o => some (encLogBin 0x085 o)
  | .shr o => some (encLogBin 0x086 o)
  | .sar o => some (encLogBin 0x087 o)
  | .rot o => some (encLogBin 0x088 o)
  | .funnel o => some (encTri 0x089 o.d o.a o.b o.c (0#7 ++ b1 o.flag) o.g)
  | .bfe o => some (encBin 0x08A o.d.num o.a.num o.d.isScalar o.a.isScalar o.b (b1 o.b64 ++ b1 o.sgn ++ 0#6) o.g)
  | .bfi o => some (encTri 0x08B o.d o.a o.b o.c (b1 o.flag ++ 0#7) o.g)
  | .popc o => some (encLogUn 0x08C o)
  | .clz o => some (encLogUn 0x08D o)
  | .ctz o => some (encLogUn 0x08E o)
  | .brev o => some (encLogUn 0x08F o)
  | .prmt o => some (encTri 0x090 o.d o.a o.b o.c 0 o.g)
  | .pand o => some (encPredBin 0x091 o)
  | .por o => some (encPredBin 0x092 o)
  | .pxor o => some (encPredBin 0x093 o)
  | .pnot o => some (.f 0x094 (e3 o.pd) (e3 o.pa) 0 0 (0#10 ++ b1 o.na ++ 0#1) o.g)
  | .pmov (.pp na pd pa) g => some (.f 0x095 (e3 pd) (e3 pa) 0 0 (0#10 ++ b1 na ++ 0#1) g)
  | .pmov (.toV vd) g => some (.f 0x095 vd 0 0 0 4 g)
  | .pmov (.fromV va) g => some (.f 0x095 0 va 0 0 8 g)
  | .fadd o => some (encFBin 0x0C0 o)
  | .fmul o => some (encFBin 0x0C1 o)
  | .ffma o => some (encTri 0x0C2 o.d o.a o.b o.c
      (o.fmt.enc ++ o.rnd.enc ++ b1 o.ftz ++ b1 o.na ++ b1 o.nb ++ b1 o.nc) o.g)
  | .fmin o => some (encFBin 0x0C3 o)
  | .fmax o => some (encFBin 0x0C4 o)
  | .fset o => some (encFSet 0x0C5 o)
  | .fclass o => some (encFUn 0x0C6 o)
  | .frnd o => some (encFUn 0x0C7 o)
  | .fscale o => some (encBin 0x0C8 o.d.num o.a.num o.d.isScalar o.a.isScalar o.b
      (0#2 ++ o.rnd.enc ++ b1 o.ftz ++ b1 o.na ++ 0#2) o.g)
  | .fdiv o => some (encFBin 0x0C9 o)
  | .rcp o => some (encFUn 0x0CA o)
  | .rsq o => some (encFUn 0x0CB o)
  | .sqrt o => some (encFUn 0x0CC o)
  | .exp2 o => some (encFUn 0x0CD o)
  | .log2 o => some (encFUn 0x0CE o)
  | .sin o => some (encFUn 0x0CF o)
  | .cos o => some (encFUn 0x0D0 o)
  | .tanh o => some (encFUn 0x0D1 o)
  | .dadd o => some (encDBin 0x100 o)
  | .dmul o => some (encDBin 0x101 o)
  | .dfma o => some (encTri 0x102 o.d o.a o.b o.c (0#2 ++ o.rnd.enc ++ 0#1 ++ b1 o.na ++ b1 o.nb ++ b1 o.nc) o.g)
  | .dmin o => some (encDBin 0x103 o)
  | .dmax o => some (encDBin 0x104 o)
  | .dset o => some (encFSet 0x105 o)
  | .dclass o => some (encDUn 0x106 o)
  | .dfrnd o => some (encDUn 0x107 o)
  | .dscale o => some (encDBin 0x108 o)
  | .drcp o => some (encDUn 0x109 o)
  | .drsq o => some (encDUn 0x10A o)
  | .dsqrt o => some (encDUn 0x10B o)
  | .ddiv o => some (encDBin 0x10C o)
  | .cvt o => some (encCvt 0x140 o)
  | .fcvt o => some (encCvt 0x141 o)
  | .qpack o => some (.f 0x142 o.d o.a o.b.num 0 (0#2 ++ b1 o.b.isScalar ++ 0#1 ++ o.q ++ o.rnd.enc ++ 0#2) o.g)
  | .qunpk o => some (.f 0x143 o.d o.a o.b.num 0 (0#4 ++ o.q ++ 0#4) o.g)
  | .qscale o => some (encUn 0x144 o.d o.a (o.q ++ 0#4) o.g)
  | .amax o => some (.f 0x145 o.d.num o.a.num o.b.num 0
      (b1 o.d.isScalar ++ b1 o.a.isScalar ++ b1 o.b.isScalar ++ 0#1 ++ o.fmt ++ 0#4) o.g)
  | .vote o => some (encLane 0x180 (e3 o.pd) (e3 o.pa) 0 o.G false false 0 (o.op.setWidth 4) o.g)
  | .ballot o => some (encLane 0x181 o.d.num (e3 o.pa) 0 o.G o.d.isScalar false 0 0 o.g)
  | .shfl o => match o.b with
    | .inl b => some (encLane 0x182 o.d o.a b o.G false false o.pr o.op o.g)
    | .inr i => some (.fm 0x182 o.d o.a (b1 o.G ++ 0#4 ++ o.pr ++ o.op) i o.g)
  | .redux o => some (encLane 0x183 o.d o.a 0 o.G false o.exc 0 o.op o.g)
  | .scan o => some (encLane 0x184 o.d o.a 0 o.G false o.exc 0 o.op o.g)
  | .match_ o => some (encLane 0x185 o.d o.a 0 o.G false false o.pr (if o.b64 then 1 else 0) o.g)
  | .elect G pd g => some (encLane 0x186 (e3 pd) 0 0 G false false 0 0 g)
  | .regroup va sb => some (.f 0x187 0 va (e6 sb) 0 0 always)
  | .xmget sd => some (.f 0x188 (e6 sd) 0 0 0 0 always)
  | .xmset (.inl sa) => some (.f 0x189 0 (e6 sa) 0 0 0 always)
  | .xmset (.inr imm) => some (.fi 0x189 0 0 imm always)
  | .ld o => some (encMem 0x1C0 o)
  | .st o => some (encMem 0x1C1 o)
  | .ldu o => some (encMem 0x1C2 o)
  | .stu o => some (encMem 0x1C3 o)
  | .ldf o => some (encMem 0x1C4 o)
  | .stf o => some (encMem 0x1C5 o)
  | .pref o => some (enc7 0x1C6 (if o.home then 1 else 0) o.base o.idx o.form 0 (o.space.enc ++ 0#7 ++ o.pol.enc) o.g)
  | .cctlInv o => some (encCctl 0 o)
  | .cctlWb o => some (encCctl 1 o)
  | .cctlLock o => some (encCctl 2 o)
  | .cctlUnlock o => some (encCctl 3 o)
  | .cctlInvall sp => some (.f 0x1C7 4 63 255 0 (sp.enc ++ 0#9) always)
  | .cctlIinv o => some (encCctl 5 o)
  | .atom o => some (encAtom 0x200 o)
  | .red o => some (encAtom 0x201 o)
  | .cas o => some (encAtom 0x202 o)
  | .fence s => some (.f 0x203 0 0 0 0 (0#3 ++ s.enc ++ 0#4) always)
  | .waita o => some (encAtom 0x204 o)
  | .waitge sc a b => some (.f 0x205 0 (e6 a) (e6 b) 0 (0#3 ++ sc.enc ++ 1#2 ++ 0#4) always)
  | .cpy (.short dsp ssp d a len12 dd sd) g => some (.fi 0x240 (dsp ++ d) (ssp ++ a) (len12 ++ dd ++ sd) g)
  | .cpy (.full dsp ssp mode cmp crc lb lbs d a b c) g =>
      some (.f 0x240 (e6 d) (e6 a) (e6 b) (e6 c) (dsp ++ ssp ++ mode ++ cmp ++ b1 crc ++ b1 lb ++ lbs) g)
  | .cpg o => some (.f 0x241 (e6 o.d) (e6 o.a) o.b (e6 o.c) (o.dsp ++ 0#4 ++ o.cmp ++ 0#4) o.g)
  | .cpbat sd => some (.f 0x242 (e6 sd) 0 0 0 0 always)
  | .cpwait (.inl sa) => some (.f 0x243 0 (e6 sa) 0 0 0 always)
  | .cpwait (.inr imm) => some (.fi 0x243 0 0 imm always)
  | .etail a b g => some (.f 0x244 0 (e6 a) (e6 b) 0 0 g)
  | .rec_ scr a b c g => some (.f 0x245 0 (e6 a) (e6 b) (e6 c) (0#1 ++ b1 scr ++ 0#10) g)
  | .dense o => some (.f 0x246 (e6 o.d) (e6 o.a) (e6 o.b) (e6 o.c) 0 o.g)
  | .mma o => some (.f 0x280 o.d o.a o.b o.c (encMmaM o (b1 o.bsp ++ 0#2)) always)
  | .mmah o => some (.f 0x281 o.d o.a o.b o.c (encMmaM o (0#1 ++ o.la)) always)
  | .mfence va n1 => some (.f 0x282 0 va 0 0 (0#8 ++ n1) always)
  | .mwait t all => some (.f 0x283 t 0 0 0 (0#11 ++ b1 all) always)
  | .aclr t n1 g => some (.f 0x284 t 0 0 0 (0#8 ++ n1) g)
  | .afill b64 t sa n1 g => some (.f 0x285 t (e6 sa) 0 0 (0#7 ++ b1 b64 ++ n1) g)
  | .adrain o => some (.f 0x286 (e6 o.d) o.a (e6 o.b) (e6 o.c)
      (o.fmt ++ b1 o.dspS ++ o.rnd.enc ++ b1 o.sat ++ (match o.scope with | none => 0#3 | some s => s.enc) ++ b1 o.h ++ 0#1) o.g)
  | .amov dir v t g => some (if dir then .f 0x287 t v 0 0 1 g else .f 0x287 v t 0 0 0 g)
  | .nmcall o => some (.f 0x2C0 (e6 o.d) (e6 o.a) (e6 o.b) (e6 o.c) (o.ent ++ (if o.f64 then 9#4 else 8#4) ++ 0#2) o.g)
  | .nmclose a d g => some (.f 0x2C1 (e6 d) (e6 a) 0 0 0 g)
  | .embag rd o => some (.f 0x2C2 (e6 o.d) (e6 o.a) (e6 o.b) (e6 o.c) (rd ++ 0#10) o.g)
  | .bar id => some (.f 0x300 0 0 0 0 (0#8 ++ id) always)
  | .cbar id => some (.f 0x301 0 0 0 0 (0#10 ++ id) always)
  | .mbinit a b g => some (.f 0x302 0 (e6 a) (e6 b) 0 0 g)
  | .mbarv d a n1 g => some (.f 0x303 (e6 d) (e6 a) 0 0 (0#4 ++ n1) g)
  | .mbexp d a b n g => some (.f 0x304 (e6 d) (e6 a) (e6 b) 0 (0#4 ++ n) g)
  | .mbwait a b pr => some (.f 0x305 0 (e6 a) (e6 b) 0 (0#9 ++ pr) always)
  | .mbinv a g => some (.f 0x306 0 (e6 a) 0 0 0 g)
  | .trap code g => some (.fi 0x340 0 0 (0#24 ++ code) g)
  | .rte => some (.f 0x341 0 0 0 0 0 always)
  | .bkpt g => some (.f 0x342 0 0 0 0 0 g)
  | .srd d sr g => some (.f 0x343 d.num sr 0 0 (b1 d.isScalar ++ 0#11) g)
  | .swr sr a => some (.f 0x344 sr (e6 a) 0 0 0 always)
  | .pmev n ev => some (.fi 0x345 (n.setWidth 8) 0 (0#16 ++ ev) always)
  | _ => none

/-- The word of an instruction, a header or a pair; none for a step that has no encoding. -/
def encode : Instr → Option Word64
  | .clauseIssue h => some h.pack
  | .pairedWord x y => some (packPair x y)
  | i => i.fields.map Fields.pack

end Sys2Proof
end

