-- ==== Sys2Proof/Machine/State.lean ====
section
/-! DEFINITION. Everything the spec gives the device, as plain data, and the device after reset. -/

namespace Sys2Proof.Machine

/-- A map from numbers to values, as pairs with strictly rising keys; a key that is not listed has the map's
default value, and no listed key has it. -/
abbrev FMap (α : Type) := List (Nat × α)

/-- A 128-byte line, byte 0 lowest. -/
abbrev Line := BitVec 1024

/-! ## Translation -/

/-- Page memory types (R166). -/
inductive MemType where
  | cacheable | uncached | device
  deriving DecidableEq, Repr

/-- A translation as a TLB holds it (R161 to R164); `base` and `size` are of its virtual range. -/
structure Leaf where
  asid  : Nat
  base  : Nat
  size  : Nat
  pa    : Nat
  key   : BitVec 8
  rp    : Bool
  mt    : MemType
  x     : Bool
  w     : Bool
  r     : Bool
  deriving DecidableEq, Repr

/-- The causes of R389, in the order of their codes. -/
inductive Cause where
  | illop | illconv | misalign | xlate | perm | ecc | stackspill | retempty | swtrap | bkpt | regionloop
  deriving DecidableEq, Repr

/-- What raised a trap or a fault: SRC of R326 and of R318. -/
inductive Origin where
  | instruction | fetch | copy | matrixFetch | nearMemory | embag | blockEngine | galliard | cte | cittern
  deriving DecidableEq, Repr

/-- The identity of a fault (R316): the die whose L2 TLB records it, the address space, the virtual range, and
for a PERM whether the access needed W. -/
structure FaultKey where
  die  : Nat
  asid : Nat
  perm : Bool
  w    : Bool
  base : Nat
  size : Nat
  deriving DecidableEq, Repr

/-- A fault as a walk produces it (R316, R318); `replay` when REPLAY_ALL may mend it. -/
structure MemFault where
  cause  : Cause
  replay : Bool
  key    : FaultKey
  va     : Nat
  lvl    : Nat
  wr     : Bool
  deriving DecidableEq, Repr

/-! ## A group and its parts -/

/-- An RSTACK entry (R91). -/
structure RsEntry where
  rpc   : BitVec 48
  dpc   : BitVec 48
  dmask : BitVec 4
  xmask : BitVec 4
  pmask : BitVec 4
  phase : Bool
  lnk   : Bool
  deriving DecidableEq, Repr

/-- The clause a split stands in: its flags and the words still to issue, the next first (R69, R73). -/
structure Clause where
  setA  : BitVec 4
  setB  : BitVec 4
  words : List Word64
  deriving DecidableEq, Repr

/-- A region snapshot (R323); `clause` is the clause as it stood there, for a region that begins inside one. -/
structure Snap where
  repc   : BitVec 48
  x      : BitVec 4
  pm     : BitVec 4
  depth  : Nat
  rgnctr : BitVec 32
  clause : Option Clause
  deriving DecidableEq, Repr

/-- What each slice holds (R91): `cf` by flag number, `s` by scalar number, defaults zero; s63 is never listed. -/
structure Slice where
  pc     : BitVec 48
  x      : BitVec 4
  pm     : BitVec 4
  fin    : BitVec 4
  rtd    : BitVec 4
  rstack : List RsEntry      -- top first
  ret    : List (BitVec 48)  -- top first
  spill  : BitVec 16
  /-- how many of its 8 entries a spilled block lacks, by block (R339) -/
  shorts : FMap Nat
  cf     : FMap Nat
  s      : FMap Word64
  snap   : Snap
  deriving DecidableEq, Repr

/-- The wait state of a split (R92, R100). -/
inductive Wait where
  | ready
  /-- at a JOIN, a JOINT or a `.G` form; a JOINT's deadline; true when its timeout has lapsed (R98, R111) -/
  | rendezvous (deadline : Option Nat) (lapsed : Bool)
  | regroup
  | delay (till : Nat)
  /-- on an instruction-cache line (R69) -/
  | frozen (line : Nat)
  /-- the group is parked and this split re-executes after REPLAY_ALL (R324) -/
  | parked
  /-- re-executes once its slices' long-latency results are written (R323) -/
  | rerun
  /-- arrived at BAR or CBAR id (R271) -/
  | barrier (cluster : Bool) (id : Nat)
  /-- its next word waits on its own condition; requests numbered below `before` are earlier ones -/
  | word (before : Nat)
  /-- REC, with these records still to enter (R285) -/
  | records (node : Nat) (left : List (List Byte))
  /-- MBWAIT on an object that had this generation; a release of the wait sets its verdict (R274) -/
  | object (team off : Nat) (gen : BitVec 8) (verdict : Option Bool)
  /-- an acquire has issued: no later access until every load numbered below `before` has returned (R248) -/
  | acquire (before : Nat)
  deriving DecidableEq, Repr

/-- A split (R92). -/
structure Split where
  mask    : BitVec 8          -- slice mask
  stamp   : BitVec 16
  wait    : Wait
  clause  : Option Clause
  /-- the next word begins an idempotent region (R321) -/
  region  : Bool
  /-- the next word resumes a region by re-execution (R323) -/
  resumed : Bool
  /-- YIELD's pass-over (R101, R113) -/
  yielded : Bool
  /-- the next word has been counted in URG already, when it began to wait (R101) -/
  counted : Bool
  /-- a release that has not yet performed: requests numbered below the first are earlier ones (R246) -/
  release : Option (Nat × Scope)
  /-- its last FENCE.SC: its later loads read lines fetched since then (R249) -/
  since   : Nat
  deriving DecidableEq, Repr

/-- Where a long-latency result goes. -/
inductive Dest where
  | v (lane reg : Nat)
  | p (lane n : Nat)
  | s (slice reg : Nat)
  deriving DecidableEq, Repr

/-- One result still owed (R104): its value once known, and whether an instruction has since written the place. -/
structure OwedItem where
  dest      : Dest
  value     : Option Word64
  contested : Bool
  deriving DecidableEq, Repr

/-- A long-latency operation that has not written all its results (R74). -/
structure Owed where
  id     : Nat
  flag   : Nat
  slices : List Nat        -- those whose flag has not fallen
  memory : Bool            -- a load or a returning atomic (R246)
  waits  : List Nat        -- requests still to answer
  settle : Option Nat      -- the settle duration an atomic's answer carries, in cycles (R247)
  items  : List OwedItem
  deriving DecidableEq, Repr

/-- A trap to raise from asynchronous work, at the group's next clause header (R327): in the lanes given, or in the
group's leader lane when there are none. `pc` is the word whose work it was; `lvl` and `wr` are those of a walk. -/
structure AsyncCause where
  cause : Cause
  src   : Origin
  info  : Nat
  lanes : BitVec 32
  pc    : BitVec 48
  lvl   : Nat
  wr    : Bool
  deriving DecidableEq, Repr

/-- What handler mode remembers of one slice (R333); `retLen` counts the return stack's spilled entries too. -/
structure HandlerSlice where
  slice  : Nat
  x      : BitVec 4
  pm     : BitVec 4
  depth  : Nat
  retLen : Nat
  deriving DecidableEq, Repr

/-- A destination of posted stores (R247): a die of this package, or a peer device (64 + n is peer n). -/
abbrev Place := Nat

/-- A place stores were posted to, with the greatest expiry of those that have performed since its last marker. -/
structure Posted where
  place  : Place
  expiry : Nat
  va     : Nat               -- the first of those stores: its lane's address and its word
  pc     : BitVec 48
  deriving DecidableEq, Repr

/-- A version of a line, by the moment `asOf` at which its home gave or took it; older copies of it are live until
`till` (R240, R251). -/
structure Version where
  line : Nat
  asOf : Nat
  till : Nat
  deriving DecidableEq, Repr

/-- A flush marker on its way (R247): it gathers the requests numbered below `before`. -/
structure Marker where
  place  : Place
  before : Nat
  expiry : Nat
  va     : Nat
  pc     : BitVec 48
  deriving DecidableEq, Repr

/-- A save point (R336): the live octets and liveness entry of a PHINT, or none for a full save. -/
structure SavePoint where
  hint : Option (BitVec 32 × BitVec 8 × BitVec 8)
  deriving DecidableEq, Repr

/-- A performance counter (R335). -/
structure Pmc where
  event : Nat
  count : Word64
  deriving DecidableEq, Repr

/-- A group (R16, R17). `v` is keyed by register × 32 + lane, `p` by lane; p7 and v255 are never listed. -/
structure Group where
  num      : Nat
  sextant  : Nat
  slices   : List Slice
  splits   : List Split
  stamps   : BitVec 16          -- next stamp
  v        : FMap Word32
  p        : FMap (BitVec 8)
  urg      : BitVec 32
  rgnctr   : BitVec 32
  reexec   : Nat
  bseq     : BitVec 32
  settle   : Option Nat         -- SETTLE, as a cycle; none when passed (R241)
  posted   : List Posted        -- destination set
  markers  : List Marker
  /-- MODEL's own: the versions it has read or written, while older copies may be live (R251) -/
  seen     : List Version
  tr0      : Word64
  tr1      : Word64
  tr2      : Word64
  tr3      : Word64
  /-- the splits in handler mode, by entry, the latest first: only the latest goes on (R327) -/
  handler  : List (List HandlerSlice)
  parked   : Bool
  parkedAt : Nat
  stop     : Bool               -- a debugger has asked for a stop, or it is stopped (R334)
  pmc      : List Pmc
  ictx     : BitVec 32
  stage    : BitVec 32
  async    : List AsyncCause
  owed     : List Owed
  save     : Option SavePoint
  loaded   : Bool               -- the starting state of R390 has been read
  deriving DecidableEq, Repr

/-! ## Teams and grids -/

/-- A launch record's fields (R23, R31). -/
structure Launch where
  code    : BitVec 48
  nteam   : Nat
  regu    : Nat
  scr     : Nat
  accu    : Nat
  traph   : Bool
  coop    : Bool
  clw     : Nat
  clh     : Nat
  nreg8   : Nat
  width   : Nat              -- lanes: 4, 8, 16 or 32
  ngroup  : Nat
  handler : BitVec 48
  pbase   : Nat
  psize   : Nat
  narg    : Nat
  args    : Nat
  csize   : Nat
  cbase   : Nat
  deriving DecidableEq, Repr

/-- What a grid is entered for: a packet, a node's firing, or a node of a task graph (R47, R60, R62). -/
inductive GridOrigin where
  | packet (queue : Nat) (seq : BitVec 32)
  | firing (node buf : Nat)
  | graph (graph node : Nat)
  deriving DecidableEq, Repr

structure Grid where
  id      : Nat              -- sr.grid (R26)
  queue   : Nat
  pid     : Nat
  asid    : Nat
  launch  : Launch
  origin  : GridOrigin
  rec_    : Word64           -- sr.rec (R60)
  args    : List Word64      -- the argument words as they stood at acceptance (R30)
  left    : Nat              -- teams not yet retired
  deriving DecidableEq, Repr

/-- How a team's retirement proceeds (R345). -/
structure Retiring where
  killed : Bool
  step   : Nat               -- the step last taken
  deriving DecidableEq, Repr

inductive TeamState where
  | placed (units : Nat)     -- units still to start under the ramp (R56)
  | running
  | saving (since : Nat)     -- pre-emption requested (R336)
  | saved
  | retiring (r : Retiring)
  deriving DecidableEq, Repr

structure Team where
  inst     : Nat             -- instance (R344)
  grid     : Nat             -- the grid's id
  num      : Nat             -- sr.team
  core     : Nat             -- sr.core
  state    : TeamState
  placed   : Nat             -- order of placement (R101)
  since    : Nat             -- cycle residency counts from (R53)
  units    : List Nat        -- its pool units of the core: registers, scratchpad, tiles (R29)
  groups   : List Group
  scr      : FMap Byte       -- scratchpad, default 0
  tiles    : FMap Byte       -- accumulator tiles: 1,024 × tile + byte, default 0
  lost     : BitVec 32       -- lost-arrival counter (R267)
  locks    : List (Nat × Nat)  -- superblocks it has locked: core, tag (R184)
  record   : Nat             -- its save record's address while saved, and its size
  recSize  : Nat
  ranges   : List (Nat × Nat)  -- saved scratchpad ranges: offset, length (R268)
  tilesOut : List Nat          -- saved tiles
  deriving DecidableEq, Repr

/-- Units waiting for placement (R52, R55): of a grid, `count` units of `per` teams each from team number `first` on;
or one saved unit, by its teams' instances. -/
structure Unit_ where
  queue : Nat
  grid  : Nat
  first : Nat
  per   : Nat
  count : Nat
  saved : List Nat
  deriving DecidableEq, Repr

/-! ## A core's caches -/

/-- A line of the L1 (R168, R169); `deadline` on the core's clock less its offset; `owner` of a private line. -/
structure L1Line where
  deadline : Nat
  asOf     : Nat             -- the moment its home gave it (R251)
  dirty    : Bool
  owner    : Option Nat
  key      : BitVec 8
  data     : Line
  deriving DecidableEq, Repr

/-- A superblock (R168): its tag is PA ÷ 512; a line is none while invalid. -/
structure Superblock where
  tag    : Nat
  locked : Bool
  str    : Bool
  used   : Nat               -- for least recently used
  lines  : List (Option L1Line)
  deriving DecidableEq, Repr

/-- An instruction-cache line (R68); `num` is PA ÷ 128. -/
structure ICLine where
  num  : Nat
  used : Nat
  data : Line
  deriving DecidableEq, Repr

/-- A side of a copy: global memory, or the scratchpad of a team from an offset. -/
inductive Side where
  | glob (va : Nat)
  | scr (team off : Nat)
  deriving DecidableEq, Repr

/-- A line-buffer slot (R190). -/
structure LineBuf where
  team   : Nat
  rec_   : Nat
  dst    : Side
  origin : List Int
  deriving DecidableEq, Repr

/-- What teams have left in a pool unit since it last belonged to another address space, the latest first (R29, R348). -/
structure Leftover where
  unit : Nat
  asid : Nat
  kept : List (FMap Byte)
  deriving DecidableEq, Repr

/-- What a group has left of its scalars in its sextant, by 64 × slice + number (R342). -/
structure LeftScalars where
  sextant : Nat
  asid    : Nat
  kept    : FMap Word64
  deriving DecidableEq, Repr

structure Core where
  l1       : List Superblock
  icache   : List ICLine
  fills    : List (Nat × BitVec 8)   -- instruction-cache lines asked for, each with its page's key
  tlb      : List Leaf
  lb       : List (Option LineBuf)
  stepping : List Nat        -- pool units stepping down (R56)
  gated    : Bool            -- power-gated (R57)
  idle     : Nat             -- since when it has held no team
  leftover : List Leftover
  scalars  : List LeftScalars
  deriving DecidableEq, Repr

/-! ## Memory requests -/

/-- A part of a request: one contiguous piece, at most 16 bytes, of one lane, whose address `va` is. `off` is the
piece's place in the lane's value. For a cluster scratchpad request `pa` is an offset. -/
structure Part where
  lane : Nat
  va   : Nat
  pa   : Nat
  size : Nat
  off  : Nat
  data : BitVec 128
  cmp  : Word64
  deriving DecidableEq, Repr

inductive ReqKind where
  | load | store
  | atom (op : Nat) (w64 : Bool)
  | cas (w64 : Bool)
  | watch (w64 : Bool)       -- WAITA (R278)
  deriving DecidableEq, Repr

/-- Where a request stands (R173): on its way, in its home's miss table, or in the home's spill ring; `n` orders the
arrivals. -/
inductive Seat where
  | way
  | table (n : Nat)
  | spill (n : Nat)
  deriving DecidableEq, Repr

/-- A request on the fabric (R173, R175, R240 to R247), or to another core's scratchpad (R244). -/
structure Req where
  id     : Nat
  by_    : GroupRef
  mask   : BitVec 8          -- slices of the split that issued it (R242)
  core   : Nat
  pid    : Nat
  asid   : Nat
  kind   : ReqKind
  target : Option Nat        -- cluster scratchpad: the team's instance
  line   : Nat               -- PA ÷ 128
  page   : Nat               -- where its page lies (R166)
  seat   : Seat
  mt     : MemType
  key    : BitVec 8
  pol    : Pol
  alloc  : Bool              -- installs the line in the L1
  acq    : Bool              -- an acquire: no peer is probed for it (R176)
  pc     : BitVec 48         -- the word that issued it
  leftAt : Nat               -- the cycle it left the core (R240)
  owed   : Option Nat        -- the operation its values go to
  signed : Bool
  done   : Bool              -- performed, its answer on the way
  settle : Nat               -- the settle duration its answer carries, in cycles (R241)
  dst    : Option (Bool × Nat)  -- where its value goes: a scalar (true) or vector run from this register
  stale  : Bool              -- a store of the same core has performed since it left (R240)
  held   : Bool              -- behind a release of its split (R246)
  rel    : Option Scope      -- a release store or atomic (R246, R253)
  soft   : Option (BitVec 3) -- LDF or STF, with the predicate that says whether a lane performed (R181)
  since  : Nat               -- its split's last FENCE.SC (R249)
  watch  : Nat               -- WAITA: 1 while the home watches, 2 once a store has performed (R278)
  parts  : List Part
  deriving DecidableEq, Repr

/-- The forms of R172. -/
inductive HomeForm where
  | zero | b8d1 | b4d1 | b8d2 | plain
  deriving DecidableEq, Repr

/-- A tag of a home: the line's leases, and the form in which the home holds its data, if it does (R172, R239, R255 to
R257). -/
structure HomeLine where
  nl       : Nat             -- next lease, in units
  expiry   : Nat             -- E, less the home's clock offset
  maxl     : Nat             -- MAXL of the partition that received the last lease
  leased   : Bool            -- a lease is outstanding
  stored   : Bool            -- a store has performed during it
  owned    : Bool            -- host line held with ownership (R256)
  hostHas  : Bool            -- device line the host holds (R257)
  str      : Bool            -- first to be evicted (R167)
  form     : Option HomeForm
  deriving DecidableEq, Repr

/-- A miss at the L2 TLB that no instruction waits for (R164, R183). -/
structure Walk where
  by_  : GroupRef
  mask : BitVec 8
  priv : Bool
  pol  : Pol
  home : Bool
  core : Nat
  pid  : Nat
  asid : Nat
  va   : Nat
  deriving DecidableEq, Repr

/-! ## Asynchronous work -/

/-- A layout record (R186). -/
structure Layout where
  repeats : Bool
  zero    : Bool             -- BM: zero fill, or mirror
  rank    : Nat
  fmt     : Nat
  base    : Nat
  dims    : List Nat
  boxes   : List Nat
  strides : List Nat         -- of dimensions 1 to 4
  swz     : Nat
  scale   : Nat
  deriving DecidableEq, Repr

/-- An arrival on a barrier object (R267). -/
structure ArriveAt where
  team : Nat                 -- target instance
  off  : Nat
  gen  : BitVec 8
  deriving DecidableEq, Repr

/-- A copy's completion operand (R192). -/
inductive Completion where
  | none
  | cnt (va : Nat)
  | mb (a : ArriveAt)
  deriving DecidableEq, Repr

inductive CopyKind where
  | linear
  | fill                                                        -- block transfer of zeros (R284)
  | tl (l : Layout) (origin : List Int) (ring : Bool) (rows : Nat × Nat)
  | ts (l : Layout) (origin : List Int)
  | gather (l : Layout) (rows : List Int)
  deriving DecidableEq, Repr

inductive CopyOwner where
  | group (g : GroupRef) (batch : Option (BitVec 32))           -- none while pending (R191)
  | chain (key entry : Nat)
  deriving DecidableEq, Repr

structure Copy where
  id    : Nat
  owner : CopyOwner
  core  : Nat
  pid   : Nat
  asid  : Nat
  pc    : BitVec 48
  kind  : CopyKind
  src   : Side
  dst   : Side
  bytes : Nat                -- the byte count of R192
  left  : List Nat           -- 16-byte chunks still to move, of those below `next`
  next  : Nat
  stop  : Nat                -- chunks from `next` to here are still to come
  got   : FMap Byte          -- bytes read, for the CRC
  crc   : Bool               -- the CRC is still to be stored (R193)
  fin   : Completion
  lane  : Nat                -- the issuing split's leader lane
  held  : Bool               -- for REPLAY_ALL
  deriving DecidableEq, Repr

/-- What asynchronous work of a group has written, while older copies of the line may be live: whether it is a copy, the
copy's batch once closed, and the object its arrival names (R254). -/
structure Unsettled where
  by_   : GroupRef
  copy  : Bool
  batch : Option (BitVec 32)
  obj   : Option (Nat × Nat)
  v     : Version
  deriving DecidableEq, Repr

/-- A matrix operand (R204, R215): registers from `at_`, or scratchpad at that offset; and what the unit has read of it so
far, row by row of A or column by column of B, at first the elements as they stand at issue. -/
structure Operand where
  pool  : Bool
  at_   : Nat
  elems : List Nat
  deriving DecidableEq, Repr

/-- MMAH's B (R213): its record's address, the record and its origin. Once the fetcher has read the record, `todo` holds the
first byte it needs of each 32-byte sector still to read, and `got` the bytes read, by virtual address. -/
structure HostB where
  rec_ : Nat
  l    : Layout
  k0   : Int
  n0   : Int
  todo : Option (List Nat)
  got  : FMap Byte
  fetched : Bool
  held : Bool
  deriving DecidableEq, Repr

/-- The scales of A's rows and of B's columns, as read so far, are listed block by block. -/
inductive MatKind where
  | mma (o : MmaOp) (a b : Operand) (sa sb : List Nat)
  | mmah (o : MmaOp) (a : Operand) (sa : List Nat) (b : HostB)
  | fill (n : Nat) (word : Word64)
  deriving DecidableEq, Repr

/-- An operation in a matrix unit's queue (R201, R214). -/
structure MatOp where
  id      : Nat
  by_     : GroupRef
  core    : Nat
  sextant : Nat
  pid     : Nat
  asid    : Nat
  pc      : BitVec 48
  tile    : Nat
  kind    : MatKind
  skip    : List Nat           -- bytes of tile storage an AMOV has written, that this operation leaves alone (R215)
  rows    : List Nat           -- rows of A and columns of B read for good: an element they give has been seen (R215)
  cols    : List Nat
  deriving DecidableEq, Repr

/-- A vector of a near-memory call: its pages as found at issue (R226). -/
structure ZVec where
  va    : Nat
  pages : List Leaf
  deriving DecidableEq, Repr

inductive RoundOwner where
  | team (inst : Nat)
  | context (ctx : Nat)
  deriving DecidableEq, Repr

/-- A near-memory call (R225 to R230). -/
structure ZCall where
  id      : Nat
  by_     : Option GroupRef
  sender  : Nat               -- sending team instance
  pc      : BitVec 48
  ent     : Nat
  dbl     : Bool                -- .F64
  args    : List Word64
  len     : Nat
  rows    : Nat
  stride  : Nat
  reads   : List (Nat × ZVec)   -- argument number
  list    : List ZVec
  coefs   : List Word64
  writes  : List (Nat × ZVec)
  area    : Option (Nat × Nat)  -- where its partials go: team instance and offset
  arrive  : Option ArriveAt
  started : Bool
  left    : List Nat            -- sectors of its vectors still to read, by virtual address ÷ 32
  got     : FMap Byte           -- bytes read, by virtual address
  out     : List Nat            -- sectors still to write
  ended   : Bool
  sums    : List Word64         -- its 64 partials once it has ended (R224)
  deriving DecidableEq, Repr

/-- The working state of a unit for a round, but for its queued calls (R233): the micro-word address, how many sectors of
the call it has done, and its 32 working registers. -/
structure ZUnit where
  unit  : Nat
  micro : BitVec 8
  place : Nat
  regs  : List Word64
  deriving DecidableEq, Repr

/-- A round (R229, R231, R232). -/
structure Round where
  id     : Nat
  owner  : RoundOwner
  die    : Nat
  calls  : List ZCall
  ncall  : Nat
  units  : List Nat             -- channels touched
  work   : List ZUnit
  nerr   : Nat
  closedAt : Option Nat         -- the cycle of its close
  stopped : Bool                -- its units are in save mode (R233)
  status : Option (Nat × Nat)   -- where the status goes
  arrive : Option ArriveAt
  lines  : List Nat             -- lines of its write ranges
  deriving DecidableEq, Repr

/-- An EMBAG in flight (R237). -/
structure Embag where
  id     : Nat
  by_    : GroupRef
  pc     : BitVec 48
  red    : BitVec 2
  tva    : Nat
  rows   : Nat
  rstr   : Nat
  dim    : Nat
  fmt    : Nat
  l0     : Nat                  -- buffer-local offset of row 0
  key    : BitVec 8
  idx    : ZVec
  offs   : List Nat
  wts    : Option ZVec
  nbag   : Nat
  out    : Nat × Nat
  arrive : Option ArriveAt
  left   : List Nat             -- sectors of its lists still to read, by virtual address ÷ 32
  got    : FMap Byte            -- list bytes read, by virtual address
  bad    : Bool                 -- a list word was poisoned
  bags   : List Nat             -- bags still to pool
  chunks : List (Nat × List Byte)  -- 16-byte chunks of output still to write, with their places
  ecc    : Bool                 -- a bag has met an uncorrectable error
  deriving DecidableEq, Repr

/-- An arrival on its way to an object (R266, R267). -/
structure Arrival where
  id     : Nat
  at_    : ArriveAt
  n      : Int
  bytes  : Int
  sender : Nat
  deriving DecidableEq, Repr

/-! ## Queues, nodes, graphs -/

/-- A taken packet that has not completed (R46). -/
structure Packet where
  seq     : BitVec 32
  words   : List Word64
  /-- its work has ended, and its completion is to be signalled -/
  finished : Bool
  /-- records of a NODE-RECORD still to enter -/
  data    : List (List Byte)
  /-- when a WAIT times out -/
  expires : Option Nat
  deriving DecidableEq, Repr

structure Queue where
  num    : Nat
  pid    : Nat
  page   : Nat                 -- kick page of its function (R368)
  vec    : Nat
  logn   : Nat
  ring   : Nat
  dies   : BitVec 4
  wgt    : Nat
  stat   : Nat
  prio   : Nat
  asid   : Nat
  head   : BitVec 32
  kick   : BitVec 32
  halted : Bool
  err    : Bool
  code   : BitVec 8
  /-- status words to write, the first the oldest, and whether the vector follows (R45) -/
  posts  : List (Word64 × Bool)
  deficit : Int
  since  : Option Nat          -- since when its first pending unit has waited (R51)
  level  : Nat                 -- extra levels by ageing
  taken  : List Packet         -- oldest first
  slot   : Option (List Word64) -- the packet its lane has read in this round (R49)
  dying  : Bool                -- DESTROY_QUEUE waits for its teams
  deriving DecidableEq, Repr

/-- Where a record in a batch came from: nothing, or a Galliard context's record (R60, R298). -/
abbrev RecSource := Option (Nat × Nat)

inductive BufState where
  | free
  | opened (start : Option Nat)  -- tick of the first record
  | fired (grid : Nat)
  deriving DecidableEq, Repr

structure Buf where
  state   : BufState
  count   : Nat
  sources : List RecSource
  deriving DecidableEq, Repr

structure Node where
  id       : Nat
  pid      : Nat
  asid     : Nat
  lrec     : Nat
  gtim     : Nat
  bufa     : Nat
  nbuf     : Nat
  bcap     : Nat
  rsz      : Nat
  ownq     : Nat
  bufs     : List Buf
  next     : Nat                 -- where the next free buffer is looked for
  firing   : BitVec 32
  destroyed : Bool
  deriving DecidableEq, Repr

inductive GNodeState where
  | waiting (preds : Nat) (skipped : Nat) | running | complete | skipped
  deriving DecidableEq, Repr

/-- A node of a task graph (R61): its words, its state, a WHILE's iterations, a FEED's records left. -/
structure GNode where
  words : List Word64
  state : GNodeState
  iters : Nat
  again : Nat                   -- arrivals over a back edge that have still to test (R62)
  data  : List (List Byte)
  deriving DecidableEq, Repr

structure Graph where
  id      : Nat
  queue   : Nat
  seq     : BitVec 32
  addr    : Nat
  status  : Nat                 -- status word address
  aborted : Bool
  stopped : Bool                -- an ABORT packet has stopped it
  nodes   : List GNode
  deriving DecidableEq, Repr

/-! ## Chains and engines -/

structure Chain where
  addr   : Nat
  pid    : Nat
  asid   : Nat
  eng    : Nat
  logn   : Nat
  ring   : Nat
  tgt    : Nat
  cword  : Nat
  head   : Nat                  -- entries taken
  tail   : Nat
  lead   : Nat                  -- leading completed entries
  done   : List Nat             -- completed entries beyond them
  halted : Bool
  code   : BitVec 8
  due    : Bool                 -- CWORD is to be written
  told   : Bool                 -- while halted: the halt has been written and signalled
  held   : Bool                 -- CWORD waits for REPLAY_ALL
  stuck  : Bool                 -- the engine's read of an entry waits for REPLAY_ALL
  deriving DecidableEq, Repr

/-- A record a context has sent (R298, R303). -/
structure CtxRec where
  idx   : Nat
  att   : BitVec 16
  kind  : Nat
  stage : Nat
  node  : Nat
  words : List Word64
  sent  : Bool                  -- false while the context holds it for want of a buffer (R59)
  entering : Bool               -- it waited for a buffer when its node was destroyed, and still enters (R391)
  back  : Bool                  -- it has retired
  lost  : Bool                  -- unprocessed (R60)
  deriving DecidableEq, Repr

/-- What a stage of an attempt waits for or does next (R299, R304, R305). -/
inductive StagePhase where
  | forming                     -- its input's round
  | evaluating                  -- a KIND 0 record
  | newtonEval                  -- a KIND 1 record
  | residual                    -- R is to be formed, or its round
  | solving                     -- R is formed: factors, then the solve
  | cittern                     -- Cittern's operation
  | gmres                       -- Cittern's GMRES, between products
  | product                     -- a KIND 2 record
  | solved                      -- Δ stands in W1; the next iterate is to be formed, or its round
  | slope                       -- K is to be formed from the solve, or its round
  | explicitPart                -- IMEX: KE by a KIND 0 record
  | implicitPart                -- IMEX: KI of a stage that needs no solve
  | done
  deriving DecidableEq, Repr

/-- A stage of an attempt, in its Newton iteration `m`. -/
structure StageRun where
  stage : Nat
  m     : Nat
  phase : StagePhase
  deriving DecidableEq, Repr

/-- What a context's round of calls has formed, once acknowledged (R297). -/
inductive RoundFor where
  | input (stage : Nat)
  | residual (stage : Nat)
  | update (stage : Nat)
  | slope (stage : Nat)
  | judge
  | accept
  | probe                       -- W0 holds y at a time of event location
  | place                       -- y holds the solution at the event
  deriving DecidableEq, Repr

/-- Event location (R310). -/
structure Locate where
  a    : Word64
  ga   : Word64
  b    : Word64
  gb   : Word64
  side : Option Bool            -- some true: b
  tc   : Word64
  iter : Nat
  deriving DecidableEq, Repr

inductive CtxPhase where
  | begin                       -- begins its next attempt when the bank is free
  | stages                      -- stages of the attempt are evaluated
  | judging                     -- the round that forms YN, YH and their norm
  | accepting                   -- the round of an acceptance
  | event0                      -- g at T0
  | eventEnd                    -- g at the accepted step's end
  | locating (l : Locate)
  | placing                     -- y moves to the event
  /-- the status block, then the condition word, then at the end CCNT are written (R296): how many are -/
  | publish (done : Nat)
  | ended
  deriving DecidableEq, Repr

/-- A DENSE request (R311). -/
structure DenseReq where
  id     : Nat
  ctx    : Nat
  by_    : GroupRef
  pid    : Nat
  asid   : Nat
  out    : ZVec
  status : Nat × Leaf           -- the status word's physical address and its page
  t      : Word64
  arrive : Option ArriveAt
  served : Bool                 -- written: its arrival, then the condition word, wait for those writes to perform (R296)
  deriving DecidableEq, Repr

/-- A matrix-free solve under way (R305): GMRES from `delta`, whose residual has the norm `beta`. -/
structure Gmres where
  delta : List Word64           -- the iterate at the latest restart
  beta  : Word64
  cols  : List (List Word64)    -- the Hessenberg columns since then
  eps   : Word64                -- ε of the product at hand
  best  : List Word64           -- the iterate of lowest residual so far
  low   : Word64                -- and the WRMS norm of that residual
  deriving DecidableEq, Repr

/-- An integration context (R292 to R310). -/
structure Ctx where
  num    : Nat                  -- die × 64 + slot
  chain  : Nat                  -- its chain's key
  pid    : Nat
  asid   : Nat
  addr   : Nat                  -- context record
  rec_   : List Word64          -- its words 0x00 to 0xB8
  tab    : List Word64          -- the tableau's words, header first
  phase  : CtxPhase
  start  : Option Nat           -- the START entry that its first condition word completes
  att    : BitVec 16
  t      : Word64
  h      : Word64
  rem    : Word64               -- REM of the attempt
  h2     : Word64               -- HNEXT once an attempt is accepted
  hNext  : Word64
  tOld   : Word64               -- the step last accepted: its start, its size and its end
  hOld   : Word64
  tNew   : Word64
  nacc   : BitVec 32
  nrej   : BitVec 32
  rejs   : Nat                  -- rejections in this step
  nfail  : Bool
  dln    : Bool
  piv    : Bool
  status : BitVec 8
  why    : BitVec 8
  stages : List StageRun
  jac    : Option Bool          -- J asked for in this attempt, and whether it has come
  gamma  : Option Word64        -- γ of the factors held
  gmres  : Option Gmres         -- the matrix-free solve at hand
  recs   : List CtxRec          -- unretired records
  nextRec : Nat
  gOld   : Option Word64
  gNew   : Word64
  err    : Word64
  tev    : Word64
  round  : Option RoundFor
  acked  : Option (Nat × List Word64)  -- its last round's error count and partials, once acknowledged
  held   : Bool                 -- an access waits for REPLAY_ALL
  deriving DecidableEq, Repr

/-- An operation in Cittern: a chain's entry, or a context's (R306, R305). -/
structure CitternJob where
  id    : Nat
  die   : Nat
  chain : Option (Nat × Nat)    -- chain address and entry
  ctx   : Option Nat
  pid   : Nat
  asid  : Nat
  op    : Nat
  words : List Word64
  held  : Bool
  deriving DecidableEq, Repr

/-- A part of a block that is sent and acknowledged by itself: a datagram's bytes, or for a peer all of them (R375, R376). -/
structure CteGram where
  off     : Nat
  resends : Nat
  sentAt  : Nat
  deriving DecidableEq, Repr

/-- A block of an entry being sent (R373 to R376). -/
structure CteBlock where
  chain   : Nat
  entry   : Nat
  block   : Nat
  dest    : Nat                 -- peer n, or 64 + n for endpoint n
  win     : Nat                 -- the remote window, and the block's place in its table
  idx     : Nat
  src     : Nat
  size    : Nat
  conv    : Nat
  left    : List Nat            -- 32-byte sectors of its source still to be read
  got     : FMap Byte           -- the bytes read
  data    : Option (List Byte)  -- as converted and sent; none until then
  grams   : List CteGram        -- sent and not yet acknowledged
  held    : Bool
  deriving DecidableEq, Repr

/-- Bytes of a block that have arrived at a window (R374): they land sector by sector, and the block's counter rises after
its last. -/
structure CteIn where
  die    : Nat
  win    : Nat
  idx    : Nat
  stream : Nat
  off    : Nat
  bytes  : List Byte
  dst    : Option Nat           -- the block's address, once the table has been read
  left   : List Nat             -- 32-byte pieces still to land
  held   : Bool
  deriving DecidableEq, Repr

/-- What has landed of a block that is not complete. -/
structure CtePart where
  stream : Nat
  idx    : Nat
  bytes  : Nat
  deriving DecidableEq, Repr

/-- A receive window (R374). -/
structure CteWindow where
  id    : Nat
  asid  : Nat
  table : Nat
  ndst  : Nat
  blk   : Nat                   -- destination block size, which aligns the table's addresses
  cnt   : Nat
  from_ : Word64 × BitVec 256   -- peers and endpoints that may send
  seen  : List (Nat × Nat × Nat)   -- what has been received: stream, index and offset
  parts : List CtePart
  deriving DecidableEq, Repr

structure CteEndpoint where
  id   : Nat
  args : List Word64            -- MAC, VLAN tag, address, port, as the command gives them
  deriving DecidableEq, Repr

/-! ## Dies and partitions -/

/-- One die's front end, Theorbo, L2 TLB and Zither store. -/
structure Die where
  pregap  : Nat
  rampu   : Nat
  ageus   : Nat
  used    : Nat                 -- pool units started and stopped in this 1 µs window (R56)
  window  : Nat                 -- the window's tick
  round   : List Nat            -- Theorbo's round: lanes whose packet is still to be handled (R49)
  l2tlb   : List Leaf
  walks   : List Walk
  entries : FMap Word64         -- near-memory entry table (R223); default `zitherReset`
  micro   : FMap Nat            -- Zither control store, 256 micro-words (R222); default 0 (log 24)
  reload  : Bool                -- a ZRELOAD waits for the rounds to close (R222)
  deriving DecidableEq, Repr

/-- A partition's record (R364). -/
structure PartRec where
  asidb  : Nat
  asidn  : Nat
  keyb   : Nat
  keyn   : Nat
  nvec   : Nat
  pw     : Nat
  maxl   : Nat
  lshare : Nat
  hshare : Nat
  p      : Nat
  ceil   : Nat
  peers  : Word64
  saveb  : Nat
  savesz : Nat
  dwin   : List (Nat × Nat)
  hwin   : List (Nat × Nat)
  cores  : BitVec 512
  deriving DecidableEq, Repr

/-- A fault buffer entry (R318). -/
structure FaultEntry where
  asid  : Nat
  va    : Nat
  cause : BitVec 8
  src   : Nat
  lvl   : Nat
  wr    : Bool
  k     : Bool
  ctx   : Nat
  lanes : BitVec 32
  core  : Nat
  grp   : Nat
  pc    : BitVec 48
  dup   : BitVec 32
  seq   : BitVec 32
  key   : FaultKey
  deriving DecidableEq, Repr

/-- A firmware slot of the flash, or an image (R377): the 128-byte header and the body. -/
structure FwSlot where
  header : List Byte
  body   : List Byte
  deriving DecidableEq, Repr

/-- What a running command waits for before it answers. -/
inductive CmdWait where
  | node (n : Nat)                            -- DESTROY_NODE (R391)
  | queue (q : Nat)                           -- DESTROY_QUEUE
  | calls (ids : List Nat)                    -- INVALIDATE: accesses under the old translation, by their names (R165, R226)
  | writeSlot (slot : Nat) (image : FwSlot)   -- WRITE_SLOT: the flash is being written (R380)
  | commit (target : Nat)                     -- COMMIT: fuses are being blown (R380)
  | reload                                    -- ZRELOAD (R222, R380)
  | settled (out : List Word64)               -- a release at .SYS after Lute's writes (R36, R386)
  deriving DecidableEq, Repr

/-- A function's mailbox (R366) and its MSI-X state (R368). -/
structure Mailbox where
  tag     : BitVec 32
  intr    : Bool
  opc     : BitVec 8
  dtag    : BitVec 32
  busy    : Bool
  lost    : Bool
  wait    : Option CmdWait
  result  : BitVec 8
  evt     : BitVec 6
  arg     : FMap Word64
  out     : FMap Word64
  msix    : FMap Word64         -- the MSI-X table's words, but for the mask bits (PCIe; log 10)
  masked  : List Nat            -- MSI-X vectors masked
  pending : List Nat            -- pending bits
  sent    : FMap Nat            -- messages sent, by vector
  deriving DecidableEq, Repr

/-- A kernel of a loaded module: its CODE address and its liveness table (R36, R338). -/
structure Kernel where
  code  : Nat
  live  : Nat
  nlive : Nat
  deriving DecidableEq, Repr

/-- A relocated word of a cached image (R36): its place from the load area's base, its section's type and R360's kind, and
its value, from the base or from the id of a node that the module declares. -/
structure Fix where
  at_  : Nat
  type : Nat
  kind : Nat
  node : Option Nat
  val  : Nat
  deriving DecidableEq, Repr

/-- An entry of the finaliser's cache (R36): an image, by the sections' places from the load area's base, and its
relocations against that base. -/
structure Cached where
  digest : BitVec 512
  parts  : List (Nat × Nat × List Byte)
  fixes  : List Fix
  deriving DecidableEq, Repr

/-- A module as loaded (R36): its digest and its area. -/
structure Module where
  digest : BitVec 512
  asid   : Nat
  base   : Nat
  length : Nat
  kernels : List Kernel
  deriving DecidableEq, Repr

structure Partition where
  pid      : Nat
  rec_     : PartRec
  box      : Mailbox
  depth    : Nat                -- DEPTH (R317)
  entries  : List FaultEntry
  drop     : Bool
  dropn    : BitVec 16
  seq      : BitVec 32
  keys     : List FaultKey
  fvec     : Nat
  debugger : Bool
  modules  : List Module
  windows  : List CteWindow
  endpoints : List CteEndpoint
  saveUsed : List (Nat × Nat)   -- save records held: address and size
  resetting : Option Nat        -- the step of R369 last taken
  deriving DecidableEq, Repr

/-! ## Links -/

inductive PortMode where
  | off | parzon | ethernet
  deriving DecidableEq, Repr

structure Port where
  mode      : PortMode
  up        : Bool
  replays   : Nat               -- failed replays of the flit at hand (R370)
  discarded : Nat               -- Ethernet frames discarded (R372)
  deriving DecidableEq, Repr

structure Peer where
  identity : Nat
  ports    : BitVec 24
  deriving DecidableEq, Repr

/-! ## The device -/

/-- Everything but Lute's firmware, identity and dump. -/
structure Dev where
  /-- the model's own: counts steps, and free values are applied to it (log 1) -/
  fresh   : Nat
  /-- the model's own: names of requests, copies, calls and instances (log 2) -/
  nextId  : Nat
  /-- the model's own: the split whose word is being issued (log 2) -/
  cur     : Option SplitRef
  /-- the splits the issue ports have taken in this round, each with its core and sextant, the latest first (R101) -/
  chose   : List (SplitRef × Nat × Nat)
  /-- the model's own: steps since a split that a port had chosen last issued (R20; log 52) -/
  passed  : Nat
  /-- cycles of the 1.6 GHz clock since reset (R9, R238; log 4) -/
  cycle   : Nat
  capacity : Bool               -- a 9440-M, with the capacity tier (R1; log 5)
  mem     : FMap Byte           -- by physical address, every region (R160); default 0 (log 6)
  poison  : List Nat            -- poisoned 32-byte sectors, by PA ÷ 32, rising (R383)
  lineKey : FMap (BitVec 8 × Nat)  -- key id and generation a line was written under; default plaintext (R382)
  keyGen  : FMap Nat            -- generation of each key id; default 0
  roots   : FMap Nat            -- page-table root by ASID, plus 1; default none
  homes   : FMap HomeLine       -- lines the homes hold, by PA ÷ 128
  reqs    : List Req            -- oldest first
  cores   : FMap Core
  dies    : List Die
  teams   : List Team
  grids   : List Grid
  pending : List Unit_          -- in each queue's order
  queues  : List Queue
  levels  : List Nat            -- each level's pointer: the queue number to look from (R52)
  nodes   : List Node
  graphs  : List Graph
  copies  : List Copy
  mats    : List MatOp          -- matrix queues, oldest first
  rounds  : List Round
  embags  : List Embag
  arrivals : List Arrival
  chains  : List Chain
  ctxs    : List Ctx
  dense   : List DenseReq
  jobs    : List CitternJob
  blocks  : List CteBlock
  arrived : List CteIn
  parts   : List Partition
  ports   : List Port
  peers   : FMap Peer
  images  : List Cached         -- the finaliser's cache, the latest used first (R36)
  unsettled : List Unsettled    -- writes of asynchronous work that a wait may cover (R254)
  settle  : Nat                 -- latest expiry of a lease on a line an engine has written (R240, R241)
  hostTill : Nat                -- until when the host's latest access has not completed (R255, R257)
  pfReset : Bool                -- an FLR of the PF waits for every partition's reset (R369)
  frozen  : Bool                -- a fatal error has frozen cores and engines (R385)
  deriving DecidableEq, Repr

/-- The SPDM responder (R381). -/
structure Spdm where
  version : Bool
  caps    : Bool
  algs    : Bool
  peer    : Option (BitVec 768)   -- the requester's DHE share, and the device's
  share   : BitVec 768
  session : Bool
  ide     : FMap (BitVec 256)   -- IDE stream keys
  reply   : List Byte           -- the responder's last answer
  deriving DecidableEq, Repr

/-- The fatal dump (R385, R386). -/
structure Dump where
  ndump    : BitVec 32
  magic    : Bool
  cause    : BitVec 8
  cause2   : BitVec 8
  die      : BitVec 4
  state    : BitVec 2
  pooldies : BitVec 4
  sect     : BitVec 6
  time     : Word64
  size     : Word64
  body     : List Byte
  next     : BitVec 4           -- POOLDIES of the next dump
  writing  : Bool               -- Lute is writing the dump
  deriving DecidableEq, Repr

/-- Lute's firmware, fuses, identity, dump and package control. -/
structure Fw where
  slots    : List FwSlot
  arb      : Nat                -- blown anti-rollback fuses, 0 to 64
  revoked  : BitVec 4           -- key revocation fuses
  running  : Option FwSlot
  recovery : Bool
  staging  : FMap Byte          -- BAR4's staging window (R379)
  spdm     : Spdm
  dump     : Dump
  limit    : Nat                -- PL in watts, the package's (R388)
  clock    : Nat                -- arithmetic clock in MHz
  on       : Bool               -- powered
  scrubbed : Nat                -- corrected errors counted (R383)
  deriving DecidableEq, Repr

/-- What is asked of the device from outside, or by an event no rule times, oldest first, stands in `inbox` (log 3). -/
structure State where
  dev   : Dev
  fw    : Fw
  inbox : List Instr
  deriving DecidableEq, Repr

/-- The model stops with a fault. -/
inductive Fault where
  /-- Raised by `step` when the device has no power and no boot is asked for (POWER_LOSS). Safe: nothing runs. -/
  | unpowered
  deriving DecidableEq, Repr

/-- The model has no answer. -/
inductive Refusal where
  /-- An instruction that has no meaning yet; raised by `exec`'s arm. Safe. -/
  | notModelled (mnemonic : String)
  /-- An instruction word is run while no split is issuing; raised by `withIssuer`. Safe: `step` never asks it. -/
  | noIssuingSplit
  /-- An event is run that stands for no pending work; raised by the events' meanings. Safe: `step` asks only for
  pending ones, and an outside event that stands for nothing is not a behaviour of the device. -/
  | notPending
  deriving DecidableEq, Repr

abbrev Res := Host.Outcome State Fault Refusal

/-! ## Reset -/

def PartRec.reset : PartRec :=
  { asidb := 0, asidn := 0, keyb := 1, keyn := 0, nvec := 1, pw := 20000, maxl := 400, lshare := 1, hshare := 0, p := 1,
    ceil := 7, peers := 0, saveb := 0, savesz := 0, dwin := List.replicate 8 (0, 0), hwin := List.replicate 4 (0, 0),
    cores := 0 }

/-- R366's reset values; every MSI-X vector masked (log 10). -/
def Mailbox.reset : Mailbox :=
  { tag := 0, intr := false, opc := 0, dtag := 0, busy := false, lost := false, wait := none, result := 0, evt := 0, arg := [],
    out := [], msix := [], masked := List.range 64, pending := [], sent := [] }

def Partition.reset (pid : Nat) : Partition :=
  { pid, rec_ := PartRec.reset, box := Mailbox.reset, depth := 8, entries := [], drop := false, dropn := 0, seq := 0,
    keys := [], fvec := 0, debugger := false, modules := [], windows := [], endpoints := [], saveUsed := [],
    resetting := none }

/-- An entry's reset value (R223): SELA, LISTA, PARA and CNTA are 7, every other field 0. -/
def zitherReset : Word64 := BitVec.ofNat 64 (7 * 2 ^ 33 + 7 * 2 ^ 30 + 7 * 2 ^ 27 + 7 * 2 ^ 24)

/-- The library's entries 0 to 8 (R223, R224): WRITEM, READM, OPTM and the selecting arguments. -/
def zitherLibrary : FMap Word64 :=
  let ent (optm res readm writem sela lista para cnta : Nat) : Word64 :=
    BitVec.ofNat 64 (2^63 + optm * 2^57 + res * 2^56 + readm * 2^48 + writem * 2^40 + sela * 2^33 + lista * 2^30 +
      para * 2^27 + cnta * 2^24)
  [(0, ent 0 0 0 1 7 7 7 7), (1, ent 0 0 2 1 7 7 7 7), (2, ent 0 0 2 1 7 7 7 7), (3, ent 0 0 6 1 7 7 7 7),
   (4, ent 0 0 2 1 7 2 3 4), (5, ent 12 1 3 0 4 7 7 7), (6, ent 0 1 3 0 7 7 7 7), (7, ent 0 1 1 0 7 7 7 7),
   (8, ent 0 1 1 0 7 7 7 7)]

/-- R50's reset values; the entry table is what boot loads (R222). -/
def Die.reset : Die :=
  { pregap := 2, rampu := 1536, ageus := 100, used := 0, window := 0, round := [],
    l2tlb := [], walks := [], entries := zitherLibrary, micro := [], reload := false }

def Core.empty : Core :=
  { l1 := [], icache := [], fills := [], tlb := [], lb := [none, none, none, none], stepping := [], gated := false,
    idle := 0, leftover := [], scalars := [] }

/-- Ports 6d and 6d + 1 carry Kora buffers and stay in Parzon mode (R370); every other port is off (log 8). -/
def Port.reset (n : Nat) : Port :=
  let kora := decide (n % 6 < 2)
  { mode := if kora then .parzon else .off, up := kora, replays := 0, discarded := 0 }

/-- The device after reset: no work, every window unused (R365), the form a 9440-M (log 5). -/
def Dev.reset : Dev :=
  { fresh := 0, nextId := 1, cur := none, chose := [], passed := 0, cycle := 0, capacity := true, mem := [], poison := [], lineKey := [],
    keyGen := [], roots := [], homes := [], reqs := [], cores := [], dies := List.replicate 4 Die.reset, teams := [],
    grids := [], pending := [], queues := [], levels := List.replicate 8 0, nodes := [], graphs := [], copies := [], mats := [],
    rounds := [], embags := [], arrivals := [], chains := [], ctxs := [], dense := [], jobs := [], blocks := [], arrived := [],
    parts := (List.range 64).map Partition.reset,
    ports := (List.range 24).map Port.reset, peers := [], images := [], unsettled := [], settle := 0, hostTill := 0, pfReset := false, frozen := false }

def Dump.reset : Dump :=
  { ndump := 0, magic := false, cause := 0, cause2 := 0, die := 0, state := 0, pooldies := 0, sect := 0, time := 0,
    size := 0, body := [], next := 0, writing := false }

def Spdm.reset : Spdm :=
  { version := false, caps := false, algs := false, peer := none, share := 0, session := false, ide := [], reply := [] }

/-- The TDP of R1, which PL holds until the PF lowers it (R388): the package's, in either form; the 2,700 W of a 9440-M
cover its buffers, memory and power stages as well. DEDUCED, log 8. -/
def packageTdp : Nat := 2200

/-- Both slots empty, no fuse blown, the image that booted unnamed (log 8). -/
def Fw.reset : Fw :=
  { slots := [⟨[], []⟩, ⟨[], []⟩], arb := 0, revoked := 0, running := none, recovery := false, staging := [],
    spdm := Spdm.reset, dump := Dump.reset, limit := packageTdp, clock := 1600, on := true, scrubbed := 0 }

def State.reset : State := { dev := Dev.reset, fw := Fw.reset, inbox := [] }

end Sys2Proof.Machine
end

