-- ==== Sys2Proof/Machine/Memory.lean ====
section
/-! DEFINITION. Maps, physical memory and its encryption, page tables and TLBs, and the home's part of a store. -/

/-- A list with `x` before the first element it may precede. -/
def List.insertIn {α : Type} (le : α → α → Bool) (x : α) : List α → List α
  | [] => [x]
  | y :: t => if le x y then x :: y :: t else y :: List.insertIn le x t

/-- A list in order, equals as they stood. -/
def List.isort {α : Type} (l : List α) (le : α → α → Bool) : List α := l.foldr (List.insertIn le) []

namespace Sys2Proof.Machine

/-! ## Maps -/

/-- The value at `n`; an unlisted key has the default `d`. -/
def fget {α : Type} (d : α) : FMap α → Nat → α
  | [], _ => d
  | (k, v) :: t, n => if k = n then v else fget d t n

/-- The map without key `n`. -/
def fdrop {α : Type} (m : FMap α) (n : Nat) : FMap α := m.filter fun x => x.1 != n

/-- `v` at `n`, before the first greater key. -/
def fput {α : Type} : FMap α → Nat → α → FMap α
  | [], n, v => [(n, v)]
  | (k, w) :: t, n, v => if n < k then (n, v) :: (k, w) :: t else (k, w) :: fput t n v

/-- `v` at `n`, keeping the canonical form: keys rising, no listed default. -/
def fset {α : Type} [DecidableEq α] (d : α) (m : FMap α) (n : Nat) (v : α) : FMap α :=
  if v = d then fdrop m n else fput (fdrop m n) n v

/-- Keys from `lo` on, rising, and none with the default. -/
def fwfFrom {α : Type} [DecidableEq α] (d : α) (lo : Nat) : FMap α → Bool
  | [] => true
  | (k, v) :: t => decide (lo ≤ k) && decide (v ≠ d) && fwfFrom d (k + 1) t

/-- The canonical form of a map. -/
def fwf {α : Type} [DecidableEq α] (d : α) (m : FMap α) : Bool := fwfFrom d 0 m

/-- The canonical form of memory: addresses rising, no listed byte zero (log 6). -/
def Memory.wf (m : FMap Byte) : Bool := fwf 0 m

/-- The bytes `bs` from key `a` on. -/
def fsetBytes (m : FMap Byte) (a : Nat) : List Byte → FMap Byte
  | [] => m
  | b :: bs => fsetBytes (fset 0 m a b) (a + 1) bs

/-- `n` bytes from key `a` on. -/
def fgetBytes (m : FMap Byte) (a n : Nat) : List Byte := (List.range n).map fun k => fget 0 m (a + k)

/-! ## Bytes and numbers -/

/-- Little-endian value of bytes (R6). -/
def bytesNat (bs : List Byte) : Nat := bs.foldr (fun b acc => b.toNat + 256 * acc) 0

/-- The `n` low bytes of a number, lowest first (R6). -/
def natBytes (n v : Nat) : List Byte := (List.range n).map fun k => BitVec.ofNat 8 (v / 256 ^ k)

/-- Bits [lo+len-1 : lo] of a number. -/
def bits (v lo len : Nat) : Nat := v / 2 ^ lo % 2 ^ len

/-- The drift guard of R238. -/
def drift (x : Nat) : Nat := (x * 200 + 999999) / 1000000

/-- Element `k` replaced. -/
def listSet {α : Type} (l : List α) (k : Nat) (f : α → α) : List α :=
  l.zipIdx.map fun (x, j) => if j = k then f x else x

/-! ## Physical addresses -/

def paRegion (pa : Nat) : Nat := pa / 2 ^ 48

/-- R160: the region exists on this form and the bits it requires zero are zero. -/
def paLegal (capacity : Bool) (pa : Nat) : Bool :=
  match paRegion pa with
  | 0 => bits pa 39 9 == 0
  | 1 => capacity && bits pa 41 7 == 0
  | 2 | 4 => true
  | _ => false

/-- The die whose home holds a line, or 64 + n for peer n (R171, R174). -/
def homeDie (pa : Nat) : Nat :=
  match paRegion pa with
  | 0 => bits pa 37 2
  | 1 => bits pa 12 3 / 2
  | 2 => bits pa 14 2
  | _ => 64 + bits pa 42 6

/-- The channel and home of a line on its die (R171, R174). -/
def homeOf (pa : Nat) : Nat := bits pa 8 6 ^^^ bits pa 14 6

/-- Where the areas of a die's stack that belong to the device begin; they reach to its top: the 64 channels' spill
carve-outs of 256 KiB (R173), with the fault buffers (R317) and the dump of 1 GiB (R385) on die 0, and the finaliser's
cache of 256 MiB on die 1 (R37). DESIGN CHOICE (log 15): the order in which they lie below one another, and 2 MiB for
the fault buffers. -/
def carveBase (die : Nat) : Nat :=
  match die with
  | 0 => 2 ^ 37 - 2 ^ 30 - 2 ^ 24 - 2 ^ 21
  | 1 => 2 ^ 37 - 2 ^ 28 - 2 ^ 24
  | _ => 2 ^ 37 - 2 ^ 24

/-- The byte lies in an area of region 0x0 that belongs to the device (R37, R173, R317, R362). -/
def carveOut (pa : Nat) : Bool := paRegion pa == 0 && carveBase (bits pa 37 2) ≤ pa % 2 ^ 37

/-- `n` bytes from `pa` on meet a carve-out, which no partition can map (R173). -/
def meetsCarveOut (pa n : Nat) : Bool :=
  decide (0 < n) && paRegion pa == 0 && ((List.range 4).any fun k =>
    decide (pa < 2 ^ 37 * (k + 1)) && decide (2 ^ 37 * k + carveBase k < pa + n))

/-! ## Lookups -/

/-- A peer with no live port (R371). -/
def Dev.peerDead (d : Dev) (n : Nat) : Bool :=
  let ports := (fget { identity := 0, ports := 0 } d.peers n).ports
  !(d.ports.zipIdx.any fun (p, k) => ports.getLsbD k && p.up && decide (p.mode = .parzon))

/-- An address of a peer that has no live port (R371). -/
def Dev.unreachable (d : Dev) (pa : Nat) : Bool := paRegion pa == 4 && d.peerDead (bits pa 42 6)

def Dev.part (d : Dev) (pid : Nat) : Partition := d.parts.getD pid (Partition.reset pid)

def Dev.modPart (d : Dev) (pid : Nat) (f : Partition → Partition) : Dev := { d with parts := listSet d.parts pid f }

def Dev.die (d : Dev) (n : Nat) : Die := d.dies.getD n Die.reset

def Dev.modDie (d : Dev) (n : Nat) (f : Die → Die) : Dev := { d with dies := listSet d.dies n f }

def Dev.core (d : Dev) (c : Nat) : Core := fget Core.empty d.cores c

def Dev.modCore (d : Dev) (c : Nat) (f : Core → Core) : Dev :=
  { d with cores := fset Core.empty d.cores c (f (d.core c)) }

def HomeLine.none : HomeLine :=
  { nl := 0, expiry := 0, maxl := 0, leased := false, stored := false, owned := false, hostHas := false, str := false
    form := Option.none }

def Dev.home (d : Dev) (line : Nat) : HomeLine := fget HomeLine.none d.homes line

def Dev.setHome (d : Dev) (line : Nat) (h : HomeLine) : Dev := { d with homes := fset HomeLine.none d.homes line h }

/-- The µs tick of a die's reference (R9). -/
def Dev.tick (d : Dev) (die : Nat) : Nat := (d.cycle + Config.tickOffset die) / 1600

/-! ## Memory under encryption (R382) -/

/-- The tag a line written under `key` carries: its key id and that key's generation; plaintext for key 0 and
outside regions 0x0 and 0x1. -/
def Dev.tagFor (d : Dev) (key : BitVec 8) (pa : Nat) : BitVec 8 × Nat :=
  if key = 0 ∨ 2 ≤ paRegion pa then (0, 0) else (key, fget 0 d.keyGen key.toNat)

/-- The tag the line of `pa` was written under. -/
def Dev.tagOf (d : Dev) (pa : Nat) : BitVec 8 × Nat := fget (0, 0) d.lineKey (pa / 128)

def packLine (bs : List Byte) : Line := BitVec.ofNat 1024 (bytesNat bs)

def Line.byte (l : Line) (k : Nat) : Byte := l.extractLsb' (8 * k) 8

/-- The byte an access under `key` reads at `pa`. -/
def Dev.rd (d : Dev) (key : BitVec 8) (pa : Nat) : Byte :=
  if d.tagOf pa = d.tagFor key pa then fget 0 d.mem pa
  else Line.byte (Config.recrypt (d.tagOf pa) (d.tagFor key pa) (pa / 128)
    (packLine (fgetBytes d.mem (pa / 128 * 128) 128))) (pa % 128)

def Dev.rdBytes (d : Dev) (key : BitVec 8) (pa n : Nat) : List Byte := (List.range n).map fun k => d.rd key (pa + k)

def Dev.rdNat (d : Dev) (key : BitVec 8) (pa n : Nat) : Nat := bytesNat (d.rdBytes key pa n)

def Dev.rdLine (d : Dev) (key : BitVec 8) (line : Nat) : Line := packLine (d.rdBytes key (line * 128) 128)

/-- Brings a line under `key`: the home writes it back and fetches it under the accessing key. -/
def Dev.rekey (d : Dev) (key : BitVec 8) (line : Nat) : Dev :=
  if d.tagOf (line * 128) = d.tagFor key (line * 128) then d
  else { d with
    mem := fsetBytes d.mem (line * 128) (d.rdBytes key (line * 128) 128)
    lineKey := fset (0, 0) d.lineKey line (d.tagFor key (line * 128)) }

/-- The lines that `n` bytes from `pa` touch. -/
def linesOf (pa n : Nat) : List Nat :=
  if n = 0 then [] else (List.range ((pa + n - 1) / 128 - pa / 128 + 1)).map (pa / 128 + ·)

/-- A write of bytes under `key`; a complete write of a poisoned sector clears the poison (R383). -/
def Dev.wr (d : Dev) (key : BitVec 8) (pa : Nat) (bs : List Byte) : Dev :=
  let d := (linesOf pa bs.length).foldl (fun d l => d.rekey key l) d
  { d with
    mem := fsetBytes d.mem pa bs
    poison := d.poison.filter fun s => !(decide (pa ≤ 32 * s) && decide (32 * s + 32 ≤ pa + bs.length)) }

/-- `n` bytes from `pa` meet a poisoned sector (R383). -/
def Dev.poisoned (d : Dev) (pa n : Nat) : Bool :=
  d.poison.any fun s => decide (pa < 32 * s + 32) && decide (32 * s < pa + n)

/-! ## What a home holds (R172) -/

/-- All words equal one base plus a signed delta of `w` bits. -/
def oneBase {n : Nat} (w : Nat) (ws : List (BitVec n)) : Bool := ws.any fun b => ws.all fun x => decide ((x - b).toNat < 2 ^ w)

/-- The form in which a home holds a line. DESIGN CHOICE (log 68): of those whose condition holds, the first of R172's
table. -/
def Line.form (l : Line) : HomeForm :=
  let w64 := (List.range 16).map fun k => (l.extractLsb' (64 * k) 64 : BitVec 64)
  let w32 := (List.range 32).map fun k => (l.extractLsb' (32 * k) 32 : BitVec 32)
  if l = 0 then .zero
  else if oneBase 8 w64 then .b8d1
  else if oneBase 8 w32 then .b4d1
  else if oneBase 16 w64 then .b8d2
  else .plain

/-- The half data entries that a form takes. -/
def HomeForm.halves : HomeForm → Nat
  | .zero => 0
  | .plain => 2
  | _ => 1

/-- A line's home: its die and number; 64 + n stands for peer n's homes (R171, R174). -/
def homeAt (line : Nat) : Nat × Nat := (homeDie (line * 128), homeOf (line * 128))

/-- The tags of a home. -/
def Dev.tagsAt (d : Dev) (h : Nat × Nat) : FMap HomeLine := d.homes.filter fun x => homeAt x.1 == h

/-- The data entries a home's held lines take: two half-entry lines share one (R172). -/
def entriesOf (ts : FMap HomeLine) : Nat := ((ts.map fun x => (x.2.form.map (·.halves)).getD 0).foldl (· + ·) 0 + 1) / 2

/-- Which of some lines goes: one marked by .STR first, otherwise any (R10, R167; log 68). -/
def Dev.pickLine (d : Dev) (ts : FMap HomeLine) : Option Nat :=
  let str := ts.filter fun x => x.2.str
  let pool := if str.isEmpty then ts else str
  match pool with
  | [] => none
  | [x] => some x.1
  | xs => (xs[Config.pick d.fresh % xs.length]?).map (·.1)

/-- A home's data fits in its 12,288 entries again: it lets go of the data of other lines; their tags stay. -/
def Dev.trimData (d : Dev) (line : Nat) : (fuel : Nat) → Dev
  | 0 => d
  | fuel + 1 =>
    let ts := d.tagsAt (homeAt line)
    if entriesOf ts ≤ 12288 then d
    else match d.pickLine (ts.filter fun x => x.1 != line && x.2.form.any (·.halves != 0)) with
      | some l => (d.setHome l { d.home l with form := none, str := false }).trimData line fuel
      | none => d

/-- The home has a tag for the line, or makes room for one among its 24,576: a tag whose lease has lapsed goes.
DESIGN CHOICE (log 68): a home keeps every tag with a live lease, so it may have no room. -/
def Dev.tagRoom (d : Dev) (line : Nat) : Dev × Bool :=
  let ts := d.tagsAt (homeAt line)
  if d.home line ≠ HomeLine.none ∨ ts.length < 24576 ∨ 64 ≤ (homeAt line).1 then (d, true)
  else match d.pickLine (ts.filter fun x => decide (x.2.expiry ≤ d.cycle)) with
    | some l => (d.setHome l HomeLine.none, true)
    | none => (d, false)

/-- The line as memory holds it now. -/
def Dev.memLine (d : Dev) (line : Nat) : Line := packLine (fgetBytes d.mem (line * 128) 128)

/-- The home holds the line's data, in a form that suits it; not that of a line in an open round's write ranges (R231). -/
def Dev.holdData (d : Dev) (line : Nat) : Dev :=
  if d.rounds.any (·.lines.contains line) then d else
  (d.setHome line { d.home line with form := some (d.memLine line).form }).trimData line 4

/-! ## The home's part of a write (R239, R241) -/

/-- Ends the watches on a line, which a store or atomic or, for a host line, the host's snoop meets (R278). -/
def Dev.wakeWatches (d : Dev) (line : Nat) : Dev :=
  { d with reqs := d.reqs.map fun r => if r.watch == 1 && r.line == line then { r with watch := 2 } else r }

/-- A store or atomic performs on `line` at its home: NL halves while a lease is outstanding; a host line is
taken with ownership and a line the host holds is back-invalidated (R239, R256, R257). -/
def Dev.homeStore (d : Dev) (cached : Bool) (line : Nat) : Dev :=
  let h := d.home line
  let h := if d.cycle < h.expiry then { h with nl := h.nl / 2, stored := true } else h
  let d := d.setHome line { h with hostHas := false }
  let d := if h.form.isSome then d.holdData line else d
  if cached && paRegion (line * 128) == 2 then
    match d.tagRoom line with
    | (d, true) => (d.setHome line { d.home line with owned := true }).holdData line
    | (d, false) => d
  else d

/-- A write performs at the homes of its lines; `cached` when its page is cacheable. -/
def Dev.homeWrite (d : Dev) (cached : Bool) (key : BitVec 8) (pa : Nat) (bs : List Byte) : Dev :=
  let d := d.wr key pa bs
  let d := (linesOf pa bs.length).foldl (Dev.homeStore · cached) d
  (linesOf pa bs.length).foldl (fun d l => if paRegion pa = 2 then d else d.wakeWatches l) d

/-- The latest expiry among the lines `n` bytes touch (R241). -/
def Dev.expiryOf (d : Dev) (pa n : Nat) : Nat := (linesOf pa n).foldl (fun e l => max e (d.home l).expiry) 0

/-- An engine's write: its settle deadline joins the engines' horizon (R240, R241). -/
def Dev.engineWrite (d : Dev) (cached : Bool) (key : BitVec 8) (pa : Nat) (bs : List Byte) : Dev :=
  let e := if cached then d.expiryOf pa bs.length else 0
  let d := d.homeWrite cached key pa bs
  { d with settle := max d.settle e }

/-! ## Translation (R161 to R165) -/

/-- What an access needs of a leaf (R164). -/
inductive Need where
  | r | w | rw | x
  deriving DecidableEq, Repr

def Need.met : Need → Leaf → Bool
  | .r, l => l.r
  | .w, l => l.w
  | .rw, l => l.r && l.w
  | .x, l => l.x

def Need.isW : Need → Bool
  | .w | .rw => true
  | _ => false

/-- The end of a translation. -/
inductive Xlat where
  | ok (l : Leaf)
  | fault (f : MemFault)
  | ecc
  deriving DecidableEq, Repr

def Leaf.paOf (l : Leaf) (va : Nat) : Nat := l.pa + (va - l.base)

def Leaf.covers (l : Leaf) (asid va : Nat) : Bool := l.asid == asid && decide (l.base ≤ va) && decide (va < l.base + l.size)

/-- R365: `n` bytes at `pa` lie within one of the partition's windows or peers, and in no carve-out (R37, R173, R317). -/
def PartRec.allows (p : PartRec) (pa n : Nat) : Bool :=
  let inside := fun (w : Nat × Nat) => decide (w.1 ≤ pa) && decide (pa + n ≤ w.2)
  match paRegion pa with
  | 0 | 1 => p.dwin.any inside && !meetsCarveOut pa n
  | 2 => p.hwin.any inside
  | 4 => p.peers.getLsbD (bits pa 42 6)
  | _ => false

def PartRec.keyOk (p : PartRec) (key : Nat) : Bool := key == 0 || (decide (p.keyb ≤ key) && decide (key < p.keyb + p.keyn))

/-- The bytes a leaf at a level maps. -/
def levelSize : Nat → Nat
  | 0 => 2 ^ 47
  | 1 => 2 ^ 36
  | 2 => 2 ^ 25
  | _ => 2 ^ 14

/-- The index bits of a level. -/
def levelIndex (lvl va : Nat) : Nat := va / levelSize lvl % (if lvl = 0 then 2 else 2048)

/-- R162: reserved bits and fields no entry may have. -/
def pteBad (lvl e : Nat) : Bool :=
  bits e 60 4 != 0 || bits e 11 3 != 0 || bits e 8 1 != 0 || bits e 2 1 != 0 || bits e 6 2 == 3 ||
  (lvl == 0 && bits e 1 1 == 1) || (lvl == 3 && bits e 1 1 == 0) || (lvl != 3 && bits e 10 1 == 1) ||
  (bits e 1 1 == 1 && lvl == 2 && bits e 14 11 != 0) || (bits e 1 1 == 1 && lvl == 1 && bits e 14 22 != 0)

def ptePa (e : Nat) : Nat := bits e 14 38 * 2 ^ 14

/-- A leaf as its entry describes it; KEY counts in regions 0x0 and 0x1 only. -/
def pteLeaf (asid lvl va e : Nat) (cont : Bool) : Leaf :=
  let size := if cont then 2 ^ 16 else levelSize lvl
  { asid, base := va / size * size, size,
    pa := if cont then ptePa e / 2 ^ 16 * 2 ^ 16 else ptePa e
    key := if 2 ≤ paRegion (ptePa e) then 0 else BitVec.ofNat 8 (bits e 52 8)
    rp := bits e 9 1 == 1
    mt := match bits e 6 2 with | 0 => .cacheable | 1 => .uncached | _ => .device
    x := bits e 5 1 == 1, w := bits e 4 1 == 1, r := bits e 3 1 == 1 }

/-- R163: the four entries of a 64 KiB page agree. -/
def contOk (es : List Nat) : Bool :=
  match es with
  | [a, b, c, e] =>
    let attr := fun x => (bits x 52 8, bits x 3 7, bits x 0 1, bits x 10 1)
    attr a == attr b && attr a == attr c && attr a == attr e && bits a 0 1 == 1 && bits a 10 1 == 1 &&
      bits a 14 2 == 0 && ptePa b == ptePa a + 2 ^ 14 && ptePa c == ptePa a + 2 * 2 ^ 14 && ptePa e == ptePa a + 3 * 2 ^ 14
  | _ => false

/-- Who walks: the device's memory, the form, the partition's record, and the space and address. -/
structure WalkCtx where
  die  : Nat
  asid : Nat
  va   : Nat
  need : Need

def WalkCtx.xlate (c : WalkCtx) (lvl : Nat) : Xlat :=
  let size := levelSize lvl
  .fault { cause := .xlate, replay := true, va := c.va, lvl, wr := c.need.isW,
           key := { die := c.die, asid := c.asid, perm := false, w := false, base := c.va / size * size, size } }

def WalkCtx.perm (c : WalkCtx) (lvl : Nat) (replay : Bool) (base size : Nat) : Xlat :=
  .fault { cause := .perm, replay, va := c.va, lvl, wr := c.need.isW,
           key := { die := c.die, asid := c.asid, perm := true, w := c.need.isW, base, size } }

/-- The leaf at the end of a walk: its region, windows, key and permission (R160, R164, R365). At level 3 it is part of a
64 KiB page when any valid entry of its four has CONT set (R163; log 69). -/
def Dev.walkLeaf (d : Dev) (p : PartRec) (c : WalkCtx) (lvl e table : Nat) : Xlat :=
  let k := levelIndex 3 c.va / 4 * 4
  let quad := if lvl = 3 then (List.range 4).map fun j => d.rdNat 0 (table + 8 * (k + j)) 8 else []
  let cont := quad.any fun x => bits x 0 1 == 1 && bits x 10 1 == 1
  let l := pteLeaf c.asid lvl c.va e cont
  let bad := c.perm lvl false l.base l.size
  if lvl == 3 && d.poisoned (table + 8 * k) 32 then .ecc
  else if cont && !(contOk quad && quad.all fun x => !pteBad 3 x) then bad
  else if !paLegal d.capacity l.pa || !p.allows l.pa l.size || !p.keyOk l.key.toNat then bad
  else if !c.need.met l then c.perm lvl l.rp l.base l.size
  else .ok l

/-- The walk from a table at a level; `fuel` levels remain (R161, R164). -/
def Dev.walkFrom (d : Dev) (p : PartRec) (c : WalkCtx) (table : Nat) : (lvl : Nat) → (fuel : Nat) → Xlat
  | lvl, 0 => c.xlate lvl
  | lvl, fuel + 1 =>
    let bad := c.perm lvl false (c.va / levelSize lvl * levelSize lvl) (levelSize lvl)
    let a := table + 8 * levelIndex lvl c.va
    if !p.allows table (if lvl = 0 then 16 else 16384) then bad
    else if d.poisoned a 8 then .ecc
    else
      let e := d.rdNat 0 a 8
      if bits e 0 1 = 0 then c.xlate lvl
      else if pteBad lvl e then bad
      else if bits e 1 1 = 1 then d.walkLeaf p c lvl e table
      else if !paLegal d.capacity (ptePa e) then bad
      else d.walkFrom p c (ptePa e) (lvl + 1) fuel

/-- A walk of the page tables by a die's walker, for a partition. -/
def Dev.walk (d : Dev) (pid : Nat) (c : WalkCtx) : Xlat :=
  match fget 0 d.roots c.asid with
  | 0 => c.xlate 0
  | r + 1 => d.walkFrom (d.part pid).rec_ c r 0 4

/-- A TLB after a new entry, oldest entries dropped beyond its size. -/
def tlbAdd (cap : Nat) (t : List Leaf) (l : Leaf) : List Leaf := (l :: t).take cap

def tlbDrop (t : List Leaf) (asid va : Nat) : List Leaf := t.filter fun l => !l.covers asid va

/-- Translation at a die's L2 TLB, as engines use it; a hit that lacks the permission is dropped and walked
afresh (R164; log 16). -/
def Dev.l2Translate (d : Dev) (die pid asid va : Nat) (need : Need) : Dev × Xlat :=
  match (d.die die).l2tlb.find? (fun l => l.covers asid va && need.met l) with
  | some l => (d, .ok l)
  | none =>
    let d := d.modDie die fun x => { x with l2tlb := tlbDrop x.l2tlb asid va }
    match d.walk pid { die, asid, va, need } with
    | .ok l => (d.modDie die fun x => { x with l2tlb := tlbAdd 16384 x.l2tlb l }, .ok l)
    | r => (d, r)

/-- Translation for a core, through its L1 TLB (R315). -/
def Dev.translate (d : Dev) (core pid asid va : Nat) (need : Need) : Dev × Xlat :=
  match (d.core core).tlb.find? (fun l => l.covers asid va && need.met l) with
  | some l => (d, .ok l)
  | none =>
    let d := d.modCore core fun x => { x with tlb := tlbDrop x.tlb asid va }
    match d.l2Translate (core / 128) pid asid va need with
    | (d, .ok l) => (d.modCore core fun x => { x with tlb := tlbAdd 512 x.tlb l }, .ok l)
    | r => r

/-! ## Engine accesses -/

/-- The pieces of `n` bytes at `va` that lie in one 16 KiB page each: offset and length. -/
def pagePieces (va n : Nat) : List (Nat × Nat) :=
  if n = 0 then [] else
  (List.range ((va + n - 1) / 16384 - va / 16384 + 1)).map fun k =>
    let lo := max va ((va / 16384 + k) * 16384)
    let hi := min (va + n) ((va / 16384 + k + 1) * 16384)
    (lo - va, hi - lo)

/-- What an engine's access ends in. -/
inductive Eng (α : Type) where
  | ok (a : α)
  | fault (f : MemFault)
  | ecc

/-- A PERM that is not replayable: of an access to a peer with no live port (R371), or of one beyond 2^48 (R156). -/
def hardPerm (va : Nat) (wr : Bool) : MemFault :=
  { cause := .perm, replay := false, va, lvl := 0, wr
    key := { die := 0, asid := 0, perm := true, w := wr, base := 0, size := 0 } }

/-- A read of `n` bytes under an ASID at the homes, through a die's L2 TLB, with no lease (R253). -/
def Dev.engRead (d : Dev) (die pid asid va n : Nat) : Dev × Eng (List Byte) :=
  if 2 ^ 48 < va + n then (d, .fault (hardPerm va false)) else
  (pagePieces va n).foldl (fun (d, acc) (o, len) =>
    match acc with
    | .ok bs => match d.l2Translate die pid asid (va + o) .r with
      | (d, .ok l) =>
        let pa := l.paOf (va + o)
        if d.unreachable pa then (d, .fault (hardPerm (va + o) false))
        else if d.poisoned pa len then (d, .ecc) else (d, .ok (bs ++ d.rdBytes l.key pa len))
      | (d, .fault f) => (d, .fault f)
      | (d, .ecc) => (d, .ecc)
    | r => (d, r)) (d, .ok [])

/-- An engine's bytes at a place, and the versions of the lines they touch whose older copies may be live. -/
def Dev.engPut (d : Dev) (l : Leaf) (pa : Nat) (bs : List Byte) : Dev × List Version :=
  let vs := (linesOf pa bs.length).filterMap fun k =>
    if l.mt = .cacheable ∧ d.cycle < (d.home k).expiry then some { line := k, asOf := d.fresh, till := (d.home k).expiry : Version }
    else none
  (d.engineWrite (l.mt == .cacheable) l.key pa bs, vs)

/-- A write under an ASID at the homes, with what it leaves to settle; every page is translated before any byte is
written. -/
def Dev.engWriteFor (d : Dev) (die pid asid va : Nat) (bs : List Byte) : Dev × Eng (List Version) :=
  if 2 ^ 48 < va + bs.length then (d, .fault (hardPerm va true)) else
  let r := (pagePieces va bs.length).foldl (fun (acc : Dev × Eng (List (Nat × Leaf × Nat))) (o, len) =>
    match acc with
    | (d, .ok ls) => match d.l2Translate die pid asid (va + o) .w with
      | (d, .ok l) =>
        if d.unreachable (l.paOf (va + o)) then (d, .fault (hardPerm (va + o) true)) else (d, .ok (ls ++ [(o, l, len)]))
      | (d, .fault f) => (d, .fault f)
      | (d, .ecc) => (d, .ecc)
    | r => r) (d, .ok [])
  match r with
  | (d, .ok ls) =>
    let (d, vs) := ls.foldl (fun (d, vs) (o, l, len) =>
      let (d, ws) := Dev.engPut d l (l.paOf (va + o)) ((bs.drop o).take len)
      (d, vs ++ ws)) (d, ([] : List Version))
    (d, .ok vs)
  | (d, .fault f) => (d, .fault f)
  | (d, .ecc) => (d, .ecc)

/-- A write of an engine for itself. -/
def Dev.engWrite (d : Dev) (die pid asid va : Nat) (bs : List Byte) : Dev × Eng Unit :=
  match d.engWriteFor die pid asid va bs with
  | (d, .ok _) => (d, .ok ())
  | (d, .fault f) => (d, .fault f)
  | (d, .ecc) => (d, .ecc)

/-- A 64-bit word read by an engine. -/
def Dev.engWord (d : Dev) (die pid asid va : Nat) : Dev × Eng Word64 :=
  match d.engRead die pid asid va 8 with
  | (d, .ok bs) => (d, .ok (bytesWord bs))
  | (d, .fault f) => (d, .fault f)
  | (d, .ecc) => (d, .ecc)

/-- `n` consecutive 64-bit words. -/
def Dev.engWords (d : Dev) (die pid asid va n : Nat) : Dev × Eng (List Word64) :=
  match d.engRead die pid asid va (8 * n) with
  | (d, .ok bs) => (d, .ok ((List.range n).map fun k => bytesWord ((bs.drop (8 * k)).take 8)))
  | (d, .fault f) => (d, .fault f)
  | (d, .ecc) => (d, .ecc)

end Sys2Proof.Machine
end

