-- ==== Sys2Proof/Machine/Ops.lean ====
section
/-! DEFINITION. The named operations over a group's registers, slices and splits, fault recording, and taking an
exception and returning from one. -/

namespace Sys2Proof.Machine

/-! ## Vectors, events and queue status (R45, R366, R368) -/

/-- An MSI-X message, or its pending bit while the vector is masked (R368). -/
def Dev.raiseVec (d : Dev) (pid vec : Nat) : Dev :=
  d.modPart pid fun p =>
    if p.box.masked.contains vec then
      (if p.box.pending.contains vec then p else { p with box := { p.box with pending := vec :: p.box.pending } })
    else { p with box := { p.box with sent := fset 0 p.box.sent vec (fget 0 p.box.sent vec + 1) } }

/-- Bit `k` of EVT set (R366). -/
def Dev.setEvt (d : Dev) (pid k : Nat) : Dev :=
  d.modPart pid fun p => { p with box := { p.box with evt := p.box.evt ||| (1#6 <<< k) } }

def Dev.queue? (d : Dev) (q : Nat) : Option Queue := d.queues.find? (·.num == q)

def Dev.modQueue (d : Dev) (q : Nat) (f : Queue → Queue) : Dev :=
  { d with queues := d.queues.map fun x => if x.num = q then f x else x }

/-- The status word of R45. -/
def Queue.statusWord (q : Queue) : Word64 :=
  0#22 ++ BitVec.ofBool q.err ++ BitVec.ofBool q.halted ++ q.code ++ q.head

/-- The queue's vector and EVT[1] (R45, R366). -/
def Dev.signalQueue (d : Dev) (q : Queue) : Dev := (d.raiseVec q.pid q.vec).setEvt q.pid 1

/-- The queue's status word is to be written, with the vector after it if `tell` (R45). -/
def Dev.postStatus (d : Dev) (qn : Nat) (tell : Bool) : Dev :=
  d.modQueue qn fun q => { q with posts := q.posts ++ [(q.statusWord, tell)] }

/-- Records an error code; the queue halts or, for a killed team, runs on (R48, R327). -/
def Dev.queueError (d : Dev) (qn : Nat) (code : BitVec 8) (halt : Bool) : Dev :=
  (d.modQueue qn fun q => { q with halted := q.halted || halt, err := true, code }).postStatus qn true

/-- The oldest status word of a queue is written, a release at .SYS: every earlier write of the engines has settled. A
fault drops it, halts the queue with 0x17 and makes one more attempt (R45). -/
def Dev.writeStatus (d : Dev) (qn : Nat) : Option Dev := do
  let q ← d.queue? qn
  let (w, tell) ← q.posts.head?
  if d.cycle ≤ d.settle then none
  else match d.engWrite (qn / 64) q.pid q.asid q.stat (wordBytes w) with
    | (d, .ok _) =>
      let d := d.modQueue qn fun q => { q with posts := q.posts.tail }
      some (if tell then d.signalQueue q else d)
    | (d, _) =>
      let q := { q with halted := true, err := true, code := 0x17, posts := [] }
      let d := d.modQueue qn fun _ => q
      some ((d.engWrite (qn / 64) q.pid q.asid q.stat (wordBytes q.statusWord)).1.signalQueue q)

/-! ## The fault buffer (R316 to R319, R350) -/

def Cause.code : Cause → BitVec 8
  | .illop => 0x01 | .illconv => 0x02 | .misalign => 0x03 | .xlate => 0x04 | .perm => 0x05 | .ecc => 0x06
  | .stackspill => 0x07 | .retempty => 0x08 | .swtrap => 0x09 | .bkpt => 0x0A | .regionloop => 0x0B

/-- SRC of a fault buffer entry (R318). -/
def Origin.bufferCode : Origin → Nat
  | .instruction | .nearMemory | .embag => 0
  | .fetch => 1 | .copy => 2 | .matrixFetch => 3 | .blockEngine => 4 | .galliard => 5 | .cte => 6 | .cittern => 7

/-- SRC of sr.tr3 (R326). -/
def Origin.trapCode : Origin → Nat
  | .fetch => 1 | .copy => 2 | .matrixFetch => 3 | .nearMemory => 4 | .embag => 5
  | _ => 0

/-- What names the access in an entry: SRC, CTX, CORE, GRP, PC. -/
structure Where where
  src  : Origin
  ctx  : Nat
  core : Nat
  grp  : Nat
  pc   : BitVec 48
  deriving DecidableEq, Repr

def satAdd32 (x : BitVec 32) : BitVec 32 := if x = 0xFFFFFFFF then x else x + 1

def satAdd16 (x : BitVec 16) : BitVec 16 := if x = 0xFFFF then x else x + 1

/-- Makes an entry, or counts it as dropped when the buffer is full; `key` is kept while held (R316, R317). -/
def Partition.addEntry (p : Partition) (e : FaultEntry) (hold : Bool) : Partition :=
  if p.depth ≤ p.entries.length then { p with drop := true, dropn := satAdd16 p.dropn }
  else { p with entries := p.entries ++ [{ e with seq := p.seq }], seq := p.seq + 1,
                keys := if hold then e.key :: p.keys else p.keys }

/-- The buffer's vector and EVT[0] when COUNT rises from 0 (R317, R366). -/
def Dev.addEntry (d : Dev) (pid : Nat) (e : FaultEntry) (hold : Bool) : Dev :=
  let was := (d.part pid).entries.isEmpty
  let d := d.modPart pid (·.addEntry e hold)
  if was && !(d.part pid).entries.isEmpty then (d.raiseVec pid (d.part pid).fvec).setEvt pid 0 else d

/-- Records a fault, or coalesces it into the entry whose key it shares (R316, R350). -/
def Dev.recordFault (d : Dev) (pid : Nat) (f : MemFault) (lanes : BitVec 32) (w : Where) : Dev :=
  let p := d.part pid
  if p.keys.contains f.key then
    d.modPart pid fun p => { p with entries := p.entries.map fun e =>
      if e.key == f.key && !e.k then { e with dup := satAdd32 e.dup } else e }
  else d.addEntry pid
    { asid := f.key.asid, va := f.va, cause := f.cause.code, src := w.src.bufferCode, lvl := f.lvl, wr := f.wr, k := false,
      ctx := w.ctx, lanes, core := w.core, grp := w.grp, pc := w.pc, dup := 0, seq := 0, key := f.key } true

/-! ## Teams, groups, slices, splits -/

def Dev.team? (d : Dev) (t : Nat) : Option Team := d.teams.find? (·.inst == t)

def Dev.modTeam (d : Dev) (t : Nat) (f : Team → Team) : Dev :=
  { d with teams := d.teams.map fun x => if x.inst = t then f x else x }

def Dev.grid? (d : Dev) (g : Nat) : Option Grid := d.grids.find? (·.id == g)

def Dev.modGrid (d : Dev) (g : Nat) (f : Grid → Grid) : Dev :=
  { d with grids := d.grids.map fun x => if x.id = g then f x else x }

def Team.group? (t : Team) (n : Nat) : Option Group := t.groups.find? (·.num == n)

def Team.modGroup (t : Team) (n : Nat) (f : Group → Group) : Team :=
  { t with groups := t.groups.map fun g => if g.num = n then f g else g }

def Dev.modGroup (d : Dev) (r : GroupRef) (f : Group → Group) : Dev := d.modTeam r.team (·.modGroup r.group f)

def Dev.group? (d : Dev) (r : GroupRef) : Option Group := (d.team? r.team).bind (·.group? r.group)

def Slice.blank : Slice :=
  { pc := 0, x := 0, pm := 0, fin := 0, rtd := 0, rstack := [], ret := [], spill := 0, shorts := [], cf := [], s := [],
    snap := { repc := 0, x := 0, pm := 0, depth := 0, rgnctr := 0, clause := none } }

def Group.slice (g : Group) (k : Nat) : Slice := g.slices.getD k Slice.blank

/-- Slices of the mask, each with its number. -/
def Group.modSlices (g : Group) (mask : BitVec 8) (f : Nat → Slice → Slice) : Group :=
  { g with slices := g.slices.zipIdx.map fun (s, k) => if mask.getLsbD k then f k s else s }

def Group.split? (g : Group) (stamp : BitVec 16) : Option Split := g.splits.find? (·.stamp == stamp)

def Group.modSplit (g : Group) (stamp : BitVec 16) (f : Split → Split) : Group :=
  { g with splits := g.splits.map fun x => if x.stamp = stamp then f x else x }

/-- The slice numbers of a mask, ascending. -/
def maskSlices (m : BitVec 8) : List Nat := (List.range 8).filter fun k => m.getLsbD k

/-- The split's leader: its lowest-numbered slice (R105). -/
def Split.leader (sp : Split) : Nat := (maskSlices sp.mask).headD 0

/-- A slice is live until all of its lanes are finished (R91). -/
def Slice.live (s : Slice) : Bool := s.fin != 15

/-- Lanes of a slice that are neither finished nor retired: LIVE of R96. -/
def Slice.liveLanes (s : Slice) : BitVec 4 := ~~~(s.fin ||| s.rtd)

/-- Entries of the return stack, spilled ones included (R106). -/
def Slice.retCount (s : Slice) : Nat := 8 * s.spill.toNat + s.ret.length - (s.shorts.map (·.2)).foldl (· + ·) 0

/-- The group is done (R112): no split is left. -/
def Group.done (g : Group) : Bool := g.splits.isEmpty

/-- A slice is among those of an entry into the handler. -/
def holdsSlice (hs : List HandlerSlice) (k : Nat) : Bool := hs.any (·.slice == k)

/-- The split is in handler mode (R327): its slices are among those that entered the handler. -/
def Group.inHandler (g : Group) (sp : Split) : Bool := g.handler.any (holdsSlice · sp.leader)

/-- The split may go on as far as the trap handler goes: the handler does not run, or this split runs it (R327). -/
def Group.runsHandler (g : Group) (sp : Split) : Bool :=
  match g.handler with
  | [] => true
  | hs :: _ => holdsSlice hs sp.leader

/-- Serial-number order of stamps: `a` is lower, so older (R92). Stamps half the range apart have no order. -/
def stampOlder (a b : BitVec 16) : Bool := a != b && decide ((b - a).toNat < 32768)

/-- The oldest of some splits. -/
def oldest : List Split → Option Split
  | [] => none
  | s :: t => some (t.foldl (fun a b => if stampOlder b.stamp a.stamp then b else a) s)

/-- The group's leader lane: its lowest lane neither finished nor retired (R105). -/
def Group.leaderLane? (g : Group) : Option Nat :=
  (List.range (4 * g.slices.length)).find? fun l => (g.slice (l / 4)).liveLanes.getLsbD (l % 4)

/-- A performance counter's event happens `n` times (R335). -/
def Group.count (g : Group) (ev n : Nat) : Group :=
  { g with pmc := g.pmc.map fun c => if c.event = ev then { c with count := c.count + BitVec.ofNat 64 n } else c }

/-! ## Registers -/

/-- Values of long-latency operations that have come for one place and are not yet written (R104). A scalar that comes
in parts has come when every request has answered (R159). -/
def Group.pendingAt (g : Group) (dst : Dest) : List Word64 :=
  g.owed.flatMap fun o =>
    if (dst matches .s ..) && !o.waits.isEmpty then []
    else (o.items.filter (·.dest == dst)).filterMap (·.value)

/-- A read of a place that is still owed gives the old value or a new one (R104); a value that has not come yet is
read as the old one (log 64). -/
def Group.hazard (g : Group) (fresh place : Nat) (dst : Dest) (old : Word64) : Word64 :=
  (g.pendingAt dst).foldl (fun acc new => if Config.freeBool fresh place then new else acc) old

/-- A write of a place that is still owed: it ends with either value (R104). -/
def Group.contest (g : Group) (dst : Dest) : Group :=
  { g with owed := g.owed.map fun o => { o with items := o.items.map fun it =>
      if it.dest = dst then { it with contested := true } else it } }

/-- The stored value of a vector register; v255 reads as zero (R24). -/
def Group.vreg (g : Group) (lane n : Nat) : Word32 := if n = 255 then 0 else fget 0 g.v (n * 32 + lane)

/-- Stores a vector register; v255 discards (R24). -/
def Group.storeV (g : Group) (lane n : Nat) (w : Word32) : Group :=
  if n = 255 then g else { g with v := fset 0 g.v (n * 32 + lane) w }

/-- The stored value of a predicate; p7 is true (R81). -/
def Group.pred (g : Group) (lane n : Nat) : Bool := n == 7 || (fget 0 g.p lane).getLsbD n

/-- Bit `n` of a byte set to `b`. -/
def setBit8 (x : BitVec 8) (n : Nat) (b : Bool) : BitVec 8 :=
  if b then x ||| (1#8 <<< n) else x &&& ~~~(1#8 <<< n)

/-- Stores a predicate; p7 discards (R115). -/
def Group.storeP (g : Group) (lane n : Nat) (b : Bool) : Group :=
  if n = 7 then g else { g with p := fset 0 g.p lane (setBit8 (fget 0 g.p lane) n b) }

/-- The stored value of a slice's scalar copy; s63 reads zero (R105). -/
def Group.sreg (g : Group) (slice n : Nat) : Word64 := if n = 63 then 0 else fget 0 (g.slice slice).s n

/-- Stores a scalar in the slices of a mask; s63 discards (R105). -/
def Group.storeS (g : Group) (mask : BitVec 8) (n : Nat) (w : Word64) : Group :=
  if n = 63 then g else g.modSlices mask fun _ s => { s with s := fset 0 s.s n w }

/-- An instruction's read of a vector register (R104). -/
def Group.readV (g : Group) (fresh lane n : Nat) : Word32 :=
  if n = 255 then 0
  else (g.hazard fresh (lane + 32 * n) (.v lane n) ((g.vreg lane n).setWidth 64)).setWidth 32

/-- An instruction's read of a predicate. -/
def Group.readP (g : Group) (fresh lane n : Nat) : Bool :=
  if n = 7 then true
  else (g.hazard fresh (16384 + lane + 32 * n) (.p lane n) (if g.pred lane n then 1 else 0)).getLsbD 0

/-- An instruction's read of a slice's scalar copy. -/
def Group.readS (g : Group) (fresh slice n : Nat) : Word64 :=
  if n = 63 then 0 else g.hazard fresh (32768 + slice + 8 * n) (.s slice n) (g.sreg slice n)

/-- An instruction's write of a vector register. -/
def Group.writeV (g : Group) (lane n : Nat) (w : Word32) : Group :=
  if n = 255 then g else (g.storeV lane n w).contest (.v lane n)

/-- An instruction's write of a vector pair or of one register. -/
def Group.writeV64 (g : Group) (lane n : Nat) (w : Word64) : Group :=
  (g.writeV lane n (w.setWidth 32)).writeV lane (n + 1) ((w >>> 32).setWidth 32)

def Group.readV64 (g : Group) (fresh lane n : Nat) : Word64 := g.readV fresh lane (n + 1) ++ g.readV fresh lane n

/-- An instruction's write of a predicate. -/
def Group.writeP (g : Group) (lane n : Nat) (b : Bool) : Group :=
  if n = 7 then g else (g.storeP lane n b).contest (.p lane n)

/-- An instruction's write of a scalar, in every slice of its split (R105). -/
def Group.writeS (g : Group) (mask : BitVec 8) (n : Nat) (w : Word64) : Group :=
  if n = 63 then g
  else (maskSlices mask).foldl (fun g k => g.contest (.s k n)) (g.storeS mask n w)

/-! ## The issuing split -/

/-- Who issues: the split that `Dev.cur` names, with its group, team and grid as they stand. -/
structure Issuer where
  ref   : GroupRef
  team  : Team
  grid  : Grid
  grp   : Group
  sp    : Split
  fresh : Nat

def Dev.issuerAt? (d : Dev) (r : SplitRef) : Option Issuer := do
  let team ← d.team? r.team
  let grid ← d.grid? team.grid
  let grp ← team.group? r.group
  let sp ← grp.split? r.stamp
  return { ref := ⟨r.team, r.group⟩, team, grid, grp, sp, fresh := d.fresh }

def Dev.issuer? (d : Dev) : Option Issuer := d.cur.bind d.issuerAt?

/-- The active lanes of the split, ascending. -/
def Group.activeLanes (g : Group) (sp : Split) : List Nat :=
  (List.range (4 * g.slices.length)).filter fun l => sp.mask.getLsbD (l / 4) && (g.slice (l / 4)).x.getLsbD (l % 4)

def Issuer.active (i : Issuer) : List Nat := i.grp.activeLanes i.sp

/-- The guard's value in a lane (R13, R81). -/
def Issuer.guard (i : Issuer) (gd : Guard) (lane : Nat) : Bool := i.grp.readP i.fresh lane gd.p.toNat != gd.neg

/-- The participants: active lanes whose guard is true (R115). -/
def Issuer.on (i : Issuer) (gd : Guard) : List Nat := i.active.filter (i.guard gd)

/-- A lane mask. -/
def laneMask (ls : List Nat) : BitVec 32 := ls.foldl (fun m l => m ||| (1#32 <<< l)) 0

/-- The address of the word being issued. -/
def Issuer.pc (i : Issuer) : BitVec 48 := (i.grp.slice i.sp.leader).pc

def Issuer.vec (i : Issuer) (lane : Nat) (n : BitVec 8) : Word32 := i.grp.readV i.fresh lane n.toNat

def Issuer.vec64 (i : Issuer) (lane : Nat) (n : BitVec 8) : Word64 := i.grp.readV64 i.fresh lane n.toNat

/-- The leader's copy of a scalar (R105). -/
def Issuer.sca (i : Issuer) (n : BitVec 6) : Word64 := i.grp.readS i.fresh i.sp.leader n.toNat

def Issuer.prd (i : Issuer) (lane : Nat) (n : BitVec 3) : Bool := i.grp.readP i.fresh lane n.toNat

def Issuer.core (i : Issuer) : Nat := i.team.core
def Issuer.die (i : Issuer) : Nat := i.team.core / 128
def Issuer.lc (i : Issuer) : LaunchCtx := ⟨8 * i.grid.launch.nreg8, i.grid.launch.width, i.grp.inHandler i.sp⟩
def Issuer.splitRef (i : Issuer) : SplitRef := ⟨i.ref.team, i.ref.group, i.sp.stamp⟩

/-! ## Issue -/

/-- One word has issued: a header, an instruction word or a pair (R101, R335; log 26). -/
def Group.countIssue (g : Group) : Group := { g.count 2 1 with urg := satAdd32 g.urg }

/-- The clause with its next word taken; none after its last (R76). -/
def Clause.pop (c : Option Clause) : Option Clause :=
  match c with
  | some c => match c.words with
    | _ :: w :: t => some { c with words := w :: t }
    | _ => none
  | none => none

/-- The split's word is counted, once (R101). -/
def Group.countOnce (g : Group) (sp : Split) : Group := if sp.counted then g else g.countIssue

/-- The split's word has issued: its slices move to the next word, and `after` says whether an idempotent region
begins there (R76, R101, R321). -/
def Group.advance (g : Group) (sp : Split) (after : Bool) : Group :=
  let g := (g.countOnce sp).modSlices sp.mask fun _ s => { s with pc := s.pc + 8 }
  g.modSplit sp.stamp fun x =>
    { x with wait := .ready, counted := false, yielded := false, region := after, clause := Clause.pop x.clause }

/-- The split begins to wait after its word has been counted once (R101). -/
def Group.await (g : Group) (sp : Split) (w : Wait) : Group :=
  (g.countOnce sp).modSplit sp.stamp fun x => { x with wait := w, counted := true, yielded := false }

/-- A region start: the counter rises and every slice of the split records a snapshot (R323). -/
def Group.startRegion (g : Group) (sp : Split) : Group :=
  let n := g.rgnctr + 1
  let g := { g with rgnctr := n, reexec := 0 }
  let g := g.modSlices sp.mask fun _ s =>
    { s with snap := { repc := s.pc, x := s.x, pm := s.pm, depth := s.rstack.length, rgnctr := n, clause := sp.clause } }
  g.modSplit sp.stamp fun x => { x with region := false }

/-- A re-execution begins, or an idempotent region starts, at the word where the split stands (R321, R323). -/
def Group.enterRegion (g : Group) (stamp : BitVec 16) : Group :=
  match g.split? stamp with
  | none => g
  | some sp =>
    let g := if sp.resumed then (g.modSplit stamp fun x => { x with resumed := false }).count 5 1 else g
    if sp.region then g.startRegion sp else g

/-- The distinct addresses of some slices, ascending. -/
def distinctPcs (pcs : List Nat) : List Nat := (pcs.isort (· ≤ ·)).eraseDups

/-- The stamps of `n` new splits: the next values of the group's count that no split of it holds (R92; log 65). -/
def Group.newStamps (g : Group) (n : Nat) : List (BitVec 16) :=
  (((List.range (n + g.splits.length)).map fun k => g.stamps + BitVec.ofNat 16 k).filter fun st =>
    !g.splits.any fun x => x.stamp == st).take n

/-- R97: the split divides into one split per distinct address; slices that are not live leave it (R91, R92). -/
def Group.divide (g : Group) (stamp : BitVec 16) : Group :=
  match g.split? stamp with
  | none => g
  | some sp =>
    let ks := (maskSlices sp.mask).filter fun k => (g.slice k).live
    let pcs := distinctPcs (ks.map fun k => (g.slice k).pc.toNat)
    let sts := g.newStamps (pcs.length - 1)
    let news := pcs.zipIdx.map fun (a, j) =>
      { sp with
        mask := ks.foldl (fun m k => if (g.slice k).pc.toNat = a then m ||| (1#8 <<< k) else m) 0
        stamp := if j = 0 then sp.stamp else sts.getD (j - 1) 0 }
    { g.count 7 (pcs.length - 1) with
      splits := g.splits.flatMap fun x => if x.stamp = stamp then news else [x]
      stamps := match sts.getLast? with
        | some st => st + 1
        | none => g.stamps }

/-- The slices of a split continue at REPC with the snapshot restored; slices that recorded different ones are
different splits from here on (R97, R323). No lane that has finished or retired since comes back (R91). -/
def Group.restore (g : Group) (sp : Split) : Group :=
  let old := g.splits.map (·.stamp)
  let g := g.modSlices sp.mask fun _ s =>
    { s with pc := s.snap.repc, x := s.snap.x &&& s.liveLanes, pm := s.snap.pm &&& s.liveLanes
             rstack := s.rstack.drop (s.rstack.length - s.snap.depth) }
  let g := (g.modSplit sp.stamp fun x =>
    { x with wait := .ready, region := false, resumed := true, counted := false }).divide sp.stamp
  { g with splits := g.splits.map fun x =>
      if x.stamp = sp.stamp || !old.contains x.stamp then { x with clause := (g.slice x.leader).snap.clause } else x }

/-- R98, R99: the splits with the stamps given become one, with the oldest's stamp; the oldest's clause continues. -/
def Group.merge (g : Group) (sts : List (BitVec 16)) : Group :=
  match oldest (g.splits.filter fun x => sts.contains x.stamp) with
  | none => g
  | some o =>
    let m := (g.splits.filter fun x => sts.contains x.stamp).foldl (fun m x => m ||| x.mask) 0
    { g with splits := (g.splits.filter fun x => x.stamp == o.stamp || !sts.contains x.stamp).map fun x =>
        if x.stamp = o.stamp then { x with mask := m } else x }

/-! ## Taking an exception and returning from it -/

/-- A cause an instruction or asynchronous work raises (R325, R326). -/
structure Raise where
  cause : Cause
  sub   : BitVec 8
  mask  : BitVec 32
  src   : Origin
  info  : Nat
  pc    : BitVec 48
  lvl   : Nat := 0
  wr    : Bool := false
  deriving DecidableEq, Repr

/-- The default RPC (R326): the next header after SWTRAP and BKPT, REPC for every other cause. -/
def Raise.rpc (r : Raise) (s : Slice) : BitVec 48 :=
  if r.cause = .swtrap ∨ r.cause = .bkpt then s.pc + 8 else s.snap.repc

/-- R326, R327: the trap record is written, and the split's slices continue at HANDLER with X, PM, registers and
predicates unchanged; handler mode remembers what RTE restores (R333). -/
def Group.enterHandler (g : Group) (sp : Split) (handler : BitVec 48) (r : Raise) : Group :=
  let lead := g.slice sp.leader
  let saved := (maskSlices sp.mask).map fun k =>
    let s := g.slice k
    { slice := k, x := s.x, pm := s.pm, depth := s.rstack.length, retLen := s.retCount : HandlerSlice }
  let g := { g with
    tr0 := 0#16 ++ r.rpc lead
    tr1 := r.cause.code ++ r.sub ++ r.pc
    tr2 := r.mask ++ lead.snap.rgnctr
    tr3 := BitVec.ofNat 4 r.src.trapCode ++ 0#12 ++ BitVec.ofNat 48 r.info
    handler := saved :: g.handler }
  let g := g.modSlices sp.mask fun _ s => { s with pc := handler }
  g.modSplit sp.stamp fun x =>
    { x with wait := .ready, clause := none, region := false, resumed := false, counted := false }

/-! ### What a group's stores have left to settle (R241, R247) -/

/-- A group's SETTLE takes a deadline (R241). -/
def Group.foldSettle (g : Group) (deadline : Nat) : Group :=
  { g with settle := some (match g.settle with | some s => max s deadline | none => deadline) }

/-- The deadline a settle duration of whole units gives when its answer arrives now (R241). -/
def Dev.settleDeadline (d : Dev) (dur : Nat) : Nat := d.cycle + dur + drift dur

/-- The place a store of a group goes to without an answer of its own: another die or a peer (R247). -/
def Req.postedTo (r : Req) : Option Nat :=
  let p := homeDie (r.line * 128)
  if r.target.isNone && p != r.core / 128 && (r.kind == .store || (r.owed.isNone && r.watch == 0 && r.kind != .load))
  then some p else none

/-- Notes that the group has posted a request to another die or a peer since its last release (R247). -/
def Group.notePost (g : Group) (r : Req) : Group :=
  match r.postedTo with
  | some p => if g.posted.any (·.place == p) then g
      else { g with posted := g.posted ++ [{ place := p, expiry := 0, va := (r.parts.map (·.va)).headD 0, pc := r.pc }] }
  | none => g

/-- A group of a killed team: pending results are discarded, and what an atomic's answer left to settle stays (R344). -/
def Group.kill (g : Group) (deadline : Nat → Nat) : Group :=
  { (g.owed.filterMap (·.settle)).foldl (fun g s => g.foldSettle (deadline s)) g with owed := [], async := [] }

/-- The team stops issuing and begins to retire without a save: its owed results and outstanding loads are
dropped, while stores, atomics and reductions still perform (R327, R344). An atomic that no register awaits any more is
posted like any other (R247). -/
def Dev.killTeam (d : Dev) (inst : Nat) : Dev :=
  let d := d.modTeam inst fun t => match t.state with
    | .retiring _ => t
    | _ => { t with state := .retiring { killed := true, step := 0 }, groups := t.groups.map (·.kill d.settleDeadline) }
  let freed := (d.reqs.filter fun r => r.by_.team == inst && r.owed.isSome).map fun r => { r with owed := none }
  let d := { d with reqs := (d.reqs.filter fun r => !(r.by_.team == inst && (r.kind == .load || r.watch != 0))).map fun r =>
      if r.by_.team = inst then { r with owed := none } else r }
  (freed.filter fun r => r.kind != .load && r.watch == 0).foldl (fun d r => d.modGroup r.by_ (·.notePost r)) d

/-- A team killed by a cause (R327): a fault buffer entry with K = 1, and CODE 0x20 or 0x21 in the owning queue's
status word. -/
def Dev.killBy (d : Dev) (i : Issuer) (r : Raise) (inHandler : Bool) : Dev :=
  let d := d.killTeam i.ref.team
  let d := d.addEntry i.grid.pid
    { asid := i.grid.asid, va := r.info, cause := r.cause.code, src := r.src.bufferCode, lvl := r.lvl, wr := r.wr, k := true,
      ctx := 0, lanes := r.mask, core := i.core, grp := i.ref.group, pc := r.pc, dup := 0, seq := 0,
      key := { die := i.die, asid := i.grid.asid, perm := false, w := false, base := 0, size := 0 } } false
  d.queueError i.grid.queue (if inHandler then 0x21 else 0x20) false

/-- A word that raises a cause of its own has issued (R101, R335; log 26); one that is no instruction has not. -/
def Raise.issued (r : Raise) : Bool := r.src == .instruction && r.cause != .illop && r.cause != .regionloop

/-- The issuing group with a word counted that raises. -/
def Issuer.counting (i : Issuer) (yes : Bool) : Issuer := if yes then { i with grp := i.grp.countOnce i.sp } else i

/-- TAKING AN EXCEPTION (R327): to the trap handler when the launch names one and the split is not in handler mode;
otherwise the team is killed. -/
def Dev.trap (d : Dev) (i : Issuer) (r : Raise) : Dev :=
  let i := i.counting r.issued
  if i.grp.inHandler i.sp then d.killBy i r true
  else if i.grid.launch.traph then d.modGroup i.ref fun _ => i.grp.enterHandler i.sp i.grid.launch.handler r
  else d.killBy i r false

/-- REGIONLOOP at REPC (R323). -/
def Issuer.regionLoop (i : Issuer) : Raise :=
  { cause := .regionloop, sub := 0, mask := laneMask i.active, src := .instruction, info := 0,
    pc := (i.grp.slice i.sp.leader).snap.repc }

/-- PARKING (R324): the faults are recorded in order, and the split waits to re-execute its region; a re-execution
that would be the 256th raises REGIONLOOP instead (R323). -/
def Dev.park (d : Dev) (i : Issuer) (fs : List (MemFault × BitVec 32)) (w : Where) : Dev :=
  let i := i.counting (w.src == .instruction)
  if 255 ≤ i.grp.reexec then d.trap i i.regionLoop
  else
    let d := fs.foldl (fun d (f, lanes) => d.recordFault i.grid.pid f lanes w) d
    d.modGroup i.ref fun _ =>
      { i.grp with
        parked := true, parkedAt := d.cycle, reexec := i.grp.reexec + 1
        splits := i.grp.splits.map fun x =>
          if x.stamp = i.sp.stamp then { x with wait := .parked, counted := false } else x }

/-- Spilled blocks that hold only some of the newest `r` entries are dropped; how many of those entries are left. -/
def Slice.dropBlocks : (fuel : Nat) → Slice → (r : Nat) → Slice × Nat
  | 0, s, r => (s, r)
  | fuel + 1, s, r =>
    let n := 8 - fget 0 s.shorts (s.spill.toNat - 1)
    if s.spill ≠ 0 ∧ n ≤ r then
      Slice.dropBlocks fuel { s with spill := s.spill - 1, shorts := fdrop s.shorts (s.spill.toNat - 1) } (r - n)
    else (s, r)

/-- A slice as it returns from the handler at `rpc`: its masks as the trap found them, less the lanes that have finished
or retired since (R91), and without the entries that the handler has pushed. Spilled blocks that hold such entries
alone are dropped whole; `fillRet` reads back a block that holds older ones as well (R106). -/
def Slice.returned (s : Slice) (rpc : BitVec 48) (h : HandlerSlice) : Slice :=
  let extra := s.retCount - h.retLen
  let t := (Slice.dropBlocks extra s (extra - s.ret.length)).1
  { t with
    pc := rpc, x := h.x &&& s.liveLanes, pm := h.pm &&& s.liveLanes
    rstack := s.rstack.drop (s.rstack.length - h.depth)
    ret := s.ret.drop extra }

/-- RETURN FROM AN EXCEPTION (R333), of a split in handler mode: RPC equal to REPC re-executes the region, any other
RPC begins one; entries pushed in handler mode are dropped, and the other splits are released. -/
def Group.returnFrom (g : Group) (sp : Split) : Group :=
  let rpc : BitVec 48 := g.tr0.setWidth 48
  let saved := g.handler.flatten
  let back := fun (k : Nat) (s : Slice) => match saved.find? (·.slice == k) with
    | some h => s.returned rpc h
    | none => { s with pc := rpc }
  let again := rpc = (g.slice sp.leader).snap.repc
  let rest := (g.handler.map fun hs => hs.filter fun h => !sp.mask.getLsbD h.slice).filter fun hs => !hs.isEmpty
  let g := { (g.countOnce sp).modSlices sp.mask back with handler := rest }
  let g := g.modSplit sp.stamp fun x => { x with wait := .ready, clause := none, region := true, counted := false }
  if again then { g.modSplit sp.stamp fun x => { x with wait := .rerun, region := false } with reexec := g.reexec + 1 } else g

/-! ## Versions of a line (R251, R254) -/

/-- A group has met a version of a line: older copies are no more for it. Versions with no live older copy are
forgotten. -/
def Group.see (g : Group) (now : Nat) (v : Version) : Group :=
  let old := g.seen.filter fun x => decide (now < x.till)
  let same := old.filter (·.line == v.line)
  { g with seen := if v.till ≤ now then old else
      { v with asOf := same.foldl (fun m x => max m x.asOf) v.asOf, till := same.foldl (fun m x => max m x.till) v.till } ::
        old.filter (·.line != v.line) }

/-- The version of a line that its home gives or takes at `asOf`. -/
def Dev.version (d : Dev) (line asOf : Nat) : Version := { line, asOf, till := (d.home line).expiry }

/-- A group reads or writes a version of a line. -/
def Dev.sees (d : Dev) (r : GroupRef) (line asOf : Nat) : Dev :=
  if d.cycle < (d.home line).expiry then d.modGroup r (·.see d.cycle (d.version line asOf)) else d

/-- A copy from `asOf` may serve a load of the group: it has met no later version, and `since` is its split's last
FENCE.SC (R249, R251). -/
def Group.mayRead (g : Group) (since line asOf : Nat) : Bool :=
  decide (since ≤ asOf) && g.seen.all fun v => v.line != line || decide (v.asOf ≤ asOf)

/-! ## What a step is built from -/

/-- An instruction word: the issuing split's effect on the device. -/
def withIssuer (s : State) (f : Issuer → Dev → Dev) : Res :=
  match s.dev.issuer? with
  | none => .refused .noIssuingSplit
  | some i => .next { s with dev := f i s.dev }

/-- An instruction word whose whole effect is on its own group: `f` makes the new group from the group as the
word's issue leaves it. -/
def withGroup (s : State) (after : Bool) (f : Issuer → Group → Group) : Res :=
  withIssuer s fun i d => d.modGroup i.ref fun _ => f i (i.grp.advance i.sp after)

/-- An event of the device: none when it stands for no pending work. -/
def withEvent (s : State) (f : Dev → Option Dev) : Res :=
  match f s.dev with
  | none => .refused .notPending
  | some d => .next { s with dev := d }

/-- The next name (log 2). -/
def Dev.newId (d : Dev) : Nat × Dev := (d.nextId, { d with nextId := d.nextId + 1 })

end Sys2Proof.Machine
end

