-- ==== Sys2Proof/Machine/Flags.lean ====
section
/-! DEFINITION. Completion flags (R74, R75, R102, R103) and the comparisons that write predicates (R140). -/

namespace Sys2Proof.Machine

/-- The flag a long-latency instruction counts on: `a` for SETA's instructions (R74, R102). -/
def Clause.flagFor (c : Clause) (a : Bool) : Nat :=
  if a then (if c.setA = 15 then c.setB.toNat else c.setA.toNat)
  else if c.setB = 15 then c.setA.toNat else c.setB.toNat

/-- The flag the split's next word counts on. -/
def Split.flagFor (sp : Split) (a : Bool) : Nat := (sp.clause.map (·.flagFor a)).getD 15

def Slice.flag (s : Slice) (n : Nat) : Nat := fget 0 s.cf n

/-- 1 is added in every slice of the mask (R74). -/
def Group.raiseFlag (g : Group) (mask : BitVec 8) (n : Nat) : Group :=
  g.modSlices mask fun _ s => { s with cf := fset 0 s.cf n (s.flag n + 1) }

/-- The flag falls by 1 in one slice (R74). -/
def Group.lowerFlag (g : Group) (slice n : Nat) : Group :=
  g.modSlices (1#8 <<< slice) fun _ s => { s with cf := fset 0 s.cf n (s.flag n - 1) }

/-- R103: the flag stands at 63 in some slice of the split. -/
def Group.flagFull (g : Group) (mask : BitVec 8) (n : Nat) : Bool :=
  (maskSlices mask).any fun k => 63 ≤ (g.slice k).flag n

/-- R75: every flag the header waits on is zero in every slice of the split. -/
def Group.waitsMet (g : Group) (mask : BitVec 8) (wait : BitVec 12) : Bool :=
  (maskSlices mask).all fun k => (List.range 12).all fun n => !wait.getLsbD n || (g.slice k).flag n == 0

/-- No long-latency operation of these slices is outstanding (R323). -/
def Group.drained (g : Group) (mask : BitVec 8) : Bool :=
  (maskSlices mask).all fun k => (g.slice k).cf.isEmpty

/-- Integer comparisons of ISET (R140): 0 EQ, 1 NE, 2 LT, 3 LE, 4 GT, 5 GE. -/
def cmpInt (c : Nat) (a b : Int) : Bool :=
  match c with
  | 0 => a == b | 1 => a != b | 2 => decide (a < b) | 3 => decide (a ≤ b) | 4 => decide (b < a) | _ => decide (b ≤ a)

end Sys2Proof.Machine
end

