-- ==== Sys2Proof/Machine/Operands.lean ====
section
/-! DEFINITION. Operand forms: how the instructions of classes 1 to 6 read their sources and write their results
(R80, R122, R123), and how a long-latency instruction leaves results owed (R74, R102). -/

namespace Sys2Proof.Machine

/-! ## Sources -/

/-- A 32-bit operand: a vector register or bits [31:0] of a scalar (R122). -/
def Issuer.reg32 (i : Issuer) (r : Reg) (lane : Nat) : Word32 :=
  match r with
  | .v n => i.vec lane n
  | .s n => (i.sca n).setWidth 32

/-- A 64-bit operand: an even vector pair or a scalar (R122). -/
def Issuer.reg64 (i : Issuer) (r : Reg) (lane : Nat) : Word64 :=
  match r with
  | .v n => i.vec64 lane n
  | .s n => i.sca n

/-- An operand of either width, zero-extended. -/
def Issuer.reg (i : Issuer) (w64 : Bool) (r : Reg) (lane : Nat) : Word64 :=
  if w64 then i.reg64 r lane else (i.reg32 r lane).setWidth 64

/-- The last source of classes 1 and 2: an immediate is sign-extended to the width (R80, R137). -/
def Issuer.srcI (i : Issuer) (w64 : Bool) (b : Src) (lane : Nat) : Word64 :=
  match b with
  | .reg r => i.reg w64 r lane
  | .imm x => if w64 then x.signExtend 64 else (x.signExtend 32).setWidth 64

/-- The last source of class 3: an immediate is the upper 20 bits of a binary32 (R80). -/
def Issuer.srcF (i : Issuer) (b : Src) (lane : Nat) : Word32 :=
  match b with
  | .reg r => i.reg32 r lane
  | .imm x => x ++ 0#12

/-- The last source of class 4: an immediate is the upper 20 bits of a binary64 (R80). -/
def Issuer.srcD (i : Issuer) (b : Src) (lane : Nat) : Word64 :=
  match b with
  | .reg r => i.reg64 r lane
  | .imm x => x ++ 0#44

/-! ## Results -/

/-- A 32-bit result in a 64-bit scalar: sign-extended for a signed type (R122). -/
def scalarResult (w64 sgn : Bool) (x : Word64) : Word64 :=
  if w64 then x else if sgn then (x.setWidth 32).signExtend 64 else (x.setWidth 32 : Word32).setWidth 64

/-- A result written to one lane's register, or pair. -/
def Group.writeLane (g : Group) (w64 : Bool) (lane n : Nat) (x : Word64) : Group :=
  if w64 then g.writeV64 lane n x else g.writeV lane n (x.setWidth 32)

/-- Writes a result: each participant's lane, or the split's scalar copies when there is a participant (R123). -/
def Issuer.put (i : Issuer) (d : Reg) (w64 sgn : Bool) (gd : Guard) (f : Nat → Word64) (g : Group) : Group :=
  match d with
  | .v n => (i.on gd).foldl (fun g l => g.writeLane w64 l n.toNat (f l)) g
  | .s n => match i.on gd with
    | [] => g
    | l :: _ => g.writeS i.sp.mask n.toNat (scalarResult w64 sgn (f l))

/-- Writes a predicate in each participant (R122). -/
def Issuer.putP (i : Issuer) (pd : BitVec 3) (gd : Guard) (f : Nat → Bool) (g : Group) : Group :=
  (i.on gd).foldl (fun g l => g.writeP l pd.toNat (f l)) g

/-! ## Results still owed -/

/-- One lane's owed result; v255 is owed nothing. -/
def owedLane (w64 : Bool) (lane n : Nat) (x : Word64) : List OwedItem :=
  let one := fun (n : Nat) (w : Word32) =>
    if n = 255 then [] else [{ dest := Dest.v lane n, value := some (w.setWidth 64), contested := false : OwedItem }]
  if w64 then one n (x.setWidth 32) ++ one (n + 1) ((x >>> 32).setWidth 32) else one n (x.setWidth 32)

/-- What `put` would write, as results owed. -/
def Issuer.owedItems (i : Issuer) (d : Reg) (w64 sgn : Bool) (gd : Guard) (f : Nat → Word64) : List OwedItem :=
  match d with
  | .v n => (i.on gd).flatMap fun l => owedLane w64 l n.toNat (f l)
  | .s n => match i.on gd with
    | [] => []
    | l :: _ => if n = 63 then [] else (maskSlices i.sp.mask).map fun k =>
        { dest := Dest.s k n.toNat, value := some (scalarResult w64 sgn (f l)), contested := false }

/-- A long-latency operation enters: its flag rises in every slice of the split, whatever the guards (R74). -/
def Group.owe (g : Group) (mask : BitVec 8) (flag : Nat) (o : Owed) : Group :=
  { g.raiseFlag mask flag with owed := g.owed ++ [o] }

/-- The operation a long-latency instruction of class 1, 3, 4 or 6 leaves: its values are those of its issue. -/
def Issuer.laneOp (i : Issuer) (id : Nat) (items : List OwedItem) : Owed :=
  { id, flag := i.sp.flagFor false, slices := maskSlices i.sp.mask, memory := false, waits := [], settle := none, items }

/-- A long-latency instruction that computes lane by lane. -/
def withOwed (s : State) (items : Issuer → List OwedItem) : Res :=
  withIssuer s fun i d =>
    let (id, d) := d.newId
    d.modGroup i.ref fun _ =>
      (i.grp.advance i.sp false).owe i.sp.mask (i.sp.flagFor false) (i.laneOp id (items i))

/-- A fixed-latency instruction with one register result. -/
def aluStep (s : State) (d : Reg) (w64 sgn : Bool) (gd : Guard) (f : Issuer → Nat → Word64) : Res :=
  withGroup s false fun i g => i.put d w64 sgn gd (f i) g

/-- A long-latency instruction with one register result. -/
def longStep (s : State) (d : Reg) (w64 sgn : Bool) (gd : Guard) (f : Issuer → Nat → Word64) : Res :=
  withOwed s fun i => i.owedItems d w64 sgn gd (f i)

/-- A fixed-latency instruction with a predicate result. -/
def predStep (s : State) (pd : BitVec 3) (gd : Guard) (f : Issuer → Nat → Bool) : Res :=
  withGroup s false fun i g => i.putP pd gd (f i) g

end Sys2Proof.Machine
end

