-- ==== Sys2Proof/Machine/Integer.lean ====
section
/-! DEFINITION. Class 1 and class 2: integer, logic, bit and predicate instructions (R137 to R144), and the
meanings of the paired word's slots that use them (R83, R84). -/

namespace Sys2Proof.Machine

/-! ## Values -/

def wbits (w64 : Bool) : Nat := if w64 then 64 else 32

/-- The low `w` bits of a word as an integer of the type (R124). -/
def toInt' (w64 uns : Bool) (x : Word64) : Int :=
  if w64 then (if uns then (x.toNat : Int) else x.toInt)
  else if uns then ((x.setWidth 32 : Word32).toNat : Int) else (x.setWidth 32 : Word32).toInt

/-- The low `w` bits of an integer, as a word. -/
def ofInt' (w64 : Bool) (x : Int) : Word64 :=
  if w64 then BitVec.ofInt 64 x else (BitVec.ofInt 32 x).setWidth 64

def leastOf (w64 uns : Bool) : Int := if uns then 0 else if w64 then -(2 : Int) ^ 63 else -(2 : Int) ^ 31

def greatestOf (w64 uns : Bool) : Int :=
  if w64 then (if uns then (2 : Int) ^ 64 - 1 else (2 : Int) ^ 63 - 1)
  else if uns then (2 : Int) ^ 32 - 1 else (2 : Int) ^ 31 - 1

def clampInt (lo hi x : Int) : Int := if x < lo then lo else if hi < x then hi else x

/-- R138: the exact result wrapped, or clamped under SAT. -/
def narrow (ty : IntTy) (sat : Bool) (x : Int) : Word64 :=
  ofInt' ty.w64 (if sat then clampInt (leastOf ty.w64 ty.uns) (greatestOf ty.w64 ty.uns) x else x)

/-- R139's quotient and remainder. -/
def divRem (ty : IntTy) (a b : Int) : Int × Int :=
  if b = 0 then (-1, a)
  else if !ty.uns && a == leastOf ty.w64 false && b == -1 then (a, 0)
  else (a.tdiv b, a - a.tdiv b * b)

/-! ## Operand shapes -/

def Issuer.intA (i : Issuer) (o : IntBin) (l : Nat) : Int := toInt' o.ty.w64 o.ty.uns (i.reg o.ty.w64 o.a l)
def Issuer.intB (i : Issuer) (o : IntBin) (l : Nat) : Int := toInt' o.ty.w64 o.ty.uns (i.srcI o.ty.w64 o.b l)

/-- A two-source integer instruction: its exact result, narrowed. -/
def intBin (o : IntBin) (f : Int → Int → Int) (s : State) : Res :=
  aluStep s o.d o.ty.w64 (!o.ty.uns) o.g fun i l => narrow o.ty o.sat (f (i.intA o l) (i.intB o l))

/-- A three-source integer instruction. -/
def intTri (o : IntTri) (f : Int → Int → Int → Int) (s : State) : Res :=
  aluStep s o.d o.ty.w64 (!o.ty.uns) o.g fun i l =>
    let rd := fun r => toInt' o.ty.w64 o.ty.uns (i.reg o.ty.w64 r l)
    narrow o.ty o.sat (f (rd o.a) (rd o.b) (rd o.c))

/-- A one-source integer instruction, signed. -/
def intUn (o : IntUn) (f : Int → Int) (s : State) : Res :=
  aluStep s o.d o.w64 true o.g fun i l => narrow ⟨o.w64, false⟩ o.sat (f (toInt' o.w64 false (i.reg o.w64 o.a l)))

/-- IDIV and IREM: long-latency (R139). -/
def intDiv (o : IntBin) (f : Int × Int → Int) (s : State) : Res :=
  longStep s o.d o.ty.w64 (!o.ty.uns) o.g fun i l => ofInt' o.ty.w64 (f (divRem o.ty (i.intA o l) (i.intB o l)))

/-! ## Class 1 -/

/-- IADD (R138). -/
def execIadd (o : IntBin) (s : State) : Res := intBin o (· + ·) s
/-- ISUB (R138). -/
def execIsub (o : IntBin) (s : State) : Res := intBin o (· - ·) s
/-- IADD3 (R138). -/
def execIadd3 (o : IntTri) (s : State) : Res := intTri o (fun a b c => a + b + c) s
/-- IMUL (R138). -/
def execImul (o : IntBin) (s : State) : Res := intBin o (· * ·) s
/-- IMULH (R138). -/
def execImulh (o : IntBin) (s : State) : Res := intBin o (fun a b => (a * b).fdiv ((2 : Int) ^ wbits o.ty.w64)) s
/-- IMAD (R138). -/
def execImad (o : IntTri) (s : State) : Res := intTri o (fun a b c => a * b + c) s

/-- IMADW: 32-bit A and B, 64-bit C and D (R138). -/
def execImadw (o : IntTri) (s : State) : Res :=
  aluStep s o.d true (!o.ty.uns) o.g fun i l =>
    let rd := fun r => toInt' false o.ty.uns (i.reg false r l)
    ofInt' true (rd o.a * rd o.b + toInt' true true (i.reg true o.c l))

/-- IDIV (R139). -/
def execIdiv (o : IntBin) (s : State) : Res := intDiv o (·.1) s
/-- IREM (R139). -/
def execIrem (o : IntBin) (s : State) : Res := intDiv o (·.2) s
/-- IMIN (R138). -/
def execImin (o : IntBin) (s : State) : Res := intBin o (fun a b => if a ≤ b then a else b) s
/-- IMAX (R138). -/
def execImax (o : IntBin) (s : State) : Res := intBin o (fun a b => if a ≤ b then b else a) s
/-- IABS (R138). -/
def execIabs (o : IntUn) (s : State) : Res := intUn o (fun a => if a < 0 then -a else a) s
/-- INEG (R138). -/
def execIneg (o : IntUn) (s : State) : Res := intUn o (fun a => -a) s
/-- ISAD: C is added modulo 2^32 (R138). -/
def execIsad (o : IntTri) (s : State) : Res := intTri o (fun a b c => (if a ≤ b then b - a else a - b) + c) s

/-- Byte `k` of a word as IDOT4 reads it (R138). -/
def dotByte (uns : Bool) (x : Word32) (k : Nat) : Int :=
  if uns then ((x.extractLsb' (8 * k) 8).toNat : Int) else (x.extractLsb' (8 * k) 8).toInt

/-- IDOT4 (R138). -/
def execIdot4 (o : Dot4) (s : State) : Res :=
  aluStep s o.d false true o.g fun i l =>
    let a := i.reg32 o.a l
    let b := i.reg32 o.b l
    let sum := (List.range 4).foldl (fun t k => t + dotByte o.au a k * dotByte o.bu b k) (i.reg32 o.c l).toInt
    narrow ⟨false, false⟩ o.sat sum

/-- ISET (R140). -/
def execIset (o : IntSet) (s : State) : Res :=
  predStep s o.pd o.g fun i l =>
    cmpInt o.cmp.toNat (toInt' o.ty.w64 o.ty.uns (i.reg o.ty.w64 o.a l)) (toInt' o.ty.w64 o.ty.uns (i.srcI o.ty.w64 o.b l))

/-- SEL: with a scalar destination pC is read in the lowest participant (R140, R123). -/
def execSel (o : SelOp) (s : State) : Res :=
  aluStep s o.d o.b64 false o.g fun i l => if i.prd l o.pc then i.reg o.b64 o.a l else i.reg o.b64 o.b l

/-- LEA: B is 32-bit, extended to the width (R140). -/
def execLea (o : LeaOp) (s : State) : Res :=
  aluStep s o.d o.ty.w64 (!o.ty.uns) o.g fun i l =>
    let a := i.reg o.ty.w64 o.a l
    let b := toInt' false o.ty.uns (i.srcI false o.b l)
    ofInt' o.ty.w64 ((a.toNat : Int) + b * 2 ^ o.sh.toNat)

/-- MOV; a vector source with a scalar destination gives the lowest participant's value (R140). -/
def execMov (o : LogUn) (s : State) : Res := aluStep s o.d o.b64 false o.g fun i l => i.reg o.b64 o.a l

/-- MOVI: a scalar takes the immediate sign-extended (R141). -/
def execMovi (d : Reg) (imm : BitVec 32) (g : Guard) (s : State) : Res :=
  aluStep s d false true g fun _ _ => imm.setWidth 64

/-- MOVW: the vector register above D, or bits [63:32] of each slice's scalar copy, whose [31:0] are kept (R141). -/
def execMovw (d : Reg) (imm : BitVec 32) (g : Guard) (s : State) : Res :=
  match d with
  | .v n => aluStep s (.v (n + 1)) false false g fun _ _ => imm.setWidth 64
  | .s n => withGroup s false fun i gr =>
      if (i.on g).isEmpty then gr
      else (maskSlices i.sp.mask).foldl (fun gr k =>
        gr.writeS (1#8 <<< k) n.toNat (imm ++ ((i.grp.readS i.fresh k n.toNat).setWidth 32 : Word32))) gr

/-! ## Class 2 -/

/-- The value at its width: the upper bits of a 32-bit value are zero. -/
def trunc (w64 : Bool) (x : Word64) : Word64 := if w64 then x else (x.setWidth 32 : Word32).setWidth 64

/-- A shift count: bits [31:0] of its operand, whatever the width (R142). -/
def Issuer.count (i : Issuer) (b : Src) (l : Nat) : Nat := ((i.srcI false b l).setWidth 32 : Word32).toNat

def logBin (o : LogBin) (f : Word64 → Word64 → Word64) (s : State) : Res :=
  aluStep s o.d o.b64 false o.g fun i l => f (i.reg o.b64 o.a l) (i.srcI o.b64 o.b l)

/-- AND (R142). -/
def execAnd (o : LogBin) (s : State) : Res := logBin o (· &&& ·) s
/-- OR (R142). -/
def execOr (o : LogBin) (s : State) : Res := logBin o (· ||| ·) s
/-- XOR (R142). -/
def execXor (o : LogBin) (s : State) : Res := logBin o (· ^^^ ·) s
/-- NOT (R142). -/
def execNot (o : LogUn) (s : State) : Res := aluStep s o.d o.b64 false o.g fun i l => ~~~(i.reg o.b64 o.a l)

/-- BOOL3's table at one bit (R142). -/
def bool3Bit (tab : BitVec 8) (a b c : Bool) : Bool := tab.getLsbD (a.toNat + 2 * b.toNat + 4 * c.toNat)

/-- A word from its bits. -/
def word32Of (f : Nat → Bool) : Word32 :=
  BitVec.ofNat 32 ((List.range 32).foldl (fun t j => if f j then t + 2 ^ j else t) 0)

/-- BOOL3 (R142). -/
def execBool3 (o : Bool3Op) (s : State) : Res :=
  aluStep s o.d false false o.g fun i l =>
    let a := i.reg32 o.a l
    let b := i.reg32 o.b l
    let c := i.reg32 o.c l
    (word32Of fun j => bool3Bit o.tab (a.getLsbD j) (b.getLsbD j) (c.getLsbD j)).setWidth 64

def shlW (w64 : Bool) (a : Word64) (n : Nat) : Word64 := if wbits w64 ≤ n then 0 else trunc w64 (a <<< n)
def shrW (w64 : Bool) (a : Word64) (n : Nat) : Word64 := if wbits w64 ≤ n then 0 else trunc w64 a >>> n
def sarW (w64 : Bool) (a : Word64) (n : Nat) : Word64 :=
  if w64 then a.sshiftRight n else ((a.setWidth 32 : Word32).sshiftRight n).setWidth 64
def rotW (w64 : Bool) (a : Word64) (n : Nat) : Word64 :=
  if w64 then a.rotateLeft n else ((a.setWidth 32 : Word32).rotateLeft n).setWidth 64

def shiftStep (o : LogBin) (f : Word64 → Nat → Word64) (s : State) : Res :=
  aluStep s o.d o.b64 false o.g fun i l => f (i.reg o.b64 o.a l) (i.count o.b l)

/-- SHL: 0 when the count is the width or more (R142). -/
def execShl (o : LogBin) (s : State) : Res := shiftStep o (shlW o.b64) s
/-- SHR (R142). -/
def execShr (o : LogBin) (s : State) : Res := shiftStep o (shrW o.b64) s
/-- SAR: all sign bits when the count is the width or more (R142). -/
def execSar (o : LogBin) (s : State) : Res := shiftStep o (sarW o.b64) s
/-- ROT (R142). -/
def execRot (o : LogBin) (s : State) : Res := shiftStep o (rotW o.b64) s

/-- FUNNEL on {B,A} (R142). -/
def funnel (left : Bool) (a b c : Word32) : Word32 :=
  let k := min c.toNat 32
  if left then ((b ++ a) <<< k).extractLsb' 32 32 else ((b ++ a) >>> k).extractLsb' 0 32

/-- FUNNEL (R142). -/
def execFunnel (o : LogTri) (s : State) : Res :=
  aluStep s o.d false false o.g fun i l =>
    (funnel o.flag (i.reg32 o.a l) (i.reg32 o.b l) (i.reg32 o.c l)).setWidth 64

/-- A field's position and its clipped length (R143). -/
def fieldOf (w64 : Bool) (f : Word32) : Nat × Nat :=
  let pos := (f.extractLsb' 0 8).toNat
  let len := (f.extractLsb' 8 8).toNat
  (pos, if pos < wbits w64 then min len (wbits w64 - pos) else 0)

/-- BFE's extract (R143). -/
def bfe (w64 sgn : Bool) (a : Word64) (f : Word32) : Word64 :=
  let (pos, len) := fieldOf w64 f
  let x := a.toNat / 2 ^ pos % 2 ^ len
  trunc w64 (if sgn && decide (0 < len) && x.testBit (len - 1) then BitVec.ofInt 64 ((x : Int) - 2 ^ len) else BitVec.ofNat 64 x)

/-- BFE (R143). -/
def execBfe (o : BfeOp) (s : State) : Res :=
  aluStep s o.d o.b64 o.sgn o.g fun i l =>
    bfe o.b64 o.sgn (i.reg o.b64 o.a l) ((i.srcI false o.b l).setWidth 32)

/-- BFI's insert (R143). -/
def bfi (w64 : Bool) (a b : Word64) (f : Word32) : Word64 :=
  let (pos, len) := fieldOf w64 f
  let m : Word64 := BitVec.ofNat 64 (2 ^ len - 1)
  trunc w64 ((a &&& ~~~(m <<< pos)) ||| ((b &&& m) <<< pos))

/-- BFI (R143). -/
def execBfi (o : LogTri) (s : State) : Res :=
  aluStep s o.d o.flag false o.g fun i l =>
    bfi o.flag (i.reg o.flag o.a l) (i.reg o.flag o.b l) (i.reg32 o.c l)

def popcount (x : Word64) : Nat := (List.range 64).foldl (fun t j => if x.getLsbD j then t + 1 else t) 0

/-- Leading zeros over `w` bits. -/
def clzW (w : Nat) (x : Word64) : Nat := ((List.range w).find? fun j => x.getLsbD (w - 1 - j)).getD w

/-- Trailing zeros over `w` bits. -/
def ctzW (w : Nat) (x : Word64) : Nat := ((List.range w).find? fun j => x.getLsbD j).getD w

/-- POPC: D is one 32-bit register (R142). -/
def execPopc (o : LogUn) (s : State) : Res :=
  aluStep s o.d false false o.g fun i l => BitVec.ofNat 64 (popcount (i.reg o.b64 o.a l))
/-- CLZ (R142). -/
def execClz (o : LogUn) (s : State) : Res :=
  aluStep s o.d false false o.g fun i l => BitVec.ofNat 64 (clzW (wbits o.b64) (i.reg o.b64 o.a l))
/-- CTZ (R142). -/
def execCtz (o : LogUn) (s : State) : Res :=
  aluStep s o.d false false o.g fun i l => BitVec.ofNat 64 (ctzW (wbits o.b64) (i.reg o.b64 o.a l))

/-- The bit order of `w` bits reversed. -/
def brevW (w : Nat) (x : Word64) : Word64 :=
  BitVec.ofNat 64 ((List.range w).foldl (fun t j => if x.getLsbD j then t + 2 ^ (w - 1 - j) else t) 0)

/-- BREV (R142). -/
def execBrev (o : LogUn) (s : State) : Res :=
  aluStep s o.d o.b64 false o.g fun i l => brevW (wbits o.b64) (i.reg o.b64 o.a l)

/-- PRMT: nibble `k` of C picks a byte of {B,A}, or its sign bit (R142). -/
def prmt (a b c : Word32) : Word32 :=
  let byte := fun (k : Nat) =>
    let sel := (c.extractLsb' (4 * k) 4).toNat
    let x := (b ++ a).extractLsb' (8 * (sel % 8)) 8
    if sel < 8 then x else if x.getLsbD 7 then 0xFF#8 else 0#8
  byte 3 ++ byte 2 ++ byte 1 ++ byte 0

/-- PRMT (R142). -/
def execPrmt (o : LogTri) (s : State) : Res :=
  aluStep s o.d false false o.g fun i l => (prmt (i.reg32 o.a l) (i.reg32 o.b l) (i.reg32 o.c l)).setWidth 64

/-- PAND, POR, PXOR's inputs after their inversions (R144). -/
def predBin (o : PredBin) (f : Bool → Bool → Bool) (s : State) : Res :=
  predStep s o.pd o.g fun i l => f (i.prd l o.pa != o.na) (i.prd l o.pb != o.nb)

/-- PAND (R144). -/
def execPand (o : PredBin) (s : State) : Res := predBin o (· && ·) s
/-- POR (R144). -/
def execPor (o : PredBin) (s : State) : Res := predBin o (· || ·) s
/-- PXOR (R144). -/
def execPxor (o : PredBin) (s : State) : Res := predBin o (· != ·) s
/-- PNOT (R144). -/
def execPnot (o : PredUn) (s : State) : Res := predStep s o.pd o.g fun i l => !(i.prd l o.pa != o.na)

/-- The predicates of a lane as PMOV.TOV packs them (R144). -/
def Issuer.packPreds (i : Issuer) (l : Nat) : Word32 :=
  BitVec.ofNat 32 ((List.range 7).foldl (fun t n => if i.grp.readP i.fresh l n then t + 2 ^ n else t) 128)

/-- PMOV: to a predicate, of all predicates to a register, and back (R144). -/
def execPmov (f : PMovForm) (g : Guard) (s : State) : Res :=
  match f with
  | .pp na pd pa => predStep s pd g fun i l => i.prd l pa != na
  | .toV vd => aluStep s (.v vd) false false g fun i l => (i.packPreds l).setWidth 64
  | .fromV va => withGroup s false fun i gr =>
      (i.on g).foldl (fun gr l => (List.range 7).foldl (fun gr n => gr.writeP l n ((i.vec l va).getLsbD n)) gr) gr

end Sys2Proof.Machine
end

