-- ==== Sys2Proof/Machine/Float.lean ====
section
/-! DEFINITION. Number formats and ROUND (R125 to R133), exact arithmetic on values, and the special functions
within their bounds (R148). -/

namespace Sys2Proof.Machine

/-! ## Formats (R125) -/

/-- Which all-ones exponents mean NaN and infinity. -/
inductive FmtKind where
  /-- as IEEE 754-2019 -/
  | ieee
  /-- E4M3: only the all-ones word is NaN -/
  | nanOnly
  /-- E2M1: neither -/
  | plain
  deriving DecidableEq, Repr

structure Fmt where
  eb   : Nat       -- exponent bits
  fb   : Nat       -- fraction bits
  bias : Nat
  kind : FmtKind
  most : Nat       -- largest finite magnitude's word
  nan  : Nat       -- canonical NaN
  deriving DecidableEq, Repr

def f16 : Fmt := ⟨5, 10, 15, .ieee, 0x7BFF, 0x7E00⟩
def bf16 : Fmt := ⟨8, 7, 127, .ieee, 0x7F7F, 0x7FC0⟩
def f32 : Fmt := ⟨8, 23, 127, .ieee, 0x7F7FFFFF, 0x7FC00000⟩
def f64 : Fmt := ⟨11, 52, 1023, .ieee, 0x7FEFFFFFFFFFFFFF, 0x7FF8000000000000⟩
def e4m3 : Fmt := ⟨4, 3, 7, .nanOnly, 0x7E, 0x7F⟩
def e5m2 : Fmt := ⟨5, 2, 15, .ieee, 0x7B, 0x7E⟩
def e2m1 : Fmt := ⟨2, 1, 1, .plain, 0x7, 0⟩

/-- The sign bit's weight. -/
def Fmt.signBit (f : Fmt) : Nat := 2 ^ (f.eb + f.fb)

def Fmt.infWord (f : Fmt) : Nat := (2 ^ f.eb - 1) * 2 ^ f.fb

/-- A value: `fin s m e` is (−1)^s × m × 2^e with m > 0. -/
inductive FVal where
  | nan
  | inf (s : Bool)
  | zero (s : Bool)
  | fin (s : Bool) (m : Nat) (e : Int)
  deriving DecidableEq, Repr

def Fmt.sgn (f : Fmt) (w : Nat) : Bool := w / f.signBit % 2 == 1

def Fmt.mag (f : Fmt) (w : Nat) : Nat := w % f.signBit

/-- The value a word holds (R125). -/
def Fmt.value (f : Fmt) (w : Nat) : FVal :=
  let s := f.sgn w
  let e := f.mag w / 2 ^ f.fb
  let m := f.mag w % 2 ^ f.fb
  if f.kind = .ieee ∧ e = 2 ^ f.eb - 1 then (if m = 0 then .inf s else .nan)
  else if f.kind = .nanOnly ∧ f.mag w = f.signBit - 1 then .nan
  else if e = 0 then (if m = 0 then .zero s else .fin s m (1 - (f.bias : Int) - f.fb))
  else .fin s (m + 2 ^ f.fb) ((e : Int) - f.bias - f.fb)

/-! ## ROUND (R131) -/

def Fmt.signed (f : Fmt) (s : Bool) (mag : Nat) : Nat := if s then f.signBit + mag else mag

/-- The infinity a format has, or its canonical NaN (R131). -/
def Fmt.infOr (f : Fmt) (s : Bool) : Nat := if f.kind = .ieee then f.signed s f.infWord else f.nan

/-- OVERFLOW (R131). -/
def Fmt.overflow (f : Fmt) (r : Rnd) (sat s : Bool) : Nat :=
  if sat then f.signed s f.most
  else match r, s with
    | .rne, _ | .ru, false | .rd, true => f.infOr s
    | _, _ => f.signed s f.most

/-- Whether rounding moves the magnitude up: what is cut off compared with half a unit, and the parity kept. -/
def roundsUp (r : Rnd) (s odd : Bool) (rem half : Nat) (sticky : Bool) : Bool :=
  match r with
  | .rne => decide (half < rem) || (rem == half && (sticky || odd))
  | .rz => false
  | .ru => !s && (rem != 0 || sticky)
  | .rd => s && (rem != 0 || sticky)

/-- ROUND of (−1)^s × (m + δ) × 2^e, where 0 < δ < 1 when `sticky`; the word, and whether it overflowed. -/
def Fmt.roundFin (f : Fmt) (r : Rnd) (sat s : Bool) (m : Nat) (e : Int) (sticky : Bool) : Nat × Bool :=
  let qmin : Int := 1 - (f.bias : Int) - f.fb
  let q : Int := max ((Nat.log2 m : Int) + e - f.fb) qmin
  -- one more bit below the unit keeps a sticky remainder exact when nothing is cut off
  let m' := 2 * m
  let e' := e - 1
  let up : Nat × Nat × Nat :=
    if q ≤ e' then (m' * 2 ^ (e' - q).toNat, 0, 1)
    else let k := (q - e').toNat; (m' / 2 ^ k, m' % 2 ^ k, 2 ^ (k - 1))
  let n := if roundsUp r s (up.1 % 2 == 1) up.2.1 up.2.2 sticky then up.1 + 1 else up.1
  let mag := (q - qmin).toNat * 2 ^ f.fb + n
  if f.most < mag then (f.overflow r sat s, true) else (f.signed s mag, false)

/-- ROUND (R131); a saturating form gives ± the largest finite value for an infinity too. -/
def Fmt.roundTo (f : Fmt) (r : Rnd) (sat : Bool) (x : FVal) (sticky : Bool := false) : Nat :=
  match x with
  | .nan => f.nan
  | .inf s => if sat then f.signed s f.most else f.infOr s
  | .zero s => f.signed s 0
  | .fin s m e => (f.roundFin r sat s m e sticky).1

/-! ## Exact operations -/

def FVal.neg : FVal → FVal
  | .nan => .nan
  | .inf s => .inf (!s)
  | .zero s => .zero (!s)
  | .fin s m e => .fin (!s) m e

/-- The zero an exact cancellation gives (R133). -/
def cancelZero (r : Rnd) : FVal := .zero (r == .rd)

def signedInt (s : Bool) (m : Nat) : Int := if s then -(m : Int) else m

/-- A signed dyadic as a value. -/
def ofDyadic (r : Rnd) (x : Int) (e : Int) : FVal :=
  if x = 0 then cancelZero r else .fin (decide (x < 0)) x.natAbs e

/-- a + b, exactly. -/
def FVal.add (r : Rnd) : FVal → FVal → FVal
  | .nan, _ | _, .nan => .nan
  | .inf a, .inf b => if a = b then .inf a else .nan
  | .inf a, _ | _, .inf a => .inf a
  | .zero a, .zero b => if a = b then .zero a else cancelZero r
  | .zero _, x | x, .zero _ => x
  | .fin s m e, .fin s' m' e' =>
    let lo := min e e'
    ofDyadic r (signedInt s m * 2 ^ (e - lo).toNat + signedInt s' m' * 2 ^ (e' - lo).toNat) lo

/-- a × b, exactly. -/
def FVal.mul : FVal → FVal → FVal
  | .nan, _ | _, .nan => .nan
  | .inf _, .zero _ | .zero _, .inf _ => .nan
  | .inf a, .inf b | .inf a, .fin b _ _ | .fin a _ _, .inf b => .inf (a != b)
  | .zero a, .zero b | .zero a, .fin b _ _ | .fin a _ _, .zero b => .zero (a != b)
  | .fin a m e, .fin b m' e' => .fin (a != b) (m * m') (e + e')

/-- a ÷ b to more bits than any format keeps, and whether more follow. -/
def FVal.div : FVal → FVal → FVal × Bool
  | .nan, _ | _, .nan => (.nan, false)
  | .inf _, .inf _ | .zero _, .zero _ => (.nan, false)
  | .inf a, .zero b | .inf a, .fin b _ _ | .fin a _ _, .zero b => (.inf (a != b), false)
  | .zero a, .inf b | .zero a, .fin b _ _ | .fin a _ _, .inf b => (.zero (a != b), false)
  | .fin a m e, .fin b m' e' =>
    let k := Nat.log2 m' + 64
    (.fin (a != b) (m * 2 ^ k / m') (e - e' - k), m * 2 ^ k % m' != 0)

/-- The integer square root, from bit `k` down. -/
def isqrtFrom (n : Nat) : (k r : Nat) → Nat
  | 0, r => r
  | k + 1, r => isqrtFrom n k (if (r + 2 ^ k) * (r + 2 ^ k) ≤ n then r + 2 ^ k else r)

def isqrt (n : Nat) : Nat := isqrtFrom n (Nat.log2 n / 2 + 1) 0

/-- An even exponent: the mantissa is doubled for an odd one. -/
def evenExp (m : Nat) (e : Int) : Nat × Int := if e % 2 = 0 then (m, e) else (2 * m, e - 1)

/-- √a, and whether more bits follow (R148). -/
def FVal.sqrt : FVal → FVal × Bool
  | .nan | .inf true | .fin true _ _ => (.nan, false)
  | .inf false => (.inf false, false)
  | .zero s => (.zero s, false)
  | .fin false m e =>
    let (m, e) := evenExp m e
    let n := m * 2 ^ 128
    (.fin false (isqrt n) (e / 2 - 64), isqrt n * isqrt n != n)

/-- 1/√a, and whether more bits follow (R148). -/
def FVal.rsqrt : FVal → FVal × Bool
  | .nan | .inf true | .fin true _ _ => (.nan, false)
  | .inf false => (.zero false, false)
  | .zero s => (.inf s, false)
  | .fin false m e =>
    let (m, e) := evenExp m e
    let k := Nat.log2 m + 64
    let r := isqrt (2 ^ (2 * k) / m)
    (.fin false r (-(e / 2) - k), r * r * m != 2 ^ (2 * k))

/-- 1. -/
def FVal.one : FVal := .fin false 1 0

/-- An integer rounded from a value under a mode (R147, R151); none for NaN and the infinities. -/
def FVal.toInt? (r : Rnd) : FVal → Option Int
  | .nan | .inf _ => none
  | .zero _ => some 0
  | .fin s m e =>
    if 0 ≤ e then some (signedInt s (m * 2 ^ e.toNat))
    else
      let k := (-e).toNat
      let n := m / 2 ^ k
      some (signedInt s (if roundsUp r s (n % 2 == 1) (m % 2 ^ k) (2 ^ (k - 1)) false then n + 1 else n))

/-- An integral value of the sign given when it is zero (R147). -/
def FVal.integral (r : Rnd) (x : FVal) : FVal :=
  match x, x.toInt? r with
  | .fin s _ _, some n => if n = 0 then .zero s else .fin s n.natAbs 0
  | x, _ => x

/-- a × 2^k. -/
def FVal.scale (k : Int) : FVal → FVal
  | .fin s m e => .fin s m (e + k)
  | x => x

/-- An integer as a value. -/
def FVal.ofInt (x : Int) : FVal := ofDyadic .rne x 0

def FVal.isNan : FVal → Bool
  | .nan => true
  | _ => false

/-! ## Words -/

/-- Sign flipped where the negate bit is set (R133). -/
def Fmt.negIf (f : Fmt) (n : Bool) (w : Nat) : Nat :=
  if n then (if f.sgn w then w - f.signBit else w + f.signBit) else w

/-- FTZ on an operand or a result: a subnormal becomes a zero of its sign (R132). -/
def Fmt.flush (f : Fmt) (ftz : Bool) (w : Nat) : Nat :=
  if ftz && decide (0 < f.mag w) && decide (f.mag w < 2 ^ f.fb) then w - f.mag w else w

/-- The order of words as values, −0 below +0 (R135). -/
def Fmt.order (f : Fmt) (w : Nat) : Int := if f.sgn w then -(f.mag w : Int) - 1 else f.mag w

/-- minimumNumber and maximumNumber (R135): the returned operand is bitwise. -/
def Fmt.minMax (f : Fmt) (greatest : Bool) (a b : Nat) : Nat :=
  match (f.value a).isNan, (f.value b).isNan with
  | true, true => f.nan
  | true, false => b
  | false, true => a
  | false, false => if decide (f.order a ≤ f.order b) != greatest then a else b

/-- A comparison of FSET (R147). -/
def Fmt.compare (f : Fmt) (c : Nat) (a b : Nat) : Bool :=
  let un := (f.value a).isNan || (f.value b).isNan
  let key := fun w => signedInt (f.sgn w) (f.mag w)
  match c with
  | 6 => !un
  | 7 => un
  | 1 => un || key a != key b
  | c => !un && cmpInt c (key a) (key b)

/-- The class mask of a word (R147). -/
def Fmt.classOf (f : Fmt) (w : Nat) : Nat :=
  let s := f.sgn w
  match f.value w with
  | .nan => if f.mag w / 2 ^ (f.fb - 1) % 2 = 1 then 2 else 1
  | .inf _ => if s then 2 ^ 2 else 2 ^ 9
  | .zero _ => if s then 2 ^ 5 else 2 ^ 6
  | .fin .. => if f.mag w < 2 ^ f.fb then (if s then 2 ^ 4 else 2 ^ 7) else if s then 2 ^ 3 else 2 ^ 8

/-! ## Special functions (R148): fixed-point approximations with 200 fraction bits, and the bounds -/

def fxOne : Nat := 2 ^ 200

/-- A non-negative value in fixed point, rounded down. -/
def fxOf (m : Nat) (e : Int) : Nat := if 0 ≤ e + 200 then m * 2 ^ (e + 200).toNat else m / 2 ^ (-(e + 200)).toNat

/-- π. -/
def fxPi : Nat := 0x3243f6a8885a308d313198a2e03707344a4093822299f31d008

/-- Terms of a series: term k is term k−1 times `x` over `d k`, alternately signed when `alt`. -/
def fxSeries (x : Nat) (alt : Bool) (d : Nat → Nat) : (fuel : Nat) → (k term : Nat) → Int → Int
  | 0, _, _, acc => acc
  | fuel + 1, k, term, acc =>
    let t := term * x / fxOne / d k
    fxSeries x alt d fuel (k + 1) t (if alt && k % 2 == 1 then acc - t else acc + t)

/-- sin and cos of r, 0 ≤ r ≤ 2π, both in fixed point. -/
def fxSin (r : Nat) : Int := fxSeries (r * r / fxOne) true (fun k => 2 * k * (2 * k + 1)) 50 1 r r
def fxCos (r : Nat) : Int := fxSeries (r * r / fxOne) true (fun k => (2 * k - 1) * (2 * k)) 50 1 fxOne fxOne

/-- `n` squarings. -/
def fxSquare (x : Nat) : Nat → Nat
  | 0 => x
  | n + 1 => fxSquare (x * x / fxOne) n

/-- e^−z for 0 ≤ z ≤ 64. -/
def fxExpNeg (z : Nat) : Nat := fxSquare (fxSeries (z / 4096) true (fun k => k) 24 1 fxOne fxOne).toNat 12

/-- 2^f for a fixed-point 0 ≤ f < 1, by its 100 top bits and repeated square roots of 2. -/
def fxPow2 (f : Nat) : (bit : Nat) → (root acc : Nat) → Nat
  | 0, _, acc => acc
  | bit + 1, root, acc =>
    let root := isqrt (root * fxOne)
    fxPow2 f bit root (if f / 2 ^ (200 - (100 - bit)) % 2 = 1 then acc * root / fxOne else acc)

/-- log₂ m for a fixed-point 1 ≤ m < 2, to 100 bits by repeated squaring, as a fixed-point number. -/
def fxLog2 (m : Nat) : (bit : Nat) → (acc : Nat) → Nat
  | 0, acc => acc * 2 ^ 100
  | bit + 1, acc =>
    let m := m * m / fxOne
    if 2 * fxOne ≤ m then fxLog2 (m / 2) bit (2 * acc + 1) else fxLog2 m bit (2 * acc)

/-- A word as a whole number of units of 2^`b`, `b` at most −149; an infinity stands where the next finite value would. -/
def unitsOf (b : Int) (v : Nat) : Option Int :=
  match f32.value v with
  | .nan => none
  | .zero _ => some 0
  | .inf s => some (signedInt s (2 ^ (128 - b).toNat))
  | .fin s m e => some (signedInt s (m * 2 ^ (e - b).toNat))

/-- A word at most 2 ulp from a value, or the nearest word: the bound of EXP2, LOG2 and TANH. The value's magnitude lies
just above m · 2^e; one ulp is the distance of binary32 values in its binade (DEDUCED, log 12). -/
def withinUlps (s : Bool) (m : Nat) (e : Int) (v : Nat) : Nat :=
  let b := min e (-149)
  let two := 2 ^ (max (Nat.log2 m + e - 23) (-149) + 1 - b).toNat
  let y : Int := m * 2 ^ (e - b).toNat
  let fits := (unitsOf b v).any fun x =>
    let t := if s then -x else x
    if y < t then decide (t - y ≤ two) else decide (y - t < two)
  if fits then v else f32.signed s (f32.roundFin .rne false false m e true).1

/-- A finite word whose distance from a fixed-point value is at most 2^−`b`, or the nearest word. -/
def withinAbs (y : Int) (b : Nat) (v : Nat) : Nat :=
  let near := f32.roundTo .rne false (ofDyadic .rne y (-200))
  match f32.value v with
  | .zero _ => if y.natAbs ≤ 2 ^ (200 - b) then v else near
  | .fin s m e => if (signedInt s (fxOf m e) - y).natAbs ≤ 2 ^ (200 - b) then v else near
  | _ => near

/-- EXP2 (R148): exact for integral operands. -/
def expTwo (x : Word32) : Nat :=
  match f32.value x.toNat with
  | .nan => f32.nan
  | .inf s => if s then 0 else f32.infWord
  | .zero _ => f32.roundTo .rne false .one
  | .fin s m e =>
    let a := signedInt s m
    if 0 ≤ e ∨ m % 2 ^ (-e).toNat = 0 then
      let n : Int := if 0 ≤ e then a * 2 ^ e.toNat else a / 2 ^ (-e).toNat
      f32.roundTo .rne false (.fin false 1 (clampInt (-400) 400 n))
    else
      let n : Int := a / 2 ^ (-e).toNat
      let frac : Nat := fxOf (a - n * 2 ^ (-e).toNat).toNat e
      withinUlps false (fxPow2 frac 100 (2 * fxOne) fxOne) (clampInt (-400) 400 n - 200) (Config.exp2 x).toNat

/-- LOG2 (R148): exact for powers of two. -/
def logTwo (x : Word32) : Nat :=
  match f32.value x.toNat with
  | .nan | .inf true | .fin true _ _ => f32.nan
  | .inf false => f32.infWord
  | .zero _ => f32.signed true f32.infWord
  | .fin false m e =>
    let k := Nat.log2 m
    let n : Int := k + e
    if m = 2 ^ k then f32.roundTo .rne false (FVal.ofInt n)
    else
      let y : Int := n * fxOne + fxLog2 (fxOf m (-(k : Int))) 100 0
      if n = -1 ∨ n = 0 then withinAbs y 22 (Config.log2 x).toNat
      else withinUlps (decide (y < 0)) y.natAbs (-200) (Config.log2 x).toNat

/-- SIN and COS (R148): beyond 2^15 some value in [−1, 1]. -/
def trig (cosine : Bool) (x : Word32) : Nat :=
  let v := (if cosine then Config.cos x else Config.sin x).toNat
  match f32.value x.toNat with
  | .nan | .inf _ => f32.nan
  | .zero s => if cosine then f32.roundTo .rne false .one else f32.signed s 0
  | .fin s m e =>
    if 2 ^ 15 * 2 ^ 149 < m * 2 ^ (e + 149).toNat then
      (if f32.mag v ≤ f32.roundTo .rne false .one then v else 0)
    else
      let r := fxOf m e % (2 * fxPi)
      withinAbs (if cosine then fxCos r else if s then -fxSin r else fxSin r) 21 v

/-- TANH (R148): exactly ±1 for magnitudes of 16 or more. -/
def tanhOf (x : Word32) : Nat :=
  match f32.value x.toNat with
  | .nan => f32.nan
  | .inf s => f32.signed s (f32.roundTo .rne false .one)
  | .zero s => f32.signed s 0
  | .fin s m e =>
    let v := (Config.tanh x).toNat
    if 16 * 2 ^ 149 ≤ m * 2 ^ (e + 149).toNat then f32.signed s (f32.roundTo .rne false .one)
    else if 2 ^ 137 ≤ m * 2 ^ (e + 149).toNat then
      let u := fxExpNeg (2 * fxOf m e)
      withinUlps s ((fxOne - u) * fxOne / (fxOne + u)) (-200) v
    else -- below 2^−12: a − a³/3 + 2a⁵/15 − 17a⁷/315, over a common denominator
      let a2 := fxOf (m * m) (2 * e)
      let c := fxOne - a2 / 3 - 1 + 2 * (a2 * a2 / fxOne) / 15 - 17 * (a2 * a2 / fxOne * a2 / fxOne) / 315
      withinUlps s (m * c) (e - 200) v

end Sys2Proof.Machine
end

