-- ==== Sys2Proof/Machine/Fp.lean ====
section
/-! DEFINITION. Class 3 and class 4: FP32, packed 16-bit and FP64 instructions (R145 to R149). -/

namespace Sys2Proof.Machine

/-! ## Elements of class 3 -/

def fmtOf : PFmt → Fmt
  | .f32 => Machine.f32
  | .f16x2 => Machine.f16
  | .bf16x2 => Machine.bf16

/-- Element `k` of a register (R145). -/
def elemOf (p : PFmt) (w : Word32) (k : Nat) : Nat :=
  match p with
  | .f32 => w.toNat
  | _ => (w.extractLsb' (16 * k) 16).toNat

/-- A register from its elements. -/
def buildOf (p : PFmt) (f : Nat → Nat) : Word32 :=
  match p with
  | .f32 => BitVec.ofNat 32 (f 0)
  | _ => BitVec.ofNat 16 (f 1) ++ BitVec.ofNat 16 (f 0)

/-- An operand after its negate bit and FTZ (R132, R133). -/
def Fmt.operand (f : Fmt) (ftz neg : Bool) (w : Nat) : Nat := f.flush ftz (f.negIf neg w)

/-- A two-source instruction on every element (R146). -/
def applyBin (o : FBin) (op : Fmt → Nat → Nat → Nat) (a b : Word32) : Word32 :=
  let f := fmtOf o.fmt
  buildOf o.fmt fun k =>
    f.flush o.ftz (op f (f.operand o.ftz o.na (elemOf o.fmt a k)) (f.operand o.ftz o.nb (elemOf o.fmt b k)))

def fbinStep (o : FBin) (op : Fmt → Nat → Nat → Nat) (s : State) : Res :=
  aluStep s o.d false false o.g fun i l => (applyBin o op (i.reg32 o.a l) (i.srcF o.b l)).setWidth 64

def addWord (r : Rnd) (f : Fmt) (a b : Nat) : Nat := f.roundTo r false ((f.value a).add r (f.value b))
def mulWord (r : Rnd) (f : Fmt) (a b : Nat) : Nat := f.roundTo r false ((f.value a).mul (f.value b))
def fmaWord (r : Rnd) (f : Fmt) (a b c : Nat) : Nat :=
  f.roundTo r false (((f.value a).mul (f.value b)).add r (f.value c))
def divWord (r : Rnd) (f : Fmt) (a b : Nat) : Nat :=
  let q := (f.value a).div (f.value b)
  f.roundTo r false q.1 q.2
def rcpWord (r : Rnd) (f : Fmt) (a : Nat) : Nat :=
  let q := FVal.one.div (f.value a)
  f.roundTo r false q.1 q.2
def sqrtWord (r : Rnd) (f : Fmt) (a : Nat) : Nat :=
  let q := (f.value a).sqrt
  f.roundTo r false q.1 q.2

/-- RSQ: exact when it can be, otherwise one of the two neighbours (R148). -/
def rsqWord (f : Fmt) (up : Bool) (a : Nat) : Nat :=
  let q := (f.value a).rsqrt
  f.roundTo (if up then .ru else .rd) false q.1 q.2

/-! ## Class 3 -/

/-- FADD (R146). -/
def execFadd (o : FBin) (s : State) : Res := fbinStep o (addWord o.rnd) s
/-- FMUL (R146). -/
def execFmul (o : FBin) (s : State) : Res := fbinStep o (mulWord o.rnd) s

/-- FFMA (R146). -/
def execFfma (o : FTri) (s : State) : Res :=
  aluStep s o.d false false o.g fun i l =>
    let f := fmtOf o.fmt
    let el := fun (n : Bool) (r : Reg) (k : Nat) => f.operand o.ftz n (elemOf o.fmt (i.reg32 r l) k)
    (buildOf o.fmt fun k => f.flush o.ftz (fmaWord o.rnd f (el o.na o.a k) (el o.nb o.b k) (el o.nc o.c k))).setWidth 64

/-- FMIN (R135, R146). -/
def execFmin (o : FBin) (s : State) : Res := fbinStep o (fun f => f.minMax false) s
/-- FMAX (R135, R146). -/
def execFmax (o : FBin) (s : State) : Res := fbinStep o (fun f => f.minMax true) s

/-- FDIV: long-latency (R102, R146). -/
def execFdiv (o : FBin) (s : State) : Res :=
  longStep s o.d false false o.g fun i l => (applyBin o (divWord o.rnd) (i.reg32 o.a l) (i.srcF o.b l)).setWidth 64

/-- FSET (R147). -/
def execFset (o : FSetOp) (s : State) : Res :=
  predStep s o.pd o.g fun i l =>
    Machine.f32.compare o.cmp.toNat (Machine.f32.operand o.ftz o.na (i.reg32 o.a l).toNat)
      (Machine.f32.operand o.ftz false (i.srcF o.b l).toNat)

/-- A one-source instruction on every element. -/
def applyUn (o : FUn) (op : Fmt → Nat → Nat) (a : Word32) : Word32 :=
  let f := fmtOf o.fmt
  buildOf o.fmt fun k => op f (f.operand o.ftz o.na (elemOf o.fmt a k))

/-- FCLASS: under FTZ the class of the flushed operand (R132, R147). -/
def execFclass (o : FUn) (s : State) : Res :=
  aluStep s o.d false false o.g fun i l => (applyUn o Fmt.classOf (i.reg32 o.a l)).setWidth 64

/-- FRND's result (R147). -/
def rndWord (r : Rnd) (f : Fmt) (a : Nat) : Nat := f.roundTo .rne false ((f.value a).integral r)

/-- FRND (R147). -/
def execFrnd (o : FUn) (s : State) : Res :=
  aluStep s o.d false false o.g fun i l =>
    (applyUn o (fun f a => f.flush o.ftz (rndWord o.rnd f a)) (i.reg32 o.a l)).setWidth 64

/-- FSCALE's result: k is B truncated and clamped; a NaN B gives NaN, an infinite B the clamp's end (R147). -/
def scaleWord (r : Rnd) (f : Fmt) (lim : Int) (a b : Nat) : Nat :=
  match f.value b with
  | .nan => f.nan
  | .inf sg => f.roundTo r false ((f.value a).scale (if sg then -lim else lim))
  | x => f.roundTo r false ((f.value a).scale (clampInt (-lim) lim ((x.toInt? .rz).getD 0)))

/-- FSCALE (R147). -/
def execFscale (o : FScaleOp) (s : State) : Res :=
  aluStep s o.d false false o.g fun i l =>
    let f := Machine.f32
    BitVec.ofNat 64 (f.flush o.ftz (scaleWord o.rnd f 1024 (f.operand o.ftz o.na (i.reg32 o.a l).toNat)
      (f.operand o.ftz false (i.srcF o.b l).toNat)))

/-- A special function: long-latency, FTZ on operand and result (R132, R148). -/
def specialStep (o : FUn) (op : Fmt → Nat → Nat) (s : State) : Res :=
  longStep s o.d false false o.g fun i l =>
    (applyUn o (fun f a => f.flush o.ftz (op f a)) (i.reg32 o.a l)).setWidth 64

/-- A function of binary32 on an element: converted exactly, applied, and rounded with RNE (R148). -/
def viaF32 (g : Word32 → Nat) (f : Fmt) (a : Nat) : Nat :=
  f.roundTo .rne false (Machine.f32.value (g (BitVec.ofNat 32 (Machine.f32.roundTo .rne false (f.value a)))))

/-- RCP: correctly rounded (R148). -/
def execRcp (o : FUn) (s : State) : Res := specialStep o (rcpWord o.rnd) s

/-- RSQ (R148). -/
def execRsq (o : FUn) (s : State) : Res :=
  specialStep o (viaF32 fun x => rsqWord Machine.f32 (Config.rsqUp x) x.toNat) s

/-- SQRT: correctly rounded (R148). -/
def execSqrt (o : FUn) (s : State) : Res := specialStep o (sqrtWord o.rnd) s
/-- EXP2 (R148). -/
def execExp2 (o : FUn) (s : State) : Res := specialStep o (viaF32 expTwo) s
/-- LOG2 (R148). -/
def execLog2 (o : FUn) (s : State) : Res := specialStep o (viaF32 logTwo) s
/-- SIN (R148). -/
def execSin (o : FUn) (s : State) : Res := specialStep o (viaF32 (trig false)) s
/-- COS (R148). -/
def execCos (o : FUn) (s : State) : Res := specialStep o (viaF32 (trig true)) s
/-- TANH (R148). -/
def execTanh (o : FUn) (s : State) : Res := specialStep o (viaF32 tanhOf) s

/-! ## Class 4 (R149) -/

def Issuer.dblA (i : Issuer) (r : Reg) (neg : Bool) (l : Nat) : Nat := Machine.f64.negIf neg (i.reg64 r l).toNat

/-- Operands of a two-source class 4 instruction. -/
def applyDbl (o : DBin) (i : Issuer) (l : Nat) (op : Nat → Nat → Nat) : Word64 :=
  BitVec.ofNat 64 (op (i.dblA o.a o.na l) (Machine.f64.negIf o.nb (i.srcD o.b l).toNat))

def dbinStep (o : DBin) (op : Nat → Nat → Nat) (s : State) : Res :=
  aluStep s o.d true false o.g fun i l => applyDbl o i l op

/-- DADD (R149). -/
def execDadd (o : DBin) (s : State) : Res := dbinStep o (addWord o.rnd f64) s
/-- DMUL (R149). -/
def execDmul (o : DBin) (s : State) : Res := dbinStep o (mulWord o.rnd f64) s

/-- DFMA (R149). -/
def execDfma (o : DTri) (s : State) : Res :=
  aluStep s o.d true false o.g fun i l =>
    BitVec.ofNat 64 (fmaWord o.rnd f64 (i.dblA o.a o.na l) (i.dblA o.b o.nb l) (i.dblA o.c o.nc l))

/-- DMIN (R149). -/
def execDmin (o : DBin) (s : State) : Res := dbinStep o (f64.minMax false) s
/-- DMAX (R149). -/
def execDmax (o : DBin) (s : State) : Res := dbinStep o (f64.minMax true) s

/-- DSET (R149). -/
def execDset (o : FSetOp) (s : State) : Res :=
  predStep s o.pd o.g fun i l => f64.compare o.cmp.toNat (i.dblA o.a o.na l) (i.srcD o.b l).toNat

/-- DCLASS: D is one 32-bit register (R149). -/
def execDclass (o : DUn) (s : State) : Res :=
  aluStep s o.d false false o.g fun i l => BitVec.ofNat 64 (f64.classOf (i.dblA o.a o.na l))

/-- DFRND (R149). -/
def execDfrnd (o : DUn) (s : State) : Res :=
  aluStep s o.d true false o.g fun i l => BitVec.ofNat 64 (rndWord o.rnd f64 (i.dblA o.a o.na l))

/-- DSCALE: k clamped to ±4,096 (R149). -/
def execDscale (o : DBin) (s : State) : Res := dbinStep o (scaleWord o.rnd f64 4096) s

def dunStep (o : DUn) (op : Nat → Nat) (s : State) : Res :=
  longStep s o.d true false o.g fun i l => BitVec.ofNat 64 (op (i.dblA o.a o.na l))

/-- DRCP (R149). -/
def execDrcp (o : DUn) (s : State) : Res := dunStep o (rcpWord o.rnd f64) s
/-- DRSQ (R149). -/
def execDrsq (o : DUn) (s : State) : Res :=
  dunStep o (fun a => rsqWord f64 (Config.drsqUp (BitVec.ofNat 64 a)) a) s
/-- DSQRT (R149). -/
def execDsqrt (o : DUn) (s : State) : Res := dunStep o (sqrtWord o.rnd f64) s
/-- DDIV: long-latency (R149). -/
def execDdiv (o : DBin) (s : State) : Res :=
  longStep s o.d true false o.g fun i l => applyDbl o i l (divWord o.rnd f64)

end Sys2Proof.Machine
end

