-- ==== Sys2Proof/Machine/Access.lean ====
section
/-! DEFINITION. How a memory instruction reaches its bytes: addresses and checks (R155 to R159, R181), the L1
(R168 to R170), requests to homes and to other cores' scratchpads (R173, R240 to R247), and releases. -/

namespace Sys2Proof.Machine

/-! ## Addresses (R156, R157, R27) -/

/-- Where a piece of a lane's access lies. -/
inductive Loc where
  | mem (pa : Nat) (leaf : Leaf)
  | scr (inst off : Nat)
  deriving DecidableEq, Repr

/-- A contiguous piece: `va` is the lane's address of it, and `off` its place in the lane's value. -/
structure Piece where
  loc : Loc
  va  : Nat
  off : Nat
  len : Nat
  deriving DecidableEq, Repr

/-- A cause one lane's check raises. -/
structure LaneFault where
  cause  : Cause
  replay : Bool
  fault  : Option MemFault
  va     : Nat
  deriving DecidableEq, Repr

/-- The effective address of R156; `unit` scales the displacement. -/
def Issuer.ea (i : Issuer) (base : BitVec 6) (idx : BitVec 8) (form : MemForm) (unit lane : Nat) : Nat :=
  let x : Word64 := match form with
    | .f true => i.vec64 lane idx
    | _ => (i.vec lane idx).signExtend 64
  let dp : Word64 := match form with
    | .fi disp => disp.signExtend 64 * BitVec.ofNat 64 unit
    | .f _ => 0
  (i.sca base + x + dp).toNat

/-- The address of private offset `o` of a lane (R27). -/
def privAddr (l : Launch) (team group lane o : Nat) : Nat :=
  l.pbase + (team * l.ngroup + group) * 32 * l.psize + o / 4 * 128 + 4 * lane + o % 4

/-- A team whose scratchpad still stands (R347). -/
def Team.scrLive (t : Team) : Bool :=
  match t.state with
  | .retiring r => decide (r.step < 7)
  | _ => true

/-- A team whose scratchpad is in its save record: saved, or placed again and not yet restored (R339, R342). -/
def Team.away (t : Team) : Bool := t.state == .saved || (t.record != 0 && (t.state matches .placed _))

/-- The team of an instance is away. -/
def Dev.isAway (d : Dev) (inst : Nat) : Bool := (d.team? inst).any (·.away)

def Launch.per (l : Launch) : Nat := l.clw * l.clh

/-- The cluster's team at a position (R25, R157). -/
def Dev.clusterTeam? (d : Dev) (t : Team) (per pos : Nat) : Option Team :=
  d.teams.find? fun x => x.grid == t.grid && x.num == t.num / per * per + pos && x.scrLive

/-- A scratchpad address's team and offset for `.C` (R157). -/
def Dev.clusterSpot (d : Dev) (i : Issuer) (ea size : Nat) : Option (Nat × Nat) :=
  let l := i.grid.launch
  if 2 ^ 26 ≤ ea ∨ l.per ≤ ea / 2 ^ 22 ∨ l.scr * 16384 < ea % 2 ^ 22 + size then none
  else (d.clusterTeam? i.team l.per (ea / 2 ^ 22)).map fun t => (t.inst, ea % 2 ^ 22)

/-- The pieces of an access before translation, or none for a PERM of R155 to R157. -/
inductive Spot where
  | va (a off len : Nat)
  | scr (inst a off len : Nat)
  deriving DecidableEq, Repr

def Dev.spots (d : Dev) (i : Issuer) (space : Space) (store : Bool) (size lane ea : Nat) : Option (List Spot) :=
  let l := i.grid.launch
  match space with
  | .g => if 2 ^ 48 < ea + size then none else some [.va ea 0 size]
  | .s => if l.scr * 16384 < ea + size then none else some [.scr i.ref.team ea 0 size]
  | .c => (d.clusterSpot i ea size).map fun (t, o) => [.scr t o 0 size]
  | .p => if l.psize < ea + size then none
          else some ((List.range ((size + 3) / 4)).map fun k =>
            .va (privAddr l i.team.num i.ref.group lane (ea + 4 * k)) (4 * k) (min 4 size))
  | .k => if store ∨ l.csize * 256 < ea + size then none else some [.va (l.cbase + ea) 0 size]

/-- Translates the pieces of one lane; `reads` checks for poisoned data (R181). -/
def Dev.translateSpots (d : Dev) (i : Issuer) (need : Need) (reads : Bool) : List Spot → Dev × Except LaneFault (List Piece)
  | [] => (d, .ok [])
  | .scr t a off len :: rest =>
    match d.translateSpots i need reads rest with
    | (d, .ok ps) => (d, .ok (⟨.scr t a, a, off, len⟩ :: ps))
    | r => r
  | .va a off len :: rest =>
    match d.translate i.core i.grid.pid i.grid.asid a need with
    | (d, .fault f) => (d, .error ⟨f.cause, f.replay, some f, a⟩)
    | (d, .ecc) => (d, .error ⟨.ecc, false, none, a⟩)
    | (d, .ok l) =>
      if d.unreachable (l.paOf a) then (d, .error ⟨.perm, false, none, a⟩)
      else if reads && d.poisoned (l.paOf a) len then (d, .error ⟨.ecc, false, none, a⟩)
      else match d.translateSpots i need reads rest with
        | (d, .ok ps) => (d, .ok (⟨.mem (l.paOf a) l, a, off, len⟩ :: ps))
        | r => r

/-- What an access asks of each lane's check. -/
structure Ask where
  space : Space
  size  : Nat
  align : Bool
  store : Bool
  need  : Need
  reads : Bool

/-- One lane's checks, alignment first (R158, R325). -/
def Dev.checkLane (d : Dev) (i : Issuer) (a : Ask) (lane ea : Nat) : Dev × Except LaneFault (List Piece) :=
  if a.align && ea % a.size != 0 then (d, .error ⟨.misalign, false, none, ea⟩)
  else match d.spots i a.space a.store a.size lane ea with
    | none => (d, .error ⟨.perm, false, none, ea⟩)
    | some sp => d.translateSpots i a.need a.reads sp

/-- Every lane's check, in ascending order (R181, R349). -/
def Dev.checkLanes (d : Dev) (i : Issuer) (a : Ask) : List (Nat × Nat) → Dev × List (Nat × Except LaneFault (List Piece))
  | [] => (d, [])
  | (lane, ea) :: rest =>
    let (d, r) := d.checkLane i a lane ea
    let (d, rs) := d.checkLanes i a rest
    (d, (lane, r) :: rs)

def failures (rs : List (Nat × Except LaneFault (List Piece))) : List (Nat × LaneFault) :=
  rs.filterMap fun (l, r) => match r with
    | .error f => some (l, f)
    | .ok _ => none

def passes (rs : List (Nat × Except LaneFault (List Piece))) : List (Nat × List Piece) :=
  rs.filterMap fun (l, r) => match r with
    | .error _ => none
    | .ok p => some (l, p)

/-! ## Reporting (R325) -/

/-- The rank of a cause; a PERM that is not replayable stands above one that is. -/
def causeRank : Cause → Bool → Nat
  | .illop, _ => 0 | .illconv, _ => 1 | .misalign, _ => 2 | .xlate, _ => 3 | .perm, false => 4 | .perm, true => 5
  | .ecc, _ => 6 | .stackspill, _ => 7 | .retempty, _ => 8 | .swtrap, _ => 9 | .bkpt, _ => 10 | .regionloop, _ => 11

/-- The lanes that raise the winning cause. -/
def winners (fs : List (Nat × LaneFault)) : List (Nat × LaneFault) :=
  let best := fs.foldl (fun m (_, f) => min m (causeRank f.cause f.replay)) 12
  fs.filter fun (_, f) => causeRank f.cause f.replay == best

/-- The faults of one instruction, one per key, ordered by the lowest lane of each (R316, R319). -/
def keyedFaults : List (Nat × LaneFault) → List (MemFault × BitVec 32)
  | [] => []
  | (l, f) :: rest => match f.fault with
    | none => keyedFaults rest
    | some m =>
      let tail := keyedFaults rest
      match tail.find? (fun x => x.1.key == m.key) with
      | some (_, ls) => (m, ls ||| (1#32 <<< l)) :: tail.filter fun x => x.1.key != m.key
      | none => (m, 1#32 <<< l) :: tail

/-- What a set of lane causes does: the group parks, traps or is killed (R324 to R327). -/
def Dev.failLanes (d : Dev) (i : Issuer) (src : Origin) (pc : BitVec 48) (fs : List (Nat × LaneFault)) : Dev :=
  let ws := winners fs
  match ws with
  | [] => d
  | (_, f) :: _ =>
    if f.cause = .xlate ∨ (f.cause = .perm ∧ f.replay) then
      d.park i (keyedFaults ws) { src, ctx := 0, core := i.core, grp := i.ref.group, pc }
    else d.trap i { cause := f.cause, sub := 0, mask := laneMask (ws.map (·.1)), src, info := f.va % 2 ^ 48, pc
                    lvl := (f.fault.map (·.lvl)).getD 0, wr := (f.fault.map (·.wr)).getD false }

/-- A cause of an instruction that performs once for its split: it names the leader lane alone (R105), or no lane
when the split has no participant. -/
def Dev.failOnce (d : Dev) (i : Issuer) (gd : Guard) (f : LaneFault) : Dev :=
  d.failLanes i .instruction i.pc [((i.on gd).headD 64, f)]

/-! ## The L1 (R168 to R170) -/

def Core.sb? (c : Core) (line : Nat) : Option Superblock := c.l1.find? (·.tag == line / 4)

def Core.line? (c : Core) (line : Nat) : Option L1Line := (c.sb? line).bind fun s => s.lines.getD (line % 4) none

def Core.modSb (c : Core) (line : Nat) (f : Superblock → Superblock) : Core :=
  { c with l1 := c.l1.map fun s => if s.tag = line / 4 then f s else s }

def Core.setLine (c : Core) (line : Nat) (l : Option L1Line) : Core :=
  c.modSb line fun s => { s with lines := listSet s.lines (line % 4) fun _ => l }

/-- A dirty line is written to memory. -/
def Dev.storeBack (d : Dev) (line : Nat) (l : L1Line) : Dev :=
  if l.dirty then d.homeWrite true l.key (line * 128) ((List.range 128).map l.data.byte) else d

/-- The victim of a set: never locked, `.STR` first, then the least recently used (R168). -/
def victim? (set : List Superblock) : Option Superblock :=
  let free := set.filter fun s => !s.locked
  let pool := if free.any (·.str) then free.filter (·.str) else free
  match pool with
  | [] => none
  | s :: t => some (t.foldl (fun a b => if b.used < a.used then b else a) s)

/-- Evicts a superblock, its dirty lines written first. -/
def Dev.evict (d : Dev) (core : Nat) (s : Superblock) : Dev :=
  let d := s.lines.zipIdx.foldl (fun d (l, k) => match l with
    | some l => d.storeBack (s.tag * 4 + k) l
    | none => d) d
  d.modCore core fun c => { c with l1 := c.l1.filter fun x => x.tag != s.tag }

/-- A superblock for a line, allocated if absent (R168). -/
def Dev.allocSb (d : Dev) (core line : Nat) (str : Bool) : Dev :=
  match (d.core core).sb? line with
  | some _ => d.modCore core fun c => c.modSb line fun s => { s with used := d.fresh, str := s.str && str }
  | none =>
    let set := (d.core core).l1.filter fun s => s.tag % 32 == line / 4 % 32
    let d := if 16 ≤ set.length then (match victim? set with | some v => d.evict core v | none => d) else d
    d.modCore core fun c => { c with l1 :=
      { tag := line / 4, locked := false, str, used := d.fresh, lines := [none, none, none, none] } :: c.l1 }

/-- Bytes of an L1 line. -/
def L1Line.bytes (l : L1Line) (off n : Nat) : List Byte := (List.range n).map fun k => l.data.byte (off + k)

/-- Bytes replaced in a line. -/
def Line.put (x : Line) (off : Nat) (bs : List Byte) : Line :=
  packLine ((List.range 128).map fun k => if off ≤ k ∧ k < off + bs.length then bs.getD (k - off) 0 else Line.byte x k)

/-- The core's own copy after a store of the core performs, and its loads already on the way (R167, R240). -/
def Dev.refreshOwn (d : Dev) (core line : Nat) : Dev :=
  let d := match (d.core core).line? line with
    | some l => if l.owner.isNone then
        d.modCore core fun c => c.setLine line (some { l with data := d.rdLine l.key line, asOf := d.fresh }) else d
    | none => d
  { d with reqs := d.reqs.map fun r =>
      if r.core = core ∧ r.line = line ∧ r.target.isNone ∧ r.kind = .load then { r with stale := true } else r }

/-- A team's dirty private line that stands in the L1 of a core where the team was before a save is handed over: a lane
sees its own stores (R158), and nothing else writes the line back (R170). DESIGN CHOICE (log 41). -/
def Dev.takePriv (d : Dev) (core inst line : Nat) (key : BitVec 8) : Dev × Option L1Line :=
  match d.cores.findSome? fun (c, x) => if c = core then none else match x.line? line with
      | some l => if l.owner = some inst ∧ l.key = key then some (c, l) else none
      | none => none with
  | some (c, l) => (d.modCore c fun x => x.setLine line none, some l)
  | none => (d, none)

/-- The core holds the line as a private one. -/
def Dev.privHit? (d : Dev) (core line : Nat) (key : BitVec 8) : Option L1Line :=
  ((d.core core).line? line).filter fun l => l.owner.isSome && l.key == key

/-- A private line in the L1, filled when absent (R169). -/
def Dev.privLine (d : Dev) (core inst line : Nat) (key : BitVec 8) : Dev × L1Line :=
  match d.privHit? core line key with
  | some l => (d.allocSb core line false, l)
  | none =>
    let d := match (d.core core).line? line with | some l => d.storeBack line l | none => d
    let (d, old) := d.takePriv core inst line key
    let d := d.allocSb core line false
    let l := old.getD { deadline := 0, asOf := d.fresh, dirty := false, owner := some inst, key, data := d.rdLine key line }
    (d.modCore core fun c => c.setLine line (some l), l)

def Dev.privRead (d : Dev) (core inst : Nat) (leaf : Leaf) (pa n : Nat) : Dev × List Byte :=
  let (d, l) := d.privLine core inst (pa / 128) leaf.key
  (d, l.bytes (pa % 128) n)

def Dev.privWrite (d : Dev) (core inst : Nat) (leaf : Leaf) (pa : Nat) (bs : List Byte) : Dev :=
  let (d, l) := d.privLine core inst (pa / 128) leaf.key
  d.modCore core fun c => c.setLine (pa / 128) (some { l with dirty := true, data := Line.put l.data (pa % 128) bs })

/-! ## Requests -/

/-- An earlier request of the same split that must perform first: one line's (R242), one page's on a device page
(R166), or overlapping bytes in a scratchpad (R158). A WAITA that its home watches has performed. -/
def Req.before (e r : Req) : Bool :=
  decide (e.id < r.id) && !e.done && e.watch == 0 && e.by_ == r.by_ && e.mask &&& r.mask != 0 &&
  match e.target, r.target with
  | none, none => e.line == r.line || (e.mt == .device && r.mt == .device && e.page == r.page)
  | some a, some b => a == b && e.parts.any fun p => r.parts.any fun q =>
      decide (p.pa < q.pa + q.size) && decide (q.pa < p.pa + p.size)
  | _, _ => false

/-- A request of the same split on a line is outstanding, so its later access may not hit the L1. -/
def Dev.lineBusy (d : Dev) (i : Issuer) (line : Nat) : Bool :=
  d.reqs.any fun r => r.by_ == i.ref && r.mask &&& i.sp.mask != 0 && r.target.isNone && r.line == line && !r.done

/-- A request of the same split on the team's own scratchpad is outstanding. -/
def Dev.scrBusy (d : Dev) (i : Issuer) : Bool :=
  d.reqs.any fun r => r.by_ == i.ref && r.mask &&& i.sp.mask != 0 && r.target == some i.ref.team

/-- What a request carries, beside its parts; `l1` when a load's line may be held in the L1. -/
structure ReqAsk where
  kind   : ReqKind
  pol    : Pol
  acq    : Bool := false
  owed   : Option Nat := none
  dst    : Option (Bool × Nat) := none
  signed : Bool := false
  held   : Bool := false
  rel    : Option Scope := none
  soft   : Option (BitVec 3) := none
  l1     : Bool := true

/-- Where a request goes: a scratchpad, or a line under a page. -/
structure ReqTo where
  target : Option Nat
  line   : Nat
  page   : Nat
  mt     : MemType
  key    : BitVec 8
  deriving DecidableEq

def Dev.addReq (d : Dev) (i : Issuer) (a : ReqAsk) (t : ReqTo) (parts : List Part) : Dev :=
  let (id, d) := d.newId
  { d with reqs := d.reqs ++ [{
      id, by_ := i.ref, mask := i.sp.mask, core := i.core, pid := i.grid.pid, asid := i.grid.asid, kind := a.kind,
      target := t.target, line := t.line, page := t.page, seat := .way, mt := t.mt, key := t.key, pol := a.pol
      alloc := a.l1 && a.kind == .load && t.mt == .cacheable && (a.pol == .ca || a.pol == .str)
      acq := a.acq, pc := i.pc, leftAt := d.cycle, owed := a.owed, signed := a.signed, done := false, settle := 0, dst := a.dst
      stale := false, held := a.held, rel := a.rel, soft := a.soft, since := i.sp.since, watch := 0, parts }] }

/-- Where a part in memory goes. -/
def Leaf.reqTo (l : Leaf) (pa : Nat) : ReqTo := { target := none, line := pa / 128, page := l.pa, mt := l.mt, key := l.key }

/-- Requests for parts in memory, one per line; on a device page one per part (R166). -/
def Dev.sendMem (d : Dev) (i : Issuer) (a : ReqAsk) (ps : List (Part × Leaf)) : Dev :=
  ((ps.map fun (p, l) => l.reqTo p.pa).eraseDups).foldl (fun d t =>
    let mine := (ps.filter fun (p, l) => decide (l.reqTo p.pa = t)).map (·.1)
    if t.mt = .device then mine.foldl (fun d p => d.addReq i a t [p]) d
    else d.addReq i a t mine) d

/-- Requests for parts in scratchpads, one per team. -/
def Dev.sendScr (d : Dev) (i : Issuer) (a : ReqAsk) (ps : List (Part × Nat)) : Dev :=
  (ps.map (·.2)).eraseDups.foldl (fun d t =>
    d.addReq i a { target := some t, line := 0, page := 0, mt := .uncached, key := 0 } ((ps.filter fun x => x.2 == t).map (·.1))) d

/-- The ids of the requests added since `n`. -/
def Dev.reqsFrom (d : Dev) (n : Nat) : List Nat := (d.reqs.filter fun r => decide (n ≤ r.id)).map (·.id)

/-! ## Delivering a value (R180) -/

/-- A loaded value extended to 32 bits. -/
def extend32 (signed : Bool) (n v : Nat) : Word32 :=
  if signed && n == 1 then (BitVec.ofNat 8 v).signExtend 32
  else if signed && n == 2 then (BitVec.ofNat 16 v).signExtend 32
  else BitVec.ofNat 32 v

/-- The places a piece's bytes fill, with their values. -/
def placed (dst : Option (Bool × Nat)) (signed : Bool) (slices : List Nat) (lane off : Nat) (bs : List Byte) :
    List (Dest × Word64) :=
  match dst with
  | none => []
  | some (true, n) =>
    let v := bytesNat bs
    let x : Word64 := if bs.length < 4 then (if signed then (extend32 true bs.length v).signExtend 64 else BitVec.ofNat 64 v)
      else BitVec.ofNat 64 v
    if n = 63 then [] else slices.map fun k => (Dest.s k n, x <<< (8 * off))
  | some (false, n) =>
    if bs.length < 4 then (if n = 255 then [] else [(Dest.v lane n, (extend32 signed bs.length (bytesNat bs)).setWidth 64)])
    else (List.range (bs.length / 4)).filterMap fun j =>
      let r := n + off / 4 + j
      if r = 255 then none else some (Dest.v lane r, BitVec.ofNat 64 (bytesNat ((bs.drop (4 * j)).take 4)))

/-- Values arrive for an operation's places; a scalar may come in two halves (R159). -/
def Owed.fill (o : Owed) (vals : List (Dest × Word64)) : Owed :=
  { o with items := o.items.map fun it => match vals.filter (fun v => decide (v.1 = it.dest)) with
      | [] => it
      | v :: vs => { it with value := some (match it.dest with
          | .s .. => (v :: vs).foldl (fun x w => x ||| w.2) (it.value.getD 0)
          | _ => v.2) } }

/-- A request has answered its operation. -/
def Dev.answer (d : Dev) (r : Req) (vals : List (Dest × Word64)) (settle : Option Nat) : Dev :=
  match r.owed with
  | none => d
  | some op => d.modGroup r.by_ fun g => { g with owed := g.owed.map fun o =>
      if o.id = op then
        { o.fill vals with waits := o.waits.filter (· != r.id)
                           settle := match settle, o.settle with | some a, some b => some (max a b) | a, none => a | none, b => b }
      else o }

/-! ## Releases (R246, R247) -/

/-- The settle duration of a line's expiry, in cycles: whole units of 16 (R241). -/
def Dev.settleFor (d : Dev) (mt : MemType) (expiry : Nat) : Nat :=
  if mt = .cacheable then (expiry - d.cycle + 15) / 16 * 16 else 0

/-- Sends the flush markers of a release and empties the destination set (R247). -/
def Group.sendMarkers (g : Group) (before : Nat) : Group :=
  { g with markers := g.markers ++ g.posted.map fun p => { place := p.place, before, expiry := p.expiry, va := p.va, pc := p.pc }, posted := [] }

/-- A request is a load or a returning atomic (R246); a prefetch has no parts and is neither. -/
def Req.returns (r : Req) : Bool := (r.kind == .load && !r.parts.isEmpty) || r.owed.isSome || r.watch != 0

/-- The loads and returning atomics of the group numbered below `n` have returned. -/
def Dev.loadsBack (d : Dev) (r : GroupRef) (n : Nat) : Bool :=
  (d.reqs.all fun q => !(q.by_ == r && decide (q.id < n) && q.returns && !q.done)) &&
  match d.group? r with
  | some g => g.owed.all fun o => !(o.memory && decide (o.id < n))
  | none => true

/-- The answered kinds of store numbered below `n` have been answered. -/
def Dev.storesBack (d : Dev) (r : GroupRef) (n : Nat) : Bool :=
  d.reqs.all fun q => !(q.by_ == r && decide (q.id < n) && !q.returns && q.kind != .load && q.postedTo.isNone)

/-- R246: the release of scope `sc`, whose earlier requests are those below `n`, may perform. -/
def Dev.releaseDone (d : Dev) (r : GroupRef) (g : Group) (n : Nat) (sc : Scope) : Bool :=
  d.loadsBack r n && d.storesBack r n && g.markers.all (fun m => decide (n < m.before)) &&
    (sc == .core || (match g.settle with | some t => decide (t < d.cycle) | none => true))

/-- Starts a release of the split: markers go out, and it performs when `releaseDone` (R246). -/
def Group.startRelease (g : Group) (sp : Split) (before : Nat) (sc : Scope) : Group :=
  (g.sendMarkers before).modSplit sp.stamp fun x => { x with release := some (before, sc) }

/-- A wait of the group covers the asynchronous work that `covers` accepts: its global writes count as the group's own
earlier stores from here on, and their settle deadlines join the group's (R254). -/
def Dev.joinSettle (d : Dev) (g : Group) (covers : Unsettled → Bool) : Group :=
  (d.unsettled.filter fun u => covers u && decide (d.cycle < u.v.till)).foldl (fun g u =>
    (g.see d.cycle u.v).foldSettle (u.v.till + drift (u.v.till - d.cycle))) g

/-- The work covered by a wait on a barrier object: what arrives on it (R254, R259). -/
def Unsettled.arrivesOn (team off : Nat) (u : Unsettled) : Bool := u.obj == some (team, off)

/-- Asynchronous work of a group leaves versions that settle later. -/
def Dev.leaves (d : Dev) (by_ : GroupRef) (copy : Bool) (batch : Option (BitVec 32)) (obj : Option ArriveAt) (vs : List Version) :
    Dev :=
  { d with unsettled := (d.unsettled.filter fun u => decide (d.cycle < u.v.till)) ++
      vs.map fun v => { by_, copy, batch, obj := obj.map fun a => (a.team, a.off), v } }

end Sys2Proof.Machine
end

