-- ==== Sys2Proof/Machine/Loads.lean ====
section
/-! DEFINITION. Class 7: loads, stores, prefetch and cache control (R177 to R184). -/

namespace Sys2Proof.Machine

/-! ## Shared parts -/

def isAcq : MemOrd → Bool
  | .acq _ => true
  | _ => false

def relScope : MemOrd → Option Scope
  | .rel sc => some sc
  | _ => none

def widSigned : Wid → Bool
  | .s8 | .s16 => true
  | _ => false

/-- The live L1 copy a load may take its value from (R169, R167, R249, R251). -/
def Dev.hit? (d : Dev) (i : Issuer) (leaf : Leaf) (line : Nat) (pol : Pol) (acq : Bool) : Option L1Line :=
  if leaf.mt != .cacheable || acq || pol == .nl || d.lineBusy i line then none
  else match (d.core i.core).line? line with
    | some l => if l.owner.isNone && l.key == leaf.key && decide (d.cycle < l.deadline) && i.grp.mayRead i.sp.since line l.asOf
        then some l else none
    | none => none

/-- A load's pieces sorted by how they are served: values at once, with the lines that the L1 gave and their moments, and
parts for requests; `miss` are lines the L1 did not hold (R335). -/
structure Served where
  vals : List (Dest × Word64) := []
  mem  : List (Part × Leaf) := []
  scr  : List (Part × Nat) := []
  hits : List (Nat × Nat) := []
  miss : List Nat := []

def Served.add (x y : Served) : Served :=
  { vals := x.vals ++ y.vals, mem := x.mem ++ y.mem, scr := x.scr ++ y.scr, hits := x.hits ++ y.hits, miss := x.miss ++ y.miss }

/-- The instruction reaches a line under one key and type only, so that its participants read one version of it (R158). -/
def onePage (ls : List (Nat × List Piece)) (line : Nat) : Bool :=
  ((ls.flatMap (·.2)).filterMap fun p => match p.loc with
    | .mem pa leaf => if pa / 128 = line then some (leaf.key, leaf.mt) else none
    | .scr .. => none).eraseDups.length == 1

def Dev.servePiece (d : Dev) (i : Issuer) (priv : Bool) (pol : Pol) (acq : Bool) (dst : Option (Bool × Nat)) (signed : Bool)
    (alone : Nat → Bool) (lane : Nat) (p : Piece) : Dev × Served :=
  let slices := maskSlices i.sp.mask
  let part := fun (a : Nat) => { lane, va := p.va, pa := a, size := p.len, off := p.off, data := 0, cmp := 0 : Part }
  match p.loc with
  | .scr t a =>
    if t = i.ref.team ∧ !d.scrBusy i then
      (d, { vals := placed dst signed slices lane p.off (fgetBytes ((d.team? t).map (·.scr) |>.getD []) a p.len) })
    else (d, { scr := [(part a, t)] })
  | .mem pa leaf =>
    if priv && leaf.mt == .cacheable then
      let miss := if (d.privHit? i.core (pa / 128) leaf.key).isSome then [] else [pa / 128]
      let (d, bs) := d.privRead i.core i.ref.team leaf pa p.len
      (d, { vals := placed dst signed slices lane p.off bs, miss })
    else match (d.hit? i leaf (pa / 128) pol acq).filter fun _ => alone (pa / 128) with
      | some l =>
        (d.allocSb i.core (pa / 128) (pol == .str),
          { vals := placed dst signed slices lane p.off (l.bytes (pa % 128) p.len), hits := [(pa / 128, l.asOf)] })
      | none => (d, { mem := [(part pa, leaf)], miss := if leaf.mt = .cacheable then [pa / 128] else [] })

/-- Every lane's pieces served. -/
def Dev.serve (d : Dev) (i : Issuer) (priv : Bool) (pol : Pol) (acq : Bool) (dst : Option (Bool × Nat)) (signed : Bool)
    (ls : List (Nat × List Piece)) : Dev × Served :=
  (ls.flatMap fun (l, ps) => ps.map fun p => (l, p)).foldl (fun (d, sv) (l, p) =>
    let (d, x) := d.servePiece i priv pol acq dst signed (onePage ls) l p
    (d, sv.add x)) (d, {})

/-- The places a load's lanes owe: a run of registers, or a scalar in every slice of the split. -/
def Issuer.owedRun (i : Issuer) (dst : Bool × Nat) (size : Nat) (lanes : List Nat) : List OwedItem :=
  let one := fun (x : Dest) => { dest := x, value := none, contested := false : OwedItem }
  if dst.1 then (if dst.2 = 63 ∨ lanes.isEmpty then [] else (maskSlices i.sp.mask).map fun k => one (.s k dst.2))
  else lanes.flatMap fun l => (List.range ((size + 3) / 4)).filterMap fun j =>
    if dst.2 + j = 255 then none else some (one (.v l (dst.2 + j)))

/-- The rest of a load once its lanes have passed: requests leave, and the operation is owed (R74, R180, R248). -/
def Dev.loadLanes (d : Dev) (i : Issuer) (o : MemOp) (scalar : Bool) (soft : Option (BitVec 3)) (known : List OwedItem)
    (ls : List (Nat × List Piece)) : Dev :=
  let dst := (scalar, o.data.toNat)
  let acq := isAcq o.ord
  let (op, d) := d.newId
  let (d, sv) := d.serve i (o.space == .p) o.pol acq (some dst) (widSigned o.wid) ls
  let a : ReqAsk := { kind := .load, pol := o.pol, acq, owed := some op, dst := some dst, signed := widSigned o.wid, soft }
  let d := (d.sendMem i a sv.mem).sendScr i a sv.scr
  let ow : Owed := { id := op, flag := i.sp.flagFor true, slices := maskSlices i.sp.mask, memory := true
                     waits := d.reqsFrom op, settle := none
                     items := i.owedRun dst o.wid.bytes (ls.map (·.1)) ++ known }
  d.modGroup i.ref fun _ =>
    let g := (i.grp.advance i.sp false).owe i.sp.mask ow.flag (ow.fill sv.vals)
    let g := (sv.hits.foldl (fun g (l, t) => g.see d.cycle (d.version l t)) g).count 8 sv.miss.eraseDups.length
    if acq then g.modSplit i.sp.stamp fun x => { x with wait := .acquire d.nextId } else g

def loadAsk (o : MemOp) : Ask :=
  { space := o.space, size := o.wid.bytes, align := true, store := false, need := .r, reads := true }

def storeAsk (o : MemOp) : Ask :=
  { space := o.space, size := o.wid.bytes, align := true, store := true, need := .w, reads := false }

def Issuer.lanesEa (i : Issuer) (o : MemOp) (lanes : List Nat) : List (Nat × Nat) :=
  lanes.map fun l => (l, i.ea o.base o.idx o.form o.wid.bytes l)

/-- LD and LDU: every participant is checked before any performs (R181). -/
def Dev.load (d : Dev) (i : Issuer) (o : MemOp) (scalar : Bool) (lanes : List Nat) : Dev :=
  let (d, rs) := d.checkLanes i (loadAsk o) (i.lanesEa o lanes)
  match failures rs with
  | [] => d.loadLanes i o scalar none [] (passes rs)
  | fs => d.failLanes i .instruction i.pc fs

/-- LD (R179, R180). -/
def execLd (o : MemOp) (s : State) : Res := withIssuer s fun i d => d.load i o false (i.on o.g)

/-- LDU: once per split, through its leader lane (R180). -/
def execLdu (o : MemOp) (s : State) : Res := withIssuer s fun i d => d.load i o true ((i.on o.g).take 1)

/-- The causes LDF and STF still raise (R181). -/
def hardFails (fs : List (Nat × LaneFault)) : List (Nat × LaneFault) :=
  fs.filter fun (_, f) => f.cause != .xlate && f.cause != .perm

/-- What a failing lane of LDF is owed: zero, and a false predicate; a passing lane a true one. -/
def Issuer.ldfItems (o : MemOp) (failed passed : List Nat) : List OwedItem :=
  let it := fun (x : Dest) (v : Word64) => { dest := x, value := some v, contested := false : OwedItem }
  let pr := fun (l : Nat) (v : Word64) => if o.pr = 7 then [] else [it (.p l o.pr.toNat) v]
  (failed.flatMap fun l => pr l 0 ++ (List.range o.wid.regs).filterMap fun j =>
    if o.data.toNat + j = 255 then none else some (it (.v l (o.data.toNat + j)) 0)) ++ passed.flatMap fun l => pr l 1

/-- LDF (R180, R181). -/
def execLdf (o : MemOp) (s : State) : Res :=
  withIssuer s fun i d =>
    let (d, rs) := d.checkLanes i (loadAsk o) (i.lanesEa o (i.on o.g))
    match hardFails (failures rs) with
    | [] => d.loadLanes i o false (some o.pr) (Issuer.ldfItems o ((failures rs).map (·.1)) ((passes rs).map (·.1))) (passes rs)
    | fs => d.failLanes i .instruction i.pc fs

/-! ## Stores -/

/-- The low bytes of a lane's data run (R180). -/
def Issuer.dataBytes (i : Issuer) (reg size lane : Nat) : List Byte :=
  ((List.range ((size + 3) / 4)).flatMap fun j => natBytes 4 (i.grp.readV i.fresh lane (reg + j)).toNat).take size

/-- One piece of a store: performed at once in the team's own scratchpad or a private line, or a part of a request. -/
def Dev.storePiece (d : Dev) (i : Issuer) (priv held : Bool) (lane : Nat) (bs : List Byte) (p : Piece) : Dev × Served :=
  let mine := (bs.drop p.off).take p.len
  let part := fun (a : Nat) =>
    { lane, va := p.va, pa := a, size := p.len, off := p.off, data := BitVec.ofNat 128 (bytesNat mine), cmp := 0 : Part }
  match p.loc with
  | .scr t a =>
    if t = i.ref.team ∧ !held ∧ !d.scrBusy i then
      (d.modTeam t fun x => { x with scr := fsetBytes x.scr a mine }, {})
    else (d, { scr := [(part a, t)] })
  | .mem pa leaf =>
    if priv && leaf.mt == .cacheable then
      (d.privWrite i.core i.ref.team leaf pa mine, {})
    else (d, { mem := [(part pa, leaf)] })

/-- The group notes where its new stores are posted (R247). -/
def Dev.notePosts (d : Dev) (r : GroupRef) (n : Nat) : Dev :=
  (d.reqs.filter fun q => decide (n ≤ q.id) && !q.held).foldl (fun d q => d.modGroup r (·.notePost q)) d

/-- The rest of a store once its lanes have passed. A release store is held until its release performs (R246). -/
def Dev.storeLanes (d : Dev) (i : Issuer) (o : MemOp) (soft : Option (BitVec 3)) (data : Nat → List Byte) (ls : List (Nat × List Piece)) : Dev :=
  let rel := relScope o.ord
  let n := d.nextId
  let (d, sv) := (ls.flatMap fun (l, ps) => ps.map fun p => (l, p)).foldl (fun (d, sv) (l, p) =>
    let (d, x) := Dev.storePiece d i (o.space == .p) rel.isSome l (data l) p
    (d, Served.add sv x)) (d, ({} : Served))
  let a : ReqAsk := { kind := .store, pol := o.pol, held := rel.isSome, rel, soft }
  let d := (d.sendMem i a sv.mem).sendScr i a sv.scr
  let d := d.modGroup i.ref fun _ =>
    let g := i.grp.advance i.sp rel.isSome
    match rel with
    | some sc => g.startRelease i.sp n sc
    | none => g
  d.notePosts i.ref n

def Dev.store (d : Dev) (i : Issuer) (o : MemOp) (data : Nat → List Byte) (lanes : List Nat) : Dev :=
  let (d, rs) := d.checkLanes i (storeAsk o) (i.lanesEa o lanes)
  match failures rs with
  | [] => d.storeLanes i o none data (passes rs)
  | fs => d.failLanes i .instruction i.pc fs

/-- ST (R179, R180). -/
def execSt (o : MemOp) (s : State) : Res :=
  withIssuer s fun i d => d.store i o (i.dataBytes o.data.toNat o.wid.bytes) (i.on o.g)

/-- STU: the leader's copy of the scalar, once per split (R180). -/
def execStu (o : MemOp) (s : State) : Res :=
  withIssuer s fun i d =>
    d.store i o (fun _ => natBytes o.wid.bytes (i.sca (o.data.setWidth 6)).toNat) ((i.on o.g).take 1)

/-- STF (R180, R181). -/
def execStf (o : MemOp) (s : State) : Res :=
  withIssuer s fun i d =>
    let (d, rs) := d.checkLanes i (storeAsk o) (i.lanesEa o (i.on o.g))
    match hardFails (failures rs) with
    | [] =>
      let d := d.storeLanes i o (some o.pr) (i.dataBytes o.data.toNat o.wid.bytes) (passes rs)
      d.modGroup i.ref fun g =>
        let g := (passes rs).foldl (fun g (l, _) => g.writeP l o.pr.toNat true) g
        (failures rs).foldl (fun g (l, _) => g.writeP l o.pr.toNat false) g
    | fs => d.failLanes i .instruction i.pc fs

/-! ## Prefetch (R183) -/

/-- The line of a translated address is asked for: into the levels named, and a private one into the L1 as such; a page
that is not cacheable, and one of a peer with no live port, drops the prefetch (R183). -/
def Dev.prefetchLine (d : Dev) (i : Issuer) (priv home : Bool) (pol : Pol) (l : Leaf) (a : Nat) : Dev :=
  if l.mt != .cacheable || d.unreachable (l.paOf a) then d
  else if priv && !home then (d.privLine i.core i.ref.team (l.paOf a / 128) l.key).1
  else d.addReq i { kind := .load, pol, l1 := !home } (l.reqTo (l.paOf a)) []

/-- One address of a prefetch; one that raises anything is dropped, and one the TLB misses waits for a walk. -/
def Dev.prefetchLane (d : Dev) (i : Issuer) (o : PrefOp) (lane : Nat) : Dev :=
  match d.spots i o.space false 1 lane (i.ea o.base o.idx o.form 1 lane) with
  | some [.va a _ _] =>
    match (d.core i.core).tlb.find? (fun l => l.covers i.grid.asid a && l.r) with
    | none => d.modDie i.die fun x => { x with walks := x.walks ++ [{
        by_ := i.ref, mask := i.sp.mask, priv := o.space == .p, pol := o.pol, home := o.home
        core := i.core, pid := i.grid.pid, asid := i.grid.asid, va := a }] }
    | some l => d.prefetchLine i (o.space == .p) o.home o.pol l a
  | _ => d

/-- PREF (R183). -/
def execPref (o : PrefOp) (s : State) : Res :=
  withIssuer s fun i d =>
    ((i.on o.g).foldl (fun d l => d.prefetchLane i o l) d).modGroup i.ref fun g => g.advance i.sp false

/-! ## Cache control (R184) -/

/-- The checked physical lines of CCTL's participants; `f` acts on one lane's line, with its leaf. -/
def cctlStep (o : CctlOp) (s : State) (f : Issuer → Nat → Nat → Leaf → Dev → Dev) : Res :=
  withIssuer s fun i d =>
    let a : Ask := { space := o.space, size := 1, align := false, store := false, need := .r, reads := false }
    let (d, rs) := d.checkLanes i a ((i.on o.g).map fun l => (l, i.ea o.base o.idx (.f o.ix) 1 l))
    match failures rs with
    | [] =>
      let d := d.modGroup i.ref fun _ => i.grp.advance i.sp false
      (passes rs).foldl (fun d (l, ps) => ps.foldl (fun d p => match p.loc with
        | .mem pa leaf => f i l (pa / 128) leaf d
        | .scr .. => d) d) d
    | fs => d.failLanes i .instruction i.pc fs

/-- INV on one line: a dirty line is written back first. -/
def Dev.l1Invalidate (d : Dev) (core line : Nat) : Dev :=
  match (d.core core).line? line with
  | some l => (d.storeBack line l).modCore core fun c => c.setLine line none
  | none => d

/-- CCTL.INV (R184). -/
def execCctlInv (o : CctlOp) (s : State) : Res :=
  cctlStep o s fun i _ line leaf d => if leaf.mt = .cacheable then d.l1Invalidate i.core line else d

/-- CCTL.WB (R184). -/
def execCctlWb (o : CctlOp) (s : State) : Res :=
  cctlStep o s fun i _ line leaf d =>
    if leaf.mt = .cacheable then
      match (d.core i.core).line? line with
      | some l => (d.storeBack line l).modCore i.core fun c => c.setLine line (some { l with dirty := false })
      | none => d
    else d

/-- The superblock of a line can be locked: it is, or its set holds fewer than 8 locked ones. -/
def Core.lockable (c : Core) (line : Nat) : Bool :=
  (match c.sb? line with | some s => s.locked | none => false) ||
  decide ((c.l1.filter fun s => s.locked && s.tag % 32 == line / 4 % 32).length < 8)

/-- CCTL.LOCK: the predicate says whether the superblock is locked (R184). -/
def execCctlLock (o : CctlOp) (s : State) : Res :=
  cctlStep o s fun i l line leaf d =>
    let ok := leaf.mt == .cacheable && (d.core i.core).lockable line
    let d := if ok then
        ((d.allocSb i.core line false).modCore i.core fun c => c.modSb line fun s => { s with locked := true }).modTeam i.ref.team
          fun t => { t with locks := if t.locks.contains (i.core, line / 4) then t.locks else (i.core, line / 4) :: t.locks }
      else d
    d.modGroup i.ref fun g => g.writeP l o.pr.toNat ok

/-- CCTL.UNLOCK (R184). -/
def execCctlUnlock (o : CctlOp) (s : State) : Res :=
  cctlStep o s fun i _ line leaf d =>
    if leaf.mt = .cacheable then d.modCore i.core fun c => c.modSb line fun s => { s with locked := false } else d

/-- Clean global and constant lines of the L1 are invalidated; `locked` says whether those of locked superblocks are. -/
def Core.dropClean (c : Core) (locked : Bool) : Core :=
  { c with l1 := c.l1.map fun s => if s.locked && !locked then s else { s with lines := s.lines.map fun l => match l with
      | some x => if x.owner.isNone && !x.dirty then none else some x
      | none => none } }

/-- CCTL.INVALL (R184). -/
def execCctlInvall (_space : Space) (s : State) : Res :=
  withIssuer s fun i d =>
    (d.modCore i.core (·.dropClean false)).modGroup i.ref fun _ => i.grp.advance i.sp false

/-- CCTL.IINV: only the issuing core's instruction cache (R184). -/
def execCctlIinv (o : CctlOp) (s : State) : Res :=
  cctlStep o s fun i _ line leaf d =>
    if leaf.mt = .cacheable then
      d.modCore i.core fun c => { c with icache := c.icache.filter fun x => x.num != line }
    else d

end Sys2Proof.Machine
end

