-- ==== Sys2Proof/Machine/Atomics.lean ====
section
/-! DEFINITION. Class 8: atomics, fences and waits on memory (R275 to R279), and the step "a release, then the
instruction" that stalls its split (R246). -/

namespace Sys2Proof.Machine

/-! ## Releases that stall the split -/

/-- The requests earlier than a stalled word: those before it began to wait. -/
def Issuer.before (i : Issuer) (d : Dev) : Nat :=
  match i.sp.wait with
  | .word n => n
  | _ => d.nextId

/-- The group once its word's release has begun: its markers have gone out. -/
def Issuer.released (i : Issuer) (d : Dev) : Group :=
  match i.sp.wait with
  | .word _ => i.grp
  | _ => i.grp.sendMarkers d.nextId

/-- The release of a stalled word may perform (R246). -/
def Issuer.releaseMet (i : Issuer) (d : Dev) (sc : Scope) : Bool := d.releaseDone i.ref (i.released d) (i.before d) sc

/-- Performs a release, then the word: until the release has performed, the split waits at the word. -/
def afterRelease (i : Issuer) (sc : Scope) (act : Issuer → Dev → Dev) (d : Dev) : Dev :=
  let g := i.released d
  if i.releaseMet d sc then act { i with grp := g } (d.modGroup i.ref fun _ => g)
  else d.modGroup i.ref fun _ => g.await i.sp (.word (i.before d))

/-! ## Atomic operations (R276) -/

/-- The new value of a word of `w` bits. -/
def atomNew (op : Nat) (w64 : Bool) (x y : Nat) : Nat :=
  let sg := fun (v : Nat) => toInt' w64 false (BitVec.ofNat 64 v)
  match op with
  | 0 => (x + y) % 2 ^ wbits w64
  | 1 => min x y
  | 2 => if sg x ≤ sg y then x else y
  | 3 => max x y
  | 4 => if sg x ≤ sg y then y else x
  | 5 => x &&& y
  | 6 => x ||| y
  | 7 => x ^^^ y
  | 8 => y
  | _ => addWord .rne (if w64 then f64 else f32) x y

/-- What a request's kind makes of a word: its new value, if it writes one. -/
def ReqKind.apply (k : ReqKind) (x : Nat) (p : Part) : Option Nat :=
  match k with
  | .atom op w64 => some (atomNew op w64 x p.data.toNat)
  | .cas _ => if x = p.cmp.toNat then some p.data.toNat else none
  | _ => none

def semAcq : Sem → Bool
  | .acq _ | .ar _ => true
  | _ => false

def semRel : Sem → Option Scope
  | .rel sc | .ar sc => some sc
  | _ => none

def atomSize (o : AtomOp) : Nat := if o.w64 then 8 else 4

/-- A lane's operand, and for CAS its new value (R276). -/
def Issuer.atomPart (i : Issuer) (o : AtomOp) (cas : Bool) (lane a : Nat) (p : Piece) : Part :=
  let rd := fun (k : Nat) => if o.w64 then (i.grp.readV64 i.fresh lane (o.c.toNat + k)) else
    (i.grp.readV i.fresh lane (o.c.toNat + k)).setWidth 64
  let y := rd 0
  let z := if cas then rd (if o.w64 then 2 else 1) else y
  { lane, va := p.va, pa := a, size := p.len, off := p.off, data := z.setWidth 128, cmp := y }

/-- An atomic of one lane on its own team's scratchpad, at once (R244, R275). -/
def Dev.poolAtom (d : Dev) (inst : Nat) (k : ReqKind) (p : Part) : Dev × List Byte :=
  let old := fgetBytes ((d.team? inst).map (·.scr) |>.getD []) p.pa p.size
  match k.apply (bytesNat old) p with
  | some v => (d.modTeam inst fun t => { t with scr := fsetBytes t.scr p.pa (natBytes p.size v) }, old)
  | none => (d, old)

/-- Each lane's part: performed at once, or to be sent. -/
def Dev.atomLanes (d : Dev) (i : Issuer) (o : AtomOp) (k : ReqKind) (cas held : Bool) (ls : List (Nat × List Piece)) :
    Dev × Served :=
  ls.foldl (fun (d, sv) (l, ps) => ps.foldl (fun (d, sv) p =>
    match p.loc with
    | .mem pa leaf => (d, { sv with mem := sv.mem ++ [(i.atomPart o cas l pa p, leaf)] })
    | .scr t a =>
      let part := i.atomPart o cas l a p
      if t = i.ref.team ∧ !held ∧ !d.scrBusy i then
        let (d, old) := d.poolAtom t k part
        (d, { sv with vals := sv.vals ++ placed (some (false, o.d.toNat)) false [] l p.off old })
      else (d, { sv with scr := sv.scr ++ [(part, t)] })) (d, sv)) (d, {})

def atomAsk (o : AtomOp) : Ask :=
  { space := o.space, size := atomSize o, align := true, store := true, need := .rw, reads := true }

def Issuer.atomEas (i : Issuer) (o : AtomOp) : List (Nat × Nat) :=
  (i.on o.g).map fun l => (l, i.ea o.base o.idx (.f false) (atomSize o) l)

/-- ATOM, CAS and RED once their lanes have passed (R245, R246, R248, R276). -/
def Dev.atomGo (d : Dev) (i : Issuer) (o : AtomOp) (k : ReqKind) (returns : Bool) (ls : List (Nat × List Piece)) : Dev :=
  let rel := semRel o.sem
  let (op, d) := d.newId
  let (d, sv) := d.atomLanes i o k (k matches .cas _) rel.isSome ls
  let a : ReqAsk := { kind := k, pol := .ca, acq := semAcq o.sem, owed := if returns then some op else none
                      dst := if returns then some (false, o.d.toNat) else none, held := rel.isSome, rel }
  let d := (d.sendMem i a sv.mem).sendScr i a sv.scr
  let ow : Owed := { id := op, flag := i.sp.flagFor true, slices := maskSlices i.sp.mask, memory := true
                     waits := d.reqsFrom op, settle := none
                     items := i.owedRun (false, o.d.toNat) (atomSize o) (ls.map (·.1)) }
  let d := d.modGroup i.ref fun _ =>
    let g := i.grp.advance i.sp true
    let g := if returns then g.owe i.sp.mask ow.flag (ow.fill sv.vals) else g
    let g := match rel with | some sc => g.startRelease i.sp op sc | none => g
    if semAcq o.sem then g.modSplit i.sp.stamp fun x => { x with wait := .acquire d.nextId } else g
  d.notePosts i.ref op

def atomStep (o : AtomOp) (k : ReqKind) (returns : Bool) (s : State) : Res :=
  withIssuer s fun i d =>
    let (d, rs) := d.checkLanes i (atomAsk o) (i.atomEas o)
    match failures rs with
    | [] => d.atomGo i o k returns (passes rs)
    | fs => d.failLanes i .instruction i.pc fs

/-- ATOM (R276). -/
def execAtom (o : AtomOp) (s : State) : Res := atomStep o (.atom o.op.toNat o.w64) true s
/-- RED (R276). -/
def execRed (o : AtomOp) (s : State) : Res := atomStep o (.atom o.op.toNat o.w64) false s
/-- CAS (R276). -/
def execCas (o : AtomOp) (s : State) : Res := atomStep o (.cas o.w64) true s

/-- WAITA: one watch per participant (R278). -/
def execWaita (o : AtomOp) (s : State) : Res :=
  withIssuer s fun i d =>
    let (d, rs) := d.checkLanes i (atomAsk o) (i.atomEas o)
    match failures rs with
    | [] =>
      let (op, d) := d.newId
      let a : ReqAsk := { kind := .watch o.w64, pol := .ca, acq := semAcq o.sem, owed := some op
                          dst := some (false, o.d.toNat) }
      let d := (passes rs).foldl (fun d (l, ps) => ps.foldl (fun d p => match p.loc with
        | .mem pa leaf => d.addReq i a (leaf.reqTo pa) [i.atomPart o false l pa p]
        | .scr .. => d) d) d
      let ow : Owed := { id := op, flag := i.sp.flagFor true, slices := maskSlices i.sp.mask, memory := true
                         waits := d.reqsFrom op, settle := none
                         items := i.owedRun (false, o.d.toNat) (atomSize o) ((passes rs).map (·.1)) }
      d.modGroup i.ref fun _ =>
        let g := (i.grp.advance i.sp false).owe i.sp.mask ow.flag ow
        if semAcq o.sem then g.modSplit i.sp.stamp fun x => { x with wait := .acquire d.nextId } else g
    | fs => d.failLanes i .instruction i.pc fs

/-! ## Fences and WAITGE -/

/-- FENCE: a release fence lets later loads go on; an acquire fence waits for every earlier load; FENCE.SC waits for
its release and then drops the core's clean lines (R246, R248, R249, R277). -/
def execFence (sem : Sem) (s : State) : Res :=
  withIssuer s fun i d =>
    match sem with
    | .rel sc => d.modGroup i.ref fun _ => (i.grp.advance i.sp true).startRelease i.sp d.nextId sc
    | .ar sc => afterRelease i sc (fun i d =>
        (d.modCore i.core (·.dropClean true)).modGroup i.ref fun _ =>
          (i.grp.advance i.sp true).modSplit i.sp.stamp fun x => { x with since := d.fresh }) d
    | _ => d.modGroup i.ref fun _ =>
        (i.grp.advance i.sp true).modSplit i.sp.stamp fun x => { x with wait := .acquire d.nextId }

/-- A 64-bit global word at a scalar's address, read at its home: its checks, then its value (R279). -/
def Dev.globalWord (d : Dev) (i : Issuer) (a : Nat) : Dev × Except LaneFault Nat :=
  match d.checkLane i { space := .g, size := 8, align := true, store := false, need := .r, reads := true } 0 a with
  | (d, .ok ({ loc := .mem pa leaf, .. } :: _)) => (d.sees i.ref (pa / 128) d.fresh, .ok (d.rdNat leaf.key pa 8))
  | (d, .ok _) => (d, .ok 0)
  | (d, .error f) => (d, .error f)

/-- WAITGE: not ready until the word is at least the value; then an acquire (R254, R279). -/
def execWaitge (_sc : Scope) (a b : BitVec 6) (s : State) : Res :=
  withIssuer s fun i d =>
    match d.globalWord i (i.sca a).toNat with
    | (d, .error f) => d.failOnce i Guard.always f
    | (d, .ok v) =>
      if (i.sca b).toNat ≤ v then d.modGroup i.ref fun g => g.advance i.sp false
      else d.modGroup i.ref fun g => g.await i.sp (.word d.nextId)

end Sys2Proof.Machine
end

