-- ==== Sys2Proof/Machine/Barriers.lean ====
section
/-! DEFINITION. Class 12: barriers and barrier objects (R265 to R274). -/

namespace Sys2Proof.Machine

/-! ## Barrier objects -/

/-- An object as R265 lays it out; `rsv` is its reserved field. -/
structure Obj where
  arr   : Int
  exp   : Nat
  gen   : Nat
  rsv   : Nat
  valid : Bool
  phase : Nat
  owed  : Int
  deriving DecidableEq, Repr

def signed32 (v : Nat) : Int := (BitVec.ofNat 32 v).toInt

def unsigned32 (x : Int) : Nat := (x % 2 ^ 32).toNat

def Obj.ofBytes (bs : List Byte) : Obj :=
  let a := bytesNat (bs.take 8)
  let b := bytesNat (bs.drop 8)
  { arr := signed32 (bits a 32 32), exp := bits a 0 32, gen := bits b 56 8, rsv := bits b 49 7
    valid := bits b 48 1 == 1, phase := bits b 32 16, owed := signed32 (bits b 0 32) }

def Obj.toBytes (o : Obj) : List Byte :=
  natBytes 8 (unsigned32 o.arr * 2 ^ 32 + o.exp) ++
  natBytes 8 (o.gen * 2 ^ 56 + o.rsv * 2 ^ 49 + (if o.valid then 2 ^ 48 else 0) + o.phase * 2 ^ 32 + unsigned32 o.owed)

/-- A field saturates at the signed 32-bit range (R266). -/
def sat32 (x : Int) : Int := clampInt (-(2 ^ 31)) (2 ^ 31 - 1) x

/-- An arrival of `n` arrivals and `b` bytes (R266). -/
def Obj.arrive (o : Obj) (n b : Int) : Obj :=
  let o := { o with arr := sat32 (o.arr - n), owed := sat32 (o.owed - b) }
  if o.arr ≤ 0 ∧ o.owed = 0 then { o with phase := (o.phase + 1) % 65536, arr := sat32 (o.arr + o.exp) } else o

/-- MBINIT's object (R272). -/
def Obj.init (o : Obj) (exp : Nat) : Obj :=
  let e := if exp = 0 then 1 else min exp 0x7FFFFFFF
  { o with exp := e, arr := e, owed := 0, phase := 0, valid := true, gen := (o.gen + 1) % 256 }

/-- MBINV's object (R272). -/
def Obj.inval (o : Obj) : Obj := { o with valid := false, gen := (o.gen + 1) % 256 }

/-- PHASE has passed the phase waited for (R274). -/
def Obj.passed (o : Obj) (p : Nat) : Bool :=
  let x := (o.phase + 65536 - p % 65536) % 65536
  decide (1 ≤ x) && decide (x ≤ 0x7FFF)

def Team.obj (t : Team) (off : Nat) : Obj := Obj.ofBytes (fgetBytes t.scr off 16)

/-- A waiter's verdict after the object has changed (R272, R274). -/
def judge (o : Obj) (g : Group) (sp : Split) : Wait :=
  match sp.wait with
  | .object t off gen none =>
    -- the phase waited for is the scalar the waiting word names
    let p : Nat := match sp.clause with
      | some c => match c.words with
        | w :: _ => (g.sreg sp.leader (fld w 28 8 : BitVec 8).toNat).toNat
        | [] => 0
      | none => 0
    if o.gen ≠ gen.toNat ∨ !o.valid then .object t off gen (some false)
    else if o.passed p then .object t off gen (some true)
    else sp.wait
  | w => w

/-- Every blocked MBWAIT on an object takes the wait that `f` gives it. -/
def Dev.waiters (d : Dev) (inst off : Nat) (f : Group → Split → Wait) : Dev :=
  { d with teams := d.teams.map fun t => { t with groups := t.groups.map fun g =>
      { g with splits := g.splits.map fun sp => match sp.wait with
          | .object x y _ none => if x = inst ∧ y = off then { sp with wait := f g sp } else sp
          | _ => sp } } }

/-- Every blocked MBWAIT on an object judges it as it stands, at a barrier operation or an arrival on it (R269). -/
def Dev.judgeObj (d : Dev) (inst off : Nat) : Dev :=
  match d.team? inst with
  | some t => d.waiters inst off (judge (t.obj off))
  | none => d

def Dev.putObj (d : Dev) (inst off : Nat) (o : Obj) : Dev :=
  d.modTeam inst fun t => { t with scr := fsetBytes t.scr off o.toBytes }

/-- An arrival changes an object, and every blocked MBWAIT on it judges it (R266, R269). -/
def Dev.setObj (d : Dev) (inst off : Nat) (o : Obj) : Dev := (d.putObj inst off o).judgeObj inst off

/-- MBINIT or MBINV changes an object, and releases every MBWAIT waiting on it with its predicate false (R272). -/
def Dev.renewObj (d : Dev) (inst off : Nat) (o : Obj) : Dev :=
  (d.putObj inst off o).waiters inst off fun _ sp => match sp.wait with
    | .object t y g none => .object t y g (some false)
    | w => w

def satAdd (x : BitVec 32) : BitVec 32 := satAdd32 x

/-- A discarded arrival: the counter of a team rises (R267, R268). -/
def Dev.lose (d : Dev) (inst : Nat) : Dev := d.modTeam inst fun t => { t with lost := satAdd t.lost }

/-- An arrival at a resident team's object, for a generation when it carries one; the phase before it, or none when
it was discarded (R266, R267). A discarded one is judged too (R269). -/
def Dev.arriveAt (d : Dev) (inst off : Nat) (gen : Option Nat) (n b : Int) : Dev × Option Nat :=
  match d.team? inst with
  | none => (d, none)
  | some t =>
    let o := t.obj off
    if o.valid && (match gen with | some g => g == o.gen | none => true) then (d.setObj inst off (o.arrive n b), some o.phase)
    else ((d.judgeObj inst off).lose inst, none)

/-! ## The object operand -/

/-- The address of an object operand, checked (R270): MISALIGN, then PERM for the limits. A retired team's object
gives the offset alone when it may be an arrival (R268). -/
inductive ObjAt where
  | at_ (inst off : Nat)
  | gone
  | bad (f : LaneFault)
  deriving DecidableEq, Repr

def Dev.objAt (d : Dev) (i : Issuer) (a : BitVec 6) : ObjAt :=
  let ea := (i.sca a).toNat
  let l := i.grid.launch
  if ea % 16 ≠ 0 then .bad ⟨.misalign, false, none, ea⟩
  else if 2 ^ 26 ≤ ea ∨ l.per ≤ ea / 2 ^ 22 ∨ l.scr * 16384 < ea % 2 ^ 22 + 16 then .bad ⟨.perm, false, none, ea⟩
  else match d.clusterSpot i ea 16 with
    | some (t, o) => .at_ t o
    | none => .gone

/-- MBINIT and MBINV: once per split with a participant; an object of a retired team raises PERM (R270, R347). -/
def objStep (a : BitVec 6) (gd : Guard) (f : Issuer → Obj → Obj) (s : State) : Res :=
  withIssuer s fun i d =>
    if (i.on gd).isEmpty then d.modGroup i.ref fun _ => i.grp.advance i.sp true
    else match d.objAt i a with
      | .bad x => d.failOnce i gd x
      | .gone => d.failOnce i gd ⟨.perm, false, none, (i.sca a).toNat⟩
      | .at_ t o =>
        let d := d.modGroup i.ref fun _ => i.grp.advance i.sp true
        d.renewObj t o (f i (((d.team? t).map (·.obj o)).getD (Obj.ofBytes [])))

/-- MBINIT (R272). -/
def execMbinit (a b : BitVec 6) (g : Guard) (s : State) : Res :=
  objStep a g (fun i o => o.init ((i.sca b).setWidth 32 : Word32).toNat) s

/-- MBINV (R272). -/
def execMbinv (a : BitVec 6) (g : Guard) (s : State) : Res := objStep a g (fun _ o => o.inval) s

/-- MBARV and MBEXP: a release at .CLU, then one arrival; the phase before it goes to sD (R273). -/
def arriveStep (dst a : BitVec 6) (gd : Guard) (n : Int) (b : Issuer → Int) (s : State) : Res :=
  withIssuer s fun i d =>
    if (i.on gd).isEmpty then d.modGroup i.ref fun _ => i.grp.advance i.sp true
    else match d.objAt i a with
      | .bad x => d.failOnce i gd x
      | at_ => afterRelease i .clu (fun i d =>
          let (d, ph) := match at_ with
            | .at_ t o => d.arriveAt t o none n (b i)
            | _ => (d.lose i.ref.team, none)
          d.modGroup i.ref fun g => (g.advance i.sp true).writeS i.sp.mask dst.toNat
            (match ph with | some p => BitVec.ofNat 64 p | none => 0xFFFFFFFFFFFFFFFF)) d

/-- MBARV (R273). -/
def execMbarv (dst a : BitVec 6) (n1 : BitVec 8) (g : Guard) (s : State) : Res :=
  arriveStep dst a g (n1.toNat + 1) (fun _ => 0) s

/-- MBEXP (R273). -/
def execMbexp (dst a b : BitVec 6) (n : BitVec 8) (g : Guard) (s : State) : Res :=
  arriveStep dst a g n.toNat (fun i => -(signed32 ((i.sca b).setWidth 32 : Word32).toNat)) s

/-- MBWAIT's end: the predicate in every active lane, and an acquire at .DEV that covers what has arrived on the object
(R254, R274). -/
def Dev.endWait (d : Dev) (i : Issuer) (pr : BitVec 3) (v : Bool) (on : Option (Nat × Nat)) : Dev :=
  d.modGroup i.ref fun g =>
    let g := match on with
      | some (t, o) => d.joinSettle g (·.arrivesOn t o)
      | none => g
    i.active.foldl (fun g l => g.writeP l pr.toNat v) (g.advance i.sp false)

/-- MBWAIT (R274). -/
def execMbwait (a b : BitVec 6) (pr : BitVec 3) (s : State) : Res :=
  withIssuer s fun i d =>
    match i.sp.wait with
    | .object t o _ (some v) => d.endWait i pr v (some (t, o))
    | .object _ _ _ none => d
    | _ => match d.objAt i a with
      | .bad x => d.failOnce i Guard.always x
      | .gone => d.failOnce i Guard.always ⟨.perm, false, none, (i.sca a).toNat⟩
      | .at_ t o =>
        let ob := ((d.team? t).map (·.obj o)).getD (Obj.ofBytes [])
        let d := d.judgeObj t o
        if !ob.valid then d.endWait i pr false none
        else if ob.passed (i.sca b).toNat then d.endWait i pr true (some (t, o))
        else d.modGroup i.ref fun g => g.await i.sp (.object t o (BitVec.ofNat 8 ob.gen) none)

/-! ## BAR and CBAR (R271) -/

/-- The group stands at a barrier: every live split has arrived, and it is neither parked nor stopped. -/
def Group.atBarrier (g : Group) (cluster : Bool) (id : Nat) : Bool :=
  g.done || (!g.parked && !g.stop && g.splits.all fun x => decide (x.wait = .barrier cluster id))

/-- A killed or retiring team takes no part in a barrier (log 18). -/
def Team.atBarrier (t : Team) (cluster : Bool) (id : Nat) : Bool :=
  match t.state with
  | .retiring _ => true
  | _ => t.groups.all (·.atBarrier cluster id)

/-- The teams a barrier joins: the team, or its cluster. -/
def Dev.barrierTeams (d : Dev) (t : Team) (cluster : Bool) : List Team :=
  if cluster then
    match d.grid? t.grid with
    | some g => d.teams.filter fun x => x.grid == t.grid && x.num / g.launch.per == t.num / g.launch.per
    | none => [t]
  else [t]

/-- Every group has arrived and some group waits (R271). -/
def Dev.barrierReady (d : Dev) (t : Team) (cluster : Bool) (id : Nat) : Bool :=
  (d.barrierTeams t cluster).all (·.atBarrier cluster id) &&
    t.groups.any fun g => g.splits.any fun x => decide (x.wait = .barrier cluster id)

/-- A group leaves a barrier: its splits go on, and BAR resets URG (R101, R271). -/
def Group.leaveBarrier (g : Group) (cluster : Bool) (id : Nat) : Group :=
  let g' := (g.splits.filter fun x => decide (x.wait = .barrier cluster id)).foldl (fun g sp => g.advance sp true) g
  if cluster then g' else { g' with urg := 0 }

/-- Completes a barrier that every group has reached. -/
def Dev.completeBarrier (d : Dev) (t : Team) (cluster : Bool) (id : Nat) : Dev :=
  let ts := (d.barrierTeams t cluster).map (·.inst)
  { d with teams := d.teams.map fun x =>
      if ts.contains x.inst then { x with groups := x.groups.map (·.leaveBarrier cluster id) } else x }

/-- The split arrives after its release; a barrier that is now complete lets all go on. -/
def barrierStep (cluster : Bool) (id : Nat) (s : State) : Res :=
  withIssuer s fun i d =>
    match i.sp.wait with
    | .barrier .. => match d.team? i.ref.team with
        | some t => if d.barrierReady t cluster id then d.completeBarrier t cluster id else d
        | none => d
    | _ => afterRelease i (if cluster then .clu else .core) (fun i d =>
        let d := d.modGroup i.ref fun g => g.await i.sp (.barrier cluster id)
        match d.team? i.ref.team with
        | some t => if d.barrierReady t cluster id then d.completeBarrier t cluster id else d
        | none => d) d

/-- BAR (R271). -/
def execBar (id : BitVec 4) (s : State) : Res := barrierStep false id.toNat s
/-- CBAR (R271). -/
def execCbar (id : BitVec 2) (s : State) : Res := barrierStep true id.toNat s

end Sys2Proof.Machine
end

