-- ==== Sys2Proof/Machine/Convert.lean ====
section
/-! DEFINITION. Class 5: conversion and MX quantisation (R150 to R154). -/

namespace Sys2Proof.Machine

/-! ## Types (R150) -/

/-- Bits and signedness of an integer type code. -/
def intType (t : Nat) : Nat × Bool :=
  match t with
  | 0 => (32, false) | 1 => (32, true) | 2 => (64, false) | 3 => (64, true)
  | 4 => (8, false) | 5 => (8, true) | 6 => (16, false) | _ => (16, true)

def floatType (t : Nat) : Fmt :=
  match t with
  | 8 => f32 | 9 => f64 | 10 => f16 | 11 => bf16 | 12 => e4m3 | 13 => e5m2 | _ => e2m1

def isFloatType (t : Nat) : Bool := 8 ≤ t

/-- The width of a type's operand (R150). -/
def typeWide (t : BitVec 4) : Bool := cvtWide t

/-- The integer a value of a type holds in the low bits of its operand. -/
def readInt (t : Nat) (x : Word64) : Int :=
  let (n, sg) := intType t
  let v := x.toNat % 2 ^ n
  if sg && decide (2 ^ (n - 1) ≤ v) then (v : Int) - 2 ^ n else v

/-- An integer brought into a type: clamped, or modulo. -/
def fitInt (t : Nat) (clamp : Bool) (x : Int) : Int :=
  let (n, sg) := intType t
  let lo : Int := if sg then -(2 ^ (n - 1)) else 0
  let hi : Int := if sg then 2 ^ (n - 1) - 1 else 2 ^ n - 1
  if clamp then clampInt lo hi x
  else
    let v := x % 2 ^ n
    if sg && decide ((2 : Int) ^ (n - 1) ≤ v) then v - 2 ^ n else v

/-- The float a type's operand holds. -/
def readFloat (t : Nat) (x : Word64) : FVal :=
  let f := floatType t
  f.value (x.toNat % (2 * f.signBit))

/-- CVT's result (R151). -/
def cvtValue (dt st : Nat) (r : Rnd) (sat : Bool) (x : Word64) : Word64 :=
  if isFloatType dt then BitVec.ofNat 64 ((floatType dt).roundTo r false (FVal.ofInt (readInt st x)))
  else if isFloatType st then
    BitVec.ofInt 64 (match readFloat st x with
      | .nan => 0
      | .inf s => fitInt dt true (if s then -(2 : Int) ^ 70 else 2 ^ 70)
      | v => fitInt dt true ((v.toInt? r).getD 0))
  else BitVec.ofInt 64 (fitInt dt sat (readInt st x))

/-- A result of a type is signed (R150). -/
def typeSigned (t : Nat) : Bool := !isFloatType t && (intType t).2

/-- CVT (R151). -/
def execCvt (o : CvtOp) (s : State) : Res :=
  aluStep s o.d (typeWide o.dt) (typeSigned o.dt.toNat) o.g fun i l =>
    cvtValue o.dt.toNat o.st.toNat o.rnd o.sat (i.reg (typeWide o.st) o.a l)

/-- DT is at least as wide in range and precision as ST (R152). -/
def widens (st dt : Fmt) : Bool := decide (st.eb ≤ dt.eb) && decide (st.fb ≤ dt.fb)

/-- FCVT's result (R152). -/
def fcvtValue (dt st : Nat) (r : Rnd) (sat : Bool) (x : Word64) : Word64 :=
  let (d, s) := (floatType dt, floatType st)
  BitVec.ofNat 64 (d.roundTo r (sat && !widens s d) (readFloat st x))

/-- FCVT (R152). -/
def execFcvt (o : CvtOp) (s : State) : Res :=
  aluStep s o.d (typeWide o.dt) false o.g fun i l =>
    fcvtValue o.dt.toNat o.st.toNat o.rnd o.sat (i.reg (typeWide o.st) o.a l)

/-! ## MX quantisation (R153) -/

/-- Bits of an element of a format code: 5 is INT8, 14 E2M1. -/
def qBits (q : Nat) : Nat := if q = 14 then 4 else 8

/-- NaNCODE (R153). -/
def qNan (q : Nat) : Nat := match q with | 12 => 0x7F | 13 => 0x7E | _ => 0

/-- emax of QSCALE (R153). -/
def qEmax (q : Nat) : Int := match q with | 14 => 2 | 12 => 8 | 13 => 15 | _ => 6

/-- A value rounded into an element, saturating (R153). -/
def qRound (q : Nat) (r : Rnd) (x : FVal) : Nat :=
  if q = 5 then
    ((match x with
      | .nan => 0
      | .inf s => if s then -128 else 127
      | x => clampInt (-128) 127 ((x.toInt? r).getD 0)) % 256 : Int).toNat
  else (floatType q).roundTo r true x

/-- QPACK of one value under the scale exponent E (R153). -/
def qElem (q : Nat) (r : Rnd) (e : Nat) (x : FVal) : Nat :=
  if e = 255 ∨ x.isNan then qNan q else qRound q r (x.scale (127 - (e : Int)))

/-- The value of an element; NaN where it is one (R129, R153). -/
def qValue (q e : Nat) : FVal :=
  if q = 5 then FVal.ofInt (if 128 ≤ e then (e : Int) - 256 else e) else (floatType q).value e

/-- QUNPK of one element (R153). -/
def qUnpack (q e x : Nat) : Nat :=
  if e = 255 then f32.nan else f32.roundTo .rne false ((qValue q x).scale ((e : Int) - 127))

/-- QSCALE's exponent for a magnitude (R153). -/
def qScale (q : Nat) (x : FVal) : Nat :=
  match x with
  | .nan | .inf _ => 255
  | .zero _ => 0
  | .fin _ m e => (clampInt 0 254 ((Nat.log2 m : Int) + e - qEmax q + 127)).toNat

/-- QPACK (R153). -/
def execQpack (o : QOp) (s : State) : Res :=
  aluStep s (.v o.d) false false o.g fun i l =>
    let q := o.q.toNat
    let e := (i.reg32 o.b l).toNat % 256
    BitVec.ofNat 64 ((List.range (qRun o.q)).foldl (fun t k =>
      t + qElem q o.rnd e (f32.value (i.grp.readV i.fresh l (o.a.toNat + k)).toNat) * 2 ^ (qBits q * k)) 0)

/-- QUNPK (R153). -/
def execQunpk (o : QOp) (s : State) : Res :=
  withGroup s false fun i g =>
    let q := o.q.toNat
    (i.on o.g).foldl (fun g l =>
      let e := (i.reg32 o.b l).toNat % 256
      let w := (i.vec l o.a).toNat
      (List.range (qRun o.q)).foldl (fun g k =>
        g.writeV l (o.d.toNat + k) (BitVec.ofNat 32 (qUnpack q e (w / 2 ^ (qBits q * k) % 2 ^ qBits q)))) g) g

/-- QSCALE (R153). -/
def execQscale (o : QScaleOp) (s : State) : Res :=
  aluStep s o.d false false o.g fun i l => BitVec.ofNat 64 (qScale o.q.toNat (f32.value (i.reg32 o.a l).toNat))

/-- AMAX's fold of one element (R154). -/
def amaxStep (f : Fmt) (m e : Nat) : Nat :=
  let x := f.value e
  if (f32.value m).isNan || x.isNan then f32.nan
  else f32.minMax true m (f32.roundTo .rne false x % f32.signBit)

/-- AMAX (R154). -/
def execAmax (o : AMaxOp) (s : State) : Res :=
  aluStep s o.d false false o.g fun i l =>
    let a := i.reg32 o.a l
    let m := (i.reg32 o.b l).toNat
    BitVec.ofNat 64 (if o.fmt = 8 then amaxStep f32 m a.toNat
      else
        let f := floatType o.fmt.toNat
        amaxStep f (amaxStep f m (a.toNat % 65536)) (a.toNat / 65536))

end Sys2Proof.Machine
end

