-- ==== Sys2Proof/Machine/Control.lean ====
section
/-! DEFINITION. Class 0: branches, calls and their stacks, rendezvous, EXIT, delays and prefetch (R95 to R114), and
words that are not instructions (R89). -/

namespace Sys2Proof.Machine

/-- ILLOP: raised in every active lane, whatever the guard (R89, R90). -/
def Dev.illop (d : Dev) (i : Issuer) (sub : BitVec 8) : Dev :=
  d.trap i { cause := .illop, sub, mask := laneMask i.active, src := .instruction, info := 0, pc := i.pc }

/-- A word that is not an instruction (R89). -/
def execIllop (sub : BitVec 8) (s : State) : Res := withIssuer s fun i d => d.illop i sub

/-- NOP (R88). -/
def execNop (_g : Guard) (s : State) : Res := withGroup s false fun _ g => g

/-- RGN in native code (R87, R330). -/
def execRgn (s : State) : Res := withIssuer s fun i d => d.illop i 0x09

/-- The split with the region begun that is due where it stands (R321). -/
def Issuer.entered (i : Issuer) : Issuer :=
  let g := i.grp.enterRegion i.sp.stamp
  { i with grp := g, sp := (g.split? i.sp.stamp).getD i.sp }

/-! ## The return stack (R106, R107) -/

/-- The private offset of spill block `j`, or none when it finds no room. -/
def spillOffset (psize j : Nat) : Option Nat := if psize < 16 * (j + 1) then none else some (psize - 16 * (j + 1))

/-- Why a spill or fill does not go through, or not yet: an earlier access of the split to its lines is on the way. -/
inductive StackFail where
  | noRoom
  | lanes (fs : List (Nat × LaneFault))
  | busy

/-- The eight entries of a block, oldest first; lane position `q` holds entries 2q and 2q+1. -/
def blockBytes (es : List (BitVec 48)) (q : Nat) : List Byte :=
  natBytes 8 (es.getD (2 * q) 0).toNat ++ natBytes 8 (es.getD (2 * q + 1) 0).toNat

/-- Checks the four lanes of each slice for a block access. -/
def Dev.checkBlocks (d : Dev) (i : Issuer) (store : Bool) (blocks : List (Nat × Nat)) :
    Dev × List (Nat × Except LaneFault (List Piece)) :=
  let ask : Ask := { space := .p, size := 16, align := false, store, need := if store then .w else .r, reads := !store }
  d.checkLanes i ask (blocks.flatMap fun (k, off) => (List.range 4).map fun q => (4 * k + q, off))

/-- An access of the split to the line of a piece is on the way (R166, R242). -/
def Dev.pieceBusy (d : Dev) (i : Issuer) (p : Piece) : Bool :=
  match p.loc with
  | .mem pa leaf => leaf.mt != .cacheable && d.lineBusy i (pa / 128)
  | .scr .. => false

/-- A piece of private memory written before its word completes: in the L1, or at its home (R106, R169). -/
def Dev.spillPiece (d : Dev) (i : Issuer) (bs : List Byte) (p : Piece) : Dev :=
  let mine := (bs.drop p.off).take p.len
  match p.loc with
  | .mem pa leaf =>
    if leaf.mt = .cacheable then d.privWrite i.core i.ref.team leaf pa mine else d.homeWrite false leaf.key pa mine
  | .scr .. => d

/-- A piece of private memory read before its word completes. -/
def Dev.fetchPiece (d : Dev) (i : Issuer) (p : Piece) : Dev × List Byte :=
  match p.loc with
  | .mem pa leaf =>
    if leaf.mt = .cacheable then d.privRead i.core i.ref.team leaf pa p.len else (d, d.rdBytes leaf.key pa p.len)
  | .scr .. => (d, [])

/-- Writes the `n` oldest entries of some slices as their next spill blocks, `n` at most 8 (R106, R339). -/
def Dev.spillSlices (d : Dev) (i : Issuer) (g : Group) (n : Nat) (ks : List Nat) : Dev × Except StackFail Group :=
  let offs := ks.map fun k => (k, spillOffset i.grid.launch.psize (g.slice k).spill.toNat)
  if ks.isEmpty then (d, .ok g)
  else if offs.any (·.2.isNone) then (d, .error .noRoom)
  else
    let (d, rs) := d.checkBlocks i true (offs.map fun (k, o) => (k, o.getD 0))
    match failures rs with
    | [] =>
      if (passes rs).any fun (_, ps) => ps.any (d.pieceBusy i) then (d, .error .busy)
      else
        let d := (passes rs).foldl (fun d (l, ps) =>
          let es := ((g.slice (l / 4)).ret.reverse).take n
          ps.foldl (fun d p => d.spillPiece i (blockBytes es (l % 4)) p) d) d
        (d, .ok (ks.foldl (fun g k => g.modSlices (1#8 <<< k) fun _ s =>
          { s with ret := s.ret.take (s.ret.length - n), spill := s.spill + 1
                   shorts := fset 0 s.shorts s.spill.toNat (8 - n) }) g))
    | fs => (d, .error (.lanes fs))

/-- Spills the 8 oldest entries of every slice whose return stack has passed 16 (R106). -/
def Dev.spillOver (d : Dev) (i : Issuer) (g : Group) (ks : List Nat) : Dev × Except StackFail Group :=
  d.spillSlices i g 8 (ks.filter fun k => 16 < (g.slice k).ret.length)

/-- Fills every empty return stack that has a spilled block (R107). -/
def Dev.fillRet (d : Dev) (i : Issuer) (g : Group) (ks : List Nat) : Dev × Except StackFail Group :=
  let empty := ks.filter fun k => (g.slice k).ret.isEmpty && (g.slice k).spill != 0
  let (d, rs) := d.checkBlocks i false (empty.map fun k =>
    (k, (spillOffset i.grid.launch.psize ((g.slice k).spill.toNat - 1)).getD 0))
  match failures rs with
  | [] =>
    if (passes rs).any fun (_, ps) => ps.any (d.pieceBusy i) then (d, .error .busy)
    else
      let (d, got) := (passes rs).foldl (fun (d, got) (l, ps) =>
        let (d, bs) := ps.foldl (fun (d, bs) p => let (d, x) := d.fetchPiece i p; (d, bs ++ x)) (d, [])
        (d, got ++ [(l, bs)])) (d, ([] : List (Nat × List Byte)))
      let entry := fun (k e : Nat) => match got.find? (fun x => x.1 == 4 * k + e / 2) with
        | some (_, bs) => BitVec.ofNat 48 (bytesNat ((bs.drop (8 * (e % 2))).take 8))
        | none => 0
      (d, .ok (empty.foldl (fun g k => g.modSlices (1#8 <<< k) fun _ s =>
        let n := 8 - fget 0 s.shorts (s.spill.toNat - 1)
        { s with ret := (List.range n).reverse.map (entry k), spill := s.spill - 1, shorts := fdrop s.shorts (s.spill.toNat - 1) }) g))
  | fs => (d, .error (.lanes fs))

/-- A spill or fill that fails: STACKSPILL 0x02 in every active lane, or the lanes' own causes (R94, R106, R107). -/
def Dev.failStack (d : Dev) (i : Issuer) (pc : BitVec 48) : StackFail → Dev
  | .noRoom => d.trap i { cause := .stackspill, sub := 2, mask := laneMask i.active, src := .instruction, info := 0, pc }
  | .lanes fs => d.failLanes i .instruction pc fs
  | .busy => d.modGroup i.ref fun _ => i.grp.await i.sp (.word d.nextId)

/-! ## Branches (R95, R108) -/

/-- What a branch asks of one slice: its lanes' next addresses, and which of them call. -/
structure Branch where
  base : BitVec 48
  rpc  : BitVec 48
  npc  : Nat → BitVec 48       -- by lane
  call : Nat → Bool            -- by lane

/-- The active lanes of slice `k`. -/
def sliceLanes (s : Slice) (k : Nat) : List Nat := ((List.range 4).filter fun q => s.x.getLsbD q).map (4 * k + ·)

def lanes4 (k : Nat) (ls : List Nat) : BitVec 4 := ls.foldl (fun m l => m ||| (1#4 <<< (l - 4 * k))) 0

/-- Pushes the deferred paths, the highest address first; an entry whose top already waits for it merges. -/
def pushPaths (s : Slice) (b : Branch) (k : Nat) (ls : List Nat) : List Nat → List RsEntry → List RsEntry
  | [], st => st
  | a :: rest, st =>
    let here := ls.filter fun l => (b.npc l).toNat == a
    let m := lanes4 k here
    let fresh : RsEntry := { rpc := b.rpc, dpc := BitVec.ofNat 48 a, dmask := m, xmask := s.x, pmask := s.pm, phase := false
                             lnk := here.any b.call }
    let st := match st with
      | top :: below =>
        if !top.phase && top.rpc == b.rpc && top.dpc.toNat == a then { top with dmask := top.dmask ||| m } :: below
        else fresh :: st
      | [] => [fresh]
    pushPaths s b k ls rest st

/-- R95 for one slice; the link is pushed when the path now running calls. -/
def branchSlice (b : Branch) (k : Nat) (s : Slice) : Slice :=
  let ls := sliceLanes s k
  match distinctPcs (ls.map fun l => (b.npc l).toNat) with
  | [] => { s with pc := b.base }
  | [a] => { s with pc := BitVec.ofNat 48 a, ret := if ls.any b.call then b.base :: s.ret else s.ret }
  | a :: rest =>
    let here := ls.filter fun l => (b.npc l).toNat == a
    { s with
      rstack := pushPaths s b k ls rest.reverse s.rstack
      pc := BitVec.ofNat 48 a, x := lanes4 k here, pm := lanes4 k here
      ret := if here.any b.call then b.base :: s.ret else s.ret }

/-- R95 and R97 for the split: the stack checks come before any change. -/
def Dev.branch (d : Dev) (i : Issuer) (b : Branch) : Dev :=
  let g := (i.grp.advance i.sp true).modSlices i.sp.mask fun k s =>
    branchSlice b k { s with pc := i.pc }
  let ks := maskSlices i.sp.mask
  if ks.any fun k => 8 < (g.slice k).rstack.length then
    d.trap i { cause := .stackspill, sub := 1, mask := laneMask i.active, src := .instruction, info := 0, pc := i.pc }
  else match d.spillOver i g ks with
    | (d, .error e) => d.failStack i i.pc e
    | (d, .ok g) => d.modGroup i.ref fun _ =>
        (g.modSplit i.sp.stamp fun x => { x with clause := none }).divide i.sp.stamp

/-- BASE: the address of the word after the branch (R108). -/
def Issuer.base (i : Issuer) : BitVec 48 := i.pc + 8

/-- An address a number of words from BASE. -/
def Issuer.fromBase (i : Issuer) (disp : BitVec 32) : BitVec 48 := i.base + 8 * disp.signExtend 48

def Issuer.direct (i : Issuer) (gd : Guard) (disp : BitVec 32) (rpc : BitVec 48) (call : Bool) : Branch :=
  { base := i.base, rpc, npc := fun l => if i.guard gd l then i.fromBase disp else i.base
    call := fun l => call && i.guard gd l }

/-- BRA (R108). -/
def execBra (gd : Guard) (rcv : BitVec 16) (disp : BitVec 32) (s : State) : Res :=
  withIssuer s fun i d => d.branch i (i.direct gd disp (i.base + 8 * rcv.setWidth 48) false)

/-- CALL (R108). -/
def execCall (gd : Guard) (disp : BitVec 32) (s : State) : Res :=
  withIssuer s fun i d => d.branch i (i.direct gd disp i.base true)

/-- BRX and CALLX: register targets, whose low bits raise MISALIGN (R108). -/
def Dev.branchReg (d : Dev) (i : Issuer) (gd : Guard) (t : Reg) (rpc : BitVec 48) (call : Bool) : Dev :=
  let tgt := fun (l : Nat) => ((i.reg64 t l).setWidth 48 : BitVec 48)
  let bad := (i.on gd).filter fun l => (tgt l).toNat % 8 != 0
  match bad with
  | l :: _ => d.failLanes i .instruction i.pc (bad.map fun m => (m, ⟨.misalign, false, none, (tgt l).toNat⟩))
  | [] => d.branch i { base := i.base, rpc, npc := fun l => if i.guard gd l then tgt l else i.base
                       call := fun l => call && i.guard gd l }

/-- BRX (R108). -/
def execBrx (gd : Guard) (rcv : BitVec 20) (t : Reg) (s : State) : Res :=
  withIssuer s fun i d => d.branchReg i gd t (i.base + 8 * rcv.setWidth 48) false

/-- CALLX (R108). -/
def execCallx (gd : Guard) (t : Reg) (s : State) : Res :=
  withIssuer s fun i d => d.branchReg i gd t i.base true

/-- RET (R107, R109). -/
def execRet (s : State) : Res :=
  withIssuer s fun i d =>
    let ks := maskSlices i.sp.mask
    let none_ := ks.filter fun k => (i.grp.slice k).ret.isEmpty && (i.grp.slice k).spill == 0
    if !none_.isEmpty then
      d.trap i { cause := .retempty, sub := 0, mask := laneMask (i.active.filter fun l => none_.contains (l / 4))
                 src := .instruction, info := 0, pc := i.pc }
    else match d.fillRet i (i.grp.advance i.sp true) ks with
      | (d, .error e) => d.failStack i i.pc e
      | (d, .ok g) => d.modGroup i.ref fun _ =>
          let g := g.modSlices i.sp.mask fun _ s => { s with pc := s.ret.headD 0, ret := s.ret.tail }
          (g.modSplit i.sp.stamp fun x => { x with clause := none }).divide i.sp.stamp

/-! ## Reconvergence (R96) -/

/-- R96's loop for one slice; `fuel` bounds its turns. -/
def reconverge : (fuel : Nat) → Slice → Slice
  | 0, s => s
  | fuel + 1, s =>
    match s.rstack with
    | [] => s
    | top :: below =>
      if top.rpc ≠ s.pc then s
      else if !top.phase && (top.dmask &&& s.liveLanes) != 0 then
        reconverge fuel { s with
          rstack := { top with phase := true } :: below, pc := top.dpc
          x := top.dmask &&& s.liveLanes, pm := top.dmask &&& s.liveLanes
          ret := if top.lnk then top.rpc :: s.ret else s.ret }
      else reconverge fuel { s with x := top.xmask &&& s.liveLanes, pm := top.pmask &&& s.liveLanes, rstack := below }

/-- The slice stands at its top entry's RPC. -/
def Slice.meets (s : Slice) : Bool :=
  match s.rstack with
  | top :: _ => top.rpc == s.pc
  | [] => false

/-- The split stands at a header where R96 acts. -/
def Group.mustReconverge (g : Group) (sp : Split) : Bool := (maskSlices sp.mask).any fun k => (g.slice k).meets

/-- R96 and R97 for a split at a header; the path reached begins a region (R321). DESIGN CHOICE (log 66): R96 acts
before the header's waits are met and before an asynchronous cause is taken. -/
def Dev.reconvergeSplit (d : Dev) (i : Issuer) : Dev :=
  let g := i.grp.modSlices i.sp.mask fun _ s => reconverge 32 s
  match d.spillOver i g (maskSlices i.sp.mask) with
  | (d, .error e) => d.failStack i.entered i.pc e
  | (d, .ok g) => d.modGroup i.ref fun _ =>
      (g.modSplit i.sp.stamp fun x => { x with region := true }).divide i.sp.stamp

/-! ## Rendezvous (R98, R110, R111) -/

def Wait.atRendezvous : Wait → Bool
  | .rendezvous .. => true
  | _ => false

/-- Waits that count for ILLCONV 0x03: JOIN, a `.G` form, REGROUP (R94). -/
def Wait.untimed : Wait → Bool
  | .rendezvous none _ | .regroup => true
  | _ => false

def Group.splitPc (g : Group) (sp : Split) : BitVec 48 := (g.slice sp.leader).pc

/-- Every split waits, and the waits are not all at one address (R94). -/
def Group.convClash (g : Group) : Bool :=
  g.splits.all (·.wait.untimed) &&
    g.splits.any fun a => g.splits.any fun b => g.splitPc a != g.splitPc b || a.wait.atRendezvous != b.wait.atRendezvous

/-- A JOINT's wait whose timeout has lapsed: the split no longer waits for the others (R111). -/
def Wait.hasLapsed : Wait → Bool
  | .rendezvous _ lapsed => lapsed
  | _ => false

/-- Every split waits at a rendezvous at one address (R98). -/
def Group.gathered (g : Group) : Bool :=
  g.splits.all fun x => x.wait.atRendezvous && !x.wait.hasLapsed && g.splits.all fun y => g.splitPc x == g.splitPc y

/-- The splits that wait at a rendezvous have what they wait for. -/
def Group.canMeet (g : Group) : Bool := g.gathered || g.convClash

/-- A JOINT's timeout lapses once its last cycle has passed without what it waits for (R111). -/
def Group.lapse (g : Group) (now : Nat) : Group :=
  if g.canMeet then g
  else { g with splits := g.splits.map fun x => match x.wait with
    | .rendezvous (some t) _ => if t < now then { x with wait := .rendezvous (some t) true } else x
    | _ => x }

/-- ILLCONV over every split of the group, taken by the oldest; the split that raises it stands at its word until the
handler has returned (R94, R327). -/
def Dev.illconv (d : Dev) (i : Issuer) (sub : BitVec 8) : Dev :=
  let all := i.grp.splits.flatMap i.grp.activeLanes
  let sp := (i.grp.split? i.sp.stamp).getD i.sp
  let g := i.grp.countOnce sp
  let g := if sp.wait == .ready then g.modSplit sp.stamp fun x => { x with wait := .word d.nextId, counted := true } else g
  match oldest g.splits with
  | some o => d.trap { i with grp := g, sp := { o with counted := true } }
      { cause := .illconv, sub, mask := laneMask all, src := .instruction, info := 0, pc := i.pc }
  | none => d

/-- A split reaches a rendezvous: it waits, or all merge and the instruction performs once. `gform` is a `.G` form,
which needs every RSTACK empty. -/
def rendezvous (i : Issuer) (gform : Bool) (deadline : Option Nat) (perform : Issuer → Dev → Dev) (d : Dev) : Dev :=
  let g := if i.sp.wait.atRendezvous then i.grp else i.grp.await i.sp (.rendezvous deadline false)
  if i.grp.splits.length = 1 ∨ g.gathered then
    if gform && g.slices.any (fun s => !s.rstack.isEmpty) then d.illconv i 4
    else
      let g := if i.grp.splits.length = 1 then i.grp else g.merge (g.splits.map (·.stamp))
      match g.splits with
      | sp :: _ => perform { i with grp := g, sp } (d.modGroup i.ref fun _ => g)
      | [] => d
  else if g.convClash then d.illconv { i with grp := g } 3
  else d.modGroup i.ref fun _ => g

/-- JOIN (R110). -/
def execJoin (s : State) : Res :=
  withIssuer s fun i d => rendezvous i false none (fun i d => d.modGroup i.ref fun _ => i.grp.advance i.sp true) d

/-- JOINT's end for a split: the predicate in its active lanes. -/
def Group.endJoint (g : Group) (sp : Split) (pd : Nat) (v : Bool) : Group :=
  (g.activeLanes sp).foldl (fun g l => g.writeP l pd v) (g.advance sp true)

/-- JOINT (R111). A timeout of 0 merges only if every other split already waits. -/
def execJoint (pd : BitVec 3) (cycles : BitVec 32) (s : State) : Res :=
  withIssuer s fun i d =>
    if cycles = 0 ∧ i.grp.splits.length ≠ 1 ∧ !i.sp.wait.atRendezvous ∧ !(i.grp.await i.sp (.rendezvous (some d.cycle) false)).gathered then
      d.modGroup i.ref fun _ => i.grp.endJoint i.sp pd.toNat false
    else rendezvous i false (some (d.cycle + cycles.toNat))
      (fun i d => d.modGroup i.ref fun _ => i.grp.endJoint i.sp pd.toNat true) d

/-- JOINT_TIMEOUT: a split whose timeout has lapsed goes on alone (R111). -/
def execJointTimeout (r : SplitRef) (s : State) : Res :=
  withEvent s fun d => do
    let i ← d.issuerAt? r
    match i.sp.wait, i.sp.clause with
    | .rendezvous (some _) true, some { words := w :: _, .. } =>
        some (d.modGroup i.ref fun _ => i.grp.endJoint i.sp (fld w 44 3 : BitVec 3).toNat false)
    | _, _ => none

/-! ## EXIT, DELAY, YIELD (R112, R113) -/

/-- EXIT in one slice: the lanes finish, and so do the retired ones; a slice whose path has ended moves to its
deferred path. -/
def exitSlice (done : BitVec 4) (s : Slice) : Slice :=
  let fin := s.fin ||| done ||| s.rtd
  let s := { s with fin, rtd := 0, x := s.x &&& ~~~fin, pm := s.pm &&& ~~~fin }
  match s.rstack with
  | top :: _ => if s.pm = 0 then { s with pc := top.rpc } else s
  | [] => s

/-- Results owed to finished lanes are discarded; the flags still fall (R112). -/
def Owed.drop (o : Owed) (fin : Nat → Bool) : Owed :=
  { o with items := o.items.filter fun it => match it.dest with
      | .v l _ | .p l _ => !fin l
      | .s .. => true }

/-- EXIT (R112). -/
def execExit (gd : Guard) (s : State) : Res :=
  withIssuer s fun i d =>
    let done := i.on gd
    let g := (i.grp.advance i.sp true).modSlices i.sp.mask fun k s =>
      exitSlice (lanes4 k (done.filter fun l => l / 4 == k)) s
    let g := { g with owed := g.owed.map fun o => Owed.drop o done.contains }
    let g := g.modSplit i.sp.stamp fun x => { x with clause := none }
    let moved := g.modSlices i.sp.mask fun _ s => if s.pm = 0 then reconverge 32 s else s
    match d.spillOver i moved (maskSlices i.sp.mask) with
    | (d, .ok g) => d.modGroup i.ref fun _ => g.divide i.sp.stamp
    | (d, .error _) => d.modGroup i.ref fun _ => g.divide i.sp.stamp

/-- DELAY: with some active lane's guard true (R113). -/
def execDelay (gd : Guard) (cycles : BitVec 32) (s : State) : Res :=
  withIssuer s fun i d => d.modGroup i.ref fun _ =>
    let g := i.grp.advance i.sp false
    if (i.on gd).isEmpty then g
    else g.modSplit i.sp.stamp fun x => { x with wait := .delay (d.cycle + cycles.toNat) }

/-- DELAY_EXPIRY (R113). -/
def execDelayExpiry (r : SplitRef) (s : State) : Res :=
  withEvent s fun d => do
    let i ← d.issuerAt? r
    match i.sp.wait with
    | .delay t =>
      if t ≤ d.cycle then some (d.modGroup i.ref fun g => g.modSplit r.stamp fun x => { x with wait := .ready }) else none
    | _ => none

/-- YIELD (R113). -/
def execYield (s : State) : Res :=
  withGroup s false fun i g => g.modSplit i.sp.stamp fun x => { x with yielded := true }

/-! ## Instruction prefetch (R70, R114) -/

/-- Asks the core's instruction cache for a line (R69, R70). -/
def Dev.askFill (d : Dev) (core line : Nat) (key : BitVec 8) : Dev :=
  let c := d.core core
  if c.icache.any (·.num == line) || c.fills.any (·.1 == line) then d
  else d.modCore core fun c => { c with fills := c.fills ++ [(line, key)] }

/-- Asks for the line of an address; a fault drops the request. -/
def Dev.askLine (d : Dev) (i : Issuer) (va : Nat) : Dev :=
  match d.translate i.core i.grid.pid i.grid.asid va .x with
  | (d, .ok l) => d.askFill i.core (l.paOf va / 128) l.key
  | (d, _) => d

/-- `n` lines from the line that holds an address. -/
def Dev.askLines (d : Dev) (i : Issuer) (va n : Nat) : Dev :=
  (List.range n).foldl (fun d k => d.askLine i ((va / 128 + k) * 128 % 2 ^ 48)) d

/-- IPF (R114). -/
def execIpf (gd : Guard) (lines : BitVec 4) (disp : BitVec 32) (s : State) : Res :=
  withIssuer s fun i d =>
    let d := if (i.on gd).isEmpty then d else d.askLines i (i.fromBase disp).toNat (lines.toNat + 1)
    d.modGroup i.ref fun _ => i.grp.advance i.sp false

end Sys2Proof.Machine
end

