-- ==== Sys2Proof/Machine/Lane.lean ====
section
/-! DEFINITION. Class 6: lane operations (R115 to R121). -/

namespace Sys2Proof.Machine

/-- A lane operation: over the issuing split, or with `.G` over the whole group after the rendezvous (R98, R115). -/
def laneStep (s : State) (G : Bool) (act : Issuer → Group → Group) : Res :=
  withIssuer s fun i d =>
    if G then rendezvous i true none (fun i d => d.modGroup i.ref fun _ => act i (i.grp.advance i.sp true)) d
    else d.modGroup i.ref fun _ => act i (i.grp.advance i.sp false)

/-- The participants whose predicate is true. -/
def Issuer.yes (i : Issuer) (gd : Guard) (pa : BitVec 3) : List Nat := (i.on gd).filter fun l => i.prd l pa

/-- VOTE's answer: 0 EVERY, 1 SOME, 2 NONE, 3 SAME (R116). -/
def voteOf (op n k : Nat) : Bool :=
  match op with
  | 0 => k == n
  | 1 => k != 0
  | 2 => k == 0
  | _ => k == 0 || k == n

/-- VOTE (R116). -/
def execVote (o : VoteOp) (s : State) : Res :=
  laneStep s o.G fun i g =>
    i.putP o.pd o.g (fun _ => voteOf o.op.toNat (i.on o.g).length (i.yes o.g o.pa).length) g

/-- BALLOT (R116). -/
def execBallot (o : BallotOp) (s : State) : Res :=
  laneStep s o.G fun i g => i.put o.d false false o.g (fun _ => (laneMask (i.yes o.g o.pa)).setWidth 64) g

/-- ELECT (R116). -/
def execElect (G : Bool) (pd : BitVec 3) (gd : Guard) (s : State) : Res :=
  laneStep s G fun i g => i.putP pd gd (fun l => (i.on gd).head? == some l) g

/-- SHFL's source lane: 0 SEL, 1 RISE, 2 FALL, 3 FLIP, 4 ROT (R117). -/
def shflLane (op w l b : Nat) : Int :=
  match op with
  | 0 => b
  | 1 => (l : Int) - b
  | 2 => (l : Int) + b
  | 3 => ((l ^^^ b : Nat) : Int)
  | _ => (((l + b) % w : Nat) : Int)

/-- The participant SHFL reads from, if there is one. -/
def Issuer.shflFrom (i : Issuer) (o : ShflOp) (l : Nat) : Option Nat :=
  let b := match o.b with
    | .inl r => (i.vec l r).toNat
    | .inr x => x.toNat
  let j := shflLane o.op.toNat i.grid.launch.width l b
  if 0 ≤ j ∧ j < i.grid.launch.width ∧ (i.on o.g).contains j.toNat then some j.toNat else none

def Issuer.shflValue (i : Issuer) (o : ShflOp) (l : Nat) : Word32 :=
  match i.shflFrom o l with
  | some j => i.vec j o.a
  | none => 0

/-- What SHFL.G owes: its register and its predicate in each participant (R102). -/
def Issuer.shflOwed (i : Issuer) (o : ShflOp) : List OwedItem :=
  (i.on o.g).flatMap fun l =>
    owedLane false l o.d.toNat ((i.shflValue o l).setWidth 64) ++
    (if o.pr = 7 then [] else
      [{ dest := .p l o.pr.toNat, value := some (if (i.shflFrom o l).isSome then 1 else 0), contested := false }])

/-- SHFL; with `.G` it is long-latency (R102, R117). -/
def execShfl (o : ShflOp) (s : State) : Res :=
  if o.G then
    withIssuer s fun i d => rendezvous i true none (fun i d =>
      let (id, d) := d.newId
      d.modGroup i.ref fun _ =>
        (i.grp.advance i.sp true).owe i.sp.mask (i.sp.flagFor false) (i.laneOp id (i.shflOwed o))) d
  else laneStep s false fun i g =>
    i.putP o.pr o.g (fun l => (i.shflFrom o l).isSome)
      (i.put (.v o.d) false false o.g (fun l => (i.shflValue o l).setWidth 64) g)

/-- REDUX's identity (R118). -/
def reduxIdentity (op : Nat) : Word32 :=
  match op with
  | 1 | 5 => 0xFFFFFFFF
  | 2 => 0x7FFFFFFF
  | 4 => 0x80000000
  | 9 => 0x7F800000
  | 10 => 0xFF800000
  | _ => 0

/-- REDUX's combination of the running value with a later lane's (R118). -/
def reduxCombine (op : Nat) (x y : Word32) : Word32 :=
  match op with
  | 0 => x + y
  | 1 => if x.toNat ≤ y.toNat then x else y
  | 2 => if x.toInt ≤ y.toInt then x else y
  | 3 => if x.toNat ≤ y.toNat then y else x
  | 4 => if x.toInt ≤ y.toInt then y else x
  | 5 => x &&& y
  | 6 => x ||| y
  | 7 => x ^^^ y
  | 8 => BitVec.ofNat 32 (addWord .rne Machine.f32 x.toNat y.toNat)
  | 9 => BitVec.ofNat 32 (Machine.f32.minMax false x.toNat y.toNat)
  | _ => BitVec.ofNat 32 (Machine.f32.minMax true x.toNat y.toNat)

/-- The first step of a reduction: FADD takes the first lane's own bits, a NaN made canonical (R118). -/
def reduxFirst (op : Nat) (y : Word32) : Word32 :=
  if op = 8 then
    (match Machine.f32.value y.toNat with
      | .nan => BitVec.ofNat 32 Machine.f32.nan
      | _ => y)
  else reduxCombine op (reduxIdentity op) y

/-- The running values of a reduction, before and after each of its lanes, in ascending lane order (R118). -/
def reduxRun (op : Nat) : Option Word32 → List (Nat × Word32) → List (Nat × Word32 × Word32)
  | _, [] => []
  | acc, (l, y) :: rest =>
    let before := acc.getD (reduxIdentity op)
    let after := match acc with
      | none => reduxFirst op y
      | some a => reduxCombine op a y
    (l, before, after) :: reduxRun op (some after) rest

def Issuer.redux (i : Issuer) (o : ReduxOp) : List (Nat × Word32 × Word32) :=
  reduxRun o.op.toNat none ((i.on o.g).map fun l => (l, i.vec l o.a))

/-- REDUX (R118). -/
def execRedux (o : ReduxOp) (s : State) : Res :=
  laneStep s o.G fun i g =>
    let acc := match (i.redux o).getLast? with
      | some (_, _, a) => a
      | none => 0
    i.put (.v o.d) false false o.g (fun _ => acc.setWidth 64) g

/-- SCAN (R118). -/
def execScan (o : ReduxOp) (s : State) : Res :=
  laneStep s o.G fun i g =>
    (i.redux o).foldl (fun g (l, b, a) => g.writeV l o.d.toNat (if o.exc then b else a)) g

/-- MATCH (R119). -/
def execMatch (o : MatchOp) (s : State) : Res :=
  laneStep s o.G fun i g =>
    let val := fun (l : Nat) => if o.b64 then i.vec64 l o.a else (i.vec l o.a).setWidth 64
    let same := fun (l : Nat) => (i.on o.g).filter fun m => val m == val l
    i.putP o.pr o.g (fun l => (same l).length == (i.on o.g).length)
      (i.put (.v o.d) false false o.g (fun l => (laneMask (same l)).setWidth 64) g)

/-- XMGET: sr.xm into every slice's copy (R120). -/
def execXmget (sd : BitVec 6) (s : State) : Res :=
  withGroup s false fun i g => g.writeS i.sp.mask sd.toNat ((laneMask i.active).setWidth 64)

/-- XMSET (R120). -/
def execXmset (src : BitVec 6 ⊕ BitVec 32) (s : State) : Res :=
  withGroup s true fun i g =>
    let m : BitVec 32 := match src with
      | .inl a => (i.sca a).setWidth 32
      | .inr x => x
    g.modSlices i.sp.mask fun k s => { s with x := m.extractLsb' (4 * k) 4 &&& s.pm }

/-! ## REGROUP (R121) -/

/-- The unfinished groups of a team, ascending. -/
def Team.unfinished (t : Team) : List Group := (t.groups.filter fun g => !g.done).isort fun a b => a.num ≤ b.num

def Group.atRegroup (g : Group) (pc : BitVec 48) : Bool :=
  g.splits.length == 1 && g.splits.all fun x => decide (x.wait = .regroup) && g.splitPc x == pc

/-- Every unfinished group stands at the REGROUP, with every flag zero. -/
def Team.regroupReady (t : Team) (pc : BitVec 48) : Bool :=
  t.unfinished.all fun g => g.atRegroup pc && !g.parked && !g.stop && g.slices.all fun s => s.cf.isEmpty

/-- A lane's entry in E: key, group and lane. -/
structure Dealt where
  key : Word32
  grp : Group
  lane : Nat

/-- List E, sorted by key, stably in (group, lane) order. -/
def dealt (gs : List Group) (va width : Nat) : List Dealt :=
  let es := gs.flatMap fun g => (List.range width).filterMap fun l =>
    let k := if (g.slice (l / 4)).x.getLsbD (l % 4) then g.vreg l va else 0xFFFFFFFF
    if k = 0xFFFFFFFF then none else some { key := k, grp := g, lane := l : Dealt }
  es.isort fun a b => a.key.toNat ≤ b.key.toNat

/-- One group after the deal: `mine` are the entries dealt to its lanes from lane 0 on, `regs` the registers that move.
DESIGN CHOICE (log 67): a finished lane that is dealt no entry stays finished as it becomes retired. -/
def Group.dealTo (g : Group) (mine : List Dealt) (regs : List Nat) : Group :=
  let pc := match g.splits with
    | sp :: _ => g.splitPc sp
    | [] => 0
  let g := mine.zipIdx.foldl (fun g (e, l) =>
    let g := regs.foldl (fun g j => g.storeV l j (e.grp.vreg e.lane j)) g
    { g with p := fset 0 g.p l (fget 0 e.grp.p e.lane) }) g
  let g := g.modSlices 0xFF fun k s =>
    let x := lanes4 k ((List.range mine.length).filter fun l => l / 4 == k)
    { s with x, pm := x, fin := s.fin &&& ~~~x, rtd := ~~~x, pc }
  let live := (List.range g.slices.length).foldl (fun m k => if (g.slice k).live then m ||| (1#8 <<< k) else m) 0#8
  let g : Group := { g with splits := g.splits.map fun x => { x with mask := live } }
  match g.splits with
  | sp :: _ => let g := g.advance sp true; { g with urg := 0 }
  | [] => g

/-- The deal over the groups of a team (R121). -/
def Dev.regroup (d : Dev) (i : Issuer) (t : Team) (va : Nat) (sb : BitVec 6) : Dev :=
  let gs := t.unfinished
  let w := i.grid.launch.width
  let map := match gs with
    | g :: _ => g.readS i.fresh ((g.splits.map Split.leader).headD 0) sb.toNat
    | [] => 0
  let regs := (List.range (min 64 (8 * i.grid.launch.nreg8))).filter fun j => map.getLsbD j
  let es := dealt gs va w
  gs.zipIdx.foldl (fun d (g, k) =>
    d.modGroup ⟨t.inst, g.num⟩ fun g => g.dealTo ((es.drop (k * w)).take w) regs) d

/-- ILLCONV in another group of the team, raised by its split there (R94), unless the team has been killed. -/
def Dev.illconvAt (d : Dev) (i : Issuer) (t : Team) (g : Group) (sub : BitVec 8) : Dev :=
  if (d.team? t.inst).any fun x => x.state matches .retiring _ then d
  else match g.splits with
    | sp :: _ => d.illconv { i with ref := ⟨t.inst, g.num⟩, grp := g, sp } sub
    | [] => d

/-- REGROUP performs: ILLCONV 0x04 in every group that holds an RSTACK entry, or the deal. -/
def Dev.regroupNow (d : Dev) (i : Issuer) (va : BitVec 8) (sb : BitVec 6) : Dev :=
  match d.team? i.ref.team with
  | none => d
  | some t =>
    if !t.regroupReady i.pc then d
    else
      let held := t.unfinished.filter fun g => g.slices.any fun s => !s.rstack.isEmpty
      if held.isEmpty then d.regroup i t va.toNat sb
      else held.foldl (fun d g => d.illconvAt i t g 4) d

/-- REGROUP (R94, R121). -/
def execRegroup (va : BitVec 8) (sb : BitVec 6) (s : State) : Res :=
  withIssuer s fun i d =>
    if i.grp.splits.length ≠ 1 then d.illconv i 1
    else
      let others := i.team.groups.filter fun g => g.num != i.ref.group && g.splits.any fun x => decide (x.wait = .regroup)
      if others.any fun g => g.splits.any fun x => g.splitPc x != i.pc then
        others.foldl (fun d g => d.illconvAt i i.team g 3) (d.illconv i 3)
      else
        let d := if i.sp.wait = .regroup then d else d.modGroup i.ref fun _ => i.grp.await i.sp .regroup
        d.regroupNow i va sb

end Sys2Proof.Machine
end

