-- ==== Sys2Proof/Machine/System.lean ====
section
/-! DEFINITION. Clause fetch and issue (R68 to R76, R99), paired words (R82 to R84), traps, special registers,
performance events, PHINT and BKPT (R326 to R337). -/

namespace Sys2Proof.Machine

/-! ## Fetch (R68 to R72) -/

/-- What a fetch of bytes ends in. -/
inductive Fetched where
  | ok (bs : List Byte)
  | miss (line : Nat)
  | bad (f : LaneFault)
  deriving DecidableEq, Repr

/-- The pieces of [va, va + n) that lie in one 128-byte line each. -/
def linePieces (va n : Nat) : List (Nat × Nat) :=
  (List.range ((va + n - 1) / 128 - va / 128 + 1)).map fun k =>
    let lo := max va ((va / 128 + k) * 128)
    (lo, min (va + n) ((va / 128 + k + 1) * 128) - lo)

/-- A cached line of the core, used now. -/
def Dev.cachedLine? (d : Dev) (core line : Nat) : Option ICLine := (d.core core).icache.find? (·.num == line)

/-- One piece of a fetch: a missing line is asked for, and a poisoned one raises ECC (R71). -/
def Dev.fetchPart (d : Dev) (i : Issuer) (va n : Nat) : Dev × Fetched :=
  match d.translate i.core i.grid.pid i.grid.asid (va % 2 ^ 48) .x with
  | (d, .fault f) => (d, .bad ⟨f.cause, f.replay, some f, va⟩)
  | (d, .ecc) => (d, .bad ⟨.ecc, false, none, va⟩)
  | (d, .ok l) =>
    let pa := l.paOf (va % 2 ^ 48)
    match d.cachedLine? i.core (pa / 128) with
    | some c =>
      (d.modCore i.core fun x => { x with icache := x.icache.map fun y =>
          if y.num = pa / 128 then { y with used := d.fresh } else y },
        .ok ((List.range n).map fun k => Line.byte c.data (pa % 128 + k)))
    | none =>
      if d.poisoned (pa / 128 * 128) 128 then (d, .bad ⟨.ecc, false, none, va⟩)
      else (d.askFill i.core (pa / 128) l.key, .miss (pa / 128))

/-- The bytes of a clause, or of its header (R69). -/
def Dev.fetch (d : Dev) (i : Issuer) (va n : Nat) : Dev × Fetched :=
  (linePieces va n).foldl (fun (d, acc) (a, len) => match acc with
    | .ok bs => match d.fetchPart i a len with
      | (d, .ok xs) => (d, .ok (bs ++ xs))
      | r => r
    | r => (d, r)) (d, .ok [])

/-- A word the core could issue from at once: its translation and its line are held. -/
def Dev.heldWord? (d : Dev) (i : Issuer) (va : Nat) : Option Word64 :=
  let bs := (linePieces va 8).filterMap fun (a, len) =>
    ((d.core i.core).tlb.find? (fun l => l.covers i.grid.asid (a % 2 ^ 48) && l.x)).bind fun l =>
      (d.cachedLine? i.core (l.paOf (a % 2 ^ 48) / 128)).map fun c =>
        (List.range len).map fun k => Line.byte c.data (l.paOf (a % 2 ^ 48) % 128 + k)
  if bs.flatten.length = 8 then some (bytesWord bs.flatten) else none

/-- A fetch that misses freezes the split and counts one SLIP; one that fails raises at the header, where a region that
is due has begun: what it re-executes starts there (R69, R71, R321). -/
def Dev.fetchStop (d : Dev) (i : Issuer) : Fetched → Dev
  | .ok _ => d
  | .miss line => d.modGroup i.ref fun _ =>
      (i.grp.modSplit i.sp.stamp fun x => { x with wait := .frozen line }).count 3 1
  | .bad f =>
    let i := i.entered
    d.failLanes i .fetch i.pc ((if i.active.isEmpty then [64] else i.active).map fun l => (l, f))

/-- The line asked for has come, or the request was dropped. -/
def Dev.thawed (d : Dev) (core line : Nat) : Bool := !(d.core core).fills.any (·.1 == line)

/-- The word at an address as the core would fetch it now; none when the fetch would fail. -/
def Dev.peekWord? (d : Dev) (i : Issuer) (va : Nat) : Option Word64 :=
  match (d.translate i.core i.grid.pid i.grid.asid va .x).2 with
  | .ok l =>
    let pa := l.paOf va
    match d.cachedLine? i.core (pa / 128) with
    | some c => some (bytesWord ((List.range 8).map fun k => Line.byte c.data (pa % 128 + k)))
    | none => if d.poisoned pa 8 then none else some (bytesWord (d.rdBytes l.key pa 8))
  | _ => none

/-- The instruction-cache lines after a fill: 128 sets of 8 ways (R68). DESIGN CHOICE (log 9): the line number's low 7
bits are the set, and the least recently used line of a full set goes. -/
def Core.icacheAdd (c : Core) (l : ICLine) : Core :=
  let set := c.icache.filter fun x => x.num % 128 == l.num % 128 && x.num != l.num
  let rest := c.icache.filter fun x => x.num != l.num
  match set with
  | s :: t =>
    if set.length < 8 then { c with icache := l :: rest }
    else
      let old := t.foldl (fun a b => if b.used < a.used then b else a) s
      { c with icache := l :: rest.filter fun x => x.num != old.num }
  | [] => { c with icache := l :: rest }

/-- ICACHE_FILL: the line comes from its home, with no lease; a line that meets an error is not kept (R68, R71). -/
def execIcacheFill (core line : Nat) (s : State) : Res :=
  withEvent s fun d => do
    let f ← (d.core core).fills.find? (·.1 == line)
    let d := d.modCore core fun c => { c with fills := c.fills.filter (·.1 != line) }
    if d.poisoned (line * 128) 128 then some d
    else some (d.modCore core (·.icacheAdd { num := line, used := d.fresh, data := d.rdLine f.2 line }))

/-! ## The clause header (R73 to R76) -/

/-- The group's leader lane lies in the split: it takes asynchronous causes at its next header (R105, R327). -/
def Issuer.takesAsync (i : Issuer) : Bool :=
  !i.grp.async.isEmpty && match i.grp.leaderLane? with
    | some l => i.sp.mask.getLsbD (l / 4)
    | none => false

/-- Raises the oldest asynchronous cause at the header, where a region that is due has begun (R321, R327). -/
def Dev.raiseAsync (d : Dev) (i : Issuer) : Dev :=
  let i := i.entered
  match i.grp.async, i.grp.leaderLane? with
  | a :: rest, some l =>
    let g := { i.grp with async := rest }
    (d.modGroup i.ref fun _ => g).trap { i with grp := g }
      { cause := a.cause, sub := 0, mask := if a.lanes = 0 then 1#32 <<< l else a.lanes, src := a.src, info := a.info
        pc := a.pc, lvl := a.lvl, wr := a.wr }
  | _, _ => d

/-- A split stands at a header with its waits met, ready to merge (R99, R100). -/
def Group.mergeable (g : Group) (h : Header) (x : Split) : Bool :=
  x.clause.isNone && x.release.isNone && decide (x.wait = .ready) && g.waitsMet x.mask h.wait && !g.mustReconverge x &&
    g.runsHandler x

/-- R99: two splits that stand ready at one header merge. A region that is due in either begins for both. -/
def Group.mergeTwo (g : Group) (a b : Split) : Group :=
  let g := g.merge [a.stamp, b.stamp]
  { g with splits := g.splits.map fun x =>
      if x.stamp = a.stamp ∨ x.stamp = b.stamp then
        { x with region := a.region || b.region, resumed := a.resumed || b.resumed, yielded := false, counted := false }
      else x }

/-- The lines a prefetch hint asks for (R70). -/
def Dev.hintLines (d : Dev) (i : Issuer) (h : Header) (words : List Word64) : Dev :=
  let last := i.pc.toNat + 8 * h.len.toNat
  match h.pf.toNat with
  | 1 => d.askLines i (last + 128) 4
  | 2 => d.askLines i (last + 128) 16
  | 3 => match decode ⟨LaunchCtx.widest, true, false⟩ (words.getLast?.getD 0) with
    | .ok (.bra _ _ disp) | .ok (.call _ disp) =>
      let a := ((BitVec.ofNat 48 last + 8) + 8 * disp.signExtend 48 : BitVec 48).toNat
      let len := match (d.peekWord? i a).map decodeStart with
        | some (.ok t) => 8 * t.len.toNat
        | _ => 0
      d.askLines i a ((a + len) / 128 - a / 128 + 1)
    | _ => d
  | _ => d

/-- The clause begins: its words are those fetched (R69), and its header has issued. With RGNE a region begins at its
first instruction (R76). -/
def Group.beginClause (g : Group) (sp : Split) (h : Header) (words : List Word64) : Group :=
  let g := (g.countOnce sp).modSlices sp.mask fun _ s => { s with pc := s.pc + 8 }
  g.modSplit sp.stamp fun x =>
    { x with clause := some { setA := h.setA, setB := h.setB, words }, wait := .ready, region := x.region || h.rgne
             counted := false, yielded := false }

/-- CLAUSE_ISSUE: asynchronous causes and reconvergence first, then the waits, the fetch of the whole clause, and its
prefetch hint (R69 to R76, R96, R327). -/
def execClauseIssue (h : Header) (s : State) : Res :=
  withIssuer s fun i d =>
    if i.grp.mustReconverge i.sp then d.reconvergeSplit i
    else if i.takesAsync then d.raiseAsync i
    else if !i.grp.waitsMet i.sp.mask h.wait then d
    else
      let (d, r) := d.fetch i (i.pc.toNat + 8) (8 * h.len.toNat)
      match r with
      | .ok bs =>
        let words := (List.range h.len.toNat).map fun k => bytesWord ((bs.drop (8 * k)).take 8)
        (d.hintLines i h words).modGroup i.ref fun _ => i.grp.beginClause i.sp h words
      | r => d.fetchStop i r

/-! ## Paired words (R82 to R84) -/

/-- A class 3 instruction of a format with default modifiers. -/
def slotF (f : PFmt) (op : Fmt → Nat → Nat → Nat) (a b : Word32) : Word32 :=
  applyBin ⟨f, .rne, false, false, false, .v 0, .v 0, .imm 0, Guard.always⟩ op a b

/-- A slot's result: from vD, vS and IMM5, by pair-opcode (R84). -/
def slotValue (pop : Nat) (d s : Word32) (imm : BitVec 5) : Word32 :=
  let d6 : Word64 := d.setWidth 64
  let s6 : Word64 := s.setWidth 64
  let lo := fun (x : Word64) => (x.setWidth 32 : Word32)
  match pop with
  | 0x01 => d + s
  | 0x02 => d - s
  | 0x03 => d * s
  | 0x04 => if d.toInt ≤ s.toInt then d else s
  | 0x05 => if d.toNat ≤ s.toNat then d else s
  | 0x06 => if d.toInt ≤ s.toInt then s else d
  | 0x07 => if d.toNat ≤ s.toNat then s else d
  | 0x08 => if s.toInt < 0 then -s else s
  | 0x09 => -s
  | 0x0A => s
  | 0x0B => imm.signExtend 32
  | 0x0C => d + imm.signExtend 32
  | 0x10 => d &&& s
  | 0x11 => d ||| s
  | 0x12 => d ^^^ s
  | 0x13 => ~~~s
  | 0x14 => lo (shlW false d6 s.toNat)
  | 0x15 => lo (shrW false d6 s.toNat)
  | 0x16 => lo (sarW false d6 s.toNat)
  | 0x17 => lo (rotW false d6 s.toNat)
  | 0x18 => lo (shlW false d6 imm.toNat)
  | 0x19 => lo (shrW false d6 imm.toNat)
  | 0x1A => lo (sarW false d6 imm.toNat)
  | 0x1B => lo (rotW false d6 imm.toNat)
  | 0x1C => BitVec.ofNat 32 (popcount s6)
  | 0x1D => BitVec.ofNat 32 (clzW 32 s6)
  | 0x1E => BitVec.ofNat 32 (ctzW 32 s6)
  | 0x1F => lo (brevW 32 s6)
  | 0x20 => slotF .f32 (addWord .rne) d s
  | 0x21 => slotF .f32 (mulWord .rne) d s
  | 0x22 => slotF .f32 (fun f => f.minMax false) d s
  | 0x23 => slotF .f32 (fun f => f.minMax true) d s
  | 0x24 => slotF .f16x2 (addWord .rne) d s
  | 0x25 => slotF .f16x2 (mulWord .rne) d s
  | 0x26 => slotF .bf16x2 (addWord .rne) d s
  | 0x27 => slotF .bf16x2 (mulWord .rne) d s
  | 0x28 => slotF .f16x2 (fun f => f.minMax false) d s
  | _ => slotF .f16x2 (fun f => f.minMax true) d s

/-- A slot writes, from the registers as they stood before the word (R83). -/
def Issuer.slotPut (i : Issuer) (s : Slot) (g : Group) : Group :=
  if s.pop = 0 then g
  else (i.on ⟨s.g, false⟩).foldl (fun g l =>
    g.writeV l s.d.toNat (slotValue s.pop.toNat (i.vec l s.d) (i.vec l s.s) s.imm5)) g

/-- PAIRED_WORD (R83). -/
def execPairedWord (x y : Slot) (s : State) : Res := withGroup s false fun i g => i.slotPut y (i.slotPut x g)

/-! ## Traps and returns (R332 to R334) -/

/-- TRAP (R332). -/
def execTrap (code : BitVec 8) (gd : Guard) (s : State) : Res :=
  withIssuer s fun i d =>
    if (i.on gd).isEmpty then
      d.modGroup i.ref fun _ => i.grp.advance i.sp true
    else d.trap i { cause := .swtrap, sub := 0, mask := laneMask (i.on gd), src := .instruction, info := code.toNat
                    pc := i.pc }

/-- Entries the handler pushed that a returned slice still holds, in a spilled block with older ones (R333). -/
def Slice.shared (s : Slice) (h : HandlerSlice) : Nat := s.retCount - h.retLen

/-- What `returnFrom` leaves in spilled blocks that a slice shares with entries older than the trap: they are read back,
and the handler's own are dropped (R106, R333; log 44). -/
def Dev.dropShared (d : Dev) (i : Issuer) (g : Group) : Dev × Except StackFail Group :=
  let cut := i.grp.handler.flatten.filterMap fun h =>
    let n := (g.slice h.slice).shared h
    if i.sp.mask.getLsbD h.slice && n != 0 then some (h.slice, n) else none
  match d.fillRet i g (cut.map (·.1)) with
  | (d, .ok g) => (d, .ok (cut.foldl (fun g (k, n) => g.modSlices (1#8 <<< k) fun _ s => { s with ret := s.ret.drop n }) g))
  | r => r

/-- RTE (R333). DEDUCED (log 19): an RPC equal to REPC re-executes wherever the region begins; any other RPC that does
not hold a header kills the team. -/
def execRte (s : State) : Res :=
  withIssuer s fun i d =>
    if !i.grp.inHandler i.sp then d.illop i 0x06
    else
      let rpc := i.grp.tr0.toNat % 2 ^ 48
      let again := rpc == (i.grp.slice i.sp.leader).snap.repc.toNat
      let bad := !again && match d.peekWord? i rpc with
        | some w => (decodeStart w).toOption.isNone
        | none => false
      if bad then
        d.killBy i { cause := .illop, sub := 7, mask := laneMask i.active, src := .instruction, info := 0
                     pc := BitVec.ofNat 48 rpc } true
      else match d.dropShared i (i.grp.returnFrom i.sp) with
        | (d, .error e) => d.failStack i i.pc e
        | (d, .ok g) =>
          let d := d.modGroup i.ref fun _ => g
          if again && 255 ≤ i.grp.reexec then
            match g.split? i.sp.stamp with
            | some sp => d.trap { i with grp := g, sp } { i with grp := g, sp }.regionLoop
            | none => d
          else d

/-- BKPT (R334). -/
def execBkpt (gd : Guard) (s : State) : Res :=
  withIssuer s fun i d =>
    if (i.on gd).isEmpty then d.modGroup i.ref fun _ => i.grp.advance i.sp true
    else if (d.part i.grid.pid).debugger then
      d.modGroup i.ref fun _ => let g := i.grp.advance i.sp true; { g with stop := true }
    else if i.grid.launch.traph then
      d.trap i { cause := .bkpt, sub := 0, mask := laneMask (i.on gd), src := .instruction, info := 0, pc := i.pc }
    else d.modGroup i.ref fun _ => i.grp.advance i.sp true

/-! ## Special registers (R93, R326, R328, R331) -/

/-- A core's lease clock (R238). -/
def Dev.clk (d : Dev) (core : Nat) : Word64 := BitVec.ofNat 64 d.cycle + Config.clkOffset core

def Group.pmcRead (g : Group) (t : Team) (n : Nat) : Word64 :=
  match g.pmc[n]? with
  | some c => if c.event = 4 then t.lost.setWidth 64 else c.count
  | none => 0

/-- The value of a special register in a lane. -/
def Dev.srValue (d : Dev) (i : Issuer) (sr lane : Nat) : Word64 :=
  let l := i.grid.launch
  let n := fun (k : Nat) => BitVec.ofNat 64 k
  match sr with
  | 0x00 => n lane
  | 0x01 => n (lane / 4)
  | 0x02 => n (4 * (maskSlices i.sp.mask).length)
  | 0x03 => n i.grp.splits.length
  | 0x04 => (laneMask i.active).setWidth 64
  | 0x05 => n i.grp.num
  | 0x06 => n i.team.num
  | 0x07 => n (i.team.num / l.per)
  | 0x08 => n i.grid.id
  | 0x09 => n i.team.core
  | 0x0A => n l.nteam
  | 0x0B => n l.ngroup
  | 0x0C => n (l.nteam / l.per)
  | 0x0D => i.grp.rgnctr.setWidth 64
  | 0x0E => i.grp.ictx.setWidth 64
  | 0x0F => i.grp.stage.setWidth 64
  | 0x10 => d.clk i.core
  | 0x11 => i.grid.rec_
  | 0x12 => i.grp.tr0
  | 0x13 => i.grp.tr1
  | 0x14 => i.grp.tr2
  | 0x15 => i.grp.tr3
  | _ => i.grp.pmcRead i.team (sr - 0x16)

/-- SRD (R331). -/
def execSrd (dst : Reg) (sr : BitVec 8) (gd : Guard) (s : State) : Res :=
  withIssuer s fun i d => d.modGroup i.ref fun _ =>
    i.put dst (srWide sr) false gd (d.srValue i sr.toNat) (i.grp.advance i.sp false)

/-- SWR (R331). -/
def execSwr (sr : BitVec 8) (a : BitVec 6) (s : State) : Res :=
  withIssuer s fun i d =>
    if sr = 0x12 ∧ !i.grp.inHandler i.sp then d.illop i 0x06
    else d.modGroup i.ref fun _ =>
      let g := i.grp.advance i.sp false
      if sr = 0x12 then { g with tr0 := ((i.sca a).setWidth 48 : BitVec 48).setWidth 64 }
      else { g with pmc := listSet g.pmc (sr.toNat - 0x16) fun c => { c with count := i.sca a } }

/-- PMEV (R335). -/
def execPmev (n : BitVec 2) (ev : BitVec 16) (s : State) : Res :=
  withGroup s false fun _ g => { g with pmc := listSet g.pmc n.toNat fun _ => { event := ev.toNat, count := 0 } }

/-! ## PHINT (R336, R337) -/

/-- PHINT: outside a pre-emption request, and in a group that is not whole, only a region start follows. -/
def execPhint (smask live : BitVec 8) (vmask : BitVec 32) (s : State) : Res :=
  withIssuer s fun i d => d.modGroup i.ref fun _ =>
    let g := i.grp.advance i.sp true
    match i.team.state with
    | .saving _ =>
      if i.grp.splits.length = 1 ∧ i.grp.slices.all (fun s => s.rstack.isEmpty) then
        { g with save := some { hint := some (vmask, smask, live) } }
      else g
    | _ => g

end Sys2Proof.Machine
end

