-- ==== Sys2Proof/Machine/Fabric.lean ====
section
/-! DEFINITION. What happens at the homes, between cores, and at the host's edge: requests performing and their
answers (R169 to R176, R239 to R247), watches (R278), long-latency results (R74), host accesses (R255 to R257). -/

namespace Sys2Proof.Machine

/-! ## Long-latency results (R74, R102 to R104) -/

/-- The slice an owed result belongs to. -/
def Dest.slice : Dest → Nat
  | .v l _ | .p l _ => l / 4
  | .s k _ => k

/-- The slices whose results an operation can write now: all their values are known; a scalar, and the last slice, wait
for every request. -/
def Owed.due (o : Owed) : List Nat :=
  o.slices.filter fun k => (o.items.all fun it => it.dest.slice != k || it.value.isSome) &&
    ((o.slices.length != 1 && !(o.items.any fun it => it.dest matches .s ..)) || o.waits.isEmpty)

/-- One owed result is written; a place an instruction has written since ends with either value (R104). -/
def Group.settleItem (g : Group) (fresh : Nat) (it : OwedItem) : Group :=
  let place := match it.dest with
    | .v l n => l + 32 * n
    | .p l n => 16384 + l + 32 * n
    | .s k n => 32768 + k + 8 * n
  if it.contested && Config.freeBool fresh place then g
  else match it.dest, it.value with
    | .v l n, some x => g.storeV l n (x.setWidth 32)
    | .p l n, some x => g.storeP l n (x.getLsbD 0)
    | .s k n, some x => g.storeS (1#8 <<< k) n x
    | _, none => g

/-- An operation writes its results for slice `k`, and its flag falls there (R74). With the last slice the settle
duration of an atomic's answer joins the group's (R247). -/
def Dev.writeBack (d : Dev) (r : GroupRef) (g : Group) (o : Owed) (k : Nat) : Dev :=
  let g := (o.items.filter fun it => it.dest.slice == k).foldl (fun g it => g.settleItem d.fresh it) g
  let g := g.lowerFlag k o.flag
  let rest := o.slices.filter (· != k)
  let g := if rest.isEmpty then
      { g with owed := g.owed.filter fun x => x.id != o.id }
    else { g with owed := g.owed.map fun x => if x.id = o.id then
        { x with slices := rest, items := x.items.filter fun it => it.dest.slice != k } else x }
  let g := match rest.isEmpty, o.settle with
    | true, some dur => g.foldSettle (d.settleDeadline dur)
    | _, _ => g
  d.modGroup r fun _ => g

/-- The group that owes an operation. -/
def Dev.owing? (d : Dev) (op : Nat) : Option (GroupRef × Group × Owed) :=
  d.teams.findSome? fun t => t.groups.findSome? fun g => (g.owed.find? (·.id == op)).map fun o => (⟨t.inst, g.num⟩, g, o)

/-- LONG_LATENCY_WRITEBACK (R74): the results of one slice, whichever is ready. -/
def execLongLatencyWriteback (op : Nat) (s : State) : Res :=
  withEvent s fun d => do
    let (r, g, o) ← d.owing? op
    let k ← o.due[Config.pick d.fresh % o.due.length]?
    some (d.writeBack r g o k)

/-! ## Requests at their homes -/

def Dev.req? (d : Dev) (id : Nat) : Option Req := d.reqs.find? (·.id == id)

def Dev.modReq (d : Dev) (id : Nat) (f : Req → Req) : Dev :=
  { d with reqs := d.reqs.map fun r => if r.id = id then f r else r }

def Dev.dropReq (d : Dev) (id : Nat) : Dev := { d with reqs := d.reqs.filter fun r => r.id != id }

/-- The request may perform next: it has left the core, and no earlier one of its split must come first (R166, R242). -/
def Dev.mayPerform (d : Dev) (r : Req) : Bool :=
  !r.done && !r.held && r.watch == 0 && d.reqs.all fun e => !(e.before r)

/-! ### The miss table and the spill ring (R173) -/

/-- The request's line has its home on this package (R171, R174). -/
def Req.local_ (r : Req) : Bool := r.target.isNone && decide (homeDie (r.line * 128) < 64)

/-- The request has reached its home and not yet performed there. -/
def Req.waiting (r : Req) : Bool := r.local_ && r.seat != .way && !r.done && r.watch == 0

def Seat.spilled : Seat → Bool
  | .spill _ => true
  | _ => false

/-- The order of arrival. -/
def Seat.ordinal : Seat → Nat
  | .way => 0
  | .table n | .spill n => n

/-- The requests of one load for one line: they read one version of it (R158). -/
def Dev.mates (d : Dev) (r : Req) : List Req :=
  d.reqs.filter fun e => e.id == r.id || (r.kind == .load && e.kind == .load && r.owed.isSome && e.owed == r.owed &&
    e.line == r.line && e.target.isNone && !e.done)

/-- The lines that have an entry of a home's miss table, each with the partition it was made for. -/
def Dev.entries (d : Dev) (h : Nat × Nat) : List (Nat × Nat) :=
  (d.reqs.filter fun r => r.waiting && !r.seat.spilled && homeAt r.line == h).foldl (fun es r =>
    if es.any (·.1 == r.line) then es else es ++ [(r.line, r.pid)]) []

/-- A partition may take a new entry: one of its own HSHARE, or one of those that are no partition's own (R365). -/
def Dev.entryFree (d : Dev) (h : Nat × Nat) (pid : Nat) : Bool :=
  let es := d.entries h
  let used := fun (p : Nat) => (es.filter (·.2 == p)).length
  let others := d.parts.foldl (fun n p => if p.pid = pid then n else n + (p.rec_.hshare - used p.pid)) 0
  decide (es.length < 256) && (decide (used pid < (d.part pid).rec_.hshare) || decide (es.length + others < 256))

/-- The miss table takes `n` requests for the line: its entry has room, or it gets an entry. -/
def Dev.tableTakes (d : Dev) (line pid n : Nat) : Bool :=
  let mine := d.reqs.filter fun r => r.waiting && r.line == line && !r.seat.spilled
  if mine.isEmpty then d.entryFree (homeAt line) pid else decide (mine.length + n ≤ 32)

/-- Where the requests of `r` go that reach the home now: the miss table; the spill ring, also while an earlier one for
the line is in it; or nowhere while the ring of 16,384 is full. -/
def Dev.seatFor (d : Dev) (r : Req) : Option Seat :=
  let n := (d.mates r).length
  let ring := d.reqs.filter fun e => e.waiting && e.seat.spilled && homeAt e.line == homeAt r.line
  if !ring.any (·.line == r.line) && d.tableTakes r.line r.pid n then some (.table d.fresh)
  else if ring.length + n ≤ 16384 then some (.spill d.fresh)
  else none

/-- The requests may reach their home: those of their split for the line have (R242). -/
def Dev.mayArrive (d : Dev) (r : Req) : Bool :=
  r.local_ && r.seat == .way && (d.mates r).all fun m => !m.held && !m.done && m.watch == 0 &&
    d.reqs.all fun e => !(e.before m && e.line == m.line && e.seat == .way && !(d.mates r).any (·.id == e.id))

def Dev.seat (d : Dev) (r : Req) (s : Seat) : Dev :=
  let ms := (d.mates r).map (·.id)
  { d with reqs := d.reqs.map fun e => if ms.contains e.id then { e with seat := s } else e }

/-- The requests reach their home and wait there. -/
def Dev.arrive (d : Dev) (r : Req) : Option Dev := if d.mayArrive r then (d.seatFor r).map (d.seat r) else none

/-- The home takes the first requests of its spill ring back into the miss table. -/
def Dev.takeBack (d : Dev) (r : Req) : Option Dev :=
  let ring := d.reqs.filter fun e => e.waiting && e.seat.spilled && homeAt e.line == homeAt r.line
  if r.waiting && r.seat.spilled && (ring.all fun e => decide (r.seat.ordinal ≤ e.seat.ordinal)) &&
      d.tableTakes r.line r.pid (d.mates r).length then some (d.seat r (.table r.seat.ordinal)) else none

/-- Nothing that reached the home earlier for the line is still to perform there. -/
def Dev.firstOfLine (d : Dev) (r : Req) : Bool :=
  d.reqs.all fun e => !(e.waiting && e.line == r.line && !(d.mates r).any (·.id == e.id) &&
    (r.seat == .way || decide (e.seat.ordinal < r.seat.ordinal)))

/-- The request's place at its home lets it perform: it is the first of its line in the miss table, or goes straight
through it as it arrives. A line of a peer's is performed by the peer's home. -/
def Dev.atHome (d : Dev) (r : Req) : Bool :=
  !r.local_ || (d.firstOfLine r && match r.seat with
    | .way => d.mayArrive r && ((d.seatFor r).any fun s => !s.spilled)
    | .table _ => true
    | .spill _ => false)

/-! ### Fills and grants -/

/-- The home fills the line unless it holds it: NL is the MAXL of the filling partition (R172, R239). A peer's line is
held by the peer. -/
def Dev.fillHome (d : Dev) (line pid : Nat) (str : Bool) : Dev :=
  let m := (d.part pid).rec_.maxl
  if 64 ≤ (homeAt line).1 then
    (if d.home line = HomeLine.none then d.setHome line { HomeLine.none with nl := m, maxl := m } else d)
  else if (d.home line).form.isSome then d.setHome line { d.home line with str := (d.home line).str && str }
  else match d.tagRoom line with
    | (d, true) => (d.setHome line { d.home line with nl := m, maxl := m, str }).holdData line
    | (d, false) => d

/-- A grant of a lease: any duration up to NL and the requester's MAXL, 64 units on a host line, and none on a line of
an open round's write ranges (R231, R239, R240, R255). -/
def Dev.grant (d : Dev) (line pid : Nat) : Dev × Nat :=
  let h := d.home line
  let most := min h.nl (d.part pid).rec_.maxl
  let most := if paRegion (line * 128) = 2 then min most 64 else most
  let u := if d.rounds.any (·.lines.contains line) then 0 else Config.lease d.fresh % (most + 1)
  if u = 0 then (d, 0)
  else (d.setHome line { h with expiry := max h.expiry (d.cycle + 16 * u), leased := true, maxl := (d.part pid).rec_.maxl }, u)

/-- A line arrives in a core's L1, as its home gave it at `asOf`; a private copy of the core is left alone (R169, R170). -/
def Dev.install (d : Dev) (r : Req) (deadline asOf : Nat) (data : Line) : Dev :=
  match (d.core r.core).line? r.line with
  | some ⟨_, _, _, some _, _, _⟩ => d
  | _ =>
    let d := d.allocSb r.core r.line (r.pol == .str)
    d.modCore r.core fun c => c.setLine r.line
      (some { deadline := if r.stale then 0 else deadline, asOf, dirty := false, owner := none, key := r.key, data })

/-- The values of a request's parts, with their places. -/
def Req.values (r : Req) (bytes : Part → List Byte) : List (Dest × Word64) :=
  r.parts.flatMap fun p => placed r.dst r.signed (maskSlices r.mask) p.lane p.off (bytes p)

/-- The home holds a cacheable line that an access reaches; one by .UC only when it does already (R167). -/
def Dev.reachHome (d : Dev) (r : Req) : Dev :=
  if r.mt = .cacheable ∧ r.pol ≠ .uc then d.fillHome r.line r.pid (r.pol == .str) else d

/-- A load performs at the home (R169, R240); its group has read the version it gives (R251). -/
def Dev.homeLoad (d : Dev) (r : Req) : Dev :=
  let d := d.reachHome r
  let vals := r.values fun p => d.rdBytes r.key p.pa p.size
  let d := if r.parts.isEmpty then d else d.sees r.by_ r.line d.fresh
  let d := if r.alloc then
      let (d, u) := d.grant r.line r.pid
      d.install r (if u = 0 then 0 else r.leftAt + 16 * u - drift (16 * u)) d.fresh (d.rdLine r.key r.line)
    else d
  (d.answer r vals none).dropReq r.id

/-- A place that gathers a group's posted stores takes a line's expiry: the marker that will gather it, or the
group's destination set (R247). -/
def Group.postedAt (g : Group) (place id expiry : Nat) : Group :=
  if g.markers.any (fun m => m.place == place && decide (id < m.before)) then
    { g with markers := (g.markers.foldl (fun (done, ms) m =>
        if !done && m.place == place && decide (id < m.before) then (true, ms ++ [{ m with expiry := max m.expiry expiry }])
        else (done, ms ++ [m])) (false, ([] : List Marker))).2 }
  else { g with posted := g.posted.map fun p => if p.place = place then { p with expiry := max p.expiry expiry } else p }

/-- One part of an atomic performs; the old bytes. -/
def Dev.homeAtom (d : Dev) (r : Req) (p : Part) : Dev × List Byte :=
  let old := d.rdBytes r.key p.pa p.size
  match r.kind.apply (bytesNat old) p with
  | some v => (d.homeWrite (r.mt == .cacheable) r.key p.pa (natBytes p.size v), old)
  | none => (d.homeStore (r.mt == .cacheable) r.line, old)

/-- A store or atomic performs at the home, which answers with a settle duration; one posted to another die or a peer
takes no answer (R241, R246, R247). -/
def Dev.homePut (d : Dev) (r : Req) : Dev :=
  let d := d.reachHome r
  let expiry := if r.mt = .cacheable then (d.home r.line).expiry else 0
  let dur := d.settleFor r.mt expiry
  let (d, vals) : Dev × List (Dest × Word64) := match r.kind with
    | .store => (r.parts.foldl (fun (d : Dev) p => d.homeWrite (r.mt == .cacheable) r.key p.pa (natBytes p.size p.data.toNat)) d, [])
    | _ => r.parts.foldl (fun (d, vs) p =>
        let (d, old) := Dev.homeAtom d r p
        (d, vs ++ placed r.dst r.signed [] p.lane p.off old)) (d, [])
  let d := (d.refreshOwn r.core r.line).sees r.by_ r.line d.fresh
  if r.owed.isSome then (d.answer r vals (some dur)).dropReq r.id
  else match r.postedTo with
    | some place => (d.modGroup r.by_ fun g => g.postedAt place r.id expiry).dropReq r.id
    | none => d.modReq r.id fun r => { r with done := true, settle := dur }

/-- A cause of a group's earlier work, raised at its next header (R195, R327, R347). -/
def Dev.raiseLater (d : Dev) (r : GroupRef) (a : AsyncCause) : Dev :=
  d.modGroup r fun g => { g with async := g.async ++ [a] }

/-- PERM of a request where it arrives, in its lanes; the trap record names the lowest lane's address (R326, R347). -/
def Req.perm (r : Req) (pc : BitVec 48) : AsyncCause :=
  { cause := .perm, src := .instruction, info := ((r.parts.map (·.va)).headD 0) % 2 ^ 48, lanes := laneMask (r.parts.map (·.lane))
    pc, lvl := 0, wr := r.kind != .load }

/-- A request that meets a scratchpad past its team's step 7, or a peer with no live port, where it arrives (R347, R371;
log 21). LDF and STF perform nothing there: LDF's registers are written with zero, and the lanes' predicates are false
(R181). Any other raises PERM in its lanes, and their registers are not written. -/
def Dev.refuseReq (d : Dev) (r : Req) : Dev :=
  let gone : List Dest := (r.values fun p => List.replicate p.size 0).map (·.1)
  let mine := fun (it : OwedItem) => match r.soft, it.dest with
    | some n, .p l m => m == n.toNat && r.parts.any (·.lane == l)
    | _, _ => gone.contains it.dest
  let cut := fun (o : Owed) =>
    if r.owed == some o.id then
      { o with waits := o.waits.filter (· != r.id)
               items := if r.soft.isSome then o.items.map fun it => if mine it then { it with value := some 0 } else it
                        else o.items.filter fun it => !mine it }
    else o
  let d := (d.modGroup r.by_ fun g => { g with owed := g.owed.map cut }).dropReq r.id
  match r.soft, r.owed with
  | some _, some _ => d
  | some n, none => d.modGroup r.by_ fun g => r.parts.foldl (fun g p => g.writeP p.lane n.toNat false) g
  | none, _ => if r.parts.isEmpty then d else d.raiseLater r.by_ (r.perm r.pc)

/-- A watch's word as it now stands, and whether it still equals the operand (R278). -/
def Dev.watchWord (d : Dev) (r : Req) : List Byte × Bool :=
  match r.parts with
  | p :: _ =>
    let bs := d.rdBytes r.key p.pa p.size
    (bs, bytesNat bs == p.cmp.toNat)
  | [] => ([], false)

/-- A watch ends with the bytes it returns; its group has read the version that gave them (R251). -/
def Dev.endWatch (d : Dev) (r : Req) (bs : List Byte) : Dev :=
  ((d.sees r.by_ r.line d.fresh).answer r (r.values fun _ => bs) none).dropReq r.id

/-- WAITA reads its word: it returns a changed one, or the home watches the line (R278). -/
def Dev.watchRead (d : Dev) (r : Req) : Dev :=
  let (bs, same) := d.watchWord r
  if same then d.modReq r.id fun r => { r with watch := 1 } else d.endWatch r bs

/-- A killed team's watch and load requests have gone; a request of a team that is gone still performs as a store. -/
def Dev.perform (d : Dev) (r : Req) : Dev :=
  match r.kind with
  | .load => d.homeLoad r
  | .watch _ => d.watchRead r
  | _ => d.homePut r

/-- HOME_ACCESS: a request that has reached its home, or reaches it now and finds the miss table open, performs there
(R173); with it the other requests of one load for the line, which read the same version (R158). -/
def execHomeAccess (id : Nat) (s : State) : Res :=
  withEvent s fun d => do
    let r ← d.req? id
    let ms := d.mates r
    if r.target.isNone && d.atHome r && (ms.headD r).id == id && ms.all fun m => !m.done && !m.held && m.watch == 0 &&
        d.reqs.all fun e => !(e.before m) || ms.any (·.id == e.id) then
      some (ms.foldl (fun d m => if d.unreachable (m.line * 128) then d.refuseReq m else d.perform m) d)
    else none

/-- WAITA_WAKE: the watch has ended and the word is read again (R278). -/
def execWaitaWake (id : Nat) (s : State) : Res :=
  withEvent s fun d => do
    let r ← d.req? id
    if r.watch = 2 then some (d.watchRead r) else none

/-- WATCH_DROP: WAITA returns the value it last read, which equals its operand (R278). -/
def execWatchDrop (id : Nat) (s : State) : Res :=
  withEvent s fun d => do
    let r ← d.req? id
    if r.watch = 1 then some (d.endWatch r (r.parts.flatMap fun p => natBytes p.size p.cmp.toNat)) else none

/-- STORE_ANSWER: the settle duration counts from the answer's arrival (R241). -/
def execStoreAnswer (id : Nat) (s : State) : Res :=
  withEvent s fun d => do
    let r ← d.req? id
    if r.done then
      some ((d.modGroup r.by_ fun g =>
        if r.mt = .cacheable then g.foldSettle (d.settleDeadline r.settle) else g).dropReq id)
    else none

/-- A marker has been answered. -/
def Group.dropMarker (g : Group) (place : Nat) : Group :=
  { g with markers := g.markers.eraseIdx ((g.markers.findIdx? fun x => x.place == place).getD 0) }

/-- FLUSH_MARKER: the place has performed every earlier posted store of the group, and answers with one settle
duration (R247); for a peer with no live port PERM is raised (R371; log 21). -/
def execFlushMarker (r : GroupRef) (place : Nat) (s : State) : Res :=
  withEvent s fun d => do
    let g ← d.group? r
    let m ← g.markers.find? (·.place == place)
    if 64 ≤ place ∧ d.peerDead (place - 64) then
      some ((d.modGroup r (·.dropMarker place)).raiseLater r
        { cause := .perm, src := .instruction, info := m.va % 2 ^ 48, lanes := 0, pc := m.pc, lvl := 0, wr := true })
    else if d.reqs.any fun q => q.by_ == r && q.postedTo == some place && decide (q.id < m.before) then none
    else some (d.modGroup r fun g => (g.dropMarker place).foldSettle (d.settleDeadline (d.settleFor .cacheable m.expiry)))

/-- SETTLE_DEADLINE: the core's clock has passed the group's SETTLE (R246). -/
def execSettleDeadline (r : GroupRef) (s : State) : Res :=
  withEvent s fun d => do
    let g ← d.group? r
    let t ← g.settle
    if t < d.cycle then some (d.modGroup r fun g => { g with settle := none }) else none

/-- LEASE_EXPIRY: NL doubles when no store performed during the lease (R239). -/
def execLeaseExpiry (line : Nat) (s : State) : Res :=
  withEvent s fun d =>
    let h := d.home line
    if h.leased ∧ h.expiry ≤ d.cycle then
      some (d.setHome line { h with leased := false, stored := false, nl := if h.stored then h.nl else max h.nl (min (2 * h.nl) h.maxl) })
    else none

/-- The peer's copy of a line that a probe may return: live, shared and under the same key (R176), and no older than what
the group has met or its last FENCE.SC admits (R249, R251; log 20). -/
def Dev.peerCopy? (d : Dev) (r : Req) (core : Nat) : Option L1Line :=
  match (d.core core).line? r.line with
  | some l =>
    if l.owner.isNone && l.key == r.key && decide (d.cycle < l.deadline) &&
        ((d.group? r.by_).all fun g => g.mayRead r.since r.line l.asOf) then some l else none
  | none => none

/-- PEER_PROBE: a peer that holds the line live returns it with its remaining lease; otherwise the request goes on
to the home (R176). -/
def execPeerProbe (id core : Nat) (s : State) : Res :=
  withEvent s fun d => do
    let r ← d.req? id
    if r.kind = .load ∧ r.alloc ∧ !r.acq ∧ r.target.isNone ∧ r.seat = .way ∧ (d.mates r).length = 1 ∧ d.mayPerform r ∧
        core ≠ r.core ∧ core / 128 = r.core / 128 then
      match d.peerCopy? r core with
      | some l =>
        let left := l.deadline - d.cycle
        let vals := r.values fun p => l.bytes (p.pa % 128) p.size
        let d := (d.sees r.by_ r.line l.asOf).install r (r.leftAt + left - drift left) l.asOf l.data
        some ((d.answer r vals none).dropReq id)
      | none => some d
    else none

/-! ## Cluster scratchpad (R244, R347) -/

/-- A request performs in a scratchpad. -/
def Dev.poolPerform (d : Dev) (r : Req) (t : Team) : Dev :=
  match r.kind with
  | .load => (d.answer r (r.values fun p => fgetBytes t.scr p.pa p.size) none).dropReq r.id
  | .store =>
    let d := r.parts.foldl (fun d p => d.modTeam t.inst fun t =>
      { t with scr := fsetBytes t.scr p.pa (natBytes p.size p.data.toNat) }) d
    d.modReq r.id fun r => { r with done := true }
  | k =>
    let (d, vals) := r.parts.foldl (fun (d, vs) p =>
      let (d, old) := d.poolAtom t.inst k p
      (d, vs ++ placed r.dst r.signed [] p.lane p.off old)) (d, [])
    if r.owed.isSome then (d.answer r vals none).dropReq r.id else d.modReq r.id fun r => { r with done := true }

/-- SCRATCHPAD_REMOTE_ACCESS: an access performs at the pool where it arrives; one that comes after the team's step 7
raises PERM (R244, R347; log 21). -/
def execScratchpadRemoteAccess (id : Nat) (s : State) : Res :=
  withEvent s fun d => do
    let r ← d.req? id
    let tgt ← r.target
    if d.mayPerform r then
      match (d.team? tgt).filter (·.scrLive) with
      | some t => some (d.poolPerform r t)
      | none => some (d.refuseReq r)
    else none

/-! ## The page walker (R164, R183) -/

/-- PAGE_WALK: a walk that only a prefetch waits for fills the TLBs, and its line is asked for; a failing one is dropped
(R164, R183). -/
def execPageWalk (die : Nat) (s : State) : Res :=
  withEvent s fun d =>
    match (d.die die).walks with
    | [] => none
    | w :: rest =>
      let d := d.modDie die fun x => { x with walks := rest }
      match d.translate w.core w.pid w.asid w.va .r with
      | (d, .ok l) => some (match (d.group? w.by_).bind (·.splits.find? fun x => x.mask &&& w.mask != 0) with
        | some sp => (match d.issuerAt? ⟨w.by_.team, w.by_.group, sp.stamp⟩ with
          | some i => if i.core = w.core then d.prefetchLine i w.priv w.home w.pol l w.va else d
          | none => d)
        | none => d)
      | (d, _) => some d

/-! ## The host (R255 to R257) -/

/-- When a host access to a line completes: the home's clock has passed E + G(E − p) (R255, R257). -/
def Dev.hostDone (d : Dev) (line : Nat) : Nat :=
  let e := (d.home line).expiry
  if d.cycle < e then e + drift (e - d.cycle) else 0

/-- HOST_SNOOP: the home gives the host line up and answers when its leases have lapsed (R255, R278). -/
def execHostSnoop (line : Nat) (s : State) : Res :=
  withEvent s fun d =>
    let d := { d with hostTill := max d.hostTill (d.hostDone line) }
    some ((d.setHome line { d.home line with owned := false, form := none, str := false }).wakeWatches line)

/-- The device bytes a host address range names in the device-memory range: offsets of region 0x0 (R362). -/
def hdmOffset (hpa : Nat) : Option Nat :=
  if Config.hdmBase ≤ hpa ∧ hpa < Config.hdmBase + 2 ^ 39 then some (hpa - Config.hdmBase) else none

/-- The host holds a device line, as far as its home has room to note it (R257; log 68). -/
def Dev.hostTakes (d : Dev) (line : Nat) : Dev :=
  match d.tagRoom line with
  | (d, true) => d.setHome line { d.home line with hostHas := true }
  | (d, false) => d

/-- HOST_MEM_READ: the host takes the lines' current values; the device's own areas read as zeros and are not held
(R257, R362). -/
def execHostMemRead (hpa n : Nat) (s : State) : Res :=
  withEvent s fun d =>
    match (if s.fw.recovery then none else hdmOffset hpa) with
    | none => some d
    | some pa => some ((linesOf pa n).foldl (fun d l => if carveOut (l * 128) then d else d.hostTakes l) d)

/-- One byte of a host write: to the device-memory range, at the home; to the host's own memory, region 0x2, whose
line the home gives up first (R255, R257, R362). -/
def Dev.hostByte (d : Dev) (hpa : Nat) (b : Byte) : Dev :=
  match hdmOffset hpa with
  | some pa =>
    if carveOut pa then d
    else
      let d := { d with hostTill := max d.hostTill (d.hostDone (pa / 128)) }
      (d.homeWrite true 0 pa [b]).hostTakes (pa / 128)
  | none =>
    let pa := 2 * 2 ^ 48 + hpa % 2 ^ 48
    let d := { d with hostTill := max d.hostTill (d.hostDone (pa / 128)) }
    ((d.wr 0 pa [b]).setHome (pa / 128) { d.home (pa / 128) with owned := false, form := none, str := false }).wakeWatches
      (pa / 128)

/-- HOST_MEM_WRITE (R257); in recovery no device-memory range is decoded (R379). -/
def execHostMemWrite (hpa : Nat) (bytes : List Byte) (s : State) : Res :=
  withEvent s fun d => some (if s.fw.recovery ∧ (hdmOffset hpa).isSome then d else bytes.zipIdx.foldl (fun d (b, k) => d.hostByte (hpa + k) b) d)

end Sys2Proof.Machine
end

