-- ==== Sys2Proof/Machine/Copies.lean ====
section
/-! DEFINITION. Asynchronous copies: layout records, the copy unit and its instructions (R186 to R200), and the
completion of engine chains (R282). -/

namespace Sys2Proof.Machine

/-! ## Layout records (R186 to R189) -/

/-- Bytes of an element of a type code (R150, R187). -/
def typeBytes (t : Nat) : Nat :=
  match t with
  | 8 => 4 | 9 => 8 | 10 | 11 => 2 | 12 | 13 | 14 => 1
  | t => (intType t).1 / 8

def Layout.esz (l : Layout) : Nat := typeBytes l.fmt

/-- Box size in a dimension, 1 beyond the rank. -/
def Layout.box (l : Layout) (k : Nat) : Nat := max 1 (l.boxes.getD k 0)

def Layout.boxBytes (l : Layout) : Nat := l.box 0 * l.box 1 * l.box 2 * l.box 3 * l.box 4 * l.esz

/-- A record's fields, whatever they hold. -/
def Layout.ofWords (ws : List Word64) : Layout :=
  let w := fun (k lo len : Nat) => bits (ws.getD k 0).toNat lo len
  { repeats := w 0 55 1 == 1, zero := w 0 56 2 == 1, rank := w 0 52 3, fmt := w 0 48 4, base := w 0 0 48
    dims := [w 1 0 32, w 1 32 32, w 2 0 32, w 2 32 32, w 3 0 32]
    boxes := [w 3 32 16, w 3 48 16, w 6 0 16, w 6 16 16, w 6 32 16]
    strides := [w 4 0 32, w 4 32 32, w 5 0 32, w 5 32 32], swz := w 6 48 4, scale := w 7 0 48 }

/-- R187: a field is marked malformed or reserved and nonzero, or the sizes do not fit the rank. -/
def Layout.malformed (ws : List Word64) : Bool :=
  let l := Layout.ofWords ws
  let w := fun (k lo len : Nat) => bits (ws.getD k 0).toNat lo len
  w 0 58 6 != 0 || decide (2 ≤ w 0 56 2) || w 6 52 12 != 0 || w 7 48 16 != 0 || l.rank == 0 || decide (5 < l.rank) ||
  l.fmt == 15 || decide (4 ≤ l.swz) ||
  (List.range 5).any (fun k =>
    if k < l.rank then l.dims.getD k 0 == 0 || l.boxes.getD k 0 == 0
    else l.dims.getD k 0 != 0 || l.boxes.getD k 0 != 0 || l.strides.getD (k - 1) 0 != 0) ||
  l.box 0 * l.esz % 16 != 0 || decide (2 ^ 22 < l.boxBytes)

/-- R188: a coordinate mapped into a dimension of size `n`, or none where the element reads as zeros. -/
def Layout.mapCoord (l : Layout) (n : Nat) (c : Int) : Option Nat :=
  if 0 ≤ c ∧ c < n then some c.toNat
  else if l.zero then none
  else if l.repeats then
    let m := (c % (2 * n : Nat)).toNat
    some (if m < n then m else 2 * n - 1 - m)
  else if n = 1 then some 0
  else
    let m := (c % (2 * n - 2 : Nat)).toNat
    some (if m < n then m else 2 * n - 2 - m)

/-- The address of the element at coordinates within the dimensions (R187). -/
def Layout.elemAddr (l : Layout) (cs : List Nat) : Nat :=
  l.base + cs.headD 0 * l.esz + 16 * ((cs.drop 1).zip l.strides).foldl (fun a (c, s) => a + c * s) 0

/-- The box index of the element at a linear place. -/
def Layout.boxIndex (l : Layout) (e : Nat) : List Nat :=
  let go := (List.range 5).foldl (fun (acc : List Nat × Nat) k => (acc.1 ++ [acc.2 % l.box k], acc.2 / l.box k)) ([], e)
  go.1.take l.rank

/-- The linear place of a box index. -/
def Layout.linear (l : Layout) (ix : List Nat) : Nat :=
  (List.range 5).foldr (fun k acc => acc * l.box k + ix.getD k 0) 0

/-- R189: where the byte at linear offset `x` lies from the destination. -/
def swizzle (k x : Nat) : Nat := x ^^^ (x / 128 % 2 ^ k * 16)

/-- The mapped coordinates of an element, in every dimension of the rank (R188). -/
def Layout.mapAll (l : Layout) (cs : List Int) : Option (List Nat) :=
  ((cs.take l.rank).zip l.dims).foldr (fun (c, n) acc => do return (← l.mapCoord n c) :: (← acc)) (some [])

/-- Every coordinate lies in range (R188). -/
def Layout.inRange (l : Layout) (cs : List Int) : Option (List Nat) :=
  if ((cs.take l.rank).zip l.dims).all fun (c, n) => decide (0 ≤ c) && decide (c < n) then
    some ((cs.take l.rank).map Int.toNat)
  else none

/-! ## CRC32C (R193) -/

def crcBit (c : BitVec 32) : BitVec 32 := if c.getLsbD 0 then (c >>> 1) ^^^ 0x82F63B78 else c >>> 1

def crcByte (c : BitVec 32) (b : Byte) : BitVec 32 :=
  (List.range 8).foldl (fun c _ => crcBit c) (c ^^^ b.setWidth 32)

/-- CRC32C of bytes. -/
def crc32c (bs : List Byte) : BitVec 32 := ~~~(bs.foldl crcByte 0xFFFFFFFF)

/-! ## Chains (R282) -/

/-- A chain's name: its partition and its descriptor's address. -/
def chainKey (pid addr : Nat) : Nat := pid * 2 ^ 48 + addr

def Chain.key (c : Chain) : Nat := chainKey c.pid c.addr

def Dev.chain? (d : Dev) (key : Nat) : Option Chain := d.chains.find? (·.key == key)

def Dev.modChain (d : Dev) (key : Nat) (f : Chain → Chain) : Dev :=
  { d with chains := d.chains.map fun c => if c.key = key then f c else c }

def Chain.die (c : Chain) : Nat := if c.eng = 1 then c.tgt / 128 else c.tgt

/-- SRC of the chain's engine (R318). -/
def Chain.origin (c : Chain) : Origin :=
  match c.eng with
  | 1 => .blockEngine | 2 => .cittern | 3 => .galliard | _ => .cte

def Chain.where_ (c : Chain) : Where :=
  { src := c.origin, ctx := 0, core := if c.eng = 1 then c.tgt else 0, grp := 0, pc := 0 }

/-- The chain halts, and its engine drops what it has not completed; what follows is written by `chainWrite` (R282). -/
def Dev.chainHalt (d : Dev) (key : Nat) (code : BitVec 8) : Dev :=
  let mine : Copy → Bool := fun c => match c.owner with
    | .chain k _ => k == key
    | .group .. => false
  let ours : CitternJob → Bool := fun j => match j.chain with
    | some (k, _) => k == key
    | none => false
  let d := { d with
    copies := d.copies.filter fun c => !mine c
    jobs := d.jobs.filter fun j => !ours j
    blocks := d.blocks.filter fun b => b.chain != key }
  d.modChain key fun c => if c.halted then c else { c with halted := true, code, told := false }

/-- The leading completed entries, from `n` on. -/
def leadFrom (done : List Nat) : (fuel n : Nat) → Nat
  | 0, n => n
  | f + 1, n => if done.contains n then leadFrom done f (n + 1) else n

/-- The count of leading completed entries rises; a halted chain completes nothing more (R282). -/
def Chain.rise (c : Chain) : Chain :=
  let n := leadFrom c.done c.done.length c.lead
  if c.halted ∨ n = c.lead then c else { c with lead := n, done := c.done.filter (n ≤ ·), due := true }

/-- An entry completes (R282). -/
def Dev.chainDone (d : Dev) (key entry : Nat) : Dev := d.modChain key fun c => Chain.rise { c with done := entry :: c.done }

/-- What an engine's failed access does to its chain: recorded and held, or a halt with 0x03 (R282, R284). -/
def Dev.chainFault (d : Dev) (c : Chain) (hold : Dev → Dev) : Option MemFault → Dev
  | some f => if f.cause = .xlate ∨ f.replay then hold (d.recordFault c.pid f 0 c.where_) else d.chainHalt c.key 3
  | none => d.chainHalt c.key 3

/-- The chain has something to write, and every write of its entries has performed (R282). -/
def Chain.writes (c : Chain) (d : Dev) : Bool := ((c.due && !c.held) || (c.halted && !c.told)) && decide (d.settle < d.cycle)

/-- CWORD, or the halt's word with EVT[2] and the vector, each with a release at .SYS (R282). -/
def Dev.chainWrite (d : Dev) (c : Chain) : Dev :=
  if c.due && !c.held then
    match d.engWrite c.die c.pid c.asid c.cword (natBytes 8 c.lead) with
    | (d, .ok _) => d.modChain c.key fun c => { c with due := false }
    | (d, .fault f) => (d.chainFault c (·.modChain c.key fun c => { c with held := true }) (some f)).modChain c.key fun x =>
        if x.halted then { x with due := false } else x
    | (d, .ecc) => (d.chainHalt c.key 3).modChain c.key fun c => { c with due := false }
  else
    let w : Word64 := 1#1 ++ 0#7 ++ c.code ++ 0#48
    let d := (d.engWrite c.die c.pid c.asid (c.addr + 0x10) (wordBytes w)).1
    ((d.modChain c.key fun c => { c with told := true }).setEvt c.pid 2).raiseVec c.pid 0

/-! ## The copy unit (R189 to R195) -/

def Dev.copy? (d : Dev) (id : Nat) : Option Copy := d.copies.find? (·.id == id)

def Dev.modCopy (d : Dev) (id : Nat) (f : Copy → Copy) : Dev :=
  { d with copies := d.copies.map fun c => if c.id = id then f c else c }

def Dev.dropCopy (d : Dev) (id : Nat) : Dev := { d with copies := d.copies.filter fun c => c.id != id }

/-- Where a byte of a side lies, as a fault's address. -/
def Side.at_ : Side → Nat → Nat
  | .glob va, o => va + o
  | .scr _ off, o => off + o

/-- Reads one side; a scratchpad whose team has passed step 7 raises PERM (R195, R347). -/
def Dev.readSide (d : Dev) (c : Copy) (s : Side) (o n : Nat) : Dev × Eng (List Byte) :=
  match s with
  | .glob va => d.engRead (c.core / 128) c.pid c.asid (va + o) n
  | .scr t off => match (d.team? t).filter (·.scrLive) with
    | some t => (d, .ok (fgetBytes t.scr (off + o) n))
    | none => (d, .fault (hardPerm (off + o) false))

/-- A copy's write to global memory, with what it leaves to settle (R254). -/
def Dev.copyWrite (d : Dev) (c : Copy) (va : Nat) (bs : List Byte) : Dev × Eng Unit :=
  match d.engWriteFor (c.core / 128) c.pid c.asid va bs with
  | (d, .ok vs) => (match c.owner with
    | .group g b => (d.leaves g true b (match c.fin with | .mb a => some a | _ => none) vs, .ok ())
    | .chain .. => (d, .ok ()))
  | (d, .fault f) => (d, .fault f)
  | (d, .ecc) => (d, .ecc)

def Dev.writeSide (d : Dev) (c : Copy) (s : Side) (o : Nat) (bs : List Byte) : Dev × Eng Unit :=
  match s with
  | .glob va => d.copyWrite c (va + o) bs
  | .scr t off => match (d.team? t).filter (·.scrLive) with
    | some t => (d.modTeam t.inst fun t => { t with scr := fsetBytes t.scr (off + o) bs }, .ok ())
    | none => (d, .fault (hardPerm (off + o) true))

/-- The elements of a box's chunk `j`, read from global memory (R188). -/
def Dev.readElems (d : Dev) (c : Copy) (l : Layout) (coords : Nat → List Int) (j : Nat) : Dev × Eng (List Byte) :=
  (List.range (16 / l.esz)).foldl (fun (d, acc) t =>
    match acc with
    | .ok bs => match l.mapAll (coords (16 * j / l.esz + t)) with
      | none => (d, .ok (bs ++ List.replicate l.esz 0))
      | some cs => match d.engRead (c.core / 128) c.pid c.asid (l.elemAddr cs) l.esz with
        | (d, .ok x) => (d, .ok (bs ++ x))
        | r => r
    | r => (d, r)) (d, .ok [])

/-- The elements of a box's chunk that lie in range are written to global memory (R188). -/
def Dev.writeElems (d : Dev) (c : Copy) (l : Layout) (coords : Nat → List Int) (j : Nat) (bs : List Byte) : Dev × Eng Unit :=
  (List.range (16 / l.esz)).foldl (fun (d, acc) t =>
    match acc with
    | .ok _ => match l.inRange (coords (16 * j / l.esz + t)) with
      | none => (d, .ok ())
      | some cs => d.copyWrite c (l.elemAddr cs) ((bs.drop (l.esz * t)).take l.esz)
    | r => (d, r)) (d, .ok ())

/-- The coordinates of the element at linear place `e` of a box with its origin (R188). -/
def boxCoords (l : Layout) (origin : List Int) (e : Nat) : List Int :=
  ((l.boxIndex e).zip origin).map fun (i, o) => o + (i : Int)

/-- Where chunk `j` of a box lies from its scratchpad address: its ring row, then the swizzle (R189, R190). -/
def boxPlace (l : Layout) (origin : List Int) (ring : Bool) (j : Nat) : Nat :=
  let ix := l.boxIndex (16 * j / l.esz)
  let ix := if ring then listSet ix 1 fun i => ((origin.getD 1 0 + (i : Int)) % (l.box 1 : Nat)).toNat else ix
  swizzle l.swz (l.linear ix * l.esz + 16 * j % l.esz)

/-- Chunk `j` of a copy: the bytes read, once they are written. -/
def Dev.copyChunk (d : Dev) (c : Copy) (j : Nat) : Dev × Eng (List Byte) :=
  let put := fun (r : Dev × Eng (List Byte)) (w : Dev → List Byte → Dev × Eng Unit) => match r with
    | (d, .ok bs) => (match w d bs with
      | (d, .ok _) => (d, .ok bs)
      | (d, .fault f) => (d, Eng.fault f)
      | (d, .ecc) => (d, Eng.ecc))
    | r => r
  match c.kind with
  | .linear => put (d.readSide c c.src (16 * j) 16) fun d bs => d.writeSide c c.dst (16 * j) bs
  | .fill => put (d, .ok (List.replicate 16 0)) fun d bs => d.writeSide c c.dst (16 * j) bs
  | .tl l origin ring _ => put (d.readElems c l (boxCoords l origin) j) fun d bs =>
      d.writeSide c c.dst (boxPlace l origin ring j) bs
  | .ts l origin => put (d.readSide c c.src (boxPlace l origin false j) 16) fun d bs =>
      d.writeElems c l (boxCoords l origin) j bs
  | .gather l rows => put (d.readElems c l (fun e => [((e % l.box 0 : Nat) : Int), rows.getD (e / l.box 0) 0]) j) fun d bs =>
      d.writeSide c c.dst (swizzle l.swz (16 * j)) bs

/-- The copy is abandoned: its batch completes, its operand receives nothing, and the cause is raised in the group's
leader lane, or its chain halts (R195, R284). -/
def Dev.abandonCopy (d : Dev) (c : Copy) (cause : Cause) (va : Nat) (lvl : Nat := 0) (wr : Bool := false) : Dev :=
  let d := d.dropCopy c.id
  match c.owner with
  | .group g _ => d.raiseLater g { cause, src := .copy, info := va % 2 ^ 48, lanes := 0, pc := c.pc, lvl, wr }
  | .chain key _ => d.chainHalt key 3

/-- Who a copy's fault names (R318). -/
def Copy.where_ (c : Copy) : Where :=
  match c.owner with
  | .group g _ => { src := .copy, ctx := 0, core := c.core, grp := g.group, pc := c.pc }
  | .chain .. => { src := .blockEngine, ctx := 0, core := c.core, grp := 0, pc := 0 }

def Copy.lanes (c : Copy) : BitVec 32 :=
  match c.owner with
  | .group .. => 1#32 <<< c.lane
  | .chain .. => 0

/-- A fault that REPLAY_ALL may mend is recorded and holds the copy; any other abandons it (R195). -/
def Dev.copyFault (d : Dev) (c : Copy) (f : MemFault) : Dev :=
  if f.cause = .xlate ∨ f.replay then
    (d.recordFault c.pid f c.lanes c.where_).modCopy c.id fun c => { c with held := true }
  else d.abandonCopy c f.cause f.va f.lvl f.wr

/-- The requests of the copy's group to scratchpads that came before it have performed (R194, R253). -/
def Dev.copyOrdered (d : Dev) (c : Copy) : Bool :=
  match c.owner with
  | .group g _ => d.reqs.all fun r => !(r.by_ == g && r.target.isSome && decide (r.id < c.id) && !r.done)
  | .chain .. => true

/-- The copy's team is saved; its copies go on when it is back (R196). -/
def Dev.copyAway (d : Dev) (c : Copy) : Bool :=
  match c.owner with
  | .group g _ => d.isAway g.team
  | .chain .. => false

/-- The copy has chunks to move now. -/
def Dev.copyMoves (d : Dev) (c : Copy) : Bool :=
  !c.held && !d.copyAway c && (!c.left.isEmpty || decide (c.next < c.stop)) && d.copyOrdered c

/-- Chunks a chain's copy takes up at a time. -/
def copyWindow : Nat := 4096

/-- The copy unit moves one chunk, in any order (R197). -/
def Dev.moveChunk (d : Dev) (c : Copy) : Dev :=
  let c := if c.left.isEmpty then
      let n := min c.stop (c.next + copyWindow)
      { c with left := (List.range (n - c.next)).map (c.next + ·), next := n }
    else c
  let k := Config.pick d.fresh % c.left.length
  let j := c.left.getD k 0
  match d.copyChunk c j with
  | (d, .ok bs) => d.modCopy c.id fun _ => { c with
      left := c.left.eraseIdx k, got := if c.crc then fsetBytes c.got (16 * j) bs else c.got }
  | (d, .fault f) => (d.modCopy c.id fun _ => c).copyFault c f
  | (d, .ecc) => d.abandonCopy c .ecc (c.src.at_ (16 * j))

/-- The counter of `.CNT` takes the byte count, modulo 2^64 (R192). -/
def Dev.copyCount (d : Dev) (c : Copy) (va : Nat) : Dev × Eng Unit :=
  let die := c.core / 128
  match d.engWord die c.pid c.asid va with
  | (d, .ok x) => d.engWrite die c.pid c.asid va (wordBytes (x + BitVec.ofNat 64 c.bytes))
  | (d, .fault f) => (d, .fault f)
  | (d, .ecc) => (d, .ecc)

/-- The CRC of the bytes as they were read is stored beside the counter (R193). -/
def Dev.copyCrc (d : Dev) (c : Copy) (va : Nat) : Dev × Eng Unit :=
  d.engWrite (c.core / 128) c.pid c.asid (va + 8) (natBytes 8 (crc32c (fgetBytes c.got 0 c.bytes)).toNat)

/-- An arrival leaves for its object (R266, R267). -/
def Dev.sendArrival (d : Dev) (a : ArriveAt) (n bytes : Int) (sender : Nat) : Dev :=
  let (id, d) := d.newId
  { d with arrivals := d.arrivals ++ [{ id, at_ := a, n, bytes, sender }] }

/-- The copy has completed: it leaves its batch, or completes its chain's entry (R191, R282). -/
def Dev.copyDone (d : Dev) (c : Copy) : Dev :=
  let d := d.dropCopy c.id
  match c.owner with
  | .group .. => d
  | .chain key e => d.chainDone key e

/-- Every chunk has been written, and a `.CNT` waits for those writes to perform at .SYS (R192). -/
def Copy.completes (c : Copy) (d : Dev) : Bool :=
  !c.held && !d.copyAway c && c.left.isEmpty && decide (c.stop ≤ c.next) && match c.fin with
    | .cnt _ => decide (d.settle < d.cycle)
    | _ => true

/-- The completion operand's signal, then completion (R192). A count is a release: it waits until the CRC that it follows
has settled (R193). -/
def Dev.completeCopy (d : Dev) (c : Copy) : Dev :=
  match c.fin with
  | .none => d.copyDone c
  | .mb a =>
    let sender := match c.owner with | .group g _ => g.team | .chain .. => 0
    (d.sendArrival a 0 c.bytes sender).copyDone c
  | .cnt va => match (if c.crc then d.copyCrc c va else d.copyCount c va) with
    | (d, .ok _) => if c.crc then d.modCopy c.id fun c => { c with crc := false } else d.copyDone c
    | (d, .fault f) => d.copyFault c f
    | (d, .ecc) => d.abandonCopy c .ecc va

/-- COPY_COMPLETE (R191 to R193). -/
def execCopyComplete (id : Nat) (s : State) : Res :=
  withEvent s fun d => do
    let c ← d.copy? id
    if c.completes d then some (d.completeCopy c) else none

/-! ## Issue (R194, R195, R197) -/

/-- What CPY and CPG ask for. -/
structure CopyAsk where
  kind  : CopyKind
  src   : Side
  dst   : Side
  bytes : Nat
  left  : List Nat
  crc   : Bool
  fin   : Completion

def misaligned (va : Nat) : LaneFault := ⟨.misalign, false, none, va⟩
def forbidden (va : Nat) : LaneFault := ⟨.perm, false, none, va⟩

/-- A side's addresses in a space: 0 global, 1 scratchpad, 2 cluster scratchpad (R155 to R157). DEDUCED (log 22): a
global range beyond 2^48 is a cause at issue, as it is of a class 7 access. -/
def Dev.sideAt (d : Dev) (i : Issuer) (space ea len : Nat) : Except LaneFault Side :=
  let l := i.grid.launch
  if space = 0 then (if 2 ^ 48 < ea + len then .error (forbidden ea) else .ok (.glob ea))
  else if len = 0 then .ok (.scr i.ref.team 0)
  else if space = 1 then
    if l.scr * 16384 < ea + len then .error (forbidden ea) else .ok (.scr i.ref.team ea)
  else if 2 ^ 26 ≤ ea ∨ l.per ≤ ea / 2 ^ 22 ∨ l.scr * 16384 < ea % 2 ^ 22 + len then .error (forbidden ea)
  else match d.clusterTeam? i.team l.per (ea / 2 ^ 22) with
    | some t => .ok (.scr t.inst (ea % 2 ^ 22))
    | none => .ok (.scr 0 (ea % 2 ^ 22))

/-- A barrier object an arrival will name, with its generation now (R192, R267). -/
def Dev.objectAt (d : Dev) (i : Issuer) (sc : BitVec 6) : Except LaneFault ArriveAt :=
  match d.objAt i sc with
  | .at_ t o => .ok { team := t, off := o, gen := BitVec.ofNat 8 (((d.team? t).map (·.obj o)).getD (Obj.ofBytes [])).gen }
  | .gone => .ok { team := 0, off := (i.sca sc).toNat % 2 ^ 22, gen := 0 }
  | .bad f => .error f

/-- A completion operand: 1 `.MB`, 2 `.CNT` (R192). -/
def Dev.completion (d : Dev) (i : Issuer) (cmp : BitVec 2) (sc : BitVec 6) : Except LaneFault Completion :=
  match cmp.toNat with
  | 1 => (d.objectAt i sc).map .mb
  | 2 => if (i.sca sc).toNat % 8 ≠ 0 then .error (misaligned (i.sca sc).toNat) else .ok (.cnt (i.sca sc).toNat)
  | _ => .ok .none

def faultOf {α : Type} : Except LaneFault α → List LaneFault
  | .error f => [f]
  | .ok _ => []

/-- A linear copy (R197). -/
def Dev.linearAsk (d : Dev) (i : Issuer) (dsp ssp : Nat) (dst src len : Nat) (crc : Bool) (fin : Except LaneFault Completion) :
    List LaneFault × Option CopyAsk :=
  let ds := d.sideAt i dsp dst len
  let ss := d.sideAt i ssp src len
  let fs := (if dst % 16 ≠ 0 then [misaligned dst] else []) ++ (if src % 16 ≠ 0 then [misaligned src] else []) ++
    (if len % 16 ≠ 0 then [misaligned dst] else []) ++ faultOf fin ++
    (if 0x1000000 < len then [forbidden dst] else []) ++ faultOf ds ++ faultOf ss
  match fs, ds, ss, fin with
  | [], .ok ds, .ok ss, .ok fin => ([], some { kind := .linear, src := ss, dst := ds, bytes := len
                                               left := List.range (len / 16), crc, fin })
  | fs, _, _, _ => (fs, none)

/-- A layout record read at its home at issue, or the causes of its read (R186, R187, R197; log 22). -/
def Dev.readLayout (d : Dev) (i : Issuer) (a : Nat) : Dev × Except LaneFault Layout :=
  match d.checkLane i { space := .g, size := 64, align := true, store := false, need := .r, reads := true } 0 a with
  | (d, .ok ({ loc := .mem pa leaf, .. } :: _)) =>
    let ws := (List.range 8).map fun k => BitVec.ofNat 64 (d.rdNat leaf.key (pa + 8 * k) 8)
    if Layout.malformed ws then (d, .error (forbidden a))
    else if (Layout.ofWords ws).base % 16 ≠ 0 then (d, .error (misaligned (Layout.ofWords ws).base))
    else (d, .ok (Layout.ofWords ws))
  | (d, .ok _) => (d, .error (forbidden a))
  | (d, .error f) => (d, .error f)

/-- The five coordinates that three scalars hold (R197). -/
def Issuer.coords (i : Issuer) (b : BitVec 6) : List Int :=
  let w := fun (k : Nat) => i.sca (b + BitVec.ofNat 6 k)
  let lo := fun (x : Word64) => ((x.setWidth 32 : Word32).toInt)
  let hi := fun (x : Word64) => (((x >>> 32).setWidth 32 : Word32).toInt)
  [lo (w 0), hi (w 0), lo (w 1), hi (w 1), lo (w 2)]

/-- What R190 makes of a tensor load that names a slot: its rows, and the slot's new record. -/
def lineBuffer (old : Option LineBuf) (new : LineBuf) (box1 : Nat) : Nat × Nat :=
  match old with
  | some o =>
    let delta := new.origin.getD 1 0 - o.origin.getD 1 0
    if o.team == new.team && o.rec_ == new.rec_ && o.dst == new.dst && o.origin.eraseIdx 1 == new.origin.eraseIdx 1 &&
        decide (0 < delta) && decide (delta < box1) then (box1 - delta.toNat, box1)
    else (0, box1)
  | none => (0, box1)

/-- The chunks of a box whose row in dimension 1 lies in `rows`. -/
def boxChunks (l : Layout) (rows : Nat × Nat) : List Nat :=
  (List.range (l.boxBytes / 16)).filter fun j =>
    let r := (l.boxIndex (16 * j / l.esz)).getD 1 0
    decide (rows.1 ≤ r) && decide (r < rows.2)

/-- A tensor load or store, or a gather, against its record: the causes, and the copy (R197, R198). -/
def Dev.boxAsk (d : Dev) (i : Issuer) (l : Layout) (space ea bytes : Nat) (load : Bool) : List LaneFault × Except LaneFault Side :=
  let sd := d.sideAt i space ea bytes
  ((if load && l.swz != 0 && ea % 128 != 0 then [misaligned ea] else []) ++ faultOf sd, sd)

/-- CPY.TL and CPY.TS (R190, R197); the slot is recorded only when the copy issues. -/
def Dev.tensorAsk (d : Dev) (i : Issuer) (load : Bool) (space ea rec_ : Nat) (lb : Option Nat) (origin : List Int)
    (fin : Except LaneFault Completion) : Dev × List LaneFault × Option CopyAsk :=
  let early := (if ea % 16 ≠ 0 then [misaligned ea] else []) ++ faultOf fin
  match d.readLayout i rec_ with
  | (d, .error f) => (d, early ++ [f], none)
  | (d, .ok l) =>
    let (bf, sd) := d.boxAsk i l space ea l.boxBytes load
    let lbBad := lb.isSome && (l.boxes.drop 2).any (1 < ·)
    let fs := early ++ bf ++ (if lbBad then [forbidden rec_] else [])
    match fs, sd, fin with
    | [], .ok sd, .ok fin =>
      if load then
        let new : LineBuf := { team := i.ref.team, rec_, dst := sd, origin }
        let rows := match lb with
          | some n => lineBuffer ((d.core i.core).lb.getD n none) new (l.box 1)
          | none => (0, l.box 1)
        let d := match lb with
          | some n => d.modCore i.core fun c => { c with lb := listSet c.lb n fun _ => some new }
          | none => d
        (d, [], some { kind := .tl l origin lb.isSome rows, src := .glob l.base, dst := sd, bytes := l.boxBytes
                       left := boxChunks l rows, crc := false, fin })
      else (d, [], some { kind := .ts l origin, src := sd, dst := .glob l.base, bytes := l.boxBytes
                          left := List.range (l.boxBytes / 16), crc := false, fin })
    | fs, _, _ => (d, fs, none)

/-- CPG's copy (R198). -/
def Dev.gatherAsk (d : Dev) (i : Issuer) (o : CpgOp) : Dev × List LaneFault × Option CopyAsk :=
  let ea := (i.sca o.d).toNat
  let rec_ := (i.sca o.a).toNat
  let fin := d.completion i o.cmp o.c
  let rows := (i.on o.g).map fun l => (i.vec l o.b).toInt
  let early := (if ea % 16 ≠ 0 then [misaligned ea] else []) ++ faultOf fin
  match d.readLayout i rec_ with
  | (d, .error f) => (d, early ++ [f], none)
  | (d, .ok l) =>
    let bytes := rows.length * (l.box 0 * l.esz)
    let (bf, sd) := d.boxAsk i l o.dsp.toNat ea bytes true
    let fs := early ++ (if l.rank ≠ 2 then [forbidden rec_] else bf)
    match fs, sd, fin with
    | [], .ok sd, .ok fin => (d, [], some { kind := .gather l rows, src := .glob l.base, dst := sd, bytes
                                            left := List.range (bytes / 16), crc := false, fin })
    | fs, _, _ => (d, fs, none)

/-- The copy unit of the core is full (R191). -/
def Dev.copiesFull (d : Dev) (core : Nat) : Bool :=
  256 ≤ (d.copies.filter fun c => c.core == core && c.owner matches .group ..).length

/-- The copy enters the unit, pending in its group (R191, R197). -/
def Dev.startCopy (d : Dev) (i : Issuer) (gd : Guard) (region : Bool) (a : CopyAsk) : Dev :=
  let (id, d) := d.newId
  let d := d.modGroup i.ref fun _ => i.grp.advance i.sp region
  if a.bytes = 0 ∧ a.fin = .none then d
  else { d with copies := d.copies ++ [{
    id, owner := .group i.ref none, core := i.core, pid := i.grid.pid, asid := i.grid.asid, pc := i.pc, kind := a.kind
    src := a.src, dst := a.dst, bytes := a.bytes, left := a.left, next := 0, stop := 0, got := [], crc := a.crc
    fin := a.fin, lane := (i.on gd).headD 0, held := false }] }

/-- The common part of CPY and CPG: nothing without a participant; not ready while the unit is full (R191, R197). -/
def copyStep (gd : Guard) (region : Bool) (ask : Issuer → Dev → Dev × List LaneFault × Option CopyAsk) (s : State) : Res :=
  withIssuer s fun i d =>
    if (i.on gd).isEmpty then d.modGroup i.ref fun _ => i.grp.advance i.sp region
    else if d.copiesFull i.core then d
    else match ask i d with
      | (d, [], some a) => d.startCopy i gd region a
      | (d, fs, _) => d.failLanes i .instruction i.pc (fs.map fun f => ((i.on gd).headD 64, f))

/-- CPY (R197). -/
def execCpy (f : CpyForm) (gd : Guard) (s : State) : Res :=
  match f with
  | .short dsp ssp dD dA len12 dd sd => copyStep gd false (fun i d =>
      let r := d.linearAsk i dsp.toNat ssp.toNat (i.sca dD + (dd.setWidth 64 <<< 12)).toNat (i.sca dA + (sd.setWidth 64 <<< 12)).toNat
        (16 * (len12.toNat + 1)) false (.ok .none)
      (d, r)) s
  | .full dsp ssp mode cmp crc lb lbs dD dA b c => copyStep gd (cmp != 0) (fun i d =>
      let fin := d.completion i cmp c
      match mode.toNat with
      | 0 => (d, d.linearAsk i dsp.toNat ssp.toNat (i.sca dD).toNat (i.sca dA).toNat (i.sca b).toNat crc fin)
      | 1 => d.tensorAsk i true dsp.toNat (i.sca dD).toNat (i.sca dA).toNat (if lb then some lbs.toNat else none) (i.coords b) fin
      | _ => d.tensorAsk i false ssp.toNat (i.sca dA).toNat (i.sca dD).toNat none (i.coords b) fin) s

/-- CPG (R198). -/
def execCpg (o : CpgOp) (s : State) : Res := copyStep o.g (o.cmp != 0) (fun i d => d.gatherAsk i o) s

/-! ## Batches (R191, R199, R200) -/

/-- A group's closed batches that have not completed, by number. -/
def Dev.openBatches (d : Dev) (r : GroupRef) : List (BitVec 32) :=
  (d.copies.filterMap fun c => match c.owner with
    | .group g (some n) => if g = r then some n else none
    | _ => none).eraseDups

/-- A group's pending copies. -/
def Dev.pendingCopies (d : Dev) (r : GroupRef) : List Copy := d.copies.filter fun c => c.owner == .group r none

/-- CPBAT would make a 17th incomplete batch (R191). -/
def Dev.batchesFull (d : Dev) (r : GroupRef) : Bool := 16 ≤ (d.openBatches r).length && !(d.pendingCopies r).isEmpty

/-- CPBAT (R199). -/
def execCpbat (sd : BitVec 6) (s : State) : Res :=
  withIssuer s fun i d =>
    if d.batchesFull i.ref then d
    else
      let n := i.grp.bseq + 1
      let close : Copy → Copy := fun c => if c.owner = .group i.ref none then { c with owner := .group i.ref (some n) } else c
      let shut : Unsettled → Unsettled := fun u =>
        if u.by_ = i.ref ∧ u.copy ∧ u.batch = none then { u with batch := some n } else u
      let d := { d with copies := d.copies.map close, unsettled := d.unsettled.map shut }
      d.modGroup i.ref fun _ =>
        let g := (i.grp.advance i.sp true).writeS i.sp.mask sd.toNat (n.setWidth 64)
        { g with bseq := n }

/-- Some closed batch up to `n` has not completed (R200). -/
def Dev.batchesOpen (d : Dev) (r : GroupRef) (n : BitVec 32) : Bool := (d.openBatches r).any fun b => !(n - b).msb

/-- A write of one of the group's closed batches up to `n` (R200, R254). -/
def Unsettled.ofBatches (r : GroupRef) (n : BitVec 32) (u : Unsettled) : Bool := u.by_ == r && u.copy && u.batch.any fun b => !(n - b).msb

/-- CPWAIT: then an acquire, and what the copies wrote counts as the group's own (R200, R254). -/
def execCpwait (src : BitVec 6 ⊕ BitVec 32) (s : State) : Res :=
  withIssuer s fun i d =>
    let n : BitVec 32 := match src with
      | .inl a => (i.sca a).setWidth 32
      | .inr x => x
    if d.batchesOpen i.ref n then d.modGroup i.ref fun _ => i.grp.await i.sp (.word d.nextId)
    else d.modGroup i.ref fun _ => (d.joinSettle i.grp (·.ofBatches i.ref n)).advance i.sp false

end Sys2Proof.Machine
end

