-- ==== Sys2Proof/Machine/Matrix.lean ====
section
/-! DEFINITION. Class 10: the matrix units, their fragments, sums and queues, and accumulator tiles (R201 to R221). -/

namespace Sys2Proof.Machine

/-! ## Fragments (R203 to R206) -/

/-- Bits of an element of a form: of A, or of B. -/
def formBits (fmt : Nat) (b : Bool) : Nat :=
  match fmt with
  | 0 | 1 => 16 | 2 | 3 | 5 => 8 | 4 => 4 | 6 => if b then 2 else 8 | _ => 64

/-- k of a form (R203). -/
def formK (fmt : Nat) : Nat := match fmt with | 0 | 1 => 32 | 4 => 128 | 7 => 4 | _ => 64

/-- Registers of an operand (R203). -/
def formRegs (fmt : Nat) (b : Bool) : Nat := if fmt = 7 ∨ (fmt = 6 ∧ b) then 2 else 8

/-- Rows and columns of a form (R203). -/
def formSide (fmt : Nat) : Nat := if fmt = 7 then 8 else 16

/-- The offset of register `j` of lane `l` in the image of R204. -/
def imageAt (regs l j : Nat) : Nat := if regs = 8 then 512 * (j / 4) + 16 * l + 4 * (j % 4) else 8 * l + 4 * j

/-- The fragment image of registers (R204). -/
def imageOf (regs : Nat) (f : Nat → Nat → Word32) : List Byte :=
  if regs = 8 then (List.range 2).flatMap fun h => (List.range 32).flatMap fun l => (List.range 4).flatMap fun j =>
    natBytes 4 (f l (4 * h + j)).toNat
  else (List.range 32).flatMap fun l => (List.range 2).flatMap fun j => natBytes 4 (f l j).toNat

/-- Where element (r, k) of an operand stands in its image: byte, bit and width; `r` is A's row or B's column (R205). -/
def fragBit (w r k : Nat) : Nat × Nat :=
  if w = 64 then (8 * (4 * r + k), 0)
  else
    let perLane := if w = 2 then 32 else 256 / w
    let per := 32 / w
    let l := r + 16 * (k / perLane)
    let q := k % perLane
    let bit := w * (q % per)
    (imageAt (if w = 2 then 2 else 8) l (q / per) + bit / 8, bit % 8)

/-- An element's bits. -/
def fragElem (image : List Byte) (w r k : Nat) : Nat :=
  let (at_, sh) := fragBit w r k
  if w < 8 then (image.getD at_ 0).toNat / 2 ^ sh % 2 ^ w
  else bytesNat ((List.range (w / 8)).map fun i => image.getD (at_ + i) 0)

/-! ## Sums (R208 to R210) -/

/-- The value of an element of a form: of A, or of B (R125, R128). -/
def formValue (fmt : Nat) (b : Bool) (w : Nat) : FVal :=
  match fmt with
  | 0 => bf16.value w
  | 1 => f16.value w
  | 2 => e4m3.value w
  | 3 => e5m2.value w
  | 4 => e2m1.value w
  | 6 => if b then (match w with | 1 => FVal.one | 3 => FVal.one.neg | _ => .zero false) else qValue 5 w
  | 7 => f64.value w
  | _ => qValue 5 w

/-- BLOCKSUM (R208). -/
def blockSum (ps : List FVal) : FVal := ps.foldl (FVal.add .rne) (.zero false)

/-- floor(log2 |p|) of a finite nonzero value. -/
def FVal.top : FVal → Option Int
  | .fin _ m e => some ((Nat.log2 m : Int) + e)
  | _ => none

/-- Truncated toward zero to a multiple of 2^q. -/
def FVal.cut (q : Int) : FVal → FVal
  | .fin s m e =>
    if q ≤ e then .fin s m e
    else
      let n := m / 2 ^ (q - e).toNat
      if n = 0 then .zero s else .fin s n q
  | x => x

/-- R209's truncation of a block of .BF16 or .F16 products. -/
def truncBlock (ps : List FVal) : List FVal :=
  match ps.filterMap FVal.top with
  | [] => ps
  | t :: ts => ps.map (FVal.cut (ts.foldl max t - 47))

/-- What an operation multiplies: element words of A and B, and the scales of A's rows and B's columns, 127 where a
form has none. -/
structure MatIn where
  a  : Nat → Nat → Nat
  b  : Nat → Nat → Nat
  sa : Nat → Nat → Nat
  sb : Nat → Nat → Nat

/-- A product (R208, R210). -/
def matProduct (fmt : Nat) (zs : Bool) (x : MatIn) (i j k : Nat) : FVal :=
  let blk := k / 32
  let a := if x.sa i blk = 255 then .nan else formValue fmt false (x.a i k)
  let b := if x.sb j blk = 255 then .nan else formValue fmt true (x.b j k)
  if zs && (a matches .zero _) then .zero false else a.mul b

/-- The scaled sum of a block (R209; log 23). -/
def matBlock (fmt : Nat) (zs : Bool) (x : MatIn) (i j blk : Nat) : FVal :=
  let ps := (List.range 32).map fun k => matProduct fmt zs x i j (32 * blk + k)
  (blockSum (if fmt ≤ 1 then truncBlock ps else ps)).scale ((x.sa i blk : Int) - 127 + ((x.sb j blk : Int) - 127))

/-- The new word of element (i, j), from the old (R209). -/
def matElem (fmt : Nat) (zs : Bool) (x : MatIn) (i j acc : Nat) : Nat :=
  if fmt = 7 then (List.range 4).foldl (fun acc k => fmaWord .rne f64 (x.a i k) (x.b j k) acc) acc
  else (List.range (formK fmt / 32)).foldl (fun acc blk =>
    let s := matBlock fmt zs x i j blk
    if fmt = 5 ∨ fmt = 6 then
      (BitVec.ofInt 32 (clampInt (-(2 ^ 31)) (2 ^ 31 - 1) ((BitVec.ofNat 32 acc).toInt + (s.toInt? .rz).getD 0))).toNat
    else f32.roundTo .rne false (FVal.add .rne (f32.value acc) s)) acc

/-- Where element (i, j) lies in a tile, and its bytes (R206). -/
def elemAt (fmt half i j : Nat) : Nat × Nat := if fmt = 7 then (512 * half + 64 * i + 8 * j, 8) else (64 * i + 4 * j, 4)

/-- The tile's bytes after the operation. -/
def matTile (o : MmaOp) (x : MatIn) (old : List Byte) : List Byte :=
  let fmt := o.fmt.toNat
  let half := if fmt = 7 then o.sb.toNat % 2 else 0
  let n := formSide fmt
  (List.range n).foldl (fun t i => (List.range n).foldl (fun t j =>
    let (at_, w) := elemAt fmt half i j
    let v := matElem fmt o.zs x i j (bytesNat ((old.drop at_).take w))
    t.take at_ ++ natBytes w v ++ t.drop (at_ + w)) t) old

/-! ## Operands (R207, R212, R215) -/

/-- The blocks of a form that a scale covers (R207). -/
def formBlocks (fmt : Nat) : Nat := formK fmt / 32

/-- Image bytes of an operand of `regs` registers. -/
def imageBytes (regs : Nat) : Nat := if regs = 8 then 1024 else 256

/-- The elements of an image, row by row of A or column by column of B (R205). -/
def elemsOf (fmt : Nat) (b : Bool) (image : List Byte) : List Nat :=
  (List.range (formSide fmt)).flatMap fun r => (List.range (formK fmt)).map fun k => fragElem image (formBits fmt b) r k

/-- The scale of a row or column's block from the scale registers (R207). -/
def scaleFrom (o : MmaOp) (ws : List Word32) (r blk : Nat) : Nat :=
  let sb := o.sb.toNat
  if o.fmt = 4 then bits (ws.getD (r + 16 * (blk / 2)) 0).toNat (8 * (sb + blk % 2)) 8
  else bits (ws.getD (r + 16 * blk) 0).toNat (8 * sb) 8

/-- The scales of rows or columns, block by block; none in a form without scales. -/
def scalesOf (o : MmaOp) (ws : List Word32) : List Nat :=
  if o.scaled then (List.range (formSide o.fmt.toNat)).flatMap fun r => (List.range (formBlocks o.fmt.toNat)).map (scaleFrom o ws r)
  else []

/-- An operand's elements as its registers or its scratchpad bytes stand now. -/
def Dev.elemsNow (d : Dev) (r : GroupRef) (fmt : Nat) (b : Bool) (x : Operand) : List Nat :=
  let regs := formRegs fmt b
  match d.team? r.team, d.group? r with
  | some t, some g => elemsOf fmt b (if x.pool then fgetBytes t.scr x.at_ (imageBytes regs) else
      imageOf regs fun l j => g.vreg l (x.at_ + j))
  | _, _ => x.elems

/-- Scales as their register stands now. -/
def Dev.scalesNow (d : Dev) (r : GroupRef) (o : MmaOp) (reg : Nat) (old : List Nat) : List Nat :=
  match d.group? r with
  | some g => scalesOf o ((List.range 32).map fun l => g.vreg l reg)
  | none => old

/-- What the unit reads at a moment: the values `pick` names are read now; those of a row or column that has been read for
good stay. `per` values stand in one row or column. -/
def reread (pick : Nat → Bool) (per : Nat) (known : List Nat) (old now : List Nat) : List Nat :=
  old.zipIdx.map fun (v, k) => if !known.contains (k / per) && pick k then now.getD k v else v

/-- The operation with the operand elements and scales that `pick` names read now (R215). -/
def Dev.rereadMat (d : Dev) (pick : Nat → Bool) (m : MatOp) : MatOp :=
  let at_ := fun (n k : Nat) => pick (16384 * m.id + 4096 * n + k)
  let reads := fun (o : MmaOp) (b : Bool) (n : Nat) (x : Operand) =>
    { x with elems := reread (at_ n) (formK o.fmt.toNat) (if b then m.cols else m.rows) x.elems (d.elemsNow m.by_ o.fmt.toNat b x) }
  let scales := fun (o : MmaOp) (b : Bool) (n reg : Nat) (x : List Nat) =>
    reread (at_ n) (formBlocks o.fmt.toNat) (if b then m.cols else m.rows) x (d.scalesNow m.by_ o reg x)
  match m.kind with
  | .mma o a b sa sb =>
    let kind := .mma o (reads o false 0 a) (reads o true 1 b) (scales o false 2 o.c.toNat sa) (scales o true 3 (o.c.toNat + 1) sb)
    { m with kind }
  | .mmah o a sa b => { m with kind := .mmah o (reads o false 0 a) (scales o false 2 o.c.toNat sa) b }
  | .fill .. => m

/-- The unit reads some of the elements and scales now, any of them (R215). -/
def Dev.sampled (d : Dev) (m : MatOp) : MatOp := d.rereadMat (Config.freeBool d.fresh) m

/-! ### MMAH's B (R213) -/

/-- Bytes per row of a layout's scale tensor (R213). -/
def Layout.scaleRow (l : Layout) : Nat :=
  let elems := l.dims.headD 0 * (if l.fmt = 14 then 2 else 1)
  16 * (((elems + 31) / 32 + 15) / 16)

/-- k0 counted in elements. -/
def HostB.k0Elems (b : HostB) : Int := if b.l.fmt = 14 then 2 * b.k0 else b.k0

/-- The address of record element `k` of column `n`; none where it reads as zero (R188). -/
def HostB.elemAt? (b : HostB) (n k : Nat) : Option Nat :=
  (b.l.mapAll [b.k0 + (k : Nat), b.n0 + (n : Nat)]).map b.l.elemAddr

/-- The address of a column's scale for a block; none for a column out of range under zero fill. -/
def HostB.scaleAt? (b : HostB) (n blk : Nat) : Option Nat :=
  (b.l.mapCoord (b.l.dims.getD 1 0) (b.n0 + (n : Nat))).map fun c =>
    b.l.scale + c * b.l.scaleRow + (b.k0Elems / 32).toNat + blk

/-- Every address that B takes a byte from: its elements' first bytes and its scales. -/
def HostB.needs (b : HostB) (o : MmaOp) : List Nat :=
  (List.range (formSide o.fmt.toNat)).flatMap fun n =>
    (List.range (b.l.box 0)).filterMap (b.elemAt? n) ++
      if o.scaled then (List.range (formBlocks o.fmt.toNat)).filterMap (b.scaleAt? n) else []

/-- The lowest of some addresses in each 32-byte sector. -/
def lowestBySector (as : List Nat) : List Nat :=
  as.foldl (fun l a => match l.find? (· / 32 == a / 32) with
    | some b => if a < b then l.map fun x => if x = b then a else x else l
    | none => l ++ [a]) []

/-- An element's bits; its record element holds two of the form .MXF4. -/
def HostB.elem (b : HostB) (w n k : Nat) : Nat :=
  if w = 4 then ((b.elemAt? n (k / 2)).map fun a => (fget 0 b.got a).toNat / 16 ^ (k % 2) % 16).getD 0
  else ((b.elemAt? n k).map fun a => bytesNat (fgetBytes b.got a (w / 8))).getD 0

/-- A column's scale for a block. -/
def HostB.scaleOf (b : HostB) (o : MmaOp) (n blk : Nat) : Nat :=
  if o.scaled then ((b.scaleAt? n blk).map fun a => (fget 0 b.got a).toNat).getD 127 else 127

/-! ### Results -/

/-- A tile's bytes. -/
def Team.tile (t : Team) (n : Nat) : List Byte := fgetBytes t.tiles (1024 * n) 1024

/-- The elements of A as read. -/
def Operand.elem (x : Operand) (fmt r k : Nat) : Nat := x.elems.getD (r * formK fmt + k) 0

/-- A scale as read; 127 in a form without scales. -/
def scaleElem (fmt : Nat) (ss : List Nat) (r blk : Nat) : Nat := ss.getD (r * formBlocks fmt + blk) 127

/-- The new bytes of a tile range that an operation writes: tile number and bytes; none while MMAH's B is not fetched. -/
def MatOp.result (m : MatOp) (tile : Nat → List Byte) : Option (List (Nat × List Byte)) :=
  match m.kind with
  | .fill n w => some ((List.range n).map fun k => (m.tile + k, (List.replicate 128 (wordBytes w)).flatten))
  | .mma o a b sa sb =>
    let f := o.fmt.toNat
    some [(m.tile, matTile o { a := a.elem f, b := b.elem f, sa := scaleElem f sa, sb := scaleElem f sb } (tile m.tile))]
  | .mmah o a sa b =>
    let f := o.fmt.toNat
    if !b.fetched then none
    else some [(m.tile,
      matTile o { a := a.elem f, b := b.elem (formBits f true), sa := scaleElem f sa, sb := b.scaleOf o } (tile m.tile))]

/-! ## The queues (R201, R214) -/

/-- A unit's queue, oldest first. -/
def Dev.matQueue (d : Dev) (core sextant : Nat) : List MatOp := 
  d.mats.filter fun m => m.core == core && m.sextant == sextant && !d.isAway m.by_.team

/-- The unit's queue is full (R201). -/
def Dev.matFull (d : Dev) (i : Issuer) : Bool := 16 ≤ (d.matQueue i.core i.grp.sextant).length

def Dev.mat? (d : Dev) (id : Nat) : Option MatOp := d.mats.find? (·.id == id)

def Dev.modMat (d : Dev) (id : Nat) (f : MatOp → MatOp) : Dev :=
  { d with mats := d.mats.map fun m => if m.id = id then f m else m }

def Dev.dropMat (d : Dev) (id : Nat) : Dev := { d with mats := d.mats.filter fun m => m.id != id }

/-- Bytes written to a tile, but for those in `skip`. -/
def Dev.writeTile (d : Dev) (inst n : Nat) (skip : List Nat) (bs : List Byte) : Dev :=
  let put := fun (m : FMap Byte) (x : Byte × Nat) =>
    if skip.contains (1024 * n + x.2) then m else fset 0 m (1024 * n + x.2) x.1
  d.modTeam inst fun t => { t with tiles := bs.zipIdx.foldl put t.tiles }

/-- A queued operation reads some of its operands, which have changed since it last did (R215). -/
def Dev.sampleMat (d : Dev) (id : Nat) : Option Dev := do
  let m ← d.mat? id
  if d.isAway m.by_.team ∨ d.rereadMat (fun _ => true) m = m then none else some (d.modMat id fun _ => d.sampled m)

/-- The oldest operation of its unit completes, if it has all it needs. -/
def Dev.completeMat (d : Dev) (m : MatOp) : Option Dev := do
  let t ← d.team? m.by_.team
  let ws ← (d.sampled m).result t.tile
  return (ws.foldl (fun d (n, bs) => d.writeTile m.by_.team n m.skip bs) d).dropMat m.id |>.modGroup m.by_ (·.count 9 1)

/-- MATRIX_OP_COMPLETE: a unit performs its operations in the order of issue (R201, R212, R214). -/
def execMatrixOpComplete (id : Nat) (s : State) : Res :=
  withEvent s fun d => do
    let m ← d.mat? id
    if ((d.matQueue m.core m.sextant).head?.map (·.id)) = some id then d.completeMat m else none

/-! ## MMAH's fetch (R213) -/

/-- The record type code, BOX0 and BOX1 that a form asks for (R213). -/
def formRecord (fmt : Nat) : Nat × Nat × Nat :=
  match fmt with
  | 0 => (11, 32, 16) | 1 => (10, 32, 16) | 2 => (12, 64, 16) | 3 => (13, 64, 16) | 4 => (14, 64, 16) | 5 => (5, 64, 16)
  | _ => (9, 4, 8)

/-- The record fits the form (R213). -/
def hostBOk (o : MmaOp) (b : HostB) : Bool :=
  let (fmt, b0, b1) := formRecord o.fmt.toNat
  b.l.rank == 2 && b.l.fmt == fmt && b.l.box 0 == b0 && b.l.box 1 == b1 &&
  (!o.scaled || (b.l.scale != 0 && decide (b.k0Elems % 32 = 0) && decide (0 ≤ b.k0) &&
    decide (b.k0 + b0 ≤ b.l.dims.headD 0)))

def MatOp.hostB? (m : MatOp) : Option (MmaOp × HostB) :=
  match m.kind with
  | .mmah o _ _ b => some (o, b)
  | _ => none

def MatOp.setB (m : MatOp) (f : HostB → HostB) : MatOp :=
  match m.kind with
  | .mmah o a s b => { m with kind := .mmah o a s (f b) }
  | _ => m

/-- The fetcher may work on this operation: the oldest MMAH of its unit, or one of the 2^LA after it (R213). -/
def Dev.mayFetch (d : Dev) (m : MatOp) : Bool :=
  let q := (d.matQueue m.core m.sextant).filter fun x => x.hostB?.isSome
  match q with
  | [] => false
  | h :: _ =>
    let la := ((h.hostB?.map fun x => x.1.la.toNat).getD 0)
    match q.findIdx? (·.id == m.id) with
    | some k => decide (k ≤ 2 ^ la)
    | none => false

/-- The operation is abandoned: its tile is unchanged and it counts as complete (R213). -/
def Dev.abandonMat (d : Dev) (m : MatOp) (cause : Cause) (va lvl : Nat) : Dev :=
  ((d.dropMat m.id).modGroup m.by_ (·.count 9 1)).raiseLater m.by_
    { cause, src := .matrixFetch, info := va % 2 ^ 48, lanes := 0, pc := m.pc, lvl, wr := false }

/-- One access of the fetcher, of `n` bytes at `va` (R213). -/
def Dev.fetchMat (d : Dev) (m : MatOp) (va n : Nat) (use : Dev → List Byte → Dev) : Dev :=
  match d.engRead (m.core / 128) m.pid m.asid va n with
  | (d, .ok bs) => use d bs
  | (d, .fault f) =>
    if f.cause = .xlate ∨ f.replay then
      let w : Where := { src := .matrixFetch, ctx := 0, core := m.core, grp := m.by_.group, pc := m.pc }
      (d.recordFault m.pid f 0xFFFFFFFF w).modMat m.id (·.setB fun b => { b with held := true })
    else d.abandonMat m f.cause f.va f.lvl
  | (d, .ecc) => d.abandonMat m .ecc va 0

/-- The record that the fetcher reads, and with it what B needs; one that no longer fits is a PERM (R186, R213; log 22). -/
def Dev.fetchRecord (m : MatOp) (o : MmaOp) (b : HostB) (d : Dev) (bs : List Byte) : Dev :=
  let ws := (List.range 8).map fun k => bytesWord ((bs.drop (8 * k)).take 8)
  let b := { b with l := Layout.ofWords ws }
  if Layout.malformed ws || !hostBOk o b then d.abandonMat m .perm b.rec_ 0
  else d.modMat m.id (·.setB fun _ => { b with todo := some (lowestBySector (b.needs o)) })

/-- The fetcher reads the record, or one sector of those still to read, any of them (R186, R213). -/
def Dev.fetchStep (d : Dev) (id : Nat) : Option Dev := do
  let m ← d.mat? id
  let (o, b) ← m.hostB?
  if b.held || !d.mayFetch m then none
  else match b.todo with
    | none => some (d.fetchMat m b.rec_ 64 (Dev.fetchRecord m o b))
    | some as => do
      let a ← as[Config.pick d.fresh % as.length]?
      some (d.fetchMat m a (32 - a % 32) fun d bs => d.modMat id (·.setB fun b =>
        { b with got := fsetBytes b.got a bs, todo := some (as.filter (· != a)) }))

/-- MMAH_FETCH: the fetcher has read all of B (R213). -/
def execMmahFetch (id : Nat) (s : State) : Res :=
  withEvent s fun d => do
    let m ← d.mat? id
    let (_, b) ← m.hostB?
    if b.todo ≠ some [] ∨ b.fetched then none else some (d.modMat id (·.setB fun b => { b with fetched := true }))

/-! ## MMA, MMAH, ACLR, AFILL (R211 to R213, R219) -/

/-- Causes of an instruction of class 10 name its participants. -/
def Dev.failAll (d : Dev) (i : Issuer) (lanes : List Nat) (fs : List LaneFault) : Dev :=
  d.failLanes i .instruction i.pc (lanes.flatMap fun l => fs.map fun f => (l, f))

/-- A tile range within the team's tiles, or PERM (R33, R211). -/
def Issuer.tilesBad (i : Issuer) (t n : Nat) : List LaneFault :=
  if 16 * i.grid.launch.accu < t + n then [forbidden 0] else []

/-- What MMA and MMAH ask of their group (R202). -/
def Dev.wholeGroup (d : Dev) (i : Issuer) (go : Dev) : Dev :=
  if i.grp.splits.length ≠ 1 then d.illconv i 1
  else if i.active.length ≠ i.grid.launch.width then d.illconv i 2
  else go

/-- An operand at issue, with the causes of a scratchpad one (R212, R215). -/
def Issuer.operand (i : Issuer) (o : MmaOp) (b : Bool) : List LaneFault × Operand :=
  let fmt := o.fmt.toNat
  let regs := formRegs fmt b
  let n := if b then o.b else o.a
  if (if b then o.bsp else o.asp) then
    let off := (i.sca (n.setWidth 6)).toNat
    let size := imageBytes regs
    ((if off % 128 ≠ 0 then [misaligned off] else []) ++
      (if i.grid.launch.scr * 16384 < off + size then [forbidden off] else []),
     { pool := true, at_ := off, elems := elemsOf fmt b (fgetBytes i.team.scr (off % 2 ^ 48) size) })
  else ([], { pool := false, at_ := n.toNat, elems := elemsOf fmt b (imageOf regs fun l j => i.grp.readV i.fresh l (n.toNat + j)) })

/-- A scale register's lanes. -/
def Issuer.lanesOf (i : Issuer) (n : Nat) : List Word32 := (List.range 32).map fun l => i.grp.readV i.fresh l n

/-- An operation enters its unit's queue (R214). -/
def Dev.enterMat (d : Dev) (i : Issuer) (tile : Nat) (kind : MatKind) : Dev :=
  let (id, d) := d.newId
  let d := d.modGroup i.ref fun _ => i.grp.advance i.sp true
  { d with mats := d.mats ++ [{
    id, by_ := i.ref, core := i.core, sextant := i.grp.sextant, pid := i.grid.pid, asid := i.grid.asid, pc := i.pc, tile
    kind, skip := [], rows := [], cols := [] }] }

/-- MMA (R212). -/
def execMma (o : MmaOp) (s : State) : Res :=
  withIssuer s fun i d => d.wholeGroup i <|
    if d.matFull i then d
    else
      let (fa, a) := i.operand o false
      let (fb, b) := i.operand o true
      match fa ++ fb ++ i.tilesBad o.d.toNat 1 with
      | [] => d.enterMat i o.d.toNat (.mma o a b (scalesOf o (i.lanesOf o.c.toNat)) (scalesOf o (i.lanesOf (o.c.toNat + 1))))
      | fs => d.failAll i i.active fs

/-- MMAH (R213). -/
def execMmah (o : MmaOp) (s : State) : Res :=
  withIssuer s fun i d => d.wholeGroup i <|
    if d.matFull i then d
    else
      let (fa, a) := i.operand o false
      let rec_ := (i.sca (o.b.setWidth 6)).toNat % 2 ^ 48
      let org := i.sca (o.b.setWidth 6 + 1)
      let lo : Word32 := org.setWidth 32
      let hi : Word32 := (org >>> 32).setWidth 32
      let early := fa ++ i.tilesBad o.d.toNat 1
      match d.readLayout i rec_ with
      | (d, .error f) => d.failAll i i.active (early ++ [f])
      | (d, .ok l) =>
        let b : HostB := { rec_, l, k0 := lo.toInt, n0 := hi.toInt, todo := none, got := [], fetched := false, held := false }
        match early ++ (if hostBOk o b then [] else [forbidden rec_]) with
        | [] => d.enterMat i o.d.toNat (.mmah o a (scalesOf o (i.lanesOf o.c.toNat)) b)
        | fs => d.failAll i i.active fs

/-- ACLR and AFILL (R219). -/
def fillStep (t : BitVec 8) (n1 : BitVec 4) (gd : Guard) (word : Issuer → Word64) (s : State) : Res :=
  withIssuer s fun i d =>
    if (i.on gd).isEmpty then d.modGroup i.ref fun _ => i.grp.advance i.sp true
    else match i.tilesBad t.toNat (n1.toNat + 1) with
      | [] => if d.matFull i then d else d.enterMat i t.toNat (.fill (n1.toNat + 1) (word i))
      | fs => d.failAll i (i.on gd) fs

/-- ACLR (R219). -/
def execAclr (t : BitVec 8) (n1 : BitVec 4) (g : Guard) (s : State) : Res := fillStep t n1 g (fun _ => 0) s

/-- AFILL (R219). -/
def execAfill (b64 : Bool) (t : BitVec 8) (sa : BitVec 6) (n1 : BitVec 4) (g : Guard) (s : State) : Res :=
  fillStep t n1 g (fun i => if b64 then i.sca sa else ((i.sca sa).setWidth 32 : Word32) ++ ((i.sca sa).setWidth 32 : Word32)) s

/-! ## Waits (R217, R218) -/

/-- A long-latency write to a run is pending in a slice of the split. -/
def Group.runPending (g : Group) (mask : BitVec 8) (first n : Nat) : Bool :=
  g.owed.any fun o => o.items.any fun it => match it.dest with
    | .v l r => mask.getLsbD (l / 4) && decide (first ≤ r) && decide (r < first + n)
    | _ => false

/-- MFENCE (R217). -/
def execMfence (va : BitVec 8) (n1 : BitVec 4) (s : State) : Res :=
  withIssuer s fun i d => d.modGroup i.ref fun _ =>
    if i.grp.runPending i.sp.mask va.toNat (n1.toNat + 1) then i.grp.await i.sp (.word d.nextId)
    else i.grp.advance i.sp false

/-- The tiles an operation works on. -/
def MatOp.covers (m : MatOp) (t : Nat) : Bool :=
  match m.kind with
  | .fill n _ => decide (m.tile ≤ t) && decide (t < m.tile + n)
  | _ => m.tile == t

/-- An operation of the group on the tile, or on any, has not completed (R218). -/
def Dev.matOpen (d : Dev) (r : GroupRef) (t : Nat) (all : Bool) : Bool := d.mats.any fun m => m.by_ == r && (all || m.covers t)

/-- MWAIT (R218). -/
def execMwait (t : BitVec 8) (all : Bool) (s : State) : Res :=
  withIssuer s fun i d =>
    match (if all then [] else i.tilesBad t.toNat 1) with
    | [] => d.modGroup i.ref fun _ =>
        if d.matOpen i.ref t.toNat all then i.grp.await i.sp (.word d.nextId) else i.grp.advance i.sp false
    | fs => d.failAll i i.active fs

/-! ## AMOV (R215, R220) -/

/-- The tile as it stands after each prefix of the group's queued operations on it (R215). -/
def Dev.tileViews (d : Dev) (r : GroupRef) (t : Team) (n : Nat) : List (List Byte) :=
  let qs := d.mats.filter fun m => m.by_ == r && m.covers n
  (qs.foldl (fun (acc : List (List Byte) × Bool) m =>
    if acc.2 then acc
    else
      let now := acc.1.getLastD []
      match m.result (fun _ => now) with
      | some ws =>
        let new := ((ws.find? fun w => w.1 == n).map (·.2)).getD now
        (acc.1 ++ [new.zipIdx.map fun (b, k) => if m.skip.contains (1024 * n + k) then now.getD k 0 else b], false)
      | none => (acc.1, true)) ([t.tile n], false)).1

/-- Bytes per element of the group's operations on a tile. -/
def Dev.tileGrain (d : Dev) (r : GroupRef) (n : Nat) : Nat :=
  if d.mats.any fun m => m.by_ == r && m.covers n && (match m.kind with
    | .mma o .. | .mmah o .. => o.fmt == 7
    | .fill .. => false) then 8 else 4

/-- The rows of A and the columns of B that gave these bytes of its tile are read for good: what they give has been seen. -/
def MatOp.seen (m : MatOp) (ks : List Nat) : MatOp :=
  let half := match m.kind with
    | .mma o .. | .mmah o .. => o.fmt == 7
    | .fill .. => false
  { m with
    rows := (m.rows ++ ks.map fun k => if half then k % 512 / 64 else k / 64).eraseDups
    cols := (m.cols ++ ks.map fun k => if half then k % 64 / 8 else k % 64 / 4).eraseDups }

/-- The bytes `ks` of a tile as AMOV or ADRAIN reads them: each element after some prefix of the queued operations, whose
operands are read by then (R215). -/
def Dev.readTile (d : Dev) (i : Issuer) (n : Nat) (ks : List Nat) : Dev × List Byte :=
  let mine : MatOp → Bool := fun m => m.by_ == i.ref && m.covers n
  let d := { d with mats := d.mats.map fun m => if mine m then d.sampled m else m }
  let vs := d.tileViews i.ref i.team n
  let w := d.tileGrain i.ref n
  let after := fun (k : Nat) => (Config.freeWord i.fresh (230000 + 1024 * n + k / w)).toNat % vs.length
  let order := (d.mats.filter mine).map (·.id)
  let seen : MatOp → MatOp := fun m => match order.findIdx? (· == m.id) with
    | some q => if mine m then m.seen (ks.filter fun k => decide (q < after k)) else m
    | none => m
  ({ d with mats := d.mats.map seen }, (List.range 1024).map fun k => (vs.getD (after k) []).getD k 0)

/-- What becomes of an element AMOV writes while operations are queued on its tile: 0 it keeps AMOV's value, 1 the
operations apply to AMOV's value, 2 they apply to the earlier value (R215). -/
def Dev.amovFate (d : Dev) (i : Issuer) (n k : Nat) : Nat :=
  if d.matOpen i.ref n false then (Config.freeWord i.fresh (500000 + 1024 * n + k / d.tileGrain i.ref n)).toNat % 3 else 1

/-- AMOV (R220). -/
def execAmov (dir : Bool) (v t : BitVec 8) (gd : Guard) (s : State) : Res :=
  withIssuer s fun i d =>
    let lanes := i.on gd
    match (if lanes.isEmpty then [] else i.tilesBad t.toNat 1) with
    | [] =>
      let n := t.toNat
      let g := i.grp.advance i.sp false
      if dir then
        let ws : List (Nat × List Byte) := lanes.flatMap fun l => (List.range 8).map fun j =>
          (imageAt 8 l j, natBytes 4 (i.grp.readV i.fresh l (v.toNat + j)).toNat)
        let bs : List (Nat × Byte) := ws.flatMap fun (a, bs) => bs.zipIdx.map fun (b, q) => (a + q, b)
        let keep := bs.filter fun (k, _) => d.amovFate i n k != 2
        let last := (bs.filter fun (k, _) => d.amovFate i n k == 0).map fun (k, _) => 1024 * n + k
        let d := d.modTeam i.ref.team fun t =>
          { t with tiles := keep.foldl (fun m (k, b) => fset 0 m (1024 * n + k) b) t.tiles }
        let skipIn : MatOp → MatOp := fun m => if m.by_ = i.ref ∧ m.covers n then { m with skip := m.skip ++ last } else m
        { d.modGroup i.ref fun _ => g with mats := d.mats.map skipIn }
      else
        let (d, tile) := d.readTile i n (lanes.flatMap fun l => (List.range 8).flatMap fun j => (List.range 4).map (imageAt 8 l j + ·))
        d.modGroup i.ref fun _ => lanes.foldl (fun g l => (List.range 8).foldl (fun g j =>
          g.writeV l (v.toNat + j) (BitVec.ofNat 32 (bytesNat ((tile.drop (imageAt 8 l j)).take 4)))) g) g
    | fs => d.failAll i lanes fs

/-! ## ADRAIN (R221) -/

/-- Rows, and bytes of a row (R221). -/
def drainShape (fmt : Nat) : Nat × Nat :=
  match fmt with
  | 0 => (16, 64) | 1 => (16, 32) | 5 => (8, 64) | _ => (16, 16)

/-- Row `r`'s FP32 words; for .MXF4 the row of two tiles (R221). -/
def drainRow (t1 t2 : List Byte) (mx : Bool) (r : Nat) : List Nat :=
  let row := fun (t : List Byte) => (List.range 16).map fun j => bytesNat ((t.drop (64 * r + 4 * j)).take 4)
  if mx then row t1 ++ row t2 else row t1

/-- m(r): AMAX over the row (R154, R221). -/
def rowMax (row : List Nat) : Nat := row.foldl (amaxStep f32) 0

/-- The bytes of a row, and its scale (R221). -/
def drainBytes (o : DrainOp) (t1 t2 : List Byte) (r : Nat) : List Byte × Nat :=
  match o.fmt.toNat with
  | 5 => ((t1.drop (512 * (if o.h then 1 else 0) + 64 * r)).take 64, 0)
  | 0 => ((t1.drop (64 * r)).take 64, 0)
  | 4 =>
    let row := drainRow t1 t2 true r
    let e := qScale 14 (f32.value (rowMax row))
    let q := row.map fun x => qElem 14 o.rnd e (f32.value x)
    ((List.range 16).map fun j => BitVec.ofNat 8 (q.getD (2 * j) 0 + 16 * q.getD (2 * j + 1) 0), e)
  | f =>
    let t := floatType (match f with | 1 => 11 | 2 => 12 | _ => 13)
    ((drainRow t1 t2 false r).flatMap fun x =>
      natBytes (if f = 1 then 2 else 1) (t.roundTo o.rnd o.sat (f32.value x)), 0)

/-- Every 16-byte piece ADRAIN writes: its address and bytes. -/
def drainPieces (o : DrainOp) (t1 t2 : List Byte) (base str : Word64) : List (Nat × List Byte) :=
  let (rows, len) := drainShape o.fmt.toNat
  let rs := (List.range rows).map fun r => drainBytes o t1 t2 r
  let row := rs.zipIdx.flatMap fun ((bs, _), r) => (List.range (len / 16)).map fun q =>
    ((base + BitVec.ofNat 64 r * str + BitVec.ofNat 64 (16 * q)).toNat, (bs.drop (16 * q)).take 16)
  if o.fmt = 4 then row ++ [((base + 16 * str).toNat, rs.map fun x => BitVec.ofNat 8 x.2)] else row

/-- The checks of every piece, in order. -/
def Dev.checkPieces (d : Dev) (i : Issuer) (sp : Space) : List (Nat × List Byte) →
    Dev × List LaneFault × List (List Piece × List Byte)
  | [] => (d, [], [])
  | (a, bs) :: rest =>
    match d.checkLane i { space := sp, size := 16, align := true, store := true, need := .w, reads := false } 0 a with
    | (d, .ok ps) => let (d, fs, ok) := d.checkPieces i sp rest; (d, fs, (ps, bs) :: ok)
    | (d, .error f) => let (d, fs, ok) := d.checkPieces i sp rest; (d, f :: fs, ok)

/-- ADRAIN's stores leave as those of the split, and its maximum as a release reduction (R221, R246). -/
def Dev.drainGo (d : Dev) (i : Issuer) (o : DrainOp) (lane : Nat) (ps : List (List Piece × List Byte)) (top : Nat)
    (word : List Piece) : Dev :=
  let n := d.nextId
  let (d, sv) := (ps.flatMap fun (pp, bs) => pp.map fun p => (p, bs)).foldl (fun (d, sv) (p, bs) =>
    let (d, x) := Dev.storePiece d i false false lane bs p
    (d, Served.add sv x)) (d, ({} : Served))
  let a : ReqAsk := { kind := .store, pol := .ca }
  let d := (d.sendMem i a sv.mem).sendScr i a sv.scr
  let d := (d.modGroup i.ref fun _ => i.grp.advance i.sp false).notePosts i.ref n
  match o.scope with
  | none => d
  | some sc =>
    let op := d.nextId
    let parts : List (Part × Leaf) := word.filterMap fun p => match p.loc with
      | .mem pa leaf => some ({ lane, va := p.va, pa, size := 4, off := 0, data := BitVec.ofNat 128 top, cmp := 0 }, leaf)
      | .scr .. => none
    let d := d.sendMem i { a with kind := .atom 3 false, held := true, rel := some sc } parts
    d.modGroup i.ref fun g => g.startRelease i.sp op sc

/-- ADRAIN (R221). -/
def execAdrain (o : DrainOp) (s : State) : Res :=
  withIssuer s fun i d =>
    let lanes := i.on o.g
    if lanes.isEmpty then d.modGroup i.ref fun _ => i.grp.advance i.sp false
    else
      let mx := o.fmt == 4
      let ks := if o.fmt = 5 then (List.range 512).map (512 * (if o.h then 1 else 0) + ·) else List.range 1024
      let (d0, t1) := d.readTile i o.a.toNat ks
      let (d0, t2) := if mx then d0.readTile i (o.a.toNat + 1) ks else (d0, t1)
      let len := (drainShape o.fmt.toNat).2
      let str := if i.sca o.b = 0 then BitVec.ofNat 64 len else i.sca o.b
      let (d, fs, ok) := d.checkPieces i (if o.dspS then .s else .g) (drainPieces o t1 t2 (i.sca o.d) str)
      let w := (i.sca o.c).toNat
      let (d, r) := match o.scope with
        | none => (d, Except.ok [])
        | some _ => d.checkLane i { space := .g, size := 4, align := true, store := true, need := .rw, reads := true } 0 w
      let stride := if str.toNat % 16 ≠ 0 then [misaligned (i.sca o.d).toNat] else []
      let top := ((List.range 16).map fun r => rowMax (drainRow t1 t2 mx r)).foldl max 0
      match i.tilesBad o.a.toNat (if mx then 2 else 1) ++ stride ++ fs ++ faultOf r, r with
      | [], .ok word => { d with mats := d0.mats }.drainGo i o (lanes.headD 0) ok top word
      | all, _ => d.failAll i lanes all

end Sys2Proof.Machine
end

