-- ==== Sys2Proof/Machine/NearMemory.lean ====
section
/-! DEFINITION. Class 11: Zither calls and rounds (R222 to R234), and EMBAG (R235 to R237). -/

namespace Sys2Proof.Machine

/-! ## The entry table (R223, R224) -/

structure ZEntry where
  v      : Bool
  optm   : Nat
  res    : Bool
  readm  : Nat
  writem : Nat
  sela   : Nat
  lista  : Nat
  para   : Nat
  cnta   : Nat
  start  : Nat

def ZEntry.ofWord (w : Word64) : ZEntry :=
  let f := fun (lo len : Nat) => bits w.toNat lo len
  { v := f 63 1 == 1, optm := f 57 6, res := f 56 1 == 1, readm := f 48 6, writem := f 40 6, sela := f 33 3
    lista := f 30 3, para := f 27 3, cnta := f 24 3, start := f 0 8 }

def Dev.zentry (d : Dev) (die ent : Nat) : ZEntry := ZEntry.ofWord (fget zitherReset (d.die die).entries ent)

/-- The set bits of a six-bit mask, ascending. -/
def maskBits (m : Nat) : List Nat := (List.range 6).filter fun k => m.testBit k

/-- The arguments an entry reads as vectors: READM, and those of OPTM that SELA's argument selects (R223). -/
def ZEntry.readArgs (e : ZEntry) (args : List Word64) : List Nat :=
  let sel := (maskBits e.optm).zipIdx.filterMap fun (k, j) =>
    if e.sela < 6 && (args.getD e.sela 0).getLsbD j then some k else none
  (List.range 6).filter fun k => e.readm.testBit k || sel.contains k

/-! ## The tile shape (R225) -/

structure ZShape where
  len    : Nat
  rows   : Nat
  stride : Nat

def ZShape.ofWord (w : Word64) (f64 : Bool) : ZShape :=
  let esz := if f64 then 8 else 4
  let len := bits w.toNat 0 32
  let str := bits w.toNat 48 16
  { len, rows := max 1 (bits w.toNat 32 16), stride := if str = 0 then (len * esz + 255) / 256 * 256 else 256 * str }

/-! ## Checks at issue (R226) -/

/-- `n` 64-bit words read as loads needing R. -/
def Dev.loadWords (d : Dev) (core pid asid a : Nat) : (n : Nat) → Dev × Except LaneFault (List Word64)
  | 0 => (d, .ok [])
  | n + 1 =>
    if a % 8 ≠ 0 then (d, .error (misaligned a))
    else if 2 ^ 48 < a + 8 then (d, .error (forbidden a))
    else match d.translate core pid asid a .r with
      | (d, .fault f) => (d, .error ⟨f.cause, f.replay, some f, a⟩)
      | (d, .ecc) => (d, .error ⟨.ecc, false, none, a⟩)
      | (d, .ok l) =>
        if d.unreachable (l.paOf a) then (d, .error (forbidden a))
        else if d.poisoned (l.paOf a) 8 then (d, .error ⟨.ecc, false, none, a⟩)
        else
          let w := BitVec.ofNat 64 (d.rdNat l.key (l.paOf a) 8)
          match d.loadWords core pid asid (a + 8) n with
          | (d, .ok ws) => (d, .ok (w :: ws))
          | r => r

/-- Two parts of one check together: of two causes the one that R325 puts higher, and of equals the first. -/
def joined {α : Type} : Except LaneFault (List α) → Except LaneFault (List α) → Except LaneFault (List α)
  | .ok x, .ok y => .ok (x ++ y)
  | .error f, .error g => .error (if causeRank g.cause g.replay < causeRank f.cause f.replay then g else f)
  | .error f, .ok _ | .ok _, .error f => .error f

/-- What a page of a range gives a check. -/
def pageAnswer (ok : Leaf → Bool) (va : Nat) : Xlat → Except LaneFault (List Leaf)
  | .ok l => if ok l then .ok [l] else .error (forbidden va)
  | .fault f => .error ⟨f.cause, f.replay, some f, va⟩
  | .ecc => .error ⟨.ecc, false, none, va⟩

/-- The leaves of a range; `ok` is what a page must be. -/
def Dev.pagesOf (d : Dev) (core pid asid : Nat) (need : Need) (ok : Leaf → Bool) (va n : Nat) : Dev × Except LaneFault (List Leaf) :=
  if 2 ^ 48 < va + n then (d, .error (forbidden va)) else
  (pagePieces va n).foldl (fun (d, acc) (o, _) =>
    let (d, x) := d.translate core pid asid (va + o) need
    (d, joined acc (pageAnswer ok (va + o) x))) (d, .ok [])

/-- A page a Zither vector may lie on: cacheable, in region 0x0 of the die (R226). -/
def zitherPage (die : Nat) (l : Leaf) : Bool := decide (l.mt = .cacheable) && paRegion l.pa == 0 && homeDie l.pa == die

/-- A vector's range, every row of it. -/
def Dev.zvec (d : Dev) (core pid asid : Nat) (need : Need) (sh : ZShape) (esz va : Nat) : Dev × Except LaneFault ZVec :=
  if va % 16 ≠ 0 then (d, .error (misaligned va))
  else
    let r : Dev × Except LaneFault (List Leaf) := (List.range sh.rows).foldl (fun ((d, acc) : Dev × Except LaneFault (List Leaf)) r =>
      let (d, ls) := d.pagesOf core pid asid need (zitherPage (core / 128)) (va + r * sh.stride) (sh.len * esz)
      (d, joined acc ls)) (d, .ok [])
    match r with
    | (d, .ok ls) => (d, .ok { va, pages := ls.eraseDups })
    | (d, .error f) => (d, .error f)

/-- Several vectors, in order. -/
def Dev.zvecs (d : Dev) (core pid asid : Nat) (need : Need) (sh : ZShape) (esz : Nat) (vas : List Nat) :
    Dev × Except LaneFault (List ZVec) :=
  vas.foldl (fun ((d, acc) : Dev × Except LaneFault (List ZVec)) a =>
    let (d, v) := d.zvec core pid asid need sh esz a
    (d, joined acc (v.map fun v => [v]))) (d, .ok [])

/-- Items 1 to 3 of R226: the call's vectors and coefficients. -/
def Dev.acceptCall (d : Dev) (core pid asid ent : Nat) (f64 : Bool) (args : List Word64) (shape : Word64) :
    Dev × Except LaneFault ZCall :=
  let e := d.zentry (core / 128) ent
  let sh := ZShape.ofWord shape f64
  let esz := if f64 then 8 else 4
  let arg := fun (k : Nat) => (args.getD k 0).toNat
  let cnt := if e.cnta < 6 then arg e.cnta else 0
  if !e.v then (d, .error (forbidden ent))
  else if 15 < cnt then (d, .error (forbidden cnt))
  else match d.loadWords core pid asid (arg e.lista) (if e.lista < 6 then cnt else 0) with
  | (d, .error f) => (d, .error f)
  | (d, .ok list) => match d.loadWords core pid asid (arg e.para) (if e.para < 6 then cnt else 0) with
    | (d, .error f) => (d, .error f)
    | (d, .ok coefs) =>
      let ra := e.readArgs args
      let wa := maskBits e.writem
      let all := ra.map arg ++ list.map BitVec.toNat ++ wa.map arg
      match all.find? (fun a => a % 16 != 0) with
      | some a => (d, .error (misaligned a))
      | none =>
        let (d, rv) := d.zvecs core pid asid .r sh esz (ra.map arg)
        let (d, lv) := d.zvecs core pid asid .r sh esz (list.map BitVec.toNat)
        let (d, wv) := d.zvecs core pid asid .w sh esz (wa.map arg)
        match joined rv (joined lv wv) with
        | .error f => (d, .error f)
        | .ok vs => (d, .ok {
            id := 0, by_ := none, sender := 0, pc := 0, ent, dbl := f64, args, len := sh.len, rows := sh.rows
            stride := sh.stride, reads := ra.zip vs, list := (vs.drop ra.length).take list.length, coefs
            writes := wa.zip (vs.drop (ra.length + list.length)), area := none
            arrive := none, started := false, left := [], got := [], out := [], ended := false, sums := [] })

/-- A 16-byte aligned cluster scratchpad area of `n` bytes (R226, R232). -/
def Dev.areaAt (d : Dev) (i : Issuer) (sc : BitVec 6) (n : Nat) : Except LaneFault (Nat × Nat) :=
  let ea := (i.sca sc).toNat
  if ea % 16 ≠ 0 then .error (misaligned ea)
  else match d.sideAt i 2 ea n with
    | .ok (.scr t o) => .ok (t, o)
    | .ok (.glob _) => .error (forbidden ea)
    | .error f => .error f

/-! ## Rounds (R229, R231, R232) -/

def ZVec.pa? (v : ZVec) (va : Nat) : Option (Nat × BitVec 8) :=
  (v.pages.find? fun l => decide (l.base ≤ va) && decide (va < l.base + l.size)).map fun l => (l.paOf va, l.key)

/-- The address of element `i` of row `r` of a vector. -/
def ZCall.elemVa (c : ZCall) (v : ZVec) (r i : Nat) : Nat := v.va + r * c.stride + i * (if c.dbl then 8 else 4)

/-- Every element of the call: row and place. -/
def ZCall.elems (c : ZCall) : List (Nat × Nat) := (List.range c.rows).flatMap fun r => (List.range c.len).map fun i => (r, i)

def ZCall.esz (c : ZCall) : Nat := if c.dbl then 8 else 4

/-- The 128-byte lines a vector's rows touch. -/
def ZCall.linesAt (c : ZCall) (v : ZVec) : List Nat :=
  (c.elems.filterMap fun (r, i) => (v.pa? (c.elemVa v r i)).map fun x => x.1 / 128).eraseDups

/-- The channels a call touches (R232). -/
def ZCall.units (c : ZCall) : List Nat :=
  ((c.reads.map (·.2) ++ c.list ++ c.writes.map (·.2)).flatMap fun v => (c.linesAt v).map fun l => homeOf (l * 128)).eraseDups

def Dev.round? (d : Dev) (id : Nat) : Option Round := d.rounds.find? (·.id == id)

def Dev.modRound (d : Dev) (id : Nat) (f : Round → Round) : Dev :=
  { d with rounds := d.rounds.map fun r => if r.id = id then f r else r }

/-- The owner's open round (R229). -/
def Dev.openRound? (d : Dev) (o : RoundOwner) : Option Round :=
  d.rounds.find? fun r => decide (r.owner = o) && r.closedAt.isNone

/-- A call joins its owner's open round, or opens one; the homes treat its write ranges as written, and keep no data of
them (R229, R231). -/
def Dev.joinRound (d : Dev) (o : RoundOwner) (die : Nat) (c : ZCall) : Dev :=
  let (cid, d) := d.newId
  let c := { c with id := cid }
  let lines := (c.writes.flatMap fun w => c.linesAt w.2).eraseDups
  let d := lines.foldl (fun d l => d.setHome l { d.home l with form := none, str := false }) d
  match d.openRound? o with
  | some r => d.modRound r.id fun r => { r with
      calls := r.calls ++ [c], ncall := r.ncall + 1, units := (r.units ++ c.units).eraseDups
      lines := (r.lines ++ lines).eraseDups }
  | none =>
    let (id, d) := d.newId
    { d with rounds := d.rounds ++ [{
        id, owner := o, die, calls := [c], ncall := 1, units := c.units, work := [], nerr := 0, closedAt := none, stopped := false, status := none
        arrive := none, lines }] }

/-- NMCALL is not ready: the round holds 64 calls, or an update of the control store holds new calls (R222, R229). -/
def Dev.callHeld (d : Dev) (i : Issuer) : Bool :=
  (d.die i.die).reload || (match d.openRound? (.team i.ref.team) with
    | some r => 64 ≤ r.calls.length
    | none => false)

/-- NMCALL (R225, R226). -/
def execNmcall (o : NmcallOp) (s : State) : Res :=
  withIssuer s fun i d =>
    if (i.on o.g).isEmpty then d.modGroup i.ref fun _ => i.grp.advance i.sp true
    else if d.callHeld i then d
    else
      let args := (List.range 6).map fun k => i.sca (o.a + BitVec.ofNat 6 k)
      let e := d.zentry i.die o.ent.toNat
      match d.acceptCall i.core i.grid.pid i.grid.asid o.ent.toNat o.f64 args (i.sca o.b) with
      | (d, .error f) => d.failOnce i o.g f
      | (d, .ok c) =>
        let area : Except LaneFault (Option (Nat × Nat)) :=
          if e.res && o.d != 63 then (d.areaAt i o.d 512).map some else .ok none
        let obj : Except LaneFault (Option ArriveAt) := if o.c = 63 then .ok none else (d.objectAt i o.c).map some
        match area, obj with
        | .error f, _ | _, .error f => d.failOnce i o.g f
        | .ok area, .ok obj =>
          (d.joinRound (.team i.ref.team) i.die { c with
            by_ := some i.ref, sender := i.ref.team, pc := i.pc, area
            arrive := if area.isSome then obj else none }).modGroup i.ref fun _ => i.grp.advance i.sp true

/-! ## A unit's work (R224, R228, R230) -/

/-- An element of a vector, as the call has read it. -/
def ZCall.elemOf (c : ZCall) (v : ZVec) (r i : Nat) : Nat := bytesNat (fgetBytes c.got (c.elemVa v r i) c.esz)

def ZCall.fmt (c : ZCall) : Fmt := if c.dbl then f64 else f32

/-- An FP64 coefficient rounded to the element format. -/
def ZCall.coef (c : ZCall) (w : Word64) : Nat := c.fmt.roundTo .rne false (f64.value w.toNat)

def ZCall.readVec (c : ZCall) (k : Nat) : ZVec := ((c.reads.find? fun x => x.1 == k).map (·.2)).getD { va := 0, pages := [] }

/-- The element an entry writes through argument `k`; an entry that a customer image defines gives a free value (R224;
log 24). -/
def ZCall.result (c : ZCall) (fresh k r i : Nat) : Nat :=
  let x := fun (k : Nat) => c.elemOf (c.readVec k) r i
  let arg := fun (k : Nat) => c.args.getD k 0
  let t := c.fmt
  match c.ent with
  | 0 => (arg 1).toNat % 2 ^ (8 * c.esz)
  | 1 => x 1
  | 2 => mulWord .rne t (c.coef (arg 2)) (x 1)
  | 3 => fmaWord .rne t (c.coef (arg 3)) (x 1) (mulWord .rne t (c.coef (arg 4)) (x 2))
  | 4 => (c.list.zip c.coefs).foldl (fun acc (v, k) => fmaWord .rne t (c.coef k) (c.elemOf v r i) acc) (x 1)
  | _ => (Config.freeWord fresh (1000000 + (k * c.rows + r) * c.len + i)).toNat % 2 ^ (8 * c.esz)

/-- An element widened exactly to FP64. -/
def ZCall.wide (c : ZCall) (w : Nat) : Nat := if c.dbl then w else f64.roundTo .rne false (f32.value w)

def absWord (w : Nat) : Nat := f64.mag w

/-- A reduction's step on one element (R224; log 24). -/
def ZCall.reduce (c : ZCall) (r i S : Nat) : Nat :=
  let x := fun (k : Nat) => c.wide (c.elemOf (c.readVec k) r i)
  match c.ent with
  | 5 =>
    let tol := fun (k : Nat) => if c.reads.any (·.1 == k) then x k else (c.args.getD k 0).toNat
    let m := f64.minMax true (absWord (x 0)) (absWord (x 1))
    let w := addWord .rne f64 (tol 2) (mulWord .rne f64 (tol 3) m)
    let q := divWord .rne f64 (addWord .rne f64 (x 0) (f64.negIf true (x 1))) w
    addWord .rne f64 S (mulWord .rne f64 q q)
  | 6 => fmaWord .rne f64 (x 0) (x 1) S
  | 7 => addWord .rne f64 S (x 0)
  | _ =>
    if (f64.value S).isNan || (f64.value (x 0)).isNan then f64.nan else f64.minMax true S (absWord (x 0))

/-- The physical address of an element of the call's first vector, whose channel's unit holds the element (R224;
log 24). -/
def ZCall.paOf (c : ZCall) (r i : Nat) : Option Nat :=
  match c.reads.map (·.2) ++ c.writes.map (·.2) with
  | v :: _ => (v.pa? (c.elemVa v r i)).map (·.1)
  | [] => none

/-- The elements of a unit, in ascending address order (R224). -/
def ZCall.unitElems (c : ZCall) (u : Nat) : List (Nat × Nat) :=
  ((c.elems.filterMap fun (r, i) => (c.paOf r i).bind fun pa => if homeOf pa = u then some (pa, r, i) else none).isort
    fun a b => decide (a.1 ≤ b.1)).map (·.2)

/-- The 64 partials, by channel (R224). -/
def ZCall.partials (c : ZCall) (fresh : Nat) : List Word64 :=
  if 8 < c.ent then (List.range 64).map fun k => Config.freeWord fresh (2000000 + k)
  else (List.range 64).map fun u => BitVec.ofNat 64 ((c.unitElems u).foldl (fun S (r, i) => c.reduce r i S) 0)

/-- The vectors the call reads. -/
def ZCall.inputs (c : ZCall) : List ZVec := c.reads.map (·.2) ++ c.list

/-- The page of an address, as found at issue. -/
def ZCall.leaf? (c : ZCall) (va : Nat) : Option Leaf :=
  ((c.inputs ++ c.writes.map (·.2)).flatMap (·.pages)).find? fun l => decide (l.base ≤ va) && decide (va < l.base + l.size)

/-- The sectors that some vectors touch. -/
def ZCall.sectors (c : ZCall) (vs : List ZVec) : List Nat :=
  (vs.flatMap fun v => c.elems.map fun (r, i) => c.elemVa v r i / 32).eraseDups

/-- The bytes the call writes in a sector: their addresses, the written argument and the element. -/
def ZCall.sectorElems (c : ZCall) (sec : Nat) : List (Nat × Nat × Nat × Nat) :=
  c.writes.flatMap fun (k, v) => c.elems.filterMap fun (r, i) =>
    if c.elemVa v r i / 32 = sec then some (c.elemVa v r i, k, r, i) else none

/-- Every element that a sector to write is made from has been read: each is read before it is written (R224). -/
def ZCall.inputsRead (c : ZCall) (sec : Nat) : Bool :=
  (c.sectorElems sec).all fun (_, _, r, i) => c.inputs.all fun v => !c.left.contains (c.elemVa v r i / 32)

/-- The round and call of an id. -/
def Dev.call? (d : Dev) (id : Nat) : Option (Round × ZCall) :=
  d.rounds.findSome? fun r => (r.calls.find? (·.id == id)).map fun c => (r, c)

def Round.modCall (r : Round) (id : Nat) (f : ZCall → ZCall) : Round :=
  { r with calls := r.calls.map fun c => if c.id = id then f c else c }

/-- The round's units have stopped, for a team that is being saved or is (R233). -/
def Dev.roundAway (d : Dev) (r : Round) : Bool :=
  r.stopped || match r.owner with
  | .team t => d.isAway t
  | .context _ => false

/-- Every earlier call of the round has ended (R229). -/
def Round.mayStart (r : Round) (c : ZCall) : Bool := r.calls.all fun x => x.ended || decide (c.id ≤ x.id)

/-- A unit's working state once it has gone on: its micro-words are the image's own (log 24). -/
def ZUnit.goOn (u : ZUnit) (fresh : Nat) : ZUnit :=
  { u with micro := (Config.freeWord fresh 3000000).setWidth 8, place := u.place + 1
           regs := (List.range 32).map fun k => Config.freeWord fresh (3000001 + k) }

/-- A unit takes a call up at its first micro-word (R223, R233). -/
def ZUnit.begin_ (start unit : Nat) : ZUnit := { unit, micro := BitVec.ofNat 8 start, place := 0, regs := List.replicate 32 0 }

/-- ZITHER_CALL_START: the units take the call up (R228, R229). -/
def execZitherCallStart (id : Nat) (s : State) : Res :=
  withEvent s fun d => do
    let (r, c) ← d.call? id
    if c.started || !r.mayStart c || d.roundAway r then none
    else
      let c' := { c with started := true, left := c.sectors c.inputs, out := c.sectors (c.writes.map (·.2)) }
      let fresh := c.units.map (ZUnit.begin_ (d.zentry r.die c.ent).start)
      some (d.modRound r.id fun r => { r.modCall id fun _ => c' with
        work := (r.work.filter fun u => !c.units.contains u.unit) ++ fresh })

/-- A cause of a call, raised in the leader lane of the issuing group (R230, R347). -/
def Dev.zitherCause (d : Dev) (c : ZCall) (cause : Cause) (info : Nat) : Dev :=
  match c.by_ with
  | some g => d.raiseLater g { cause, src := .nearMemory, info := info % 2 ^ 48, lanes := 0, pc := c.pc, lvl := 0, wr := false }
  | none => d

/-- An uncorrectable error ends the call in every unit: each sector of its write ranges is as it stands, written or not, and
no partial is delivered (R230). -/
def Dev.abandonCall (d : Dev) (r : Round) (c : ZCall) (va : Nat) : Dev :=
  (d.modRound r.id fun r => { r.modCall c.id fun c => { c with ended := true, left := [], out := [] } with
    nerr := r.nerr + 1 }).zitherCause c .ecc va

/-- The call writes its elements of a sector. -/
def Dev.zitherWrite (d : Dev) (c : ZCall) (l : Leaf) (sec : Nat) : Dev :=
  (c.sectorElems sec).foldl (fun (e : Dev) (va, k, r, i) =>
    e.homeWrite true l.key (l.paOf va) (natBytes c.esz (c.result d.fresh k r i))) d

/-- A call goes on: a unit reads a sector of its vectors or writes one whose elements have been read, any of them; so a store
that has not been released before the call is seen old or new sector by sector (R228, R230, R231). -/
def Dev.zitherStep (d : Dev) (id : Nat) : Option Dev := do
  let (r, c) ← d.call? id
  if !c.started || c.ended || d.roundAway r then none
  else
    let acts : List (Bool × Nat) := c.left.map (fun x => (false, x)) ++ (c.out.filter c.inputsRead).map fun x => (true, x)
    let (w, sec) ← acts[Config.pick d.fresh % acts.length]?
    let l ← c.leaf? (32 * sec)
    let pa := l.paOf (32 * sec)
    if d.poisoned pa 32 then some (d.abandonCall r c (32 * sec))
    else
      let c' := if w then { c with out := c.out.filter (· != sec) }
        else { c with left := c.left.filter (· != sec), got := fsetBytes c.got (32 * sec) (d.rdBytes l.key pa 32) }
      let d := if w then d.zitherWrite c l sec else d
      some (d.modRound r.id fun r => { r.modCall id fun _ => c' with
        work := r.work.map fun u => if u.unit = homeOf pa then u.goOn d.fresh else u })

/-- Partials and their arrival reach scratchpad, or are dropped with PERM when the team is past step 7 (R228, R347). -/
def Dev.deliver (d : Dev) (c : ZCall) : Dev :=
  match c.area with
  | some (t, off) => match (d.team? t).filter (·.scrLive) with
    | some _ =>
      let d := d.modTeam t fun t => { t with scr := fsetBytes t.scr off (c.sums.flatMap wordBytes) }
      match c.arrive with
      | some a => d.sendArrival a 0 512 c.sender
      | none => d
    | none => d.zitherCause c .perm off
  | none => d

/-- ZITHER_CALL_END: every element has been read and every write made; the partials and their arrival follow (R228). -/
def execZitherCallEnd (id : Nat) (s : State) : Res :=
  withEvent s fun d => do
    let (r, c) ← d.call? id
    if !c.started || c.ended || !c.left.isEmpty || !c.out.isEmpty || d.roundAway r then none
    else
      let c := { c with ended := true, sums := if (d.zentry r.die c.ent).res then c.partials d.fresh else [] }
      some ((d.modRound r.id (·.modCall id fun _ => c)).deliver c)

/-! ## The close (R231, R232) -/

/-- NMCLOSE's status (R232). -/
def Round.statusWord (r : Round) : Word64 :=
  BitVec.ofNat 64 (r.ncall * 2 ^ 32 + r.units.length * 2 ^ 16 + min 255 r.nerr * 2 ^ 8 + (if r.nerr = 0 then 0 else 6))

/-- A round's status and arrival. -/
def Dev.deliverClose (d : Dev) (status : Option (Nat × Nat)) (word : Word64) (arrive : Option ArriveAt) (sender : Nat) : Dev :=
  let d := match status with
    | some (t, off) => match (d.team? t).filter (·.scrLive) with
      | some _ => d.modTeam t fun t => { t with scr := fsetBytes t.scr off (wordBytes word) }
      | none => d
    | none => d
  match arrive with
  | some a => d.sendArrival a 0 8 sender
  | none => d

/-- NMCLOSE (R232). -/
def execNmclose (a d_ : BitVec 6) (gd : Guard) (s : State) : Res :=
  withIssuer s fun i d =>
    if (i.on gd).isEmpty then d.modGroup i.ref fun _ => i.grp.advance i.sp true
    else
      let area : Except LaneFault (Option (Nat × Nat)) := if d_ = 63 then .ok none else (d.areaAt i d_ 8).map some
      let obj : Except LaneFault (Option ArriveAt) := if a = 63 then .ok none else (d.objectAt i a).map some
      match area, obj with
      | .error f, _ | _, .error f => d.failOnce i gd f
      | .ok area, .ok obj =>
        let d := match d.openRound? (.team i.ref.team) with
          | some r => d.modRound r.id fun r => { r with closedAt := some d.cycle, status := area, arrive := obj }
          | none => d.deliverClose area 0 obj i.ref.team
        d.modGroup i.ref fun _ => i.grp.advance i.sp true

/-- Every call has ended and every lease on the write ranges has lapsed (R231). -/
def Dev.roundQuiet (d : Dev) (r : Round) : Bool :=
  match r.closedAt with
  | none => false
  | some at_ => r.calls.all (·.ended) && r.lines.all fun l =>
      let e := (d.home l).expiry
      decide (e ≤ at_) || decide (e + drift (e - at_) < d.cycle)

/-- ROUND_CLOSE_ACK (R231, R232). -/
def execRoundCloseAck (id : Nat) (s : State) : Res :=
  withEvent s fun d => do
    let r ← d.round? id
    if !d.roundQuiet r || d.roundAway r then none
    else
      let d := { d with rounds := d.rounds.filter fun x => x.id != id }
      some (match r.owner with
        | .team t => d.deliverClose r.status r.statusWord r.arrive t
        | .context n => { d with ctxs := d.ctxs.map fun c => if c.num = n then
            { c with acked := some (r.nerr, ((r.calls.filter fun x => !x.sums.isEmpty).getLast?.map (·.sums)).getD []) } else c })

/-! ## EMBAG (R235 to R237) -/

/-- A table descriptor (R236). -/
structure Table where
  tva  : Nat
  rows : Nat
  rstr : Nat
  dim  : Nat
  fmt  : Nat
  deriving DecidableEq, Repr

def Table.ofWords (ws : List Word64) : Table :=
  let w := fun (k lo len : Nat) => bits (ws.getD k 0).toNat lo len
  { tva := w 0 0 48, rows := w 1 32 32, rstr := w 1 16 16, dim := w 1 0 16, fmt := w 2 0 4 }

def Table.esz (t : Table) : Nat := match t.fmt with | 8 => 4 | 11 => 2 | _ => 1

/-- The bytes of a row, with an INT8 row's scale (R236). -/
def Table.rowBytes (t : Table) : Nat := t.dim * t.esz + (if t.fmt = 5 then 4 else 0)

/-- What the descriptor alone shows malformed (R236). -/
def Table.malformed (ws : List Word64) : Bool :=
  let t := Table.ofWords ws
  bits (ws.getD 0 0).toNat 48 16 != 0 || bits (ws.getD 2 0).toNat 4 60 != 0 || (ws.drop 3).any (· != 0) ||
  t.rows == 0 || t.rstr % 16 != 0 || t.dim < 4 || 4096 < t.dim || t.dim % 4 != 0 || !([8, 11, 12, 13, 5].contains t.fmt) ||
  decide (t.rstr < t.rowBytes)

/-- Buffer-local offset of a region-0x1 offset (R236). -/
def localOf (x : Nat) : Nat := x / 32768 * 4096 + x % 4096

/-- The physical address of local offset `o` of buffer `b` (R236). -/
def bufferPa (b o : Nat) : Nat := 2 ^ 48 + o / 4096 * 32768 + 4096 * b + o % 4096

/-- TVA's page holds every row, in region 0x1 (R236). -/
def Table.fits (t : Table) (l : Leaf) : Bool :=
  let pa := l.paOf t.tva
  let x := pa % 2 ^ 48
  let last := localOf x + (t.rows - 1) / 8 * t.rstr + t.rowBytes
  paRegion pa == 1 && bits x 12 3 == 0 &&
  (if 32768 ≤ l.size then decide (last ≤ (l.pa % 2 ^ 48 + l.size) / 32768 * 4096)
   else decide (t.rows ≤ 4) && decide (localOf x % 4096 + t.rowBytes ≤ 4096))

/-- A list of 32-bit words: its alignment and its pages. -/
def Dev.listPages (d : Dev) (i : Issuer) (va n : Nat) : Dev × Except LaneFault ZVec :=
  if va % 4 ≠ 0 then (d, .error (misaligned va))
  else match d.pagesOf i.core i.grid.pid i.grid.asid .r (fun l => !d.unreachable l.pa) va (4 * n) with
    | (d, .ok ls) => (d, .ok { va, pages := ls })
    | (d, .error f) => (d, .error f)

/-- A 32-bit word of a list, at issue. -/
def Dev.listWord (d : Dev) (v : ZVec) (k : Nat) : Nat :=
  match v.pa? (v.va + 4 * k) with
  | some (pa, key) => d.rdNat key pa 4
  | none => 0

/-- Some word of a list's first `n` is poisoned. -/
def Dev.listPoisoned (d : Dev) (v : ZVec) (n : Nat) : Bool :=
  !d.poison.isEmpty && (List.range n).any fun k => match v.pa? (v.va + 4 * k) with
    | some (pa, _) => d.poisoned pa 4
    | none => false

/-- The sectors of the first `n` words of some lists. -/
def listSectors (n : Nat) (vs : List ZVec) : List Nat := (vs.flatMap fun v => (List.range n).map fun k => (v.va + 4 * k) / 32).eraseDups

/-- EMBAG's checks at issue, each only once those before it have passed (R237; log 25). -/
def Dev.acceptBag (d : Dev) (i : Issuer) (red : BitVec 2) (o : Sc4) : Dev × Except LaneFault Embag :=
  let desc := (i.sca o.b).toNat
  let arg := fun (k : Nat) => (i.sca (o.a + BitVec.ofNat 6 k)).toNat
  let nbag := arg 3 % 2 ^ 32
  if !d.capacity then (d, .error (forbidden desc))
  else match d.checkLane i { space := .g, size := 64, align := true, store := false, need := .r, reads := true } 0 desc with
  | (d, .error f) => (d, .error f)
  | (d, .ok ps) =>
    let ws := match ps with
      | { loc := .mem pa leaf, .. } :: _ => (List.range 8).map fun k => BitVec.ofNat 64 (d.rdNat leaf.key (pa + 8 * k) 8)
      | _ => []
    let t := Table.ofWords ws
    if Table.malformed ws || nbag = 0 || 65536 < nbag then (d, .error (forbidden desc))
    else match d.listPages i (arg 1) (nbag + 1) with
    | (d, .error f) => (d, .error f)
    | (d, .ok ov) =>
      let offs := (List.range (nbag + 1)).map (d.listWord ov)
      if d.listPoisoned ov (nbag + 1) then (d, .error ⟨.ecc, false, none, arg 1⟩)
      else if offs.any (2 ^ 20 < ·) || (offs.zip (offs.drop 1)).any (fun (a, b) => decide (b < a)) then
        (d, .error (forbidden (arg 1)))
      else match d.listPages i (arg 0) (offs.getLastD 0) with
      | (d, .error f) => (d, .error f)
      | (d, .ok idx) => match (if arg 2 = 0 then (d, .ok none) else
            match d.listPages i (arg 2) (offs.getLastD 0) with
            | (d, .ok v) => (d, Except.ok (some v))
            | (d, .error f) => (d, Except.error f)) with
        | (d, .error f) => (d, .error f)
        | (d, .ok wts) => match d.translate i.core i.grid.pid i.grid.asid t.tva .r with
          | (d, .fault f) => (d, .error ⟨f.cause, f.replay, some f, t.tva⟩)
          | (d, .ecc) => (d, .error ⟨.ecc, false, none, t.tva⟩)
          | (d, .ok l) =>
            let obj : Except LaneFault (Option ArriveAt) := if o.c = 63 then .ok none else (d.objectAt i o.c).map some
            if !t.fits l then (d, .error (forbidden t.tva))
            else match d.areaAt i o.d (nbag * t.dim * 4), obj with
              | .error f, _ | _, .error f => (d, .error f)
              | .ok out, .ok arrive => (d, .ok {
                  id := 0, by_ := i.ref, pc := i.pc, red, tva := t.tva, rows := t.rows, rstr := t.rstr, dim := t.dim
                  fmt := t.fmt, l0 := localOf (l.paOf t.tva % 2 ^ 48), key := l.key, idx, offs, wts, nbag, out, arrive
                  left := listSectors (offs.getLastD 0) (idx :: wts.toList), got := [], bad := false
                  bags := List.range nbag, chunks := [], ecc := false })

/-- EMBAG (R237). -/
def execEmbag (red : BitVec 2) (o : Sc4) (s : State) : Res :=
  withIssuer s fun i d =>
    if (i.on o.g).isEmpty then d.modGroup i.ref fun _ => i.grp.advance i.sp true
    else match d.acceptBag i red o with
      | (d, .error f) => d.failOnce i o.g f
      | (d, .ok e) =>
        let (id, d) := d.newId
        { d.modGroup i.ref fun _ => i.grp.advance i.sp true with embags := d.embags ++ [{ e with id }] }

def Embag.esz (e : Embag) : Nat := match e.fmt with | 8 => 4 | 11 => 2 | _ => 1

/-- Byte `k` of row `x`. -/
def Dev.bagByte (d : Dev) (e : Embag) (x k : Nat) : Byte := d.rd e.key (bufferPa (x % 8) (e.l0 + x / 8 * e.rstr + k))

/-- The bytes of row `x` are poisoned. -/
def Dev.rowPoisoned (d : Dev) (e : Embag) (x : Nat) : Bool :=
  !d.poison.isEmpty && (List.range (e.dim * e.esz + (if e.fmt = 5 then 4 else 0))).any fun k =>
    d.poisoned (bufferPa (x % 8) (e.l0 + x / 8 * e.rstr + k)) 1

/-- Element `j` of row `x` as FP32 (R237). -/
def Dev.bagElem (d : Dev) (e : Embag) (x j : Nat) : Nat :=
  let w := bytesNat ((List.range e.esz).map fun k => d.bagByte e x (j * e.esz + k))
  let sc := bytesNat ((List.range 4).map fun k => d.bagByte e x (e.dim + k))
  match e.fmt with
  | 8 => w
  | 5 => f32.roundTo .rne false ((qValue 5 w).mul (f32.value sc))
  | f => f32.roundTo .rne false ((floatType f).value w)

/-- Word `k` of a list, as read. -/
def Embag.word (e : Embag) (v : ZVec) (k : Nat) : Nat := bytesNat (fgetBytes e.got (v.va + 4 * k) 4)

/-- One element of one bag, from its indices in list order with their places (R237). -/
def Dev.bagValue (d : Dev) (e : Embag) (ix : List (Nat × Nat)) (j : Nat) : Nat :=
  let step := fun (acc : Nat) (x : Nat × Nat) =>
    let v := d.bagElem e x.1 j
    match e.red.toNat with
    | 3 => f32.minMax true acc v
    | 1 => match e.wts with
      | some ws => fmaWord .rne f32 (e.word ws x.2) v acc
      | none => fmaWord .rne f32 0x3F800000 v acc
    | _ => addWord .rne f32 acc v
  let start := if e.red = 3 then 0xFF800000 else 0
  let parts := (List.range 8).filterMap fun b =>
    let mine := ix.filter fun x => x.1 % 8 == b
    if mine.isEmpty then none else some (mine.foldl step start)
  match parts with
  | [] => 0
  | p :: ps =>
    let out := ps.foldl (fun a b => if e.red = 3 then f32.minMax true a b else addWord .rne f32 a b) p
    if e.red = 2 then divWord .rne f32 out (f32.roundTo .rne false (FVal.ofInt ix.length)) else out

/-- A bag's indices within the table, with their places in the list. -/
def Embag.indices (e : Embag) (k : Nat) : List (Nat × Nat) :=
  let lo := e.offs.getD k 0
  ((List.range (e.offs.getD (k + 1) 0 - lo)).map fun n => (e.word e.idx (lo + n), lo + n)).filter fun x =>
    decide (x.1 < e.rows)

def Dev.modBag (d : Dev) (id : Nat) (f : Embag → Embag) : Dev :=
  { d with embags := d.embags.map fun e => if e.id = id then f e else e }

/-- A sector of the lists is read at its home (R237). -/
def Dev.bagList (d : Dev) (e : Embag) (sec : Nat) : Embag :=
  let e := { e with left := e.left.filter (· != sec) }
  match ((e.idx :: e.wts.toList).flatMap (·.pages)).find? fun l => decide (l.base ≤ 32 * sec) && decide (32 * sec < l.base + l.size) with
  | none => e
  | some l =>
    let pa := l.paOf (32 * sec)
    if d.poisoned pa 32 then { e with bad := true } else { e with got := fsetBytes e.got (32 * sec) (d.rdBytes l.key pa 32) }

/-- The words of a bag: the canonical NaN in every element when it has met an uncorrectable error (R237; log 25). -/
def Dev.bagWords (d : Dev) (e : Embag) (k : Nat) : Bool × List Nat :=
  let bad := e.bad || (e.indices k).any fun x => d.rowPoisoned e x.1
  (bad, (List.range e.dim).map fun j => if bad then f32.nan else d.bagValue e (e.indices k) j)

/-- A bag is pooled; its output leaves in 16-byte chunks. -/
def Dev.poolBag (d : Dev) (e : Embag) (k : Nat) : Embag :=
  let (bad, ws) := d.bagWords e k
  let bs := ws.flatMap (natBytes 4)
  { e with
    bags := e.bags.filter (· != k), ecc := e.ecc || bad
    chunks := e.chunks ++ (List.range (bs.length / 16)).map fun q => (4 * k * e.dim + 16 * q, (bs.drop (16 * q)).take 16) }

/-- An EMBAG goes on: a sector of its lists is read; once all are, a bag is pooled or a chunk of output is written, any of
them (R237). -/
def Dev.bagStep (d : Dev) (id : Nat) : Option Dev := do
  let e ← d.embags.find? (·.id == id)
  if e.left.isEmpty then
    let n := Config.pick d.fresh % (e.bags.length + e.chunks.length)
    match e.bags[n]? with
    | some k => some (d.modBag id fun _ => d.poolBag e k)
    | none =>
      let (o, bs) ← e.chunks[n - e.bags.length]?
      let d := if (d.team? e.out.1).any (·.scrLive) then
        d.modTeam e.out.1 fun t => { t with scr := fsetBytes t.scr (e.out.2 + o) bs } else d
      some (d.modBag id fun e => { e with chunks := e.chunks.filter (·.1 != o) })
  else do
    let sec ← e.left[Config.pick d.fresh % e.left.length]?
    some (d.modBag id fun _ => d.bagList e sec)

/-- A cause of an EMBAG, raised in the leader lane (R237, R347). -/
def Embag.cause (e : Embag) (cause : Cause) (info : Nat) : AsyncCause :=
  { cause, src := .embag, info := info % 2 ^ 48, lanes := 0, pc := e.pc, lvl := 0, wr := false }

/-- EMBAG_COMPLETE: the output is written, and its bytes arrive (R237). -/
def execEmbagComplete (id : Nat) (s : State) : Res :=
  withEvent s fun d => do
    let e ← d.embags.find? (·.id == id)
    if !e.left.isEmpty || !e.bags.isEmpty || !e.chunks.isEmpty then none
    else
      let d := { d with embags := d.embags.filter fun x => x.id != id }
      match (d.team? e.out.1).filter (·.scrLive) with
      | none => some (d.raiseLater e.by_ (e.cause .perm e.out.2))
      | some _ =>
        let d := match e.arrive with
          | some a => d.sendArrival a 0 (4 * e.nbag * e.dim : Nat) e.by_.team
          | none => d
        some (if e.ecc then d.raiseLater e.by_ (e.cause .ecc e.tva) else d)

end Sys2Proof.Machine
end

