-- ==== Sys2Proof/Machine/Launching.lean ====
section
/-! DEFINITION. Launch records, grids, units and their placement, the ramp, team starts and work-graph nodes (R22 to R35,
R50 to R60, R390, R391). -/

namespace Sys2Proof.Machine

/-! ## Launch records (R23 to R35) -/

def Launch.ofWords (ws : List Word64) : Launch :=
  let w := fun (k lo len : Nat) => bits (ws.getD k 0).toNat lo len
  { code := BitVec.ofNat 48 (w 0 0 48), nteam := w 1 32 32, regu := w 1 0 8, scr := w 1 8 8, accu := w 1 16 8
    traph := w 2 23 1 == 1, coop := w 2 22 1 == 1, clw := w 2 14 4, clh := w 2 18 4, nreg8 := w 2 8 6
    width := 4 * 2 ^ w 2 6 2, ngroup := w 2 0 6, handler := BitVec.ofNat 48 (w 3 0 48), pbase := w 4 0 48
    psize := w 5 0 32, narg := w 6 48 6, args := w 6 0 48, csize := w 7 48 16, cbase := w 7 0 48 }

/-- Pool units of a team. -/
def Launch.units (l : Launch) : Nat := l.regu + l.scr + l.accu

/-- R25: the shape of a cluster. -/
def clusterOk (w h : Nat) : Bool :=
  (decide (1 ≤ w) && decide (1 ≤ h) && decide (w * h ≤ 12) && decide (w ≤ 4) && decide (h ≤ 4)) ||
  [(2, 6), (6, 2), (1, 12), (12, 1)].contains (w, h)

/-- Codes 0x01 to 0x05 of R35, the lowest that fails. -/
def Launch.badRecord (ws : List Word64) : Option (BitVec 8) :=
  let l := Launch.ofWords ws
  let w := fun (k lo len : Nat) => bits (ws.getD k 0).toNat lo len
  if w 0 48 16 != 0 || w 2 24 40 != 0 || w 3 48 16 != 0 || w 4 48 16 != 0 || w 5 32 32 != 0 || w 6 54 10 != 0 then some 1
  else if l.code.toNat % 8 ≠ 0 ∨ l.pbase % 128 ≠ 0 ∨ l.args % 8 ≠ 0 ∨ l.cbase % 256 ≠ 0 ∨ l.psize % 16 ≠ 0 ∨
      0x100000 < l.psize then some 2
  else if l.ngroup = 0 ∨ 48 < l.ngroup ∨ l.nreg8 = 0 ∨ 32 < l.nreg8 then some 3
  else if !clusterOk l.clw l.clh ∨ l.nteam = 0 ∨ l.nteam % (l.clw * l.clh) ≠ 0 then some 4
  else if l.regu = 0 ∨ l.regu * 16384 < l.ngroup * l.width * (8 * l.nreg8) * 4 ∨ 16 < l.accu ∨ 192 < l.units ∨
      w 1 24 8 ≠ 0 then some 5
  else none

/-- The kernel descriptor's reserved bits (R34). -/
def kernelReserved (x : Nat) : Bool :=
  bits x 56 8 != 0 || bits x 32 8 != 0 || bits x 18 6 != 0 || bits x 11 1 != 0 || bits x 6 2 != 0

/-- Code 0x08 of R35. -/
def Launch.breaks (l : Launch) (x : Nat) : Bool :=
  decide (l.nreg8 < bits x 0 6) || decide (l.scr < bits x 48 8) || decide (l.accu < bits x 40 8) ||
  (bits x 12 6 != 0 && bits x 12 6 != l.ngroup) || (bits x 10 1 == 1 && 4 * 2 ^ bits x 8 2 != l.width) ||
  (bits x 24 4 != 0 && bits x 24 4 != l.clw) || (bits x 28 4 != 0 && bits x 28 4 != l.clh)

/-! ## Room (R32, R54) -/

/-- The team holds pool units of its core: from placement until step 9 of its retirement, and not while saved. -/
def Team.holds (t : Team) : Bool := t.state != .saved

/-- What a core has left: pool units and group slots. -/
structure Room where
  units  : Nat
  groups : Nat

def Dev.launchOf (d : Dev) (t : Team) : Option Launch := (d.grid? t.grid).map (·.launch)

/-- A core's free units and slots, the teams in `gone` not counted. -/
def Dev.room (d : Dev) (gone : List Nat) (core : Nat) : Room :=
  let here := d.teams.filter fun t => t.core == core && t.holds && !gone.contains t.inst
  let u := (here.filterMap fun t => (d.launchOf t).map (·.units)).foldl (· + ·) 0
  { units := 192 - u - (d.core core).stepping.length
    groups := 48 - (here.map fun t => t.groups.length).foldl (· + ·) 0 }

/-- The cores of one rectangle, by position (R25): column and row exchanged when it is turned. -/
def rectCores (die w corner : Nat) (n : Nat) (turned : Bool) : List Nat :=
  (List.range n).map fun p =>
    let (x, y) := if turned then (p / w, p % w) else (p % w, p / w)
    die * 128 + corner + y * 16 + x

/-- A rectangle's corner lies so that it stays on the floor grid of 16 columns and 8 rows. -/
def cornerOk (w h corner : Nat) : Bool := decide (corner % 16 + w ≤ 16) && decide (corner / 16 + h ≤ 8)

/-- The first rectangle on a die whose cores all pass: as given, then turned (R54). -/
def firstRect (die w h : Nat) (ok : Nat → Bool) : Option (List Nat) :=
  let try_ := fun (turned : Bool) =>
    let (cw, ch) := if turned then (h, w) else (w, h)
    ((List.range 128).filter (cornerOk cw ch)).findSome? fun c =>
      let cs := rectCores die w c (w * h) turned
      if cs.all ok then some cs else none
  match try_ false with
  | some cs => some cs
  | none => if w = h then none else try_ true

/-- Cores for `n` shapes one after another on a die, each by the rule for one (R54); `room` is what a core has. -/
def placeShapes (l : Launch) (die w h : Nat) (room : Nat → Option Room) : (n : Nat) → (used : List Nat) → Option (List Nat)
  | 0, used => some used
  | n + 1, used =>
    let ok := fun (c : Nat) => match room c with
      | some r =>
        let k := (used.filter (· == c)).length + 1
        decide (k * l.units ≤ r.units) && decide (k * l.ngroup ≤ r.groups)
      | none => false
    match firstRect die w h ok with
    | some cs => placeShapes l die w h room n (used ++ cs)
    | none => none

/-- Places a unit of `nteam` teams on one die: clusters, or single teams (R54). -/
def placeOn (l : Launch) (die nteam : Nat) (room : Nat → Option Room) : Option (List Nat) :=
  placeShapes l die l.clw l.clh room (nteam / (l.clw * l.clh)) []

/-- The room of a core the partition has; `empty` counts its cores as empty (R22, R365). -/
def Dev.roomFor (d : Dev) (pid : Nat) (gone : List Nat) (empty : Bool) (c : Nat) : Option Room :=
  if !(d.part pid).rec_.cores.getLsbD c then none
  else if empty then some { units := 192, groups := 48 } else some (d.room gone c)

/-- The dies a unit may take, the one with the most free pool units first (R54). -/
def Dev.diesByRoom (d : Dev) (gone : List Nat) (dies : List Nat) : List Nat :=
  let free := fun (x : Nat) => ((List.range 128).map fun c => (d.room gone (x * 128 + c)).units).foldl (· + ·) 0
  dies.isort fun a b => decide (free b < free a) || (free a == free b && decide (a ≤ b))

/-- Where a unit fits: the cores, in order of its teams (R54). -/
def Dev.fit (d : Dev) (pid : Nat) (l : Launch) (nteam : Nat) (dies gone : List Nat) (empty : Bool) : Option (List Nat) :=
  if 128 * 48 < nteam then none
  else (d.diesByRoom gone dies).findSome? fun x => placeOn l x nteam (d.roomFor pid gone empty)

def Queue.dieList (q : Queue) : List Nat := (List.range 4).filter fun k => q.dies.getLsbD k

/-- Reads and checks a launch record for a queue: 0x17 for the read, then the lowest failing code (R35, R48). DESIGN CHOICE
(log 71): a node's LREC or a graph's launch record that is not 64-byte aligned is read where it lies. -/
def Dev.checkLaunch (d : Dev) (q : Queue) (a : Nat) : Dev × Except (BitVec 8) Launch :=
  let die := q.num / 64
  match d.engWords die q.pid q.asid a 8 with
  | (d, .ok ws) =>
    let l := Launch.ofWords ws
    match Launch.badRecord ws with
    | some c => (d, .error c)
    | none => match d.engWords die q.pid q.asid (l.code.toNat - 64) 8 with
      | (d, .ok ks) =>
        let x := (ks.headD 0).toNat
        if l.code.toNat < 64 || kernelReserved x || (ks.drop 1).any (· != 0) then (d, .error 6)
        else if l.coop && (d.fit q.pid l l.nteam q.dieList [] true).isNone then (d, .error 7)
        else if l.breaks x then (d, .error 8)
        else (d, .ok l)
      | (d, _) => (d, .error 6)
  | (d, _) => (d, .error 0x17)

/-! ## Grids and units (R51, R52) -/

/-- The tick of the die that serves a queue. -/
def Dev.queueTick (d : Dev) (q : Nat) : Nat := d.tick (q / 64)

/-- The first pending unit of a queue. -/
def Dev.firstUnit? (d : Dev) (q : Nat) : Option Unit_ := d.pending.find? fun u => u.queue == q

/-- The wait of a queue's first unit starts when it has one and none was waiting; it ends with the last (R51, R52). -/
def Dev.noteWaits (d : Dev) (q : Nat) : Dev :=
  let has := (d.firstUnit? q).isSome
  d.modQueue q fun x =>
    if has then { x with since := some (x.since.getD (d.queueTick q)) }
    else { x with since := none, level := 0, deficit := min x.deficit 0 }

/-- The argument words as they stand at acceptance; none when they cannot be read then (R30). -/
def Dev.argsNow (d : Dev) (q : Queue) (l : Launch) : List Word64 :=
  match (d.engWords (q.num / 64) q.pid q.asid l.args l.narg).2 with
  | .ok ws => ws
  | _ => []

/-- Enters a grid for placement under a queue (R47, R52). -/
def Dev.enterGrid (d : Dev) (q : Queue) (l : Launch) (o : GridOrigin) (rec_ : Word64) : Dev :=
  let (id, d) := d.newId
  let per := if l.coop then l.nteam else l.clw * l.clh
  let g : Grid := { id, queue := q.num, pid := q.pid, asid := q.asid, launch := l, origin := o, rec_, args := d.argsNow q l, left := l.nteam }
  let u : Unit_ := { queue := q.num, grid := id, first := 0, per, count := l.nteam / per, saved := [] }
  { d with grids := d.grids ++ [g], pending := d.pending ++ [u] }.noteWaits q.num

/-! ## Nodes (R58 to R60) -/

def Dev.node? (d : Dev) (n : Nat) : Option Node := d.nodes.find? (·.id == n)

def Dev.modNode (d : Dev) (n : Nat) (f : Node → Node) : Dev :=
  { d with nodes := d.nodes.map fun x => if x.id = n then f x else x }

def Node.modBuf (n : Node) (k : Nat) (f : Buf → Buf) : Node := { n with bufs := listSet n.bufs k f }

/-- A live node of a partition (R391). -/
def Dev.liveNode? (d : Dev) (pid n : Nat) : Option Node :=
  (d.node? n).filter fun x => x.pid == pid && !x.destroyed

/-- Where a node's buffer lies (R58, R60). -/
def Node.bufAddr (n : Node) (k : Nat) : Nat := n.bufa + k * (64 + n.bcap * n.rsz)

def emptyBuf : Buf := { state := .free, count := 0, sources := [] }

/-- A record of a context has retired, processed or not (R60, R298). -/
def Dev.recordBack (d : Dev) (src : RecSource) (ok : Bool) : Dev :=
  match src with
  | none => d
  | some (ctx, idx) => { d with ctxs := d.ctxs.map fun c => if c.num = ctx then
      { c with recs := c.recs.map fun r => if r.idx = idx then { r with back := true, lost := !ok } else r } else c }

/-- A buffer becomes free and its records retire (R60). -/
def Dev.freeBuf (d : Dev) (n k : Nat) (ok : Bool) : Dev :=
  match (d.node? n).bind (·.bufs[k]?) with
  | none => d
  | some b => b.sources.foldl (fun d src => d.recordBack src ok) (d.modNode n (·.modBuf k fun _ => emptyBuf))

/-- The open buffer, or the next free one. -/
def Node.openBuf? (n : Node) : Option Nat :=
  match n.bufs.findIdx? (fun b => b.state matches .opened _) with
  | some k => some k
  | none => ((List.range n.bufs.length).map fun j => (n.next + j) % n.bufs.length).find? fun k =>
      ((n.bufs[k]?).map (·.state)) == some .free

/-- A write into BUFA faults: OWNQ halts with 0x17 and the buffer is freed (R60). -/
def Dev.bufFault (d : Dev) (n : Node) (k : Nat) : Dev := (d.freeBuf n.id k false).queueError n.ownq 0x17 true

/-- The closed buffer's header (R60). -/
def Node.header (n : Node) (count : Nat) : List Byte :=
  natBytes 8 (n.firing.toNat * 2 ^ 32 + count) ++ natBytes 8 n.id ++ List.replicate 48 0

/-- The node fires: the buffer closes, and a grid of LREC enters under OWNQ (R59, R60). -/
def Dev.fire (d : Dev) (n : Node) (k : Nat) : Dev :=
  let count := ((n.bufs[k]?).map (·.count)).getD 0
  match d.engWrite (n.ownq / 64) n.pid n.asid (n.bufAddr k) (n.header count) with
  | (d, .ok _) =>
    let d := d.modNode n.id fun x => { x with next := (k + 1) % n.bufs.length, firing := x.firing + 1 }
    match d.queue? n.ownq with
    | none => d.freeBuf n.id k false
    | some q => match d.checkLaunch { q with asid := n.asid } n.lrec with
      | (d, .error c) => (d.freeBuf n.id k false).queueError n.ownq c true
      | (d, .ok l) =>
        let gid := d.nextId
        let d := d.enterGrid { q with asid := n.asid } l (.firing n.id k) (BitVec.ofNat 64 (n.bufAddr k))
        d.modNode n.id (·.modBuf k fun b => { b with state := .fired gid })
  | (d, _) => (d.bufFault n k).modNode n.id fun x => { x with next := (k + 1) % n.bufs.length }

/-- The gather timer of the open buffer has lapsed (R59). -/
def Dev.lapsed (d : Dev) (n : Node) : Option Nat :=
  n.bufs.findIdx? fun b => decide (0 < b.count) && match b.state with
    | .opened (some t) => n.gtim != 0 && decide (t + n.gtim < d.queueTick n.ownq)
    | _ => false

/-- What becomes of a record at its node: it enters, no buffer is free, or its write faults (R59, R60). -/
inductive Entry where
  | entered | noRoom | faulted
  deriving DecidableEq, Repr

/-- A record enters the node's open buffer, if a buffer is free (R59). A buffer whose timer has lapsed closes first. -/
def Dev.enterRecord (d : Dev) (id : Nat) (bs : List Byte) (src : RecSource) : Dev × Entry :=
  let d := match d.node? id with
    | some n => match d.lapsed n with
      | some k => d.fire n k
      | none => d
    | none => d
  match d.node? id with
  | none => (d.recordBack src false, .entered)
  | some n => match n.openBuf? with
    | none => (d, .noRoom)
    | some k =>
      let b := (n.bufs[k]?).getD emptyBuf
      match d.engWrite (n.ownq / 64) n.pid n.asid (n.bufAddr k + 64 + b.count * n.rsz) bs with
      | (d, .ok _) =>
        let start := match b.state with
          | .opened (some t) => some t
          | _ => some (d.queueTick n.ownq)
        let b : Buf := { state := .opened start, count := b.count + 1, sources := b.sources ++ [src] }
        let d := d.modNode id (·.modBuf k fun _ => b)
        if b.count < n.bcap then (d, .entered)
        else match d.node? id with
          | some n => (d.fire n k, .entered)
          | none => (d, .entered)
      | (d, _) => ((d.bufFault n k).recordBack src false, .faulted)

/-- Some buffer of the node is open or free. -/
def Dev.nodeRoom (d : Dev) (id : Nat) : Bool :=
  match d.node? id with
  | some n => n.openBuf?.isSome
  | none => true

/-- Producers that hold records for the node: RECs, packets, graphs and contexts (R59, R391). -/
def Dev.recordsHeld (d : Dev) (n : Node) : Bool :=
  (d.teams.any fun t => t.groups.any fun g => g.splits.any fun sp => match sp.wait with
    | .records k _ => k == n.id
    | _ => false) ||
  (d.queues.any fun q => q.pid == n.pid && q.taken.any fun p =>
    !p.data.isEmpty && bits (p.words.getD 1 0).toNat 0 16 == n.id) ||
  (d.graphs.any fun g => g.nodes.any fun x => !x.data.isEmpty && bits (x.words.getD 1 0).toNat 0 16 == n.id) ||
  (d.ctxs.any fun c => c.recs.any fun r => !r.sent && r.entering && r.node == n.id)

/-- A destroyed node fires its open buffer once no producer holds a record for it (R391). -/
def Dev.lastCall (d : Dev) (n : Node) : Option Nat :=
  if n.destroyed && !d.recordsHeld n then
    n.bufs.findIdx? fun b => (b.state matches .opened _) && decide (0 < b.count)
  else none

/-- NODE_TIMER_LAPSE (R59, R391). -/
def execNodeTimerLapse (id : Nat) (s : State) : Res :=
  withEvent s fun d => do
    let n ← d.node? id
    let k ← (d.lapsed n).or (d.lastCall n)
    some (d.fire n k)

/-! ## The dispatcher (R51 to R55) -/

/-- Units of 1 µs for which a queue's first unit has waited (R51). -/
def Dev.waited (d : Dev) (q : Queue) : Nat :=
  match q.since with
  | some t => d.queueTick q.num - t
  | none => 0

/-- A queue's effective level (R51). DESIGN CHOICE (log 49): AGEUS is that of the die that serves the queue. -/
def Dev.effLevel (d : Dev) (q : Queue) : Nat :=
  min (d.part q.pid).rec_.ceil (q.prio + d.waited q / max 1 (d.die (q.num / 64)).ageus)

/-- AGEING_TICK: the wait passes an ageing interval (R51). -/
def execAgeingTick (qn : Nat) (s : State) : Res :=
  withEvent s fun d => do
    let q ← d.queue? qn
    let n := d.waited q / max 1 (d.die (qn / 64)).ageus
    if q.level < n then some (d.modQueue qn fun x => { x with level := n }) else none

/-- Where a queue's first unit fits, on the dies left to it; a saved unit is one cluster. -/
def Dev.fitUnit (d : Dev) (q : Queue) (u : Unit_) (blocked gone : List Nat) : Option (List Nat) := do
  let g ← d.grid? u.grid
  d.fit q.pid g.launch (if u.saved.isEmpty then u.per else g.launch.per) (q.dieList.filter fun x => !blocked.contains x) gone false

/-- Queues with a pending unit, in queue order; those of a partition in reset place nothing (R369). -/
def Dev.waiting (d : Dev) : List (Queue × Unit_) :=
  ((d.queues.filter fun q => (d.part q.pid).resetting.isNone).isort fun a b => decide (a.num ≤ b.num)).filterMap fun q => (d.firstUnit? q.num).map fun u => (q, u)

/-- The dies kept from lower levels: those of a unit at level 7 that has waited beyond AGEUS without fitting (R54). -/
def Dev.heldDies (d : Dev) : List Nat :=
  (d.waiting.filter fun (q, u) => d.effLevel q == 7 && decide ((d.die (q.num / 64)).ageus < d.waited q) &&
    (d.fitUnit q u [] []).isNone).flatMap fun (q, _) => q.dieList

/-- The queues of a level whose first unit fits, from its pointer on, wrapping (R52). -/
def Dev.ready (d : Dev) (level : Nat) : List (Queue × Unit_ × List Nat) :=
  let held := if level = 7 then [] else d.heldDies
  let all := d.waiting.filterMap fun (q, u) =>
    if d.effLevel q = level then (d.fitUnit q u held []).map fun cs => (q, u, cs) else none
  let from_ := d.levels.getD level 0
  (all.filter fun x => decide (from_ ≤ x.1.num)) ++ all.filter fun x => decide (x.1.num < from_)

/-- A queue's quantum (R52). -/
def Dev.quantum (d : Dev) (q : Queue) : Nat := q.wgt * (d.part q.pid).rec_.p * 4096

def Dev.setLevel (d : Dev) (level n : Nat) : Dev := { d with levels := listSet d.levels level fun _ => n }

/-- R52's inner loop: the queue whose unit is placed, once its deficit is positive. -/
def Dev.choose (d : Dev) (level : Nat) : (fuel : Nat) → List (Queue × Unit_ × List Nat) →
    Dev × Option (Queue × Unit_ × List Nat)
  | 0, _ | _, [] => (d, none)
  | f + 1, x :: rest =>
    let q := (d.queue? x.1.num).getD x.1
    if 0 < q.deficit then (d.setLevel level q.num, some x)
    else
      let d := d.modQueue q.num fun y => { y with deficit := y.deficit + d.quantum q }
      Dev.choose (d.setLevel level (q.num + 1)) level f (rest ++ [x])

/-- Rounds enough for some deficit to become positive. -/
def chooseFuel (xs : List (Queue × Unit_ × List Nat)) : Nat :=
  xs.length * (2 + (xs.map fun x => (-x.1.deficit).toNat / 4096).foldl max 0)

/-- The next placement: from level 7 down (R52). -/
def Dev.chooseUnit (d : Dev) : (levels : List Nat) → Dev × Option (Queue × Unit_ × List Nat)
  | [] => (d, none)
  | l :: rest => match d.ready l with
    | [] => Dev.chooseUnit d rest
    | xs => d.choose l (chooseFuel xs) xs

/-! ## Placing (R18, R29) -/

/-- A slice at the start of a group (R29). -/
def Slice.start (l : Launch) : Slice :=
  { pc := l.code, x := 15, pm := 15, fin := 0, rtd := 0, rstack := [], ret := [], spill := 0, shorts := [], cf := [], s := []
    snap := { repc := l.code, x := 15, pm := 15, depth := 0, rgnctr := 0, clause := none } }

/-- A group at its start, before its arguments are read (R29, R321). -/
def Group.start (l : Launch) (num sextant : Nat) : Group :=
  let n := l.width / 4
  { num, sextant, slices := List.replicate n (Slice.start l)
    splits := [{ mask := BitVec.ofNat 8 (2 ^ n - 1), stamp := 0, wait := .ready, clause := none, region := true
                 resumed := false, yielded := false, counted := false, release := none, since := 0 }]
    stamps := 1, v := [], p := [], urg := 0, rgnctr := 0, reexec := 0, bseq := 0, settle := none, posted := []
    markers := [], seen := [], tr0 := 0, tr1 := 0, tr2 := 0, tr3 := 0, handler := [], parked := false, parkedAt := 0, stop := false
    pmc := List.replicate 4 { event := 0, count := 0 }, ictx := 0xFFFFFFFF, stage := 0xFFFFFFFF, async := [], owed := []
    save := none, loaded := false }

/-- Sextants for `n` groups on a core, none with more than 8 (R32). -/
def Dev.sextants (d : Dev) (core : Nat) : (n : Nat) → (got : List Nat) → List Nat
  | 0, got => got
  | n + 1, got =>
    let used := (d.teams.filter fun t => t.core == core && t.holds).flatMap (fun t => t.groups.map (·.sextant)) ++ got
    let free := (List.range 6).filter fun x => (used.filter (· == x)).length < 8
    d.sextants core n (got ++ [free.getD (Config.pick (d.fresh + n) % max 1 free.length) 0])

/-- Pool units of a core for `n` more: any run of those that no team has and that do not step down (R29, R56; log 48). -/
def Dev.takeUnits (d : Dev) (core n : Nat) : List Nat :=
  let used := (d.teams.filter fun t => t.core == core && t.holds).flatMap (·.units) ++ (d.core core).stepping
  let free := (List.range 192).filter fun u => !used.contains u
  let k := Config.pick d.fresh % max 1 free.length
  (free.drop k ++ free.take k).take n

/-- `n` bytes from pool offset `o` of a team as the teams before it left them: zeros, or the bytes of one earlier team of the
address space (R29, R348). -/
def Dev.leftRun (d : Dev) (core asid : Nat) (units : List Nat) (o n place : Nat) : List Byte :=
  let zeros := List.replicate n 0
  match (d.core core).leftover.find? fun x => units[o / 16384]? == some x.unit && x.asid == asid with
  | some x => match x.kept[(Config.freeWord d.fresh (place + o)).toNat % (x.kept.length + 1)]? with
    | some m => fgetBytes m (o % 16384) n
    | none => zeros
  | none => zeros

/-- What earlier teams left in the `n` units from a team's unit `lo` on, byte by byte (R29). -/
def Dev.leftBytes (d : Dev) (core asid : Nat) (units : List Nat) (lo n place : Nat) : FMap Byte :=
  (((units.drop lo).take n).zipIdx).foldl (fun m (u, j) => match (d.core core).leftover.find? (·.unit == u) with
    | some x => (x.kept.flatMap fun y => y.map (·.1)).foldl (fun m k =>
        fset 0 m (16384 * j + k) ((d.leftRun core asid units (16384 * (lo + j) + k) 1 place).headD 0)) m
    | none => m) []

/-- The team set of a core has changed: its line-buffer slots reset (R190), and it is no longer idle. -/
def Dev.teamSetChanged (d : Dev) (core : Nat) : Dev :=
  d.modCore core fun c => { c with lb := [none, none, none, none], idle := d.cycle }

/-- A new team on a core (R18, R29, R344). -/
def Dev.placeTeam (d : Dev) (g : Grid) (num core : Nat) : Dev :=
  let l := g.launch
  let (inst, d) := d.newId
  let sx := d.sextants core l.ngroup []
  let units := d.takeUnits core l.units
  let t : Team := {
    inst, grid := g.id, num, core, state := .placed l.units, placed := inst, since := d.cycle, units
    groups := (List.range l.ngroup).map fun k => Group.start l k (sx.getD k 0)
    scr := d.leftBytes core g.asid units l.regu l.scr 3000000
    tiles := d.leftBytes core g.asid units (l.regu + l.scr) l.accu 3000000
    lost := 0, locks := [], record := 0, recSize := 0, ranges := [], tilesOut := [] }
  { d with teams := d.teams ++ [t] }.teamSetChanged core

/-- A saved team takes up units of a core again (R342). -/
def Dev.replaceTeam (d : Dev) (inst core units : Nat) : Dev :=
  let (id, d) := d.newId
  let sx := d.sextants core (((d.team? inst).map (·.groups.length)).getD 0) []
  let mine := d.takeUnits core units
  let d := d.modTeam inst fun t => { t with
    core, units := mine, state := .placed units, placed := id, since := d.cycle
    groups := t.groups.zipIdx.map fun (g, k) => { g with sextant := sx.getD k 0 } }
  let goC : Copy → Copy := fun c => match c.owner with
    | .group g _ => if g.team = inst then { c with core } else c
    | _ => c
  let goM : MatOp → MatOp := fun m => if m.by_.team = inst then { m with core, sextant := sx.getD m.by_.group 0 } else m
  { d with copies := d.copies.map goC, mats := d.mats.map goM }.teamSetChanged core

/-- PLACE: the first unit of a queue's pending leaves it and takes its cores (R52, R54). -/
def Dev.place (d : Dev) (q : Queue) (u : Unit_) (cores : List Nat) : Dev :=
  match d.grid? u.grid with
  | none => d
  | some g =>
    let k := (d.pending.findIdx? fun x => x.queue == q.num).getD 0
    let d := if u.saved.isEmpty then
        let d := (cores.zipIdx).foldl (fun d (c, j) => d.placeTeam g (u.first + j) c) d
        if u.count ≤ 1 then { d with pending := d.pending.eraseIdx k }
        else { d with pending := listSet d.pending k fun x => { x with first := x.first + x.per, count := x.count - 1 } }
      else
        let d := u.saved.foldl (fun d i => match d.team? i with
          | some t => d.replaceTeam i (cores.getD (t.num % g.launch.per) 0) g.launch.units
          | none => d) d
        { d with pending := d.pending.eraseIdx k }
    (d.modQueue q.num fun x => { x with since := none, level := 0 }).noteWaits q.num

/-! ## Asking for pre-emption (R55) -/

/-- Resident units that may be pre-empted for a level: teams of one cluster together, by instances, with their queue's
base level and the latest placement (R19, R55). DESIGN CHOICE (log 49): PREGAP is that of the die the resident team stands
on. -/
def Dev.victims (d : Dev) (level : Nat) (saveable : List Nat → Bool) : List (List Nat × Nat × Nat) :=
  let can := d.teams.filter fun t => decide (t.state = .running) && match (d.grid? t.grid).bind fun g => d.queue? g.queue with
    | some q => decide (q.prio + (d.die (t.core / 128)).pregap ≤ level)
    | none => false
  let units := (can.map fun t =>
    let per := match d.launchOf t with | some l => l.per | none => 1
    ((d.teams.filter fun x => x.grid == t.grid && x.num / per == t.num / per).map (·.inst),
     (((d.grid? t.grid).bind fun g => d.queue? g.queue).map (·.prio)).getD 0, t.placed)).eraseDups
  let units := units.filter fun u => u.1.all (fun i => can.any (·.inst == i)) && saveable u.1
  let firsts := units.zipIdx.filter fun (u, k) => !(units.take k).any fun v => v.1 == u.1
  (firsts.map (·.1)).isort fun a b => decide (a.2.1 < b.2.1) || (a.2.1 == b.2.1 && decide (b.2.2 ≤ a.2.2))

/-- The choices from a list that together have `k` teams, in order. -/
def choices {α : Type} (size : α → Nat) : List α → Nat → List (List α)
  | [], k => if k = 0 then [[]] else []
  | x :: xs, k => if k = 0 then [[]]
    else (if size x ≤ k then (choices size xs (k - size x)).map (x :: ·) else []) ++ choices size xs k

/-- The fewest teams without which the unit fits; teams already asked to save count as gone (R55). -/
def Dev.preemptFor (d : Dev) (q : Queue) (u : Unit_) (saveable : List Nat → Bool) : Option (List Nat) :=
  let going := (d.teams.filter fun t => t.state matches .saving _).map (·.inst)
  if (d.fitUnit q u [] going).isSome then none
  else
    let vs := d.victims (d.effLevel q) saveable
    let all := (vs.map (·.1.length)).foldl (· + ·) 0
    (List.range all).findSome? fun k => (choices (·.1.length) vs (k + 1)).findSome? fun c =>
      let gone := c.flatMap (·.1)
      if (d.fitUnit q u [] (going ++ gone)).isSome then some gone else none

/-- Pre-emption is requested of some teams (R336). -/
def Dev.requestSave (d : Dev) (insts : List Nat) : Dev :=
  { d with teams := d.teams.map fun t => if insts.contains t.inst && decide (t.state = .running) then
      { t with state := .saving d.cycle } else t }

/-- The save records of some teams fit in what their partitions' save areas have left (R365); bytes of each are at
most those of a full save (R339). -/
def fullRecord (l : Launch) : Nat :=
  l.ngroup * (128 + 1152 + l.nreg8 * l.width * 32 + 8 * 16 * l.width) + 16384 * (l.scr + l.accu)

/-- The gaps of a partition's save area: from where, and how long. -/
def saveGaps (base size : Nat) (used : List (Nat × Nat)) : List (Nat × Nat) :=
  let us := used.isort fun a b => decide (a.1 ≤ b.1)
  let go := us.foldl (fun (acc : List (Nat × Nat) × Nat) (a, n) => (acc.1 ++ [(acc.2, a - acc.2)], max acc.2 (a + n))) ([], base)
  go.1 ++ [(go.2, base + size - go.2)]

/-- The first place of the save area with room for `n` bytes, and the area with them taken. -/
def Partition.saveSpot (p : Partition) (n : Nat) : Option (Nat × Partition) :=
  ((saveGaps p.rec_.saveb p.rec_.savesz p.saveUsed).find? fun g => decide (n ≤ g.2)).map fun g =>
    (g.1, { p with saveUsed := p.saveUsed ++ [(g.1, n)] })

/-- Every team of a choice finds room for its record (R365). -/
def Dev.saveable (d : Dev) (insts : List Nat) : Bool :=
  (insts.foldl (fun (acc : Option (List Partition)) i => do
    let ps ← acc
    let t ← d.team? i
    let g ← d.grid? t.grid
    let p ← ps[g.pid]?
    let (_, p) ← p.saveSpot (fullRecord g.launch)
    return listSet ps g.pid fun _ => p) (some d.parts)).isSome

/-- The room a team's save will take is kept from the request on. -/
def Dev.reserveSave (d : Dev) (inst : Nat) : Dev :=
  match (d.team? inst).bind fun t => (d.grid? t.grid).bind fun g =>
      ((d.part g.pid).saveSpot (fullRecord g.launch)).map fun (a, p) => (g.pid, a, p, fullRecord g.launch) with
  | some (pid, a, p, n) => (d.modPart pid fun _ => p).modTeam inst fun t => { t with record := a, recSize := n }
  | none => d

/-- DISPATCH: one placement, or the pre-emption that the highest waiting unit needs (R52, R55). -/
def execDispatch (s : State) : Res :=
  withEvent s fun d =>
    match d.chooseUnit [7, 6, 5, 4, 3, 2, 1, 0] with
    | (d, some (q, u, cs)) => some (d.place q u cs)
    | (_, none) =>
      let byLevel := d.waiting.isort fun a b => decide (d.effLevel b.1 ≤ d.effLevel a.1)
      (byLevel.findSome? fun (q, u) => d.preemptFor q u d.saveable).map fun is =>
        is.foldl Dev.reserveSave (d.requestSave is)

/-! ## The ramp, starts and power (R56, R57, R390) -/

/-- The 1 µs window of a die in which this moment lies: a new one has nothing started or stopped (R56). -/
def Dev.openWindow (d : Dev) (die : Nat) : Dev :=
  if (d.die die).window = d.tick die then d else d.modDie die fun x => { x with window := d.tick die, used := 0 }

/-- Units step down on the cores of a die as far as the window allows (R56). -/
def Dev.stepDown (d : Dev) (die : Nat) : Dev :=
  ((List.range 128).map (die * 128 + ·)).foldl (fun d c =>
    let x := d.die die
    let k := min (d.core c).stepping.length (x.rampu - x.used)
    if k = 0 then d
    else (d.modCore c fun y => { y with stepping := y.stepping.drop k }).modDie die fun y => { y with used := y.used + k }) d

/-- RAMP_WINDOW: a new 1 µs window (R56). -/
def execRampWindow (die : Nat) (s : State) : Res :=
  withEvent s fun d => if (d.die die).window = d.tick die then none else some ((d.openWindow die).stepDown die)

/-- The teams that start together with a placed team: those of its cluster, or of its cooperative grid when that is placed
for the first time (R22, R56). -/
def Dev.unitOf (d : Dev) (t : Team) : List Team :=
  match d.launchOf t with
  | some l => d.teams.filter fun x => x.grid == t.grid && (x.state matches .placed _) &&
      ((l.coop && t.record == 0 && x.record == 0) || x.num / l.per == t.num / l.per)
  | none => [t]

/-- Units that a placed team has still to start. -/
def Team.toStart (t : Team) : Nat :=
  match t.state with
  | .placed n => n
  | _ => 0

/-- `k` units of a unit's teams start, in order. -/
def startUnits : (k : Nat) → List Team → List Team
  | _, [] => []
  | k, t :: rest => match t.state with
    | .placed n => { t with state := .placed (n - min k n) } :: startUnits (k - min k n) rest
    | _ => t :: startUnits k rest

/-- Reads a group's starting state; a fault is taken as of its first instruction (R29, R312, R390). A word that has changed
since acceptance is the old one or the new one, by word and by team (R30). -/
def Dev.loadGroup (d : Dev) (r : GroupRef) : Dev :=
  match (d.group? r).bind fun g => g.splits.head?.bind fun sp => d.issuerAt? ⟨r.team, r.group, sp.stamp⟩ with
  | none => d
  | some i =>
    let l := i.grid.launch
    let lanes := (List.range l.width).map fun k => k
    let stop := fun (d : Dev) (f : LaneFault) => d.failLanes i .instruction l.code (lanes.map fun k => (k, f))
    match d.loadWords i.core i.grid.pid i.grid.asid l.args l.narg with
    | (d, .error f) => stop d f
    | (d, .ok now) =>
      let args := now.zipIdx.map fun (w, n) => if Config.freeBool r.team (40000 + n) then i.grid.args.getD n w else w
      let k := i.team.num * l.ngroup + r.group
      let rec_ : Option Nat := match i.grid.origin with
        | .firing n b => (d.node? n).bind fun nd =>
            (nd.bufs[b]?).bind fun x => if k < x.count then some (i.grid.rec_.toNat + 64 + k * nd.rsz) else none
        | _ => none
      match d.loadWords i.core i.grid.pid i.grid.asid (rec_.getD 0) (if rec_.isSome then 1 else 0) with
      | (d, .error f) => stop d f
      | (d, .ok ws) => d.modGroup r fun g =>
          let g := g.modSlices 0xFF fun _ s => { s with s := (args.zipIdx).foldl (fun m (w, n) => fset 0 m n w) s.s }
          match ws with
          | w :: _ => { g with
              loaded := true
              ictx := (w.extractLsb' 32 16 : BitVec 16) ++ 0#8 ++ (w.extractLsb' 0 8 : BitVec 8)
              stage := 0#21 ++ (w.extractLsb' 16 3 : BitVec 3) ++ (w.extractLsb' 8 8 : BitVec 8) }
          | [] => { g with loaded := true }

/-- A unit whose last pool unit has started runs; a saved team waits for its restore (R56, R390). -/
def Dev.startUnit (d : Dev) (us : List Team) : Dev :=
  us.foldl (fun d t =>
    if t.record ≠ 0 then d
    else
      let d := d.modTeam t.inst fun t => { t with state := .running }
      t.groups.foldl (fun d g => d.loadGroup ⟨t.inst, g.num⟩) d) d

/-- The earliest placed unit of a die that has still to start: its first team. -/
def Dev.nextStart? (d : Dev) (die : Nat) : Option Team :=
  match d.teams.filter fun t => t.core / 128 == die && (match t.state with
      | .placed n => decide (0 < n)
      | _ => false) with
  | [] => none
  | t :: ts => some (ts.foldl (fun a b => if b.placed < a.placed then b else a) t)

/-- The grid is a firing's (R60). -/
def GridOrigin.ofNode : GridOrigin → Bool
  | .firing .. => true
  | _ => false

/-- A team of a firing starts after an acquire at .DEV: once the records and their header, as the engines have written
them, have settled (R298). -/
def Dev.acquires (d : Dev) (us : List Team) : Bool :=
  decide (d.cycle ≤ d.settle) && us.any fun t => t.record == 0 && (d.grid? t.grid).any (·.origin.ofNode)

/-- TEAM_START: the next unit of the die starts under the ramp, on cores that are awake (R56, R57, R298, R390). -/
def execTeamStart (inst : Nat) (s : State) : Res :=
  withEvent s fun d => do
    let t ← d.team? inst
    let die := t.core / 128
    let first ← d.nextStart? die
    let us := d.unitOf t
    let x := d.die die
    let total := (us.filterMap fun u => (d.launchOf u).map (·.units)).foldl (· + ·) 0
    let left := (us.map Team.toStart).foldl (· + ·) 0
    if first.inst ≠ inst || x.window ≠ d.tick die || us.any (fun u => (d.core u.core).gated) || d.acquires us then none
    else if total ≤ x.rampu then
      if x.rampu < x.used + total then none
      else
        let d := d.modDie die fun x => { x with used := x.used + total }
        let f : Team → Team := fun u => if us.any (·.inst == u.inst) && (u.state matches .placed _) then
          { u with state := .placed 0 } else u
        some ({ d with teams := d.teams.map f }.startUnit us)
    else if x.used ≠ 0 then none
    else
      let k := min left x.rampu
      let us' := startUnits k us
      let d := d.modDie die fun x => { x with used := x.rampu }
      let d := { d with teams := d.teams.map fun u => (us'.find? (·.inst == u.inst)).getD u }
      some (if k = left then d.startUnit us' else d)

/-- POWER_GATE: a core without a team for 100 µs loses its caches and TLB (R57). -/
def execPowerGate (core : Nat) (s : State) : Res :=
  withEvent s fun d =>
    let c := d.core core
    if c.gated || d.teams.any (fun t => t.core == core && t.holds) || decide (d.cycle < c.idle + 160000) then none
    else
      let d := c.l1.foldl (fun d sb => d.evict core sb) d
      some (d.modCore core fun c => { c with l1 := [], icache := [], fills := [], tlb := [], gated := true })

/-- CORE_WAKE: the core of a placed team has woken (R57). -/
def execCoreWake (core : Nat) (s : State) : Res :=
  withEvent s fun d =>
    if (d.core core).gated && d.teams.any (fun t => t.core == core && t.holds) then
      some (d.modCore core fun c => { c with gated := false })
    else none

end Sys2Proof.Machine
end

