-- ==== Sys2Proof/Machine/Queues.lean ====
section
/-! DEFINITION. Kicks, Theorbo's rounds and packets (R42 to R49), task graphs (R61 to R63), and what the end of a grid
completes. -/

namespace Sys2Proof.Machine

/-! ## Kicks (R42, R43) -/

/-- KICK: judged by serial-number arithmetic; a page with no queue, or a partition in reset, discards it
(R43, R368, R369). -/
def execKick (pid page : Nat) (x : BitVec 32) (s : State) : Res :=
  withEvent s fun d =>
    match d.queues.find? fun q => q.pid == pid && q.page == page with
    | none => some d
    | some q =>
      if d.frozen || (d.part pid).resetting.isSome || x - q.kick == 0 || (x - q.kick).msb then some d
      else
        let d := d.modQueue q.num fun q => { q with kick := x }
        some (if 2 ^ q.logn < (x - q.head).toNat then d.queueError q.num 0x13 true else d)

/-! ## Packets (R46 to R48) -/

def opcOf (ws : List Word64) : Nat := bits (ws.headD 0).toNat 0 8

def Packet.opc (p : Packet) : Nat := opcOf p.words

def Packet.word (p : Packet) (k : Nat) : Nat := (p.words.getD k 0).toNat

/-- Bits each payload word of a type may hold (R47); none for an unassigned type. -/
def payloadMask : Nat → Option (List Nat)
  | 0 | 1 | 2 | 3 => some [0, 0, 0, 0, 0]
  | 4 => some [2 ^ 48 - 1, 2 ^ 64 - 1, 2 ^ 34 - 1, 0, 0]
  | 5 => some [2 ^ 48 - 1, 2 ^ 64 - 1, 3, 0, 0]
  | 6 | 7 => some [2 ^ 48 - 1, 0, 0, 0, 0]
  | 8 => some [2 ^ 32 - 1, 2 ^ 48 - 1, 0, 0, 0]
  | 9 => some [2 ^ 48 - 1, 2 ^ 64 - 1, 0, 0, 0]
  | _ => none

/-- The alignment of the address a type's payload holds: its word, and the bytes. -/
def payloadAlign : Nat → Nat × Nat
  | 4 | 5 => (1, 8)
  | 6 | 7 | 9 => (1, 64)
  | 8 => (2, 8)
  | _ => (1, 1)

/-- Code 0x11: a reserved field or flag is nonzero, or an address is misaligned. DESIGN CHOICE (log 71): the refused CMP 3 of a
WAIT and OP 3 of a SIGNAL count as this. -/
def packetReserved (ws : List Word64) (masks : List Nat) : Bool :=
  let w := fun (k : Nat) => (ws.getD k 0).toNat
  let a := payloadAlign (opcOf ws)
  bits (w 0) 12 20 != 0 ||
  (masks.zipIdx.any fun (m, k) => w (k + 1) &&& m != w (k + 1)) ||
  w a.1 % a.2 != 0 ||
  (opcOf ws == 4 && bits (w 3) 32 2 == 3) || (opcOf ws == 5 && bits (w 3) 0 2 == 3) ||
  (if bits (w 0) 10 1 = 1 then w 6 % 8 != 0 || decide (2 ^ 48 ≤ w 6) else w 6 != 0 || w 7 != 0)

/-- Codes 0x12, 0x10 and 0x11, in R48's order. -/
def packetBad (head : BitVec 32) (ws : List Word64) : Option (BitVec 8) :=
  if bits (ws.headD 0).toNat 32 32 ≠ head.toNat then some 0x12
  else match payloadMask (opcOf ws) with
    | none => some 0x10
    | some ms => if packetReserved ws ms then some 0x11 else none

/-- A taken WAIT, or a NODE-RECORD with records left, that each round looks at again (R47, R59). -/
def Packet.retests (p : Packet) : Bool := !p.finished && (p.opc == 4 || (p.opc == 8 && !p.data.isEmpty))

/-- A packet that holds every later packet of its queue (R47, R59). -/
def Packet.blocks (p : Packet) : Bool := p.retests || p.opc == 3

/-- The packet of a queue that is to be looked at again. -/
def Queue.again? (q : Queue) : Option Packet := q.taken.getLast?.filter (·.retests)

/-- A posted packet stands at HEAD and the queue may take it (R49). -/
def Queue.takes (q : Queue) : Bool :=
  !q.halted && !q.dying && q.head != q.kick && q.slot.isNone && !q.taken.any (·.blocks)

/-- The handling order of types within a round (R49). -/
def typeOrder : Nat → Nat
  | 0 => 10
  | n => n

/-- The type at a queue's turn. -/
def Queue.turnType (q : Queue) : Option Nat := (q.slot.map opcOf).or (q.again?.map (·.opc))

/-- A lane reads the slot at HEAD; a packet it may not take halts its queue, and one that BAR holds stays (R44 to R49). -/
def Dev.readLane (d : Dev) (q : Queue) : Dev :=
  if !q.takes then d
  else match d.engWords (q.num / 64) q.pid q.asid (q.ring + 64 * (q.head.toNat % 2 ^ q.logn)) 8 with
    | (d, .ok ws) =>
      if bits (ws.headD 0).toNat 8 1 = 1 ∧ !q.taken.isEmpty then d
      else match packetBad q.head ws with
        | some c => d.queueError q.num c true
        | none => d.modQueue q.num fun q => { q with slot := some ws }
    | (d, _) => d.queueError q.num 0x17 true

/-- The queues of a die, by lane; those of a partition in reset take nothing (R369). -/
def Dev.lanes (d : Dev) (die : Nat) : List Queue :=
  (d.queues.filter fun q => q.num / 64 == die && (d.part q.pid).resetting.isNone).isort fun a b => decide (a.num ≤ b.num)

/-- THEORBO_ROUND: every lane takes at most one packet, and the round handles them by type, then lane (R49). -/
def execTheorboRound (die : Nat) (s : State) : Res :=
  withEvent s fun d =>
    if !(d.die die).round.isEmpty || decide (d.cycle ≤ d.settle) || !(d.lanes die).any (fun q => q.takes || q.again?.isSome) then none
    else
      let d := (d.lanes die).foldl Dev.readLane d
      let turns := (d.lanes die).filterMap fun q => q.turnType.map fun t => (typeOrder t, q.num)
      some (d.modDie die fun x => { x with round :=
        (turns.isort fun a b => decide (a.1 < b.1) || (a.1 == b.1 && decide (a.2 ≤ b.2))).map (·.2) })

/-- The packet at the head of its die's round is handled: `new` for one just read, `again` for one already taken. A
queue that has halted since does not take it (R48). -/
def withPacket (qn opc : Nat) (s : State) (new : Dev → Queue → Packet → Dev)
    (again : Dev → Queue → Packet → Dev := fun d _ _ => d) : Res :=
  withEvent s fun d => do
    let q ← d.queue? qn
    if (d.die (qn / 64)).round.head? ≠ some qn ∨ q.turnType ≠ some opc then none
    else
      let d := d.modDie (qn / 64) fun x => { x with round := x.round.tail }
      match q.slot with
      | some ws =>
        let d := d.modQueue qn fun q => { q with slot := none }
        if q.halted then some d
        else some (new d { q with slot := none } { seq := q.head, words := ws, finished := false, data := [], expires := none })
      | none => q.again?.map (again d q)

def Dev.modPacket (d : Dev) (qn : Nat) (seq : BitVec 32) (f : Packet → Packet) : Dev :=
  d.modQueue qn fun q => { q with taken := q.taken.map fun p => if p.seq = seq then f p else p }

def Dev.dropPacket (d : Dev) (qn : Nat) (seq : BitVec 32) : Dev :=
  d.modQueue qn fun q => { q with taken := q.taken.filter fun p => p.seq != seq }

/-- The packet is taken: HEAD passes it and the status word is written (R45). -/
def Dev.accept (d : Dev) (q : Queue) (p : Packet) : Dev :=
  (d.modQueue q.num fun x => { x with head := x.head + 1, taken := x.taken ++ [p] }).postStatus q.num false

/-- The packet's work has ended; its completion is signalled by `finishPacket`. -/
def Dev.packetOver (d : Dev) (qn : Nat) (seq : BitVec 32) : Dev := d.modPacket qn seq fun p => { p with finished := true }

/-- The packet ends on a faulted access, and its queue halts before the next (R48). -/
def Dev.endPacket (d : Dev) (qn : Nat) (seq : BitVec 32) (code : BitVec 8) : Dev :=
  (d.dropPacket qn seq).queueError qn code true

/-! ## The end of a grid (R47, R60, R62) -/

def GNode.word (x : GNode) (k : Nat) : Nat := (x.words.getD k 0).toNat
def GNode.kind (x : GNode) : Nat := bits (x.word 0) 0 4
def GNode.npred (x : GNode) : Nat := bits (x.word 0) 4 8

def GNode.succ (x : GNode) (j : Nat) : Option Nat :=
  if bits (x.word 0) (48 + j) 1 = 1 then some (bits (x.word 0) (12 + 12 * j) 12) else none

def GNode.succs (x : GNode) : List Nat := (List.range 3).filterMap x.succ

/-- Nodes reached from a list, never through `avoid`. -/
def reach (next : Nat → List Nat) (avoid : Nat) : (fuel : Nat) → (todo seen : List Nat) → List Nat
  | 0, _, seen | _, [], seen => seen
  | f + 1, x :: todo, seen =>
    if x == avoid || seen.contains x then reach next avoid f todo seen else reach next avoid f (next x ++ todo) (seen ++ [x])

def nodeSuccs (ns : List GNode) (n : Nat) : List Nat := ((ns[n]?).map (·.succs)).getD []

/-- The body of a WHILE: what its SUCC0 reaches before coming back. -/
def whileBody (ns : List GNode) (w : Nat) : List Nat :=
  match (ns[w]?).bind (·.succ 0) with
  | some b => reach (nodeSuccs ns) w (4 * ns.length + 4) [b] []
  | none => []

/-- The edge from `m` to `n` is a back edge: `n` is a WHILE and `m` lies in its body (R61, R62). -/
def isBack (ns : List GNode) (m n : Nat) : Bool :=
  match ns[n]? with
  | some x => x.kind == 4 && (if m = n then x.succ 0 == some n else (whileBody ns n).contains m)
  | none => false

def GNode.waits (x : GNode) : Bool := x.state matches .waiting ..

def Graph.setState (g : Graph) (n : Nat) (st : GNodeState) : Graph :=
  { g with nodes := listSet g.nodes n fun x => { x with state := st } }

/-- An arrival over a back edge: the WHILE tests, once more if a test is due already (R62). -/
def Graph.backAt (g : Graph) (n : Nat) : Graph :=
  { g with nodes := listSet g.nodes n fun x =>
      if x.state == .complete then { x with state := .waiting x.npred 0 } else { x with again := x.again + 1 } }

/-- Arrivals over edges: from, to, and whether the source was skipped. A back edge makes its WHILE test again; a node
whose predecessors are all skipped is skipped (R62). -/
def Graph.arrivals : (fuel : Nat) → Graph → List (Nat × Nat × Bool) → Graph
  | 0, g, _ | _, g, [] => g
  | f + 1, g, (m, n, sk) :: rest =>
    match g.nodes[n]? with
    | none => Graph.arrivals f g rest
    | some x =>
      if isBack g.nodes m n then
        Graph.arrivals f (if sk || g.stopped then g else g.backAt n) rest
      else match x.state with
        | .waiting p s =>
          let s := if sk then s + 1 else s
          if p + 1 = x.npred ∧ s = p + 1 then
            Graph.arrivals f (g.setState n .skipped) (rest ++ x.succs.map fun t => (n, t, true))
          else Graph.arrivals f (g.setState n (.waiting (p + 1) s)) rest
        | _ => Graph.arrivals f g rest

def Graph.fuel (g : Graph) : Nat := 4 * g.nodes.length + 4

/-- A node has completed; a WHILE over whose back edges more arrivals have come is ready again (R62). -/
def GNode.completes (x : GNode) : GNode :=
  if x.again = 0 then { x with state := .complete } else { x with state := .waiting x.npred 0, again := x.again - 1 }

/-- A node completes toward some successors, once toward each; one successor is skipped (R62). -/
def Graph.complete (g : Graph) (n : Nat) (dest : List Nat) (skip : Option Nat) : Graph :=
  let dest := dest.eraseDups
  let g := { g with nodes := listSet g.nodes n GNode.completes }
  let skip := skip.filter fun t => !dest.contains t && ((g.nodes[t]?).map (·.waits)).getD false
  let g := match skip with
    | some t => g.setState t .skipped
    | none => g
  let more := match skip with
    | some t => (nodeSuccs g.nodes t).map fun u => (t, u, true)
    | none => []
  Graph.arrivals g.fuel g (dest.map (fun t => (n, t, false)) ++ more)

def Dev.graph? (d : Dev) (id : Nat) : Option Graph := d.graphs.find? (·.id == id)

def Dev.modGraph (d : Dev) (id : Nat) (f : Graph → Graph) : Dev :=
  { d with graphs := d.graphs.map fun g => if g.id = id then f g else g }

/-- A node of KIND 0 to 2 has completed. -/
def Dev.nodeComplete (d : Dev) (id n : Nat) : Dev :=
  d.modGraph id fun g => g.complete n (nodeSuccs g.nodes n) none

/-- Every team of a grid has retired: its packet is over, its batch is freed, or its graph node completes
(R47, R60, R62). -/
def Dev.gridEnd (d : Dev) (g : Grid) : Dev :=
  let d := { d with grids := d.grids.filter fun x => x.id != g.id }
  match g.origin with
  | .packet q seq => d.packetOver q seq
  | .firing n b => d.freeBuf n b true
  | .graph gr n => d.nodeComplete gr n

/-- `n` teams of a grid have retired, or will never start. -/
def Dev.gridLess (d : Dev) (gid n : Nat) : Dev :=
  match d.grid? gid with
  | none => d
  | some g =>
    let d := d.modGrid gid fun g => { g with left := g.left - n }
    if g.left ≤ n then d.gridEnd g else d

/-- The area of a team's save record is free again (R365). -/
def Dev.freeSave (d : Dev) (pid : Nat) (t : Team) : Dev :=
  d.modPart pid fun p => { p with saveUsed := p.saveUsed.filter fun u => u.1 != t.record || t.recSize == 0 }

/-- A saved team is discarded. -/
def Dev.discardSaved (d : Dev) (inst : Nat) : Dev :=
  match d.team? inst with
  | none => d
  | some t =>
    let d := match d.grid? t.grid with
      | some g => d.freeSave g.pid t
      | none => d
    { d with teams := d.teams.filter fun x => x.inst != inst }.gridLess t.grid 1

/-- A grid is killed: pending units are dropped, saved teams discarded, and the others retire (R47, R344). -/
def Dev.killGrid (d : Dev) (gid : Nat) : Dev :=
  let units := d.pending.filter fun u => u.grid == gid
  let d := { d with pending := d.pending.filter fun u => u.grid != gid }
  let mine := d.teams.filter fun t => t.grid == gid
  let d := mine.foldl (fun d t => if t.state = .saved then d else d.killTeam t.inst) d
  let d := mine.foldl (fun d t => if t.state = .saved then d.discardSaved t.inst else d) d
  units.foldl (fun d u => if u.saved.isEmpty then d.gridLess gid (u.per * u.count) else d) d

/-- ABORT's work: the queue's graphs stop, and the teams its packets have started are killed (R47). -/
def Dev.abortWork (d : Dev) (qn : Nat) : Dev :=
  let still : GNode → GNode := fun x => match x.state with
    | .waiting .. => { x with state := .skipped }
    | .running => if x.kind = 1 then { x with state := .complete, data := [] } else x
    | _ => x
  let stop : Graph → Graph := fun g =>
    if g.queue = qn then { g with aborted := true, stopped := true, nodes := g.nodes.map still } else g
  let d := { d with graphs := d.graphs.map stop }
  let mine := (d.grids.filter fun g => g.queue == qn && !g.origin.ofNode).map (·.id)
  (mine.foldl Dev.killGrid d).noteWaits qn

/-- ABORT: nothing is saved (R47). -/
def execAbort (qn : Nat) (s : State) : Res :=
  withPacket qn 1 s fun d q p => (d.accept q p).abortWork qn

/-- RESET-QUEUE (R47). -/
def execResetQueue (qn : Nat) (s : State) : Res :=
  withPacket qn 2 s fun d q p =>
    let d := d.accept q p
    let d := d.modQueue qn fun q => { q with head := q.kick, deficit := 0, since := none, level := 0 }
    ((d.noteWaits qn).postStatus qn false).packetOver qn p.seq

/-- FENCE: it completes once it is the oldest packet (R47). -/
def execFencePacket (qn : Nat) (s : State) : Res := withPacket qn 3 s fun d q p => d.accept q p

/-- WAIT's and a graph's comparison: ≥, =, ≠ (R47). -/
def waitTest (cmp x v : Nat) : Bool :=
  match cmp with
  | 0 => decide (v ≤ x)
  | 1 => x == v
  | _ => x != v

/-- The word of a WAIT is read and tested; a fault ends the packet (R47, R48). -/
def Dev.testWait (d : Dev) (q : Queue) (p : Packet) : Dev :=
  match d.engWord (q.num / 64) q.pid q.asid (p.word 1) with
  | (d, .ok x) => if waitTest (bits (p.word 3) 32 2) x.toNat (p.word 2) then d.packetOver q.num p.seq else d
  | (d, _) => d.endPacket q.num p.seq 0x17

/-- WAIT (R47). -/
def execWaitPacket (qn : Nat) (s : State) : Res :=
  withPacket qn 4 s
    (fun d q p =>
      let t := bits (p.word 3) 0 32
      let p := { p with expires := if t = 0 then none else some (d.cycle + 1600 * t) }
      (d.accept q p).testWait q p)
    fun d q p => d.testWait q p

/-- WAIT_TIMEOUT: the packet ends and the queue halts with 0x16 (R48). -/
def execWaitTimeout (qn : Nat) (s : State) : Res :=
  withEvent s fun d => do
    let q ← d.queue? qn
    let p ← q.again?
    let t ← p.expires
    if p.opc = 4 ∧ t ≤ d.cycle ∧ !(d.die (qn / 64)).round.contains qn then some (d.endPacket qn p.seq 0x16) else none

/-- SIGNAL's store, addition or maximum, at the home (R47). -/
def Dev.signalWord (d : Dev) (q : Queue) (p : Packet) : Dev × Eng Unit :=
  let die := q.num / 64
  let put := fun (d : Dev) (x : Word64) => d.engWrite die q.pid q.asid (p.word 1) (wordBytes x)
  let v := p.words.getD 2 0
  if bits (p.word 3) 0 2 = 0 then put d v
  else match d.engWord die q.pid q.asid (p.word 1) with
    | (d, .ok x) => put d (if bits (p.word 3) 0 2 = 1 then x + v else if x.toNat < v.toNat then v else x)
    | (d, .fault f) => (d, .fault f)
    | (d, .ecc) => (d, .ecc)

/-- SIGNAL: a release at .SYS, so it is handled once every earlier write of the engines has settled (R47, R48). -/
def execSignal (qn : Nat) (s : State) : Res :=
  if s.dev.cycle ≤ s.dev.settle then .refused .notPending else
  withPacket qn 5 s fun d q p =>
    match d.signalWord q p with
    | (d, .ok _) => (d.accept q p).packetOver qn p.seq
    | (d, _) => (d.accept q p).endPacket qn p.seq 0x17

/-- LAUNCH: the record is checked and its grid entered for placement (R35, R47). -/
def execLaunch (qn : Nat) (s : State) : Res :=
  withPacket qn 7 s fun d q p =>
    match d.checkLaunch q (p.word 1) with
    | (d, .error c) => d.queueError qn c true
    | (d, .ok l) => (d.accept q p).enterGrid q l (.packet qn p.seq) 0

/-! ## Records into nodes (R47, R59) -/

/-- Records enter in order until no buffer is free; those left. One that faults counts as entered (R60), but ends the work
of a packet whose queue `own` owns the node (R48). -/
def Dev.enterMany (d : Dev) (node : Nat) (own : Option Nat) : List (List Byte) → Dev × List (List Byte)
  | [] => (d, [])
  | r :: rs => match d.enterRecord node r none with
    | (d, .entered) => d.enterMany node own rs
    | (d, .noRoom) => (d, r :: rs)
    | (d, .faulted) => if own.isSome && (d.node? node).map (·.ownq) == own then (d, []) else d.enterMany node own rs

/-- A byte list in pieces of `n`. -/
def piecesOf (n count : Nat) (bs : List Byte) : List (List Byte) := (List.range count).map fun k => (bs.drop (n * k)).take n

/-- What NODE-RECORD and FEED name: the node, and how many records; none for code 0x14. -/
def Dev.recordTarget (d : Dev) (pid w : Nat) : Option (Node × Nat) :=
  let n := bits w 16 16
  if n = 0 ∨ 1024 < n then none else (d.liveNode? pid (bits w 0 16)).map fun x => (x, n)

/-- The records of a taken NODE-RECORD enter while buffers are free; it is over with the last (R47, R59). -/
def Dev.feedPacket (d : Dev) (q : Queue) (p : Packet) : Dev :=
  let (d, rest) := d.enterMany (bits (p.word 1) 0 16) (some q.num) p.data
  d.modPacket q.num p.seq fun p => { p with data := rest, finished := rest.isEmpty }

/-- NODE-RECORD (R47, R48). -/
def execNodeRecord (qn : Nat) (s : State) : Res :=
  withPacket qn 8 s
    (fun d q p => match d.recordTarget q.pid (p.word 1) with
      | none => d.queueError qn 0x14 true
      | some (n, count) => match d.engRead (qn / 64) q.pid q.asid (p.word 2) (count * n.rsz) with
        | (d, .ok bs) =>
          let p := { p with data := piecesOf n.rsz count bs }
          (d.accept q p).feedPacket q p
        | (d, _) => d.queueError qn 0x17 true)
    fun d q p => d.feedPacket q p

/-! ## Chains and NOP -/

/-- A new tail reaches a chain (R283). -/
def Dev.chainTail (d : Dev) (key t : Nat) : Dev :=
  match d.chain? key with
  | none => d
  | some c =>
    if t ≤ c.tail then d
    else if 2 ^ c.logn < t - c.head then d.chainHalt key 1
    else d.modChain key fun c => { c with tail := t }

/-- CHAIN (R47, R283). -/
def execChainPacket (qn : Nat) (s : State) : Res :=
  withPacket qn 9 s fun d q p =>
    if (d.chain? (chainKey q.pid (p.word 1))).isNone then d.queueError qn 0x14 true
    else ((d.accept q p).chainTail (chainKey q.pid (p.word 1)) (p.word 2)).packetOver qn p.seq

/-- NOP (R47). -/
def execNopPacket (qn : Nat) (s : State) : Res :=
  withPacket qn 0 s fun d q p => (d.accept q p).packetOver qn p.seq

/-! ## Completion (R46 to R48) -/

/-- Grids and graphs of the packets before one are gone: an ABORT has completed (R47). -/
def Dev.aborted (d : Dev) (q : Queue) (seq : BitVec 32) : Bool :=
  let before := (q.taken.takeWhile fun p => p.seq != seq).map (·.seq)
  !(d.graphs.any fun g => g.queue == q.num && before.contains g.seq) &&
  !(d.grids.any fun g => match g.origin with
    | .packet n x => n == q.num && before.contains x
    | _ => false)

/-- The packet completes now; what it has written before has performed (R46). -/
def Dev.finishes (d : Dev) (q : Queue) (p : Packet) : Bool :=
  decide (d.settle < d.cycle) && (p.finished || (p.opc == 3 && (q.taken.head?.map (·.seq)) == some p.seq) ||
    (p.opc == 1 && d.aborted q p.seq))

/-- The packet completes: its signal, then its interrupt; a faulted signal halts the queue (R46, R48). -/
def Dev.finishPacket (d : Dev) (q : Queue) (p : Packet) : Dev :=
  let d := d.dropPacket q.num p.seq
  let d := if bits (p.word 0) 10 1 = 0 then d
    else match d.engWrite (q.num / 64) q.pid q.asid (p.word 6) (wordBytes (p.words.getD 7 0)) with
      | (d, .ok _) => d
      | (d, _) => d.queueError q.num 0x17 true
  if bits (p.word 0) 11 1 = 1 then d.raiseVec q.pid q.vec else d

/-! ## Task graphs (R61 to R63) -/

/-- NNODE; twelve bits of zero stand for 4,096. -/
def graphNodes (ws : List Word64) : Nat :=
  let n := bits (ws.headD 0).toNat 0 12
  if n = 0 then 4096 else n

/-- A reserved header bit is nonzero, a status address is misaligned, or the entry is no node (R61). -/
def graphHeaderBad (ws : List Word64) : Bool :=
  let w := fun (k lo len : Nat) => bits (ws.getD k 0).toNat lo len
  w 0 12 4 != 0 || w 0 28 36 != 0 || w 1 48 16 != 0 || w 1 0 3 != 0 || (ws.drop 2).any (· != 0) ||
  decide (graphNodes ws ≤ w 0 16 12)

/-- What is left of a set after removing, as often as it has members, those that nothing left leads to. -/
def peel (edge : Nat → Nat → Bool) : (fuel : Nat) → List Nat → List Nat
  | 0, xs => xs
  | f + 1, xs => peel edge f (xs.filter fun x => xs.any fun y => edge y x)

/-- Reserved bits of a node's first word, CMP 3 of a COND or WHILE and a WHILE's limit of 0 (R61). DESIGN CHOICE (log 71): they
are refused like the cases of R63. -/
def GNode.bad (x : GNode) : Bool :=
  bits (x.word 0) 51 13 != 0 || ((x.kind == 3 || x.kind == 4) && bits (x.word 4) 0 2 == 3) ||
  (x.kind == 4 && bits (x.word 5) 0 32 == 0)

/-- R63. -/
def graphBad (ns : List GNode) : Bool :=
  let all := List.range ns.length
  let edge := fun (m n : Nat) => match ns[m]? with
    | some x => (List.range 3).any fun j => x.succ j == some n && !(x.kind == 4 && j == 0)
    | none => false
  let preds := fun (n : Nat) => (all.filter fun m => (nodeSuccs ns m).contains n && !isBack ns m n).length
  (ns.any fun x => x.bad || x.succs.any (fun t => decide (ns.length ≤ t)) || decide (4 < x.kind) || (x.kind == 3 && (x.succ 2).isSome) ||
    (x.kind == 4 && ((x.succ 0).isNone || (x.succ 1).isNone))) ||
  !(peel edge ns.length all).isEmpty || ns.zipIdx.any fun (x, n) => x.npred != preds n

/-- The nodes of a graph as it starts: its entry is ready. -/
def startNodes (ws : List Word64) (entry : Nat) : List GNode :=
  let ns := (List.range (ws.length / 8)).map fun k =>
    let x : GNode := { words := (ws.drop (8 * k)).take 8, state := .waiting 0 0, iters := 0, again := 0, data := [] }
    x
  listSet ns entry fun x => { x with state := .waiting x.npred 0 }

/-- GRAPH: the graph is read and checked, and starts (R47, R48, R63). -/
def execGraph (qn : Nat) (s : State) : Res :=
  withPacket qn 6 s fun d q p =>
    match d.engWords (qn / 64) q.pid q.asid (p.word 1) 8 with
    | (d, .ok hs) =>
      match d.engWords (qn / 64) q.pid q.asid (p.word 1 + 64) (8 * graphNodes hs) with
        | (d, .ok ws) =>
          let ns := startNodes ws (bits (hs.headD 0).toNat 16 12)
          if graphHeaderBad hs || graphBad ns then d.queueError qn 0x15 true
          else
            let (id, d) := (d.accept q p).newId
            { d with graphs := d.graphs ++ [{
                id, queue := qn, seq := p.seq, addr := p.word 1, status := (hs.getD 1 0).toNat, aborted := false
                stopped := false, nodes := ns }] }
        | (d, _) => d.queueError qn 0x17 true
    | (d, _) => d.queueError qn 0x17 true

/-- The node's predecessors have completed or been skipped (R62). -/
def GNode.ready (x : GNode) : Bool :=
  match x.state with
  | .waiting p _ => decide (x.npred ≤ p)
  | _ => false

/-- A node that cannot do its work: the graph ends ABORTED, and an access that faulted halts the queue (R48, R62). -/
def Dev.graphFails (d : Dev) (g : Graph) (n : Nat) (code : Option (BitVec 8)) : Dev :=
  let d := d.modGraph g.id fun g => { g.setState n .complete with aborted := true }
  match code with
  | some c => d.queueError g.queue c true
  | none => d

/-- The body's nodes are made ready to run afresh: what lies outside the body still counts (R62). -/
def Graph.refresh (g : Graph) (w : Nat) : Graph :=
  let body := whileBody g.nodes w
  let fresh := fun (n : Nat) (x : GNode) =>
    if !body.contains n || x.state == .running then x
    else
      let outside := g.nodes.zipIdx.filterMap fun (y, m) =>
        if m ≠ w ∧ !body.contains m ∧ y.succs.contains n ∧ !isBack g.nodes m n then some y.state else none
      let there := outside.filter fun st => st == .complete || st == .skipped
      { x with state := .waiting there.length (there.filter (· == .skipped)).length, iters := 0, again := 0 }
  { g with nodes := g.nodes.zipIdx.map fun (x, n) => fresh n x }

/-- COND and WHILE: the word is read and tested (R62). DESIGN CHOICE (log 71): a failed WHILE takes a valid SUCC2 with SUCC1. -/
def Dev.testNode (d : Dev) (g : Graph) (q : Queue) (n : Nat) (x : GNode) : Dev :=
  match d.engWord (q.num / 64) q.pid q.asid (x.word 1) with
  | (d, .ok v) =>
    let holds := waitTest (bits (x.word 4) 0 2) (v &&& x.words.getD 2 0).toNat (x.word 3)
    if x.kind = 3 then
      let (yes, no) := if holds then (x.succ 0, x.succ 1) else (x.succ 1, x.succ 0)
      d.modGraph g.id fun g => g.complete n yes.toList no
    else if !holds then d.modGraph g.id fun g => g.complete n ((x.succ 1).toList ++ (x.succ 2).toList) none
    else if x.iters < bits (x.word 5) 0 32 then
      d.modGraph g.id fun g =>
        let g := { g with nodes := listSet g.nodes n fun x => { x with iters := x.iters + 1 } }
        (g.refresh n).complete n (x.succ 0).toList none
    else d.graphFails g n none
  | (d, _) => d.graphFails g n (some 0x17)

/-- GRAPH_NODE_START (R62). -/
def execGraphNodeStart (id n : Nat) (s : State) : Res :=
  withEvent s fun d => do
    let g ← d.graph? id
    let x ← g.nodes[n]?
    let q ← d.queue? g.queue
    if !x.ready || g.stopped then none
    else match x.kind with
      | 0 => some (match d.checkLaunch q (x.word 1) with
        | (d, .ok l) => (d.modGraph id (·.setState n .running)).enterGrid q l (.graph id n) 0
        | (d, .error c) => d.graphFails g n (if c = 0x17 then some c else none))
      | 1 => some (match d.recordTarget q.pid (x.word 1) with
        | none => d.graphFails g n (some 0x14)
        | some (nd, count) => match d.engRead (q.num / 64) q.pid q.asid (x.word 2) (count * nd.rsz) with
          | (d, .ok bs) => d.modGraph id fun g => { g with nodes := listSet g.nodes n fun x =>
              { x with state := .running, data := piecesOf nd.rsz count bs } }
          | (d, _) => d.graphFails g n (some 0x17))
      | 2 => some (
        let key := chainKey q.pid (x.word 1)
        if (d.chain? key).isNone then d.graphFails g n (some 0x14)
        else (d.chainTail key (x.word 2)).nodeComplete id n)
      | _ => some (d.testNode g q n x)

/-- A FEED's records go on while buffers are free (R59, R61). -/
def Dev.feedNode (d : Dev) (id n : Nat) : Dev :=
  match (d.graph? id).bind (·.nodes[n]?) with
  | none => d
  | some x =>
    let (d, rest) := d.enterMany (bits (x.word 1) 0 16) none x.data
    let d := d.modGraph id fun g => { g with nodes := listSet g.nodes n fun x => { x with data := rest } }
    if rest.isEmpty then d.nodeComplete id n else d

/-- No node is running or ready (R62). -/
def Graph.ends (g : Graph) : Bool := g.nodes.all fun x => x.state != .running && !x.ready

/-- The status word is written, and then the packet is over; 0x06 is ABORTED (R62). -/
def Dev.endGraph (d : Dev) (g : Graph) : Dev :=
  let d := { d with graphs := d.graphs.filter fun x => x.id != g.id }
  match d.queue? g.queue with
  | none => d
  | some q =>
    let d := match d.engWrite (q.num / 64) q.pid q.asid g.status (natBytes 8 (if g.aborted then 6 else 0)) with
      | (d, .ok _) => d
      | (d, _) => d.queueError q.num 0x17 true
    d.packetOver q.num g.seq

end Sys2Proof.Machine
end

