-- ==== Sys2Proof/Machine/Teams.lean ====
section
/-! DEFINITION. Pre-emption's saves and restores (R336 to R343), retirement (R344 to R348), and arrivals reaching their
objects (R266 to R268). -/

namespace Sys2Proof.Machine

/-! ## Save points (R336) -/

/-- PHINT_WINDOW_EXPIRY: the group has reached no PHINT within the window, and is saved in full (R336). -/
def execPhintWindowExpiry (r : GroupRef) (s : State) : Res :=
  withEvent s fun d => do
    let t ← d.team? r.team
    let g ← t.group? r.group
    let gr ← d.grid? t.grid
    match t.state with
    | .saving since =>
      if !g.done && g.save.isNone && decide (since + (d.part gr.pid).rec_.pw < d.cycle) then
        some (d.modGroup r fun g => { g with save := some { hint := none } })
      else none
    | _ => none

/-- The split stands at a clause boundary, or at an instruction that waits (R336). -/
def Split.halts (sp : Split) : Bool := sp.clause.isNone || sp.wait != .ready

/-- The group stands at its save point with its long-latency results written (R336, R340). -/
def Group.atSave (g : Group) : Bool :=
  g.done || ((g.save.isSome || g.parked || g.stop) && g.slices.all (fun s => s.cf.isEmpty) &&
    (match g.save with
     | some { hint := some _ } => true
     | _ => g.splits.all (·.halts)))

/-- The group's obligations are met: stores, markers and the settle deadline (R252). -/
def Dev.obliged (d : Dev) (r : GroupRef) (g : Group) : Bool :=
  !g.posted.isEmpty || !g.markers.isEmpty || g.settle.isSome || g.owed.any (·.memory) || d.reqs.any fun q => q.by_ == r

/-- The teams of a cluster that are on the device. -/
def Dev.clusterOf (d : Dev) (t : Team) : List Team :=
  let per := ((d.launchOf t).map (·.per)).getD 1
  d.teams.filter fun x => x.grid == t.grid && x.num / per == t.num / per

/-- The team's asynchronous work has completed or is held; its calls wait with it (R196, R216, R233, R237). -/
def Dev.workDrained (d : Dev) (inst : Nat) : Bool :=
  (d.copies.all fun c => match c.owner with
    | .group g _ => g.team != inst || c.held
    | .chain .. => true) &&
  (d.embags.all fun e => e.by_.team != inst) &&
  (d.mats.all fun m => m.by_.team != inst || d.mats.any fun h => h.by_.team == inst && h.core == m.core &&
    h.sextant == m.sextant && decide (h.id ≤ m.id) && (h.hostB?.any fun x => x.2.held))

/-- The teams that a save takes together. -/
def Dev.savingTeams (d : Dev) (t : Team) : List Team := (d.clusterOf t).filter fun x => x.state matches .saving _

/-- Every group is at a save point, the work of every team has drained, and no access to their scratchpads is on its way
(R244, R336). -/
def Dev.savePoint (d : Dev) (ts : List Team) : Bool :=
  ts.all fun t => t.groups.all (·.atSave) && d.workDrained t.inst && d.reqs.all fun r => r.target != some t.inst

/-! ## The save record (R338 to R341) -/

/-- The liveness entry a PHINT names: its tiles and ranges; none makes the save a full one (R337, R338). -/
def Dev.liveness (d : Dev) (g : Grid) (die idx : Nat) : Dev × Option (List Nat × List (Nat × Nat)) :=
  if idx = 255 then (d, some ([], []))
  else
    let k := (d.part g.pid).modules.findSome? fun m =>
      if m.asid = g.asid then m.kernels.find? (·.code == g.launch.code.toNat) else none
    match k with
    | none => (d, none)
    | some k =>
      if k.nlive ≤ idx then (d, none)
      else match d.engRead die g.pid g.asid (k.live + 64 * idx) 64 with
        | (d, .ok bs) =>
          let tiles := (List.range 256).filter fun t => bits (bytesNat (bs.take 32)) t 1 == 1
          let ranges := (List.range 4).map fun i =>
            let w := bytesNat ((bs.drop (32 + 8 * i)).take 8)
            (bits w 0 32, bits w 32 32)
          (d, some (tiles, ranges.filter fun r => r.2 != 0))
        | (d, _) => (d, none)

/-- Ranges clipped to the scratchpad, in ascending offset, overlaps merged (R338, R339). -/
def mergeRanges (limit : Nat) (rs : List (Nat × Nat)) : List (Nat × Nat) :=
  let rs := rs.filterMap fun (o, n) => if o < limit ∧ n ≠ 0 then some (o, min n (limit - o)) else none
  (rs.isort fun a b => decide (a.1 ≤ b.1)).foldl (fun acc (o, n) => match acc.getLast? with
    | some (p, m) => if o ≤ p + m then acc.dropLast ++ [(p, max m (o + n - p))] else acc ++ [(o, n)]
    | none => [(o, n)]) []

/-- What a team's save stores. -/
structure SavePlan where
  full   : Bool
  ranges : List (Nat × Nat)
  tiles  : List Nat

/-- What a full save stores beside the groups (R339). -/
def fullPlan (l : Launch) : SavePlan :=
  { full := true, ranges := if l.scr = 0 then [] else [(0, 16384 * l.scr)], tiles := List.range (16 * l.accu) }

/-- The plan of a team whose groups are at their save points (R336, R339). -/
def Dev.savePlan (d : Dev) (t : Team) (g : Grid) : Dev × SavePlan :=
  (t.groups.filter fun x => !x.done).foldl (fun (acc : Dev × SavePlan) x =>
    let (d, p) := acc
    if p.full then (d, p)
    else match x.save with
      | some { hint := some (_, _, idx) } => (match d.liveness g (t.core / 128) idx.toNat with
        | (d, some (ts, rs)) => (d, { full := false, ranges := p.ranges ++ rs, tiles := p.tiles ++ ts })
        | (d, none) => (d, fullPlan g.launch))
      | _ => (d, fullPlan g.launch)) (d, { full := false, ranges := [], tiles := [] })

/-- The octets of vector registers and of scalars that a group's record stores (R339). -/
def Group.octets (g : Group) (l : Launch) (full : Bool) : List Nat × List Nat :=
  if full then (List.range l.nreg8, List.range 8)
  else match g.save with
    | some { hint := some (v, s, _) } =>
      ((List.range l.nreg8).filter fun o => v.getLsbD o, (List.range 8).filter fun o => s.getLsbD o)
    | _ => ([], [])

/-- The splits, oldest first. -/
def Group.byAge (g : Group) : List Split := g.splits.isort fun a b => !stampOlder b.stamp a.stamp

/-- The group record header (R340). -/
def Group.header (g : Group) (lost : BitVec 32) (full : Bool) : List Byte :=
  let k8 := List.range 8
  let n := g.slices.length
  let sl := fun (k : Nat) => if k < n then g.slice k else Slice.blank
  let splitOf := fun (k : Nat) => (g.byAge.findIdx? fun sp => sp.mask.getLsbD k).getD 0
  k8.flatMap (fun k => natBytes 6 (sl k).pc.toNat) ++
  k8.flatMap (fun k => natBytes 2 ((sl k).rtd ++ (sl k).fin ++ (sl k).pm ++ (sl k).x : BitVec 16).toNat) ++
  natBytes 28 (((List.range (4 * n)).map fun l => (fget 0 g.p l).toNat % 128 * 2 ^ (7 * l)).foldl (· + ·) 0) ++
  natBytes 4 (g.splits.length * 2 ^ 28 + (if full then 2 ^ 27 else 0) + (if g.parked then 2 ^ 26 else 0) +
    (if g.stop then 2 ^ 25 else 0) + (k8.map fun k => splitOf k * 2 ^ (3 * k)).foldl (· + ·) 0) ++
  k8.flatMap (fun k => natBytes 2 (sl k).spill.toNat) ++
  natBytes 4 g.rgnctr.toNat ++ natBytes 4 g.urg.toNat ++ natBytes 4 g.bseq.toNat ++ natBytes 4 lost.toNat

def RsEntry.toNat (e : RsEntry) : Nat :=
  e.rpc.toNat + e.dpc.toNat * 2 ^ 48 + e.dmask.toNat * 2 ^ 96 + e.xmask.toNat * 2 ^ 100 + e.pmask.toNat * 2 ^ 104 +
    (if e.phase then 2 ^ 108 else 0) + (if e.lnk then 2 ^ 109 else 0)

def RsEntry.ofNat (x : Nat) : RsEntry :=
  { rpc := BitVec.ofNat 48 x, dpc := BitVec.ofNat 48 (bits x 48 48), dmask := BitVec.ofNat 4 (bits x 96 4)
    xmask := BitVec.ofNat 4 (bits x 100 4), pmask := BitVec.ofNat 4 (bits x 104 4), phase := bits x 108 1 == 1
    lnk := bits x 109 1 == 1 }

/-- The sequencer extension (R341); entry 0 is the oldest of a slice's RSTACK. -/
def Group.extension (g : Group) : List Byte :=
  let sl := fun (k : Nat) => if k < g.slices.length then g.slice k else Slice.blank
  (List.range 8).flatMap (fun k => (List.range 8).flatMap fun e => natBytes 16 ((((sl k).rstack.reverse)[e]?.map (·.toNat)).getD 0)) ++
  (List.range 8).flatMap fun k =>
    let s := (sl k).snap
    natBytes 16 (s.repc.toNat + s.x.toNat * 2 ^ 48 + s.pm.toNat * 2 ^ 52 + s.depth * 2 ^ 56 + s.rgnctr.toNat * 2 ^ 64)

/-- A group's record (R339). -/
def Group.record (g : Group) (l : Launch) (lost : BitVec 32) (full : Bool) : List Byte :=
  let (vs, ss) := g.octets l full
  g.header lost full ++ (if full then g.extension else []) ++
  vs.flatMap (fun o => (List.range 8).flatMap fun j => (List.range l.width).flatMap fun ln => natBytes 4 (g.vreg ln (8 * o + j)).toNat) ++
  ss.flatMap fun o => (List.range (l.width / 4)).flatMap fun k => (List.range 8).flatMap fun j => natBytes 8 (g.sreg k (8 * o + j)).toNat

/-- The length of a group's record. -/
def Group.recordLen (g : Group) (l : Launch) (full : Bool) : Nat :=
  let (vs, ss) := g.octets l full
  128 + (if full then 1152 else 0) + vs.length * 32 * l.width + ss.length * 16 * l.width

/-- Where the groups' records begin in their team's. -/
def Team.recordAts (t : Team) (l : Launch) (full : Bool) : List Nat :=
  (t.groups.foldl (fun (acc : List Nat × Nat) g => (acc.1 ++ [acc.2], acc.2 + g.recordLen l full)) ([], 0)).1

/-- A slice's return-stack entries go to private memory, block by block (R106, R339); false when some stay (log 70). -/
def Dev.spillSlice (d : Dev) (i : Issuer) (k : Nat) : (fuel : Nat) → Group → Dev × Bool × Group
  | 0, g => (d, (g.slice k).ret.isEmpty, g)
  | fuel + 1, g =>
    if (g.slice k).ret.isEmpty then (d, true, g)
    else match d.spillSlices i g (min 8 (g.slice k).ret.length) [k] with
      | (d, .ok g) => d.spillSlice i k fuel g
      | (d, .error _) => (d, false, g)

/-- Every slice of a group spills its return stack; false makes the save a full one (R339). -/
def Dev.spillGroup (d : Dev) (t : Team) (g : Group) : Dev × Bool × Group :=
  match g.splits.head?.bind fun sp => d.issuerAt? ⟨t.inst, g.num, sp.stamp⟩ with
  | none => (d, true, g)
  | some i => (List.range g.slices.length).foldl (fun (acc : Dev × Bool × Group) k =>
    let (d, ok, g) := acc
    let (d, all, g) := d.spillSlice i k 8 g
    (d, ok && all, g)) (d, true, g)

/-- The team's private lines leave every L1, without write-back (R170). -/
def Dev.leaveL1 (d : Dev) (inst : Nat) : Dev :=
  let keep : Superblock → Superblock := fun sb => { sb with
    lines := sb.lines.map fun l => l.filter fun x => x.owner != some inst }
  { d with cores := d.cores.map fun (c, x) => (c, { x with l1 := x.l1.map keep }) }

/-- The superblocks that the team has locked are unlocked (R184). -/
def Dev.unlockAll (d : Dev) (t : Team) : Dev :=
  t.locks.foldl (fun d (c, tag) => d.modCore c fun x => { x with l1 := x.l1.map fun sb =>
    if sb.tag = tag then { sb with locked := false } else sb }) d

/-- The charge for a team's residency (R53). -/
def Dev.charge (d : Dev) (t : Team) : Dev :=
  match d.grid? t.grid with
  | none => d
  | some g =>
    let c := ((d.cycle - t.since) * g.launch.units + 191) / 192
    d.modQueue g.queue fun q => { q with deficit := q.deficit - (c : Nat) }

/-- What a team's pool units hold: its vector registers, its scratchpad and its tiles. DESIGN CHOICE (log 48): how registers
lie in their units. -/
def Team.pool (t : Team) (l : Launch) : FMap Byte :=
  let regs := t.groups.foldl (fun m g => g.v.foldl (fun m (k, w) =>
    fsetBytes m (4 * ((g.num * (8 * l.nreg8) + k / 32) * l.width + k % 32)) (natBytes 4 w.toNat)) m) []
  let put := fun (o : Nat) (m : FMap Byte) (x : FMap Byte) => x.foldl (fun m (k, b) => fset 0 m (o + k) b) m
  put (16384 * (l.regu + l.scr)) (put (16384 * l.regu) regs t.scr) t.tiles

/-- What a team leaves behind in its units and its sextants (R29, R342, R348). -/
def Core.leave (c : Core) (t : Team) (l : Launch) (asid : Nat) : Core :=
  let image := t.pool l
  let left : Nat × Nat → Leftover := fun (u, j) =>
    let bytes := (image.filter fun (k, _) => k / 16384 == j).map fun (k, b) => (k % 16384, b)
    let old := ((c.leftover.find? fun x => x.unit == u && x.asid == asid).map (·.kept)).getD []
    { unit := u, asid, kept := if bytes.isEmpty then old else bytes :: old }
  let scalars := t.groups.map fun g =>
    { sextant := g.sextant, asid, kept := (g.slices.zipIdx.flatMap fun (s, k) => s.s.map fun (n, w) => (64 * k + n, w)) : LeftScalars }
  { c with
    leftover := (t.units.zipIdx.map left).filter (fun x => !x.kept.isEmpty) ++ c.leftover.filter fun x => !t.units.contains x.unit
    scalars := scalars.filter (fun x => !x.kept.isEmpty) ++ c.scalars }

/-- A team's pool units and slots become free: its units step down under the ramp (R56). -/
def Dev.freeUnits (d : Dev) (t : Team) : Dev :=
  match d.grid? t.grid with
  | none => d
  | some g =>
    let d := d.modCore t.core fun c => { c.leave t g.launch g.asid with stepping := c.stepping ++ t.units }
    ((d.teamSetChanged t.core).openWindow (t.core / 128)).stepDown (t.core / 128)

/-- The save record is written, and the team gives up its units (R53, R339). -/
def Dev.saveTeam (d : Dev) (t : Team) (gr : Grid) : Dev :=
  let l := gr.launch
  let (d, plan) := d.savePlan t gr
  let r := t.groups.foldl (fun (acc : Dev × Bool × List Group) g =>
    let (d, ok, g) := acc.1.spillGroup t g
    (d, acc.2.1 && ok, acc.2.2 ++ [g])) (d, true, [])
  let d := r.1
  let plan := if r.2.1 then plan else fullPlan l
  let ranges := mergeRanges (16384 * l.scr) plan.ranges
  let tiles := (List.range (16 * l.accu)).filter plan.tiles.contains
  let t' := { t with groups := r.2.2 }
  let body := t'.groups.flatMap (fun g => g.record l t.lost plan.full) ++
    ranges.flatMap (fun (o, n) => fgetBytes t.scr o n) ++ tiles.flatMap fun k => fgetBytes t.tiles (1024 * k) 1024
  let d := d.homeWrite true 0 t.record body
  let full : Group → Group := fun g => if plan.full then { g with save := some { hint := none } } else g
  let d := d.charge t
  let d := d.modTeam t.inst fun t => { t with
    state := .saved, groups := t'.groups.map full, scr := [], tiles := [], units := [], recSize := body.length, ranges
    tilesOut := tiles }
  d.freeUnits t

/-- Some group saved in full: the whole team was (R339). -/
def Team.savedFull (t : Team) : Bool := t.groups.any fun g => match g.save with
  | some { hint := none } => true
  | _ => false

/-- The groups of a team whose posted stores have no marker yet send them (R252). -/
def Dev.sendAllMarkers (d : Dev) (inst : Nat) : Dev :=
  let n := d.nextId
  d.modTeam inst fun t => { t with groups := t.groups.map fun g => g.sendMarkers n }

/-- The units of a team's rounds stop at a micro-word boundary, or take their state back (R233). -/
def Dev.stopRounds (d : Dev) (inst : Nat) (stopped : Bool) : Dev :=
  { d with rounds := d.rounds.map fun r => if r.owner = .team inst then { r with stopped } else r }

/-- TEAM_SAVE: every team of the cluster stands at save points; with its obligations met, one team's record is written.
With the last of them the unit returns to the head of its queue (R55, R336). -/
def execTeamSave (inst : Nat) (s : State) : Res :=
  withEvent s fun d => do
    let t ← d.team? inst
    let gr ← d.grid? t.grid
    let ts := d.savingTeams t
    if !(t.state matches .saving _) || !d.savePoint ts || ts.all (fun x => x.groups.all (·.done)) then none
    else if d.rounds.any fun r => r.owner == .team inst && !r.stopped then some (d.stopRounds inst true)
    else if t.groups.any fun g => !g.posted.isEmpty then some (d.sendAllMarkers inst)
    else if t.groups.any fun g => d.obliged ⟨inst, g.num⟩ g then none
    else
      let d := d.saveTeam t gr
      if ts.length ≠ 1 then some d
      else
        let saved := ((d.clusterOf t).filter fun x => x.state == .saved).isort fun a b => decide (a.num ≤ b.num)
        let u : Unit_ := { queue := gr.queue, grid := gr.id, first := 0, per := 1, count := 1, saved := saved.map (·.inst) }
        some ({ d with pending := u :: d.pending }.noteWaits gr.queue)

/-! ## Restoring (R342) -/

/-- A number of `n` bytes of a record. -/
def recNat (bs : List Byte) (o n : Nat) : Nat := bytesNat ((bs.drop o).take n)

/-- A split of a resumed group: a barrier arrival stands, and a wait that must be judged again is (R342). -/
def Split.resume (sp : Split) : Split :=
  match sp.wait with
  | .parked | .rerun => sp
  | .object _ _ _ (some _) => sp
  | .frozen _ | .object _ _ _ none => { sp with wait := .ready, region := true, resumed := false }
  | _ => { sp with region := true, resumed := false }

/-- A group as its record and its context block give it; `oldV` and `oldS` are what an unnamed vector register of a lane and
an unnamed scalar of a slice hold (R342). -/
def Group.restoreFrom (g : Group) (l : Launch) (full : Bool) (bs : List Byte) (oldV : Nat → Nat → Word32)
    (oldS : Nat → Nat → Word64) : Group :=
  let (vs, ss) := g.octets l full
  let ext := if full then 1152 else 0
  let at_ := fun (o n : Nat) => recNat bs o n
  let slice := fun (k : Nat) (s : Slice) =>
    let m := at_ (0x30 + 2 * k) 2
    let s := { s with
      pc := BitVec.ofNat 48 (at_ (6 * k) 6), x := BitVec.ofNat 4 (bits m 0 4), pm := BitVec.ofNat 4 (bits m 4 4)
      fin := BitVec.ofNat 4 (bits m 8 4), rtd := BitVec.ofNat 4 (bits m 12 4), spill := BitVec.ofNat 16 (at_ (0x60 + 2 * k) 2) }
    let word := fun (n : Nat) => match ss.findIdx? (· == n / 8) with
      | some j => BitVec.ofNat 64 (at_ (128 + ext + vs.length * 32 * l.width + j * 16 * l.width + 8 * (8 * k + n % 8)) 8)
      | none => oldS k n
    let regs : FMap Word64 := ((List.range 63).map fun n => (n, word n)).filter fun x => x.2 != 0
    let s := { s with s := regs }
    if full then
      let y := at_ (0x480 + 16 * k) 16
      let depth := bits y 56 4
      { s with
        rstack := (s.rstack.zipIdx.map fun (_, i) => RsEntry.ofNat (at_ (0x80 + 128 * k + 16 * (s.rstack.length - 1 - i)) 16))
        snap := { repc := BitVec.ofNat 48 y, x := BitVec.ofNat 4 (bits y 48 4), pm := BitVec.ofNat 4 (bits y 52 4), depth, clause := s.snap.clause
                  rgnctr := BitVec.ofNat 32 (bits y 64 32) } }
    else s
  let n := 8 * l.nreg8
  let v := (List.range (min n 255)).flatMap fun r => (List.range l.width).map fun ln =>
    let w : Word32 := match vs.findIdx? (· == r / 8) with
      | some j => BitVec.ofNat 32 (at_ (128 + ext + j * 32 * l.width + 4 * (l.width * (r % 8) + ln)) 4)
      | none => oldV ln r
    (r * 32 + ln, w)
  let pr := at_ 0x40 28
  { g with
    slices := g.slices.zipIdx.map fun (s, k) => slice k s
    v := v.filter fun x => x.2 != 0
    p := ((List.range l.width).map fun ln => (ln, BitVec.ofNat 8 (bits pr (7 * ln) 7))).filter fun x => x.2 != 0
    rgnctr := BitVec.ofNat 32 (at_ 0x70 4), urg := BitVec.ofNat 32 (at_ 0x74 4), bseq := BitVec.ofNat 32 (at_ 0x78 4)
    splits := g.splits.map (·.resume), settle := none, posted := [], markers := [], reexec := 0, save := none
    pmc := List.replicate 4 { event := 0, count := 0 } }

/-- An unnamed scalar: zero, or what one earlier group of the address space left in the sextant (R342). -/
def Dev.leftScalar (d : Dev) (core sextant asid slice n : Nat) : Word64 :=
  let xs := (d.core core).scalars.filter fun x => x.sextant == sextant && x.asid == asid
  match xs[(Config.freeWord d.fresh (40000 + 64 * slice + n)).toNat % (xs.length + 1)]? with
  | some x => fget 0 x.kept (64 * slice + n)
  | none => 0

/-- TEAM_RESTORE: once its units have started, a saved team's record is read back; the teams of its cluster run
together (R19, R342). -/
def execTeamRestore (inst : Nat) (s : State) : Res :=
  withEvent s fun d => do
    let t ← d.team? inst
    let gr ← d.grid? t.grid
    if t.state ≠ .placed 0 ∨ t.record = 0 then none
    else
      let l := gr.launch
      let full := t.savedFull
      let bs := d.rdBytes 0 t.record t.recSize
      let ats := t.recordAts l full
      let groups := t.groups.zipIdx.map fun (g, k) =>
        g.restoreFrom l full (bs.drop (ats.getD k 0))
          (fun ln r => BitVec.ofNat 32 (bytesNat (d.leftRun t.core gr.asid t.units (4 * ((g.num * (8 * l.nreg8) + r) * l.width + ln)) 4 0)))
          (d.leftScalar t.core g.sextant gr.asid)
      let at0 := bs.length - 1024 * t.tilesOut.length - (t.ranges.map (·.2)).foldl (· + ·) 0
      let scr0 := d.leftBytes t.core gr.asid t.units l.regu l.scr 0
      let scr := (t.ranges.foldl (fun (acc : FMap Byte × Nat) (o, n) =>
        (fsetBytes acc.1 o ((bs.drop acc.2).take n), acc.2 + n)) (scr0, at0)).1
      let tiles0 := d.leftBytes t.core gr.asid t.units (l.regu + l.scr) l.accu 0
      let tiles := (t.tilesOut.foldl (fun (acc : FMap Byte × Nat) k =>
        (fsetBytes acc.1 (1024 * k) ((bs.drop acc.2).take 1024), acc.2 + 1024))
        (tiles0, bs.length - 1024 * t.tilesOut.length)).1
      let d := (d.freeSave gr.pid t).stopRounds inst false
      let d := d.modTeam inst fun t => { t with
        groups, scr, tiles, lost := BitVec.ofNat 32 (recNat bs 0x7C 4), record := 0, recSize := 0, ranges := [], tilesOut := [] }
      let back := (d.clusterOf t).filter fun x => x.state matches .placed _
      if back.all fun x => x.state == .placed 0 && x.record == 0 then
        let run : Team → Team := fun x => if back.any (·.inst == x.inst) then { x with state := .running } else x
        some { d with teams := d.teams.map run }
      else some d

/-! ## Retirement (R344 to R347) -/

/-- Every group is done, and so is the rest of the cluster or it has begun to retire (R344). -/
def Dev.mayRetire (d : Dev) (t : Team) : Bool :=
  match t.state with
  | .running | .saving _ => (d.clusterOf t).all fun x => (x.state matches .retiring _) ||
      ((x.state matches .running | .saving _) && x.groups.all (·.done))
  | _ => false

/-- A round aborted: its units drop its calls, and no status or arrival follows its close (R234). -/
def Round.abort (r : Round) (at_ : Nat) : Round :=
  { r with closedAt := some (r.closedAt.getD at_), status := none, arrive := none
           calls := r.calls.map fun (c : ZCall) => { c with ended := true, left := [], out := [], area := none, sums := [] } }

/-- Step 3: an open round closes, or at a kill is aborted; an acknowledgement owed is awaited (R234). -/
def Dev.endRound (d : Dev) (inst : Nat) (killed : Bool) : Option Dev :=
  match d.openRound? (.team inst) with
  | some r =>
    if killed then some (d.modRound r.id (·.abort d.cycle))
    else some (d.modRound r.id fun r => { r with closedAt := some d.cycle })
  | none => none

/-- One step of R345, when it can be taken; steps 3 and 4 may take several events. -/
def Dev.retireStep (d : Dev) (t : Team) (r : Retiring) : Option Dev :=
  let inst := t.inst
  let next := fun (d : Dev) => some (d.modTeam inst fun t => { t with state := .retiring { r with step := r.step + 1 } })
  -- in a partition's reset, steps 5 to 9 come once its rounds are closed or aborted (R369)
  let early := match (d.grid? t.grid).bind fun g => (d.part g.pid).resetting with
    | some (n : Nat) => decide (n < 4)
    | none => false
  if decide (4 ≤ r.step) && early then none else
  match r.step with
  | 0 =>
    let mine : Copy → Bool := fun c => match c.owner with
      | .group g _ => g.team == inst
      | .chain .. => false
    next { d with copies := d.copies.filter fun c => !mine c, embags := d.embags.filter fun e => e.by_.team != inst }
  | 1 => next { d with mats := d.mats.filter fun m => m.by_.team != inst }
  | 2 => match d.endRound inst r.killed with
    | some d => some d
    | none => if d.rounds.any fun x => x.owner == .team inst then none else next d
  | 3 =>
    if t.groups.any fun g => !g.posted.isEmpty then some (d.sendAllMarkers inst)
    else if t.groups.any fun g => d.obliged ⟨inst, g.num⟩ g then none else next d
  | 4 => next (d.leaveL1 inst)
  | 5 => next (d.unlockAll t)
  | 6 => next (d.modCore t.core fun c => { c with lb := c.lb.map fun x => x.filter fun b => b.team != inst })
  | 7 => next (if (((d.grid? t.grid).map fun g => (d.part g.pid).resetting.isSome).getD false) then d else d.charge t)
  | _ =>
    let d := match d.grid? t.grid with
      | some g => d.freeSave g.pid t
      | none => d
    let d := { d.freeUnits t with teams := d.teams.filter fun x => x.inst != inst }
    some (d.gridLess t.grid 1)

/-- RETIRE: a done team begins, and a retiring one takes its next step (R344, R345). -/
def execRetire (inst : Nat) (s : State) : Res :=
  withEvent s fun d => do
    let t ← d.team? inst
    let begun := d.modTeam inst fun t => { t with state := .retiring { killed := false, step := 0 } }
    match t.state with
    | .retiring r => d.retireStep t r
    | _ => if d.mayRetire t then some begun else none

/-! ## Arrivals (R266 to R268) -/

/-- Where a scratchpad offset of a saved team lies in its record, when a saved range holds it (R268). -/
def Team.savedAt (t : Team) (o : Nat) : Option Nat :=
  let at0 := t.recSize - 1024 * t.tilesOut.length - (t.ranges.map (·.2)).foldl (· + ·) 0
  (t.ranges.foldl (fun (acc : Option Nat × Nat) (a, n) =>
    (if a ≤ o ∧ o < a + n then some (t.record + acc.2 + (o - a)) else acc.1, acc.2 + n)) (none, at0)).1

/-- The lost-arrival counter in every group header of a saved team rises (R268). -/
def Dev.loseSaved (d : Dev) (t : Team) (l : Launch) : Dev :=
  (t.recordAts l t.savedFull).foldl (fun d o =>
    let a := t.record + o + 0x7C
    d.homeWrite true 0 a (natBytes 4 (satAdd32 (BitVec.ofNat 32 (d.rdNat 0 a 4))).toNat)) d

/-- An arrival for a saved team: on the object in the saved image, or lost (R268). -/
def Dev.arriveSaved (d : Dev) (t : Team) (l : Launch) (a : Arrival) : Dev :=
  match t.savedAt a.at_.off with
  | some pa =>
    let o := Obj.ofBytes (d.rdBytes 0 pa 16)
    if o.valid && o.gen == a.at_.gen.toNat then d.homeWrite true 0 pa (o.arrive a.n a.bytes).toBytes else d.loseSaved t l
  | none => d.loseSaved t l

/-- The lost-arrival counter of an arrival's sender rises: in its save record while it is saved; no counter, if it has gone
(R268). -/
def Dev.loseSender (d : Dev) (inst : Nat) : Dev :=
  match d.team? inst with
  | some t => if t.away then d.loseSaved t (((d.grid? t.grid).map (·.launch)).getD (Launch.ofWords [])) else d.lose inst
  | none => d

/-- BARRIER_ARRIVAL (R266 to R268, R347). -/
def execBarrierArrival (id : Nat) (s : State) : Res :=
  withEvent s fun d => do
    let a ← d.arrivals.find? (·.id == id)
    let d := { d with arrivals := d.arrivals.filter fun x => x.id != id }
    match d.team? a.at_.team with
    | none => some (d.loseSender a.sender)
    | some t =>
      if t.away then some (d.arriveSaved t (((d.grid? t.grid).map (·.launch)).getD (Launch.ofWords [])) a)
      else if t.scrLive then some (d.arriveAt a.at_.team a.at_.off (some a.at_.gen.toNat) a.n a.bytes).1
      else some (d.loseSender a.sender)

end Sys2Proof.Machine
end

