-- ==== Sys2Proof/Machine/Engines.lean ====
section
/-! DEFINITION. ETAIL, REC and DENSE as a core issues them (R283, R285, R311), the entries of engine chains (R282), and
the block transfer engine (R284). -/

namespace Sys2Proof.Machine

/-- The word has begun before, and waits for its release (R246). -/
def Split.begun (sp : Split) : Bool := sp.wait matches .word _

/-- ETAIL (R283). -/
def execEtail (a b : BitVec 6) (gd : Guard) (s : State) : Res :=
  withIssuer s fun i d =>
    let addr := (i.sca a).toNat
    let key := chainKey i.grid.pid addr
    if (i.on gd).isEmpty then d.modGroup i.ref fun _ => i.grp.advance i.sp true
    else if addr % 64 ≠ 0 then d.failOnce i gd (misaligned addr)
    else if 2 ^ 48 ≤ addr ∨ (!i.sp.begun && (d.chain? key).isNone) then d.failOnce i gd (forbidden addr)
    else afterRelease i .dev (fun i d =>
      (d.chainTail key (i.sca b).toNat).modGroup i.ref fun g => g.advance i.sp true) d

/-- The bytes of a record range (R285). -/
def Dev.recordBytes (d : Dev) (i : Issuer) (scratch : Bool) (a n : Nat) : Dev × Except LaneFault (List Byte) :=
  if scratch then
    if i.grid.launch.scr * 16384 < a + n then (d, .error (forbidden a)) else (d, .ok (fgetBytes i.team.scr a n))
  else match d.pagesOf i.core i.grid.pid i.grid.asid .r (fun l => !d.unreachable l.pa) a n with
    | (d, .error f) => (d, .error f)
    | (d, .ok pages) =>
      let v : ZVec := { va := a, pages }
      if (List.range n).any fun k => (v.pa? (a + k)).any fun x => d.poisoned x.1 1 then (d, .error ⟨.ecc, false, none, a⟩)
      else (d, .ok ((List.range n).map fun k => ((v.pa? (a + k)).map fun x => d.rd x.2 x.1).getD 0))

/-- Records enter their node; the split waits with those left (R285). -/
def Dev.enterFrom (d : Dev) (i : Issuer) (node : Nat) (rs : List (List Byte)) : Dev :=
  match d.enterMany node none rs with
  | (d, []) => d.modGroup i.ref fun g => g.advance i.sp true
  | (d, rest) => d.modGroup i.ref fun g => g.await i.sp (.records node rest)

/-- REC (R285). -/
def execRec (scratch : Bool) (a b c : BitVec 6) (gd : Guard) (s : State) : Res :=
  withIssuer s fun i d =>
    match i.sp.wait with
    | .records node rs => d.enterFrom i node rs
    | _ =>
      let id := (i.sca a).toNat % 2 ^ 16
      let addr := (i.sca b).toNat
      let n := (i.sca c).toNat % 2 ^ 11
      let node := if i.sp.begun then d.node? id else d.liveNode? i.grid.pid id
      if (i.on gd).isEmpty then d.modGroup i.ref fun _ => i.grp.advance i.sp true
      else if addr % 8 ≠ 0 then d.failOnce i gd (misaligned addr)
      else match node with
        | none => d.failOnce i gd (forbidden addr)
        | some nd =>
          if n = 0 ∨ 1024 < n then d.failOnce i gd (forbidden addr)
          else match d.recordBytes i scratch addr (n * nd.rsz) with
            | (d, .error f) => d.failOnce i gd f
            | (d, .ok bs) => afterRelease i .dev (fun i d => d.enterFrom i id (piecesOf nd.rsz n bs)) d

def Dev.ctx? (d : Dev) (num : Nat) : Option Ctx := d.ctxs.find? (·.num == num)

/-- Elements of a context's vectors, and their size (R292). -/
def Ctx.n (c : Ctx) : Nat := bits (c.rec_.getD 11 0).toNat 0 32
def Ctx.dbl (c : Ctx) : Bool := bits (c.rec_.getD 11 0).toNat 32 1 == 1
def Ctx.esz (c : Ctx) : Nat := if c.dbl then 8 else 4

/-- The output vector of a DENSE, on the context's die (R226, R311). -/
def Dev.denseOut (d : Dev) (i : Issuer) (num va bytes : Nat) : Dev × Except LaneFault ZVec :=
  if va % 16 ≠ 0 then (d, .error (misaligned va))
  else match d.pagesOf i.core i.grid.pid i.grid.asid .w (zitherPage (num / 64)) va bytes with
    | (d, .ok pages) => (d, .ok { va, pages })
    | (d, .error f) => (d, .error f)

/-- The status word of a DENSE: a store needing W (R311). -/
def Dev.denseStatus (d : Dev) (i : Issuer) (va : Nat) : Dev × Except LaneFault (Nat × Leaf) :=
  match d.checkLane i { space := .g, size := 8, align := true, store := true, need := .w, reads := false } 0 va with
  | (d, .ok ({ loc := .mem pa leaf, .. } :: _)) => (d, .ok (pa, leaf))
  | (d, .ok _) => (d, .error (forbidden va))
  | (d, .error f) => (d, .error f)

def Dev.addDense (d : Dev) (r : DenseReq) : Dev := { d with dense := d.dense ++ [r] }

/-- DENSE: the request is delivered after a release at .DEV (R311). -/
def execDense (o : Sc4) (s : State) : Res :=
  withIssuer s fun i d =>
    let num := (i.sca o.a).toNat % 256
    let ctx := d.ctx? num
    let bytes := (ctx.map fun c => c.n * c.esz).getD 0
    if (i.on o.g).isEmpty then d.modGroup i.ref fun _ => i.grp.advance i.sp true
    else
      let owner : List LaneFault := if ctx.any (·.pid != i.grid.pid) then [forbidden num] else []
      let (d, out) := d.denseOut i num (i.sca o.d).toNat bytes
      let (d, st) := d.denseStatus i (i.sca (o.d + 1)).toNat
      let obj : Except LaneFault (Option ArriveAt) := if o.c = 63 then .ok none else (d.objectAt i o.c).map some
      match owner ++ faultOf out ++ faultOf st ++ faultOf obj, out, st, obj with
      | [], .ok out, .ok status, .ok arrive =>
        let ask := fun (id : Nat) (i : Issuer) => { id, ctx := num, by_ := i.ref, pid := i.grid.pid, asid := i.grid.asid, out, status, t := i.sca o.b, arrive, served := false : DenseReq }
        afterRelease i .dev (fun i d =>
          let (id, d) := (d.modGroup i.ref fun g => g.advance i.sp true).newId
          d.addDense (ask id i)) d
      | fs, _, _, _ => d.failLanes i .instruction i.pc (fs.map fun f => ((i.on o.g).headD 64, f))

/-! ## Entries of a chain (R282) -/

/-- The engine may take an entry. -/
def Chain.takes (c : Chain) : Bool := !c.halted && !c.stuck && decide (c.head < c.tail)

/-- The entry at HEAD; a fault holds the chain or halts it (R282, R284). -/
def Dev.readEntry (d : Dev) (c : Chain) : Dev × Option (List Word64) :=
  let stuck := fun (d : Dev) => d.modChain c.key fun c => { c with stuck := true }
  match d.engWords c.die c.pid c.asid (c.ring + 64 * (c.head % 2 ^ c.logn)) 8 with
  | (d, .ok ws) => (d, some ws)
  | (d, .fault f) => (d.chainFault c stuck (some f), none)
  | (d, .ecc) => (d.chainFault c stuck none, none)

/-- HEAD passes an entry, and those that had completed before a resumption. -/
def Dev.takeEntry (d : Dev) (key : Nat) : Dev :=
  d.modChain key fun c => { c with head := leadFrom c.done c.done.length (c.head + 1) }

/-! ## The block transfer engine (R284) -/

/-- A malformed entry (R284). -/
def transferBad (ws : List Word64) : Bool :=
  let w := fun (k : Nat) => (ws.getD k 0).toNat
  let fill := bits (w 3) 1 1 == 1
  decide (2 ^ 48 ≤ w 0) || (!fill && w 0 % 16 != 0) || decide (2 ^ 48 ≤ w 1) || w 1 % 16 != 0 || w 2 % 16 != 0 ||
  decide (w 2 < 16) || decide (2 ^ 40 < w 2) || bits (w 3) 2 62 != 0 || decide (2 ^ 48 ≤ w 4) || w 4 % 8 != 0 ||
  (bits (w 3) 0 1 == 1 && w 4 == 0) || (ws.drop 5).any (· != 0)

/-- An entry as a copy of its chain. -/
def Chain.copyOf (c : Chain) (id : Nat) (ws : List Word64) : Copy :=
  let w := fun (k : Nat) => (ws.getD k 0).toNat
  { id, owner := .chain c.key c.head, core := c.tgt, pid := c.pid, asid := c.asid, pc := 0
    kind := if bits (w 3) 1 1 = 1 then .fill else .linear, src := .glob (w 0), dst := .glob (w 1), bytes := w 2
    left := [], next := 0, stop := w 2 / 16, got := [], crc := bits (w 3) 0 1 == 1
    fin := if w 4 = 0 then .none else .cnt (w 4), lane := 0, held := false }

/-- BLOCK_TRANSFER: an entry of the chain begins (R282, R284). -/
def execBlockTransfer (key : Nat) (s : State) : Res :=
  withEvent s fun d => do
    let c ← d.chain? key
    if c.eng ≠ 1 ∨ !c.takes then none
    else match d.readEntry c with
      | (d, none) => some d
      | (d, some ws) =>
        if transferBad ws then some (d.chainHalt key 2)
        else
          let (id, d) := d.newId
          some ({ d with copies := d.copies ++ [c.copyOf id ws] }.takeEntry key)

end Sys2Proof.Machine
end

