-- ==== Sys2Proof/Machine/Galliard.lean ====
section
/-! DEFINITION. Galliard: tableau and context records, steps, stages, events and dense output (R289 to R305, R309 to
R313), and the parts of Cittern's solves that a context drives. -/

namespace Sys2Proof.Machine

/-! ## FP64 under RNE -/

def dadd (a b : Word64) : Word64 := BitVec.ofNat 64 (addWord .rne f64 a.toNat b.toNat)
def dneg (a : Word64) : Word64 := BitVec.ofNat 64 (f64.negIf true a.toNat)
def dsub (a b : Word64) : Word64 := dadd a (dneg b)
def dmul (a b : Word64) : Word64 := BitVec.ofNat 64 (mulWord .rne f64 a.toNat b.toNat)
def dfma (a b c : Word64) : Word64 := BitVec.ofNat 64 (fmaWord .rne f64 a.toNat b.toNat c.toNat)
def ddiv (a b : Word64) : Word64 := BitVec.ofNat 64 (divWord .rne f64 a.toNat b.toNat)
def dsqrt (a : Word64) : Word64 := BitVec.ofNat 64 (sqrtWord .rne f64 a.toNat)
def dmin (a b : Word64) : Word64 := BitVec.ofNat 64 (f64.minMax false a.toNat b.toNat)
def dmax (a b : Word64) : Word64 := BitVec.ofNat 64 (f64.minMax true a.toNat b.toNat)
def dlt (a b : Word64) : Bool := f64.compare 2 a.toNat b.toNat
def dle (a b : Word64) : Bool := f64.compare 3 a.toNat b.toNat
def deq (a b : Word64) : Bool := f64.compare 0 a.toNat b.toNat
def dzero (a : Word64) : Bool := f64.mag a.toNat == 0
def dfinite (a : Word64) : Bool := decide (f64.mag a.toNat < f64.infWord)
def dsign (a : Word64) : Bool := f64.sgn a.toNat
def dabs (a : Word64) : Word64 := BitVec.ofNat 64 (f64.mag a.toNat)
def dnum (n : Nat) : Word64 := BitVec.ofNat 64 (f64.roundTo .rne false (FVal.ofInt n))
def done_ : Word64 := 0x3FF0000000000000
def dminusOne : Word64 := 0xBFF0000000000000
def dinf : Word64 := 0x7FF0000000000000

/-- r^p × v compared with 1, for a positive finite v. -/
def powerVs (p : Nat) (v : FVal) : FVal → Ordering
  | .fin false m e => match v with
    | .fin _ vm ve =>
      let x := m ^ p * vm
      let k : Int := p * e + ve
      if 0 ≤ k then compare (x * 2 ^ k.toNat) 1 else compare x (2 ^ (-k).toNat)
    | _ => .gt
  | .zero _ => .lt
  | _ => .gt

/-- The greatest word from `w` on, by its bits below `k`, whose power does not pass 1. -/
def rootFrom (p : Nat) (v : FVal) : (k w : Nat) → Nat
  | 0, w => w
  | k + 1, w => rootFrom p v k (if powerVs p v (f64.value (w + 2 ^ k)) == .gt then w else w + 2 ^ k)

/-- v^(−1/p), correctly rounded to nearest (R301). -/
def inverseRoot (p : Nat) (v : Word64) : Word64 :=
  let x := f64.value v.toNat
  let w := rootFrom p x 63 0
  let mid : FVal := match f64.value w with
    | .fin s m e => .fin s (2 * m + 1) (e - 1)
    | y => y
  BitVec.ofNat 64 (match powerVs p x mid with
    | .lt => w + 1
    | .eq => w + w % 2
    | .gt => w)

/-! ## Tableau records (R289 to R291) -/

def tabKind (h : Word64) : Nat := bits h.toNat 0 4
def tabS (h : Word64) : Nat := bits h.toNat 4 8
def tabDeg (h : Word64) : Nat := bits h.toNat 20 4

/-- Words of a tableau with this header. -/
def tabWords (h : Word64) : Nat :=
  let s := tabS h
  8 + 3 * s + s * s * (if tabKind h = 2 then 2 else 1) + s * tabDeg h

/-- A header that R289 or R290 refuses. -/
def tabHeaderBad (ws : List Word64) : Bool :=
  let h := ws.getD 0 0
  let f := bits h.toNat
  f 26 38 != 0 || (ws.drop 1).any (· != 0) || decide (2 < tabKind h) || tabS h == 0 || decide (16 < tabS h) || f 12 4 == 0 ||
  f 16 4 == 0 || f 16 4 == 15 || f 12 4 == f 16 4 || decide (7 < tabDeg h) || decide (512 < tabWords h)

def Ctx.tabWord (c : Ctx) (k : Nat) : Word64 := c.tab.getD k 0
def Ctx.tabField (c : Ctx) (lo n : Nat) : Nat := bits (c.tabWord 0).toNat lo n
def Ctx.s (c : Ctx) : Nat := tabS (c.tabWord 0)
def Ctx.kind (c : Ctx) : Nat := tabKind (c.tabWord 0)
def Ctx.imex (c : Ctx) : Bool := c.kind == 2
def Ctx.deg (c : Ctx) : Nat := tabDeg (c.tabWord 0)
def Ctx.fsal (c : Ctx) : Bool := c.tabField 24 1 == 1
/-- y_new is the last stage input: SA or FSAL. -/
def Ctx.lastIsNew (c : Ctx) : Bool := c.fsal || c.tabField 25 1 == 1
/-- The order that the step size follows: min(p, p̂) (R301). -/
def Ctx.q (c : Ctx) : Nat := min (c.tabField 12 4) (c.tabField 16 4)
def Ctx.cAt (c : Ctx) (j : Nat) : Word64 := c.tabWord (8 + j)
def Ctx.bAt (c : Ctx) (j : Nat) : Word64 := c.tabWord (8 + c.s + j)
def Ctx.bhAt (c : Ctx) (j : Nat) : Word64 := c.tabWord (8 + 2 * c.s + j)
def Ctx.aAt (c : Ctx) (j k : Nat) : Word64 := c.tabWord (8 + 3 * c.s + j * c.s + k)
def Ctx.aeAt (c : Ctx) (j k : Nat) : Word64 := c.tabWord (8 + 3 * c.s + c.s * c.s + j * c.s + k)
def Ctx.dAt (c : Ctx) (j k : Nat) : Word64 :=
  c.tabWord (8 + 3 * c.s + c.s * c.s * (if c.imex then 2 else 1) + j * c.deg + (k - 1))

/-- R291's refusals that the arrays show. -/
def Ctx.tableauBad (c : Ctx) : Bool :=
  let js := List.range c.s
  let pairs := js.flatMap fun j => js.map fun k => (j, k)
  (c.tab.drop 8).any (fun x => !dfinite x) ||
  pairs.any (fun (j, k) => decide (j < k) && !dzero (c.aAt j k)) ||
  (c.kind == 0 && js.any fun j => !dzero (c.aAt j j)) ||
  (c.imex && pairs.any fun (j, k) => decide (j ≤ k) && !dzero (c.aeAt j k)) ||
  (c.lastIsNew && js.any fun k => !deq (c.aAt (c.s - 1) k) (c.bAt k)) ||
  (c.fsal && (!deq (c.cAt (c.s - 1)) done_ || !dzero (c.aAt 0 0)))

/-- Stage j is solved by Newton iteration. -/
def Ctx.implicit (c : Ctx) (j : Nat) : Bool := !dzero (c.aAt j j)

/-- The first implicit stage. -/
def Ctx.implicit? (c : Ctx) : Option Nat := (List.range c.s).find? c.implicit

/-! ## Context records (R292, R293) -/

def Ctx.w (c : Ctx) (k : Nat) : Word64 := c.rec_.getD k 0
def Ctx.field (c : Ctx) (k lo n : Nat) : Nat := bits (c.w k).toNat lo n
def orDefault (x d : Nat) : Nat := if x = 0 then d else x
def Ctx.tend (c : Ctx) : Word64 := c.w 2
def Ctx.hmin (c : Ctx) : Word64 := c.w 4
def Ctx.hmax (c : Ctx) : Word64 := c.w 5
def Ctx.atv (c : Ctx) : Bool := c.field 11 33 1 == 1
def Ctx.rtv (c : Ctx) : Bool := c.field 11 34 1 == 1
def Ctx.mf (c : Ctx) : Bool := c.field 11 35 1 == 1
def Ctx.newt (c : Ctx) : Nat := orDefault (c.field 11 36 4) 4
def Ctx.maxrej (c : Ctx) : Nat := orDefault (c.field 11 40 8) 32
def Ctx.gm (c : Ctx) : Nat := orDefault (c.field 11 48 8) 16
def Ctx.y (c : Ctx) : Nat := c.field 12 0 48
def Ctx.vec (c : Ctx) (i : Nat) : Nat := c.field 13 0 48 + i * (c.field 13 48 16 * 16384)
def Ctx.rhs (c : Ctx) : Nat := c.field 14 0 16
def Ctx.rhsi (c : Ctx) : Nat := c.field 14 16 16
def Ctx.jacNode (c : Ctx) : Nat := c.field 14 32 16
def Ctx.evt (c : Ctx) : Nat := c.field 14 48 16
def Ctx.hasEvt (c : Ctx) : Bool := c.evt != 0xFFFF
def Ctx.cond (c : Ctx) : Nat := (c.w 15).toNat
def Ctx.ccnt (c : Ctx) : Nat := (c.w 16).toNat
def Ctx.ntol (c : Ctx) : Word64 := if c.w 18 = 0 then 0x3FB0000000000000 else c.w 18
def Ctx.etol (c : Ctx) : Word64 := c.w 19
def Ctx.tau (c : Ctx) : Word64 := if c.w 20 = 0 then 0x3D70000000000000 else c.w 20
def Ctx.budget (c : Ctx) : Nat := c.field 21 0 32
def Ctx.jmat (c : Ctx) : Nat := c.field 22 0 48
def Ctx.bytes (c : Ctx) : Nat := c.n * c.esz
/-- The stride of a Krylov area's vectors. -/
def Ctx.krylov (c : Ctx) : Nat := (8 * c.n + 16383) / 16384 * 16384

/-- A usable address of a 64-bit word. -/
def wordAddr (a : Nat) : Bool := a % 8 == 0 && decide (a < 2 ^ 48)

/-- A context field breaks R292: WHY 0x02. -/
def Ctx.recordBad (c : Ctx) : Bool :=
  let above0 := fun (x : Word64) => dlt 0 x
  let notBelow0 := fun (x : Word64) => dle 0 x
  let upTo1 := fun (x : Word64) => dlt 0 x && dle x done_
  c.addr % 256 != 0 || c.field 0 48 16 != 0 || !dlt (c.w 1) c.tend || !above0 (c.w 3) || !notBelow0 c.hmin || !dle c.hmin c.hmax ||
  !above0 c.hmax || !(c.atv || notBelow0 (c.w 6)) || !(c.rtv || notBelow0 (c.w 7)) || !upTo1 (c.w 8) || !upTo1 (c.w 9) ||
  !dle done_ (c.w 10) || c.field 11 56 8 != 0 || decide (64 < c.gm) || c.n == 0 || decide (2 ^ 28 < c.n) ||
  c.field 12 48 16 != 0 || c.y % 16384 != 0 || c.field 13 48 16 == 0 || decide (c.field 13 48 16 * 16384 < c.bytes) ||
  c.vec 0 % 16384 != 0 || !wordAddr c.cond || !wordAddr c.ccnt || c.field 21 32 32 != 0 || c.field 22 48 16 != 0 ||
  c.jmat % 16384 != 0 || (c.implicit?.isNone && c.jmat != 0) || c.w 23 != 0

/-- A node id breaks R295's 0x03. -/
def Dev.ctxNodesBad (d : Dev) (c : Ctx) : Bool :=
  let good := fun (n : Nat) => match d.liveNode? c.pid n with
    | some x => x.rsz == 64
    | none => false
  !good c.rhs || [c.rhsi, c.jacNode, c.evt].any (fun n => n != 0xFFFF && !good n) || (c.imex && c.rhsi == 0xFFFF) ||
  (c.hasEvt && c.deg == 0)

/-- Stage j's input has terms of its own. -/
def Ctx.hasInput (c : Ctx) (j : Nat) : Bool :=
  (List.range j).any fun k => !dzero (c.aAt j k) || (c.imex && !dzero (c.aeAt j k))

/-- The vectors a context uses: address, bytes, and what START needs of a page (R293; log 30). -/
def Ctx.vectors (c : Ctx) : List (Nat × Nat × Need) :=
  let js := List.range c.s
  let v := fun (i : Nat) => (c.vec i, c.bytes, Need.rw)
  let imp := c.implicit?.isSome
  [(c.y, c.bytes, Need.rw)] ++ (if c.atv then [((c.w 6).toNat, c.bytes, Need.r)] else []) ++
  (if c.rtv then [((c.w 7).toNat, c.bytes, Need.r)] else []) ++
  (js.filter fun j => c.implicit j || c.hasInput j).map v ++
  js.flatMap (fun j => [0, 1].map fun b => let i := 16 + 16 * b + j
    if !c.imex && c.implicit j then v i else (c.vec i, c.bytes, Need.r)) ++
  (if c.imex then js.flatMap fun j => [0, 1].map fun b => v (48 + 16 * b + j) else []) ++
  (if c.lastIsNew || js.all (fun j => dzero (c.bAt j)) then [] else [v 80]) ++
  (if js.all (fun j => dzero (c.bhAt j)) then [] else [v 81]) ++ (if imp || c.hasEvt then [v 82, v 83] else []) ++
  (if c.fsal then [v 84] else []) ++
  (if c.deg = 0 then [] else [0, 1].flatMap fun σ => (List.range (c.deg + 1)).map fun k => v (85 + 8 * σ + k)) ++
  (if imp && c.mf then (List.range (c.gm + 1)).map fun k => (c.jmat + k * c.krylov, 8 * c.n, Need.rw) else [])

/-- The pages of a range under a context's ASID, each as item 3 of R226 asks. -/
def Dev.ctxPages (d : Dev) (c : Ctx) (need : Need) (va n : Nat) : Dev × Eng (List Leaf) :=
  if 2 ^ 48 < va + n then (d, .fault (hardPerm va need.isW)) else
  (pagePieces va n).foldl (fun (acc : Dev × Eng (List Leaf)) (o, _) =>
    match acc with
    | (d, .ok ls) => match d.l2Translate (c.num / 64) c.pid c.asid (va + o) need with
      | (d, .ok l) =>
        if zitherPage (c.num / 64) l then (d, .ok (if ls.contains l then ls else ls ++ [l]))
        else (d, .fault (hardPerm (va + o) need.isW))
      | (d, .fault f) => (d, .fault f)
      | (d, .ecc) => (d, .ecc)
    | r => r) (d, .ok [])

/-- A fault that REPLAY_ALL may mend (R313, R316). -/
def MemFault.mendable (f : MemFault) : Bool := f.cause == .xlate || f.replay

/-- A breach of R293 that START finds: WHY 0x04. Every page is looked at, and one that may yet be mapped is passed over. -/
def Dev.vectorsBad (d : Dev) (c : Ctx) : Bool :=
  c.vectors.any (fun (a, n, need) => a % 16 != 0 || decide (2 ^ 48 < a + n) || (pagePieces a n).any fun (o, _) =>
    match (d.ctxPages c need (a + o) 1).2 with
    | .ok _ => false
    | .fault f => !f.mendable
    | .ecc => false) ||
  (let area := 16 * c.n * c.n + 4 * c.n
   c.implicit?.isSome && !c.mf && (decide (2 ^ 48 < c.jmat + area) || (pagePieces c.jmat area).any fun (o, _) =>
    match (d.l2Translate (c.num / 64) c.pid c.asid (c.jmat + o) .rw).2 with
    | .fault f => !f.mendable
    | _ => false))

/-- R295's 0x05. -/
def Ctx.solverBad (c : Ctx) : Bool := c.implicit?.isSome && !c.mf && (c.jacNode == 0xFFFF || decide (16384 < c.n))

/-! ## The end of a context, its faults, and what it writes (R295, R296, R313) -/

def Dev.modCtx (d : Dev) (num : Nat) (f : Ctx → Ctx) : Dev :=
  { d with ctxs := d.ctxs.map fun c => if c.num = num then f c else c }

def Ctx.running (c : Ctx) : Bool := c.status == 0x80

/-- The context ends: what it was doing stops, and its last words are to be written. -/
def Dev.endCtx (d : Dev) (num : Nat) (status why : BitVec 8) : Dev :=
  let d := { d with jobs := d.jobs.filter fun j => j.ctx != some num }
  d.modCtx num fun c =>
    if c.running then
      { c with status, why, phase := .publish 0, stages := [], round := none, acked := none, held := false
               recs := c.recs.filter (·.sent) }
    else c

def Ctx.where_ (c : Ctx) : Where := { src := .galliard, ctx := c.num, core := 0, grp := 0, pc := 0 }

/-- A failed access of Galliard's own: recorded and held, or the context's end with 0x11 (R313). -/
def Dev.ctxFault (d : Dev) (c : Ctx) (f? : Option MemFault) : Dev :=
  match f? with
  | some f =>
    if f.mendable then (d.recordFault c.pid f 0 c.where_).modCtx c.num fun c => { c with held := true }
    else d.endCtx c.num 6 0x11
  | none => d.endCtx c.num 6 0x11

/-- The condition word (R295). -/
def Ctx.condWord (c : Ctx) : Word64 :=
  BitVec.ofNat 64 (c.nacc.toNat * 2 ^ 32 + c.why.toNat * 2 ^ 16 + (if c.nfail then 2 ^ 10 else 0) + (if c.dln then 2 ^ 9 else 0) +
    (if c.piv then 2 ^ 8 else 0) + c.status.toNat)

/-- The status block from T on (R292). -/
def Ctx.block (c : Ctx) : List Byte :=
  [c.t, c.hOld, c.hNext, c.err, c.tev, 0#16 ++ c.att ++ c.nrej, 0].flatMap wordBytes

/-- An access of Galliard's; a failure that no replay mends is passed over once the context is ending. -/
def Dev.ctxWrite (d : Dev) (c : Ctx) (r : Dev × Eng Unit) (next : Dev → Dev) : Dev :=
  match r with
  | (d, .ok _) => next d
  | (d', .fault f) => if f.mendable || c.running then d'.ctxFault c (some f) else next d
  | (d', .ecc) => if c.running then d'.ctxFault c none else next d

/-- The condition word and its copy; none of a context whose record could not be read. -/
def Dev.writeCond (d : Dev) (c : Ctx) : Dev × Eng Unit :=
  let put := fun (d : Dev) (ok : Bool) (a : Nat) =>
    if ok && !c.rec_.isEmpty then d.engWrite (c.num / 64) c.pid c.asid a (wordBytes c.condWord) else (d, .ok ())
  match put d (wordAddr c.cond) c.cond with
  | (d, .ok _) => put d (c.addr % 256 == 0) (c.addr + 0xC0)
  | r => r

/-- CCNT rises by 1 (R296). -/
def Dev.countDone (d : Dev) (c : Ctx) : Dev × Eng Unit :=
  let die := c.num / 64
  if wordAddr c.ccnt && !c.rec_.isEmpty then
    match d.engWord die c.pid c.asid c.ccnt with
    | (d, .ok x) => d.engWrite die c.pid c.asid c.ccnt (wordBytes (x + 1))
    | (d, .fault f) => (d, .fault f)
    | (d, .ecc) => (d, .ecc)
  else (d, .ok ())

/-- Every call of the context has been acknowledged, and its writes have performed. -/
def Dev.ctxQuiet (d : Dev) (num : Nat) : Bool :=
  decide (d.settle < d.cycle) && !d.rounds.any fun r => match r.owner with
    | .context n => n == num
    | .team _ => false

/-- One of the writes of R296, in their order. -/
def Dev.publish (d : Dev) (c : Ctx) (n : Nat) : Dev :=
  let go := fun (p : CtxPhase) (d : Dev) => d.modCtx c.num fun c => { c with phase := p }
  match n with
  | 0 =>
    let r := if c.addr % 256 = 0 ∧ !c.rec_.isEmpty then d.engWrite (c.num / 64) c.pid c.asid (c.addr + 0xC8) c.block else (d, .ok ())
    d.ctxWrite c r (go (.publish 1))
  | 1 => d.ctxWrite c (d.writeCond c) fun d =>
      let d := match c.start with
        | some e => d.chainDone c.chain e
        | none => d
      let next := if !c.running then .publish 2 else if c.start.isSome && c.hasEvt then .event0 else .begin
      d.modCtx c.num fun c => { c with phase := next, start := none }
  | _ => d.ctxWrite c (d.countDone c) (go .ended)

/-! ## Records (R298) -/

/-- A record the context has to send. -/
def Ctx.send (c : Ctx) (kind stage node : Nat) (t : Word64) (ya ka : Nat) (h : Word64) : Ctx :=
  let w0 := c.att.toNat * 2 ^ 32 + (if c.dbl then 2 ^ 19 else 0) + kind * 2 ^ 16 + stage * 2 ^ 8 + c.num
  { c with
    recs := c.recs ++ [{ idx := c.nextRec, att := c.att, kind, stage, node
                         words := [BitVec.ofNat 64 w0, t, BitVec.ofNat 64 ya, BitVec.ofNat 64 ka, BitVec.ofNat 64 c.n, c.w 17, h, 0]
                         sent := false, entering := false, back := false, lost := false }]
    nextRec := c.nextRec + 1 }

/-- A record enters its node; none while it cannot. A node that has been destroyed ends the context (R295). -/
def Dev.sendRec (d : Dev) (c : Ctx) (r : CtxRec) : Option Dev :=
  if (d.liveNode? c.pid r.node).isNone ∧ !r.entering then some (d.endCtx c.num 6 3)
  else if !d.ctxQuiet c.num || !d.nodeRoom r.node then none
  else match d.enterRecord r.node (r.words.flatMap wordBytes) (some (c.num, r.idx)) with
    | (d, .noRoom) => some d
    | (d, _) => some (d.modCtx c.num fun c =>
        { c with recs := c.recs.map fun x => if x.idx = r.idx then { x with sent := true } else x })

/-! ## Calls (R297) -/

/-- A call of the library: its entry, its arguments, and COMBN's list. -/
structure ZAsk where
  ent   : Nat
  args  : List Word64
  list  : List Nat
  coefs : List Word64

def addr64 (a : Nat) : Word64 := BitVec.ofNat 64 a

def askFill (dst : Nat) : ZAsk := ⟨0, [addr64 dst, 0], [], []⟩
def askCopy (dst src : Nat) : ZAsk := ⟨1, [addr64 dst, addr64 src], [], []⟩
def askAxpby (dst x y : Nat) (a b : Word64) : ZAsk := ⟨3, [addr64 dst, addr64 x, addr64 y, a, b], [], []⟩

/-- v ← u + Σ γ_j x_j: at most 15 terms a call (R297). -/
def askCombine (dst : Nat) : (fuel : Nat) → (u : Nat) → List (Word64 × Nat) → List ZAsk
  | 0, _, _ => []
  | _, _, [] => []
  | fuel + 1, u, ts =>
    ⟨4, [addr64 dst, addr64 u], (ts.take 15).map (·.2), (ts.take 15).map (·.1)⟩ :: askCombine dst fuel dst (ts.drop 15)

def combine (dst u : Nat) (ts : List (Word64 × Nat)) : List ZAsk := askCombine dst ts.length u ts

/-- WRMS with the context's tolerances (R300). -/
def Ctx.askNorm (c : Ctx) (y yh : Nat) : ZAsk :=
  ⟨5, [addr64 y, addr64 yh, c.w 6, c.w 7, BitVec.ofNat 64 ((if c.atv then 1 else 0) + (if c.rtv then 2 else 0))], [], []⟩

/-- Which arguments of a call are read as vectors, and which is written. -/
def ZAsk.reads (a : ZAsk) (c : Ctx) : List Nat :=
  match a.ent with
  | 0 => []
  | 3 => [1, 2]
  | 5 => [0, 1] ++ (if c.atv then [2] else []) ++ (if c.rtv then [3] else [])
  | _ => [1]

def ZAsk.writes (a : ZAsk) : List Nat := if a.ent = 5 then [] else [0]

/-- Vectors of a call, each with its argument's number. -/
def Dev.ctxVecs (d : Dev) (c : Ctx) (need : Need) (l : List (Nat × Nat)) : Dev × Eng (List (Nat × ZVec)) :=
  l.foldl (fun (acc : Dev × Eng (List (Nat × ZVec))) (k, va) =>
    match acc with
    | (d, .ok vs) => match d.ctxPages c need va c.bytes with
      | (d, .ok pages) => (d, .ok (vs ++ [(k, { va, pages })]))
      | (d, .fault f) => (d, .fault f)
      | (d, .ecc) => (d, .ecc)
    | r => r) (d, .ok [])

/-- A call as the units take it up. -/
def Dev.askCall (d : Dev) (c : Ctx) (a : ZAsk) : Dev × Eng ZCall :=
  let at_ := fun (k : Nat) => (k, (a.args.getD k 0).toNat)
  match d.ctxVecs c .r ((a.reads c).map at_) with
  | (d, .fault f) => (d, .fault f)
  | (d, .ecc) => (d, .ecc)
  | (d, .ok reads) => match d.ctxVecs c .r (a.list.map fun va => (0, va)) with
    | (d, .fault f) => (d, .fault f)
    | (d, .ecc) => (d, .ecc)
    | (d, .ok list) => match d.ctxVecs c .w (a.writes.map at_) with
      | (d, .fault f) => (d, .fault f)
      | (d, .ecc) => (d, .ecc)
      | (d, .ok writes) => (d, .ok {
          id := 0, by_ := none, sender := 0, pc := 0, ent := a.ent, dbl := c.dbl, args := a.args, len := c.n, rows := 1, stride := 0
          reads, list := list.map (·.2), coefs := a.coefs, writes, area := none, arrive := none, started := false, left := [], got := []
          out := [], ended := false, sums := [] })

/-- A round of the context: its calls, closed at once (R297). -/
def Dev.ctxRound (d : Dev) (c : Ctx) (what : RoundFor) (asks : List ZAsk) : Dev :=
  let r := asks.foldl (fun (acc : Dev × Eng (List ZCall)) a =>
    match acc with
    | (d, .ok cs) => match d.askCall c a with
      | (d, .ok x) => (d, .ok (cs ++ [x]))
      | (d, .fault f) => (d, .fault f)
      | (d, .ecc) => (d, .ecc)
    | r => r) (d, .ok [])
  match r with
  | (d, .fault f) => d.ctxFault c (some f)
  | (d, .ecc) => d.ctxFault c none
  | (d, .ok calls) =>
    let d := calls.foldl (fun d x => d.joinRound (.context c.num) (c.num / 64) x) d
    let close : Round → Round := fun r => if r.owner = .context c.num ∧ r.closedAt.isNone then { r with closedAt := some d.cycle } else r
    { d with rounds := d.rounds.map close }.modCtx c.num fun c => { c with round := some what, acked := none }

/-- ERRNORM's result from the 64 partials (R300). -/
def Ctx.norm (c : Ctx) (sums : List Word64) : Word64 :=
  let e := dsqrt (ddiv (sums.foldl dadd 0) (dnum c.n))
  if (f64.value e.toNat).isNan then dinf else e

/-! ## Combinations of an attempt (R299) -/

def Ctx.beta (c : Ctx) : Nat := c.att.toNat % 2

/-- K_k, which FSAL takes from the step before (R299). -/
def Ctx.kAt (c : Ctx) (k : Nat) : Nat := if c.fsal && c.nacc != 0 && k == 0 then c.vec 84 else c.vec (16 + 16 * c.beta + k)

def Ctx.kiAt (c : Ctx) (k : Nat) : Nat := c.vec (48 + 16 * c.beta + k)

/-- The result of stage j's solve: KI_j of an IMEX pair, else K_j (R304). -/
def Ctx.kSolve (c : Ctx) (j : Nat) : Nat := if c.imex then c.kiAt j else c.kAt j

/-- (h·x) times a vector, left out when the coefficient is zero (R297). -/
def Ctx.term (c : Ctx) (x : Word64) (va : Nat) : List (Word64 × Nat) := if dzero (dmul c.h x) then [] else [(dmul c.h x, va)]

/-- X_j less y. -/
def Ctx.stageTerms (c : Ctx) (j : Nat) : List (Word64 × Nat) :=
  (List.range j).flatMap fun k =>
    if c.imex then c.term (c.aeAt j k) (c.kAt k) ++ c.term (c.aAt j k) (c.kiAt k) else c.term (c.aAt j k) (c.kAt k)

/-- A weighted sum of every stage's right-hand side. -/
def Ctx.weighted (c : Ctx) (f : Nat → Word64) : List (Word64 × Nat) :=
  (List.range c.s).flatMap fun k => c.term (f k) (c.kAt k) ++ (if c.imex then c.term (f k) (c.kiAt k) else [])

/-- Where Y_j lies (R299). -/
def Ctx.yAt (c : Ctx) (j : Nat) : Nat := if c.implicit j || !(c.stageTerms j).isEmpty then c.vec j else c.y

/-- Where y_new lies. -/
def Ctx.newAt (c : Ctx) : Nat := if c.lastIsNew then c.yAt (c.s - 1) else if (c.weighted c.bAt).isEmpty then c.y else c.vec 80

def Ctx.hatAt (c : Ctx) : Nat := if (c.weighted c.bhAt).isEmpty then c.y else c.vec 81

/-- t_j (R299). -/
def Ctx.tAt (c : Ctx) (j : Nat) : Word64 := dfma (c.cAt j) c.h c.t

/-- γ of an implicit stage (R304). -/
def Ctx.gammaAt (c : Ctx) (j : Nat) : Word64 := dmul c.h (c.aAt j j)

/-- X_j formed in W1, and where it then lies. -/
def Ctx.askX (c : Ctx) (j : Nat) : List ZAsk × Nat :=
  if (c.stageTerms j).isEmpty then ([], c.y) else (combine (c.vec 83) c.y (c.stageTerms j), c.vec 83)

/-- y(t) by R309 in `dst`, over the last step. -/
def Ctx.askDense (c : Ctx) (dst : Nat) (t : Word64) : List ZAsk :=
  let σ := (c.nacc - 1).toNat % 2
  let q := fun (k : Nat) => c.vec (85 + 8 * σ + k)
  let θ := ddiv (dsub t c.tOld) c.hOld
  askCopy dst (q c.deg) :: (List.range c.deg).reverse.map fun k => askAxpby dst dst (q k) θ done_

/-! ## Judging and acceptance (R301, R302) -/

/-- The greatest growth of this attempt. -/
def Ctx.facmax (c : Ctx) : Word64 := if c.rejs = 0 then c.w 10 else done_

/-- The factor f of R301. -/
def Ctx.factor (c : Ctx) (err : Word64) : Word64 :=
  if dzero err then c.facmax
  else if err = dinf then c.w 9
  else dmin c.facmax (dmax (c.w 9) (dmul (c.w 8) (inverseRoot (c.q + 1) err)))

/-- A rejection that proposes `h2`; STEP_FAIL when it is one too many (R301). -/
def Dev.reject (d : Dev) (c : Ctx) (h2 : Word64) : Dev :=
  let h := dmin h2 c.rem
  let c := { c with nrej := satAdd32 c.nrej, rejs := c.rejs + 1, h }
  let fails := decide (c.maxrej < c.rejs) || (dlt h c.hmin && !deq h c.rem)
  let d := { d with jobs := d.jobs.filter fun j => j.ctx != some c.num }
  let d := d.modCtx c.num fun _ => { c with phase := .begin, stages := [], recs := c.recs.filter (·.sent), round := none, acked := none }
  if fails then d.endCtx c.num 1 0 else d

/-- The calls of an acceptance, items 1 to 3 of R302. -/
def Ctx.askAccept (c : Ctx) : List ZAsk :=
  let σ := c.nacc.toNat % 2
  let q := fun (k : Nat) => c.vec (85 + 8 * σ + k)
  (if c.deg = 0 then [] else
    askCopy (q 0) c.y :: (List.range c.deg).flatMap fun k =>
      askFill (q (k + 1)) :: combine (q (k + 1)) (q (k + 1)) (c.weighted fun j => c.dAt j (k + 1))) ++
  (if c.fsal then [askCopy (c.vec 84) (c.kAt (c.s - 1))] else []) ++ [askCopy c.y c.newAt]

/-- An attempt is judged (R301). -/
def Dev.judgeAttempt (d : Dev) (c : Ctx) (err : Word64) : Dev :=
  let passes := dlt c.rem c.h
  let h2 := dmin (dmul c.h (c.factor err)) c.hmax
  let c := { c with err }
  if dle err done_ && !passes then
    d.modCtx c.num fun _ => { c with phase := .accepting, h2, round := none, acked := none }
  else d.reject c (if dle err done_ then c.rem else h2)

/-- Items 4 and 5 of R302, up to the event function. -/
def Ctx.accepted (c : Ctx) : Ctx :=
  let t := if deq c.h c.rem then c.tend else dadd c.t c.h
  let c := { c with
    tOld := c.t, hOld := c.h, hNext := c.h2, tNew := t, t, h := dmin c.h2 (dsub c.tend t), nacc := c.nacc + 1, rejs := 0, stages := [] }
  if c.hasEvt then { c.send 4 0 c.evt t c.y (c.vec 83) c.hOld with phase := .eventEnd } else { c with phase := .publish 0 }

/-- Item 6 of R302: the condition word is to be written, with OK at TEND. -/
def Dev.afterStep (d : Dev) (c : Ctx) : Dev :=
  if deq c.t c.tend then d.endCtx c.num 0 0 else d.modCtx c.num fun c => { c with phase := .publish 0 }

/-! ## Events (R310) -/

/-- Opposite signs, or a zero at the step's end. -/
def eventIn (gOld gNew : Word64) : Bool := dzero gNew || (dlt gOld 0 && dlt 0 gNew) || (dlt 0 gOld && dlt gNew 0)

def Locate.more (l : Locate) (etol : Word64) : Bool := decide (l.iter < 64) && dlt etol (dsub l.b l.a)

/-- The next point of the Illinois method. -/
def Locate.point (l : Locate) : Word64 := dsub l.b (ddiv (dmul l.gb (dsub l.b l.a)) (dsub l.gb l.ga))

/-- The bracket after g has come back at tc. -/
def Locate.next (l : Locate) (gc : Word64) : Locate :=
  let half := fun (x : Word64) => ddiv x 0x4000000000000000
  if dsign gc = dsign l.gb then
    { l with b := l.tc, gb := gc, ga := if l.side = some true then half l.ga else l.ga, side := some true, iter := l.iter + 1 }
  else { l with a := l.tc, ga := gc, gb := if l.side = some false then half l.gb else l.gb, side := some false, iter := l.iter + 1 }

/-- The end of the bracket with the smaller |g|, the earlier on ties. -/
def Locate.best (l : Locate) : Word64 := if dlt (dabs l.gb) (dabs l.ga) then l.b else l.a

/-- The event is at `t`: y is moved there unless it stands there, and the context ends with EVENT. -/
def Dev.eventAt (d : Dev) (c : Ctx) (t : Word64) (move : Bool) : Dev :=
  let d := d.modCtx c.num fun _ => { c with t, tev := t, hNext := dsub t c.tOld, phase := .placing }
  if move then d else d.endCtx c.num 2 0

/-- The event function's value has come back. -/
def Dev.gotEvent (d : Dev) (c : Ctx) (g : Word64) : Dev :=
  match c.phase with
  | .event0 => d.modCtx c.num fun c => { c with gOld := some g, phase := .begin }
  | .eventEnd =>
    let old := c.gOld.getD 0
    if dzero g then d.eventAt { c with gNew := g } c.t false
    else if eventIn old g then
      let l : Locate := { a := c.tOld, ga := old, b := c.t, gb := g, side := none, tc := 0, iter := 0 }
      d.modCtx c.num fun c => { c with gNew := g, phase := .locating l }
    else d.afterStep { c with gOld := some g, gNew := g } |>.modCtx c.num fun c => { c with gOld := some g, gNew := g }
  | .locating l =>
    if dzero g then d.eventAt c l.tc true else d.modCtx c.num fun c => { c with phase := .locating (l.next g) }
  | _ => d

/-! ## Stages (R299, R304, R305) -/

def Ctx.modStage (c : Ctx) (j : Nat) (f : StageRun → StageRun) : Ctx :=
  { c with stages := c.stages.map fun r => if r.stage = j then f r else r }

def Ctx.toPhase (c : Ctx) (j : Nat) (p : StagePhase) : Ctx := c.modStage j fun r => { r with phase := p }

def Ctx.stageDone (c : Ctx) (j : Nat) : Bool := c.stages.any fun r => r.stage == j && r.phase == .done

/-- Every K that row j uses is complete. -/
def Ctx.stageFree (c : Ctx) (j : Nat) : Bool :=
  (List.range j).all fun k => c.stageDone k || !(!dzero (c.aAt j k) || (c.imex && !dzero (c.aeAt j k)))

/-- A stage holds W0 and W1. -/
def StagePhase.holds : StagePhase → Bool
  | .solving | .cittern | .gmres | .product | .solved => true
  | _ => false

/-- Stage j's input stands at Y_j: its evaluation begins. -/
def Ctx.inputReady (c : Ctx) (j : Nat) : Ctx :=
  if c.implicit j then
    let c := (c.send 1 j (if c.imex then c.rhsi else c.rhs) (c.tAt j) (c.yAt j) (c.kSolve j) c.h).modStage j fun r =>
      { r with phase := .newtonEval, m := 1 }
    if !c.mf && c.jac.isNone then
      { c.send 3 j c.jacNode c.t c.y c.jmat c.h with jac := some false }
    else c
  else (c.send 0 j c.rhs (c.tAt j) (c.yAt j) (c.kAt j) c.h).toPhase j .evaluating

/-- KI_j of a stage that needs no solve. -/
def Ctx.askImplicitPart (c : Ctx) (j : Nat) : Ctx :=
  (c.send 0 j c.rhsi (c.tAt j) (c.yAt j) (c.kiAt j) c.h).toPhase j .implicitPart

/-- A job for Cittern, for a stage of the context. -/
def Dev.addJob (d : Dev) (c : Ctx) (op : Nat) : Dev :=
  let (id, d) := d.newId
  { d with jobs := d.jobs ++ [{
      id, die := c.num / 64, chain := none, ctx := some c.num, pid := c.pid, asid := c.asid, op, words := [], held := false }] }

/-- What a stage does next, if anything. -/
def Dev.stageStep (d : Dev) (c : Ctx) (r : StageRun) : Option Dev :=
  let j := r.stage
  let idle := c.round.isNone
  let set := fun (d : Dev) (c : Ctx) => d.modCtx c.num fun _ => c
  let works := c.stages.any fun x => x.stage != j && x.phase.holds
  match r.phase with
  | .forming =>
    if !c.stageFree j then none
    else if c.implicit j then
      if idle then some (d.ctxRound c (.input j)
        (if (c.stageTerms j).isEmpty then [askCopy (c.vec j) c.y] else combine (c.vec j) c.y (c.stageTerms j)))
      else none
    else if (c.stageTerms j).isEmpty then some (set d (c.inputReady j))
    else if idle then some (d.ctxRound c (.input j) (combine (c.vec j) c.y (c.stageTerms j))) else none
  | .residual =>
    if idle && !works then
      let (xs, x) := c.askX j
      some (d.ctxRound c (.residual j)
        (xs ++ combine (c.vec 82) (c.vec j) [(dminusOne, x), (dneg (c.gammaAt j), c.kSolve j)]))
    else none
  | .solving =>
    if c.mf then some (set d { c.toPhase j .gmres with gmres := none })
    else if c.jac ≠ some true then none
    else some ((set d (c.toPhase j .cittern)).addJob c (if c.gamma = some (c.gammaAt j) then 2 else 1))
  | .solved =>
    if idle then some (d.ctxRound c (.update j)
      (combine (c.vec 82) (c.vec j) [(dminusOne, c.vec 83)] ++ [c.askNorm (c.vec 82) (c.vec j), askCopy (c.vec j) (c.vec 82)]))
    else none
  | .slope =>
    if idle && !works then
      let (xs, x) := c.askX j
      let γ := c.gammaAt j
      some (d.ctxRound c (.slope j) (xs ++ [askAxpby (c.kSolve j) (c.vec j) x (ddiv done_ γ) (ddiv dminusOne γ)]))
    else none
  | _ => none

/-- A Newton iterate has been judged (R304). -/
def Dev.newtonJudged (d : Dev) (c : Ctx) (j : Nat) (dist : Word64) : Dev :=
  let m := ((c.stages.find? fun r => r.stage == j).map (·.m)).getD 0
  if dle dist c.ntol then d.modCtx c.num fun _ => c.toPhase j .slope
  else if m < c.newt then
    d.modCtx c.num fun _ =>
      (c.send 1 j (if c.imex then c.rhsi else c.rhs) (c.tAt j) (c.yAt j) (c.kSolve j) c.h).modStage j fun r =>
        { r with phase := .newtonEval, m := m + 1 }
  else d.reject { c with nfail := true } (ddiv c.h 0x4010000000000000)

/-- A round of the context has been acknowledged. -/
def Dev.roundBack (d : Dev) (c : Ctx) (what : RoundFor) (sums : List Word64) : Dev :=
  let c := { c with round := none, acked := none }
  let set := fun (c : Ctx) => d.modCtx c.num fun _ => c
  match what with
  | .input j => set (c.inputReady j)
  | .residual j => set (c.toPhase j .solving)
  | .update j => d.newtonJudged c j (c.norm sums)
  | .slope j =>
    if c.imex then set ((c.send 0 j c.rhs (c.tAt j) (c.yAt j) (c.kAt j) c.h).toPhase j .explicitPart) else set (c.toPhase j .done)
  | .judge => d.judgeAttempt c (c.norm sums)
  | .accept =>
    let c := c.accepted
    if c.hasEvt then set c else (set c).afterStep c
  | .probe => match c.phase with
    | .locating l => set (c.send 4 0 c.evt l.tc (c.vec 82) (c.vec 83) c.hOld)
    | _ => set c
  | .place => (set c).endCtx c.num 2 0

/-- What a context does next of itself, if anything. -/
def Dev.ctxStep (d : Dev) (c : Ctx) : Option Dev :=
  if c.held then none
  else match c.phase with
  | .ended => none
  | .publish n => if d.ctxQuiet c.num then some (d.publish c n) else none
  | p =>
    match (c.recs.find? fun r => !r.sent).bind fun r => d.sendRec c r with
    | some d => some d
    | none => match c.round, c.acked with
      | some what, some (nerr, sums) => some (if nerr ≠ 0 then d.ctxFault c none else d.roundBack c what sums)
      | r, _ => match p with
        | .stages => match c.stages.findSome? (d.stageStep c) with
          | some d => some d
          | none => if c.stages.all (·.phase == .done) then some (d.modCtx c.num fun c => { c with phase := .judging }) else none
        | .judging =>
          if r.isSome then none else some (d.ctxRound c .judge (
            (if c.lastIsNew then [] else combine (c.vec 80) c.y (c.weighted c.bAt)) ++
            combine (c.vec 81) c.y (c.weighted c.bhAt) ++ [c.askNorm c.newAt c.hatAt]))
        | .accepting => if r.isSome then none else some (d.ctxRound c .accept c.askAccept)
        | .event0 =>
          if c.recs.any (·.kind == 4) then none
          else some (d.modCtx c.num fun _ => c.send 4 0 c.evt c.t c.y (c.vec 83) c.h)
        | .locating l =>
          if r.isSome || c.recs.any (·.kind == 4) then none
          else if l.more c.etol then
            let l := { l with tc := l.point }
            let c := { c with phase := .locating l }
            some ((d.modCtx c.num fun _ => c).ctxRound c .probe (c.askDense (c.vec 82) l.tc))
          else some (d.eventAt c l.best true)
        | .placing => if r.isSome then none else some (d.ctxRound c .place (c.askDense c.y c.tev))
        | _ => none

/-! ## The steps (R294, R299, R303, R311) -/

/-- A new context, before its record has been checked. -/
def Chain.newCtx (ch : Chain) (slot addr : Nat) (rec_ tab : List Word64) : Ctx :=
  let w := fun (k : Nat) => rec_.getD k 0
  { num := ch.tgt * 64 + slot, chain := ch.key, pid := ch.pid, asid := ch.asid, addr, rec_, tab, phase := .publish 0
    start := some ch.head, att := 0, t := w 1, h := dmin (w 3) (w 5), rem := 0, h2 := 0, hNext := 0, tOld := 0, hOld := 0, tNew := 0, nacc := 0
    nrej := 0, rejs := 0, nfail := false, dln := false, piv := false, status := 0x80, why := 0, stages := [], jac := none
    gamma := none, gmres := none, recs := [], nextRec := 0, gOld := none, gNew := 0, err := 0, tev := 0, round := none, acked := none
    held := false }

/-- The entry's fields: OP, CTX and SLOT; none when malformed (R294). -/
def galliardEntry (ws : List Word64) : Option (Nat × Nat × Nat) :=
  let w := fun (k : Nat) => (ws.getD k 0).toNat
  if (w 0 = 1 ∨ w 0 = 2) ∧ w 1 < 2 ^ 48 ∧ (w 0 = 1 ∨ w 1 = 0) ∧ w 2 < 64 ∧ (ws.drop 3).all (· == 0) then some (w 0, w 1, w 2)
  else none

/-- The lowest code of R295's table that the checks of START give, 0 where they pass. -/
def Dev.startWhy (d : Dev) (c : Ctx) (tabOk : Bool) : BitVec 8 :=
  if !tabOk || c.tableauBad then 1
  else if c.recordBad then 2
  else if d.ctxNodesBad c then 3
  else if d.vectorsBad c then 4
  else if c.solverBad then 5
  else 0

/-- The tableau at an address: its words; empty when its header is refused. -/
def Dev.readTableau (d : Dev) (ch : Chain) (a : Nat) : Dev × Eng (List Word64) :=
  if a % 64 ≠ 0 then (d, .ok [])
  else match d.engWords ch.die ch.pid ch.asid a 8 with
    | (d, .ok hs) => if tabHeaderBad hs then (d, .ok []) else d.engWords ch.die ch.pid ch.asid a (tabWords (hs.getD 0 0))
    | r => r

/-- START (R294): the record and the tableau are read and checked; a failed read is held, or ends the context with 0x11
(R313). -/
def Dev.startCtx (d : Dev) (ch : Chain) (a slot : Nat) : Dev :=
  let enter := fun (d : Dev) (c : Ctx) =>
    ({ d with ctxs := d.ctxs.filter (fun x => x.num != c.num) ++ [c] } : Dev).takeEntry ch.key
  let fails := fun (d : Dev) (ws : List Word64) (f? : Option MemFault) =>
    let c := ch.newCtx slot a ws []
    match f?.filter (·.mendable) with
    | some f => (d.recordFault ch.pid f 0 c.where_).modChain ch.key fun x => { x with stuck := true }
    | none => enter d { c with status := 6, why := 0x11 }
  match d.engWords ch.die ch.pid ch.asid a 24 with
  | (d, .fault f) => fails d [] (some f)
  | (d, .ecc) => fails d [] none
  | (d, .ok ws) => match d.readTableau ch (bits (ws.getD 0 0).toNat 0 48) with
    | (d, .fault f) => fails d ws (some f)
    | (d, .ecc) => fails d ws none
    | (d, .ok tab) =>
      let c := ch.newCtx slot a ws tab
      let why := d.startWhy c (!tab.isEmpty)
      enter d (if why = 0 then c else { c with status := 6, why })

/-- GALLIARD_START: the START at the head of a chain, or an entry that its chain cannot take (R294). -/
def execGalliardStart (key : Nat) (s : State) : Res :=
  withEvent s fun d => do
    let ch ← d.chain? key
    if ch.eng ≠ 3 ∨ !ch.takes then none
    else match d.readEntry ch with
      | (d, none) => some d
      | (d, some ws) => match galliardEntry ws with
        | none => some (d.chainHalt key 2)
        | some (op, a, slot) =>
          if op ≠ 1 then none
          else match d.ctx? (ch.tgt * 64 + slot) with
            | none => some (d.startCtx ch a slot)
            | some c =>
              if c.running then some (d.chainHalt key 0x10)
              else if c.phase = .ended ∧ c.recs.isEmpty ∧ !d.dense.any (fun r => r.ctx == c.num && r.served) then
                some (d.startCtx ch a slot)
              else none

/-- GALLIARD_STOP: the STOP at the head of a chain (R294). -/
def execGalliardStop (key : Nat) (s : State) : Res :=
  withEvent s fun d => do
    let ch ← d.chain? key
    if ch.eng ≠ 3 ∨ !ch.takes then none
    else match d.readEntry ch with
      | (_, none) => none
      | (d, some ws) => match galliardEntry ws with
        | some (2, _, slot) => some (((d.endCtx (ch.tgt * 64 + slot) 6 0x10).takeEntry key).chainDone key ch.head)
        | _ => none

/-- GALLIARD_ATTEMPT: an attempt begins (R299). Stage 0 of an FSAL step is not evaluated: KI_0 of an IMEX pair stays as its
bank holds it (log 29). -/
def execGalliardAttempt (num : Nat) (s : State) : Res :=
  withEvent s fun d => do
    let c ← d.ctx? num
    if c.phase ≠ .begin ∨ c.held ∨ c.recs.any (fun r => r.att == c.att - 1) then none
    else
      let c := { c with
        att := c.att + 1, rem := dsub c.tend c.t, phase := .stages, jac := none, gamma := none
        stages := (List.range c.s).map fun j => { stage := j, m := 0, phase := .forming } }
      let c := if c.fsal && c.nacc != 0 then c.toPhase 0 .done else c
      let r := d.engWrite (c.num / 64) c.pid c.asid (c.addr + 0xC8) c.block
      some (d.ctxWrite c r fun d => d.modCtx num fun _ => c)

/-- What a retired record of the current attempt brings. -/
def Dev.recordIn (d : Dev) (c : Ctx) (r : CtxRec) : Dev :=
  let set := fun (c : Ctx) => d.modCtx c.num fun _ => c
  let j := r.stage
  let p := ((c.stages.find? fun x => x.stage == j).map (·.phase)).getD .done
  match r.kind with
  | 0 => if c.imex && p == .evaluating then set (c.askImplicitPart j) else set (c.toPhase j .done)
  | 1 => set (c.toPhase j .residual)
  | 2 => set (c.toPhase j .gmres)
  | 3 => set { c with jac := some true }
  | _ => set c

/-- RECORD_RETIRE: a record of a context has retired (R298, R303, R310). -/
def execRecordRetire (num idx : Nat) (s : State) : Res :=
  withEvent s fun d => do
    let c ← d.ctx? num
    let r ← c.recs.find? fun r => r.idx == idx
    if !r.back || c.held then none
    else
      let left := { c with recs := c.recs.filter fun x => x.idx != idx }
      let gone := d.modCtx num fun _ => left
      if !c.running ∨ r.att ≠ c.att then some gone
      else if r.lost then some (gone.endCtx num 6 0x13)
      else if r.kind = 4 then
        some (match d.engWord (num / 64) c.pid c.asid (c.vec 83) with
          | (d, .ok g) => (d.modCtx num fun _ => left).gotEvent left g
          | (d, .fault f) => d.ctxFault c (some f)
          | (d, .ecc) => d.ctxFault c none)
      else some (gone.recordIn left r)

/-- The elements of y(t) over the last step (R309). -/
def Dev.denseElems (d : Dev) (c : Ctx) (t : Word64) : Dev × Eng (List Nat) :=
  let σ := (c.nacc - 1).toNat % 2
  let f := if c.dbl then f64 else f32
  let θ := f.roundTo .rne false (f64.value (ddiv (dsub t c.tOld) c.hOld).toNat)
  let read := fun (d : Dev) (k : Nat) => d.engRead (c.num / 64) c.pid c.asid (c.vec (85 + 8 * σ + k)) c.bytes
  let elems := fun (bs : List Byte) => (List.range c.n).map fun i => bytesNat ((bs.drop (i * c.esz)).take c.esz)
  (List.range c.deg).reverse.foldl (fun (acc : Dev × Eng (List Nat)) k =>
    match acc with
    | (d, .ok vs) => match read d k with
      | (d, .ok bs) => (d, .ok ((vs.zip (elems bs)).map fun (v, q) => fmaWord .rne f θ v q))
      | (d, .fault f) => (d, .fault f)
      | (d, .ecc) => (d, .ecc)
    | r => r)
    (match read d c.deg with
      | (d, .ok bs) => (d, .ok (elems bs))
      | (d, .fault f) => (d, .fault f)
      | (d, .ecc) => (d, .ecc))

/-- A DENSE's status word (R311). -/
def denseWord (code : Nat) (nacc : BitVec 32) : Word64 := BitVec.ofNat 64 (nacc.toNat * 2 ^ 32 + code)

/-- The writes of a served request; the arrival follows once they have performed. -/
def Dev.serveDense (d : Dev) (r : DenseReq) (out : List (Nat × List Byte)) (word : Word64) : Dev :=
  let d := out.foldl (fun d (va, bs) => match r.out.pa? va with
    | some (pa, key) => d.engineWrite true key pa bs
    | none => d) d
  let d := d.engineWrite (r.status.2.mt == .cacheable) r.status.2.key r.status.1 (wordBytes word)
  { d with dense := d.dense.map fun x => if x.id = r.id then { x with served := true } else x }

/-- t lies in the step last accepted. -/
def Ctx.covers (c : Ctx) (t : Word64) : Bool := c.deg != 0 && c.nacc != 0 && dle c.tOld t && dle t c.tNew

/-- A request may be performed between the context's own operations (R311). -/
def CtxPhase.servesDense : CtxPhase → Bool
  | .accepting | .eventEnd | .locating _ | .placing | .publish _ => false
  | _ => true

/-- DENSE_SERVE: the oldest request to a context (R311). -/
def execDenseServe (num : Nat) (s : State) : Res :=
  withEvent s fun d => do
    let r ← d.dense.find? fun r => r.ctx == num && !r.served
    match (d.ctx? num).filter (·.pid == r.pid) with
    | none => some (d.serveDense r [] (denseWord 6 0))
    | some c =>
      if c.held || !c.phase.servesDense then none
      else if !c.running && c.status == 6 then some (d.serveDense r [] (denseWord 6 c.nacc))
      else if !c.covers r.t then some (d.serveDense r [] (denseWord 5 c.nacc))
      else match d.denseElems c r.t with
        | (d, .fault f) => some (if c.running || f.mendable then d.ctxFault c (some f) else d.serveDense r [] (denseWord 6 c.nacc))
        | (d, .ecc) => some (if c.running then d.ctxFault c none else d.serveDense r [] (denseWord 6 c.nacc))
        | (d, .ok vs) => some (d.serveDense r (vs.zipIdx.map fun (v, i) => (r.out.va + i * c.esz, natBytes c.esz v)) (denseWord 0 c.nacc))

/-- The request has been answered. -/
def Dev.dropDense (d : Dev) (r : DenseReq) : Dev := { d with dense := d.dense.filter fun x => x.id != r.id }

/-- What follows a served request once its writes have performed: its arrival leaves (R228, R311), and then its context's
condition word is written (R296, R297). -/
def Dev.denseEnds (d : Dev) (r : DenseReq) : Option Dev :=
  if !r.served || decide (d.cycle ≤ d.settle) then none
  else match r.arrive with
    | some a => some (({ d with dense := d.dense.map fun x => if x.id = r.id then { x with arrive := none } else x } : Dev).sendArrival
        a 0 8 r.by_.team)
    | none => match (d.ctx? r.ctx).filter (·.pid == r.pid) with
      | none => some (d.dropDense r)
      | some c => if c.held || !d.ctxQuiet c.num then none else some (d.ctxWrite c (d.writeCond c) (·.dropDense r))

end Sys2Proof.Machine
end

