-- ==== Sys2Proof/Machine/Cittern.lean ====
section
/-! DEFINITION. Cittern: the entries of its chains, factoring, solving and matrix-free solves (R305 to R308). -/

namespace Sys2Proof.Machine

/-! ## LU factors (R307) -/

/-- A matrix under elimination: its rows, the pivot rows so far, and how many pivots were regularised. -/
structure Lu where
  rows : List (List Word64)
  piv  : List Nat
  regs : Nat
  deriving DecidableEq, Repr

def Lu.at_ (m : Lu) (i j : Nat) : Word64 := (m.rows.getD i []).getD j 0

/-- The greatest of some magnitudes; NaN as R154 has it. -/
def maxAbs (xs : List Word64) : Word64 :=
  xs.foldl (fun acc x => if (f64.value acc.toNat).isNan || (f64.value x.toNat).isNan then BitVec.ofNat 64 f64.nan else dmax acc (dabs x)) 0

/-- T (R307). -/
def pivotFloor (tau : Word64) (rows : List (List Word64)) : Word64 :=
  let t := dmul tau (maxAbs rows.flatten)
  if dzero t then 0x0010000000000000 else t

/-- Rows i and k change places. -/
def swapAt {α : Type} (l : List α) (i k : Nat) : List α :=
  match l[i]?, l[k]? with
  | some x, some y => (l.set i y).set k x
  | _, _ => l

/-- The row from k on of the largest magnitude in column k, the lowest on ties. -/
def Lu.pivotRow (m : Lu) (k : Nat) : Nat :=
  (List.range m.rows.length).foldl (fun best i =>
    if k < i ∧ dlt (dabs (m.at_ best k)) (dabs (m.at_ i k)) then i else best) k

/-- The elimination of column k. -/
def Lu.eliminate (t : Word64) (m : Lu) (k : Nat) : Lu :=
  let i := m.pivotRow k
  let m := { m with rows := swapAt m.rows i k, piv := m.piv ++ [i] }
  let small := dlt (dabs (m.at_ k k)) t
  let p := if small then (if !dzero (m.at_ k k) && dsign (m.at_ k k) then dneg t else t) else m.at_ k k
  let top := (m.rows.getD k []).set k p
  let below := fun (r : List Word64) =>
    let l := ddiv (r.getD k 0) p
    r.zipIdx.map fun (x, j) => if j = k then l else if k < j then dfma (dneg l) (top.getD j 0) x else x
  { m with
    rows := m.rows.zipIdx.map fun (r, i) => if i = k then top else if k < i then below r else r
    regs := m.regs + (if small then 1 else 0) }

/-- The states of the elimination, the first being the matrix as given. -/
def Lu.states (t : Word64) (m : Lu) : (ks : List Nat) → List Lu
  | [] => [m]
  | k :: ks => m :: (m.eliminate t k).states t ks

/-- The matrix factored. -/
def factor (tau : Word64) (rows : List (List Word64)) : Lu :=
  (List.range rows.length).foldl (Lu.eliminate (pivotFloor tau rows)) { rows, piv := [], regs := 0 }

/-- 64-column panels of an order. -/
def panelsOf (n : Nat) : Nat := (n + 63) / 64

/-- FACT ended by its budget after `p` panels: each element in some state of the elimination, and the pivots beyond
the complete panels old, or some row (R308). -/
def Lu.partial_ (fresh p : Nat) (tau : Word64) (rows : List (List Word64)) (old : List Nat) : Lu :=
  let n := rows.length
  let sts := Lu.states (pivotFloor tau rows) { rows, piv := [], regs := 0 } (List.range n)
  let done := sts.getD (min n (64 * p)) { rows, piv := [], regs := 0 }
  { rows := (List.range n).map fun i => (List.range n).map fun j =>
      ((sts[Config.pick (fresh + i * n + j) % (n + 1)]?).map (·.at_ i j)).getD 0
    piv := (List.range n).map fun k =>
      if k < min n (64 * p) then done.piv.getD k 0
      else if Config.freeBool fresh (16 + k) then old.getD k 0 else Config.pick (fresh + k) % n
    regs := done.regs }

/-- The pivots applied to a vector in ascending order. -/
def permuted (piv : List Nat) (b : List Word64) : List Word64 := piv.zipIdx.foldl (fun b (i, k) => swapAt b i k) b

/-- Forward substitution with the unit lower triangle, by ascending columns. -/
def Lu.forward (m : Lu) (b : List Word64) : List Word64 :=
  (List.range b.length).foldl (fun y j => y.zipIdx.map fun (x, i) => if j < i then dfma (dneg (m.at_ i j)) (y.getD j 0) x else x) b

/-- Back substitution by descending rows, each ending with a division. -/
def Lu.back (m : Lu) (y : List Word64) : List Word64 :=
  (List.range y.length).reverse.foldl (fun x i =>
    let acc := (List.range y.length).foldl (fun a j => if i < j then dfma (dneg (m.at_ i j)) (x.getD j 0) a else a) (x.getD i 0)
    x.set i (ddiv acc (m.at_ i i))) y

/-- The solution of Ãx = b. -/
def Lu.solve (m : Lu) (b : List Word64) : List Word64 := m.back (m.forward (permuted m.piv b))

/-- An element of L U, exactly. -/
def Lu.product (m : Lu) (i j : Nat) : FVal :=
  (List.range (min i j + 1)).foldl (fun acc k =>
    acc.add .rne ((if k = i then FVal.one else f64.value (m.at_ i k).toNat).mul (f64.value (m.at_ k j).toNat))) (.zero false)

/-- ‖b − Ãx‖∞: each row a fused chain in ascending column order, over the exact elements of Ã (R307; log 31). -/
def Lu.residual (m : Lu) (b x : List Word64) : Word64 :=
  let pb := permuted m.piv b
  maxAbs (pb.zipIdx.map fun (r, i) => (List.range x.length).foldl (fun acc j =>
    BitVec.ofNat 64 (f64.roundTo .rne false (((m.product i j).neg.mul (f64.value (x.getD j 0).toNat)).add .rne (f64.value acc.toNat)))) r)

/-! ## Reading and writing operands -/

/-- Rows of FP64 words at a stride. -/
def Dev.readRows (d : Dev) (die pid asid a stride n : Nat) : Dev × Eng (List (List Word64)) :=
  (List.range n).foldl (fun (acc : Dev × Eng (List (List Word64))) i =>
    match acc with
    | (d, .ok rs) => match d.engWords die pid asid (a + 8 * stride * i) n with
      | (d, .ok r) => (d, .ok (rs ++ [r]))
      | (d, .fault f) => (d, .fault f)
      | (d, .ecc) => (d, .ecc)
    | r => r) (d, .ok [])

/-- Several writes; the first that fails ends them. -/
def Dev.writeAll (d : Dev) (die pid asid : Nat) : List (Nat × List Byte) → Dev × Eng Unit
  | [] => (d, .ok ())
  | (a, bs) :: rest => match d.engWrite die pid asid a bs with
    | (d, .ok _) => d.writeAll die pid asid rest
    | r => r

def rowWrites (a stride : Nat) (rows : List (List Word64)) : List (Nat × List Byte) :=
  rows.zipIdx.map fun (r, i) => (a + 8 * stride * i, r.flatMap wordBytes)

/-- N 32-bit pivot rows. -/
def Dev.readPivots (d : Dev) (die pid asid a n : Nat) : Dev × Eng (List Nat) :=
  match d.engRead die pid asid a (4 * n) with
  | (d, .ok bs) => (d, .ok ((List.range n).map fun k => bytesNat ((bs.drop (4 * k)).take 4)))
  | (d, .fault f) => (d, .fault f)
  | (d, .ecc) => (d, .ecc)

def pivotBytes (piv : List Nat) : List Byte := piv.flatMap (natBytes 4)

/-! ## Jobs -/

/-- A malformed entry (R306). -/
def citternBad (ws : List Word64) : Bool :=
  let w := fun (k : Nat) => (ws.getD k 0).toNat
  let n := bits (w 0) 32 32
  bits (w 0) 8 24 != 0 || bits (w 0) 0 8 == 0 || decide (3 < bits (w 0) 0 8) || n == 0 || decide (16384 < n) ||
  decide (2 ^ 48 ≤ w 1) || w 1 % 8 != 0 || decide (bits (w 2) 0 32 < n) || w 3 % 4 != 0 || !dle 0 (ws.getD 6 0) || w 7 % 8 != 0

/-- Cittern takes the entry at the head of a chain (R282, R306). -/
def Dev.takeJob (d : Dev) (c : Chain) : Dev :=
  match d.readEntry c with
  | (d, none) => d
  | (d, some ws) =>
    if citternBad ws then d.chainHalt c.key 2
    else
      let (id, d) := d.newId
      ({ d with jobs := d.jobs ++ [{
          id, die := c.tgt, chain := some (c.key, c.head), ctx := none, pid := c.pid, asid := c.asid
          op := bits (ws.getD 0 0).toNat 0 8, words := ws, held := false }] } : Dev).takeEntry c.key

def Dev.dropJob (d : Dev) (id : Nat) : Dev := { d with jobs := d.jobs.filter fun j => j.id != id }

def Dev.modJob (d : Dev) (id : Nat) (f : CitternJob → CitternJob) : Dev :=
  { d with jobs := d.jobs.map fun j => if j.id = id then f j else j }

/-- A failed access of a job: recorded and held; otherwise its chain halts, or its context ends (R284, R306, R313). -/
def Dev.jobFault (d : Dev) (j : CitternJob) (f? : Option MemFault) : Dev :=
  let hold := fun (d : Dev) => d.modJob j.id fun j => { j with held := true }
  match j.chain, j.ctx with
  | some (k, _), _ => match d.chain? k with
    | some c => d.chainFault c hold f?
    | none => d.dropJob j.id
  | none, some n => match f? with
    | some f =>
      if f.mendable then hold (d.recordFault j.pid f 0 { src := .galliard, ctx := n, core := 0, grp := 0, pc := 0 })
      else d.endCtx n 6 0x11
    | none => d.endCtx n 6 0x11
  | none, none => d.dropJob j.id

/-- The job's accesses have all gone well; or one has failed. Where REPLAY_ALL may mend that, the job goes on from its start,
and what it had not yet written shows nowhere; otherwise what it has written stays (R284, R306). -/
def Dev.jobEnd {α : Type} (d : Dev) (j : CitternJob) (r : Dev × Eng α) (next : Dev → α → Dev) : Dev :=
  match r with
  | (d, .ok x) => next d x
  | (d', .fault f) => (if f.mendable then d else d').jobFault j (some f)
  | (d', .ecc) => d'.jobFault j none

/-- The budget ends this operation: open, since no rule of the model counts its cycles (R308; log 31). -/
def spent (fresh budget place : Nat) : Bool := budget != 0 && Config.freeBool fresh place

/-- A result area's status word (R306). -/
def citternStatus (late : Bool) (regs panels : Nat) : Word64 :=
  BitVec.ofNat 64 (min regs (2 ^ 32 - 1) * 2 ^ 32 + min panels 0xFFFF * 2 ^ 16 + (if regs = 0 then 0 else 2 ^ 8) +
    (if late then 3 else if regs = 0 then 0 else 4))

/-- FACT on rows: the factors, the panels completed, and whether the budget ended it. -/
def factOutcome (fresh budget : Nat) (tau : Word64) (rows : List (List Word64)) (old : List Nat) : Lu × Nat × Bool :=
  let n := rows.length
  if spent fresh budget 0 then
    let p := 1 + Config.pick fresh % panelsOf n
    (Lu.partial_ fresh p tau rows old, p, true)
  else (factor tau rows, panelsOf n, false)

/-- The fields of an entry. -/
structure CitternOp where
  n      : Nat
  a      : Nat
  budget : Nat
  lda    : Nat
  piv    : Nat
  b      : Nat
  x      : Nat
  tau    : Word64
  res    : Nat

def CitternOp.ofWords (ws : List Word64) : CitternOp :=
  let w := fun (k : Nat) => (ws.getD k 0).toNat
  { n := bits (w 0) 32 32, a := w 1, budget := bits (w 2) 32 32, lda := bits (w 2) 0 32, piv := w 3, b := w 4, x := w 5
    tau := ws.getD 6 0, res := w 7 }

/-- FACT and FSOLVE begin with the factors of A, which are written over it with their pivots (R307). -/
def Dev.jobFact (d : Dev) (j : CitternJob) (o : CitternOp) : Dev × Eng (Lu × Nat × Bool) :=
  match d.readRows j.die j.pid j.asid o.a o.lda o.n with
  | (d, .fault f) => (d, .fault f)
  | (d, .ecc) => (d, .ecc)
  | (d, .ok rows) => match d.readPivots j.die j.pid j.asid o.piv o.n with
    | (d, .fault f) => (d, .fault f)
    | (d, .ecc) => (d, .ecc)
    | (d, .ok old) =>
      let out := factOutcome d.fresh o.budget o.tau rows old
      match d.writeAll j.die j.pid j.asid (rowWrites o.a o.lda out.1.rows ++ [(o.piv, pivotBytes out.1.piv)]) with
      | (d, .ok _) => (d, .ok out)
      | (d, .fault f) => (d, .fault f)
      | (d, .ecc) => (d, .ecc)

/-- The solution by some factors: its words and its residual, or what a spent budget returns (R308). -/
def solveOutcome (late : Bool) (m : Lu) (b : List Word64) : List Word64 × Word64 :=
  if late then (b.map fun _ => 0, maxAbs b) else (m.solve b, m.residual b (m.solve b))

/-- What ends an operation of a chain: the solution, if any, and the result area. -/
def Dev.jobResult (d : Dev) (j : CitternJob) (o : CitternOp) (x : Option (List Word64)) (status resid : Word64) : Dev × Eng Unit :=
  d.writeAll j.die j.pid j.asid
    ((match x with | some xs => [(o.x, xs.flatMap wordBytes)] | none => []) ++ [(o.res, wordBytes status ++ wordBytes resid)])

/-- The operation of a chain's entry has completed. -/
def Dev.chainJobDone (d : Dev) (j : CitternJob) : Dev :=
  let d := d.dropJob j.id
  match j.chain with
  | some (k, e) => d.chainDone k e
  | none => d

/-- The right-hand side of a chain's solve by given factors, and the end of the operation. -/
def Dev.jobSolve (d : Dev) (j : CitternJob) (o : CitternOp) (m : Lu) (late : Bool) (panels : Nat) : Dev × Eng Unit :=
  match d.engWords j.die j.pid j.asid o.b o.n with
  | (d, .fault f) => (d, .fault f)
  | (d, .ecc) => (d, .ecc)
  | (d, .ok b) =>
    let late := late || spent d.fresh o.budget 1
    let (x, r) := solveOutcome late m b
    d.jobResult j o (some x) (citternStatus late m.regs panels) r

/-! ## A context's operations (R305) -/

/-- A context's vector of n elements as FP64 words. -/
def Dev.ctxWords (d : Dev) (c : Ctx) (va : Nat) : Dev × Eng (List Word64) :=
  match d.engRead (c.num / 64) c.pid c.asid va c.bytes with
  | (d, .ok bs) => (d, .ok ((List.range c.n).map fun i =>
      let w := bytesNat ((bs.drop (i * c.esz)).take c.esz)
      BitVec.ofNat 64 (if c.dbl then w else f64.roundTo .rne false (f32.value w))))
  | (d, .fault f) => (d, .fault f)
  | (d, .ecc) => (d, .ecc)

/-- FP64 words in the context's element format. -/
def Ctx.elemBytes (c : Ctx) (xs : List Word64) : List Byte :=
  xs.flatMap fun x => if c.dbl then wordBytes x else natBytes 4 (f32.roundTo .rne false (f64.value x.toNat))

/-- I − γJ (R305). -/
def iterationMatrix (γ : Word64) (j : List (List Word64)) : List (List Word64) :=
  j.zipIdx.map fun (r, i) => r.zipIdx.map fun (x, k) => dfma (dneg γ) x (if i = k then done_ else 0)

/-- The stage of a context that Cittern works for. -/
def Ctx.solving? (c : Ctx) (p : StagePhase) : Option Nat := (c.stages.find? fun r => r.phase == p).map (·.stage)

/-- FACT for a context: M is formed from the kept J and factored; a spent budget leaves Δ = 0 (R305, R308). -/
def Dev.ctxFact (d : Dev) (j : CitternJob) (c : Ctx) (st : Nat) : Dev :=
  let n := c.n
  let γ := c.gammaAt st
  let area := c.jmat + 8 * n * n
  let pivs := c.jmat + 16 * n * n
  match d.readRows j.die j.pid j.asid c.jmat n n with
  | (d, .fault f) => d.jobFault j (some f)
  | (d, .ecc) => d.jobFault j none
  | (d, .ok rows) => match d.readPivots j.die j.pid j.asid pivs n with
    | (d, .fault f) => d.jobFault j (some f)
    | (d, .ecc) => d.jobFault j none
    | (d, .ok old) =>
      let (m, _, late) := factOutcome d.fresh c.budget c.tau (iterationMatrix γ rows) old
      let zeros := if late then [(c.vec 83, List.replicate c.bytes (0 : Byte))] else []
      d.jobEnd j (d.writeAll j.die j.pid j.asid (rowWrites area n m.rows ++ [(pivs, pivotBytes m.piv)] ++ zeros)) fun d _ =>
        (d.dropJob j.id).modCtx c.num fun c =>
          { c.toPhase st (if late then .solved else .solving) with
            gamma := if late then none else some γ, dln := c.dln || late, piv := c.piv || m.regs != 0 }

/-- SOLVE for a context: W1 becomes Δ (R305). -/
def Dev.ctxSolve (d : Dev) (j : CitternJob) (c : Ctx) (st : Nat) : Dev :=
  let n := c.n
  match d.readRows j.die j.pid j.asid (c.jmat + 8 * n * n) n n with
  | (d, .fault f) => d.jobFault j (some f)
  | (d, .ecc) => d.jobFault j none
  | (d, .ok rows) => match d.readPivots j.die j.pid j.asid (c.jmat + 16 * n * n) n with
    | (d, .fault f) => d.jobFault j (some f)
    | (d, .ecc) => d.jobFault j none
    | (d, .ok piv) => match d.ctxWords c (c.vec 82) with
      | (d, .fault f) => d.jobFault j (some f)
      | (d, .ecc) => d.jobFault j none
      | (d, .ok b) =>
        let late := spent d.fresh c.budget 1
        let (x, _) := solveOutcome late { rows, piv, regs := 0 } b
        d.jobEnd j (d.writeAll j.die j.pid j.asid [(c.vec 83, c.elemBytes x)]) fun d _ =>
          (d.dropJob j.id).modCtx c.num fun c => { c.toPhase st .solved with dln := c.dln || late }

/-! ## The steps -/

/-- A job of an operation that is not held. -/
def Dev.job? (d : Dev) (id op : Nat) : Option CitternJob := d.jobs.find? fun j => j.id == id && j.op == op && !j.held

/-- CITTERN_FACT (R307, R308). -/
def execCitternFact (id : Nat) (s : State) : Res :=
  withEvent s fun d => do
    let j ← d.job? id 1
    match j.ctx with
    | some n => do
      let c ← d.ctx? n
      let st ← c.solving? .cittern
      some (d.ctxFact j c st)
    | none =>
      let o := CitternOp.ofWords j.words
      some (d.jobEnd j (d.jobFact j o) fun d' (m, panels, late) =>
        d.jobEnd j (d'.jobResult j o none (citternStatus late m.regs panels) 0) fun d _ => d.chainJobDone j)

/-- CITTERN_SOLVE (R307, R308). -/
def execCitternSolve (id : Nat) (s : State) : Res :=
  withEvent s fun d => do
    let j ← d.job? id 2
    match j.ctx with
    | some n => do
      let c ← d.ctx? n
      let st ← c.solving? .cittern
      some (d.ctxSolve j c st)
    | none =>
      let o := CitternOp.ofWords j.words
      some (match d.readRows j.die j.pid j.asid o.a o.lda o.n with
        | (d, .fault f) => d.jobFault j (some f)
        | (d, .ecc) => d.jobFault j none
        | (d', .ok rows) => match d'.readPivots j.die j.pid j.asid o.piv o.n with
          | (d, .fault f) => d.jobFault j (some f)
          | (d, .ecc) => d.jobFault j none
          | (d', .ok piv) => d.jobEnd j (d'.jobSolve j o { rows, piv, regs := 0 } false 0) fun d _ => d.chainJobDone j)

/-- CITTERN_FSOLVE: FACT, then SOLVE (R306 to R308). -/
def execCitternFsolve (id : Nat) (s : State) : Res :=
  withEvent s fun d => do
    let j ← d.job? id 3
    let o := CitternOp.ofWords j.words
    some (d.jobEnd j (d.jobFact j o) fun d' (m, panels, late) =>
      d.jobEnd j (d'.jobSolve j o m late panels) fun d _ => d.chainJobDone j)

/-- ε of a product (R305). -/
def productStep (y v : Word64) : Word64 :=
  let (q, more) := (((f64.value y.toNat).add .rne FVal.one).scale (-26)).div (f64.value v.toNat)
  BitVec.ofNat 64 (f64.roundTo .rne false q more)

/-- Y + εv in the context's format, rounded once. -/
def Ctx.shifted (c : Ctx) (ε : Word64) (ys vs : List Word64) : List Byte :=
  let f := if c.dbl then f64 else f32
  (ys.zip vs).flatMap fun (y, v) => natBytes c.esz
    (f.roundTo .rne false (((f64.value ε.toNat).mul (f64.value v.toNat)).add .rne (f64.value y.toNat)))

/-! ### Matrix-free solves (R305, R308; log 31) -/

/-- A sum in FP64: its terms are added in some order. -/
def sumAny (fresh place : Nat) : (fuel : Nat) → List Word64 → Word64
  | _, [] => 0
  | _, [x] | 0, x :: _ => x
  | f + 1, x :: xs =>
    let w := (Config.freeWord fresh (place + f)).toNat
    let y := xs.getD (w % xs.length) 0
    let rest := xs.eraseIdx (w % xs.length)
    let k := w / xs.length % (rest.length + 1)
    sumAny fresh place f (rest.drop k ++ [dadd x y] ++ rest.take k)

def dot (fresh place : Nat) (x y : List Word64) : Word64 := sumAny fresh place x.length ((x.zip y).map fun (a, b) => dmul a b)

def norm2 (fresh place : Nat) (x : List Word64) : Word64 := dsqrt (dot fresh place x x)

/-- y + ax. -/
def axpy (a : Word64) (x y : List Word64) : List Word64 := (x.zip y).map fun (x, y) => dfma a x y

/-- x over a norm; zeros over a norm of zero. -/
def unitOver (b : Word64) (x : List Word64) : List Word64 := x.map fun x => if dzero b then 0 else ddiv x b

/-- The WRMS norm of a vector against `y`, under two tolerances. -/
def wrmsNorm (fresh place : Nat) (atol rtol y r : List Word64) : Word64 :=
  let q := ((atol.zip rtol).zip (y.zip r)).map fun ((a, t), (y, r)) => ddiv r (dadd a (dmul t (dabs y)))
  dsqrt (ddiv (dot fresh place q q) (dnum r.length))

/-- A plane rotation that clears `b` against `a`: its cosine and sine. -/
def rotation (a b : Word64) : Word64 × Word64 :=
  let r := dsqrt (dadd (dmul a a) (dmul b b))
  if dzero r then (done_, 0) else (ddiv a r, ddiv b r)

/-- A rotation of the elements k and k + 1. -/
def rotateAt (k : Nat) (cs : Word64 × Word64) (v : List Word64) : List Word64 :=
  let a := v.getD k 0
  let b := v.getD (k + 1) 0
  (v.set k (dadd (dmul cs.1 a) (dmul cs.2 b))).set (k + 1) (dsub (dmul cs.1 b) (dmul cs.2 a))

/-- The y that makes ‖βe₁ − Hy‖ least, H by its columns. -/
def leastSquares (beta : Word64) (cols : List (List Word64)) : List Word64 :=
  let go := cols.foldl (fun (acc : List (Word64 × Word64) × List (List Word64) × List Word64) col =>
    let col := acc.1.zipIdx.foldl (fun v (cs, k) => rotateAt k cs v) col
    let k := acc.1.length
    let cs := rotation (col.getD k 0) (col.getD (k + 1) 0)
    (acc.1 ++ [cs], acc.2.1 ++ [rotateAt k cs col], rotateAt k cs acc.2.2)) ([], [], beta :: List.replicate cols.length 0)
  let r := fun (i j : Nat) => (go.2.1.getD j []).getD i 0
  (List.range cols.length).reverse.foldl (fun y k =>
    let s := (List.range cols.length).foldl (fun s j => if k < j then dfma (dneg (r k j)) (y.getD j 0) s else s) (go.2.2.getD k 0)
    y.set k (ddiv s (r k k))) (List.replicate cols.length 0)

/-- βe₁ − Hy. -/
def leftOver (beta : Word64) (cols : List (List Word64)) (y : List Word64) : List Word64 :=
  (cols.zip y).foldl (fun t (col, y) => t.zipIdx.map fun (x, k) => dfma (dneg y) (col.getD k 0) x)
    (beta :: List.replicate cols.length 0)

/-- Modified Gram-Schmidt: `w` less its parts along the basis, and those parts. -/
def gramSchmidt (fresh : Nat) (basis : List (List Word64)) (w : List Word64) : List Word64 × List Word64 :=
  basis.zipIdx.foldl (fun (w, hs) (v, k) =>
    let h := dot fresh (5000000 + k * w.length) w v
    (axpy (dneg h) v w, hs ++ [h])) (w, [])

/-- A sum of some vectors by their factors, added to `x`. -/
def combined (x : List Word64) (fs : List Word64) (vs : List (List Word64)) : List Word64 :=
  (fs.zip vs).foldl (fun x (f, v) => axpy f v x) x

/-- A solve has ended with Δ in W1. -/
def Dev.gmresEnds (d : Dev) (c : Ctx) (st : Nat) (delta : List Word64) (late : Bool) : Dev :=
  match d.engWrite (c.num / 64) c.pid c.asid (c.vec 83) (c.elemBytes delta) with
  | (d, .ok _) => d.modCtx c.num fun c => { c.toPhase st .solved with gmres := none, dln := c.dln || late }
  | (d, .fault f) => d.ctxFault c (some f)
  | (d, .ecc) => d.ctxFault c none

/-- The product of the next basis vector: the vector, its step, its input in W1, and its record. A zero vector ends the
solve with Δ = 0 (R305). -/
def Dev.gmresProduct (d : Dev) (c : Ctx) (st : Nat) (g : Gmres) (ys v : List Word64) : Dev :=
  let i := g.cols.length
  let vmax := maxAbs v
  if dzero vmax then d.gmresEnds c st (List.replicate c.n 0) false
  else
    let ε := productStep (maxAbs ys) vmax
    match d.writeAll (c.num / 64) c.pid c.asid [(c.jmat + i * c.krylov, v.flatMap wordBytes), (c.vec 83, c.shifted ε ys v)] with
    | (d, .ok _) => d.modCtx c.num fun c =>
        { (c.send 2 st (if c.imex then c.rhsi else c.rhs) (c.tAt st) (c.vec 83) (c.jmat + (i + 1) * c.krylov) c.h).toPhase st .product with
          gmres := some { g with eps := ε } }
    | (d, .fault f) => d.ctxFault c (some f)
    | (d, .ecc) => d.ctxFault c none

/-- What a matrix-free solve reads between its products. -/
structure GmresIn where
  r    : List Word64            -- W0
  y    : List Word64
  k    : List Word64
  atol : List Word64
  rtol : List Word64

/-- Several vectors of a context, by their addresses; a tolerance that is no vector stands in every element. -/
def Dev.gmresIn (d : Dev) (c : Ctx) (st : Nat) : Dev × Eng GmresIn :=
  let read := fun (acc : Dev × Eng (List (List Word64))) (va : Nat) => match acc with
    | (d, .ok vs) => (match d.ctxWords c va with
      | (d, .ok v) => (d, Eng.ok (vs ++ [v]))
      | (d, .fault f) => (d, .fault f)
      | (d, .ecc) => (d, .ecc))
    | r => r
  let tols := (if c.atv then [(c.w 6).toNat] else []) ++ (if c.rtv then [(c.w 7).toNat] else [])
  match ([c.vec 82, c.vec st, c.kSolve st] ++ tols).foldl read (d, .ok []) with
  | (d, .ok vs) =>
    let v := fun (k : Nat) => vs.getD k []
    let all := fun (w : Word64) => List.replicate c.n w
    (d, .ok { r := v 0, y := v 1, k := v 2, atol := if c.atv then v 3 else all (c.w 6)
              rtol := if c.rtv then v (if c.atv then 4 else 3) else all (c.w 7) })
  | (d, .fault f) => (d, .fault f)
  | (d, .ecc) => (d, .ecc)

/-- NTOL ÷ 10. -/
def Ctx.gmresStop (c : Ctx) : Word64 := ddiv c.ntol 0x4024000000000000

/-- GMRES starts from an iterate with residual `r`. -/
def Dev.gmresFrom (d : Dev) (c : Ctx) (st : Nat) (ys delta r best : List Word64) (low : Word64) : Dev :=
  let β := norm2 d.fresh 4000000 r
  d.gmresProduct c st { delta, beta := β, cols := [], eps := 0, best, low } ys (unitOver β r)

/-- The basis so far, and what the kernel has written in the next place (R305). -/
def Dev.gmresBasis (d : Dev) (c : Ctx) (i : Nat) : Dev × Eng (List (List Word64) × List Word64) :=
  let vs := (List.range (i + 1)).foldl (fun (acc : Dev × Eng (List (List Word64))) k =>
    match acc with
    | (d, .ok vs) => match d.engWords (c.num / 64) c.pid c.asid (c.jmat + k * c.krylov) c.n with
      | (d, .ok v) => (d, .ok (vs ++ [v]))
      | (d, .fault f) => (d, .fault f)
      | (d, .ecc) => (d, .ecc)
    | r => r) (d, .ok [])
  match vs with
  | (d, .ok vs) => (match d.ctxWords c (c.jmat + (i + 1) * c.krylov) with
    | (d, .ok f) => (d, .ok (vs, f))
    | (d, .fault f) => (d, .fault f)
    | (d, .ecc) => (d, .ecc))
  | (d, .fault f) => (d, .fault f)
  | (d, .ecc) => (d, .ecc)

/-- An iteration: Jv = ε⁻¹ (F(Y + εv) − K) gives the next basis vector and column, and with them the iterate, its residual
and its norm. It stops the solve, or its budget does, or another product follows (R305, R308). -/
def Dev.gmresIterate (d : Dev) (c : Ctx) (st : Nat) (x : GmresIn) (g : Gmres) (basis : List (List Word64)) (f : List Word64) : Dev :=
  let fresh := d.fresh
  let jv := (f.zip x.k).map fun (f, k) => ddiv (dsub f k) g.eps
  let (w, hs) := gramSchmidt fresh basis (axpy (dneg (c.gammaAt st)) jv (basis.getLastD []))
  let last := norm2 fresh 4000000 w
  let cols := g.cols ++ [hs ++ [last]]
  let v := unitOver last w
  let y := leastSquares g.beta cols
  let delta := combined g.delta y basis
  let r := combined (List.replicate c.n 0) (leftOver g.beta cols y) (basis ++ [v])
  let norm := wrmsNorm fresh 4500000 x.atol x.rtol x.y r
  let (best, low) := if dlt norm g.low then (delta, norm) else (g.best, g.low)
  if dle norm c.gmresStop then d.gmresEnds c st delta false
  else if spent fresh c.budget 2 then d.gmresEnds c st best true
  else if cols.length < c.gm then d.gmresProduct c st { g with cols, best, low } x.y v
  else d.gmresFrom c st x.y delta r best low

/-- CITTERN_GMRES: what a matrix-free solve does between its products (R305, R308; log 31). -/
def execCitternGmres (num : Nat) (s : State) : Res :=
  withEvent s fun d => do
    let c ← d.ctx? num
    let st ← c.solving? .gmres
    if c.held then none
    else some (match d.gmresIn c st with
      | (d, .fault f) => d.ctxFault c (some f)
      | (d, .ecc) => d.ctxFault c none
      | (d, .ok x) => match c.gmres with
        | none =>
          let zeros := List.replicate c.n (0 : Word64)
          let norm := wrmsNorm d.fresh 4500000 x.atol x.rtol x.y x.r
          if dle norm c.gmresStop then d.gmresEnds c st zeros false else d.gmresFrom c st x.y zeros x.r zeros norm
        | some g => match d.gmresBasis c g.cols.length with
          | (d, .fault f) => d.ctxFault c (some f)
          | (d, .ecc) => d.ctxFault c none
          | (d, .ok (basis, f)) => d.gmresIterate c st x g basis f)

end Sys2Proof.Machine
end

