-- ==== Sys2Proof/Machine/Transfer.lean ====
section
/-! DEFINITION. The cache transfer engine (R373 to R376), Parzon and Ethernet ports (R370 to R372). -/

namespace Sys2Proof.Machine

/-! ## Sending (R373, R376) -/

/-- The fields of an entry. -/
structure CteEntry where
  win   : Nat
  eth   : Bool
  dest  : Nat
  logb  : Nat
  conv  : Nat
  op    : Nat
  table : Nat
  didx  : Nat
  nblk  : Nat

def CteEntry.ofWords (ws : List Word64) : CteEntry :=
  let f := fun (k lo n : Nat) => bits (ws.getD k 0).toNat lo n
  { win := f 0 48 16, eth := f 0 32 1 == 1, dest := f 0 24 8, logb := f 0 16 8, conv := f 0 8 8, op := f 0 0 8
    table := f 1 0 64, didx := f 2 32 32, nblk := f 2 0 32 }

/-- A malformed entry: a field outside R373, a peer not in PEERS, or an endpoint the partition has not set (log 32). -/
def Partition.cteBad (p : Partition) (ws : List Word64) : Bool :=
  let e := CteEntry.ofWords ws
  bits (ws.getD 0 0).toNat 33 15 != 0 || e.op != 1 || decide (1023 < e.win) || decide (e.logb < 12) || decide (24 < e.logb) ||
  decide (5 < e.conv) || decide (2 ^ 48 ≤ e.table) || e.table % 8 != 0 || e.nblk == 0 || decide (65536 < e.nblk) ||
  (ws.drop 3).any (· != 0) ||
  (if e.eth then !p.endpoints.any (·.id == e.dest) else decide (64 ≤ e.dest) || !p.rec_.peers.getLsbD e.dest)

/-- Source and destination type codes of a conversion, and their bytes (R150, R373). -/
def convTypes : Nat → Nat × Nat
  | 1 => (11, 12)
  | 2 => (10, 12)
  | 3 => (11, 13)
  | 4 => (12, 11)
  | _ => (10, 11)

/-- A block converted (R373). -/
def convert (conv : Nat) (bs : List Byte) : List Byte :=
  if conv = 0 then bs
  else
    let (st, dt) := convTypes conv
    let n := typeBytes st
    (List.range (bs.length / n)).flatMap fun k =>
      natBytes (typeBytes dt) (fcvtValue dt st .rne true (BitVec.ofNat 64 (bytesNat ((bs.drop (n * k)).take n)))).toNat

def Dev.modBlock (d : Dev) (b : CteBlock) (f : CteBlock → CteBlock) : Dev :=
  { d with blocks := d.blocks.map fun x => if x.chain = b.chain ∧ x.entry = b.entry ∧ x.block = b.block then f x else x }

def Dev.block? (d : Dev) (chain entry block : Nat) : Option CteBlock :=
  d.blocks.find? fun b => b.chain == chain && b.entry == entry && b.block == block

/-- The 32-byte pieces of `n` bytes. -/
def sectorsIn (n : Nat) : List Nat := List.range ((n + 31) / 32)

/-- A source fault: held for replay when the driver may mend it, otherwise the chain halts (R376). -/
def Dev.sourceFault (d : Dev) (c : Chain) (b : CteBlock) (f? : Option MemFault) : Dev :=
  match f?.filter (·.mendable) with
  | some f => (d.recordFault c.pid f 0 c.where_).modBlock b fun b => { b with held := true }
  | none => d.chainHalt c.key 0x13

/-- One sector of a block's source is read, at its home and without a lease, in any order (R194, R374); none when all have
been. -/
def Dev.readBlock (d : Dev) (b : CteBlock) : Option Dev := do
  let c ← d.chain? b.chain
  let k ← b.left[Config.pick d.fresh % b.left.length]?
  if b.held then none
  else match d.engRead c.die c.pid c.asid (b.src + 32 * k) 32 with
    | (d, .ok bs) => some (d.modBlock b fun b => { b with left := b.left.erase k, got := fsetBytes b.got (32 * k) bs })
    | (d, .fault f) => some (d.sourceFault c b (some f))
    | (d, .ecc) => some (d.sourceFault c b none)

/-- What is sent of `n` bytes by itself: to an endpoint at most 8,192 bytes a datagram (R375). -/
def gramsOf (dest n now : Nat) : List CteGram :=
  (List.range (if dest < 64 then 1 else (n + 8191) / 8192)).map fun k => { off := 8192 * k, resends := 0, sentAt := now }

/-- A block whose source has been read is converted and sent (R373, R375, R376). -/
def Dev.sendBlock (d : Dev) (c : Chain) (b : CteBlock) : Dev :=
  if b.dest < 64 ∧ d.peerDead b.dest then d.chainHalt c.key 0x12
  else
    let data := convert b.conv (fgetBytes b.got 0 b.size)
    d.modBlock b fun b => { b with data := some data, grams := gramsOf b.dest data.length d.cycle }

/-- The next entry of a chain becomes blocks to send. -/
def Dev.takeSend (d : Dev) (c : Chain) : Dev :=
  match d.readEntry c with
  | (d, none) => d
  | (d, some ws) =>
    let e := CteEntry.ofWords ws
    if (d.part c.pid).cteBad ws then d.chainHalt c.key 2
    else match d.engWords c.die c.pid c.asid e.table e.nblk with
      | (d, .fault f) =>
        if f.mendable then d.chainFault c (·.modChain c.key fun c => { c with stuck := true }) (some f) else d.chainHalt c.key 0x13
      | (d, .ecc) => d.chainHalt c.key 0x13
      | (d, .ok srcs) =>
        if srcs.any fun a => a.toNat % 2 ^ e.logb != 0 then d.chainHalt c.key 2
        else
          let blocks : List CteBlock := srcs.zipIdx.map fun (a, i) =>
            { chain := c.key, entry := c.head, block := i, dest := if e.eth then 64 + e.dest else e.dest, win := e.win
              idx := e.didx + i, src := a.toNat, size := 2 ^ e.logb, conv := e.conv, left := sectorsIn (2 ^ e.logb), got := []
              data := none, grams := [], held := false }
          ({ d with blocks := d.blocks ++ blocks } : Dev).takeEntry c.key

/-- CTE_SEND: the engine sends a block, or takes the next entry (R373). -/
def execCteSend (key : Nat) (s : State) : Res :=
  withEvent s fun d => do
    let c ← d.chain? key
    if c.eng ≠ 4 ∨ c.halted then none
    else match d.blocks.find? fun b => b.chain == key && b.data.isNone && b.left.isEmpty with
      | some b => some (d.sendBlock c b)
      | none => if c.takes then some (d.takeSend c) else none

/-- CTE_ACK: a block, or a datagram of it, is acknowledged; or the receiver refuses it with a code of R376. -/
def execCteAck (chain entry : Nat) (block : GramAt) (code : BitVec 8) (s : State) : Res :=
  withEvent s fun d => do
    let b ← d.block? chain entry block.block
    if !b.grams.any (·.off == block.off) then none
    else if code = 0 then
      let left := b.grams.filter (·.off != block.off)
      if !left.isEmpty then some (d.modBlock b fun b => { b with grams := left })
      else
        let d := { d with blocks := d.blocks.filter fun x => !(x.chain == chain && x.entry == entry && x.block == block.block) }
        some (if d.blocks.any fun x => x.chain == chain && x.entry == entry then d else d.chainDone chain entry)
    else if code = 0x10 ∨ code = 0x11 ∨ code = 0x14 then some (d.chainHalt chain code)
    else none

/-- CTE_RESEND: a datagram to an endpoint has gone unacknowledged for 100 µs (R376). -/
def execCteResend (chain entry : Nat) (block : GramAt) (s : State) : Res :=
  withEvent s fun d => do
    let b ← d.block? chain entry block.block
    let g ← b.grams.find? (·.off == block.off)
    if b.dest < 64 ∨ d.cycle < g.sentAt + 160000 then none
    else if 16 ≤ g.resends then some (d.chainHalt chain 0x12)
    else
      let again : CteGram → CteGram := fun x => if x.off = block.off then { x with resends := x.resends + 1, sentAt := d.cycle } else x
      some (d.modBlock b fun b => { b with grams := b.grams.map again })

/-! ## Receiving (R374) -/

/-- The window of a number and its partition. -/
def Dev.window? (d : Dev) (win : Nat) : Option (Partition × CteWindow) :=
  d.parts.findSome? fun p => (p.windows.find? (·.id == win)).map fun w => (p, w)

/-- A sender may send to a window: peer n, or endpoint n as 64 + n. -/
def CteWindow.opens (w : CteWindow) (src : Nat) : Bool :=
  if src < 64 then w.from_.1.getLsbD src else w.from_.2.getLsbD (src - 64)

/-- CTE_BLOCK_RECEIVE: what no window takes, a duplicate, and what comes during a reset or after a fatal error is discarded
(R369, R374, R376, R385). -/
def execCteBlockReceive (win : Nat) (idx : GramAt) (src stream : Nat) (bytes : List Byte) (s : State) : Res :=
  withEvent s fun d =>
    match d.window? win with
    | none => some d
    | some (p, w) =>
      if d.frozen || p.resetting.isSome || !w.opens src || decide (w.ndst ≤ idx.block) || decide (w.blk < idx.off + bytes.length) ||
          w.seen.contains (stream, idx.block, idx.off) then some d
      else
        let note : CteWindow → CteWindow := fun x => if x.id = win then { x with seen := (stream, idx.block, idx.off) :: x.seen } else x
        let d := d.modPart p.pid fun p => { p with windows := p.windows.map note }
        some { d with arrived := d.arrived ++ [{
          die := Config.pick d.fresh % 4, win, idx := idx.block, stream, off := idx.off, bytes, dst := none, left := sectorsIn bytes.length, held := false }] }

def Dev.modArrived (d : Dev) (a : CteIn) (f : CteIn → Option CteIn) : Dev :=
  { d with arrived := d.arrived.flatMap fun x => if x = a then (f x).toList else [x] }

/-- A fault at the destination: recorded in the receiver's buffer and held, or the bytes are dropped (R376). -/
def Dev.landFault (d : Dev) (pid : Nat) (a : CteIn) (f? : Option MemFault) : Dev :=
  match f?.filter (·.mendable) with
  | some f =>
    (d.recordFault pid f 0 { src := .cte, ctx := 0, core := 0, grp := 0, pc := 0 }).modArrived a fun a => some { a with held := true }
  | none => d.modArrived a fun _ => none

/-- An engine's access of a landing block: its value goes on, a fault is the block's. -/
def landAccess {α : Type} (r : Dev × Eng α) (pid : Nat) (a : CteIn) (go : Dev → α → Dev) : Dev :=
  match r with
  | (d, .ok x) => go d x
  | (d, .fault f) => d.landFault pid a (some f)
  | (d, .ecc) => d.landFault pid a none

/-- What has landed of a block before these bytes. -/
def CteWindow.landedOf (w : CteWindow) (a : CteIn) : Nat :=
  ((w.parts.find? fun x => x.stream == a.stream && x.idx == a.idx).map (·.bytes)).getD 0

/-- The window notes what has landed of a block: `n` bytes, or none of it any more. -/
def CteWindow.noteLanded (w : CteWindow) (a : CteIn) (n : Option Nat) : CteWindow :=
  { w with parts := (n.toList.map fun n => { stream := a.stream, idx := a.idx, bytes := n }) ++
      w.parts.filter fun x => !(x.stream == a.stream && x.idx == a.idx) }

def Dev.modWindow (d : Dev) (pid win : Nat) (f : CteWindow → CteWindow) : Dev :=
  d.modPart pid fun p => { p with windows := p.windows.map fun x => if x.id = win then f x else x }

/-- Bytes have landed and performed: with the last of its block the counter rises by the block's size, as a release at
.SYS (R374). -/
def Dev.countLanded (d : Dev) (p : Partition) (w : CteWindow) (a : CteIn) : Dev :=
  let n := w.landedOf a + a.bytes.length
  if n < w.blk then (d.modWindow p.pid w.id (·.noteLanded a (some n))).modArrived a fun _ => none
  else landAccess (d.engWord a.die p.pid w.asid w.cnt) p.pid a fun d x =>
    landAccess (d.engWrite a.die p.pid w.asid w.cnt (wordBytes (x + BitVec.ofNat 64 w.blk))) p.pid a fun d _ =>
      (d.modWindow p.pid w.id (·.noteLanded a none)).modArrived a fun _ => none

/-- The block's address is read from the window's table; a piece lands, in any order; or what has performed is counted
(R374). None while it waits. -/
def Dev.land (d : Dev) (a : CteIn) : Option Dev :=
  if a.held then none
  else match d.window? a.win with
  | none => some (d.modArrived a fun _ => none)
  | some (p, w) => match a.dst, a.left[Config.pick d.fresh % a.left.length]? with
    | none, _ => some (landAccess (d.engWord a.die p.pid w.asid (w.table + 8 * a.idx)) p.pid a fun d dst =>
        if w.blk ≠ 0 ∧ dst.toNat % w.blk ≠ 0 then d.landFault p.pid a none
        else d.modArrived a fun a => some { a with dst := some dst.toNat })
    | some dst, some k => some (landAccess
        (d.engWrite a.die p.pid w.asid (dst + a.off + 32 * k) ((a.bytes.drop (32 * k)).take 32)) p.pid a fun d _ =>
        d.modArrived a fun a => some { a with left := a.left.erase k })
    | some _, none => if d.settle < d.cycle then some (d.countLanded p w a) else none

/-! ## Ports (R370 to R372) -/

def Dev.modPort (d : Dev) (n : Nat) (f : Port → Port) : Dev := { d with ports := listSet d.ports n f }

/-- The ports of Kora buffers, on a 9440-M (R1, R370). -/
def Dev.koraPort (d : Dev) (n : Nat) : Bool := d.capacity && decide (n % 6 < 2)

/-- What follows when a peer has no live port: posted stores are discarded, and chains that send to it halt (R371, R376). -/
def Dev.losePeer (d : Dev) (n : Nat) : Dev :=
  let d := { d with reqs := d.reqs.filter fun r => !(r.postedTo == some (64 + n) && !r.done) }
  ((d.blocks.filter fun b => b.dest == n).map (·.chain)).eraseDups.foldl (fun d k => d.chainHalt k 0x12) d

/-- A port is no longer up; what was on it goes by the peer's other ports while there are any (R371). -/
def Dev.portDown (d : Dev) (n : Nat) : Dev :=
  let d := d.modPort n fun p => { p with up := false, replays := 0 }
  (d.peers.filter fun (k, p) => p.ports.getLsbD n && d.peerDead k).foldl (fun d (k, _) => d.losePeer k) d

/-- PARZON_FLIT: a flit that fails its CRC is replayed; after 8 failed replays the port retrains, or goes down with
EVT[3] (R370). -/
def execParzonFlit (n : Nat) (crcOk retrainOk : Bool) (s : State) : Res :=
  withEvent s fun d => do
    let p ← d.ports[n]?
    if !p.up ∨ p.mode ≠ .parzon then none
    else if crcOk then some (d.modPort n fun p => { p with replays := 0 })
    else if p.replays < 8 then some (d.modPort n fun p => { p with replays := p.replays + 1 })
    else if retrainOk then some (d.modPort n fun p => { p with replays := 0 })
    else some ((d.portDown n).setEvt 0 3)

/-- LINK_TRAINING: a Parzon port that a peer names comes up only with that peer's identity (R371). -/
def execLinkTraining (n identity : Nat) (s : State) : Res :=
  withEvent s fun d => do
    let p ← d.ports[n]?
    if p.up ∨ p.mode = .off then none
    else if p.mode = .parzon ∧ d.peers.any (fun (_, q) => q.ports.getLsbD n && q.identity != identity) then some d
    else some (d.modPort n fun p => { p with up := true, replays := 0 })

/-- ETHERNET_FRAME: every frame but a CTE datagram is discarded and counted (R372). -/
def execEthernetFrame (n : Nat) (isCte : Bool) (s : State) : Res :=
  withEvent s fun d => do
    let p ← d.ports[n]?
    if !p.up ∨ p.mode ≠ .ethernet then none
    else some (if isCte then d else d.modPort n fun p => { p with discarded := p.discarded + 1 })

end Sys2Proof.Machine
end

