-- ==== Sys2Proof/Machine/Mailbox.lean ====
section
/-! DEFINITION. The function pages (R366, R368) and the mailbox commands of every function: translation, queues, nodes,
chains, the fault buffer, the debugger, receive windows (R40, R58, R161, R165, R281, R282, R317 to R320, R334, R374, R375,
R391). Arguments and results stand in successive words in R367's order (log 33). -/

namespace Sys2Proof.Machine

/-! ## Commands (R366, R367) -/

def Partition.arg (p : Partition) (k : Nat) : Word64 := fget 0 p.box.arg k
def Partition.argN (p : Partition) (k : Nat) : Nat := (p.arg k).toNat

/-- A command's end: OUT, then STS, then vector 0 when INTR asks for it (R366). -/
def Dev.answerCmd (d : Dev) (pid : Nat) (result : BitVec 8) (out : List Word64) : Dev :=
  let d := d.modPart pid fun p => { p with box := { p.box with
    busy := false, wait := none, result, dtag := p.box.tag
    out := out.zipIdx.foldl (fun m (w, k) => fset 0 m k w) p.box.out } }
  if (d.part pid).box.intr then d.raiseVec pid 0 else d

/-- What a command ends in. -/
inductive Reply where
  | now (result : BitVec 8) (out : List Word64)
  | later (w : CmdWait)

/-- The function has issued this command and Lute has not begun it. -/
def Partition.asks (p : Partition) (opc : Nat) : Bool :=
  p.box.busy && p.box.opc.toNat == opc && p.box.wait.isNone && p.resetting.isNone

/-- A command of a function: refused with 0x02 where R367 or the recovery state does not permit it (R379). -/
def runCommand (s : State) (pid opc : Nat) (pfOnly : Bool) (f : State → Partition → State × Reply) : Res :=
  match s.dev.parts[pid]? with
  | none => .refused .notPending
  | some p =>
    if !p.asks opc then .refused .notPending
    else if (pfOnly && pid != 0) || (s.fw.recovery && opc != 0x25 && opc != 0x26) then
      .next { s with dev := s.dev.answerCmd pid 2 [] }
    else match f s p with
      | (s, .now r out) => .next { s with dev := s.dev.answerCmd pid r out }
      | (s, .later w) => .next { s with dev := s.dev.modPart pid fun p => { p with box := { p.box with wait := some w } } }

/-- A command that acts on the device alone. -/
def devCommand (s : State) (pid opc : Nat) (pfOnly : Bool) (f : Dev → Partition → Dev × Reply) : Res :=
  runCommand s pid opc pfOnly fun s p =>
    let (d, r) := f s.dev p
    ({ s with dev := d }, r)

def invalid : Reply := .now 3 []
def okay : Reply := .now 0 []

/-- An ASID of the partition's range (R364). -/
def PartRec.ownsAsid (r : PartRec) (asid : Nat) : Bool := decide (r.asidb ≤ asid) && decide (asid < r.asidb + r.asidn)

/-- A 64-byte descriptor at an address of an ASID of the caller; none where R367 answers 0x03. -/
def Dev.descriptor (d : Dev) (p : Partition) (a asid : Nat) : Dev × Option (List Word64) :=
  if a % 64 ≠ 0 ∨ !p.rec_.ownsAsid asid then (d, none)
  else match d.engWords 0 p.pid asid a 8 with
    | (d, .ok ws) => (d, some ws)
    | (d, _) => (d, none)

/-! ## Translation (R161, R165) -/

/-- SET_ROOT (R161, R365). -/
def execSetRoot (pid : Nat) (s : State) : Res :=
  devCommand s pid 2 false fun d p =>
    let (asid, root) := (p.argN 0, p.argN 1)
    if !p.rec_.ownsAsid asid || root % 16 != 0 || !paLegal d.capacity root || !p.rec_.allows root 16 then (d, invalid)
    else ({ d with roots := fset 0 d.roots asid (root + 1) }, okay)

/-- A page lies in a range. -/
def Leaf.within (l : Leaf) (va n : Nat) : Bool := decide (l.base < va + n) && decide (va < l.base + l.size)

/-- Translations of a range dropped from every TLB. -/
def Dev.dropRange (d : Dev) (asid va n : Nat) : Dev :=
  let keep : Leaf → Bool := fun l => !(l.asid == asid && l.within va n)
  { d with
    cores := d.cores.map fun (k, c) => (k, { c with tlb := c.tlb.filter keep })
    dies := d.dies.map fun x => { x with l2tlb := x.l2tlb.filter keep } }

/-- The ASID a round's calls translate under. -/
def Dev.roundAsid (d : Dev) (r : Round) : Option Nat :=
  match r.owner with
  | .team t => ((d.team? t).bind fun t => d.grid? t.grid).map (·.asid)
  | .context n => (d.ctx? n).map (·.asid)

/-- Near-memory calls of an ASID that have not ended. -/
def Dev.openCalls (d : Dev) (asid : Nat) : List Nat :=
  (d.rounds.filter fun r => d.roundAsid r == some asid).flatMap fun r => (r.calls.filter fun c => !c.ended).map (·.id)

/-- Accesses of an ASID's range whose pages have been found and that are still to perform: requests, near-memory calls,
EMBAGs and DENSEs (R165, R226). -/
def Dev.openUnder (d : Dev) (asid va n : Nat) : List Nat :=
  (d.reqs.filter fun r => r.asid == asid && !r.done && r.target.isNone &&
    r.parts.any fun p => decide (p.va < va + n) && decide (va < p.va + p.size)).map (·.id) ++
  d.openCalls asid ++
  (d.embags.filter fun e => ((d.team? e.by_.team).bind fun t => d.grid? t.grid).any (·.asid == asid)).map (·.id) ++
  (d.dense.filter fun r => r.asid == asid && !r.served && (r.out.pages ++ [r.status.2]).any (·.within va n)).map (·.id)

/-- INVALIDATE: it completes once every access under the old translation has performed (R165, R226). -/
def execInvalidate (pid : Nat) (s : State) : Res :=
  devCommand s pid 3 false fun d p =>
    let asid := p.argN 0
    if !p.rec_.ownsAsid asid then (d, invalid)
    else
      let ids := d.openUnder asid (p.argN 1) (p.argN 2)
      (d.dropRange asid (p.argN 1) (p.argN 2), if ids.isEmpty then okay else .later (.calls ids))

/-! ## Queues (R40, R48) -/

/-- A queue descriptor's limits (R40). -/
def Partition.queueBad (p : Partition) (ws : List Word64) : Bool :=
  let f := fun (k lo n : Nat) => bits (ws.getD k 0).toNat lo n
  f 0 56 8 != 0 || f 0 48 4 != 0 || decide (f 0 52 4 < 2) || f 0 0 12 != 0 || f 1 60 4 == 0 || f 1 56 4 != 0 || f 1 48 8 == 0 ||
  f 1 0 3 != 0 || f 2 35 29 != 0 || decide (p.rec_.ceil < f 2 32 3) || f 3 12 52 != 0 || !p.rec_.ownsAsid (f 3 0 12) ||
  (ws.drop 4).any (· != 0)

/-- The lowest number a list does not hold, below a bound. -/
def lowestFree (used : List Nat) (n : Nat) : Option Nat := (List.range n).find? fun k => !used.contains k

/-- The lane of a new queue: the lowest-numbered die that DIES allows, and its lowest free lane (R40). -/
def Dev.freeLane (d : Dev) (dies : BitVec 4) : Option Nat :=
  (List.range 4).findSome? fun k =>
    if dies.getLsbD k then (lowestFree ((d.queues.filter fun q => q.num / 64 == k).map (·.num % 64)) 64).map fun l => 64 * k + l
    else none

/-- CREATE_QUEUE (R40, R42, R367). -/
def execCreateQueue (pid : Nat) (s : State) : Res :=
  devCommand s pid 4 false fun d p =>
    match d.descriptor p (p.argN 0) (p.argN 1) with
    | (d, none) => (d, invalid)
    | (d, some ws) =>
      let f := fun (k lo n : Nat) => bits (ws.getD k 0).toNat lo n
      if p.queueBad ws || f 3 0 12 != p.argN 1 || decide (p.rec_.nvec ≤ p.argN 2) then (d, invalid)
      else match d.freeLane (BitVec.ofNat 4 (f 1 60 4)), lowestFree ((d.queues.filter fun q => q.pid == pid).map (·.page)) 256 with
        | some num, some page =>
          let seq0 := BitVec.ofNat 32 (f 2 0 32)
          let q : Queue := {
            num, pid, page, vec := p.argN 2, logn := f 0 52 4, ring := f 0 0 48, dies := BitVec.ofNat 4 (f 1 60 4), wgt := f 1 48 8
            stat := f 1 0 48, prio := f 2 32 3, asid := f 3 0 12, head := seq0, kick := seq0, halted := false, err := false, code := 0
            posts := [], deficit := 0, since := none, level := 0, taken := [], slot := none, dying := false }
          ({ d with queues := d.queues ++ [q] }, .now 0 [BitVec.ofNat 64 num, BitVec.ofNat 64 page])
        | _, _ => (d, .now 4 [])

/-- A queue of the caller. -/
def Dev.ownQueue? (d : Dev) (pid q : Nat) : Option Queue := (d.queue? q).filter (·.pid == pid)

/-- DESTROY_QUEUE: as ABORT; the queue is free once its teams have gone (R47, R367). -/
def execDestroyQueue (pid : Nat) (s : State) : Res :=
  devCommand s pid 5 false fun d p =>
    match d.ownQueue? pid (p.argN 0) with
    | none => (d, invalid)
    | some q => ((d.modQueue q.num fun q => { q with dying := true }).abortWork q.num, .later (.queue q.num))

/-- A queue that is being destroyed has no work left. -/
def Dev.queueEmpty (d : Dev) (q : Nat) : Bool :=
  !(d.grids.any fun g => g.queue == q && !g.origin.ofNode) && !d.graphs.any (·.queue == q) && (d.queue? q).all (·.posts.isEmpty)

def Dev.freeQueue (d : Dev) (q : Nat) : Dev :=
  { d with queues := d.queues.filter fun x => x.num != q, dies := d.dies.map fun x => { x with round := x.round.filter (· != q) } }

/-- RESUME_QUEUE: ERR and CODE stay as the status word says, which is next written when HEAD advances (R45, R48). -/
def execResumeQueue (pid : Nat) (s : State) : Res :=
  devCommand s pid 6 false fun d p =>
    match d.ownQueue? pid (p.argN 0) with
    | none => (d, invalid)
    | some q => (d.modQueue q.num fun q => { q with halted := false }, okay)

/-! ## Nodes (R58, R391) -/

/-- A node of a descriptor, or none where its limits or its OWNQ are broken (R58, R367). -/
def Dev.nodeOf (d : Dev) (pid asid : Nat) (ws : List Word64) : Option Node := do
  let f := fun (k lo n : Nat) => bits (ws.getD k 0).toNat lo n
  let q ← d.ownQueue? pid (f 2 0 16)
  let (nbuf, bcap, rsz) := (f 2 56 8, f 2 45 11, 8 * f 2 32 8)
  if f 0 48 16 != 0 || f 1 0 6 != 0 || decide (nbuf < 2) || decide (64 < nbuf) || bcap == 0 || decide (1024 < bcap) ||
      f 2 40 5 != 0 || rsz == 0 || decide (256 < rsz) || f 2 16 16 != 0 || (ws.drop 3).any (· != 0) || q.asid != asid then none
  else some { id := 0, pid, asid, lrec := f 0 0 48, gtim := f 1 48 16, bufa := f 1 0 48, nbuf, bcap, rsz, ownq := q.num
              bufs := List.replicate nbuf emptyBuf, next := 0, firing := 0, destroyed := false }

/-- A new node takes the lowest free id; none when all are in use. -/
def Dev.addNode (d : Dev) (n : Node) : Option (Nat × Dev) :=
  (lowestFree (d.nodes.map (·.id)) 4096).map fun id => (id, { d with nodes := d.nodes ++ [{ n with id }] })

/-- CREATE_NODE (R58). -/
def execCreateNode (pid : Nat) (s : State) : Res :=
  devCommand s pid 7 false fun d p =>
    match d.descriptor p (p.argN 0) (p.argN 1) with
    | (d, none) => (d, invalid)
    | (d, some ws) => match d.nodeOf pid (p.argN 1) ws with
      | none => (d, invalid)
      | some n => match d.addNode n with
        | some (id, d) => (d, .now 0 [BitVec.ofNat 64 id])
        | none => (d, .now 4 [])

/-- DESTROY_NODE: the id names no node for a new producer; what producers hold for want of a free buffer still enters
(R391). -/
def execDestroyNode (pid : Nat) (s : State) : Res :=
  devCommand s pid 8 false fun d p =>
    match d.liveNode? pid (p.argN 0) with
    | none => (d, invalid)
    | some n =>
      let full := !d.nodeRoom n.id
      let keep : CtxRec → CtxRec := fun r => if r.node = n.id ∧ !r.sent then { r with entering := true } else r
      let held : Ctx → Ctx := fun c => if c.pid = pid ∧ full ∧ d.ctxQuiet c.num then { c with recs := c.recs.map keep } else c
      ({ d.modNode n.id fun n => { n with destroyed := true } with ctxs := d.ctxs.map held }, .later (.node n.id))

/-- What a destroyed node does next: its last buffer fires once no producer holds records, and then it is gone. -/
def Dev.nodeEnds (d : Dev) (n : Node) : Option Dev :=
  if !n.destroyed || d.recordsHeld n then none
  else match d.lastCall n with
    | some k => some (d.fire n k)
    | none =>
      if n.bufs.all fun b => !(b.state matches .fired _) then some { d with nodes := d.nodes.filter fun x => x.id != n.id }
      else none

/-! ## Chains (R281, R282) -/

/-- A chain descriptor's limits (R281). -/
def chainBad (ws : List Word64) : Bool :=
  let f := fun (k lo n : Nat) => bits (ws.getD k 0).toNat lo n
  f 0 60 4 == 0 || decide (4 < f 0 60 4) || decide (f 0 56 4 < 2) || f 0 48 8 != 0 || f 0 0 12 != 0 ||
  decide ((if f 0 60 4 = 1 then 512 else 4) ≤ f 1 48 16) || f 1 0 3 != 0 || (ws.drop 3).any (· != 0)

/-- REGISTER_CHAIN: CWORD is written as 0; a fault of that write is like any other of CWORD's (R281, R282). -/
def execRegisterChain (pid : Nat) (s : State) : Res :=
  devCommand s pid 9 false fun d p =>
    match d.descriptor p (p.argN 0) (p.argN 1) with
    | (d, none) => (d, invalid)
    | (d, some ws) =>
      let f := fun (k lo n : Nat) => bits (ws.getD k 0).toNat lo n
      if chainBad ws || (d.chain? (chainKey pid (p.argN 0))).isSome then (d, invalid)
      else
        let c : Chain := {
          addr := p.argN 0, pid, asid := p.argN 1, eng := f 0 60 4, logn := f 0 56 4, ring := f 0 0 48, tgt := f 1 48 16
          cword := f 1 0 48, head := 0, tail := 0, lead := 0, done := [], halted := false, code := 0, due := true, told := false
          held := false, stuck := false }
        (({ d with chains := d.chains ++ [c] } : Dev).chainWrite c, okay)

/-- RESUME_CHAIN: the word at 0x10 is written back to zero, and the engine takes up the entries that have not completed
(R282; log 27). A halt that its engine has still to write and signal comes first. -/
def execResumeChain (pid : Nat) (s : State) : Res :=
  if s.dev.chains.any fun c => c.pid == pid && (s.dev.parts[pid]?).any (fun p => c.addr == p.argN 0) && c.halted && !c.told then
    .refused .notPending
  else devCommand s pid 10 false fun d p =>
    match d.chain? (chainKey pid (p.argN 0)) with
    | none => (d, invalid)
    | some c =>
      if !c.halted then (d, okay)
      else
        let d := (d.engWrite c.die pid c.asid (c.addr + 0x10) (natBytes 8 0)).1
        (d.modChain c.key fun c => Chain.rise { c with
          halted := false, code := 0, told := false, stuck := false
          head := if c.eng = 3 then c.head else leadFrom c.done c.done.length c.lead }, okay)

/-- The chain is gone, and what its engine has not completed with it. -/
def Dev.dropChain (d : Dev) (key : Nat) : Dev :=
  let d := d.chainHalt key 4
  { d with chains := d.chains.filter fun c => c.key != key }

/-- DROP_CHAIN (R367). -/
def execDropChain (pid : Nat) (s : State) : Res :=
  devCommand s pid 11 false fun d p =>
    match d.chain? (chainKey pid (p.argN 0)) with
    | none => (d, invalid)
    | some c => (d.dropChain c.key, okay)

/-! ## The fault buffer (R317 to R320) -/

/-- FAULT_CFG: DEPTH is written only while COUNT is 0 (R317). -/
def execFaultCfg (pid : Nat) (s : State) : Res :=
  devCommand s pid 12 false fun d p =>
    let (n, vec) := (p.argN 0, p.argN 1)
    if n < 8 ∨ 512 < n ∨ p.rec_.nvec ≤ vec then (d, invalid)
    else (d.modPart pid fun p =>
      if p.entries.isEmpty then { p with depth := n, seq := 0, fvec := vec } else { p with fvec := vec }, okay)

/-- The register of R317. -/
def Partition.faultWord (p : Partition) : Word64 :=
  BitVec.ofNat 64 ((if p.drop then 2 ^ 63 else 0) + p.dropn.toNat * 2 ^ 32 + p.entries.length * 2 ^ 16 + p.depth)

/-- An entry's four words (R318). -/
def FaultEntry.words (e : FaultEntry) : List Word64 :=
  [BitVec.ofNat 64 (e.asid * 2 ^ 48 + e.va % 2 ^ 48),
   BitVec.ofNat 64 (e.cause.toNat * 2 ^ 56 + e.src * 2 ^ 52 + e.lvl * 2 ^ 50 + (if e.wr then 2 ^ 49 else 0) +
     (if e.k then 2 ^ 48 else 0) + e.ctx * 2 ^ 40 + e.lanes.toNat),
   BitVec.ofNat 64 (e.core * 2 ^ 55 + e.grp * 2 ^ 49 + e.pc.toNat),
   e.dup ++ e.seq]

/-- FAULT_READ (R317, R318). -/
def execFaultRead (pid : Nat) (s : State) : Res :=
  devCommand s pid 13 false fun d p =>
    (d, .now 0 (p.faultWord :: ((p.entries.drop (p.argN 0)).take 7).flatMap (·.words)))

/-- A parked group is released (R320, R324). -/
def Group.unpark (g : Group) : Group :=
  if g.parked then
    { g with
      parked := false
      splits := g.splits.map fun x => if x.wait = .parked then { x with wait := if g.loaded then .rerun else .ready } else x }
  else g

/-- REPLAY-ALL for one partition (R320). -/
def Dev.replayAll (d : Dev) (pid : Nat) : Dev :=
  let mine : Nat → Bool := fun gid => ((d.grid? gid).map (·.pid)) == some pid
  let mat : MatOp → MatOp := fun m => match m.kind with
    | .mmah o a sc b => if m.pid = pid then { m with kind := .mmah o a sc { b with held := false } } else m
    | _ => m
  let d := d.modPart pid fun p => { p with entries := [], keys := [], drop := false, dropn := 0 }
  let wins := (d.part pid).windows.map (·.id)
  { d with
    teams := d.teams.map fun t => if mine t.grid then { t with groups := t.groups.map Group.unpark } else t
    copies := d.copies.map fun c => if c.pid = pid then { c with held := false } else c
    mats := d.mats.map mat
    chains := d.chains.map fun c => if c.pid = pid then { c with held := false, stuck := false } else c
    ctxs := d.ctxs.map fun c => if c.pid = pid then { c with held := false } else c
    jobs := d.jobs.map fun j => if j.pid = pid then { j with held := false } else j
    blocks := d.blocks.map fun b => if b.chain / 2 ^ 48 = pid then { b with held := false } else b
    arrived := d.arrived.map fun a => if wins.contains a.win then { a with held := false } else a }

/-- REPLAY_ALL (R320). -/
def execReplayAll (pid : Nat) (s : State) : Res := devCommand s pid 14 false fun d _ => (d.replayAll pid, okay)

/-! ## The debugger (R334) -/

/-- DEBUG's operation is in ARG word 0: 1 attach, 2 detach, 3 stop, 4 read, 5 write (log 33). -/
def debugCommand (s : State) (pid op : Nat) (f : Dev → Partition → Dev × Reply) : Res :=
  match s.dev.parts[pid]? with
  | none => .refused .notPending
  | some p => if p.argN 0 % 256 = op then devCommand s pid 15 false f else .refused .notPending

/-- DEBUG_ATTACH. -/
def execDebugAttach (pid : Nat) (s : State) : Res :=
  debugCommand s pid 1 fun d _ => (d.modPart pid fun p => { p with debugger := true }, okay)

/-- The groups of a partition go on. -/
def Dev.unstop (d : Dev) (pid : Nat) : Dev :=
  let go : Team → Team := fun t =>
    if ((d.grid? t.grid).map (·.pid)) = some pid then { t with groups := t.groups.map fun (g : Group) => { g with stop := false } } else t
  { d with teams := d.teams.map go }

/-- DEBUG_DETACH: stopped groups resume (log 33). -/
def execDebugDetach (pid : Nat) (s : State) : Res :=
  debugCommand s pid 2 fun d _ => ((d.modPart pid fun p => { p with debugger := false }).unstop pid, okay)

/-- The group that ARG words 1 to 3 name: its grid, its team and its number (log 33). -/
def Dev.debugGroup? (d : Dev) (p : Partition) : Option (GroupRef × Group) := do
  let g ← d.grid? (p.argN 1)
  let t ← d.teams.find? fun t => t.grid == g.id && t.num == p.argN 2
  let x ← t.group? (p.argN 3)
  if p.debugger ∧ g.pid = p.pid then some (⟨t.inst, x.num⟩, x) else none

/-- DEBUG_STOP. -/
def execDebugStop (pid : Nat) (s : State) : Res :=
  debugCommand s pid 3 fun d p =>
    match d.debugGroup? p with
    | some (r, _) => (d.modGroup r fun g => { g with stop := true }, okay)
    | none => (d, invalid)

/-- The group counts as stopped: every split is at a clause boundary or waits, and its loads have written (R334). -/
def Group.stopped (g : Group) : Bool := g.stop && g.splits.all (·.halts) && g.owed.all fun o => !o.memory

/-- What ARG words 4 to 6 name of a group: 0 a vector register of a lane, 1 a lane's predicates, 2 a slice's copy of a
scalar, 3 a word of the trap record (log 33). -/
def Group.debugRead (g : Group) (kind lane n : Nat) : Option Word64 :=
  match kind with
  | 0 => if n < 256 ∧ lane < 4 * g.slices.length then some ((g.vreg lane n).setWidth 64) else none
  | 1 => if lane < 4 * g.slices.length then some ((fget 0 g.p lane ||| 0x80#8).setWidth 64) else none
  | 2 => if n < 64 ∧ lane < g.slices.length then some (g.sreg lane n) else none
  | 3 => [g.tr0, g.tr1, g.tr2, g.tr3][n]?
  | _ => none

/-- What DEBUG writes there; bits that read zero are discarded (R8, R326). -/
def Group.debugWrite (g : Group) (kind lane n : Nat) (w : Word64) : Group :=
  match kind with
  | 0 => g.storeV lane n (w.setWidth 32)
  | 1 => { g with p := fset 0 g.p lane (w.setWidth 8 &&& 0x7F#8) }
  | 2 => g.storeS (1#8 <<< lane) n w
  | _ => match n with
    | 0 => { g with tr0 := w &&& 0x0000FFFFFFFFFFFF }
    | 1 => { g with tr1 := w }
    | 2 => { g with tr2 := w }
    | _ => { g with tr3 := w &&& 0xF000FFFFFFFFFFFF }

/-- DEBUG_READ. -/
def execDebugRead (pid : Nat) (s : State) : Res :=
  debugCommand s pid 4 fun d p =>
    match (d.debugGroup? p).bind fun x => if x.2.stopped then x.2.debugRead (p.argN 4) (p.argN 5) (p.argN 6) else none with
    | some w => (d, .now 0 [w])
    | none => (d, invalid)

/-- DEBUG_WRITE: it performs at once. -/
def execDebugWrite (pid : Nat) (s : State) : Res :=
  debugCommand s pid 5 fun d p =>
    match d.debugGroup? p with
    | some (r, g) =>
      if g.stopped ∧ (g.debugRead (p.argN 4) (p.argN 5) (p.argN 6)).isSome then
        (d.modGroup r (·.debugWrite (p.argN 4) (p.argN 5) (p.argN 6) (p.arg 7)), okay)
      else (d, invalid)
    | none => (d, invalid)

/-! ## Receive windows and endpoints (R374, R375) -/

/-- CTE_WINDOW: ARG holds the id, the ASID, the table, NDST, the destination block size, the counter, the peers, and the
endpoints in four words (log 33). -/
def execCteWindow (pid : Nat) (s : State) : Res :=
  devCommand s pid 16 false fun d p =>
    let w : CteWindow := {
      id := p.argN 0, asid := p.argN 1, table := p.argN 2, ndst := p.argN 3, blk := p.argN 4, cnt := p.argN 5
      from_ := (p.arg 6, p.arg 10 ++ p.arg 9 ++ p.arg 8 ++ p.arg 7), seen := [], parts := [] }
    let taken := d.parts.any fun q => q.pid != pid && q.windows.any (·.id == w.id)
    if 1023 < w.id ∨ taken ∨ !p.rec_.ownsAsid w.asid ∨ w.table % 8 ≠ 0 ∨ w.cnt % 8 ≠ 0 ∨ 2 ^ 48 ≤ w.table ∨ 2 ^ 48 ≤ w.cnt then
      (d, invalid)
    else (d.modPart pid fun p => { p with windows := p.windows.filter (fun x => x.id != w.id) ++ [w] }, okay)

/-- CTE_ENDPOINT: ARG holds the endpoint's number, then what R375 names (log 33). -/
def execCteEndpoint (pid : Nat) (s : State) : Res :=
  devCommand s pid 17 false fun d p =>
    let e : CteEndpoint := { id := p.argN 0, args := (List.range 6).map fun k => p.arg (k + 1) }
    if 255 < e.id then (d, invalid)
    else (d.modPart pid fun p => { p with endpoints := p.endpoints.filter (fun x => x.id != e.id) ++ [e] }, okay)

/-! ## The pages (R366, R368) -/

/-- What a 64-bit read of a function's BAR0 gives: CMD, STS, EVT, ARG, OUT, the MSI-X table and the pending bits; zero
elsewhere (R366). -/
def Mailbox.read (b : Mailbox) (off : Nat) : Word64 :=
  let flag : Bool → Word64 := fun x => if x then 1 else 0
  let vec := (off - 0x8000) / 16
  if off = 0 then (b.tag.setWidth 64 <<< 32) ||| (flag b.intr <<< 8) ||| b.opc.setWidth 64
  else if off = 8 then (b.dtag.setWidth 64 <<< 32) ||| (flag b.busy <<< 31) ||| (flag b.lost <<< 30) ||| b.result.setWidth 64
  else if off = 0x10 then b.evt.setWidth 64
  else if 0x100 ≤ off ∧ off < 0x200 ∧ off % 8 = 0 then fget 0 b.arg ((off - 0x100) / 8)
  else if 0x200 ≤ off ∧ off < 0x300 ∧ off % 8 = 0 then fget 0 b.out ((off - 0x200) / 8)
  else if 0x8000 ≤ off ∧ vec < 64 ∧ off % 8 = 0 then
    fget 0 b.msix ((off - 0x8000) / 8) ||| (if off % 16 = 8 then flag (b.masked.contains vec) <<< 32 else 0)
  else if off = 0x9000 then b.pending.foldl (fun w k => w ||| (1#64 <<< k)) 0
  else 0

/-- What a 64-bit read of a kick page gives: HEAD and KICK; zero where it has no queue (R368). -/
def Dev.kickPage (d : Dev) (pid page : Nat) : Word64 :=
  match d.queues.find? fun q => q.pid == pid && q.page == page with
  | some q => q.head ++ q.kick
  | none => 0

/-- UNKNOWN_COMMAND: an OPC that names no command answers 0x01; an operation of DEBUG, FW_UPDATE or DUMP_READ that is not
one of its own answers 0x03 (R366, R367; log 33). -/
def execUnknownCommand (pid : Nat) (s : State) : Res :=
  match s.dev.parts[pid]? with
  | none => .refused .notPending
  | some p =>
    let opc := p.box.opc.toNat
    let op := p.argN 0 % 256
    let known := (1 ≤ opc && opc ≤ 0x11) || (0x20 ≤ opc && opc ≤ 0x26)
    let oddOp := (opc == 0x0F && (op == 0 || 5 < op)) || (opc == 0x25 && (op == 0 || 4 < op)) || (opc == 0x26 && (op == 0 || 3 < op))
    if !known then devCommand s pid opc false fun d _ => (d, .now 1 [])
    else if oddOp then devCommand s pid opc (opc != 0x0F) fun d _ => (d, invalid)
    else .refused .notPending

/-- MAILBOX_WRITE_WHILE_BUSY (R366). -/
def execMailboxWriteWhileBusy (pid : Nat) (_v : BitVec 64) (s : State) : Res :=
  withEvent s fun d => do
    let p ← d.parts[pid]?
    if p.box.busy then some (d.modPart pid fun p => { p with box := { p.box with lost := true } }) else none

/-- STS_READ: LOST is cleared (R366). -/
def execStsRead (pid : Nat) (s : State) : Res :=
  withEvent s fun d => do
    let _ ← d.parts[pid]?
    some (d.modPart pid fun p => { p with box := { p.box with lost := false } })

/-- EVT_CLEAR (R366). -/
def execEvtClear (pid : Nat) (v : BitVec 64) (s : State) : Res :=
  withEvent s fun d => do
    let _ ← d.parts[pid]?
    some (d.modPart pid fun p => { p with box := { p.box with evt := p.box.evt &&& ~~~(v.setWidth 6) } })

/-- A write of CMD issues a command; while one runs it is discarded and sets LOST, and in a reset it is discarded
(R366, R369). -/
def Partition.writeCmd (p : Partition) (v : Word64) : Partition :=
  if p.resetting.isSome then p
  else if p.box.busy then { p with box := { p.box with lost := true } }
  else { p with box := { p.box with
    tag := (v >>> 32).setWidth 32, intr := v.getLsbD 8, opc := v.setWidth 8, busy := true } }

/-- A vector's mask bit is written: a pending message goes out when it falls (R368). -/
def Dev.maskVec (d : Dev) (pid vec : Nat) (m : Bool) : Dev :=
  let d := d.modPart pid fun p => { p with box := { p.box with
    masked := if m then (if p.box.masked.contains vec then p.box.masked else vec :: p.box.masked) else p.box.masked.filter (· != vec) } }
  if !m ∧ (d.part pid).box.pending.contains vec then
    (d.modPart pid fun p => { p with box := { p.box with pending := p.box.pending.filter (· != vec) } }).raiseVec pid vec
  else d

/-- A write of a word of the MSI-X table: the address, or the data with the vector's mask bit (R368; log 10). -/
def Dev.writeMsix (d : Dev) (pid k : Nat) (v : Word64) : Dev :=
  let keep := if k % 2 = 1 then v &&& 0xFFFFFFFF else v
  let d := d.modPart pid fun p => { p with box := { p.box with msix := fset 0 p.box.msix k keep } }
  if k % 2 = 1 then d.maskVec pid (k / 2) (v.getLsbD 32) else d

/-- REGISTER_WRITE: CMD, ARG and the MSI-X table; a write to any other register of the page is
discarded (R366, R368). In recovery the PF's BAR4 staging window follows at 2 ^ 32, and a VF has no page (R379; log 33). -/
def execRegisterWrite (pid off : Nat) (v : BitVec 64) (s : State) : Res :=
  match s.dev.parts[pid]? with
  | none => .refused .notPending
  | some _ =>
    if s.fw.recovery ∧ pid ≠ 0 then .next s
    else if s.fw.recovery ∧ 2 ^ 32 ≤ off ∧ off + 8 ≤ 2 ^ 32 + 2 ^ 26 then
      .next { s with fw := { s.fw with staging := fsetBytes s.fw.staging (off - 2 ^ 32) (wordBytes v) } }
    else withEvent s fun d => some (
      if off = 0 then d.modPart pid (·.writeCmd v)
      else if 0x100 ≤ off ∧ off < 0x200 ∧ off % 8 = 0 then
        d.modPart pid fun p => { p with box := { p.box with arg := fset 0 p.box.arg ((off - 0x100) / 8) v } }
      else if 0x8000 ≤ off ∧ off < 0x8400 ∧ off % 8 = 0 then d.writeMsix pid ((off - 0x8000) / 8) v
      else d)

/-- MSIX_UNMASK (R368). -/
def execMsixUnmask (pid vec : Nat) (s : State) : Res :=
  withEvent s fun d => do
    let _ ← d.parts[pid]?
    if vec < 64 then some (d.maskVec pid vec false) else none

/-! ## Commands that answer later -/

/-- A waiting command's condition has come. -/
def Dev.waitOver (d : Dev) : CmdWait → Bool
  | .node n => (d.node? n).isNone
  | .queue q => d.queueEmpty q
  | .calls ids => !((d.rounds.any fun r => r.calls.any fun c => ids.contains c.id && !c.ended) ||
      (d.reqs.any fun r => ids.contains r.id && !r.done) || (d.embags.any fun e => ids.contains e.id) ||
      d.dense.any fun r => ids.contains r.id && !r.served)
  | .settled _ => decide (d.settle < d.cycle)
  | _ => false

/-- The answer of such a command. -/
def Dev.answerWait (d : Dev) (pid : Nat) : CmdWait → Dev
  | .queue q => (d.freeQueue q).answerCmd pid 0 []
  | .settled out => d.answerCmd pid 0 out
  | _ => d.answerCmd pid 0 []

end Sys2Proof.Machine
end

