-- ==== Sys2Proof/Machine/Partitions.lean ====
section
/-! DEFINITION. The PF's commands over partitions, peers, ports and front ends (R50, R364, R371, R372), and the reset of a
partition (R369). -/

namespace Sys2Proof.Machine

/-- Bytes at a host physical address, as Lute reads them; the device's own areas read as zeros (R362, R367). -/
def Dev.hostRd (d : Dev) (hpa n : Nat) : List Byte :=
  (List.range n).map fun k => match hdmOffset (hpa + k) with
    | some pa => if carveOut pa then 0 else d.rd 0 pa
    | none => d.rd 0 (2 * 2 ^ 48 + (hpa + k) % 2 ^ 48)

/-- Bytes written to a host physical address; `hdm` when the device-memory range is decoded (R362, R379). -/
def Dev.hostWr (d : Dev) (hdm : Bool) (hpa : Nat) (bs : List Byte) : Dev :=
  bs.zipIdx.foldl (fun d (b, k) => match hdmOffset (hpa + k) with
    | some pa => if carveOut pa || !hdm then d else d.engineWrite true 0 pa [b]
    | none => d.engineWrite true 0 (2 * 2 ^ 48 + (hpa + k) % 2 ^ 48) [b]) d

/-! ## Partition records (R364, R365) -/

/-- A record's fields, whatever they hold. -/
def PartRec.ofWords (ws : List Word64) : PartRec :=
  let f := fun (k lo n : Nat) => bits (ws.getD k 0).toNat lo n
  let w := fun (k : Nat) => (ws.getD k 0).toNat
  { asidb := f 0 32 12, asidn := f 0 48 13, keyb := f 0 24 8, keyn := f 0 16 8, nvec := f 0 0 7, pw := f 1 48 16, maxl := f 1 36 12
    lshare := f 1 24 8, hshare := f 1 16 8, p := f 1 8 8, ceil := f 1 0 3, peers := ws.getD 2 0, saveb := w 3, savesz := w 28
    dwin := (List.range 8).map fun i => (w (4 + 2 * i), w (5 + 2 * i))
    hwin := (List.range 4).map fun i => (w (20 + 2 * i), w (21 + 2 * i))
    cores := (List.range 8).foldr (fun i (acc : BitVec 512) => (acc <<< 64) ||| (ws.getD (32 + i) 0).setWidth 512) 0 }

/-- A window of some regions: 32 MiB aligned, its limit not below its base (R364). -/
def windowOk (regions : List Nat) (w : Nat × Nat) : Bool :=
  w.1 % 2 ^ 25 == 0 && decide (w.1 ≤ w.2) && (w.1 == w.2 || (regions.contains (paRegion w.1) && paRegion (w.2 - 1) == paRegion w.1))

/-- A record outside the limits of R364. -/
def partRecBad (ws : List Word64) : Bool :=
  let r := PartRec.ofWords ws
  let f := fun (k lo n : Nat) => bits (ws.getD k 0).toNat lo n
  f 0 61 3 != 0 || f 0 44 4 != 0 || f 0 7 9 != 0 || f 1 32 4 != 0 || f 1 3 5 != 0 || (List.range 3).any (fun k => ws.getD (29 + k) 0 != 0) ||
  decide (4096 < r.asidb + r.asidn) || r.keyb == 0 || decide (256 < r.keyb + r.keyn) || r.nvec == 0 || decide (64 < r.nvec) ||
  decide (r.pw < 1000) || decide (4000 < r.maxl) || r.lshare == 0 || decide (128 < r.hshare) || r.p == 0 ||
  r.saveb % 2 ^ 14 != 0 || paRegion r.saveb != 0 || r.savesz % 2 ^ 14 != 0 ||
  !r.dwin.all (windowOk [0, 1]) || !r.hwin.all (windowOk [2])

/-- Two ranges share a number. -/
def rangesMeet (a n b m : Nat) : Bool := decide (max a b < min (a + n) (b + m))

/-- What may change only while the partition holds nothing (R364). -/
def PartRec.fixedPart (r : PartRec) : List Nat × List (Nat × Nat) × List (Nat × Nat) × BitVec 512 :=
  ([r.asidb, r.asidn, r.keyb, r.keyn], r.dwin, r.hwin, r.cores)

/-- The partition holds a queue, a node, a chain or a module. -/
def Dev.partBusy (d : Dev) (pid : Nat) : Bool :=
  d.queues.any (·.pid == pid) || d.nodes.any (·.pid == pid) || d.chains.any (·.pid == pid) || !(d.part pid).modules.isEmpty

/-- Key ids newly granted take a fresh key (R382). -/
def Dev.grantKeys (d : Dev) (old new : PartRec) : Dev :=
  let ids := ((List.range new.keyn).map (new.keyb + ·)).filter fun k => !(decide (old.keyb ≤ k) && decide (k < old.keyb + old.keyn))
  { d with keyGen := ids.foldl (fun m k => fset 0 m k (fget 0 m k + 1)) d.keyGen }

/-- PART_SET (R364, R382). -/
def execPartSet (pid : Nat) (s : State) : Res :=
  devCommand s pid 0x20 true fun d p =>
    let n := p.argN 0
    let bs := d.hostRd (p.argN 1) 320
    let ws := (List.range 40).map fun k => BitVec.ofNat 64 (bytesNat ((bs.drop (8 * k)).take 8))
    let r := PartRec.ofWords ws
    let old := (d.part n).rec_
    let others := d.parts.filter (·.pid != n)
    let overlaps := others.any fun q =>
      rangesMeet r.asidb r.asidn q.rec_.asidb q.rec_.asidn || rangesMeet r.keyb r.keyn q.rec_.keyb q.rec_.keyn
    let share := (others.map (·.rec_.hshare)).foldl (· + ·) r.hshare
    if 63 < n ∨ partRecBad ws ∨ overlaps ∨ 128 < share ∨ (d.partBusy n ∧ r.fixedPart ≠ old.fixedPart) then (d, invalid)
    else ((d.grantKeys old r).modPart n fun q => { q with rec_ := r }, okay)

/-! ## Peers, ports, front ends (R50, R370 to R372) -/

/-- PEER_SET: no Kora port and no Ethernet port may be named. -/
def execPeerSet (pid : Nat) (s : State) : Res :=
  devCommand s pid 0x22 true fun d p =>
    let (n, mask) := (p.argN 0, p.argN 2)
    let bad := (List.range 24).any fun k => bits mask k 1 == 1 && (d.koraPort k || (d.ports[k]?).any (·.mode == .ethernet))
    if 63 < n ∨ 2 ^ 24 ≤ mask ∨ bad then (d, invalid)
    else
      let d := { d with peers := fset { identity := 0, ports := 0 } d.peers n { identity := p.argN 1, ports := BitVec.ofNat 24 mask } }
      (if d.peerDead n then d.losePeer n else d, okay)

def portMode? : Nat → Option PortMode
  | 0 => some .off
  | 1 => some .parzon
  | 2 => some .ethernet
  | _ => none

/-- PORT_MODE: 0 off, 1 Parzon, 2 Ethernet (log 33); a changed port trains anew. -/
def execPortMode (pid : Nat) (s : State) : Res :=
  devCommand s pid 0x23 true fun d p =>
    let n := p.argN 0
    match portMode? (p.argN 1) with
    | none => (d, invalid)
    | some m =>
      if 23 < n ∨ d.koraPort n ∨ (m = .ethernet ∧ d.peers.any fun (_, q) => q.ports.getLsbD n) then (d, invalid)
      else if (d.ports[n]?).any (·.mode == m) then (d, okay)
      else ((d.portDown n).modPort n fun x => { x with mode := m }, okay)

/-- FECFG; its reserved bits are discarded (R8, R50). -/
def execFecfg (pid : Nat) (s : State) : Res :=
  devCommand s pid 0x24 true fun d p =>
    let f := fun (lo n : Nat) => bits (p.argN 1) lo n
    if 3 < p.argN 0 ∨ f 32 8 = 0 ∨ 7 < f 32 8 ∨ f 16 16 < 192 ∨ f 0 16 = 0 then (d, invalid)
    else (d.modDie (p.argN 0) fun x => { x with pregap := f 32 8, rampu := f 16 16, ageus := f 0 16 }, okay)

/-! ## Resetting a partition (R369) -/

/-- A reset begins; a second one is merged into it. A running command ends with 0x05. -/
def Dev.beginReset (d : Dev) (pid : Nat) : Dev :=
  if (d.part pid).resetting.isSome then d
  else
    let d := if (d.part pid).box.busy then d.answerCmd pid 5 [] else d
    d.modPart pid fun p => { p with resetting := some 1 }

/-- PART_RESET: the command answers once the reset has begun; of the PF itself it is the running command that ends with
0x05 (R369, log 33). -/
def execPartReset (pid : Nat) (s : State) : Res :=
  devCommand s pid 0x21 true fun d p =>
    if 63 < p.argN 0 then (d, invalid)
    else if p.argN 0 = pid then (d.modPart pid fun p => { p with resetting := some 1 }, .now 5 [])
    else (d.beginReset (p.argN 0), okay)

/-- FUNCTION_LEVEL_RESET: of a VF its partition; of the PF every partition, and then the PF's mailbox. -/
def execFunctionLevelReset (pid : Nat) (s : State) : Res :=
  withEvent s fun d =>
    if pid = 0 then some { (List.range 64).foldl Dev.beginReset d with pfReset := true }
    else if pid < 64 then some (d.beginReset pid)
    else none

def Dev.pidOf (d : Dev) (gid : Nat) : Option Nat := (d.grid? gid).map (·.pid)

def Dev.partTeams (d : Dev) (pid : Nat) : List Team := d.teams.filter fun t => d.pidOf t.grid == some pid

/-- A round of the partition's. -/
def Dev.ownsRound (d : Dev) (pid : Nat) (r : Round) : Bool :=
  match r.owner with
  | .team t => ((d.team? t).bind fun t => d.pidOf t.grid) == some pid
  | .context n => ((d.ctx? n).map (·.pid)) == some pid

/-- Chains have told their halt, and contexts have written their end or cannot. -/
def Dev.enginesEnded (d : Dev) (pid : Nat) : Bool :=
  (d.chains.all fun c => c.pid != pid || c.told) && d.ctxs.all fun c => c.pid != pid || c.held || c.phase == .ended

/-- One step of a partition's reset: `n` is the step last taken; none while it must wait. -/
def Dev.resetStep (d : Dev) (pid n : Nat) : Option Dev :=
  let next := fun (d : Dev) => some (d.modPart pid fun p => { p with resetting := some (n + 1) })
  let r := (d.part pid).rec_
  let mine : Leaf → Bool := fun l => r.ownsAsid l.asid
  match n with
  | 1 => next (((d.grids.filter (·.pid == pid)).map (·.id)).foldl Dev.killGrid d)
  | 2 =>
    let d := ((d.chains.filter (·.pid == pid)).map (·.key)).foldl (fun d k => d.chainHalt k 4) d
    next (((d.ctxs.filter (·.pid == pid)).map (·.num)).foldl (fun d k => d.endCtx k 6 0x12) d)
  | 3 =>
    let cut : Round → Round := fun x => if d.ownsRound pid x then x.abort d.cycle else x
    next { d with rounds := d.rounds.map cut }
  | 4 => if (d.partTeams pid).isEmpty then next d else none
  | 5 =>
    if !d.enginesEnded pid then none
    else next { d with
      cores := d.cores.map fun (k, c) => (k, { c with tlb := c.tlb.filter fun l => !mine l })
      dies := d.dies.map fun x => { x with
        l2tlb := x.l2tlb.filter fun l => !mine l, walks := x.walks.filter fun w => w.pid != pid }
      roots := d.roots.filter fun x => !r.ownsAsid x.1 }
  | 6 => next (d.modPart pid fun p => { p with entries := [], keys := [], drop := false, dropn := 0, depth := 8 })
  | 7 => next (d.modPart pid fun p => { p with box := { p.box with pending := [] } })
  | 8 =>
    let gone := (d.queues.filter (·.pid == pid)).map (·.num)
    let d := gone.foldl Dev.freeQueue d
    next ({ d with
      nodes := d.nodes.filter (·.pid != pid), chains := d.chains.filter (·.pid != pid), ctxs := d.ctxs.filter (·.pid != pid)
      graphs := d.graphs.filter fun g => !gone.contains g.queue
      grids := d.grids.filter (·.pid != pid), pending := d.pending.filter fun u => !gone.contains u.queue
      dense := d.dense.filter (·.pid != pid)
      jobs := d.jobs.filter (·.pid != pid)
      blocks := d.blocks.filter fun b => b.chain / 2 ^ 48 != pid
      arrived := d.arrived.filter fun a => !(d.part pid).windows.any (·.id == a.win) }.modPart pid fun p =>
        { p with modules := [], windows := [], debugger := false, saveUsed := [] })
  | _ =>
    let d := d.modPart pid fun p => { p with resetting := none }
    let d := (d.setEvt 0 4).raiseVec 0 0
    some (d.modPart 0 fun p => { p with box := { p.box with out := fset 0 p.box.out 0 (BitVec.ofNat 64 pid) } })

/-- After an FLR of the PF every partition has been reset: its own mailbox follows. -/
def Dev.pfResets (d : Dev) : Bool := d.pfReset && d.parts.all (·.resetting.isNone)

def Dev.resetPf (d : Dev) : Dev :=
  { d.modPart 0 fun p => { p with box := { Mailbox.reset with masked := p.box.masked, pending := p.box.pending, sent := p.box.sent } } with
    pfReset := false }

end Sys2Proof.Machine
end

