-- ==== Sys2Proof/Machine/Finaliser.lean ====
section
/-! DEFINITION. The load-time finaliser: its checks (R38, R66) and a portable kernel's native form (R64, R65, R108).
R67 leaves its choices open; this one cuts a clause for every word, joins no pairs and lets each clause wait for every
long-latency result (DESIGN CHOICE, log 14). -/

namespace Sys2Proof.Machine

/-- The launch that a kernel's words are checked for: its descriptor's registers and width, handler code included. -/
def kernelCtx (desc : Nat) : LaunchCtx :=
  ⟨8 * bits desc 0 6, if bits desc 10 1 = 1 then 4 * 2 ^ bits desc 8 2 else 32, true⟩

/-! ## Checks -/

/-- The tiles an instruction names: the first and how many (R211). -/
def Instr.tilesNamed : Instr → Nat × Nat
  | .mma o | .mmah o => (o.d.toNat, 1)
  | .mwait t all => (t.toNat, if all then 0 else 1)
  | .aclr t n _ => (t.toNat, n.toNat + 1)
  | .afill _ t _ n _ => (t.toNat, n.toNat + 1)
  | .adrain o => (o.a.toNat, if o.fmt = 4 then 2 else 1)
  | .amov _ _ t _ => (t.toNat, 1)
  | _ => (0, 0)

/-- R38 for one instruction: its tiles, and a PHINT's liveness entry, of `nlive` entries. -/
def Instr.kernelOk (desc nlive : Nat) : Instr → Bool
  | .phint _ live _ => live == 255 || decide (live.toNat < nlive)
  | i => (tilesNamed i).2 == 0 || decide ((tilesNamed i).1 + (tilesNamed i).2 ≤ 16 * bits desc 40 8)

/-- The direct target of the word at `k`, as a word number; of a BRA, a CALL or an IPF. -/
def Instr.target? (k : Nat) : Instr → Option Int
  | .bra _ _ disp | .call _ disp | .ipf _ _ disp => some (k + 1 + disp.toInt)
  | _ => none

def Instr.isBranch : Instr → Bool
  | .bra .. | .call .. => true
  | _ => false

/-- A portable word: an instruction, or RGN (R66, R87). -/
def portableWord (c : LaunchCtx) (w : Word64) : Option Instr :=
  if fld w 62 2 == 1#2 || fld w 62 2 == 3#2 then none
  else match decodeFields ⟨c, true, false⟩ w with
    | .ok i => some i
    | .error e => if e = 0x09 then some .rgn else none

/-- A portable kernel's instructions, where R38 and R66 accept it. -/
def portableKernel (desc nlive : Nat) (ws : List Word64) : Option (List Instr) := do
  let is ← ws.mapM (portableWord (kernelCtx desc))
  let inside := is.zipIdx.all fun (i, k) => !Instr.isBranch i || match Instr.target? k i with
    | some t => decide (0 ≤ t) && decide (t < is.length)
    | none => true
  if inside && is.all (Instr.kernelOk desc nlive) then some is else none

/-- The clauses of native words: where each header stands, and its words decoded; `fuel` bounds the clauses (R76, R89). -/
def nativeClauses (c : LaunchCtx) : (fuel pos : Nat) → List Word64 → Option (List (Nat × List Instr))
  | _, _, [] => some []
  | 0, _, _ => none
  | fuel + 1, pos, h :: rest => do
    let hd ← (decodeStart h).toOption
    let n := hd.len.toNat
    if rest.length < n then none
    else
      let is ← (rest.take n).zipIdx.mapM fun (w, k) => (decode ⟨c, decide (k + 1 = n), hd.setA == 15 && hd.setB == 15⟩ w).toOption
      return (pos, is) :: (← nativeClauses c fuel (pos + 1 + n) (rest.drop n))

/-- Nothing follows the word: control never reaches the next one, and no return link names it (R76). -/
def Instr.leaves : Instr → Bool
  | .bra g .. | .brx g .. | .exit g => g.isAlways
  | .ret | .rte => true
  | _ => false

/-- A native kernel passes every rule of R73 to R89 and R38, and its last clause has no next (R66, R76). -/
def nativeOk (desc nlive : Nat) (ws : List Word64) : Bool :=
  match nativeClauses (kernelCtx desc) ws.length 0 ws with
  | none => false
  | some cs =>
    let heads := cs.map (·.1)
    (cs.getLast?.bind (·.2.getLast?)).any Instr.leaves && cs.all fun (p, is) => is.zipIdx.all fun (i, k) => Instr.kernelOk desc nlive i &&
      (!Instr.isBranch i || match Instr.target? (p + 1 + k) i with
        | some t => decide (0 ≤ t) && heads.contains t.toNat
        | none => true)

/-! ## Reconvergence (R108) -/

/-- The words control may go to after the word at `k`; the kernel's length stands for the end of a path. -/
def nextWords (is : List Instr) (k : Nat) : List Nat :=
  let n := is.length
  let direct := is.zipIdx.filterMap fun (i, j) => (Instr.target? j i).map (·.toNat)
  let fall := fun (g : Guard) => if g.isAlways then [] else [k + 1]
  let dest := match is[k]? with
    | some (.bra g _ disp) => (k + 1 + disp.toInt).toNat :: fall g
    | some (.brx g ..) => 0 :: direct ++ fall g
    | some .ret | some .rte => [n]
    | some (.exit g) => n :: fall g
    | _ => [k + 1]
  dest.map (min n)

/-- Words reached by paths that do not pass `avoid`. -/
def reached (next : List (List Nat)) (avoid : Nat) : (fuel : Nat) → List Nat → List Nat
  | 0, seen => seen
  | fuel + 1, seen =>
    let new := ((seen.filter (· != avoid)).flatMap fun k => next.getD k []).eraseDups.filter fun k => !seen.contains k
    if new.isEmpty then seen else reached next avoid fuel (seen ++ new)

/-- The words that every path from `k` to an end passes, `k` left out. -/
def postDominators (next : List (List Nat)) (k : Nat) : List Nat :=
  (List.range next.length).filter fun p => p != k && !(reached next p (next.length + 1) (next.getD k [])).contains next.length

/-- The first word ahead that every path from `k` reaches (R108). DESIGN CHOICE (log 14): RCV counts forward only, so a
post-dominator that lies before the branch is passed over. -/
def reconvergeAt (next : List (List Nat)) (k : Nat) : Option Nat :=
  let ps := (postDominators next k).filter (k < ·)
  ps.find? fun p => ps.all fun q => q == p || (postDominators next p).contains q

end Sys2Proof.Machine

/-! ## Registers read and written (R322) -/

namespace Sys2Proof

/-- A register an instruction names; the ones that hold no value are left out. -/
inductive RegPlace where
  | v (n : Nat) | s (n : Nat) | p (n : Nat)
  deriving DecidableEq, Repr

def vRun (n : BitVec 8) (k : Nat) : List RegPlace := if n = 255 then [] else (List.range k).map fun j => .v (n.toNat + j)
def sRun (n : BitVec 6) (k : Nat) : List RegPlace := ((List.range k).map (n.toNat + ·)).filterMap fun j => if j < 63 then some (.s j) else none
def pAt (n : BitVec 3) : List RegPlace := if n = 7 then [] else [.p n.toNat]

def Reg.places (w64 : Bool) : Reg → List RegPlace
  | .v n => vRun n (if w64 then 2 else 1)
  | .s n => sRun n 1

def Src.places (w64 : Bool) : Src → List RegPlace
  | .reg r => r.places w64
  | .imm _ => []

end Sys2Proof

namespace Sys2Proof.Machine

/-- What an instruction reads and writes, under its guard. -/
structure Uses where
  g      : Guard
  reads  : List RegPlace
  writes : List RegPlace

/-- The base and index of an address. -/
def addrUses (base : BitVec 6) (idx : BitVec 8) (ix : Bool) : List RegPlace := sRun base 1 ++ vRun idx (if ix then 2 else 1)

def anyGuard : Guard := Guard.always

/-- The registers of each instruction. -/
def Instr.uses : Instr → Uses
  | .bra g .. | .call g _ | .exit g | .nop g | .delay g _ | .ipf g .. | .trap _ g | .bkpt g => ⟨g, [], []⟩
  | .brx g _ t | .callx g t => ⟨g, t.places true, []⟩
  | .iadd o | .isub o | .imul o | .imulh o | .idiv o | .irem o | .imin o | .imax o =>
    ⟨o.g, o.a.places o.ty.w64 ++ o.b.places o.ty.w64, o.d.places o.ty.w64⟩
  | .iadd3 o | .imad o | .isad o => ⟨o.g, o.a.places o.ty.w64 ++ o.b.places o.ty.w64 ++ o.c.places o.ty.w64, o.d.places o.ty.w64⟩
  | .imadw o => ⟨o.g, o.a.places false ++ o.b.places false ++ o.c.places true, o.d.places true⟩
  | .iabs o | .ineg o => ⟨o.g, o.a.places o.w64, o.d.places o.w64⟩
  | .idot4 o => ⟨o.g, o.a.places false ++ o.b.places false ++ o.c.places false, o.d.places false⟩
  | .iset o => ⟨o.g, o.a.places o.ty.w64 ++ o.b.places o.ty.w64, pAt o.pd⟩
  | .sel o => ⟨o.g, o.a.places o.b64 ++ o.b.places o.b64 ++ pAt o.pc, o.d.places o.b64⟩
  | .lea o => ⟨o.g, o.a.places o.ty.w64 ++ o.b.places false, o.d.places o.ty.w64⟩
  | .mov o | .not o | .brev o => ⟨o.g, o.a.places o.b64, o.d.places o.b64⟩
  | .movi d _ g => ⟨g, [], d.places false⟩
  | .movw d _ g => ⟨g, [], match d with | .v n => vRun (n + 1) 1 | .s n => sRun n 1⟩
  | .and o | .or o | .xor o => ⟨o.g, o.a.places o.b64 ++ o.b.places o.b64, o.d.places o.b64⟩
  | .shl o | .shr o | .sar o | .rot o => ⟨o.g, o.a.places o.b64 ++ o.b.places false, o.d.places o.b64⟩
  | .bool3 o => ⟨o.g, o.a.places false ++ o.b.places false ++ o.c.places false, o.d.places false⟩
  | .funnel o | .prmt o => ⟨o.g, o.a.places false ++ o.b.places false ++ o.c.places false, o.d.places false⟩
  | .bfe o => ⟨o.g, o.a.places o.b64 ++ o.b.places false, o.d.places o.b64⟩
  | .bfi o => ⟨o.g, o.a.places o.flag ++ o.b.places o.flag ++ o.c.places false, o.d.places o.flag⟩
  | .popc o | .clz o | .ctz o => ⟨o.g, o.a.places o.b64, o.d.places false⟩
  | .pand o | .por o | .pxor o => ⟨o.g, pAt o.pa ++ pAt o.pb, pAt o.pd⟩
  | .pnot o => ⟨o.g, pAt o.pa, pAt o.pd⟩
  | .pmov (.pp _ pd pa) g => ⟨g, pAt pa, pAt pd⟩
  | .pmov (.toV vd) g => ⟨g, (List.range 7).map .p, vRun vd 1⟩
  | .pmov (.fromV va) g => ⟨g, vRun va 1, (List.range 7).map .p⟩
  | .fadd o | .fmul o | .fmin o | .fmax o | .fdiv o => ⟨o.g, o.a.places false ++ o.b.places false, o.d.places false⟩
  | .ffma o => ⟨o.g, o.a.places false ++ o.b.places false ++ o.c.places false, o.d.places false⟩
  | .fset o => ⟨o.g, o.a.places false ++ o.b.places false, pAt o.pd⟩
  | .fclass o | .frnd o | .rcp o | .rsq o | .sqrt o | .exp2 o | .log2 o | .sin o | .cos o | .tanh o =>
    ⟨o.g, o.a.places false, o.d.places false⟩
  | .fscale o => ⟨o.g, o.a.places false ++ o.b.places false, o.d.places false⟩
  | .dadd o | .dmul o | .dmin o | .dmax o | .dscale o | .ddiv o => ⟨o.g, o.a.places true ++ o.b.places true, o.d.places true⟩
  | .dfma o => ⟨o.g, o.a.places true ++ o.b.places true ++ o.c.places true, o.d.places true⟩
  | .dset o => ⟨o.g, o.a.places true ++ o.b.places true, pAt o.pd⟩
  | .dclass o => ⟨o.g, o.a.places true, o.d.places false⟩
  | .dfrnd o | .drcp o | .drsq o | .dsqrt o => ⟨o.g, o.a.places true, o.d.places true⟩
  | .cvt o | .fcvt o => ⟨o.g, o.a.places (cvtWide o.st), o.d.places (cvtWide o.dt)⟩
  | .qpack o => ⟨o.g, vRun o.a (qRun o.q) ++ o.b.places false, vRun o.d 1⟩
  | .qunpk o => ⟨o.g, vRun o.a 1 ++ o.b.places false, vRun o.d (qRun o.q)⟩
  | .qscale o => ⟨o.g, o.a.places false, o.d.places false⟩
  | .amax o => ⟨o.g, o.a.places false ++ o.b.places false, o.d.places false⟩
  | .vote o => ⟨o.g, pAt o.pa, pAt o.pd⟩
  | .ballot o => ⟨o.g, pAt o.pa, o.d.places false⟩
  | .shfl o => ⟨o.g, vRun o.a 1 ++ (match o.b with | .inl b => vRun b 1 | .inr _ => []), vRun o.d 1 ++ pAt o.pr⟩
  | .redux o | .scan o => ⟨o.g, vRun o.a 1, vRun o.d 1⟩
  | .match_ o => ⟨o.g, vRun o.a (if o.b64 then 2 else 1), vRun o.d 1 ++ pAt o.pr⟩
  | .elect _ pd g => ⟨g, [], pAt pd⟩
  | .regroup va sb => ⟨anyGuard, vRun va 1 ++ sRun sb 1, []⟩
  | .xmget sd => ⟨anyGuard, [], sRun sd 1⟩
  | .xmset src => ⟨anyGuard, match src with | .inl s => sRun s 1 | .inr _ => [], []⟩
  | .ld o => ⟨o.g, addrUses o.base o.idx o.form.ix, vRun o.data o.wid.regs⟩
  | .st o => ⟨o.g, addrUses o.base o.idx o.form.ix ++ vRun o.data o.wid.regs, []⟩
  | .ldu o => ⟨o.g, sRun o.base 1, sRun (o.data.setWidth 6) 1⟩
  | .stu o => ⟨o.g, sRun o.base 1 ++ sRun (o.data.setWidth 6) 1, []⟩
  | .ldf o => ⟨o.g, addrUses o.base o.idx o.form.ix, vRun o.data o.wid.regs ++ pAt o.pr⟩
  | .stf o => ⟨o.g, addrUses o.base o.idx o.form.ix ++ vRun o.data o.wid.regs, pAt o.pr⟩
  | .pref o => ⟨o.g, addrUses o.base o.idx o.form.ix, []⟩
  | .cctlInv o | .cctlWb o | .cctlUnlock o | .cctlIinv o => ⟨o.g, addrUses o.base o.idx o.ix, []⟩
  | .cctlLock o => ⟨o.g, addrUses o.base o.idx o.ix, pAt o.pr⟩
  | .atom o | .waita o =>
    ⟨o.g, addrUses o.base o.idx false ++ vRun o.c (if o.w64 then 2 else 1), vRun o.d (if o.w64 then 2 else 1)⟩
  | .cas o => ⟨o.g, addrUses o.base o.idx false ++ vRun o.c (if o.w64 then 4 else 2), vRun o.d (if o.w64 then 2 else 1)⟩
  | .red o => ⟨o.g, addrUses o.base o.idx false ++ vRun o.c (if o.w64 then 2 else 1), []⟩
  | .waitge _ a b => ⟨anyGuard, sRun a 1 ++ sRun b 1, []⟩
  | .cpy (.short _ _ d a ..) g => ⟨g, sRun d 1 ++ sRun a 1, []⟩
  | .cpy (.full _ _ mode _ _ _ _ d a b c) g => ⟨g, sRun d 1 ++ sRun a 1 ++ sRun b (if mode = 0 then 1 else 3) ++ sRun c 1, []⟩
  | .cpg o => ⟨o.g, sRun o.d 1 ++ sRun o.a 1 ++ vRun o.b 1 ++ sRun o.c 1, []⟩
  | .cpbat sd => ⟨anyGuard, [], sRun sd 1⟩
  | .cpwait src => ⟨anyGuard, match src with | .inl s => sRun s 1 | .inr _ => [], []⟩
  | .etail a b g => ⟨g, sRun a 1 ++ sRun b 1, []⟩
  | .rec_ _ a b c g => ⟨g, sRun a 1 ++ sRun b 1 ++ sRun c 1, []⟩
  | .dense o => ⟨o.g, sRun o.d 2 ++ sRun o.a 1 ++ sRun o.b 1 ++ sRun o.c 1, []⟩
  | .mma o => ⟨anyGuard, (if o.asp then sRun (o.a.setWidth 6) 1 else vRun o.a (mmaRegs o.fmt).1) ++
      (if o.bsp then sRun (o.b.setWidth 6) 1 else vRun o.b (mmaRegs o.fmt).2) ++ (if o.scaled then vRun o.c 2 else []), []⟩
  | .mmah o => ⟨anyGuard, (if o.asp then sRun (o.a.setWidth 6) 1 else vRun o.a (mmaRegs o.fmt).1) ++ sRun (o.b.setWidth 6) 3 ++
      (if o.scaled then vRun o.c 1 else []), []⟩
  | .afill _ _ sa _ g => ⟨g, sRun sa 1, []⟩
  | .aclr _ _ g => ⟨g, [], []⟩
  | .adrain o => ⟨o.g, sRun o.d 1 ++ sRun o.b 1 ++ sRun o.c 1, []⟩
  | .amov true v _ g => ⟨g, vRun v 8, []⟩
  | .amov false v _ g => ⟨g, [], vRun v 8⟩
  | .nmcall o => ⟨o.g, sRun o.d 1 ++ sRun o.a 6 ++ sRun o.b 1 ++ sRun o.c 1, []⟩
  | .nmclose a d g => ⟨g, sRun a 1 ++ sRun d 1, []⟩
  | .embag _ o => ⟨o.g, sRun o.d 1 ++ sRun o.a 4 ++ sRun o.b 1 ++ sRun o.c 1, []⟩
  | .mbinit a b g => ⟨g, sRun a 1 ++ sRun b 1, []⟩
  | .mbarv d a _ g => ⟨g, sRun a 1, sRun d 1⟩
  | .mbexp d a b _ g => ⟨g, sRun a 1 ++ sRun b 1, sRun d 1⟩
  | .mbwait a b pr => ⟨anyGuard, sRun a 1 ++ sRun b 1, pAt pr⟩
  | .mbinv a g => ⟨g, sRun a 1, []⟩
  | .joint pd _ => ⟨anyGuard, [], pAt pd⟩
  | .srd d n g => ⟨g, [], d.places (srWide n)⟩
  | .swr _ a => ⟨anyGuard, sRun a 1, []⟩
  | _ => ⟨anyGuard, [], []⟩

def Uses.allReads (u : Uses) : List RegPlace := u.reads ++ pAt u.g.p

/-- An instruction overwrites a register it reads, so that it may not run again. -/
def Uses.overwrites (u : Uses) : Bool := u.writes.any (u.allReads.contains ·)

/-- A region as it stands before a word, for one place where it may have begun: the registers read before the region wrote
them, and those it has surely written. -/
structure RegionUse where
  inputs  : List RegPlace
  written : List RegPlace
  deriving DecidableEq

def RegionUse.fresh : RegionUse := ⟨[], []⟩

def RegionUse.after (r : RegionUse) (u : Uses) : RegionUse :=
  { inputs := (r.inputs ++ u.allReads.filter fun x => !r.written.contains x).eraseDups
    written := if u.g.isAlways then (r.written ++ u.writes).eraseDups else r.written }

/-- A region begins after the word wherever it goes on (R321). -/
def Instr.endsRegion (i : Instr) : Bool := i.regionAfter || i.endsClause

/-- The words where a region may begin, beside those where one surely does: targets and reconvergence addresses; any word,
where the kernel has an indirect branch or call (R321). -/
def mayBegin (is : List Instr) (rcvs : List Nat) (k : Nat) : Bool :=
  (is.any fun i => match i with | .brx .. | .callx .. => true | _ => false) || rcvs.contains k ||
  is.zipIdx.any fun (i, j) => Instr.isBranch i && Instr.target? j i == some (k : Int)

/-- R322: which of a kernel's words get RGNE: those after an RGN marker, those that overwrite an input of a region, and
those after a word that overwrites its own (log 45). -/
def regionEntries (is : List Instr) (rcvs : List Nat) : List Bool :=
  (is.zipIdx.foldl (fun (acc : List Bool × List RegionUse × Bool) (i, k) =>
    let (out, rs, force) := acc
    if i = .rgn then (out ++ [false], rs, true)
    else
      let u := Instr.uses i
      let rs := if mayBegin is rcvs k then (rs ++ [RegionUse.fresh]).eraseDups else rs
      let begin_ := force || rs.any fun r => u.writes.any (r.inputs.contains ·)
      let rs := if begin_ then [RegionUse.fresh] else rs
      let after := if Instr.endsRegion i then [RegionUse.fresh] else rs.map (·.after u)
      (out ++ [begin_], after, !Instr.endsRegion i && u.overwrites)) ([], [RegionUse.fresh], false)).1

/-! ## Native form (R65) -/

/-- Words before the word at `k` that stay: RGN markers are removed. -/
def keptBefore (is : List Instr) (k : Nat) : Nat := ((is.take k).filter fun i => i != .rgn).length

/-- A displacement in native words between two portable places, from BASE: each word has its own header. -/
def nativeDisp (is : List Instr) (k t : Nat) : Int := 2 * (keptBefore is t : Int) - 2 * keptBefore is k - 2

/-- The word where a branch reconverges: as written, or the post-dominator (R108). -/
def rcvTarget (is : List Instr) (k rcv : Nat) (ahead : Bool) : Nat :=
  if rcv ≠ 0 then k + 1 + rcv
  else if ahead then (reconvergeAt ((List.range is.length).map (nextWords is)) k).getD (is.length - 1)
  else k + 1

/-- The reconvergence addresses of a kernel's branches. -/
def rcvTargets (is : List Instr) : List Nat :=
  is.zipIdx.filterMap fun (i, k) => match i with
    | .bra _ rcv x => some (rcvTarget is k rcv.toNat (decide (0 ≤ x.toInt + 1)))
    | .brx _ rcv _ => some (rcvTarget is k rcv.toNat true)
    | _ => none

/-- RCV of a branch; none when it does not fit its field. -/
def nativeRcv (is : List Instr) (k rcv : Nat) (ahead : Bool) (width : Nat) : Option Nat :=
  let r := (nativeDisp is k (rcvTarget is k rcv ahead)).toNat
  if r < 2 ^ width then some r else none

/-- The word with its branch fields resolved. -/
def nativeWord (is : List Instr) (k : Nat) (i : Instr) (w : Word64) : Option Word64 :=
  let disp := fun (x : BitVec 32) => BitVec.ofInt 32 (nativeDisp is k (k + 1 + x.toInt).toNat)
  match i with
  | .bra g rcv x => do
    let r ← nativeRcv is k rcv.toNat (decide (0 ≤ x.toInt + 1)) 16
    encode (.bra g (BitVec.ofNat 16 r) (disp x))
  | .brx g rcv t => do
    let r ← nativeRcv is k rcv.toNat true 20
    encode (.brx g (BitVec.ofNat 20 r) t)
  | .call g x => encode (.call g (disp x))
  | .ipf g n x => encode (.ipf g n (disp x))
  | _ => some w

/-- A word's clause header: it waits for flags 0 and 1, on which the long-latency words count. -/
def nativeHeader (rgne : Bool) (i : Instr) : Word64 :=
  let long := i.longA || i.longB
  Header.pack ⟨3, if long then 0 else 15, if long then 1 else 15, 1, rgne, 0⟩

/-- The native form of a portable kernel: none when a reconvergence point lies too far ahead for its field. -/
def finalise (is : List Instr) (ws : List Word64) : Option (List Word64) :=
  let entries := regionEntries is (rcvTargets is)
  ((is.zip ws).zipIdx.filter fun (x, _) => x.1 != .rgn).foldlM (fun acc (x, k) => do
    let w ← nativeWord is k x.1 x.2
    return acc ++ [nativeHeader (entries.getD k false) x.1, w]) []

end Sys2Proof.Machine
end

