-- ==== Sys2Proof/Machine/Module.lean ====
section
/-! DEFINITION. LOAD_MODULE: the module file, its relocations, its layout in the load area and the addresses it returns
(R36 to R39, R338, R359 to R361; log 34). -/

namespace Sys2Proof.Machine

/-! ## The module file (R359, R360) -/

/-- A number of `n` bytes at a place in a file. -/
def numAt (bs : List Byte) (at_ n : Nat) : Nat := bytesNat ((bs.drop at_).take n)

/-- A section of the table. -/
structure Section where
  type   : Nat
  native : Bool
  align  : Nat                  -- log2
  name   : Nat
  link   : Nat
  offset : Nat
  bytes  : List Byte

structure Symbol where
  name     : Nat
  section_ : Nat
  kind     : Nat
  glob     : Bool
  offset   : Nat

structure Reloc where
  link   : Nat
  offset : Nat
  kind   : Nat
  sym    : Nat
  addend : Nat

/-- A table entry, where its fields keep R360 and its bytes lie within the module. -/
def sectionAt (m : List Byte) (at_ : Nat) : Option Section :=
  let w0 := numAt m at_ 8
  let (off, size, w3) := (numAt m (at_ + 8) 8, numAt m (at_ + 16) 8, numAt m (at_ + 24) 8)
  let s : Section := {
    type := bits w0 0 8, native := bits w0 16 1 == 1, align := bits w0 8 8, name := bits w0 32 32, link := bits w3 0 16
    offset := off, bytes := (m.drop off).take size }
  if s.type = 0 ∨ 10 < s.type ∨ bits w0 17 15 ≠ 0 ∨ w3 / 2 ^ 16 ≠ 0 ∨ 16 < s.align ∨ off % 2 ^ s.align ≠ 0 ∨
      m.length < off + size ∨ (s.native ∧ s.type ≠ 1) then none
  else some s

/-- The sections, where the header keeps R359. -/
def moduleSections (m : List Byte) : Option (List Section) :=
  let (w0, w1, tab) := (numAt m 0 8, numAt m 8 8, numAt m 16 8)
  let n := bits w1 0 16
  if m.length < 64 ∨ w0 ≠ 2 ^ 32 + 0x4E524F42 ∨ w1 / 2 ^ 16 ≠ 0 ∨ n = 0 ∨ tab % 8 ≠ 0 ∨ numAt m 32 32 ≠ 0 ∨
      m.length < tab + 32 * n then none
  else (List.range n).mapM fun k => sectionAt m (tab + 32 * k)

def Section.symbols (s : Section) : List Symbol :=
  (List.range (s.bytes.length / 16)).map fun k =>
    let w := numAt s.bytes (16 * k) 8
    { name := bits w 0 32, section_ := bits w 32 16, kind := bits w 48 8, glob := bits w 56 1 == 1, offset := numAt s.bytes (16 * k + 8) 8 }

def Section.relocs (s : Section) : List Reloc :=
  (List.range (s.bytes.length / 16)).map fun k =>
    let w := numAt s.bytes (16 * k) 8
    { link := s.link, offset := bits w 0 32, kind := bits w 32 8, sym := bits w 48 16, addend := numAt s.bytes (16 * k + 8) 8 }

/-- A module read: its sections, symbols and relocations. -/
structure ModuleFile where
  secs   : List Section
  syms   : List Symbol
  relocs : List Reloc

def ModuleFile.type (f : ModuleFile) (k : Nat) : Nat := (f.secs[k]?.map (·.type)).getD 0

/-- The sections of a type, by number. -/
def ModuleFile.ofType (f : ModuleFile) (t : Nat) : List (Nat × Section) :=
  (f.secs.zipIdx.map fun (s, k) => (k, s)).filter fun (_, s) => s.type == t

/-- The section of a type that names a CODE section. -/
def ModuleFile.linked (f : ModuleFile) (t code : Nat) : List Section := ((f.ofType t).map (·.2)).filter (·.link == code)

/-- The size of a type's unit: a section holds whole units. -/
def unitSize : Nat → Nat
  | 1 => 8
  | 2 | 4 | 5 | 6 => 64
  | 8 | 9 => 16
  | _ => 1

/-- LINK names what R360 says. -/
def ModuleFile.linkOk (f : ModuleFile) (s : Section) : Bool :=
  match s.type with
  | 2 | 5 => f.type s.link == 1
  | 9 => decide (s.link < f.secs.length)
  | _ => s.link == 0

/-- The types of section a symbol of a kind lies in. -/
def symbolTypes : Nat → List Nat
  | 0 => [1]
  | 1 => [3, 7]
  | 2 => [4]
  | 3 => [6]
  | 4 => [7]
  | _ => []

/-- Sections share bytes. -/
def Section.meets (a b : Section) : Bool := rangesMeet a.offset a.bytes.length b.offset b.bytes.length

/-- A name offset names a zero-terminated string. -/
def Section.names (str : Section) (o : Nat) : Bool := (str.bytes.drop o).contains 0

/-- A symbol's section exists and suits its kind, and its byte offset lies in the section (its end included). -/
def ModuleFile.symbolOk (f : ModuleFile) (y : Symbol) : Bool :=
  (symbolTypes y.kind).contains (f.type y.section_) &&
    decide (y.offset ≤ (f.secs[y.section_]?.map (·.bytes.length)).getD 0)

/-- R359 to R361: what the header and tables must keep. -/
def ModuleFile.ok (f : ModuleFile) : Bool :=
  (f.secs.all fun s => s.bytes.length % unitSize s.type == 0 && f.linkOk s) &&
  (f.secs.zipIdx.all fun (a, i) => f.secs.zipIdx.all fun (b, j) => i == j || !a.meets b) &&
  (match f.ofType 10 with
    | [(_, str)] => str.bytes.head? == some 0 && (f.secs.all fun s => str.names s.name) && f.syms.all fun y => str.names y.name
    | _ => false) &&
  ((f.ofType 1).all fun (k, _) => (match f.linked 2 k with
    | [d] => d.bytes.length == 64
    | _ => false) && decide ((f.linked 5 k).length ≤ 1)) &&
  f.syms.all f.symbolOk &&
  ((f.ofType 8).all fun (_, s) => (List.range (s.bytes.length / 16)).all fun k => bits (numAt s.bytes (16 * k) 8) 57 7 == 0) &&
  ((f.ofType 9).all fun (_, s) => (List.range (s.bytes.length / 16)).all fun k => bits (numAt s.bytes (16 * k) 8) 40 8 == 0)

/-- The module of SIZE bytes at the start of what was read. -/
def moduleFile (bs : List Byte) : Option (List Byte × ModuleFile) := do
  let n := numAt bs 24 8
  let m := bs.take n
  if bs.length < n then none
  else
    let secs ← moduleSections m
    let f : ModuleFile := {
      secs, syms := (secs.filter (·.type == 8)).flatMap (·.symbols), relocs := (secs.filter (·.type == 9)).flatMap (·.relocs) }
    if f.ok then some (m, f) else none

/-! ## Layout (R36, R37) -/

def alignUp (a n : Nat) : Nat := (a + n - 1) / n * n

/-- Section types that lie in the load area; a kernel's descriptor stands before its code. -/
def placedType (t : Nat) : Bool := [1, 3, 4, 5, 6, 7].contains t

/-- Bytes of a section once placed: a portable kernel's words double, less its RGN markers. -/
def Section.placedSize (s : Section) : Nat :=
  if s.type = 1 ∧ !s.native then
    16 * ((List.range (s.bytes.length / 8)).filter fun k => bits (numAt s.bytes (8 * k) 8) 52 10 != 0x00C).length
  else s.bytes.length

/-- Where each section lies, in table order, and where the last ends. -/
def ModuleFile.places (f : ModuleFile) (base : Nat) : List Nat × Nat :=
  f.secs.foldl (fun (acc : List Nat × Nat) s =>
    if placedType s.type then
      let a := if s.type = 1 then alignUp (acc.2 + 64) (max 8 (2 ^ s.align)) else alignUp acc.2 (2 ^ s.align)
      (acc.1 ++ [a], a + s.placedSize)
    else (acc.1 ++ [0], acc.2)) ([], base)

/-- The number of a node declaration among the module's, of a symbol of kind 3. -/
def ModuleFile.nodeIndex (f : ModuleFile) (y : Symbol) : Nat :=
  (((f.secs.take y.section_).filter (·.type == 6)).map (·.bytes.length / 64)).foldl (· + ·) (y.offset / 64)

/-! ## Relocations (R360, R361) -/

/-- What a relocation needs: the load area's base, where sections lie, and the node ids. -/
structure Bind where
  f     : ModuleFile
  base  : Nat
  at_   : List Nat
  nodes : List Nat

def Bind.address (b : Bind) (y : Symbol) : Nat := b.at_.getD y.section_ 0 + y.offset

/-- What a relocation's value is made of: a distance from the base, or a node declaration and an addend; none where its
symbol is missing or its kind does not suit it. -/
def Bind.source (b : Bind) (r : Reloc) : Option (Option Nat × Nat) := do
  let y ← b.f.syms[r.sym]?
  match r.kind with
  | 1 | 2 | 3 | 5 | 6 => some (none, (b.address y + r.addend + (2 ^ 64 - b.base)) % 2 ^ 64)
  | 4 | 7 => if y.kind = 3 then some (some (b.f.nodeIndex y), r.addend) else none
  | _ => none

/-- The value that a relocation of a kind writes. -/
def fixValue (base : Nat) (nodes : List Nat) (kind : Nat) : Option Nat × Nat → Option Nat
  | (some n, v) => (nodes[n]?).map fun id => (id + v) % 2 ^ 32
  | (none, v) =>
    let a := (base + v) % 2 ^ 64
    some (match kind with
      | 1 | 5 => a % 2 ^ 32
      | 2 | 6 => a / 2 ^ 32
      | _ => a)

def Bind.value (b : Bind) (r : Reloc) : Option Nat := (b.source r).bind (fixValue b.base b.nodes r.kind)

/-- The patched word: the I32 field of an FI word of code that is no displacement; in data the whole word, and in a layout
record or a node descriptor the address field [47:0] that shares its word (log 34). -/
def patchWord (type kind v : Nat) (w : Word64) : Option Word64 :=
  let code := kind = 1 ∨ kind = 2 ∨ kind = 4
  if code then
    if type = 1 ∧ fld w 62 2 = 2#2 ∧ ((opcForms (fld w 52 10)).any (·.i32)) ∧ !([2#10, 4#10, 0xE#10].contains (fld w 52 10)) then
      some (w &&& ~~~(0xFFFFFFFF#64 <<< 4) ||| (BitVec.ofNat 64 v <<< 4))
    else none
  else if type = 1 then none
  else if (type = 4 ∨ type = 6) ∧ kind = 3 then some (w &&& ~~~(0xFFFFFFFFFFFF#64) ||| BitVec.ofNat 64 (v % 2 ^ 48))
  else some (BitVec.ofNat 64 v)

/-- A section's bytes after one relocation. -/
def Bind.relocate (b : Bind) (type : Nat) (bs : List Byte) (r : Reloc) : Option (List Byte) := do
  let v ← b.value r
  if r.offset % 8 ≠ 0 ∨ bs.length < r.offset + 8 ∨ !placedType type then none
  else
    let w ← patchWord type r.kind v (bytesWord ((bs.drop r.offset).take 8))
    return bs.take r.offset ++ wordBytes w ++ bs.drop (r.offset + 8)

/-- Every section with its relocations applied, in table order. -/
def Bind.relocated (b : Bind) : Option (List (Section × List Byte)) :=
  b.f.secs.zipIdx.mapM fun (s, k) => do
    let bs ← (b.f.relocs.filter (·.link == k)).foldlM (fun bs r => b.relocate s.type bs r) s.bytes
    return (s, bs)

def wordsOf (bs : List Byte) : List Word64 := (List.range (bs.length / 8)).map fun k => bytesWord ((bs.drop (8 * k)).take 8)

/-! ## The image -/

/-- A liveness table's ranges are aligned (R38, R338). -/
def livenessOk (bs : List Byte) : Bool :=
  (List.range (bs.length / 64)).all fun e => (List.range 8).all fun i => numAt bs (64 * e + 32 + 4 * i) 4 % 16 == 0

/-- The arrays of a tableau record break R291, as Galliard's own check finds. -/
def tableauRefused (ws : List Word64) : Bool :=
  let ch : Chain := {
    addr := 0, pid := 0, asid := 0, eng := 2, logn := 2, ring := 0, tgt := 0, cword := 0, head := 0, tail := 0, lead := 0, done := []
    halted := false, code := 0, due := false, told := false, held := false, stuck := false }
  (ch.newCtx 0 0 [] ws).tableauBad

/-- A tableau record that keeps R289 to R291, at a place of a section. -/
def tableauOk (bs : List Byte) (off : Nat) : Bool :=
  let ws := wordsOf (bs.drop off)
  let n := tabWords (ws.getD 0 0)
  !tabHeaderBad (ws.take 8) && decide (n ≤ ws.length) && !tableauRefused (ws.take n)

/-- A kernel as placed: its descriptor, then its native words. -/
def kernelBytes (f : ModuleFile) (k : Nat) (s : Section) (bs : List Byte) : Option (List Byte) := do
  let desc ← (f.linked 2 k).head?
  let nlive := ((f.linked 5 k).map fun l => l.bytes.length / 64).foldl (· + ·) 0
  let ws := wordsOf bs
  let d := numAt desc.bytes 0 8
  let native ← if s.native then (if nativeOk d nlive ws then some ws else none) else do
    let is ← portableKernel d nlive ws
    finalise is ws
  if kernelReserved d || numAt desc.bytes 8 56 != 0 then none
  else return desc.bytes ++ native.flatMap wordBytes

/-- What is written for each section: its number, its place from the base and its bytes; none where the finaliser refuses
the module (R38, R361). -/
def Bind.image (b : Bind) (secs : List (Section × List Byte)) : Option (List (Nat × Nat × List Byte)) := do
  let tabs := fun (k : Nat) => 0 :: ((b.f.syms.filter fun y => y.kind == 4 && y.section_ == k).map (·.offset))
  let out ← secs.zipIdx.mapM fun (x, k) => do
    let (s, bs) := x
    let a := b.at_.getD k 0 - b.base
    match s.type with
    | 1 => return [(k, a - 64, ← kernelBytes b.f k s bs)]
    | 4 => if (List.range (bs.length / 64)).any fun j => Layout.malformed (wordsOf ((bs.drop (64 * j)).take 64)) then none else return [(k, a, bs)]
    | 5 => if livenessOk bs then return [(k, a, bs)] else none
    | 7 => if (tabs k).all (tableauOk bs) then return [(k, a, bs)] else none
    | 3 | 6 => return [(k, a, bs)]
    | _ => return []
  return out.flatten

/-! ## The finaliser's cache (R36, R37) -/

/-- Where a word of a section stands once placed, from the base: in a portable kernel each word but RGN has its header
before it. -/
def Bind.placeOf (b : Bind) (k : Nat) (s : Section) (off : Nat) : Nat :=
  b.at_.getD k 0 - b.base + (if s.type = 1 ∧ !s.native then
    16 * ((List.range (off / 8)).filter fun j => bits (numAt s.bytes (8 * j) 8) 52 10 != 0x00C).length + 8 else off)

/-- The relocations of an image against its base. -/
def Bind.fixes (b : Bind) : List Fix :=
  b.f.secs.zipIdx.flatMap fun (s, k) => (b.f.relocs.filter (·.link == k)).filterMap fun r =>
    (b.source r).map fun (node, val) => { at_ := b.placeOf k s r.offset, type := s.type, kind := r.kind, node, val }

/-- A cached image, its relocations applied for another area. -/
def Cached.placed (c : Cached) (b : Bind) : List (Nat × Nat × List Byte) :=
  c.parts.map fun (k, o, bs) => (k, o, (c.fixes.filter fun x => decide (o ≤ x.at_) && decide (x.at_ < o + bs.length)).foldl
    (fun bs x =>
      let w := bytesWord ((bs.drop (x.at_ - o)).take 8)
      match (fixValue b.base b.nodes x.kind (x.node, x.val)).bind fun v => patchWord x.type x.kind v w with
      | some w => bs.take (x.at_ - o) ++ wordBytes w ++ bs.drop (x.at_ - o + 8)
      | none => bs) bs)

/-- An image used moves to the front, as first finalised, and the least recently used go. -/
def cacheImage (cs : List Cached) (x : Cached) : List Cached :=
  let cs := (cs.find? (·.digest == x.digest)).getD x :: cs.filter (·.digest != x.digest)
  (cs.foldl (fun (acc : Nat × List Cached) c =>
    let n := acc.1 + (c.parts.map (·.2.2.length)).foldl (· + ·) 0
    if n ≤ 2 ^ 28 then (n, acc.2 ++ [c]) else (2 ^ 28 + 1, acc.2)) (0, [])).2

/-! ## The load area (R37, R39) -/

/-- The pages of an area, each mapped as R37 says: physical address and size; `fuel` bounds the pages. -/
def Dev.areaPages (d : Dev) (pid asid va stop : Nat) : (fuel : Nat) → Dev × Option (List (Nat × Nat))
  | 0 => (d, if va < stop then none else some [])
  | fuel + 1 =>
    if stop ≤ va then (d, some [])
    else match d.l2Translate 0 pid asid va .rw with
      | (d, .ok l) =>
        if l.x ∧ l.mt = .cacheable ∧ paRegion l.pa = 0 then
          let next := min stop (l.base + l.size)
          match Dev.areaPages d pid asid next stop fuel with
          | (d, some ps) => (d, some ((l.paOf va, next - va) :: ps))
          | r => r
        else (d, none)
      | (d, _) => (d, none)

/-- The memory a live grid has been given, as its launch record and its batch name it (R26 to R29, R60). -/
def Dev.givenTo (d : Dev) (g : Grid) : List (Nat × Nat) :=
  let l := g.launch
  [(l.code.toNat - 64, 72), (if l.traph then l.handler.toNat else 0, if l.traph then 8 else 0), (l.args, 8 * l.narg),
   (l.cbase, 256 * l.csize), (l.pbase, 32 * l.psize * l.nteam * l.ngroup)] ++
  (match g.origin with
    | .firing n _ => ((d.node? n).map fun x => (g.rec_.toNat, 64 + x.bcap * x.rsz)).toList
    | _ => [])

/-- A live grid has been given an address of the area (R37), or a module already loaded lies in it, which no load changes
(R39; log 34). -/
def Dev.areaInUse (d : Dev) (asid base n : Nat) : Bool :=
  (d.grids.any fun g => g.asid == asid && (d.givenTo g).any fun r => rangesMeet base n r.1 r.2) ||
  (d.parts.any fun p => p.modules.any fun m => m.asid == asid && rangesMeet base n m.base m.length)

/-- Every core's instruction-cache lines of some physical ranges are dropped (R72). -/
def Dev.dropCode (d : Dev) (ps : List (Nat × Nat)) : Dev :=
  let hit := fun (num : Nat) => ps.any fun p => rangesMeet (128 * num) 128 p.1 p.2
  { d with cores := d.cores.map fun (k, c) => (k, { c with icache := c.icache.filter fun l => !hit l.num }) }

/-- The addresses that the command returns: kernels' CODE, global symbols, layout records, liveness tables (R36). DESIGN
CHOICE (log 33): OUT has 32 words (R366), and addresses beyond the 32nd are not returned. -/
def Bind.results (b : Bind) : List Word64 :=
  let at_ := fun (t : Nat) => (b.f.ofType t).map fun (k, _) => b.at_.getD k 0
  let globals := (b.f.syms.filter fun y => y.glob && y.kind != 0).map b.address
  let layouts := (b.f.ofType 4).flatMap fun (k, s) => (List.range (s.bytes.length / 64)).map fun j => b.at_.getD k 0 + 64 * j
  ((at_ 1 ++ globals ++ layouts ++ at_ 5).map (BitVec.ofNat 64)).take 32

/-- The kernels with their liveness tables (R338). -/
def Bind.kernels (b : Bind) : List Kernel :=
  (b.f.ofType 1).map fun (k, _) =>
    let live := (b.f.ofType 5).find? fun (_, s) => s.link == k
    { code := b.at_.getD k 0, live := (live.map fun (j, _) => b.at_.getD j 0).getD 0
      nlive := (live.map fun (_, s) => s.bytes.length / 64).getD 0 }

/-- The module is placed: nodes made, its bytes written, its code invalidated. -/
def Dev.placeModule (d : Dev) (pid : Nat) (m : Module) (image : Cached) (parts : List (Nat × Nat × List Byte))
    (pages : List (Nat × Nat)) : Dev × Bool :=
  let (d, done) := parts.foldl (fun (acc : Dev × Bool) (_, o, bs) =>
    if acc.2 then match acc.1.engWrite 0 pid m.asid (m.base + o) bs with
      | (d, .ok _) => (d, true)
      | (d, _) => (d, false)
    else acc) (d, true)
  let d := d.dropCode pages
  if !done then (d, false)
  else ({ d.modPart pid fun p => { p with modules := p.modules ++ [m] } with images := cacheImage d.images image }, true)

/-- Node descriptors become nodes with the ids taken for them (R58). -/
def Dev.moduleNodes (d : Dev) (pid asid : Nat) (b : Bind) (parts : List (Nat × Nat × List Byte)) : Option Dev := do
  let ids := b.nodes
  let ds := (parts.filter fun x => b.f.type x.1 == 6).flatMap fun (_, _, bs) =>
    (List.range (bs.length / 64)).map fun k => wordsOf ((bs.drop (64 * k)).take 64)
  let ns ← (ds.zip ids).mapM fun (ws, id) => (d.nodeOf pid asid ws).map fun n => { n with id }
  return { d with nodes := d.nodes ++ ns }

/-- The load, once the module has been read: its image comes from the finaliser's cache or is finalised (R36). -/
def Dev.loadFile (d : Dev) (p : Partition) (digest : BitVec 512) (f : ModuleFile) (asid base length : Nat) : Dev × Reply :=
  let (at_, stop) := f.places base
  let want := (((f.ofType 6).map fun (_, s) => s.bytes.length / 64).foldl (· + ·) 0)
  let ids := ((List.range 4096).filter fun k => !d.nodes.any (·.id == k)).take want
  let b : Bind := { f, base, at_, nodes := ids }
  let made : Option (Dev × List (Nat × Nat × List Byte)) := do
    let parts ← match d.images.find? (·.digest == digest) with
      | some c => some (c.placed b)
      | none => b.relocated.bind b.image
    return (← d.moduleNodes p.pid asid b parts, parts)
  if base + length < stop ∨ d.areaInUse asid base length then (d, invalid)
  else if ids.length < want then (d, .now 4 [])
  else match d.areaPages p.pid asid base (base + length) (length / 16384 + 1), made with
    | (_, some pages), some (d, parts) =>
      match d.placeModule p.pid { digest, asid, base, length, kernels := b.kernels } { digest, parts, fixes := b.fixes } parts pages with
      | (d, true) => (d, .later (.settled b.results))
      | (d, false) => ({ d with nodes := d.nodes.filter fun n => !ids.contains n.id }, invalid)
    | _, _ => (d, invalid)

/-- LOAD_MODULE (R36, R37): ARG holds the module's address, its size, the ASID, the load area's base and its length. -/
def execLoadModule (pid : Nat) (s : State) : Res :=
  devCommand s pid 1 false fun d p =>
    let (a, size, asid, base, length) := (p.argN 0, p.argN 1, p.argN 2, p.argN 3, p.argN 4)
    if !p.rec_.ownsAsid asid || base % 2 ^ 16 != 0 || decide (2 ^ 48 < base + length) then (d, invalid)
    else match d.engRead 0 pid asid a size with
      | (d, .ok bs) => (match moduleFile bs with
        | some (m, f) => d.loadFile p (Config.sha512 m) f asid base length
        | none => (d, invalid))
      | (d, _) => (d, invalid)

end Sys2Proof.Machine
end

