-- ==== Sys2Proof/Machine/Firmware.lean ====
section
/-! DEFINITION. Firmware slots, boot and recovery, FW_UPDATE, the fatal dump and DUMP_READ, package power, patrol scrub
(R222, R377 to R380, R383, R385, R386, R388). -/

namespace Sys2Proof.Machine

/-! ## Images (R377, R378) -/

def FwSlot.field (x : FwSlot) (off lo n : Nat) : Nat := bits (numAt x.header off 8) lo n

def FwSlot.svn (x : FwSlot) : Nat := x.field 8 32 32

def FwSlot.kid (x : FwSlot) : BitVec 2 := BitVec.ofNat 2 (x.field 0x20 0 2)

def FwSlot.size (x : FwSlot) : Nat := numAt x.header 0x10 8

/-- SHA-512 over header bytes 0x00 to 0x3F and the body (R377). -/
def FwSlot.digest (x : FwSlot) : BitVec 512 := Config.sha512 (x.header.take 0x40 ++ x.body)

/-- Bytes as a slot or a host buffer holds them: the header, and the body of SIZE bytes. -/
def FwSlot.ofBytes (bs : List Byte) : FwSlot :=
  let h := bs.take 128
  { header := h, body := (bs.drop 128).take (numAt h 0x10 8) }

def FwSlot.malformed (x : FwSlot) : Bool :=
  x.header.length != 128 || x.field 0 48 16 != 0 || x.field 0 0 32 != 0x39343430 || decide (64 < x.svn) ||
  x.size % 4096 != 0 || decide (2 ^ 26 - 4096 < x.size) || x.body.length != x.size || x.field 0x20 2 62 != 0 ||
  numAt x.header 0x28 24 != 0

/-- Why an image does not authenticate, in R380's detail codes; 0 when it does (R378). -/
def Fw.refuses (fw : Fw) (x : FwSlot) : Nat :=
  let key := Config.imageKey x.body
  let step := x.field 0 32 16
  if x.malformed then 1
  else if step ≠ 0xFFFF ∧ step ≠ Config.stepping.toNat then 2
  else if fw.revoked.getLsbD x.kid.toNat ∨ Config.sha512 (natBytes 32 key.toNat) ≠ Config.keyDigest x.kid then 3
  else if !Config.edVerify key x.digest (BitVec.ofNat 512 (numAt x.header 0x40 64)) then 4
  else if x.svn < fw.arb then 5
  else 0

def Fw.slot (fw : Fw) (k : Nat) : FwSlot := fw.slots.getD k ⟨[], []⟩

/-- The running image's SVN; 0 where no image is named (log 8). -/
def Fw.svn (fw : Fw) : Nat := (fw.running.map (·.svn)).getD 0

/-! ## Boot (R222, R378, R379) -/

/-- The entry table that an image's Zither section gives a die: the library, and entries 9 to 63 (R222 to R224). -/
def imageEntries (x : FwSlot) : FMap Word64 :=
  (List.range 55).foldl (fun m k => fset zitherReset m (k + 9) (Config.zitherEntry (x.body.drop (numAt x.header 0x18 8)) (k + 9))) zitherLibrary

def Dev.loadZither (d : Dev) (x : FwSlot) (k : Nat) : Dev :=
  let body := x.body.drop (numAt x.header 0x18 8)
  d.modDie k fun y => { y with
    entries := imageEntries x, reload := false
    micro := (List.range 256).foldl (fun m n => fset 0 m n (Config.zitherMicro body n)) [] }

/-- The device as a reset leaves it: the memory of the host and of peers stands, and over a warm reset the device's own
(R385; log 35). -/
def Dev.restart (d : Dev) (warm : Bool) : Dev :=
  let own := 2 ^ 49
  { Dev.reset with
    fresh := d.fresh, nextId := d.nextId, capacity := d.capacity
    mem := if warm then d.mem else d.mem.filter fun x => decide (own ≤ x.1)
    poison := if warm then d.poison else d.poison.filter fun x => decide (own / 32 ≤ x)
    lineKey := if warm then d.lineKey else [], keyGen := d.keyGen }

/-- The device runs an image. -/
def State.runImage (s : State) (x : FwSlot) : State :=
  { s with
    dev := (List.range 4).foldl (fun d k => d.loadZither x k) s.dev
    fw := { s.fw with running := some x, recovery := false } }

/-- The slot the boot ROM takes: the greater SVN first, slot 0 on a tie; the other when that fails (R378). -/
def Fw.bootSlot (fw : Fw) : Option FwSlot :=
  let (a, b) := (fw.slot 0, fw.slot 1)
  (if a.svn < b.svn then [b, a] else [a, b]).find? fun x => fw.refuses x == 0

/-- The device powers on or is reset warm. -/
def State.boot (s : State) (warm : Bool) : State :=
  let d := s.dev.restart warm
  let fw := { s.fw with staging := [], spdm := Spdm.reset, clock := 1600, limit := packageTdp, on := true, running := none
                        dump := { s.fw.dump with writing := false, state := if s.fw.dump.writing then 2 else s.fw.dump.state } }
  match fw.bootSlot with
  | some x => ({ s with dev := d, fw } : State).runImage x
  | none => { s with dev := { d with dies := d.dies.map fun y => { y with entries := [] } }, fw := { fw with recovery := true } }

/-- BOOT: a power-on of a device without power, or a warm reset of one with it. -/
def execBoot (warm : Bool) (s : State) : Res :=
  if s.fw.on = warm then .next (s.boot warm) else .refused .notPending

/-- An image that a write cut short leaves over what stood there. -/
def cutImage (n : Nat) (new old : FwSlot) : FwSlot :=
  let (a, b) := (new.header ++ new.body, old.header ++ old.body)
  let bs := a.take n ++ b.drop n
  { header := bs.take 128, body := bs.drop 128 }

/-- What a loss of power leaves of the flash: a slot being written holds a part of the image; fuses stay as they are
(R380). -/
def State.cutSlots (s : State) : List FwSlot :=
  match (s.dev.part 0).box.wait with
  | some (.writeSlot k x) => listSet s.fw.slots k (cutImage (Config.cutAt s.dev.fresh) x)
  | _ => s.fw.slots

/-- POWER_LOSS. -/
def execPowerLoss (s : State) : Res :=
  if !s.fw.on then .refused .notPending
  else .next { s with
    dev := s.dev.restart false
    fw := { s.fw with
      slots := s.cutSlots, running := none, recovery := false, staging := [], spdm := Spdm.reset, on := false
      dump := { Dump.reset with ndump := s.fw.dump.ndump } } }

/-! ## FW_UPDATE (R380) -/

/-- A command of the PF whose operation stands in ARG word 0. -/
def fwCommand (s : State) (pid opc op : Nat) (f : State → Partition → State × Reply) : Res :=
  match s.dev.parts[pid]? with
  | none => .refused .notPending
  | some p => if p.argN 0 % 256 = op then runCommand s pid opc true f else .refused .notPending

/-- Refused with a detail code in OUT word 0. -/
def detail (n : Nat) : Reply := .now 3 [BitVec.ofNat 64 n]

/-- The image a command names: in host memory, or staged (R379, R380). -/
def State.namedImage (s : State) (p : Partition) : FwSlot :=
  FwSlot.ofBytes (if s.fw.recovery then fgetBytes s.fw.staging 0 (min (p.argN 2) (2 ^ 26)) else s.dev.hostRd (p.argN 1) (p.argN 2))

/-- WRITE_SLOT. -/
def execWriteSlot (pid : Nat) (s : State) : Res :=
  fwCommand s pid 0x25 1 fun s p =>
    let x := s.namedImage p
    let k := p.argN 3
    if 1 < k then (s, invalid)
    else if s.fw.refuses x ≠ 0 then (s, detail (s.fw.refuses x))
    else if !s.fw.recovery ∧ s.fw.refuses (s.fw.slot (1 - k)) ≠ 0 then (s, detail 6)
    else (s, .later (.writeSlot k x))

/-- BOOT_ONCE: in recovery alone. -/
def execBootOnce (pid : Nat) (s : State) : Res :=
  fwCommand s pid 0x25 2 fun s p =>
    let x := s.namedImage p
    if !s.fw.recovery then (s, .now 2 [])
    else if s.fw.refuses x ≠ 0 then (s, detail (s.fw.refuses x))
    else (s.runImage x, okay)

/-- COMMIT. -/
def execCommit (pid : Nat) (s : State) : Res :=
  fwCommand s pid 0x25 3 fun s _ =>
    let target := s.fw.svn
    let after := { s.fw with arb := target }
    if target ≤ s.fw.arb then (s, detail 5)
    else if after.slots.any fun x => after.refuses x != 0 then (s, detail 6)
    else (s, .later (.commit target))

/-- ZRELOAD: each die waits for its rounds, and holds new calls (R222). -/
def execZreload (pid : Nat) (s : State) : Res :=
  fwCommand s pid 0x25 4 fun s _ =>
    if s.fw.recovery then (s, invalid)
    else ({ s with dev := { s.dev with dies := s.dev.dies.map fun x => { x with reload := true } } }, .later .reload)

/-- Lute goes on with a firmware command: the flash is written, or fails; a fuse is blown; a die whose rounds are closed
is loaded. None while it must wait. -/
def State.fwStep (s : State) (pid : Nat) : CmdWait → Option State
  | .writeSlot k x =>
    if Config.freeBool s.dev.fresh 380 then some { s with
      dev := s.dev.answerCmd pid 4 []
      fw := { s.fw with slots := listSet s.fw.slots k (cutImage (Config.cutAt s.dev.fresh) x) } }
    else some { s with dev := s.dev.answerCmd pid 0 [], fw := { s.fw with slots := listSet s.fw.slots k fun _ => x } }
  | .commit target =>
    if s.fw.arb < target then some { s with fw := { s.fw with arb := s.fw.arb + 1 } }
    else some { s with dev := s.dev.answerCmd pid 0 [] }
  | .reload =>
    match (List.range 4).find? fun k => (s.dev.die k).reload && !s.dev.rounds.any (·.die == k) with
    | some k => some { s with dev := match s.fw.running with
        | some x => s.dev.loadZither x k
        | none => s.dev.modDie k fun y => { y with reload := false } }
    | none => if s.dev.dies.any (·.reload) then none else some { s with dev := s.dev.answerCmd pid 0 [] }
  | _ => none

/-! ## The fatal dump (R385, R386) -/

/-- The header's eight words. -/
def Dump.header (x : Dump) : List Word64 :=
  [x.ndump ++ (if x.magic then 0x44554D50#32 else 0#32),
   x.cause ++ x.cause2 ++ x.die ++ x.state ++ x.pooldies ++ x.sect ++ 0#32, x.time, x.size, 0, 0, 0, 0]

/-- Bytes of the dump carve-out; beyond what is held they read as zeros (log 6). -/
def Dump.bytes (x : Dump) (off n : Nat) : List Byte :=
  let all := x.header.flatMap wordBytes ++ x.body
  (List.range n).map fun k => all.getD (off + k) 0

/-- The dump is closed: EVT[5] and vector 0 of the PF (R385). -/
def State.tellDump (s : State) : State := { s with dev := (s.dev.setEvt 0 5).raiseVec 0 0 }

/-- The dump's contents: its sections, and the pools until the carve-out is full. -/
def Dump.fill (x : Dump) (bs : List Byte) : Dump :=
  let body := bs.take (2 ^ 30 - 64)
  { x with body, size := BitVec.ofNat 64 (64 + body.length) }

/-- FATAL_ERROR: intake stops and cores and engines freeze. A dump already held stands, and only NDUMP rises; a second
error while the dump is written closes it as truncated (R385, R386). -/
def execFatalError (cause : BitVec 8) (die : BitVec 2) (s : State) : Res :=
  let x := s.fw.dump
  let s := { s with dev := { s.dev with frozen := true } }
  if cause = 0 ∨ 5 < cause.toNat then .refused .notPending
  else if x.writing then
    let part := (Config.dumpBytes s.dev.fresh).take (Config.cutAt s.dev.fresh)
    .next { s with fw := { s.fw with dump := { x with cause2 := cause, state := 2, writing := false }.fill part } }.tellDump
  else if x.state ≠ 0 then .next { s with fw := { s.fw with dump := { x with ndump := x.ndump + 1 } } }
  else .next { s with fw := { s.fw with dump := { x with
    ndump := x.ndump + 1, magic := true, cause, cause2 := 0, die := die.setWidth 4, pooldies := x.next
    sect := if x.next = 0 then 0x1F else 0x3F, time := BitVec.ofNat 64 (s.dev.tick 0), size := 64, body := [], writing := true } } }

/-- The dump has been written. -/
def State.dumpDone (s : State) : State :=
  State.tellDump { s with fw := { s.fw with
    dump := { s.fw.dump with state := 1, writing := false }.fill (Config.dumpBytes s.dev.fresh) } }

/-- DUMP_READ READ: a release at .SYS follows the copy. -/
def execDumpRead (pid : Nat) (s : State) : Res :=
  fwCommand s pid 0x26 1 fun s p =>
    let (off, n) := (p.argN 1, p.argN 2)
    if 2 ^ 30 < off + n then (s, invalid)
    else ({ s with dev := s.dev.hostWr (!s.fw.recovery) (p.argN 3) (s.fw.dump.bytes off n) }, .later (.settled []))

/-- DUMP_READ CLEAR. -/
def execDumpClear (pid : Nat) (s : State) : Res :=
  fwCommand s pid 0x26 2 fun s _ => ({ s with fw := { s.fw with dump := { s.fw.dump with state := 0, magic := false } } }, okay)

/-- DUMP_READ CONFIG: at most two dies. -/
def execDumpConfig (pid : Nat) (s : State) : Res :=
  fwCommand s pid 0x26 3 fun s p =>
    let m := BitVec.ofNat 4 (p.argN 1)
    if 2 < ((List.range 4).filter fun k => m.getLsbD k).length then (s, invalid)
    else ({ s with fw := { s.fw with dump := { s.fw.dump with next := m } } }, okay)

/-! ## Power, scrub (R383, R388) -/

/-- CLOCK_THROTTLE: the arithmetic clock falls by a step of 50 MHz. -/
def execClockThrottle (s : State) : Res :=
  if s.fw.clock ≤ 50 then .refused .notPending else .next { s with fw := { s.fw with clock := s.fw.clock - 50 } }

/-- CLOCK_RAISE: and rises again, up to its own rate. -/
def execClockRaise (s : State) : Res :=
  if 1600 ≤ s.fw.clock then .refused .notPending else .next { s with fw := { s.fw with clock := s.fw.clock + 50 } }

/-- PATROL_SCRUB: a sector is read; what it finds is free: no error, a corrected one, which is counted, or an uncorrectable
one, which poisons the sector unless its home holds the line (R383; log 35). -/
def execPatrolScrub (sector : Nat) (s : State) : Res :=
  if !paLegal s.dev.capacity (32 * sector) ∨ 1 < paRegion (32 * sector) then .refused .notPending
  else if !Config.freeBool s.dev.fresh 383 ∨ s.dev.poisoned (32 * sector) 32 then .next s
  else if Config.freeBool s.dev.fresh 384 then .next { s with fw := { s.fw with scrubbed := s.fw.scrubbed + 1 } }
  else if (s.dev.home (sector / 4)).form.isSome then .next s
  else .next { s with dev := { s.dev with
    poison := s.dev.poison.filter (· < sector) ++ sector :: s.dev.poison.filter (sector < ·) } }

end Sys2Proof.Machine
end

