-- ==== Sys2Proof/Machine/Secure.lean ====
section
/-! DEFINITION. The SPDM responder and IDE_KM (R381). The wire form of the messages is SPDM's own and no part of the spec:
a reply holds what R381 names, and an exchange out of order is answered with no payload (log 13). -/

namespace Sys2Proof.Machine

/-- The seed of the identity key (R381). -/
def identitySeed : BitVec 256 :=
  (Config.sha512 (natBytes 32 Config.uds.toNat ++ "9440-identity".toList.map fun c => BitVec.ofNat 8 c.toNat)).setWidth 256

def digestBytes (x : BitVec 512) : List Byte := natBytes 64 x.toNat

/-- A request that the responder's state permits. -/
def spdmAnswer (s : State) (ok : Spdm → Bool) (f : Spdm → Spdm) : Res :=
  let p := s.fw.spdm
  .next { s with fw := { s.fw with spdm := if ok p then f p else { p with reply := [] } } }

def Spdm.ready (p : Spdm) : Bool := p.version && p.caps && p.algs

/-- SPDM_GET_VERSION: 1.3; the exchange starts anew. -/
def execSpdmGetVersion (s : State) : Res :=
  spdmAnswer s (fun _ => true) fun p => { Spdm.reset with version := true, ide := p.ide, reply := [0x13] }

/-- SPDM_GET_CAPABILITIES. -/
def execSpdmGetCapabilities (s : State) : Res :=
  spdmAnswer s (·.version) fun p => { p with caps := true, reply := [0x13] }

/-- SPDM_NEGOTIATE_ALGORITHMS. -/
def execSpdmNegotiateAlgorithms (s : State) : Res :=
  spdmAnswer s (fun p => p.version && p.caps) fun p => { p with algs := true, reply := [0x13] }

/-- SPDM_GET_DIGESTS: the digest of the certificate chain. -/
def execSpdmGetDigests (s : State) : Res :=
  spdmAnswer s (·.ready) fun p => { p with reply := digestBytes (Config.sha512 Config.certificates) }

/-- SPDM_GET_CERTIFICATE: a part of the chain. -/
def execSpdmGetCertificate (off len : Nat) (s : State) : Res :=
  spdmAnswer s (·.ready) fun p => { p with reply := (Config.certificates.drop off).take len }

/-- Bytes and the identity key's signature over them. -/
def signed (bs : List Byte) : List Byte := bs ++ natBytes 64 (Config.edSign identitySeed bs).toNat

/-- SPDM_CHALLENGE: the requester's nonce, the device's and the chain's digest, signed. -/
def execSpdmChallenge (nonce : BitVec 256) (s : State) : Res :=
  let mine := natBytes 32 (Config.spdmNonce s.dev.fresh).toNat
  let reply := signed (natBytes 32 nonce.toNat ++ mine ++ digestBytes (Config.sha512 Config.certificates))
  spdmAnswer s (·.ready) fun p => { p with reply }

/-! ## Measurements -/

/-- A partition's record as its 320 bytes (R364). -/
def PartRec.bytes (r : PartRec) : List Byte :=
  let w := fun (x : Nat) => natBytes 8 x
  w (r.asidn * 2 ^ 48 + r.asidb * 2 ^ 32 + r.keyb * 2 ^ 24 + r.keyn * 2 ^ 16 + r.nvec) ++
  w (r.pw * 2 ^ 48 + r.maxl * 2 ^ 36 + r.lshare * 2 ^ 24 + r.hshare * 2 ^ 16 + r.p * 2 ^ 8 + r.ceil) ++
  w r.peers.toNat ++ w r.saveb ++ (r.dwin ++ r.hwin).flatMap (fun x => w x.1 ++ w x.2) ++ w r.savesz ++ w 0 ++ w 0 ++ w 0 ++
  natBytes 64 r.cores.toNat

/-- The measurements of R381. -/
def State.measurement (s : State) : Nat → List Byte
  | 1 => digestBytes (Config.sha512 Config.bootRom)
  | 2 => digestBytes ((s.fw.running.map FwSlot.digest).getD (Config.sha512 []))
  | 3 => natBytes 4 s.fw.svn ++ natBytes 4 s.fw.arb
  | 4 => digestBytes (Config.sha512 (
      s.dev.dies.flatMap fun x => (List.range 256).flatMap (fun k => natBytes 8 (fget 0 x.micro k)) ++
        (List.range 64).flatMap fun k => wordBytes (fget zitherReset x.entries k)))
  | 5 => (if s.fw.recovery then "recovery" else "normal").toList.map fun c => BitVec.ofNat 8 c.toNat
  | 6 => digestBytes (Config.sha512 (s.dev.parts.flatMap (·.rec_.bytes)))
  | _ => []

/-- SPDM_GET_MEASUREMENTS: one by its index; PRESUMED of SPDM: 0 asks how many there are, and 255 for all (log 13). -/
def execSpdmGetMeasurements (idx : BitVec 8) (s : State) : Res :=
  let k := idx.toNat
  let named := if k = 255 then (List.range 6).flatMap fun j => s.measurement (j + 1) else s.measurement k
  let reply := if k = 0 then [6] else signed named
  spdmAnswer s (fun p => p.ready && (decide (k ≤ 6) || k == 255)) fun p => { p with reply }

/-! ## Sessions -/

/-- SPDM_KEY_EXCHANGE: the device's DHE share, signed. -/
def execSpdmKeyExchange (peer : BitVec 768) (s : State) : Res :=
  let share := Config.spdmShare s.dev.fresh
  spdmAnswer s (·.ready) fun p => { p with
    peer := some peer, share, session := false, reply := signed (natBytes 96 share.toNat) }

/-- SPDM_FINISH: the session opens where the requester's verification holds. -/
def execSpdmFinish (verify : BitVec 512) (s : State) : Res :=
  spdmAnswer s (fun p => p.ready && p.peer.any fun x => Config.spdmFinishOk x p.share verify) fun p =>
    { p with session := true, reply := [0x13] }

/-- SPDM_END_SESSION. -/
def execSpdmEndSession (s : State) : Res :=
  spdmAnswer s (·.session) fun p => { p with session := false, peer := none, reply := [0x13] }

/-- IDE_KM_MESSAGE: a stream's key, inside a secured session. -/
def execIdeKmMessage (stream : BitVec 8) (key : BitVec 256) (s : State) : Res :=
  spdmAnswer s (·.session) fun p => { p with ide := fset 0 p.ide stream.toNat key, reply := [0x13] }

end Sys2Proof.Machine
end

