-- ==== Sys2Proof/Machine/Dispatch.lean ====
section
/-! DEFINITION. One arm for each constructor of `Instr`, each one direct call of its meaning. -/

namespace Sys2Proof.Machine

def exec (i : Instr) (s : State) : Host.Outcome State Fault Refusal :=
  match i with
  | .clauseIssue h => Sys2Proof.Machine.execClauseIssue h s
  | .illop sub => Sys2Proof.Machine.execIllop sub s
  | .pairedWord x y => Sys2Proof.Machine.execPairedWord x y s
  | .nop g => Sys2Proof.Machine.execNop g s
  | .bra g rcv disp => Sys2Proof.Machine.execBra g rcv disp s
  | .brx g rcv target => Sys2Proof.Machine.execBrx g rcv target s
  | .call g disp => Sys2Proof.Machine.execCall g disp s
  | .callx g target => Sys2Proof.Machine.execCallx g target s
  | .ret => Sys2Proof.Machine.execRet s
  | .join => Sys2Proof.Machine.execJoin s
  | .joint pd cycles => Sys2Proof.Machine.execJoint pd cycles s
  | .jointTimeout r => Sys2Proof.Machine.execJointTimeout r s
  | .exit g => Sys2Proof.Machine.execExit g s
  | .delay g cycles => Sys2Proof.Machine.execDelay g cycles s
  | .delayExpiry r => Sys2Proof.Machine.execDelayExpiry r s
  | .yield => Sys2Proof.Machine.execYield s
  | .rgn => Sys2Proof.Machine.execRgn s
  | .phint smask live vmask => Sys2Proof.Machine.execPhint smask live vmask s
  | .ipf g lines disp => Sys2Proof.Machine.execIpf g lines disp s
  | .iadd o => Sys2Proof.Machine.execIadd o s
  | .isub o => Sys2Proof.Machine.execIsub o s
  | .iadd3 o => Sys2Proof.Machine.execIadd3 o s
  | .imul o => Sys2Proof.Machine.execImul o s
  | .imulh o => Sys2Proof.Machine.execImulh o s
  | .imad o => Sys2Proof.Machine.execImad o s
  | .imadw o => Sys2Proof.Machine.execImadw o s
  | .idiv o => Sys2Proof.Machine.execIdiv o s
  | .irem o => Sys2Proof.Machine.execIrem o s
  | .imin o => Sys2Proof.Machine.execImin o s
  | .imax o => Sys2Proof.Machine.execImax o s
  | .iabs o => Sys2Proof.Machine.execIabs o s
  | .ineg o => Sys2Proof.Machine.execIneg o s
  | .isad o => Sys2Proof.Machine.execIsad o s
  | .idot4 o => Sys2Proof.Machine.execIdot4 o s
  | .iset o => Sys2Proof.Machine.execIset o s
  | .sel o => Sys2Proof.Machine.execSel o s
  | .lea o => Sys2Proof.Machine.execLea o s
  | .mov o => Sys2Proof.Machine.execMov o s
  | .movi d imm g => Sys2Proof.Machine.execMovi d imm g s
  | .movw d imm g => Sys2Proof.Machine.execMovw d imm g s
  | .and o => Sys2Proof.Machine.execAnd o s
  | .or o => Sys2Proof.Machine.execOr o s
  | .xor o => Sys2Proof.Machine.execXor o s
  | .not o => Sys2Proof.Machine.execNot o s
  | .bool3 o => Sys2Proof.Machine.execBool3 o s
  | .shl o => Sys2Proof.Machine.execShl o s
  | .shr o => Sys2Proof.Machine.execShr o s
  | .sar o => Sys2Proof.Machine.execSar o s
  | .rot o => Sys2Proof.Machine.execRot o s
  | .funnel o => Sys2Proof.Machine.execFunnel o s
  | .bfe o => Sys2Proof.Machine.execBfe o s
  | .bfi o => Sys2Proof.Machine.execBfi o s
  | .popc o => Sys2Proof.Machine.execPopc o s
  | .clz o => Sys2Proof.Machine.execClz o s
  | .ctz o => Sys2Proof.Machine.execCtz o s
  | .brev o => Sys2Proof.Machine.execBrev o s
  | .prmt o => Sys2Proof.Machine.execPrmt o s
  | .pand o => Sys2Proof.Machine.execPand o s
  | .por o => Sys2Proof.Machine.execPor o s
  | .pxor o => Sys2Proof.Machine.execPxor o s
  | .pnot o => Sys2Proof.Machine.execPnot o s
  | .pmov f g => Sys2Proof.Machine.execPmov f g s
  | .fadd o => Sys2Proof.Machine.execFadd o s
  | .fmul o => Sys2Proof.Machine.execFmul o s
  | .ffma o => Sys2Proof.Machine.execFfma o s
  | .fmin o => Sys2Proof.Machine.execFmin o s
  | .fmax o => Sys2Proof.Machine.execFmax o s
  | .fdiv o => Sys2Proof.Machine.execFdiv o s
  | .fset o => Sys2Proof.Machine.execFset o s
  | .fclass o => Sys2Proof.Machine.execFclass o s
  | .frnd o => Sys2Proof.Machine.execFrnd o s
  | .fscale o => Sys2Proof.Machine.execFscale o s
  | .rcp o => Sys2Proof.Machine.execRcp o s
  | .rsq o => Sys2Proof.Machine.execRsq o s
  | .sqrt o => Sys2Proof.Machine.execSqrt o s
  | .exp2 o => Sys2Proof.Machine.execExp2 o s
  | .log2 o => Sys2Proof.Machine.execLog2 o s
  | .sin o => Sys2Proof.Machine.execSin o s
  | .cos o => Sys2Proof.Machine.execCos o s
  | .tanh o => Sys2Proof.Machine.execTanh o s
  | .dadd o => Sys2Proof.Machine.execDadd o s
  | .dmul o => Sys2Proof.Machine.execDmul o s
  | .dfma o => Sys2Proof.Machine.execDfma o s
  | .dmin o => Sys2Proof.Machine.execDmin o s
  | .dmax o => Sys2Proof.Machine.execDmax o s
  | .dset o => Sys2Proof.Machine.execDset o s
  | .dclass o => Sys2Proof.Machine.execDclass o s
  | .dfrnd o => Sys2Proof.Machine.execDfrnd o s
  | .dscale o => Sys2Proof.Machine.execDscale o s
  | .drcp o => Sys2Proof.Machine.execDrcp o s
  | .drsq o => Sys2Proof.Machine.execDrsq o s
  | .dsqrt o => Sys2Proof.Machine.execDsqrt o s
  | .ddiv o => Sys2Proof.Machine.execDdiv o s
  | .cvt o => Sys2Proof.Machine.execCvt o s
  | .fcvt o => Sys2Proof.Machine.execFcvt o s
  | .qpack o => Sys2Proof.Machine.execQpack o s
  | .qunpk o => Sys2Proof.Machine.execQunpk o s
  | .qscale o => Sys2Proof.Machine.execQscale o s
  | .amax o => Sys2Proof.Machine.execAmax o s
  | .vote o => Sys2Proof.Machine.execVote o s
  | .ballot o => Sys2Proof.Machine.execBallot o s
  | .shfl o => Sys2Proof.Machine.execShfl o s
  | .redux o => Sys2Proof.Machine.execRedux o s
  | .scan o => Sys2Proof.Machine.execScan o s
  | .match_ o => Sys2Proof.Machine.execMatch o s
  | .elect G pd g => Sys2Proof.Machine.execElect G pd g s
  | .regroup va sb => Sys2Proof.Machine.execRegroup va sb s
  | .xmget sd => Sys2Proof.Machine.execXmget sd s
  | .xmset src => Sys2Proof.Machine.execXmset src s
  | .ld o => Sys2Proof.Machine.execLd o s
  | .st o => Sys2Proof.Machine.execSt o s
  | .ldu o => Sys2Proof.Machine.execLdu o s
  | .stu o => Sys2Proof.Machine.execStu o s
  | .ldf o => Sys2Proof.Machine.execLdf o s
  | .stf o => Sys2Proof.Machine.execStf o s
  | .pref o => Sys2Proof.Machine.execPref o s
  | .cctlInv o => Sys2Proof.Machine.execCctlInv o s
  | .cctlWb o => Sys2Proof.Machine.execCctlWb o s
  | .cctlLock o => Sys2Proof.Machine.execCctlLock o s
  | .cctlUnlock o => Sys2Proof.Machine.execCctlUnlock o s
  | .cctlInvall space => Sys2Proof.Machine.execCctlInvall space s
  | .cctlIinv o => Sys2Proof.Machine.execCctlIinv o s
  | .atom o => Sys2Proof.Machine.execAtom o s
  | .red o => Sys2Proof.Machine.execRed o s
  | .cas o => Sys2Proof.Machine.execCas o s
  | .fence sem => Sys2Proof.Machine.execFence sem s
  | .waita o => Sys2Proof.Machine.execWaita o s
  | .waitaWake op => Sys2Proof.Machine.execWaitaWake op s
  | .watchDrop op => Sys2Proof.Machine.execWatchDrop op s
  | .waitge sc a b => Sys2Proof.Machine.execWaitge sc a b s
  | .cpy f g => Sys2Proof.Machine.execCpy f g s
  | .cpg o => Sys2Proof.Machine.execCpg o s
  | .cpbat sd => Sys2Proof.Machine.execCpbat sd s
  | .cpwait src => Sys2Proof.Machine.execCpwait src s
  | .etail a b g => Sys2Proof.Machine.execEtail a b g s
  | .rec_ scratch a b c g => Sys2Proof.Machine.execRec scratch a b c g s
  | .dense o => Sys2Proof.Machine.execDense o s
  | .mma o => Sys2Proof.Machine.execMma o s
  | .mmah o => Sys2Proof.Machine.execMmah o s
  | .mfence va n1 => Sys2Proof.Machine.execMfence va n1 s
  | .mwait t all => Sys2Proof.Machine.execMwait t all s
  | .aclr t n1 g => Sys2Proof.Machine.execAclr t n1 g s
  | .afill b64 t sa n1 g => Sys2Proof.Machine.execAfill b64 t sa n1 g s
  | .adrain o => Sys2Proof.Machine.execAdrain o s
  | .amov dir v t g => Sys2Proof.Machine.execAmov dir v t g s
  | .nmcall o => Sys2Proof.Machine.execNmcall o s
  | .nmclose a d g => Sys2Proof.Machine.execNmclose a d g s
  | .embag red o => Sys2Proof.Machine.execEmbag red o s
  | .bar id => Sys2Proof.Machine.execBar id s
  | .cbar id => Sys2Proof.Machine.execCbar id s
  | .mbinit a b g => Sys2Proof.Machine.execMbinit a b g s
  | .mbarv d a n1 g => Sys2Proof.Machine.execMbarv d a n1 g s
  | .mbexp d a b n g => Sys2Proof.Machine.execMbexp d a b n g s
  | .mbwait a b pr => Sys2Proof.Machine.execMbwait a b pr s
  | .mbinv a g => Sys2Proof.Machine.execMbinv a g s
  | .trap code g => Sys2Proof.Machine.execTrap code g s
  | .rte => Sys2Proof.Machine.execRte s
  | .bkpt g => Sys2Proof.Machine.execBkpt g s
  | .srd d sr g => Sys2Proof.Machine.execSrd d sr g s
  | .swr sr a => Sys2Proof.Machine.execSwr sr a s
  | .pmev n ev => Sys2Proof.Machine.execPmev n ev s
  | .longLatencyWriteback op => Sys2Proof.Machine.execLongLatencyWriteback op s
  | .icacheFill core line => Sys2Proof.Machine.execIcacheFill core line s
  | .pageWalk die => Sys2Proof.Machine.execPageWalk die s
  | .homeAccess req => Sys2Proof.Machine.execHomeAccess req s
  | .storeAnswer req => Sys2Proof.Machine.execStoreAnswer req s
  | .flushMarker r die => Sys2Proof.Machine.execFlushMarker r die s
  | .leaseExpiry line => Sys2Proof.Machine.execLeaseExpiry line s
  | .peerProbe req core => Sys2Proof.Machine.execPeerProbe req core s
  | .scratchpadRemoteAccess req => Sys2Proof.Machine.execScratchpadRemoteAccess req s
  | .hostSnoop line => Sys2Proof.Machine.execHostSnoop line s
  | .hostMemRead hpa n => Sys2Proof.Machine.execHostMemRead hpa n s
  | .hostMemWrite hpa bytes => Sys2Proof.Machine.execHostMemWrite hpa bytes s
  | .copyComplete id => Sys2Proof.Machine.execCopyComplete id s
  | .barrierArrival id => Sys2Proof.Machine.execBarrierArrival id s
  | .matrixOpComplete id => Sys2Proof.Machine.execMatrixOpComplete id s
  | .mmahFetch id => Sys2Proof.Machine.execMmahFetch id s
  | .zitherCallStart id => Sys2Proof.Machine.execZitherCallStart id s
  | .zitherCallEnd id => Sys2Proof.Machine.execZitherCallEnd id s
  | .roundCloseAck id => Sys2Proof.Machine.execRoundCloseAck id s
  | .embagComplete id => Sys2Proof.Machine.execEmbagComplete id s
  | .kick pid page x => Sys2Proof.Machine.execKick pid page x s
  | .theorboRound die => Sys2Proof.Machine.execTheorboRound die s
  | .abort q => Sys2Proof.Machine.execAbort q s
  | .resetQueue q => Sys2Proof.Machine.execResetQueue q s
  | .fencePacket q => Sys2Proof.Machine.execFencePacket q s
  | .waitPacket q => Sys2Proof.Machine.execWaitPacket q s
  | .waitTimeout q => Sys2Proof.Machine.execWaitTimeout q s
  | .signal q => Sys2Proof.Machine.execSignal q s
  | .graph q => Sys2Proof.Machine.execGraph q s
  | .launch q => Sys2Proof.Machine.execLaunch q s
  | .nodeRecord q => Sys2Proof.Machine.execNodeRecord q s
  | .chainPacket q => Sys2Proof.Machine.execChainPacket q s
  | .nopPacket q => Sys2Proof.Machine.execNopPacket q s
  | .dispatch => Sys2Proof.Machine.execDispatch s
  | .ageingTick q => Sys2Proof.Machine.execAgeingTick q s
  | .rampWindow die => Sys2Proof.Machine.execRampWindow die s
  | .teamStart team => Sys2Proof.Machine.execTeamStart team s
  | .powerGate core => Sys2Proof.Machine.execPowerGate core s
  | .coreWake core => Sys2Proof.Machine.execCoreWake core s
  | .nodeTimerLapse node => Sys2Proof.Machine.execNodeTimerLapse node s
  | .graphNodeStart graph node => Sys2Proof.Machine.execGraphNodeStart graph node s
  | .phintWindowExpiry r => Sys2Proof.Machine.execPhintWindowExpiry r s
  | .teamSave team => Sys2Proof.Machine.execTeamSave team s
  | .teamRestore team => Sys2Proof.Machine.execTeamRestore team s
  | .retire team => Sys2Proof.Machine.execRetire team s
  | .galliardStart chain => Sys2Proof.Machine.execGalliardStart chain s
  | .galliardStop chain => Sys2Proof.Machine.execGalliardStop chain s
  | .galliardAttempt ctx => Sys2Proof.Machine.execGalliardAttempt ctx s
  | .recordRetire ctx idx => Sys2Proof.Machine.execRecordRetire ctx idx s
  | .denseServe ctx => Sys2Proof.Machine.execDenseServe ctx s
  | .blockTransfer chain => Sys2Proof.Machine.execBlockTransfer chain s
  | .citternFact job => Sys2Proof.Machine.execCitternFact job s
  | .citternSolve job => Sys2Proof.Machine.execCitternSolve job s
  | .citternFsolve job => Sys2Proof.Machine.execCitternFsolve job s
  | .citternGmres ctx => Sys2Proof.Machine.execCitternGmres ctx s
  | .cteSend chain => Sys2Proof.Machine.execCteSend chain s
  | .cteBlockReceive win idx src stream bytes => Sys2Proof.Machine.execCteBlockReceive win idx src stream bytes s
  | .cteAck chain entry block code => Sys2Proof.Machine.execCteAck chain entry block code s
  | .cteResend chain entry block => Sys2Proof.Machine.execCteResend chain entry block s
  | .parzonFlit port crcOk retrainOk => Sys2Proof.Machine.execParzonFlit port crcOk retrainOk s
  | .linkTraining port identity => Sys2Proof.Machine.execLinkTraining port identity s
  | .ethernetFrame port isCte => Sys2Proof.Machine.execEthernetFrame port isCte s
  | .mailboxWriteWhileBusy pid v => Sys2Proof.Machine.execMailboxWriteWhileBusy pid v s
  | .stsRead pid => Sys2Proof.Machine.execStsRead pid s
  | .evtClear pid v => Sys2Proof.Machine.execEvtClear pid v s
  | .registerWrite pid off v => Sys2Proof.Machine.execRegisterWrite pid off v s
  | .functionLevelReset pid => Sys2Proof.Machine.execFunctionLevelReset pid s
  | .spdmGetCertificate off len => Sys2Proof.Machine.execSpdmGetCertificate off len s
  | .spdmChallenge nonce => Sys2Proof.Machine.execSpdmChallenge nonce s
  | .spdmGetMeasurements idx => Sys2Proof.Machine.execSpdmGetMeasurements idx s
  | .spdmKeyExchange peer => Sys2Proof.Machine.execSpdmKeyExchange peer s
  | .spdmFinish verify => Sys2Proof.Machine.execSpdmFinish verify s
  | .boot warm => Sys2Proof.Machine.execBoot warm s
  | .fatalError cause die => Sys2Proof.Machine.execFatalError cause die s
  | .patrolScrub sector => Sys2Proof.Machine.execPatrolScrub sector s
  | .settleDeadline r => Sys2Proof.Machine.execSettleDeadline r s
  | .ideKmMessage stream key => Sys2Proof.Machine.execIdeKmMessage stream key s
  | .msixUnmask pid vec => Sys2Proof.Machine.execMsixUnmask pid vec s
  | .loadModule pid => Sys2Proof.Machine.execLoadModule pid s
  | .setRoot pid => Sys2Proof.Machine.execSetRoot pid s
  | .invalidate pid => Sys2Proof.Machine.execInvalidate pid s
  | .createQueue pid => Sys2Proof.Machine.execCreateQueue pid s
  | .destroyQueue pid => Sys2Proof.Machine.execDestroyQueue pid s
  | .resumeQueue pid => Sys2Proof.Machine.execResumeQueue pid s
  | .createNode pid => Sys2Proof.Machine.execCreateNode pid s
  | .destroyNode pid => Sys2Proof.Machine.execDestroyNode pid s
  | .registerChain pid => Sys2Proof.Machine.execRegisterChain pid s
  | .resumeChain pid => Sys2Proof.Machine.execResumeChain pid s
  | .dropChain pid => Sys2Proof.Machine.execDropChain pid s
  | .faultCfg pid => Sys2Proof.Machine.execFaultCfg pid s
  | .faultRead pid => Sys2Proof.Machine.execFaultRead pid s
  | .replayAll pid => Sys2Proof.Machine.execReplayAll pid s
  | .debugAttach pid => Sys2Proof.Machine.execDebugAttach pid s
  | .debugDetach pid => Sys2Proof.Machine.execDebugDetach pid s
  | .debugStop pid => Sys2Proof.Machine.execDebugStop pid s
  | .debugRead pid => Sys2Proof.Machine.execDebugRead pid s
  | .debugWrite pid => Sys2Proof.Machine.execDebugWrite pid s
  | .cteWindow pid => Sys2Proof.Machine.execCteWindow pid s
  | .cteEndpoint pid => Sys2Proof.Machine.execCteEndpoint pid s
  | .partSet pid => Sys2Proof.Machine.execPartSet pid s
  | .partReset pid => Sys2Proof.Machine.execPartReset pid s
  | .peerSet pid => Sys2Proof.Machine.execPeerSet pid s
  | .portMode pid => Sys2Proof.Machine.execPortMode pid s
  | .fecfg pid => Sys2Proof.Machine.execFecfg pid s
  | .writeSlot pid => Sys2Proof.Machine.execWriteSlot pid s
  | .bootOnce pid => Sys2Proof.Machine.execBootOnce pid s
  | .commit pid => Sys2Proof.Machine.execCommit pid s
  | .zreload pid => Sys2Proof.Machine.execZreload pid s
  | .dumpRead pid => Sys2Proof.Machine.execDumpRead pid s
  | .dumpClear pid => Sys2Proof.Machine.execDumpClear pid s
  | .dumpConfig pid => Sys2Proof.Machine.execDumpConfig pid s
  | .unknownCommand pid => Sys2Proof.Machine.execUnknownCommand pid s
  | .spdmGetVersion => Sys2Proof.Machine.execSpdmGetVersion s
  | .spdmGetCapabilities => Sys2Proof.Machine.execSpdmGetCapabilities s
  | .spdmNegotiateAlgorithms => Sys2Proof.Machine.execSpdmNegotiateAlgorithms s
  | .spdmGetDigests => Sys2Proof.Machine.execSpdmGetDigests s
  | .spdmEndSession => Sys2Proof.Machine.execSpdmEndSession s
  | .clockThrottle => Sys2Proof.Machine.execClockThrottle s
  | .clockRaise => Sys2Proof.Machine.execClockRaise s
  | .powerLoss => Sys2Proof.Machine.execPowerLoss s

end Sys2Proof.Machine
end

