-- ==== Sys2Proof/Machine/Moves.lean ====
section
/-! DEFINITION. What the device may do next: which splits are ready and which of them the issue ports choose (R99 to
R101), which events stand for pending work, and how time passes. One step takes one of these moves (log 1). -/

namespace Sys2Proof.Machine

/-- One thing the device may do next. -/
inductive Move where
  /-- the oldest thing asked from outside -/
  | outside
  /-- an event of the device, or a packet at its turn -/
  | event (i : Instr)
  /-- the next word of a split, or the header it stands at, issues; `opens` when the ports begin to choose anew -/
  | word (r : SplitRef) (i : Instr) (opens : Bool)
  /-- two splits that stand ready at one header merge (R99) -/
  | merge (a b : SplitRef)
  /-- a split fetches the header it stands at (R69) -/
  | fetch (r : SplitRef)
  /-- a split re-executes its region (R323) -/
  | rerun (r : SplitRef)
  /-- a release of a split performs (R246) -/
  | released (r : SplitRef)
  /-- a group reads its starting state again (R390) -/
  | load (r : GroupRef)
  /-- a request reaches its home and waits in the miss table or the spill ring (R173) -/
  | arrive (req : Nat)
  /-- a home takes a request back from its spill ring (R173) -/
  | takeBack (req : Nat)
  /-- a matrix unit reads operands of a queued operation (R215) -/
  | sample (mat : Nat)
  /-- an operand fetcher reads a part of B (R213) -/
  | fetchB (mat : Nat)
  /-- a near-memory call reads or writes a sector (R228) -/
  | zither (call : Nat)
  /-- the buffers and their core do a part of an EMBAG (R237) -/
  | bag (embag : Nat)
  /-- the copy unit moves a chunk (R197) -/
  | chunk (copy : Nat)
  /-- an engine writes its chain's counter or halt word (R282) -/
  | chainWrite (key : Nat)
  /-- Cittern takes an entry of its chain (R306) -/
  | takeJob (key : Nat)
  /-- Theorbo writes a queue's status word (R45) -/
  | status (q : Nat)
  /-- a packet completes (R46) -/
  | finish (q : Nat) (seq : BitVec 32)
  /-- a task graph ends (R62) -/
  | endGraph (graph : Nat)
  /-- records of a FEED enter (R61) -/
  | feed (graph node : Nat)
  /-- a context does the next thing of its own (R296 to R310) -/
  | context (num : Nat)
  /-- a sector of a block to be sent is read (R374) -/
  | readBlock (chain entry block : Nat)
  /-- what has arrived lands, piece by piece, or is counted (R374) -/
  | land (a : CteIn)
  /-- a served DENSE's arrival leaves, or its context's condition word is written (R296, R311) -/
  | denseEnds (request : Nat)
  /-- a destroyed node goes on to its end (R391) -/
  | nodeEnds (node : Nat)
  /-- a command that waits answers (R366) -/
  | answer (pid : Nat)
  /-- Lute takes up the command a function has issued (R367) -/
  | command (pid : Nat)
  /-- a partition's reset takes its next step (R369) -/
  | reset (pid : Nat)
  /-- the PF's own mailbox is reset (R369) -/
  | resetPf
  /-- Lute goes on with a firmware command (R380) -/
  | firmware (pid : Nat)
  /-- the dump has been written (R385) -/
  | dump
  /-- a lane of a round has no packet left to handle -/
  | skip (die : Nat)
  deriving DecidableEq, Repr

/-! ## Ready splits (R100, R246, R324, R327, R334, R336) -/

/-- Words that hand work to a unit beside the core (R253). -/
def Instr.hands : Instr → Bool
  | .cpy .. | .cpg _ | .cpbat _ | .mma _ | .mmah _ | .nmcall _ | .nmclose .. | .embag .. => true
  | _ => false

/-- Words that wait until an earlier release of their split has performed (R246). -/
def Instr.afterRel : Instr → Bool
  | .st _ | .stu _ | .stf _ | .red _ | .atom _ | .cas _ | .adrain _ | .fence _ | .exit _ | .mbinit .. | .mbinv .. => true
  | .ld o | .ldu o | .ldf o => isAcq o.ord
  | .waita o => semAcq o.sem
  | i => Instr.hands i || i.rendezvous

/-- Words with an acquire: they wait until an earlier release store or atomic of their split has performed (R246). -/
def Instr.acquires : Instr → Bool
  | .ld o | .ldu o | .ldf o => isAcq o.ord
  | .waita o | .atom o | .cas o => semAcq o.sem
  | _ => false

/-- A scope of .DEV or wider. -/
def Scope.wide : Scope → Bool
  | .core | .clu => false
  | _ => true

/-- A release store or atomic of the split, of a scope that `which` accepts, has not performed at its home (R246, R253). -/
def Dev.relOpen (d : Dev) (i : Issuer) (which : Scope → Bool) : Bool :=
  d.reqs.any fun r => r.by_ == i.ref && r.rel.any which && !r.done && r.mask &&& i.sp.mask != 0

/-- The registers and scratchpad that a word hands to a unit are still to come: a load or returning atomic of the group has
not returned, or a store of it to a scratchpad has not performed (R246, R253). -/
def Dev.operandsOpen (d : Dev) (i : Issuer) : Bool :=
  !d.loadsBack i.ref d.nextId || d.reqs.any fun r => r.by_ == i.ref && r.target.isSome && r.kind != .load && !r.done

/-- The unit a word works with has no room for it (R191, R201, R222, R229). -/
def Dev.unitFull (d : Dev) (i : Issuer) : Instr → Bool
  | .cpy _ g => !(i.on g).isEmpty && d.copiesFull i.core
  | .cpg o => !(i.on o.g).isEmpty && d.copiesFull i.core
  | .cpbat _ => d.batchesFull i.ref
  | .mma _ | .mmah _ => d.matFull i
  | .aclr _ _ g | .afill _ _ _ _ g => !(i.on g).isEmpty && d.matFull i
  | .nmcall o => !(i.on o.g).isEmpty && d.callHeld i
  | _ => false

/-- R103: a flag that the word would raise stands at 63. -/
def Issuer.flagStops (i : Issuer) (ins : Instr) : Bool :=
  (ins.longA && i.grp.flagFull i.sp.mask (i.sp.flagFor true)) || (ins.longB && i.grp.flagFull i.sp.mask (i.sp.flagFor false))

/-- The starting state of a group that has not left CODE is still to be read (R390). -/
def Issuer.unstarted (i : Issuer) : Bool :=
  !i.grp.loaded && i.grp.handler.isEmpty && (i.grp.splits.all fun x => i.grp.splitPc x == i.grid.launch.code)

/-- The team's groups issue: it runs, or is on the way to its save points (R336). -/
def Team.issues (t : Team) : Bool := t.state matches .running | .saving _

/-- The group stops at its clause boundaries: parked, stopped by a debugger, being saved, or another split of it is in
handler mode (R324, R327, R334, R336). -/
def Issuer.stops (i : Issuer) : Bool :=
  i.grp.parked || i.grp.stop || i.grp.save.isSome || !i.grp.runsHandler i.sp

/-- The split may issue as far as its team and its group go: inside a clause it goes on to the boundary. -/
def Issuer.mayIssue (i : Issuer) : Bool :=
  i.team.issues && !i.unstarted && !(match i.grp.save with | some { hint := some _ } => true | _ => false) &&
    (!i.stops || (i.sp.clause.isSome && i.sp.wait == .ready))

/-- What the split waits for has come (R100); a wait at a word of its own is judged by issuing the word again. -/
def Dev.waitMet (d : Dev) (i : Issuer) : Bool :=
  match i.sp.wait with
  | .ready | .word _ => true
  | .rendezvous .. => i.grp.canMeet
  | .regroup => i.team.regroupReady i.pc
  | .frozen line => d.thawed i.core line
  | .barrier cluster id => d.barrierReady i.team cluster id
  | .records node _ => d.nodeRoom node
  | .object _ _ _ verdict => verdict.isSome
  | .acquire n => d.loadsBack i.ref n
  | .delay _ | .parked | .rerun => false

/-- The words a split has before it: the next word of its clause, or the header at its pc when the core holds it; a
word that is not one of R85 is the ILLOP it raises (R89). -/
def Dev.nextWord? (d : Dev) (i : Issuer) : Option Instr :=
  match i.sp.clause with
  | some c => match c.words with
    | w :: rest => some (match decode ⟨i.lc, rest.isEmpty, c.setA == 15 && c.setB == 15⟩ w with
      | .ok x => x
      | .error e => .illop e)
    | [] => none
  | none => (d.heldWord? i i.pc.toNat).map fun w => match decodeStart w with
    | .ok h => .clauseIssue h
    | .error e => .illop e

/-- The header does something: it reconverges, takes an asynchronous cause, or its waits are met (R75, R96, R327). -/
def Issuer.headerReady (i : Issuer) : Instr → Bool
  | .clauseIssue h => i.grp.mustReconverge i.sp || i.takesAsync || i.grp.waitsMet i.sp.mask h.wait
  | _ => true

/-- No region begins before the header: it only reconverges or takes an asynchronous cause, or has RGNE set, so that
the region begins at its clause's first instruction (R76, R96, R327). -/
def Issuer.onlyTurns (i : Issuer) : Instr → Bool
  | .clauseIssue h => h.rgne || i.grp.mustReconverge i.sp || i.takesAsync
  | _ => false

/-- A split that waited and waits no longer. -/
def Split.wakes (sp : Split) : Split :=
  match sp.wait with
  | .frozen _ | .acquire _ => { sp with wait := .ready }
  | _ => sp

/-- Every other split of the sextant has been passed over once (R101). -/
def Dev.unyield (d : Dev) (i : Issuer) : Dev :=
  { d with teams := d.teams.map fun t =>
      if t.core = i.core then
        { t with groups := t.groups.map fun g =>
            if g.sextant = i.grp.sextant then
              { g with splits := g.splits.map fun x =>
                  if t.inst = i.ref.team ∧ g.num = i.ref.group ∧ x.stamp = i.sp.stamp then x else { x with yielded := false } }
            else g }
      else t }

/-- A port has taken the split. -/
def Dev.portChose (d : Dev) (i : Issuer) (opens : Bool) : Dev :=
  { d with passed := 0, chose := (i.splitRef, i.core, i.grp.sextant) :: if opens then [] else d.chose }

/-- The device as a word of the split finds it: the split issues, and its region has begun where one begins. -/
def Dev.present (d : Dev) (i : Issuer) (ins : Instr) : Dev :=
  let d := d.modGroup i.ref fun g =>
    let g := g.modSplit i.sp.stamp Split.wakes
    if i.onlyTurns ins then g else g.enterRegion i.sp.stamp
  { d.unyield i with cur := some i.splitRef }

/-- The word issues. -/
def State.issue (s : State) (i : Issuer) (ins : Instr) : Res := exec ins { s with dev := s.dev.present i ins }

/-- Issuing the word again would leave the split waiting at it (R100). -/
def State.stillWaits (s : State) (i : Issuer) (ins : Instr) : Bool :=
  (i.sp.wait matches .word _) && (match s.issue i ins with
    | .next t => (match t.dev.issuerAt? i.splitRef with
      | some j => (j.sp.wait matches .word _)
      | none => false)
    | _ => true)

/-- The split's next word can issue (R100). -/
def State.ready (s : State) (i : Issuer) (ins : Instr) : Bool :=
  i.mayIssue && s.dev.waitMet i && i.headerReady ins && !(i.sp.release.isSome && Instr.afterRel ins) &&
    !(Instr.hands ins && (s.dev.relOpen i Scope.wide || s.dev.operandsOpen i)) &&
    !(Instr.acquires ins && s.dev.relOpen i fun _ => true) && !i.flagStops ins && !s.dev.unitFull i ins && !s.stillWaits i ins

/-! ## The issue ports (R20, R101) -/

/-- Every split of the device, as it would issue. -/
def Dev.issuers (d : Dev) : List Issuer :=
  d.teams.flatMap fun t => t.groups.flatMap fun g => g.splits.filterMap fun sp => d.issuerAt? ⟨t.inst, g.num, sp.stamp⟩

/-- The keys of R101, in order, but for the stamp. -/
def Issuer.keys (i : Issuer) : List Nat := [if i.sp.yielded then 1 else 0, i.grp.urg.toNat, i.team.placed, i.grp.num]

def keysLe : List Nat → List Nat → Bool
  | a :: as, b :: bs => decide (a < b) || (a == b && keysLe as bs)
  | _, _ => true

/-- A port chooses `a` before `b` (R101). -/
def Issuer.first (a b : Issuer) : Bool := if a.keys = b.keys then !stampOlder b.sp.stamp a.sp.stamp else keysLe a.keys b.keys

/-- The ready splits with their words. -/
def State.readySplits (s : State) : List (Issuer × Instr) :=
  s.dev.issuers.filterMap fun i => (s.dev.nextWord? i).bind fun ins => if s.ready i ins then some (i, ins) else none

/-- The sextant of a split. -/
def Issuer.port (i : Issuer) : Nat × Nat := (i.core, i.grp.sextant)

/-- The split that a sextant's next port would take: port 0 has the first choice in each round, port 1 the second, and
never the split that port 0 took (R101). -/
def portTakes (xs : List (Issuer × Instr)) (chose : List (SplitRef × Nat × Nat)) (p : Nat × Nat) : Option (Issuer × Instr) :=
  let done := chose.filter (·.2 == p)
  if 2 ≤ done.length then none
  else ((xs.filter fun x => x.1.port == p && !(done.any fun c => c.1 == x.1.splitRef)).isort fun a b => a.1.first b.1).head?

/-- What the ports of every sextant choose now. -/
def portMoves (xs : List (Issuer × Instr)) (chose : List (SplitRef × Nat × Nat)) (opens : Bool) : List Move :=
  ((xs.map (·.1.port)).eraseDups.filterMap (portTakes xs chose)).map fun x => .word x.1.splitRef x.2 opens

/-- The splits that the ports choose: those of ports that have not chosen in this round, or, when all have, of a new one. -/
def State.wordMoves (s : State) : List Move :=
  let xs := s.readySplits
  match portMoves xs s.dev.chose false with
  | [] => portMoves xs [] true
  | ms => ms

/-- A split stands ready at a header (R99, R100). -/
def Dev.atHeader? (d : Dev) (i : Issuer) : Option Header :=
  match d.nextWord? i with
  | some (.clauseIssue h) => if i.mayIssue && i.grp.mergeable h i.sp then some h else none
  | _ => none

/-- Two splits of one group that stand ready at one header. -/
def Dev.canMerge (d : Dev) (a b : Issuer) : Bool :=
  a.ref == b.ref && a.sp.stamp != b.sp.stamp && a.pc == b.pc && (d.atHeader? a).isSome && (d.atHeader? b).isSome

def Dev.mergeMoves (d : Dev) : List Move :=
  d.issuers.flatMap fun a => (d.issuers.filter fun b => d.canMerge a b && decide (a.sp.leader < b.sp.leader)).map fun b =>
    .merge a.splitRef b.splitRef

/-! ## What a group does beside its words -/

/-- A split at a header that its core does not hold (R69). -/
def Dev.mustFetch (d : Dev) (i : Issuer) : Bool :=
  i.sp.clause.isNone && i.mayIssue && (d.heldWord? i i.pc.toNat).isNone && match i.sp.wait with
    | .ready => true
    | .frozen line => d.thawed i.core line
    | .acquire n => d.loadsBack i.ref n
    | _ => false

def Dev.fetchHeader (d : Dev) (i : Issuer) : Dev :=
  let d := d.modGroup i.ref (·.modSplit i.sp.stamp Split.wakes)
  match d.issuerAt? i.splitRef with
  | some i => let (d, f) := d.fetch i i.pc.toNat 8; d.fetchStop i f
  | none => d

/-- The region may be re-executed: its slices' long-latency results are written (R323). -/
def Issuer.mayRerun (i : Issuer) : Bool :=
  i.sp.wait == .rerun && i.team.issues && !i.stops && i.grp.drained i.sp.mask

/-- The release has performed: what it held may leave the core (R246). -/
def Dev.releaseSplit (d : Dev) (i : Issuer) : Dev :=
  let mine : Req → Bool := fun r => r.by_ == i.ref && r.held && r.mask &&& i.sp.mask != 0
  let held := d.reqs.filter mine
  let d := { d with reqs := d.reqs.map fun r => if mine r then { r with held := false } else r }
  d.modGroup i.ref fun g => held.foldl Group.notePost (g.modSplit i.sp.stamp fun x => { x with release := none })

/-- A release of the split may perform. -/
def Dev.mayRelease (d : Dev) (i : Issuer) : Bool :=
  match i.sp.release with
  | some (n, sc) => i.team.state != .saved && d.releaseDone i.ref i.grp n sc
  | none => false

/-- The group's starting state is to be read again (R390). -/
def Issuer.mayLoad (i : Issuer) : Bool :=
  i.team.issues && i.unstarted && !i.grp.parked && !i.grp.stop && i.sp.wait == .ready

/-! ## Running a move -/

def ofOption (s : State) : Option Dev → Res
  | some d => .next { s with dev := d }
  | none => .refused .notPending

/-- What comes from outside, or by an event that no rule times (log 3). -/
def Instr.outside : Instr → Bool
  | .kick .. | .hostSnoop _ | .hostMemRead .. | .hostMemWrite .. | .cteBlockReceive .. | .cteAck .. | .parzonFlit ..
  | .linkTraining .. | .ethernetFrame .. | .mailboxWriteWhileBusy .. | .stsRead _ | .evtClear .. | .registerWrite ..
  | .functionLevelReset _ | .spdmGetVersion | .spdmGetCapabilities | .spdmNegotiateAlgorithms | .spdmGetDigests
  | .spdmGetCertificate .. | .spdmChallenge _ | .spdmGetMeasurements _ | .spdmKeyExchange _ | .spdmFinish _ | .spdmEndSession
  | .boot _ | .fatalError .. | .clockThrottle | .clockRaise | .patrolScrub _ | .powerLoss | .ideKmMessage .. | .msixUnmask .. => true
  | _ => false

/-- The oldest thing asked from outside happens; what stands for nothing is dropped (log 3). -/
def State.takeOutside (s : State) : Res :=
  match s.inbox with
  | [] => .refused .notPending
  | i :: rest =>
    let s := { s with inbox := rest }
    if Instr.outside i then (match exec i s with
      | .next t => .next t
      | _ => .next s)
    else .next s

/-- Lute takes up the command a function has issued (R367). -/
def State.command (s : State) (p : Partition) : Res :=
  let op := p.argN 0 % 256
  match p.box.opc.toNat, op with
  | 0x01, _ => execLoadModule p.pid s
  | 0x02, _ => execSetRoot p.pid s
  | 0x03, _ => execInvalidate p.pid s
  | 0x04, _ => execCreateQueue p.pid s
  | 0x05, _ => execDestroyQueue p.pid s
  | 0x06, _ => execResumeQueue p.pid s
  | 0x07, _ => execCreateNode p.pid s
  | 0x08, _ => execDestroyNode p.pid s
  | 0x09, _ => execRegisterChain p.pid s
  | 0x0A, _ => execResumeChain p.pid s
  | 0x0B, _ => execDropChain p.pid s
  | 0x0C, _ => execFaultCfg p.pid s
  | 0x0D, _ => execFaultRead p.pid s
  | 0x0E, _ => execReplayAll p.pid s
  | 0x0F, 1 => execDebugAttach p.pid s
  | 0x0F, 2 => execDebugDetach p.pid s
  | 0x0F, 3 => execDebugStop p.pid s
  | 0x0F, 4 => execDebugRead p.pid s
  | 0x0F, 5 => execDebugWrite p.pid s
  | 0x10, _ => execCteWindow p.pid s
  | 0x11, _ => execCteEndpoint p.pid s
  | 0x20, _ => execPartSet p.pid s
  | 0x21, _ => execPartReset p.pid s
  | 0x22, _ => execPeerSet p.pid s
  | 0x23, _ => execPortMode p.pid s
  | 0x24, _ => execFecfg p.pid s
  | 0x25, 1 => execWriteSlot p.pid s
  | 0x25, 2 => execBootOnce p.pid s
  | 0x25, 3 => execCommit p.pid s
  | 0x25, 4 => execZreload p.pid s
  | 0x26, 1 => execDumpRead p.pid s
  | 0x26, 2 => execDumpClear p.pid s
  | 0x26, 3 => execDumpConfig p.pid s
  | _, _ => execUnknownCommand p.pid s

def run (m : Move) (s : State) : Res :=
  let d := s.dev
  match m with
  | .outside => s.takeOutside
  | .event i => exec i s
  | .word r ins opens => match d.issuerAt? r with
    | some i => ({ s with dev := d.portChose i opens } : State).issue i ins
    | none => .refused .notPending
  | .merge a b => match d.issuerAt? a, d.issuerAt? b with
    | some i, some j => if d.canMerge i j then .next { s with dev := d.modGroup i.ref fun g => g.mergeTwo i.sp j.sp }
      else .refused .notPending
    | _, _ => .refused .notPending
  | .fetch r => ofOption s ((d.issuerAt? r).map d.fetchHeader)
  | .rerun r => ofOption s ((d.issuerAt? r).map fun i => d.modGroup i.ref fun _ => i.grp.restore i.sp)
  | .released r => ofOption s ((d.issuerAt? r).map d.releaseSplit)
  | .load r => .next { s with dev := d.loadGroup r }
  | .arrive id => ofOption s ((d.req? id).bind d.arrive)
  | .takeBack id => ofOption s ((d.req? id).bind d.takeBack)
  | .sample id => ofOption s (d.sampleMat id)
  | .fetchB id => ofOption s (d.fetchStep id)
  | .zither id => ofOption s (d.zitherStep id)
  | .bag id => ofOption s (d.bagStep id)
  | .chunk id => ofOption s (((d.copy? id).filter d.copyMoves).map d.moveChunk)
  | .chainWrite key => ofOption s (((d.chain? key).filter (·.writes d)).map d.chainWrite)
  | .takeJob key => ofOption s (((d.chain? key).filter fun c => c.eng == 2 && c.takes).map d.takeJob)
  | .status q => ofOption s (d.writeStatus q)
  | .finish q seq => ofOption s ((d.queue? q).bind fun q => ((q.taken.find? (·.seq == seq)).filter (d.finishes q)).map (d.finishPacket q))
  | .endGraph id => ofOption s (((d.graph? id).filter (·.ends)).map d.endGraph)
  | .feed g n => .next { s with dev := d.feedNode g n }
  | .context num => ofOption s (((d.ctx? num).filter fun _ => !(d.die (num / 64)).reload).bind d.ctxStep)
  | .readBlock c e b => ofOption s ((d.block? c e b).bind d.readBlock)
  | .land a => ofOption s (d.land a)
  | .denseEnds id => ofOption s ((d.dense.find? (·.id == id)).bind d.denseEnds)
  | .nodeEnds id => ofOption s ((d.node? id).bind d.nodeEnds)
  | .answer pid => match (d.part pid).box.wait with
    | some w => if d.waitOver w then .next { s with dev := d.answerWait pid w } else .refused .notPending
    | none => .refused .notPending
  | .command pid => if (d.part pid).box.busy && (d.part pid).box.wait.isNone then s.command (d.part pid)
    else .refused .notPending
  | .reset pid => ofOption s ((d.part pid).resetting.bind (d.resetStep pid))
  | .resetPf => if d.pfResets then .next { s with dev := d.resetPf } else .refused .notPending
  | .firmware pid => match (d.part pid).box.wait.bind (s.fwStep pid) with
    | some s => .next s
    | none => .refused .notPending
  | .dump => if s.fw.dump.writing then .next s.dumpDone else .refused .notPending
  | .skip k => match (d.die k).round with
    | q :: _ => if ((d.queue? q).bind (·.turnType)).isNone then
        .next { s with dev := d.modDie k fun x => { x with round := x.round.tail } } else .refused .notPending
    | [] => .refused .notPending

/-- The move can be taken now. -/
def runs (m : Move) (s : State) : Bool := run m s matches .next _

/-! ## Which moves stand for pending work -/

def Dev.splitMoves (d : Dev) : List Move :=
  d.issuers.flatMap fun i =>
    (if d.mustFetch i then [.fetch i.splitRef] else []) ++ (if i.mayRerun then [.rerun i.splitRef] else []) ++
    (if d.mayRelease i then [.released i.splitRef] else []) ++ (if i.mayLoad then [.load i.ref] else []) ++
    (match i.sp.wait with
      | .delay _ => [.event (.delayExpiry i.splitRef)]
      | .rendezvous (some _) _ => [.event (.jointTimeout i.splitRef)]
      | _ => [])

def Dev.groupMoves (d : Dev) : List Move :=
  d.teams.flatMap fun t => t.groups.flatMap fun g =>
    let r : GroupRef := ⟨t.inst, g.num⟩
    (g.owed.map fun o => .event (.longLatencyWriteback o.id)) ++ (g.markers.map fun m => .event (.flushMarker r m.place)) ++
    (if g.settle.isSome then [.event (.settleDeadline r)] else []) ++
    (match t.state with | .saving _ => [.event (.phintWindowExpiry r)] | _ => [])

/-- The cores that may answer a load from their L1 (R176). -/
def Dev.probes (d : Dev) (r : Req) : List Move :=
  if r.kind = .load ∧ r.alloc ∧ !r.acq ∧ r.seat = .way then
    d.cores.filterMap fun (c, _) =>
      if c ≠ r.core ∧ c / 128 = r.core / 128 ∧ (d.peerCopy? r c).isSome then some (.event (.peerProbe r.id c)) else none
  else []

def Dev.requestMoves (d : Dev) : List Move :=
  d.reqs.flatMap fun r =>
    (if r.done then [.event (.storeAnswer r.id)]
     else if r.target.isSome then [.event (.scratchpadRemoteAccess r.id)]
     else [.event (.homeAccess r.id)] ++ d.probes r ++ (match r.seat with
       | .way => if r.local_ then [.arrive r.id] else []
       | .spill _ => [.takeBack r.id]
       | .table _ => [])) ++
    (match r.watch with
      | 1 => [.event (.watchDrop r.id)]
      | 2 => [.event (.waitaWake r.id)]
      | _ => [])

def Dev.memoryMoves (d : Dev) : List Move :=
  d.requestMoves ++ (d.homes.filterMap fun (l, h) => if h.leased then some (.event (.leaseExpiry l)) else none) ++
  (d.cores.flatMap fun (k, c) => c.fills.map fun f => .event (.icacheFill k f.1)) ++
  (d.dies.zipIdx.filterMap fun (x, k) => if x.walks.isEmpty then none else some (.event (.pageWalk k)))

def Dev.unitMoves (d : Dev) : List Move :=
  (d.copies.flatMap fun c => [.chunk c.id, .event (.copyComplete c.id)]) ++
  (d.mats.flatMap fun m => [.event (.matrixOpComplete m.id), .sample m.id] ++ (if m.hostB?.isSome then [.fetchB m.id, .event (.mmahFetch m.id)] else [])) ++
  (d.rounds.flatMap fun r => .event (.roundCloseAck r.id) ::
    r.calls.flatMap fun c => [.event (.zitherCallStart c.id), .zither c.id, .event (.zitherCallEnd c.id)]) ++
  (d.embags.flatMap fun e => [.bag e.id, .event (.embagComplete e.id)]) ++ d.arrivals.map fun a => .event (.barrierArrival a.id)

/-- The packet at its turn, by type (R47). -/
def packetInstr (q : Nat) : Nat → List Move
  | 0 => [.event (.nopPacket q)]
  | 1 => [.event (.abort q)]
  | 2 => [.event (.resetQueue q)]
  | 3 => [.event (.fencePacket q)]
  | 4 => [.event (.waitPacket q)]
  | 5 => [.event (.signal q)]
  | 6 => [.event (.graph q)]
  | 7 => [.event (.launch q)]
  | 8 => [.event (.nodeRecord q)]
  | 9 => [.event (.chainPacket q)]
  | _ => []

def Dev.queueMoves (d : Dev) : List Move :=
  (d.dies.zipIdx.flatMap fun (x, k) => match x.round with
    | q :: _ => match (d.queue? q).bind (·.turnType) with
      | some t => packetInstr q t
      | none => [.skip k]
    | [] => if d.queues.isEmpty then [] else [.event (.theorboRound k)]) ++
  (d.queues.flatMap fun q => (if q.posts.isEmpty then [] else [.status q.num]) ++ (q.taken.map fun p => .finish q.num p.seq) ++
    (if q.taken.isEmpty then [] else [.event (.waitTimeout q.num)]) ++ (if q.since.isSome then [.event (.ageingTick q.num)] else [])) ++
  (d.graphs.flatMap fun g => .endGraph g.id :: g.nodes.zipIdx.flatMap fun (x, n) =>
    (if x.ready then [.event (.graphNodeStart g.id n)] else []) ++
    (if x.state == .running && x.kind == 1 && (match x.data with
        | [] => true
        | _ => d.nodeRoom (bits (x.word 1) 0 16)) then [.feed g.id n] else [])) ++
  (d.nodes.flatMap fun n => [.event (.nodeTimerLapse n.id)] ++ (if n.destroyed then [.nodeEnds n.id] else []))

/-- The ramp of a die has something to do (R56). -/
def Dev.ramping (d : Dev) (k : Nat) : Bool :=
  (d.teams.any fun t => t.core / 128 == k && decide (0 < t.toStart)) || d.cores.any fun (c, x) => c / 128 == k && !x.stepping.isEmpty

def Dev.teamMoves (d : Dev) : List Move :=
  (if d.pending.isEmpty then [] else [.event .dispatch]) ++
  ((List.range 4).filterMap fun k => if d.ramping k then some (.event (.rampWindow k)) else none) ++
  (d.teams.flatMap fun t => match t.state with
    | .placed 0 => [.event (.teamRestore t.inst)]
    | .placed _ => [.event (.teamStart t.inst)]
    | .saving _ => [.event (.teamSave t.inst), .event (.retire t.inst)]
    | .running | .retiring _ => [.event (.retire t.inst)]
    | .saved => []) ++
  (d.cores.flatMap fun (c, x) => if x.gated then [.event (.coreWake c)] else if 160000 ≤ d.cycle then [.event (.powerGate c)] else [])

def Dev.engineMoves (d : Dev) : List Move :=
  (d.chains.flatMap fun c => .chainWrite c.key :: match c.eng with
    | 1 => [.event (.blockTransfer c.key)]
    | 2 => [.takeJob c.key]
    | 3 => [.event (.galliardStart c.key), .event (.galliardStop c.key)]
    | _ => [.event (.cteSend c.key)]) ++
  (d.ctxs.flatMap fun c => [.context c.num, .event (.galliardAttempt c.num), .event (.citternGmres c.num)] ++
    c.recs.map fun r => .event (.recordRetire c.num r.idx)) ++
  (d.dense.flatMap fun r => [.event (.denseServe r.ctx), .denseEnds r.id]) ++
  (d.jobs.map fun j => .event (match j.op with | 1 => .citternFact j.id | 2 => .citternSolve j.id | _ => .citternFsolve j.id)) ++
  (d.blocks.flatMap fun b => .readBlock b.chain b.entry b.block ::
    b.grams.map fun g => .event (.cteResend b.chain b.entry ⟨b.block, g.off⟩)) ++ d.arrived.map .land

/-- What Lute does: commands, resets, firmware and the dump. -/
def State.luteMoves (s : State) : List Move :=
  (s.dev.parts.flatMap fun p =>
    (if p.box.busy then (match p.box.wait with
      | none => [.command p.pid]
      | some (.writeSlot ..) | some (.commit _) | some .reload => [.firmware p.pid]
      | some _ => [.answer p.pid]) else []) ++
    (if p.resetting.isSome then [.reset p.pid] else [])) ++
  (if s.dev.pfReset then [.resetPf] else []) ++ (if s.fw.dump.writing then [.dump] else [])

/-- What stands in the inbox waits until the host's last access has completed (R255, R257). -/
def State.outsideMoves (s : State) : List Move :=
  if s.inbox.isEmpty || decide (s.dev.cycle < s.dev.hostTill) then [] else [.outside]

/-- Everything but the words of splits that may be pending; a fatal error leaves Lute alone to act (R385). -/
def State.candidates (s : State) : List Move :=
  s.outsideMoves ++ s.luteMoves ++
  (if s.dev.frozen then [] else
    s.dev.mergeMoves ++ s.dev.splitMoves ++ s.dev.groupMoves ++ s.dev.memoryMoves ++ s.dev.unitMoves ++ s.dev.queueMoves ++ s.dev.teamMoves ++
    s.dev.engineMoves)

/-- The moves the device may take now: a split that a port has chosen waits for no more than `patience` steps (R20). -/
def State.moves (s : State) : List Move :=
  let words := (if s.dev.frozen then [] else s.wordMoves).filter fun m => runs m s
  let others := s.candidates.filter fun m => runs m s
  if words.isEmpty then others
  else if others.isEmpty || decide (Config.patience ≤ s.dev.passed) then words
  else words ++ others

/-! ## Time (R9, R10, R335) -/

/-- `n` cycles pass: resident groups count them, and JOINT's timeouts lapse (R111). -/
def Dev.pass (d : Dev) (n : Nat) : Dev :=
  { d with
    cycle := d.cycle + n, fresh := d.fresh + 1, cur := none
    teams := d.teams.map fun t => if t.issues then
      { t with groups := t.groups.map fun g =>
          (if g.parked then (g.count 1 n).count 6 n else g.count 1 n).lapse (d.cycle + n) } else t }

/-- A step ends: a free number of cycles passes (log 4). -/
def State.pass (s : State) (more : Nat) : State :=
  { s with dev := s.dev.pass (more + (Config.elapse s.dev.fresh ^^^ 1)) }

/-- The move that is taken, of several one that no rule fixes (R10, R175; log 1). -/
def State.pickMove (s : State) : Option Move :=
  match s.moves with
  | [] => none
  | [m] => some m
  | ms => ms[(Config.pick s.dev.fresh + s.dev.fresh) % ms.length]?

/-- The device without power: only a power-on helps. -/
def State.dark (s : State) : Res :=
  match s.inbox with
  | .boot false :: rest => execBoot false { s with inbox := rest }
  | _ => .fault .unpowered

def Move.isWord : Move → Bool
  | .word .. => true
  | _ => false

/-- A split that a port has chosen has been passed over (R20). -/
def State.passedOver (s : State) : State := { s with dev := { s.dev with passed := s.dev.passed + 1 } }

/-- A move, and the time it takes. -/
def State.take (s : State) (m : Move) : Res :=
  match run m s with
  | .next t => .next ((if m.isWord || s.wordMoves.isEmpty then t else t.passedOver).pass 0)
  | .fault f => .fault f
  | .refused r => .refused r

/-! ## Placing an instruction where the next step runs it -/

/-- A launch of one team of one group of 32 lanes and 256 vector registers. -/
def fetchLaunch : Launch :=
  { code := 0x4000, nteam := 1, regu := 64, scr := 1, accu := 1, traph := false, coop := false, clw := 1, clh := 1, nreg8 := 32
    width := 32, ngroup := 1, handler := 0, pbase := 0, psize := 0, narg := 0, args := 0, csize := 0, cbase := 0 }

/-- A translation of the page at the launch's code. -/
def fetchLeaf : Leaf :=
  { asid := 0, base := 0x4000, size := 0x4000, pa := 0x4000, key := 0, rp := false, mt := .cacheable, x := true, w := false, r := true }

/-- A group whose one split stands before the word: at a header, or inside a clause whose last word it is, in handler mode
when the word is admitted only there. -/
def fetchGroup (w : Word64) : Group :=
  let g := { Group.start fetchLaunch 0 0 with loaded := true }
  if (fld w 60 4 : BitVec 4) = 15 then g
  else
    let open_ := (decode ⟨⟨256, 32, false⟩, true, false⟩ w).toOption.isSome
    let saved := (List.range 8).map fun k => { slice := k, x := 15, pm := 15, depth := 0, retLen := 0 : HandlerSlice }
    { g with
      handler := if open_ then [] else [saved]
      splits := g.splits.map fun x => { x with region := false, clause := some { setA := 0, setB := 1, words := [w] } } }

def fetchTeam (w : Word64) : Team :=
  { inst := 1, grid := 1, num := 0, core := 0, state := .running, placed := 1, since := 0, groups := [fetchGroup w], scr := []
    tiles := [], lost := 0, locks := [], record := 0, recSize := 0, ranges := [], tilesOut := [], units := List.range 66 }

def fetchGrid : Grid :=
  { id := 1, queue := 0, pid := 0, asid := 0, launch := fetchLaunch, origin := .packet 0 0, rec_ := 0, args := [], left := 1 }

/-- The device with one team at the word; its core holds the word's page and line. -/
def Dev.withWord (d : Dev) (w : Word64) : Dev :=
  { d with
    teams := [fetchTeam w], grids := [fetchGrid], nextId := d.nextId + 2, cur := none, chose := []
    cores := [(0, { Core.empty with tlb := [fetchLeaf], icache := [{ num := 0x80, used := 0, data := w.setWidth 1024 }] })] }

end Sys2Proof.Machine
end

