-- ==== Sys2Proof/Machine/Step.lean ====
section
/-! DEFINITION. One step of the device, and the state in which the next step runs a given word. -/

namespace Sys2Proof.Machine

/-- One step: the device takes one of the moves open to it, and time passes (log 1, log 4); with nothing to do, time
passes; without power it only takes a power-on. -/
def step (s : State) : Host.Outcome State Fault Refusal :=
  if s.fw.on then
    match s.pickMove with
    | none => .next (s.pass 1)
    | some m => s.take m
  else s.dark

/-- `s` with the word where the next step fetches: one resident team whose one split stands at it (log 36). -/
def State.withFetchWord (s : State) (_nbits w : Nat) : State :=
  { s with dev := s.dev.withWord (BitVec.ofNat 64 w), inbox := [] }

end Sys2Proof.Machine
end

