-- ==== Sys2Proof/Safety.lean ====
section
/-! DEFINITION. What claims about runs are stated in: reaching a state, completing, a safe run, and the forms of a state
that steps keep. -/

namespace Sys2Proof.Machine

/-- `t` is reached from `s` by steps that each answered a next state. -/
inductive Reaches (s : State) : State → Prop where
  | refl : Reaches s s
  | more {t u : State} : Reaches s t → step t = .next u → Reaches s u

/-- A safe run: no step from any state it reaches stops with a fault or a refusal. -/
def State.safe (s : State) : Prop := ∀ t, Reaches s t → ∃ u, step t = .next u

/-- The instruction completes from `s`: its effect gives a next state. -/
def Completes (i : Instr) (s : State) : Prop := ∃ t, exec i s = .next t

/-- Memory and the key tags of its lines stand in their canonical form. -/
def Dev.canonical (d : Dev) : Bool := Memory.wf d.mem && fwf (0, 0) d.lineKey

/-- The arithmetic clock stands at one of its rates: it moves in steps of 50 MHz below the 1.6 GHz of R9 (R388). -/
def Fw.clockOk (fw : Fw) : Bool := decide (50 ≤ fw.clock) && decide (fw.clock ≤ 1600) && decide (fw.clock % 50 = 0)

/-- Fuses are only ever blown, and one at a time (R380): `b` may follow `a` in one step. -/
def Fw.fusesFollow (a b : Fw) : Prop := (b.arb = a.arb ∨ b.arb = a.arb + 1) ∧ b.revoked = a.revoked

/-! ## What a word does to its group -/

/-- A group without its registers, predicates and scalars, and without the marks of contested results (R104). -/
def Group.bare (g : Group) : Group :=
  { g with
    v := [], p := []
    slices := g.slices.map fun s => { s with s := [] }
    owed := g.owed.map fun o => { o with items := o.items.map fun it => { it with contested := false } } }

/-- The group after is the group before with these vector registers, predicates and scalars written, and no other;
all else is as `g0` has it. `v lane n`, `p lane n` and `s slice n` are the written values. -/
def Wrote (i : Issuer) (g0 g : Group) (v : Nat → Nat → Option Word32) (p : Nat → Nat → Option Bool)
    (s : Nat → Nat → Option Word64) : Prop :=
  g.bare = g0.bare ∧
  (∀ l, l < 32 → ∀ n, g.vreg l n = (v l n).getD (i.grp.vreg l n)) ∧
  (∀ l, l < 32 → ∀ n, n < 8 → g.pred l n = (p l n).getD (i.grp.pred l n)) ∧
  (∀ k n, g.sreg k n = (s k n).getD (i.grp.sreg k n))

/-- No register of some kind is written. -/
def untouched {α : Type} (_ _ : Nat) : Option α := none

/-- The vector registers that a result `f` writes in lanes `ls`: register `n`, and for a pair `n + 1`; v255 discards. -/
def laneWrites (ls : List Nat) (w64 : Bool) (n : Nat) (f : Nat → Word64) (l m : Nat) : Option Word32 :=
  if l ∈ ls ∧ m ≠ 255 then
    if m = n then some ((f l).setWidth 32)
    else if w64 = true ∧ m = n + 1 then some ((f l).extractLsb' 32 32) else none
  else none

/-- The scalar copies that a result writes: every slice of the split that the group has; s63 discards. -/
def scalarWrites (i : Issuer) (ls : List Nat) (n : Nat) (x : Nat → Word64) (k m : Nat) : Option Word64 :=
  match ls with
  | [] => none
  | l :: _ => if i.sp.mask.getLsbD k ∧ k < i.grp.slices.length ∧ m = n ∧ m ≠ 63 then some (x l) else none

/-- A 32-bit result as a scalar holds it: sign-extended for a signed type, else zero-extended (R122). -/
def asScalar (w64 sgn : Bool) (x : Word64) : Word64 :=
  if w64 = true then x
  else if sgn = true then (x.extractLsb' 0 32).signExtend 64 else (x.extractLsb' 0 32).setWidth 64

/-- The group after a word whose result `f` goes to register `d` under guard `gd` (R122, R123). -/
def WroteReg (i : Issuer) (g0 g : Group) (d : Reg) (w64 sgn : Bool) (gd : Guard) (f : Nat → Word64) : Prop :=
  match d with
  | .v n => Wrote i g0 g (laneWrites (i.on gd) w64 n.toNat f) untouched untouched
  | .s n => Wrote i g0 g untouched untouched (scalarWrites i (i.on gd) n.toNat fun l => asScalar w64 sgn (f l))

/-- The group after a word whose result goes to predicate `pd`; p7 discards. -/
def WrotePred (i : Issuer) (g0 g : Group) (pd : BitVec 3) (gd : Guard) (f : Nat → Bool) : Prop :=
  Wrote i g0 g untouched (fun l n => if l ∈ i.on gd ∧ n = pd.toNat ∧ n ≠ 7 then some (f l) else none) untouched

/-- `exec` answers a next state in which only the issuing group has changed, and it is as `P` says. -/
def MakesGroup (ins : Instr) (s : State) (i : Issuer) (P : Group → Prop) : Prop :=
  ∃ g, P g ∧ exec ins s = .next { s with dev := s.dev.modGroup i.ref fun _ => g }

/-- An instruction with a register result: where it goes, at which width and sign, its guard, and what each
participant's value satisfies. -/
structure RegResult where
  d   : Reg
  w64 : Bool
  sgn : Bool
  g   : Guard
  val : Nat → Word64 → Prop

/-- Everything a fixed-latency word with a register result does. -/
def GivesReg (ins : Instr) (s : State) (i : Issuer) (r : RegResult) : Prop :=
  ∃ f : Nat → Word64, (∀ l ∈ i.on r.g, r.val l (f l)) ∧
    MakesGroup ins s i fun g => WroteReg i (i.grp.advance i.sp false) g r.d r.w64 r.sgn r.g f

/-- Everything a fixed-latency word with a predicate result does. -/
def GivesPred (ins : Instr) (s : State) (i : Issuer) (pd : BitVec 3) (gd : Guard) (val : Nat → Bool → Prop) : Prop :=
  ∃ f : Nat → Bool, (∀ l ∈ i.on gd, val l (f l)) ∧
    MakesGroup ins s i fun g => WrotePred i (i.grp.advance i.sp false) g pd gd f

end Sys2Proof.Machine
end

