-- ==== Sys2Proof/Certificates/Slice0/Obligations.lean ====
section
/-! DEFINITION. The statements for the provers, and the words they are said in. -/

open Sys2Proof Sys2Proof.Machine

namespace Sys2Proof.Machine

/-! ## Words of the statements -/

/-- The state with another device and all else as it was. -/
def State.withDev (s : State) (d : Dev) : State := { s with dev := d }

/-- An operand as an unsigned or signed integer of its width (R124). -/
def intOf (w64 uns : Bool) (x : Word64) : Int :=
  match w64, uns with
  | true, true => x.toNat
  | true, false => x.toInt
  | false, true => (x.extractLsb' 0 32).toNat
  | false, false => (x.extractLsb' 0 32).toInt

/-- The least and greatest values of a type (R124). -/
def TypeRange (w64 uns : Bool) (x : Int) : Prop :=
  match w64, uns with
  | true, true => 0 ≤ x ∧ x < 2 ^ 64
  | true, false => -2 ^ 63 ≤ x ∧ x < 2 ^ 63
  | false, true => 0 ≤ x ∧ x < 2 ^ 32
  | false, false => -2 ^ 31 ≤ x ∧ x < 2 ^ 31

/-- The bits above the width are zero, so that the value is its low half alone. -/
def Narrow (w64 : Bool) (x : Word64) : Prop := w64 = true ∨ x.toNat < 2 ^ 32

/-- `x` is the exact result `e` reduced modulo 2 to its width (R138). -/
def WrapsTo (w64 : Bool) (e : Int) (x : Word64) : Prop :=
  Narrow w64 x ∧ (x.toNat : Int) = e % (if w64 = true then 2 ^ 64 else 2 ^ 32)

/-- `x` is `e` clamped to the type: the value of the type nearest `e` (R138). -/
def ClampsTo (w64 uns : Bool) (e : Int) (x : Word64) : Prop :=
  Narrow w64 x ∧ TypeRange w64 uns (intOf w64 uns x) ∧
  (TypeRange w64 uns e → intOf w64 uns x = e) ∧
  (∀ y, TypeRange w64 uns y → e ≤ y → intOf w64 uns x ≤ y) ∧ (∀ y, TypeRange w64 uns y → y ≤ e → y ≤ intOf w64 uns x)

/-- Under SAT clamped, else wrapped (R138). -/
def IntResult (ty : IntTy) (sat : Bool) (e : Int) (x : Word64) : Prop :=
  if sat = true then ClampsTo ty.w64 ty.uns e x else WrapsTo ty.w64 e x

/-- The operands of class 1 as integers. -/
def Issuer.ival (i : Issuer) (ty : IntTy) (r : Reg) (l : Nat) : Int := intOf ty.w64 ty.uns (i.reg ty.w64 r l)

def Issuer.isrc (i : Issuer) (ty : IntTy) (b : Src) (l : Nat) : Int := intOf ty.w64 ty.uns (i.srcI ty.w64 b l)

/-- Byte `k` of a word, signed or not. -/
def byteInt (uns : Bool) (x : Word32) (k : Nat) : Int :=
  if uns = true then ((x.extractLsb' (8 * k) 8).toNat : Int) else (x.extractLsb' (8 * k) 8).toInt

/-- Bit `j` of the value is `f j` for each bit of the width, and no bit above is set. -/
def BitsAre (w64 : Bool) (f : Nat → Bool) (x : Word64) : Prop :=
  ∀ j, j < 64 → x.getLsbD j = (decide (j < (if w64 = true then 64 else 32)) && f j)

/-- A class 4 operand, negated when asked. -/
def dblSrc (i : Issuer) (b : Src) (neg : Bool) (l : Nat) : Nat := Machine.f64.negIf neg (i.srcD b l).toNat

/-! ## Class 1 -/

/-- R138's table: the exact result of each arithmetic instruction of class 1, in integers. -/
def classOne (i : Issuer) : Instr → Option RegResult
  | .iadd o => bin o fun a b => a + b
  | .isub o => bin o fun a b => a - b
  | .imul o => bin o fun a b => a * b
  | .imulh o => bin o fun a b => (a * b).fdiv (if o.ty.w64 = true then 2 ^ 64 else 2 ^ 32)
  | .imin o => bin o min
  | .imax o => bin o max
  | .iadd3 o => tri o fun a b c => a + b + c
  | .imad o => tri o fun a b c => a * b + c
  | .isad o => tri o fun a b c => ((a - b).natAbs : Int) + c
  | .imadw o => some ⟨o.d, true, !o.ty.uns, o.g, fun l x =>
      WrapsTo true (intOf false o.ty.uns (i.reg false o.a l) * intOf false o.ty.uns (i.reg false o.b l) +
        (i.reg true o.c l).toNat) x⟩
  | .iabs o => some ⟨o.d, o.w64, true, o.g, fun l x => IntResult ⟨o.w64, false⟩ o.sat (i.ival ⟨o.w64, false⟩ o.a l).natAbs x⟩
  | .ineg o => some ⟨o.d, o.w64, true, o.g, fun l x => IntResult ⟨o.w64, false⟩ o.sat (-(i.ival ⟨o.w64, false⟩ o.a l)) x⟩
  | .idot4 o => some ⟨o.d, false, true, o.g, fun l x =>
      let p := fun k => byteInt o.au (i.reg32 o.a l) k * byteInt o.bu (i.reg32 o.b l) k
      IntResult ⟨false, false⟩ o.sat ((i.reg32 o.c l).toInt + (p 0 + p 1 + p 2 + p 3)) x⟩
  | _ => none
where
  bin (o : IntBin) (f : Int → Int → Int) : Option RegResult :=
    some ⟨o.d, o.ty.w64, !o.ty.uns, o.g, fun l x => IntResult o.ty o.sat (f (i.ival o.ty o.a l) (i.isrc o.ty o.b l)) x⟩
  tri (o : IntTri) (f : Int → Int → Int → Int) : Option RegResult :=
    some ⟨o.d, o.ty.w64, !o.ty.uns, o.g, fun l x =>
      IntResult o.ty o.sat (f (i.ival o.ty o.a l) (i.ival o.ty o.b l) (i.ival o.ty o.c l)) x⟩

/-- Moves, selections and addresses: SEL, LEA, MOV, MOVI, and MOVW on a vector register (R140, R141). -/
def moveOne (i : Issuer) : Instr → Option RegResult
  | .sel o => some ⟨o.d, o.b64, false, o.g, fun l x =>
      x = if i.prd l o.pc = true then i.reg o.b64 o.a l else i.reg o.b64 o.b l⟩
  | .lea o => some ⟨o.d, o.ty.w64, !o.ty.uns, o.g, fun l x =>
      WrapsTo o.ty.w64 (i.ival ⟨o.ty.w64, true⟩ o.a l + intOf false o.ty.uns (i.srcI false o.b l) * 2 ^ o.sh.toNat) x⟩
  | .mov o => some ⟨o.d, o.b64, false, o.g, fun l x => x = i.reg o.b64 o.a l⟩
  | .movi d imm g => some ⟨d, false, true, g, fun _ x => x = imm.setWidth 64⟩
  | .movw (.v n) imm g => some ⟨.v (n + 1), false, false, g, fun _ x => x = imm.setWidth 64⟩
  | _ => none

end Sys2Proof.Machine

/-- Class 1 arithmetic (R138, R122, R123): for every well-formed IADD, ISUB, IADD3, IMUL, IMULH, IMAD, IMADW, IMIN,
IMAX, IABS, INEG, ISAD and IDOT4 the word completes; each participant's destination, or the split's scalar copies,
hold the exact integer result wrapped to the width or, under SAT, clamped to the type; nothing else of the group
changes but what its issue moves, and nothing outside the group.

SEL, LEA, MOV, MOVI and MOVW (R140, R141): each completes with its result in its destination and nothing else
changed; MOVW on a vector register writes the register above it, and on a scalar replaces bits [63:32] of every
slice's own copy and keeps its bits [31:0]. -/
def Obligations.ClassOneResults : Prop :=
  (∀ (s : State) (i : Issuer) (ins : Instr) (r : RegResult), s.dev.issuer? = some i → ins.wf i.lc = true →
    classOne i ins = some r → GivesReg ins s i r) ∧
  ((∀ (s : State) (i : Issuer) (ins : Instr) (r : RegResult), s.dev.issuer? = some i → ins.wf i.lc = true →
    moveOne i ins = some r → GivesReg ins s i r) ∧
  (∀ (s : State) (i : Issuer) (n : BitVec 6) (imm : BitVec 32) (gd : Guard), s.dev.issuer? = some i →
    MakesGroup (.movw (.s n) imm gd) s i fun g => Wrote i (i.grp.advance i.sp false) g untouched untouched fun k m =>
      if i.on gd ≠ [] ∧ i.sp.mask.getLsbD k ∧ k < i.grp.slices.length ∧ m = n.toNat ∧ m ≠ 63 then
        some (imm ++ (i.grp.readS i.fresh k m).extractLsb' 0 32) else none))

namespace Sys2Proof.Machine

/-! ## Class 2 -/

/-- R142 and R143, bit by bit. -/
def classTwo (i : Issuer) : Instr → Option RegResult
  | .and o => bin o fun a b => BitsAre o.b64 fun j => a.getLsbD j && b.getLsbD j
  | .or o => bin o fun a b => BitsAre o.b64 fun j => a.getLsbD j || b.getLsbD j
  | .xor o => bin o fun a b => BitsAre o.b64 fun j => a.getLsbD j != b.getLsbD j
  | .shl o => sh o fun w a n => BitsAre o.b64 fun j => decide (n < w) && decide (n ≤ j) && a.getLsbD (j - n)
  | .shr o => sh o fun w a n => BitsAre o.b64 fun j => decide (j + n < w) && a.getLsbD (j + n)
  | .sar o => sh o fun w a n => BitsAre o.b64 fun j => a.getLsbD (if j + n < w then j + n else w - 1)
  | .rot o => sh o fun w a n => BitsAre o.b64 fun j => a.getLsbD ((j + (w - n % w)) % w)
  | .bool3 o => some ⟨o.d, false, false, o.g, fun l => BitsAre false fun j =>
      o.tab.getLsbD ((if (i.reg32 o.a l).getLsbD j = true then 1 else 0) + (if (i.reg32 o.b l).getLsbD j = true then 2 else 0) +
        (if (i.reg32 o.c l).getLsbD j = true then 4 else 0))⟩
  | .funnel o => some ⟨o.d, false, false, o.g, fun l => BitsAre false fun j =>
      let n := min (i.reg32 o.c l).toNat 32
      let p := if o.flag = true then j + 32 - n else j + n
      if p < 32 then (i.reg32 o.a l).getLsbD p else (i.reg32 o.b l).getLsbD (p - 32)⟩
  | .bfe o => some ⟨o.d, o.b64, o.sgn, o.g, fun l => 
      let w := if o.b64 = true then 64 else 32
      let f : Word64 := i.srcI false o.b l
      let pos := (f.extractLsb' 0 8).toNat
      let len := if pos < w then min (f.extractLsb' 8 8).toNat (w - pos) else 0
      BitsAre o.b64 fun j =>
        if j < len then (i.reg o.b64 o.a l).getLsbD (pos + j)
        else o.sgn && decide (0 < len) && (i.reg o.b64 o.a l).getLsbD (pos + len - 1)⟩
  | .bfi o => some ⟨o.d, o.flag, false, o.g, fun l =>
      let w := if o.flag = true then 64 else 32
      let f := i.reg32 o.c l
      let pos := (f.extractLsb' 0 8).toNat
      let len := if pos < w then min (f.extractLsb' 8 8).toNat (w - pos) else 0
      BitsAre o.flag fun j =>
        if pos ≤ j ∧ j < pos + len then (i.reg o.flag o.b l).getLsbD (j - pos) else (i.reg o.flag o.a l).getLsbD j⟩
  | .prmt o => some ⟨o.d, false, false, o.g, fun l => BitsAre false fun j =>
      let sel := ((i.reg32 o.c l).extractLsb' (4 * (j / 8)) 4).toNat
      let src := if sel % 8 < 4 then (i.reg32 o.a l) else (i.reg32 o.b l)
      src.getLsbD (8 * (sel % 4) + (if sel < 8 then j % 8 else 7))⟩
  | .not o => some ⟨o.d, o.b64, false, o.g, fun l x =>
      ∀ j, j < (if o.b64 = true then 64 else 32) → x.getLsbD j = !(i.reg o.b64 o.a l).getLsbD j⟩
  | .brev o => some ⟨o.d, o.b64, false, o.g, fun l => BitsAre o.b64 fun j =>
      (i.reg o.b64 o.a l).getLsbD ((if o.b64 = true then 64 else 32) - 1 - j)⟩
  | .popc o => some ⟨o.d, false, false, o.g, fun l x =>
      x.toNat = ((List.range 64).filter fun j => (i.reg o.b64 o.a l).getLsbD j).length⟩
  | .clz o => some ⟨o.d, false, false, o.g, fun l x =>
      let w := if o.b64 = true then 64 else 32
      x.toNat ≤ w ∧ (∀ j, j < x.toNat → (i.reg o.b64 o.a l).getLsbD (w - 1 - j) = false) ∧
      (x.toNat < w → (i.reg o.b64 o.a l).getLsbD (w - 1 - x.toNat) = true)⟩
  | .ctz o => some ⟨o.d, false, false, o.g, fun l x =>
      let w := if o.b64 = true then 64 else 32
      x.toNat ≤ w ∧ (∀ j, j < x.toNat → (i.reg o.b64 o.a l).getLsbD j = false) ∧
      (x.toNat < w → (i.reg o.b64 o.a l).getLsbD x.toNat = true)⟩
  | _ => none
where
  bin (o : LogBin) (f : Word64 → Word64 → Word64 → Prop) : Option RegResult :=
    some ⟨o.d, o.b64, false, o.g, fun l => f (i.reg o.b64 o.a l) (i.srcI o.b64 o.b l)⟩
  sh (o : LogBin) (f : Nat → Word64 → Nat → Word64 → Prop) : Option RegResult :=
    some ⟨o.d, o.b64, false, o.g, fun l =>
      f (if o.b64 = true then 64 else 32) (i.reg o.b64 o.a l) ((i.srcI false o.b l).extractLsb' 0 32).toNat⟩

/-- The instructions whose result is a predicate (R140, R144, R147, R149). -/
def predOne (i : Issuer) : Instr → Option (BitVec 3 × Guard × (Nat → Bool → Prop))
  | .iset o => some (o.pd, o.g, fun l x =>
      let a := i.ival o.ty o.a l
      let b := i.isrc o.ty o.b l
      (x = true ↔ (match o.cmp.toNat with | 0 => a = b | 1 => a ≠ b | 2 => a < b | 3 => a ≤ b | 4 => a > b | _ => a ≥ b)))
  | .fset o => some (o.pd, o.g, fun l x => x = Machine.f32.compare o.cmp.toNat
      (Machine.f32.operand o.ftz o.na (i.reg32 o.a l).toNat) (Machine.f32.operand o.ftz false (i.srcF o.b l).toNat))
  | .dset o => some (o.pd, o.g, fun l x => x = f64.compare o.cmp.toNat (f64.negIf o.na (i.reg64 o.a l).toNat) (i.srcD o.b l).toNat)
  | .pand o => some (o.pd, o.g, fun l x => x = ((i.prd l o.pa != o.na) && (i.prd l o.pb != o.nb)))
  | .por o => some (o.pd, o.g, fun l x => x = ((i.prd l o.pa != o.na) || (i.prd l o.pb != o.nb)))
  | .pxor o => some (o.pd, o.g, fun l x => x = ((i.prd l o.pa != o.na) != (i.prd l o.pb != o.nb)))
  | .pnot o => some (o.pd, o.g, fun l x => x = !(i.prd l o.pa != o.na))
  | .pmov (.pp na pd pa) g => some (pd, g, fun l x => x = (i.prd l pa != na))
  | _ => none

end Sys2Proof.Machine

/-- Class 2 (R142, R143): every well-formed logic, shift and bit instruction completes, each bit of its result being
the one the rule names, and nothing else changes. A 32-bit result is the register's, or extends into a scalar.

Predicate results (R140, R144, R147, R149): ISET, FSET, DSET, PAND, POR, PXOR, PNOT and PMOV between predicates
complete, write the predicate in each participant (p7 discards) and change nothing else; PMOV to a register packs p0
to p6 and a true p7 into bits [7:0], and PMOV from a register sets p0 to p6 from its bits. -/
def Obligations.BitsAndPredicates : Prop :=
  (∀ (s : State) (i : Issuer) (ins : Instr) (r : RegResult), s.dev.issuer? = some i → ins.wf i.lc = true →
    classTwo i ins = some r → GivesReg ins s i r) ∧
  ((∀ (s : State) (i : Issuer) (ins : Instr) (pd : BitVec 3) (gd : Guard) (val : Nat → Bool → Prop),
    s.dev.issuer? = some i → ins.wf i.lc = true → predOne i ins = some (pd, gd, val) → GivesPred ins s i pd gd val) ∧
  (∀ (s : State) (i : Issuer) (vd : BitVec 8) (gd : Guard), s.dev.issuer? = some i →
    GivesReg (.pmov (.toV vd) gd) s i ⟨.v vd, false, false, gd, fun l => BitsAre false fun j =>
      decide (j < 8) && i.grp.readP i.fresh l j⟩) ∧
  (∀ (s : State) (i : Issuer) (va : BitVec 8) (gd : Guard), s.dev.issuer? = some i →
    MakesGroup (.pmov (.fromV va) gd) s i fun g => Wrote i (i.grp.advance i.sp false) g untouched
      (fun l n => if l ∈ i.on gd ∧ n < 7 then some ((i.vec l va).getLsbD n) else none) untouched))

namespace Sys2Proof.Machine

/-! ## Classes 3 to 5 -/

/-- A class 3 result built element by element: each element of the operands after negation and FTZ, `op` on it, and FTZ
on its result (R132, R133, R145). -/
def elements (p : PFmt) (ftz : Bool) (op : Nat → Nat) : Word64 :=
  (buildOf p fun k => (fmtOf p).flush ftz (op k)).setWidth 64

/-- An element of a class 3 operand as a word of its format. -/
def elt (p : PFmt) (ftz neg : Bool) (w : Word32) (k : Nat) : Nat := (fmtOf p).operand ftz neg (elemOf p w k)

/-- Classes 3 and 4, fixed latency: ROUND of the exact result (R131, R146 to R149). -/
def floatOne (i : Issuer) : Instr → Option RegResult
  | .fadd o => bin o fun f a b => f.roundTo o.rnd false ((f.value a).add o.rnd (f.value b))
  | .fmul o => bin o fun f a b => f.roundTo o.rnd false ((f.value a).mul (f.value b))
  | .fmin o => bin o fun f a b => f.minMax false a b
  | .fmax o => bin o fun f a b => f.minMax true a b
  | .ffma o => some ⟨o.d, false, false, o.g, fun l x =>
      let f := fmtOf o.fmt
      let e := fun n r k => f.value (elt o.fmt o.ftz n (i.reg32 r l) k)
      x = elements o.fmt o.ftz fun k => f.roundTo o.rnd false (((e o.na o.a k).mul (e o.nb o.b k)).add o.rnd (e o.nc o.c k))⟩
  | .fclass o => some ⟨o.d, false, false, o.g, fun l x =>
      x = elements o.fmt false fun k => (fmtOf o.fmt).classOf (elt o.fmt o.ftz o.na (i.reg32 o.a l) k)⟩
  | .frnd o => some ⟨o.d, false, false, o.g, fun l x =>
      let f := fmtOf o.fmt
      x = elements o.fmt o.ftz fun k =>
        f.roundTo .rne false ((f.value (elt o.fmt o.ftz o.na (i.reg32 o.a l) k)).integral o.rnd)⟩
  | .fscale o => some ⟨o.d, false, false, o.g, fun l x =>
      x = BitVec.ofNat 64 (Machine.f32.flush o.ftz (scaleWord o.rnd Machine.f32 1024
        (elt .f32 o.ftz o.na (i.reg32 o.a l) 0) (elt .f32 o.ftz false (i.srcF o.b l) 0)))⟩
  | .dadd o => dbl o fun a b => f64.roundTo o.rnd false ((f64.value a).add o.rnd (f64.value b))
  | .dmul o => dbl o fun a b => f64.roundTo o.rnd false ((f64.value a).mul (f64.value b))
  | .dmin o => dbl o fun a b => f64.minMax false a b
  | .dmax o => dbl o fun a b => f64.minMax true a b
  | .dscale o => dbl o fun a b => scaleWord o.rnd f64 4096 a b
  | .dfma o => some ⟨o.d, true, false, o.g, fun l x =>
      let e := fun (n : Bool) (r : Reg) => f64.value (f64.negIf n (i.reg64 r l).toNat)
      x = BitVec.ofNat 64 (f64.roundTo o.rnd false (((e o.na o.a).mul (e o.nb o.b)).add o.rnd (e o.nc o.c)))⟩
  | .dclass o => some ⟨o.d, false, false, o.g, fun l x =>
      x = BitVec.ofNat 64 (f64.classOf (f64.negIf o.na (i.reg64 o.a l).toNat))⟩
  | .dfrnd o => some ⟨o.d, true, false, o.g, fun l x =>
      x = BitVec.ofNat 64 (f64.roundTo .rne false ((f64.value (f64.negIf o.na (i.reg64 o.a l).toNat)).integral o.rnd))⟩
  | _ => none
where
  bin (o : FBin) (op : Fmt → Nat → Nat → Nat) : Option RegResult :=
    some ⟨o.d, false, false, o.g, fun l x =>
      x = elements o.fmt o.ftz fun k =>
        op (fmtOf o.fmt) (elt o.fmt o.ftz o.na (i.reg32 o.a l) k) (elt o.fmt o.ftz o.nb (i.srcF o.b l) k)⟩
  dbl (o : DBin) (op : Nat → Nat → Nat) : Option RegResult :=
    some ⟨o.d, true, false, o.g, fun l x =>
      x = BitVec.ofNat 64 (op (f64.negIf o.na (i.reg64 o.a l).toNat) (dblSrc i o.b o.nb l))⟩

end Sys2Proof.Machine

/-- Classes 3 and 4 (R146 to R149): every well-formed fixed-latency floating-point instruction with a register result
completes with the correctly rounded exact result of its operation, element by element, and changes nothing else. -/
def Obligations.FloatResults : Prop :=
  ∀ (s : State) (i : Issuer) (ins : Instr) (r : RegResult), s.dev.issuer? = some i → ins.wf i.lc = true →
    floatOne i ins = some r → GivesReg ins s i r

namespace Sys2Proof.Machine

/-- A finite word of a format in units of its least subnormal. -/
def Fmt.units (f : Fmt) (w : Nat) : Int :=
  let e := f.mag w / 2 ^ f.fb
  let m := f.mag w % 2 ^ f.fb
  signedInt (f.sgn w) (if e = 0 then m else (m + 2 ^ f.fb) * 2 ^ (e - 1))

/-- (−1)^s × m × 2^e and a finite word, both in units of the lesser of 2^e and the format's least subnormal. -/
def Fmt.common (f : Fmt) (s : Bool) (m : Nat) (e : Int) (w : Nat) : Int × Int :=
  let q : Int := 1 - (f.bias : Int) - f.fb
  let lo := min e q
  (signedInt s m * 2 ^ (e - lo).toNat, f.units w * 2 ^ (q - lo).toNat)

end Sys2Proof.Machine

/-- ROUND (R131): a finite value no greater in magnitude than the format's largest rounds to a finite word of the
format that no other finite word betters: under RD the greatest at most the value, under RU the least at least it,
under RZ whichever of the two is nearer zero, and under RNE one at least as near as every other, its last bit zero
when another word is as near.

A magnitude of at least twice the largest finite one overflows (R131): ROUND gives ± the largest finite value when it
saturates or the mode rounds toward zero on that side, and otherwise the format's infinity, or its NaN where it has none;
E2M1, which has neither, is only ever rounded to with saturation. -/
def Obligations.RoundsCorrectly : Prop :=
  (∀ f ∈ [f16, bf16, Machine.f32, f64, e4m3, e5m2, e2m1], ∀ (r : Rnd) (sat s : Bool) (m : Nat) (e : Int), 0 < m →
    (f.common s m e f.most).1.natAbs ≤ (f.common s m e f.most).2.natAbs →
    let w := f.roundTo r sat (.fin s m e)
    f.mag w ≤ f.most ∧ w < 2 * f.signBit ∧
    ∀ w', w' < 2 * f.signBit → f.mag w' ≤ f.most →
      let x := (f.common s m e w).1
      let y := (f.common s m e w).2
      let z := (f.common s m e w').2
      match r with
      | .rd => y ≤ x ∧ (z ≤ x → z ≤ y)
      | .ru => x ≤ y ∧ (x ≤ z → y ≤ z)
      | .rz => y.natAbs ≤ x.natAbs ∧ (0 ≤ x * y) ∧ (z.natAbs ≤ x.natAbs → 0 ≤ x * z → z.natAbs ≤ y.natAbs)
      | .rne => (x - y).natAbs ≤ (x - z).natAbs ∧ ((x - y).natAbs = (x - z).natAbs → y = z ∨ w % 2 = 0)) ∧
  (∀ f ∈ [f16, bf16, Machine.f32, f64, e4m3, e5m2, e2m1], ∀ (r : Rnd) (sat s : Bool) (m : Nat) (e : Int), 0 < m → (sat = true ∨ f ≠ e2m1) →
    2 * (f.units f.most).natAbs * 2 ^ (1 - (f.bias : Int) - f.fb - min e (1 - (f.bias : Int) - f.fb)).toNat ≤
      m * 2 ^ (e - min e (1 - (f.bias : Int) - f.fb)).toNat →
    f.roundTo r sat (.fin s m e) =
      (if sat = true ∨ r = .rz ∨ (r = .ru ∧ s = true) ∨ (r = .rd ∧ s = false) then f.signed s f.most
       else if f.kind = .ieee then f.signed s f.infWord else f.nan))

/-- The values of E2M1's sixteen codes, in halves (R126). -/
def Obligations.E2M1Codes : Prop :=
  (∀ c, c < 8 → e2m1.units c = [0, 1, 2, 3, 4, 6, 8, 12].getD c 0) ∧
  (∀ c, c < 8 → e2m1.units (c + 8) = -(e2m1.units c)) ∧
  (∀ c, c < 16 → match e2m1.value c with
    | .zero s => e2m1.units c = 0 ∧ s = decide (8 ≤ c)
    | .fin s m e => -1 ≤ e ∧ e2m1.units c = signedInt s m * 2 ^ (e + 1).toNat
    | _ => False)

namespace Sys2Proof.Machine

/-- Class 5 (R150 to R154). -/
def convOne (i : Issuer) : Instr → Option RegResult
  | .cvt o => some ⟨o.d, cvtWide o.dt, typeSigned o.dt.toNat, o.g, fun l x =>
      let v := i.reg (cvtWide o.st) o.a l
      if 8 ≤ o.dt.toNat then
        x = BitVec.ofNat 64 ((floatType o.dt.toNat).roundTo o.rnd false (ofDyadic .rne (readInt o.st.toNat v) 0))
      else
        let exact : Int := if 8 ≤ o.st.toNat then (match readFloat o.st.toNat v with
            | .nan => 0
            | .inf s => if s = true then -2 ^ 70 else 2 ^ 70
            | y => (y.toInt? o.rnd).getD 0)
          else readInt o.st.toNat v
        let bits := (intType o.dt.toNat).1
        let sg := (intType o.dt.toNat).2
        let lo : Int := if sg = true then -2 ^ (bits - 1) else 0
        let hi : Int := if sg = true then 2 ^ (bits - 1) - 1 else 2 ^ bits - 1
        if 8 ≤ o.st.toNat ∨ o.sat = true then x = BitVec.ofInt 64 (max lo (min hi exact))
        else ∃ y : Int, x = BitVec.ofInt 64 y ∧ lo ≤ y ∧ y ≤ hi ∧ (y - exact) % 2 ^ bits = 0⟩
  | .fcvt o => some ⟨o.d, cvtWide o.dt, false, o.g, fun l x =>
      let dt := floatType o.dt.toNat
      let st := floatType o.st.toNat
      x = BitVec.ofNat 64 (dt.roundTo o.rnd (o.sat && !(decide (st.eb ≤ dt.eb) && decide (st.fb ≤ dt.fb)))
        (readFloat o.st.toNat (i.reg (cvtWide o.st) o.a l)))⟩
  | .qpack o => some ⟨.v o.d, false, false, o.g, fun l x =>
      ∀ k, k < qRun o.q → x.toNat / 2 ^ (qBits o.q.toNat * k) % 2 ^ qBits o.q.toNat =
        qElem o.q.toNat o.rnd ((i.reg32 o.b l).toNat % 256)
          (Machine.f32.value (i.grp.readV i.fresh l (o.a.toNat + k)).toNat) % 2 ^ qBits o.q.toNat⟩
  | .qscale o => some ⟨o.d, false, false, o.g, fun l x =>
      x = BitVec.ofNat 64 (match Machine.f32.value (i.reg32 o.a l).toNat with
        | .nan | .inf _ => 255
        | .zero _ => 0
        | .fin _ m e => (max 0 (min 254 ((Nat.log2 m : Int) + e - qEmax o.q.toNat + 127))).toNat)⟩
  | .amax o => some ⟨o.d, false, false, o.g, fun l x =>
      x = BitVec.ofNat 64 (if o.fmt = 8 then amaxStep Machine.f32 (i.reg32 o.b l).toNat (i.reg32 o.a l).toNat
        else amaxStep (floatType o.fmt.toNat)
          (amaxStep (floatType o.fmt.toNat) (i.reg32 o.b l).toNat ((i.reg32 o.a l).toNat % 65536))
          ((i.reg32 o.a l).toNat / 65536))⟩
  | _ => none

end Sys2Proof.Machine

/-- Class 5 (R151 to R154): CVT, FCVT, QPACK, QSCALE and AMAX complete with their result and nothing else changed, and
QUNPK writes one binary32 for each element to consecutive registers of each participant. -/
def Obligations.ConversionResults : Prop :=
  (∀ (s : State) (i : Issuer) (ins : Instr) (r : RegResult), s.dev.issuer? = some i → ins.wf i.lc = true →
    convOne i ins = some r → GivesReg ins s i r) ∧
  (∀ (s : State) (i : Issuer) (o : QOp), s.dev.issuer? = some i → (Instr.qunpk o).wf i.lc = true →
    MakesGroup (.qunpk o) s i fun g => Wrote i (i.grp.advance i.sp false) g
      (fun l n => if l ∈ i.on o.g ∧ o.d.toNat ≤ n ∧ n < o.d.toNat + qRun o.q ∧ n ≠ 255 then
        some (BitVec.ofNat 32 (qUnpack o.q.toNat ((i.reg32 o.b l).toNat % 256)
          ((i.vec l o.a).toNat / 2 ^ (qBits o.q.toNat * (n - o.d.toNat)) % 2 ^ qBits o.q.toNat))) else none)
      untouched untouched)

namespace Sys2Proof.Machine

/-! ## Long-latency lane operations -/

/-- The group's device once an operation has left these results owed: a new operation that no register shows yet. -/
def Dev.owing (d : Dev) (i : Issuer) (items : List OwedItem) : Dev :=
  { d.modGroup i.ref fun _ =>
      (i.grp.advance i.sp false).owe i.sp.mask (i.sp.flagFor false) (i.laneOp d.nextId items) with nextId := d.nextId + 1 }

/-- Everything a long-latency word with a register result does at issue. -/
def OwesReg (ins : Instr) (s : State) (i : Issuer) (r : RegResult) : Prop :=
  ∃ f : Nat → Word64, (∀ l ∈ i.on r.g, r.val l (f l)) ∧
    exec ins s = .next { s with dev := s.dev.owing i (i.owedItems r.d r.w64 r.sgn r.g f) }

/-- The least and greatest quotient and remainder of R139: truncated toward zero, the remainder with A's sign. -/
def DividesTo (a b q r : Int) : Prop :=
  if b = 0 then q = -1 ∧ r = a else a = q * b + r ∧ r.natAbs < b.natAbs ∧ (r = 0 ∨ (r < 0 ↔ a < 0))

/-- The long-latency instructions of classes 1, 3 and 4 whose value the rules fix (R139, R146, R148, R149). -/
def laterOne (i : Issuer) : Instr → Option RegResult
  | .idiv o => some ⟨o.d, o.ty.w64, !o.ty.uns, o.g, fun l x =>
      ∃ q r, DividesTo (i.ival o.ty o.a l) (i.isrc o.ty o.b l) q r ∧ WrapsTo o.ty.w64 q x⟩
  | .irem o => some ⟨o.d, o.ty.w64, !o.ty.uns, o.g, fun l x =>
      ∃ q r, DividesTo (i.ival o.ty o.a l) (i.isrc o.ty o.b l) q r ∧ WrapsTo o.ty.w64 r x⟩
  | .fdiv o => some ⟨o.d, false, false, o.g, fun l x =>
      let f := fmtOf o.fmt
      x = elements o.fmt o.ftz fun k =>
        let q := (f.value (elt o.fmt o.ftz o.na (i.reg32 o.a l) k)).div (f.value (elt o.fmt o.ftz o.nb (i.srcF o.b l) k))
        f.roundTo o.rnd false q.1 q.2⟩
  | .rcp o => un o fun f a => let q := FVal.one.div (f.value a); f.roundTo o.rnd false q.1 q.2
  | .sqrt o => un o fun f a => let q := (f.value a).sqrt; f.roundTo o.rnd false q.1 q.2
  | .ddiv o => some ⟨o.d, true, false, o.g, fun l x =>
      let q := (f64.value (f64.negIf o.na (i.reg64 o.a l).toNat)).div (f64.value (dblSrc i o.b o.nb l))
      x = BitVec.ofNat 64 (f64.roundTo o.rnd false q.1 q.2)⟩
  | .drcp o => dbl o fun a => let q := FVal.one.div (f64.value a); f64.roundTo o.rnd false q.1 q.2
  | .dsqrt o => dbl o fun a => let q := (f64.value a).sqrt; f64.roundTo o.rnd false q.1 q.2
  | _ => none
where
  un (o : FUn) (op : Fmt → Nat → Nat) : Option RegResult :=
    some ⟨o.d, false, false, o.g, fun l x =>
      x = elements o.fmt o.ftz fun k => op (fmtOf o.fmt) (elt o.fmt o.ftz o.na (i.reg32 o.a l) k)⟩
  dbl (o : DUn) (op : Nat → Nat) : Option RegResult :=
    some ⟨o.d, true, false, o.g, fun l x => x = BitVec.ofNat 64 (op (f64.negIf o.na (i.reg64 o.a l).toNat))⟩

/-- A function of binary32 as R148's table bounds it, on a binary32 word. -/
def specialOne : Instr → Option (FUn × (Word32 → Nat → Prop))
  | .rsq o => some (o, fun a y => match Machine.f32.value a.toNat with
      | .nan | .inf true | .fin true _ _ => y = Machine.f32.nan
      | .inf false => y = 0
      | .zero z => y = Machine.f32.signed z Machine.f32.infWord
      | x => y = Machine.f32.roundTo .rd false x.rsqrt.1 x.rsqrt.2 ∨ y = Machine.f32.roundTo .ru false x.rsqrt.1 x.rsqrt.2)
  | .exp2 o => some (o, fun a y => match Machine.f32.value a.toNat with
      | .nan => y = Machine.f32.nan
      | .inf z => y = if z = true then 0 else Machine.f32.infWord
      | .zero _ => y = Machine.f32.roundTo .rne false .one
      | .fin z m e => ∀ n : Nat, n ≤ 400 → (m : Int) * 2 ^ (e + 149).toNat = n * 2 ^ 149 →
          y = Machine.f32.roundTo .rne false (.fin false 1 (signedInt z n)))
  | .log2 o => some (o, fun a y => match Machine.f32.value a.toNat with
      | .nan | .inf true | .fin true _ _ => y = Machine.f32.nan
      | .inf false => y = Machine.f32.infWord
      | .zero _ => y = Machine.f32.signed true Machine.f32.infWord
      | .fin false m e => ∀ k : Nat, m = 2 ^ k → y = Machine.f32.roundTo .rne false (FVal.ofInt (k + e)))
  | .sin o => some (o, fun a y => match Machine.f32.value a.toNat with
      | .nan | .inf _ => y = Machine.f32.nan
      | .zero z => y = Machine.f32.signed z 0
      | .fin _ m e => 2 ^ 15 * 2 ^ 149 < m * 2 ^ (e + 149).toNat → Machine.f32.mag y ≤ Machine.f32.roundTo .rne false .one)
  | .cos o => some (o, fun a y => match Machine.f32.value a.toNat with
      | .nan | .inf _ => y = Machine.f32.nan
      | .zero _ => y = Machine.f32.roundTo .rne false .one
      | .fin _ m e => 2 ^ 15 * 2 ^ 149 < m * 2 ^ (e + 149).toNat → Machine.f32.mag y ≤ Machine.f32.roundTo .rne false .one)
  | .tanh o => some (o, fun a y => match Machine.f32.value a.toNat with
      | .nan => y = Machine.f32.nan
      | .inf z => y = Machine.f32.signed z (Machine.f32.roundTo .rne false .one)
      | .zero z => y = Machine.f32.signed z 0
      | .fin z m e => 16 * 2 ^ 149 ≤ m * 2 ^ (e + 149).toNat → y = Machine.f32.signed z (Machine.f32.roundTo .rne false .one))
  | _ => none

end Sys2Proof.Machine

/-- RSQ, EXP2, LOG2, SIN, COS and TANH (R148): one function of a binary32 word for each instruction, which takes the
table's special values, exact cases and bounds that need no series; each instruction completes, applies it to each
element converted exactly, rounds to the element's format with RNE, and owes the result.

DRSQ (R149): as RSQ on an FP64 pair: the special values, and otherwise one of the two neighbours of 1 ÷ √a. -/
def Obligations.SpecialFunctionResults : Prop :=
  (∀ (ins : Instr) (o : FUn) (P : Word32 → Nat → Prop), specialOne ins = some (o, P) →
    ∃ F : Word32 → Nat, (∀ a, P a (F a)) ∧
      ∀ (s : State) (i : Issuer), s.dev.issuer? = some i →
        OwesReg ins s i ⟨o.d, false, false, o.g, fun l x =>
          let f := fmtOf o.fmt
          x = elements o.fmt o.ftz fun k => f.roundTo .rne false (Machine.f32.value (F (BitVec.ofNat 32
            (Machine.f32.roundTo .rne false (f.value (elt o.fmt o.ftz o.na (i.reg32 o.a l) k))))))⟩) ∧
  (∀ (s : State) (i : Issuer) (o : DUn), s.dev.issuer? = some i →
    OwesReg (.drsq o) s i ⟨o.d, true, false, o.g, fun l x =>
      let v := f64.value (f64.negIf o.na (i.reg64 o.a l).toNat)
      x = BitVec.ofNat 64 (f64.roundTo .rd false v.rsqrt.1 v.rsqrt.2) ∨
        x = BitVec.ofNat 64 (f64.roundTo .ru false v.rsqrt.1 v.rsqrt.2)⟩)

/-- Quotients and square roots before rounding (R133, R148): at least 64 significant bits of the exact value, rounded
down, and a mark that says whether anything was cut off.

IDIV, IREM, FDIV, RCP, SQRT and their FP64 counterparts (R102, R139, R146, R148, R149): each completes, leaves its
exactly computed or correctly rounded results owed to its destination, and changes nothing else.

What a long-latency lane operation does at its issue, and what its writeback does (R74, R102, R103): no register,
predicate or scalar changes at issue and its flag rises by 1 in every slice of the split; once its operation is the
only one owed and no instruction has written its places since, the writeback of a slice stores each of the slice's
values, lowers the flag there by 1, and leaves every other register. -/
def Obligations.LongLatencyOwes : Prop :=
  ((∀ (a b : Bool) (m m' : Nat) (e e' : Int), 0 < m → 0 < m' →
    ∃ n k : Nat, FVal.div (.fin a m e) (.fin b m' e') = (.fin (a != b) n (e - e' - (k : Int)), decide (n * m' ≠ m * 2 ^ k)) ∧
      2 ^ 63 ≤ n ∧ n * m' ≤ m * 2 ^ k ∧ m * 2 ^ k < (n + 1) * m') ∧
  (∀ (m : Nat) (e : Int), 0 < m →
    ∃ (n M : Nat) (h : Int), FVal.sqrt (.fin false m e) = (.fin false n (h - 64), decide (n * n ≠ M * 2 ^ 128)) ∧
      2 ^ 63 ≤ n ∧ n * n ≤ M * 2 ^ 128 ∧ M * 2 ^ 128 < (n + 1) * (n + 1) ∧
      ((M = m ∧ 2 * h = e) ∨ (M = 2 * m ∧ 2 * h = e - 1)))) ∧
  (∀ (s : State) (i : Issuer) (ins : Instr) (r : RegResult), s.dev.issuer? = some i → ins.wf i.lc = true →
    laterOne i ins = some r → OwesReg ins s i r) ∧
  ((∀ (g : Group) (m : BitVec 8) (n : Nat) (o : Owed),
    (∀ l k, (g.owe m n o).vreg l k = g.vreg l k ∧ (g.owe m n o).pred l k = g.pred l k ∧ (g.owe m n o).sreg l k = g.sreg l k) ∧
    (g.owe m n o).owed = g.owed ++ [o] ∧
    ∀ k, k < g.slices.length → ∀ j, ((g.owe m n o).slice k).flag j =
      (g.slice k).flag j + (if m.getLsbD k = true ∧ j = n then 1 else 0)) ∧
  (∀ (s : State) (r : GroupRef) (g : Group) (o : Owed) (op : Nat),
    s.dev.owing? op = some (r, g, o) → o.due ≠ [] → s.dev.group? r = some g →
    (∀ it ∈ o.items, it.contested = false ∧ it.value ≠ none ∧
      (match it.dest with | .v l n => l < 32 ∧ n ≠ 255 | .p l n => l < 32 ∧ n < 7 | .s k n => k < 8 ∧ k < g.slices.length ∧ n ≠ 63)) →
    (o.items.map (·.dest)).Nodup →
    ∃ k g', k ∈ o.due ∧ (∃ d, exec (.longLatencyWriteback op) s = .next { s with dev := d } ∧
        d = s.dev.modGroup r fun _ => g') ∧
      (∀ it ∈ o.items, it.dest.slice = k → match it.dest, it.value with
        | .v l n, some x => g'.vreg l n = x.setWidth 32
        | .p l n, some x => g'.pred l n = x.getLsbD 0
        | .s j n, some x => g'.sreg j n = x
        | _, none => False) ∧
      (∀ l, l < 32 → ∀ n, (∀ it ∈ o.items, it.dest.slice = k → it.dest ≠ .v l n) → g'.vreg l n = g.vreg l n) ∧
      (∀ l, l < 32 → ∀ n, n < 8 → (∀ it ∈ o.items, it.dest.slice = k → it.dest ≠ .p l n) → g'.pred l n = g.pred l n) ∧
      (∀ j n, (∀ it ∈ o.items, it.dest.slice = k → it.dest ≠ .s j n) → g'.sreg j n = g.sreg j n) ∧
      (k < 8 → k < g.slices.length → (g'.slice k).flag o.flag = (g.slice k).flag o.flag - 1) ∧
      (∀ j, j ≠ k → (g'.slice j).cf = (g.slice j).cf)))

namespace Sys2Proof.Machine

/-! ## Issue, paired words and class 6 -/

/-- A slot's result by R84's table, from the old vD and vS. -/
def SlotResult (pop : Nat) (d s : Word32) (imm : BitVec 5) (x : Word32) : Prop :=
  let wraps := fun (e : Int) => WrapsTo false e (x.setWidth 64)
  let bits := fun (f : Nat → Bool) => BitsAre false f (x.setWidth 64)
  let each := fun (p : PFmt) (op : Fmt → Nat → Nat → Nat) =>
    x = buildOf p fun k => op (fmtOf p) (elemOf p d k) (elemOf p s k)
  let sum := fun (f : Fmt) a b => f.roundTo .rne false ((f.value a).add .rne (f.value b))
  let product := fun (f : Fmt) a b => f.roundTo .rne false ((f.value a).mul (f.value b))
  let shift := fun (kind n : Nat) => bits fun j => match kind with
    | 0 => decide (n < 32) && decide (n ≤ j) && d.getLsbD (j - n)
    | 1 => decide (j + n < 32) && d.getLsbD (j + n)
    | 2 => d.getLsbD (if j + n < 32 then j + n else 31)
    | _ => d.getLsbD ((j + (32 - n % 32)) % 32)
  match pop with
  | 0x01 => wraps (d.toInt + s.toInt)
  | 0x02 => wraps (d.toInt - s.toInt)
  | 0x03 => wraps (d.toInt * s.toInt)
  | 0x04 => x.toInt = min d.toInt s.toInt
  | 0x05 => x.toNat = min d.toNat s.toNat
  | 0x06 => x.toInt = max d.toInt s.toInt
  | 0x07 => x.toNat = max d.toNat s.toNat
  | 0x08 => wraps s.toInt.natAbs
  | 0x09 => wraps (-s.toInt)
  | 0x0A => x = s
  | 0x0B => x.toInt = imm.toInt
  | 0x0C => wraps (d.toInt + imm.toInt)
  | 0x10 => bits fun j => d.getLsbD j && s.getLsbD j
  | 0x11 => bits fun j => d.getLsbD j || s.getLsbD j
  | 0x12 => bits fun j => d.getLsbD j != s.getLsbD j
  | 0x13 => bits fun j => !s.getLsbD j
  | 0x14 => shift 0 s.toNat
  | 0x15 => shift 1 s.toNat
  | 0x16 => shift 2 s.toNat
  | 0x17 => shift 3 s.toNat
  | 0x18 => shift 0 imm.toNat
  | 0x19 => shift 1 imm.toNat
  | 0x1A => shift 2 imm.toNat
  | 0x1B => shift 3 imm.toNat
  | 0x1C => x.toNat = ((List.range 32).filter fun j => s.getLsbD j).length
  | 0x1D => x.toNat ≤ 32 ∧ (∀ j, j < x.toNat → s.getLsbD (31 - j) = false) ∧ (x.toNat < 32 → s.getLsbD (31 - x.toNat) = true)
  | 0x1E => x.toNat ≤ 32 ∧ (∀ j, j < x.toNat → s.getLsbD j = false) ∧ (x.toNat < 32 → s.getLsbD x.toNat = true)
  | 0x1F => bits fun j => s.getLsbD (31 - j)
  | 0x20 => each .f32 sum
  | 0x21 => each .f32 product
  | 0x22 => each .f32 fun f => f.minMax false
  | 0x23 => each .f32 fun f => f.minMax true
  | 0x24 => each .f16x2 sum
  | 0x25 => each .f16x2 product
  | 0x26 => each .bf16x2 sum
  | 0x27 => each .bf16x2 product
  | 0x28 => each .f16x2 fun f => f.minMax false
  | 0x29 => each .f16x2 fun f => f.minMax true
  | _ => False

/-- What a slot writes: nothing when it is a NOP slot. -/
def Issuer.slotWrites (i : Issuer) (s : Slot) (f : Nat → Word32) (l n : Nat) : Option Word32 :=
  if s.pop ≠ 0 ∧ l ∈ i.on ⟨s.g, false⟩ ∧ n = s.d.toNat ∧ n ≠ 255 then some (f l) else none

/-- The group with the issuing split at its rendezvous (R98). -/
def Issuer.arrived (i : Issuer) (deadline : Option Nat) : Group :=
  if i.sp.wait.atRendezvous = true then i.grp else i.grp.await i.sp (.rendezvous deadline false)

/-- The issuer for which a rendezvous word performs: the group's only split, or the one into which all splits merge once
each waits at a rendezvous at one address (R98). -/
def Issuer.meetsAs (i : Issuer) (deadline : Option Nat) (i' : Issuer) : Prop :=
  (i.grp.splits = [i.sp] ∧ i' = i) ∨
  (i.grp.splits.length ≠ 1 ∧ (i.arrived deadline).gathered = true ∧
    ∃ sp, ((i.arrived deadline).merge (i.grp.splits.map (·.stamp))).splits = [sp] ∧
      i' = { i with grp := (i.arrived deadline).merge (i.grp.splits.map (·.stamp)), sp })

/-- The issuer for which a lane operation performs: the issuing split, or with `.G` the met one, no RSTACK holding an
entry. -/
def Issuer.performsAs (i : Issuer) (G : Bool) (i' : Issuer) : Prop :=
  if G = true then (∀ x ∈ i.grp.slices, x.rstack = []) ∧ i.meetsAs none i' else i' = i

/-- The results of a lane operation: a register, a predicate, or both. -/
structure LaneResult where
  G    : Bool
  reg  : Option RegResult
  pred : Option (BitVec 3 × Guard × (Nat → Prop))

/-- Everything a lane operation does. -/
def GivesLane (ins : Instr) (s : State) (i i' : Issuer) (r : LaneResult) : Prop :=
  ∃ (f : Nat → Word64) (p : Nat → Bool),
    (∀ x, r.reg = some x → ∀ l ∈ i'.on x.g, x.val l (f l)) ∧
    (∀ x, r.pred = some x → ∀ l ∈ i'.on x.2.1, (p l = true ↔ x.2.2 l)) ∧
    MakesGroup ins s i fun g => Wrote i' (i'.grp.advance i'.sp r.G) g
      (match r.reg with
        | some ⟨.v n, w64, _, gd, _⟩ => laneWrites (i'.on gd) w64 n.toNat f
        | _ => untouched)
      (match r.pred with
        | some (pd, gd, _) => fun l n => if l ∈ i'.on gd ∧ n = pd.toNat ∧ n ≠ 7 then some (p l) else none
        | none => untouched)
      (match r.reg with
        | some ⟨.s n, w64, sgn, gd, _⟩ => scalarWrites i' (i'.on gd) n.toNat fun l => asScalar w64 sgn (f l)
        | _ => untouched)

/-- R118: the value of a reduction over some values in lane order. -/
def Reduces (op : Nat) (ys : List Word32) (x : Word32) : Prop :=
  match op with
  | 0 => x.toNat = (ys.map (·.toNat)).sum % 2 ^ 32
  | 1 => (∀ y ∈ ys, x.toNat ≤ y.toNat) ∧ (x ∈ ys ∨ ys = [] ∧ x = 0xFFFFFFFF)
  | 2 => (∀ y ∈ ys, x.toInt ≤ y.toInt) ∧ (x ∈ ys ∨ ys = [] ∧ x = 0x7FFFFFFF)
  | 3 => (∀ y ∈ ys, y.toNat ≤ x.toNat) ∧ (x ∈ ys ∨ ys = [] ∧ x = 0)
  | 4 => (∀ y ∈ ys, y.toInt ≤ x.toInt) ∧ (x ∈ ys ∨ ys = [] ∧ x = 0x80000000)
  | 5 => ∀ j, j < 32 → x.getLsbD j = ys.all (·.getLsbD j)
  | 6 => ∀ j, j < 32 → x.getLsbD j = ys.any (·.getLsbD j)
  | 7 => ∀ j, j < 32 → x.getLsbD j = ((ys.filter (·.getLsbD j)).length % 2 == 1)
  | 8 => match ys with
    | [] => x = 0
    | y :: t => x = t.foldl (fun a b => BitVec.ofNat 32 (Machine.f32.roundTo .rne false
        ((Machine.f32.value a.toNat).add .rne (Machine.f32.value b.toNat))))
        (if (Machine.f32.value y.toNat).isNan = true then BitVec.ofNat 32 Machine.f32.nan else y)
  | 9 => x = ys.foldl (fun a b => BitVec.ofNat 32 (Machine.f32.minMax false a.toNat b.toNat)) 0x7F800000
  | 10 => x = ys.foldl (fun a b => BitVec.ofNat 32 (Machine.f32.minMax true a.toNat b.toNat)) 0xFF800000
  | _ => False

/-- The lane SHFL reads from (R117). -/
def ShflSource (i : Issuer) (o : ShflOp) (l j : Nat) : Prop :=
  let b := match o.b with
    | .inl r => (i.vec l r).toNat
    | .inr x => x.toNat
  let w := i.grid.launch.width
  j ∈ i.on o.g ∧ j < w ∧ match o.op.toNat with
    | 0 => j = b
    | 1 => j + b = l
    | 2 => j = l + b
    | 3 => j = l ^^^ b
    | 4 => j = (l + b) % w
    | _ => False

/-- The value MATCH compares. -/
def Issuer.matched (i : Issuer) (o : MatchOp) (l : Nat) : Word64 :=
  if o.b64 = true then i.vec64 l o.a else (i.vec l o.a).setWidth 64

/-- R116 to R119: the results of VOTE, BALLOT, ELECT, SHFL, REDUX, SCAN and MATCH. -/
def laneOne (i : Issuer) : Instr → Option LaneResult
  | .vote o => some ⟨o.G, none, some (o.pd, o.g, fun _ =>
      let every := ∀ l ∈ i.on o.g, i.prd l o.pa = true
      let nobody := ∀ l ∈ i.on o.g, i.prd l o.pa = false
      match o.op.toNat with | 0 => every | 1 => ¬nobody | 2 => nobody | _ => every ∨ nobody)⟩
  | .ballot o => some ⟨o.G, some ⟨o.d, false, false, o.g, fun _ => BitsAre false fun j =>
      decide (j ∈ i.on o.g) && i.prd j o.pa⟩, none⟩
  | .elect G pd gd => some ⟨G, none, some (pd, gd, fun l => ∀ m ∈ i.on gd, l ≤ m)⟩
  | .shfl o => some ⟨o.G,
      some ⟨.v o.d, false, false, o.g, fun l x => (∀ j, ShflSource i o l j → x = (i.vec j o.a).setWidth 64) ∧
        ((∀ j, ¬ShflSource i o l j) → x = 0)⟩,
      some (o.pr, o.g, fun l => ∃ j, ShflSource i o l j)⟩
  | .redux o => some ⟨o.G, some ⟨.v o.d, false, false, o.g, fun _ x =>
      Reduces o.op.toNat ((i.on o.g).map fun l => i.vec l o.a) (x.setWidth 32)⟩, none⟩
  | .scan o => some ⟨o.G, some ⟨.v o.d, false, false, o.g, fun l x =>
      Reduces o.op.toNat (((i.on o.g).filter fun m => decide (m < l) || (m == l && !o.exc)).map fun m => i.vec m o.a)
        (x.setWidth 32)⟩, none⟩
  | .match_ o => some ⟨o.G,
      some ⟨.v o.d, false, false, o.g, fun l => BitsAre false fun j =>
        decide (j ∈ i.on o.g) && decide (i.matched o j = i.matched o l)⟩,
      some (o.pr, o.g, fun l => ∀ m ∈ i.on o.g, i.matched o m = i.matched o l)⟩
  | _ => none

end Sys2Proof.Machine

/-- Class 6 (R98, R115 to R119): VOTE, BALLOT, ELECT, SHFL, REDUX, SCAN and MATCH complete over the split, or with `.G`
over the group once every split of it has come, write the rule's results in the participants, and change nothing else;
SHFL with `.G` leaves its results owed. -/
def Obligations.LaneOperations : Prop :=
  (∀ (s : State) (i i' : Issuer) (ins : Instr) (r : LaneResult), s.dev.issuer? = some i → ins.wf i.lc = true →
    laneOne i' ins = some r → (∀ o, ins = .shfl o → o.G = false) → i.performsAs r.G i' → GivesLane ins s i i' r) ∧
  (∀ (s : State) (i i' : Issuer) (o : ShflOp), s.dev.issuer? = some i → (Instr.shfl o).wf i.lc = true → o.G = true →
    i.performsAs true i' →
    ∃ items, exec (.shfl o) s = .next { s with dev := { s.dev.modGroup i.ref fun _ =>
        (i'.grp.advance i'.sp true).owe i'.sp.mask (i'.sp.flagFor false) (i'.laneOp s.dev.nextId items)
          with nextId := s.dev.nextId + 1 } } ∧
      (∀ it ∈ items, it.contested = false ∧ ∃ l ∈ i'.on o.g,
        (it.dest = .v l o.d.toNat ∧ o.d ≠ 255 ∧ ∃ x, it.value = some x ∧
          (∀ j, ShflSource i' o l j → x = (i'.vec j o.a).setWidth 64) ∧ ((∀ j, ¬ShflSource i' o l j) → x = 0)) ∨
        (it.dest = .p l o.pr.toNat ∧ o.pr ≠ 7 ∧ ∃ x, it.value = some x ∧ (x.getLsbD 0 = true ↔ ∃ j, ShflSource i' o l j))) ∧
      ∀ l ∈ i'.on o.g, (o.d ≠ 255 → Dest.v l o.d.toNat ∈ items.map (·.dest)) ∧
        (o.pr ≠ 7 → Dest.p l o.pr.toNat ∈ items.map (·.dest)))

/-- JOIN (R98, R110): with one split, or once every split waits at a rendezvous at one address, the splits are one, that
has the oldest of their stamps and all of their slices, and it goes on past the JOIN; RSTACK and X stay. Before that the
split waits, and nothing else of it changes but that the word has been counted.

JOINT (R111): alone, or with every other split at a rendezvous at one address, it goes on with its predicate true in
every active lane; a timeout of 0 that merges nothing goes on alone with it false. A timeout lapses once its last cycle has
passed without the others, and its split goes on alone with the predicate false (JOINT_TIMEOUT). -/
def Obligations.SplitsJoin : Prop :=
  ((∀ (s : State) (i : Issuer), s.dev.issuer? = some i → i.grp.splits = [i.sp] →
    MakesGroup .join s i fun g => g = i.grp.advance i.sp true) ∧
  (∀ (s : State) (i : Issuer), s.dev.issuer? = some i → 1 < i.grp.splits.length → (i.grp.splits.map (·.stamp)).Nodup →
    (i.arrived none).gathered = true →
    ∃ o, oldest i.grp.splits = some o ∧
      ((∃ base, ∀ x ∈ i.grp.splits, (x.stamp - base).toNat < 32768) →
        ∀ x ∈ i.grp.splits, stampOlder x.stamp o.stamp = false) ∧
      MakesGroup .join s i fun g => g.splits.length = 1 ∧ g.splits.map (·.stamp) = [o.stamp] ∧
        g.splits.map (·.mask) = [i.grp.splits.foldl (fun m x => m ||| x.mask) 0] ∧
        (∀ x ∈ g.splits, x.wait = .ready ∧ x.region = true) ∧ g.v = i.grp.v ∧ g.p = i.grp.p ∧
        ∀ k, k < i.grp.slices.length → (g.slice k).x = (i.grp.slice k).x ∧ (g.slice k).rstack = (i.grp.slice k).rstack ∧
          (g.slice k).s = (i.grp.slice k).s ∧
          (g.slice k).pc = (i.grp.slice k).pc + (if ∃ x ∈ i.grp.splits, x.mask.getLsbD k = true then 8 else 0)) ∧
  (∀ (s : State) (i : Issuer), s.dev.issuer? = some i → 1 < i.grp.splits.length →
    (∃ x ∈ i.grp.splits, x.stamp ≠ i.sp.stamp ∧ x.wait.untimed = false) →
    (i.grp.await i.sp (.rendezvous none false)).gathered = false → i.sp.wait.atRendezvous = false →
    MakesGroup .join s i fun g => g = i.grp.await i.sp (.rendezvous none false))) ∧
  ((∀ (s : State) (i i' : Issuer) (pd : BitVec 3) (t : BitVec 32), s.dev.issuer? = some i →
    i.meetsAs (some (s.dev.cycle + t.toNat)) i' →
    MakesGroup (.joint pd t) s i fun g => Wrote i' (i'.grp.advance i'.sp true) g untouched
      (fun l n => if l ∈ i'.active ∧ n = pd.toNat ∧ n ≠ 7 then some true else none) untouched) ∧
  (∀ (s : State) (i : Issuer) (pd : BitVec 3), s.dev.issuer? = some i → i.grp.splits.length ≠ 1 →
    i.sp.wait.atRendezvous = false → (i.grp.await i.sp (.rendezvous (some s.dev.cycle) false)).gathered = false →
    MakesGroup (.joint pd 0) s i fun g => Wrote i (i.grp.advance i.sp true) g untouched
      (fun l n => if l ∈ i.active ∧ n = pd.toNat ∧ n ≠ 7 then some false else none) untouched) ∧
  (∀ (g : Group) (now t : Nat) (b : Bool) (x : Split), x ∈ g.splits → x.wait = .rendezvous (some t) b →
    g.canMeet = false → ∃ y ∈ (g.lapse now).splits, y.stamp = x.stamp ∧ y.mask = x.mask ∧
      y.wait = .rendezvous (some t) (b || decide (t < now))) ∧
  (∀ (s : State) (r : SplitRef) (i : Issuer) (t : Nat) (c : Clause) (w : Word64) (ws : List Word64),
    s.dev.issuerAt? r = some i → i.sp.wait = .rendezvous (some t) true → i.sp.clause = some c → c.words = w :: ws →
    MakesGroup (.jointTimeout r) s i fun g => Wrote i (i.grp.advance i.sp true) g untouched
      (fun l n => if l ∈ i.active ∧ n = (w.extractLsb' 44 3).toNat ∧ n ≠ 7 then some false else none) untouched))

namespace Sys2Proof.Machine

/-! ## Class 0 and traps -/

/-- The branch an instruction takes: its targets, reconvergence address and calls (R108); none when a register target
is misaligned. -/
def branchOf (i : Issuer) : Instr → Option Branch
  | .bra gd rcv disp => some (i.direct gd disp (i.base + 8 * rcv.setWidth 48) false)
  | .call gd disp => some (i.direct gd disp i.base true)
  | .brx gd rcv t => reg gd t (i.base + 8 * rcv.setWidth 48) false
  | .callx gd t => reg gd t i.base true
  | _ => none
where
  reg (gd : Guard) (t : Reg) (rpc : BitVec 48) (call : Bool) : Option Branch :=
    if ∀ l ∈ i.on gd, (i.reg64 t l).toNat % 8 = 0 then
      some { base := i.base, rpc, npc := fun l => if i.guard gd l = true then (i.reg64 t l).setWidth 48 else i.base
             call := fun l => call && i.guard gd l }
    else none

/-- The group after its slices have branched, before it divides. -/
def Issuer.branched (i : Issuer) (b : Branch) : Group :=
  (i.grp.advance i.sp true).modSlices i.sp.mask fun k s => branchSlice b k { s with pc := i.pc }

/-- The group as a word that moves its slices apart leaves it: the clause has ended and the split divides (R97). -/
def Group.leaves (g : Group) (sp : Split) : Group :=
  (g.modSplit sp.stamp fun x => { x with clause := none }).divide sp.stamp

end Sys2Proof.Machine

/-- A branch in one slice (R95): with no active lane it goes to BASE; lanes that agree go where they agree; otherwise
the lowest address runs in its lanes, each other address stands once on RSTACK, the lowest on top, with its lanes, the
masks as they stood and whether they call, except that the highest merges into a top entry that already waits for it;
entries below stay. A running path that calls pushes BASE.

BRA, BRX, CALL and CALLX (R95, R97, R106, R108): unless some slice would hold more than 8 RSTACK entries, the word
completes once its spills have gone through: every slice has branched, and the split divides by address. Without a
return stack of more than 16 entries nothing spills, and nothing outside the group changes. A stack that would overflow
raises STACKSPILL 0x01 instead, and a misaligned register target MISALIGN, with nothing else changed by the word. -/
def Obligations.BranchesDivide : Prop :=
  (∀ (b : Branch) (k : Nat) (s : Slice),
    let at_ := fun (a : BitVec 48) (q : Nat) => s.x.getLsbD q && decide (b.npc (4 * k + q) = a)
    let calls := fun (a : BitVec 48) => ∃ q, q < 4 ∧ at_ a q = true ∧ b.call (4 * k + q) = true
    let s' := branchSlice b k s
    (s.x = 0 → s' = { s with pc := b.base }) ∧
    (∀ a q, q < 4 → at_ a q = true → (∀ p, p < 4 → s.x.getLsbD p = true → at_ a p = true) →
      s'.pc = a ∧ s'.x = s.x ∧ s'.pm = s.pm ∧ s'.rstack = s.rstack ∧
      (calls a → s'.ret = b.base :: s.ret) ∧ (¬calls a → s'.ret = s.ret)) ∧
    (∀ a q p, q < 4 → p < 4 → at_ a q = true → s.x.getLsbD p = true → at_ a p = false →
      (∀ r, r < 4 → s.x.getLsbD r = true → a.toNat ≤ (b.npc (4 * k + r)).toNat) →
      s'.pc = a ∧ s'.pm = s'.x ∧ (∀ r, r < 4 → s'.x.getLsbD r = at_ a r) ∧
      (calls a → s'.ret = b.base :: s.ret) ∧ (¬calls a → s'.ret = s.ret) ∧
      ∃ news olds : List RsEntry, s'.rstack = news ++ olds ∧ news.Pairwise (fun x y => x.dpc.toNat < y.dpc.toNat) ∧
        (∀ e ∈ news, e.rpc = b.rpc ∧ e.xmask = s.x ∧ e.pmask = s.pm ∧ e.phase = false ∧ e.dmask ≠ 0 ∧ e.dpc ≠ a ∧
          (∀ r, r < 4 → e.dmask.getLsbD r = at_ e.dpc r) ∧ (e.lnk = true ↔ calls e.dpc)) ∧
        (olds = s.rstack ∨ ∃ (top : RsEntry) (below : List RsEntry), s.rstack = top :: below ∧ top.phase = false ∧ top.rpc = b.rpc ∧ top.dpc ≠ a ∧
          ∃ m : BitVec 4, m ≠ 0 ∧ (∀ r, r < 4 → m.getLsbD r = at_ top.dpc r) ∧ olds = { top with dmask := top.dmask ||| m } :: below) ∧
        ∀ r, r < 4 → s.x.getLsbD r = true → at_ a r = false →
          b.npc (4 * k + r) ∈ news.map (·.dpc) ∨ ∃ top, olds.head? = some top ∧ top.dpc = b.npc (4 * k + r) ∧
            top.rpc = b.rpc ∧ top.phase = false ∧ top.dmask.getLsbD r = true)) ∧
  ((∀ (s : State) (i : Issuer) (ins : Instr) (b : Branch) (d : Dev) (g : Group), s.dev.issuer? = some i →
    branchOf i ins = some b → (∀ k ∈ maskSlices i.sp.mask, ((i.branched b).slice k).rstack.length ≤ 8) →
    s.dev.spillOver i (i.branched b) (maskSlices i.sp.mask) = (d, .ok g) →
    exec ins s = .next { s with dev := d.modGroup i.ref fun _ => g.leaves i.sp }) ∧
  (∀ (s : State) (i : Issuer) (ins : Instr) (b : Branch), s.dev.issuer? = some i → branchOf i ins = some b →
    (∀ k ∈ maskSlices i.sp.mask, ((i.branched b).slice k).rstack.length ≤ 8 ∧ ((i.branched b).slice k).ret.length ≤ 16) →
    MakesGroup ins s i fun g => g = (i.branched b).leaves i.sp) ∧
  (∀ (s : State) (i : Issuer) (ins : Instr) (b : Branch), s.dev.issuer? = some i → branchOf i ins = some b →
    (∃ k ∈ maskSlices i.sp.mask, 8 < ((i.branched b).slice k).rstack.length) →
    exec ins s = .next (s.withDev (s.dev.trap i
      { cause := .stackspill, sub := 1, mask := laneMask i.active, src := .instruction, info := 0, pc := i.pc }))) ∧
  (∀ (s : State) (i : Issuer) (gd : Guard) (rcv : BitVec 20) (t : Reg) (l : Nat), s.dev.issuer? = some i →
    l ∈ i.on gd → (i.reg64 t l).toNat % 8 ≠ 0 → (∀ m ∈ i.on gd, m < l → (i.reg64 t m).toNat % 8 = 0) →
    ∃ mask : BitVec 32, (∀ m, m < 32 → mask.getLsbD m = (decide (m ∈ i.on gd) && decide ((i.reg64 t m).toNat % 8 ≠ 0))) ∧
      let u := s.withDev (s.dev.trap i { cause := .misalign, sub := 0, mask, src := .instruction, pc := i.pc
                                         info := ((i.reg64 t l).setWidth 48 : BitVec 48).toNat })
      exec (.brx gd rcv t) s = .next u ∧ exec (.callx gd t) s = .next u))

/-- RET (R107, R109): with no slice whose stack is empty, each slice pops its own link and goes there, and the split
divides; a slice with only spilled entries is filled first; one with none raises RETEMPTY in its lanes.

EXIT (R112): it completes from every state; in each slice of the split the active lanes whose guard is true and the
retired lanes become finished and leave X and PM, the other lanes of a slice that holds no deferred path go on at BASE,
and results owed to the lanes that exit are discarded, while registers and predicates stay. -/
def Obligations.ReturnsAndExits : Prop :=
  ((∀ (s : State) (i : Issuer), s.dev.issuer? = some i → (∀ k ∈ maskSlices i.sp.mask, (i.grp.slice k).ret ≠ []) →
    MakesGroup .ret s i fun g => g = ((i.grp.advance i.sp true).modSlices i.sp.mask fun _ (x : Slice) =>
      { x with pc := x.ret.headD 0, ret := x.ret.tail }).leaves i.sp) ∧
  (∀ (s : State) (i : Issuer) (d : Dev) (g : Group), s.dev.issuer? = some i →
    (∀ k ∈ maskSlices i.sp.mask, (i.grp.slice k).ret ≠ [] ∨ (i.grp.slice k).spill ≠ 0) →
    s.dev.fillRet i (i.grp.advance i.sp true) (maskSlices i.sp.mask) = (d, .ok g) →
    exec .ret s = .next { s with dev := d.modGroup i.ref fun _ => (g.modSlices i.sp.mask fun _ (x : Slice) =>
      { x with pc := x.ret.headD 0, ret := x.ret.tail }).leaves i.sp }) ∧
  (∀ (s : State) (i : Issuer) (k : Nat), s.dev.issuer? = some i → k ∈ maskSlices i.sp.mask →
    (i.grp.slice k).ret = [] → (i.grp.slice k).spill = 0 →
    ∃ m : BitVec 32, (∀ l, l < 32 → m.getLsbD l = (decide (l ∈ i.active) && (i.grp.slice (l / 4)).ret.isEmpty &&
        (i.grp.slice (l / 4)).spill == 0)) ∧
      exec .ret s = .next (s.withDev (s.dev.trap i
        { cause := .retempty, sub := 0, mask := m, src := .instruction, info := 0, pc := i.pc })))) ∧
  (∀ (s : State) (i : Issuer) (gd : Guard), s.dev.issuer? = some i →
    ∃ (d : Dev) (g : Group), exec (.exit gd) s = .next { s with dev := d.modGroup i.ref fun _ => g } ∧ g.v = i.grp.v ∧ g.p = i.grp.p ∧
      (∀ o ∈ g.owed, ∀ it ∈ o.items, match it.dest with | .v l _ | .p l _ => l ∉ i.on gd | .s .. => True) ∧
      (g.owed.map fun o => (o.id, o.flag, o.slices)) = i.grp.owed.map (fun o => (o.id, o.flag, o.slices)) ∧
      (∀ k, k < i.grp.slices.length → i.sp.mask.getLsbD k = true → ∀ q, q < 4 →
        (g.slice k).fin.getLsbD q =
          ((i.grp.slice k).fin.getLsbD q || (i.grp.slice k).rtd.getLsbD q || decide (4 * k + q ∈ i.on gd)) ∧
        (g.slice k).rtd = 0) ∧
      (∀ k, k < i.grp.slices.length → i.sp.mask.getLsbD k = true →
        (i.grp.slice k).rstack = [] → (i.grp.slice k).ret.length ≤ 16 →
        g.slice k = { i.grp.slice k with
          pc := (i.grp.slice k).pc + 8, fin := (g.slice k).fin, rtd := 0
          x := (i.grp.slice k).x &&& ~~~(g.slice k).fin, pm := (i.grp.slice k).pm &&& ~~~(g.slice k).fin }) ∧
      (∀ k, i.sp.mask.getLsbD k = false → g.slice k = i.grp.slice k) ∧
      ((∀ x ∈ i.grp.splits, x.stamp = i.sp.stamp → x.mask = i.sp.mask) →
        (∀ k, i.sp.mask.getLsbD k = true → (g.slice k).fin = 15) → ∀ x ∈ g.splits, x.stamp ≠ i.sp.stamp))

/-- CLAUSE_ISSUE (R69 to R76): at a header with no reconvergence due, no asynchronous cause to raise and its waits met, a
clause whose bytes are all held begins: its words stand in the split in order, its slices past the header, and no
register changes; while a wait is not met the header only waits.

What every issued word moves (R76, R101, R335): each slice of the split stands 8 bytes on, URG rises by 1 unless the
word was counted when it began to wait, the clause loses that word, and registers, predicates, X, PM, stacks, flags,
snapshots, trap registers and owed results stay. NOP does nothing else (R88).

PAIRED_WORD (R83, R84): both slots read the registers as they stood, each writes its own destination under its own
guard, and nothing else changes. -/
def Obligations.ClausesIssue : Prop :=
  ((∀ (s : State) (i : Issuer) (h : Header) (d : Dev) (bs : List Byte), s.dev.issuer? = some i →
    i.grp.mustReconverge i.sp = false → i.takesAsync = false → i.grp.waitsMet i.sp.mask h.wait = true →
    s.dev.fetch i (i.pc.toNat + 8) (8 * h.len.toNat) = (d, .ok bs) →
    ∃ (d' : Dev) (g : Group), exec (.clauseIssue h) s = .next { s with dev := d'.modGroup i.ref fun _ => g } ∧ d'.teams = d.teams ∧ d'.mem = d.mem ∧
      g.v = i.grp.v ∧ g.p = i.grp.p ∧ g.owed = i.grp.owed ∧
      g.urg = (if i.sp.counted = true ∨ i.grp.urg = 0xFFFFFFFF then i.grp.urg else i.grp.urg + 1) ∧
      (∀ k, k < i.grp.slices.length → g.slice k =
        if i.sp.mask.getLsbD k = true then { i.grp.slice k with pc := (i.grp.slice k).pc + 8 } else i.grp.slice k) ∧
      g.splits.map (·.stamp) = i.grp.splits.map (·.stamp) ∧ g.splits.map (·.mask) = i.grp.splits.map (·.mask) ∧
      ∀ x ∈ g.splits, x.stamp = i.sp.stamp → x.wait = .ready ∧ ∃ c, x.clause = some c ∧ c.setA = h.setA ∧ c.setB = h.setB ∧
        c.words.length = h.len.toNat ∧
        ∀ k, k < h.len.toNat → c.words[k]? = some (bytesWord ((bs.drop (8 * k)).take 8))) ∧
  (∀ (s : State) (i : Issuer) (h : Header), s.dev.issuer? = some i → i.grp.mustReconverge i.sp = false →
    i.takesAsync = false → i.grp.waitsMet i.sp.mask h.wait = false → exec (.clauseIssue h) s = .next s)) ∧
  ((∀ (s : State) (i : Issuer) (gd : Guard), s.dev.issuer? = some i →
    MakesGroup (.nop gd) s i fun g => g = i.grp.advance i.sp false) ∧
  (∀ (g : Group) (sp : Split) (after : Bool),
    let g' := g.advance sp after
    (∀ k, k < g.slices.length → g'.slice k =
      if sp.mask.getLsbD k = true then { g.slice k with pc := (g.slice k).pc + 8 } else g.slice k) ∧
    g'.v = g.v ∧ g'.p = g.p ∧ g'.owed = g.owed ∧ g'.tr0 = g.tr0 ∧ g'.tr1 = g.tr1 ∧ g'.tr2 = g.tr2 ∧ g'.tr3 = g.tr3 ∧
    g'.rgnctr = g.rgnctr ∧ g'.reexec = g.reexec ∧ g'.settle = g.settle ∧ g'.handler = g.handler ∧ g'.async = g.async ∧
    g'.urg = (if sp.counted = true ∨ g.urg = 0xFFFFFFFF then g.urg else g.urg + 1) ∧
    (∀ x ∈ g'.splits, x.stamp = sp.stamp → x.wait = .ready ∧ x.region = after ∧ x.counted = false) ∧
    g'.splits.map (·.mask) = g.splits.map (·.mask) ∧ g'.splits.map (·.stamp) = g.splits.map (·.stamp))) ∧
  (∀ (s : State) (i : Issuer) (a b : Slot), s.dev.issuer? = some i → (Instr.pairedWord a b).wf i.lc = true →
    ∃ f h : Nat → Word32,
      (a.pop ≠ 0 → ∀ l ∈ i.on ⟨a.g, false⟩, SlotResult a.pop.toNat (i.vec l a.d) (i.vec l a.s) a.imm5 (f l)) ∧
      (b.pop ≠ 0 → ∀ l ∈ i.on ⟨b.g, false⟩, SlotResult b.pop.toNat (i.vec l b.d) (i.vec l b.s) b.imm5 (h l)) ∧
      MakesGroup (.pairedWord a b) s i fun g => Wrote i (i.grp.advance i.sp false) g
        (fun l n => (i.slotWrites b h l n).or (i.slotWrites a f l n)) untouched untouched)

/-- DELAY, DELAY_EXPIRY and YIELD (R113): DELAY with a participant makes the split wait its cycles and otherwise does
nothing; the wait ends no sooner; YIELD marks the split to be passed over once.

IPF (R70, R114): with a participant the lines asked for join the core's fills, unless they are held or cannot be
translated, and it never faults; the group only moves on.

PHINT (R336): for a team that is to be pre-empted, in a group that is one split with every RSTACK empty, it is a save
point with the PHINT's masks; in any other state it only moves on, and a region begins. -/
def Obligations.HintsAndDelays : Prop :=
  ((∀ (s : State) (i : Issuer) (gd : Guard) (n : BitVec 32), s.dev.issuer? = some i →
    MakesGroup (.delay gd n) s i fun g =>
      (i.on gd = [] → g = i.grp.advance i.sp false) ∧
      (i.on gd ≠ [] → g = (i.grp.advance i.sp false).modSplit i.sp.stamp fun x => { x with wait := .delay (s.dev.cycle + n.toNat) })) ∧
  (∀ (s : State) (r : SplitRef) (i : Issuer) (t : Nat), s.dev.issuerAt? r = some i → i.sp.wait = .delay t →
    (t ≤ s.dev.cycle → exec (.delayExpiry r) s = .next (s.withDev (s.dev.modGroup i.ref fun g =>
      g.modSplit r.stamp fun x => { x with wait := .ready }))) ∧
    (s.dev.cycle < t → ∃ e, exec (.delayExpiry r) s = .refused e)) ∧
  (∀ (s : State) (i : Issuer), s.dev.issuer? = some i →
    MakesGroup .yield s i fun g => g = (i.grp.advance i.sp false).modSplit i.sp.stamp fun x => { x with yielded := true })) ∧
  (∀ (s : State) (i : Issuer) (gd : Guard) (n : BitVec 4) (disp : BitVec 32), s.dev.issuer? = some i →
    ∃ d : Dev, exec (.ipf gd n disp) s = .next { s with dev := d.modGroup i.ref fun _ => i.grp.advance i.sp false } ∧
      (i.on gd = [] → d = s.dev) ∧ d.mem = s.dev.mem ∧ d.teams = s.dev.teams ∧ d.parts = s.dev.parts ∧
      ∀ c, (d.core c).l1 = (s.dev.core c).l1 ∧ (d.core c).icache = (s.dev.core c).icache ∧
        (c ≠ i.core → d.core c = s.dev.core c)) ∧
  (∀ (s : State) (i : Issuer) (sm lv : BitVec 8) (vm : BitVec 32), s.dev.issuer? = some i →
    MakesGroup (.phint sm lv vm) s i fun g =>
      let saves := (∃ t, i.team.state = .saving t) ∧ i.grp.splits.length = 1 ∧ ∀ x ∈ i.grp.slices, x.rstack = []
      (saves → g = { i.grp.advance i.sp true with save := some { hint := some (vm, sm, lv) } }) ∧
      (¬saves → g = i.grp.advance i.sp true))

namespace Sys2Proof.Machine

/-- The group in handler mode (R326, R327): the trap registers record the cause, the split's slices stand at HANDLER
with everything else unchanged, and registers and predicates stay. -/
def EntersHandler (i : Issuer) (r : Raise) (g : Group) : Prop :=
  g.tr0 = (r.rpc (i.grp.slice i.sp.leader)).setWidth 64 ∧
  g.tr1.extractLsb' 56 8 = r.cause.code ∧ g.tr1.extractLsb' 48 8 = r.sub ∧ g.tr1.extractLsb' 0 48 = r.pc ∧
  g.tr2.extractLsb' 32 32 = r.mask ∧ g.tr2.extractLsb' 0 32 = (i.grp.slice i.sp.leader).snap.rgnctr ∧
  g.tr3.extractLsb' 60 4 = BitVec.ofNat 4 r.src.trapCode ∧ g.tr3.extractLsb' 48 12 = 0 ∧
  g.tr3.extractLsb' 0 48 = BitVec.ofNat 48 r.info ∧
  g.v = i.grp.v ∧ g.p = i.grp.p ∧ g.owed = i.grp.owed ∧
  (∃ saved, g.handler = saved :: i.grp.handler ∧ (∀ h ∈ saved, i.sp.mask.getLsbD h.slice = true) ∧
    ∀ k ∈ maskSlices i.sp.mask, ∃ h ∈ saved, h.slice = k ∧ h.x = (i.grp.slice k).x ∧ h.pm = (i.grp.slice k).pm ∧
      h.depth = (i.grp.slice k).rstack.length ∧ h.retLen = (i.grp.slice k).retCount) ∧
  (∀ k, k < i.grp.slices.length → g.slice k =
    if i.sp.mask.getLsbD k = true then { i.grp.slice k with pc := i.grid.launch.handler } else i.grp.slice k) ∧
  (∀ x ∈ g.splits, x.stamp = i.sp.stamp → x.wait = .ready ∧ x.clause = none) ∧
  g.splits.map (·.stamp) = i.grp.splits.map (·.stamp)

/-- The team killed by a cause (R327, R344): it retires without a save and what its groups were owed is dropped, the
fault buffer takes an entry with K = 1 if it has room, and the owning queue records the code with ERR, does not halt, and
has its new status word to write (R45). -/
def KillsTeam (s : State) (i : Issuer) (r : Raise) (code : BitVec 8) (d : Dev) : Prop :=
  (∃ t, d.team? i.ref.team = some t ∧ (∃ x, t.state = .retiring x ∧ ((∀ y, i.team.state ≠ .retiring y) → x.killed = true ∧ x.step = 0)) ∧
    ((∀ y, i.team.state ≠ .retiring y) → ∀ g ∈ t.groups, g.owed = [])) ∧
  ((s.dev.part i.grid.pid).entries.length < (s.dev.part i.grid.pid).depth → i.grid.pid < s.dev.parts.length →
    ∃ e, (d.part i.grid.pid).entries = (s.dev.part i.grid.pid).entries ++ [e] ∧ e.k = true ∧ e.cause = r.cause.code ∧
      e.lanes = r.mask ∧ e.core = i.core ∧ e.grp = i.ref.group ∧ e.pc = r.pc ∧ e.asid = i.grid.asid) ∧
  (∀ q, s.dev.queue? i.grid.queue = some q → ∃ q', d.queue? i.grid.queue = some q' ∧ q'.err = true ∧
    q'.code = code ∧ q'.halted = q.halted ∧ q'.posts = q.posts ++ [(q'.statusWord, true)])

/-- The cause an instruction raises by its own effect: a word that is not an instruction (R89), RGN in native code
(R87), TRAP (R332), and BKPT with no debugger attached (R334). -/
def raisesOf (s : State) (i : Issuer) : Instr → Option Raise
  | .illop sub => some { cause := .illop, sub, mask := laneMask i.active, src := .instruction, info := 0, pc := i.pc }
  | .rgn => some { cause := .illop, sub := 0x09, mask := laneMask i.active, src := .instruction, info := 0, pc := i.pc }
  | .trap code gd => if i.on gd = [] then none else
      some { cause := .swtrap, sub := 0, mask := laneMask (i.on gd), src := .instruction, info := code.toNat, pc := i.pc }
  | .bkpt gd => if i.on gd = [] ∨ (s.dev.part i.grid.pid).debugger = true ∨ i.grid.launch.traph = false then none else
      some { cause := .bkpt, sub := 0, mask := laneMask (i.on gd), src := .instruction, info := 0, pc := i.pc }
  | _ => none

end Sys2Proof.Machine

/-- Taking an exception (R326, R327): ILLOP, RGN, TRAP and BKPT with a cause to raise enter the handler when TRAPH = 1
and the split is not in handler mode, and otherwise kill the team, with CODE 0x20, or 0x21 in handler mode. The default
RPC is the next word for SWTRAP and BKPT, and REPC for ILLOP.

TRAP and BKPT without a cause to raise (R332, R334): with no participant, and for BKPT with neither a debugger nor a
handler, they only move on; with a debugger attached BKPT stops the group. -/
def Obligations.TrapsTaken : Prop :=
  ((∀ (s : State) (i : Issuer) (ins : Instr) (r : Raise), s.dev.issuer? = some i → raisesOf s i ins = some r →
    i.grp.inHandler i.sp = false → i.grid.launch.traph = true → MakesGroup ins s i (EntersHandler i r)) ∧
  (∀ (s : State) (i : Issuer) (ins : Instr) (r : Raise), s.dev.issuer? = some i → raisesOf s i ins = some r →
    i.grp.inHandler i.sp = false → i.grid.launch.traph = false →
    ∃ d, exec ins s = .next { s with dev := d } ∧ KillsTeam s i r 0x20 d) ∧
  (∀ (s : State) (i : Issuer) (ins : Instr) (r : Raise), s.dev.issuer? = some i → raisesOf s i ins = some r →
    i.grp.inHandler i.sp = true → ∃ d, exec ins s = .next { s with dev := d } ∧ KillsTeam s i r 0x21 d) ∧
  (∀ (r : Raise) (x : Slice), r.rpc x = if r.cause = .swtrap ∨ r.cause = .bkpt then x.pc + 8 else x.snap.repc)) ∧
  (∀ (s : State) (i : Issuer) (code : BitVec 8) (gd : Guard), s.dev.issuer? = some i →
    (i.on gd = [] → MakesGroup (.trap code gd) s i fun g => g = i.grp.advance i.sp true) ∧
    (i.on gd = [] → MakesGroup (.bkpt gd) s i fun g => g = i.grp.advance i.sp true) ∧
    (i.on gd ≠ [] → (s.dev.part i.grid.pid).debugger = true →
      MakesGroup (.bkpt gd) s i fun g => g = { i.grp.advance i.sp true with stop := true }) ∧
    (i.on gd ≠ [] → (s.dev.part i.grid.pid).debugger = false → i.grid.launch.traph = false →
      MakesGroup (.bkpt gd) s i fun g => g = i.grp.advance i.sp true))

/-- RTE (R333): a split in handler mode leaves it and goes on at RPC. At an RPC other than REPC, where no word that is
not a header can be fetched, each slice has X and PM as they stood at the trap, less the lanes that have finished or
retired since (R91), entries pushed on either stack since are dropped, and a region begins; at REPC the return counts as a
re-execution and the split waits to re-execute. Registers, predicates and other splits' handler modes stay. -/
def Obligations.ReturnFromException : Prop :=
  ∀ (s : State) (i : Issuer), s.dev.issuer? = some i → i.grp.inHandler i.sp = true → i.grp.reexec < 255 →
    let saved := i.grp.handler.flatten
    (∀ k, i.sp.mask.getLsbD k = true → ∃ h ∈ saved, h.slice = k) →
    (∀ h ∈ saved, ∀ h' ∈ saved, h.slice = h'.slice → h = h') →
    (∀ k ∈ maskSlices i.sp.mask, ∀ h ∈ saved, h.slice = k →
      (i.grp.slice k).retCount - h.retLen ≤ (i.grp.slice k).ret.length ∧
      ∀ n, fget 0 (i.grp.slice k).shorts n < 8 ∧ ((i.grp.slice k).shorts.map (·.2)).foldl (· + ·) 0 ≤ 8 * (i.grp.slice k).spill.toNat) →
    let rpc := (i.grp.tr0.setWidth 48 : BitVec 48)
    let again := rpc = (i.grp.slice i.sp.leader).snap.repc
    (again ∨ ∀ w, s.dev.peekWord? i rpc.toNat = some w → ∃ h, decodeStart w = .ok h) →
    MakesGroup .rte s i fun g => g.handler.flatten = saved.filter (fun h => !i.sp.mask.getLsbD h.slice) ∧
      g.v = i.grp.v ∧ g.p = i.grp.p ∧ g.owed = i.grp.owed ∧
      (∀ k, k < i.grp.slices.length → i.sp.mask.getLsbD k = true → ∀ h ∈ saved, h.slice = k →
        (g.slice k).pc = rpc ∧ (g.slice k).x = h.x &&& (i.grp.slice k).liveLanes ∧
        (g.slice k).pm = h.pm &&& (i.grp.slice k).liveLanes ∧ (g.slice k).s = (i.grp.slice k).s ∧
        (g.slice k).rstack = (i.grp.slice k).rstack.drop ((i.grp.slice k).rstack.length - h.depth) ∧
        (g.slice k).ret = (i.grp.slice k).ret.drop ((i.grp.slice k).retCount - h.retLen) ∧
        (g.slice k).spill = (i.grp.slice k).spill) ∧
      (∀ k, i.sp.mask.getLsbD k = false → g.slice k = i.grp.slice k) ∧
      (∀ x ∈ g.splits, x.stamp = i.sp.stamp → x.clause = none ∧
        (again → x.wait = .rerun) ∧ (¬again → x.wait = .ready ∧ x.region = true)) ∧
      g.reexec = i.grp.reexec + (if again then 1 else 0)

namespace Sys2Proof.Machine

/-- What SRD reads (R93, R326, R328, R331). -/
def srReads (s : State) (i : Issuer) (l : Nat) : List (Nat × Word64) :=
  let n := fun (k : Nat) => BitVec.ofNat 64 k
  let launch := i.grid.launch
  [(0x00, n l), (0x01, n (l / 4)), (0x02, n (4 * (maskSlices i.sp.mask).length)), (0x03, n i.grp.splits.length),
   (0x05, n i.grp.num), (0x06, n i.team.num), (0x07, n (i.team.num / (launch.clw * launch.clh))), (0x08, n i.grid.id),
   (0x09, n i.team.core), (0x0A, n launch.nteam), (0x0B, n launch.ngroup),
   (0x0C, n (launch.nteam / (launch.clw * launch.clh))), (0x0D, i.grp.rgnctr.setWidth 64), (0x0E, i.grp.ictx.setWidth 64),
   (0x0F, i.grp.stage.setWidth 64), (0x10, BitVec.ofNat 64 s.dev.cycle + Config.clkOffset i.core), (0x11, i.grid.rec_),
   (0x12, i.grp.tr0), (0x13, i.grp.tr1), (0x14, i.grp.tr2), (0x15, i.grp.tr3)]

end Sys2Proof.Machine

/-- XMGET and XMSET (R120): XMGET writes the active lanes to every slice's own copy; XMSET gives each slice of the split
the mask's bits for its four lanes that PM also has, and begins a region.

SRD, SWR and PMEV (R93, R326, R331, R335): SRD writes the register's value to its destination and nothing else; SWR
writes a counter, or in handler mode RPC; PMEV starts a counter from zero. -/
def Obligations.MasksAndSpecialRegisters : Prop :=
  ((∀ (s : State) (i : Issuer) (sd : BitVec 6), s.dev.issuer? = some i →
    ∃ x, BitsAre false (fun j => decide (j ∈ i.active)) x ∧
      MakesGroup (.xmget sd) s i fun g => Wrote i (i.grp.advance i.sp false) g untouched untouched fun k m =>
        if i.sp.mask.getLsbD k ∧ k < i.grp.slices.length ∧ m = sd.toNat ∧ m ≠ 63 then some x else none) ∧
  (∀ (s : State) (i : Issuer) (src : BitVec 6 ⊕ BitVec 32), s.dev.issuer? = some i →
    ∃ F : Nat → Slice → Slice,
      (∀ k sl q, q < 4 → F k sl = { sl with x := (F k sl).x } ∧ (F k sl).x.getLsbD q = (sl.pm.getLsbD q &&
        (match src with | .inl a => ((i.sca a).setWidth 32 : BitVec 32) | .inr x => x).getLsbD (4 * k + q))) ∧
      MakesGroup (.xmset src) s i fun g => g = (i.grp.advance i.sp true).modSlices i.sp.mask F)) ∧
  ((∀ (s : State) (i : Issuer) (d : Reg) (sr : BitVec 8) (gd : Guard), s.dev.issuer? = some i →
    (Instr.srd d sr gd).wf i.lc = true →
    GivesReg (.srd d sr gd) s i ⟨d, decide (0x10 ≤ sr.toNat), false, gd, fun l x =>
      (∀ e ∈ srReads s i l, e.1 = sr.toNat → x = e.2) ∧
      (sr = 0x04 → BitsAre true (fun j => decide (j ∈ i.active)) x) ∧
      (∀ (n : Nat) (c : Pmc), sr.toNat = 0x16 + n → i.grp.pmc[n]? = some c →
        x = if c.event = 4 then i.team.lost.setWidth 64 else c.count)⟩) ∧
  (∀ (s : State) (i : Issuer) (sr : BitVec 8) (a : BitVec 6), s.dev.issuer? = some i → (Instr.swr sr a).wf i.lc = true →
    MakesGroup (.swr sr a) s i fun g =>
      (sr = 0x12 → g = { i.grp.advance i.sp false with tr0 := ((i.sca a).setWidth 48 : BitVec 48).setWidth 64 }) ∧
      (sr ≠ 0x12 → ∃ pmc, g = { i.grp.advance i.sp false with pmc } ∧ pmc.length = (i.grp.advance i.sp false).pmc.length ∧
        ∀ n, n < pmc.length → (pmc[n]?).map (·.count) = if sr.toNat = 0x16 + n then some (i.sca a)
          else ((i.grp.advance i.sp false).pmc[n]?).map (·.count))) ∧
  (∀ (s : State) (i : Issuer) (n : BitVec 2) (ev : BitVec 16), s.dev.issuer? = some i →
    MakesGroup (.pmev n ev) s i fun g => ∃ pmc, g = { i.grp.advance i.sp false with pmc } ∧
      ∀ k, k < (i.grp.advance i.sp false).pmc.length → pmc[k]? =
        if k = n.toNat then some { event := ev.toNat, count := 0 } else (i.grp.advance i.sp false).pmc[k]?))

namespace Sys2Proof.Machine

/-! ## Memory instructions -/

/-- A line of the core that some superblock holds dirty. -/
def Core.dirty (c : Core) (line : Nat) : Prop :=
  ∃ sb ∈ c.l1, ∃ (k : Nat) (l : L1Line), sb.lines[k]? = some (some l) ∧ l.dirty = true ∧ sb.tag * 4 + k = line

/-- Memory reads as before at every byte of a line that the issuing core does not hold dirty and that is none of
`lines`: only the eviction or writing back of such a line may write memory when a word issues. -/
def KeepsMemory (s : State) (core : Nat) (lines : List Nat) (d : Dev) : Prop :=
  ∀ (key : BitVec 8) (a : Nat), ¬(s.dev.core core).dirty (a / 128) → a / 128 ∉ lines → d.rd key a = s.dev.rd key a

/-- A request for a piece of a lane's access is on its way. -/
def Asked (d : Dev) (i : Issuer) (id lane : Nat) (p : Piece) (kind : ReqKind) (P : Req → Part → Prop) : Prop :=
  ∃ r ∈ d.reqs, id ≤ r.id ∧ r.by_ = i.ref ∧ r.mask = i.sp.mask ∧ r.kind = kind ∧ r.done = false ∧
    ∃ x ∈ r.parts, x.lane = lane ∧ x.size = p.len ∧ x.off = p.off ∧ P r x ∧
      match p.loc with
      | .mem pa leaf => x.pa = pa ∧ r.target = none ∧ r.line = pa / 128 ∧ r.key = leaf.key ∧ r.mt = leaf.mt
      | .scr t a => x.pa = a ∧ r.target = some t

/-- The operation a word leaves owed on SETA's flag (R74, R102), with no register of the group changed. -/
def OwesMemory (s : State) (i : Issuer) (ow : Owed) (g : Group) : Prop :=
  ow.id = s.dev.nextId ∧ ow.flag = i.sp.flagFor true ∧ ow.slices = maskSlices i.sp.mask ∧ ow.memory = true ∧
  g.owed = i.grp.owed ++ [ow] ∧ g.v = i.grp.v ∧ g.p = i.grp.p ∧ g.splits.map (·.stamp) = i.grp.splits.map (·.stamp) ∧
  ∀ k, k < i.grp.slices.length →
    (g.slice k).s = (i.grp.slice k).s ∧ (g.slice k).x = (i.grp.slice k).x ∧
    (g.slice k).pc = (i.grp.slice k).pc + (if i.sp.mask.getLsbD k = true then 8 else 0) ∧
    (g.slice k).flag ow.flag = (i.grp.slice k).flag ow.flag + (if i.sp.mask.getLsbD k = true then 1 else 0)

/-- The bytes a piece names at issue: a scratchpad's, or memory's under the page's key. -/
def Piece.bytesAt (p : Piece) (d : Dev) : List Byte :=
  match p.loc with
  | .mem pa leaf => d.rdBytes leaf.key pa p.len
  | .scr t a => fgetBytes ((d.team? t).map (·.scr) |>.getD []) a p.len

/-- The places a load owes: register runs of its lanes, or a scalar in every slice of the split; v255 and s63 none. -/
def loadDests (i : Issuer) (scalar : Bool) (n size : Nat) (lanes : List Nat) : List Dest :=
  if scalar = true then (if n = 63 ∨ lanes = [] then [] else (maskSlices i.sp.mask).map fun k => .s k n)
  else lanes.flatMap fun l => ((List.range ((size + 3) / 4)).filter fun j => n + j ≠ 255).map fun j => .v l (n + j)

/-- What a passing load leaves (R74, R180): its places owed; each piece of its own scratchpad, with nothing outstanding
there, has its value at once, and each piece of memory that the L1 does not serve is asked of its home. -/
def LoadLeaves (s : State) (i : Issuer) (o : MemOp) (scalar : Bool) (ps : List (Nat × List Piece)) (d : Dev) (g : Group)
    (ow : Owed) : Prop :=
  OwesMemory s i ow g ∧ d.teams = s.dev.teams ∧ KeepsMemory s i.core [] d ∧
  (∀ x ∈ loadDests i scalar o.data.toNat o.wid.bytes (ps.map (·.1)), x ∈ ow.items.map (·.dest)) ∧
  (∀ x ∈ ps, ∀ p ∈ x.2,
    (∀ pa leaf, p.loc = .mem pa leaf → (o.pol = .nl ∨ (∃ sc, o.ord = .acq sc) ∨ leaf.mt ≠ .cacheable) → o.space ≠ .p →
      Asked d i ow.id x.1 p .load fun r _ => r.owed = some ow.id) ∧
    (∀ a, p.loc = .scr i.ref.team a → s.dev.scrBusy i = true → Asked d i ow.id x.1 p .load fun r _ => r.owed = some ow.id) ∧
    (∀ t a, p.loc = .scr t a → t ≠ i.ref.team → Asked d i ow.id x.1 p .load fun r _ => r.owed = some ow.id)) ∧
  (o.space = .s → s.dev.scrBusy i = false → ∀ x ∈ ps, ∀ it ∈ ow.items, ∀ j,
    (scalar = false → it.dest = .v x.1 (o.data.toNat + j) → j < (o.wid.bytes + 3) / 4 → ∀ p ∈ x.2, it.value = some
      (if o.wid.bytes < 4 then ((extend32 (widSigned o.wid) o.wid.bytes (bytesNat (p.bytesAt s.dev))).setWidth 64 : Word64)
       else BitVec.ofNat 64 (bytesNat (((p.bytesAt s.dev).drop (4 * j)).take 4)))) ∧
    (scalar = true → it.dest = .s j o.data.toNat → ∀ p ∈ x.2, it.value = some
      (if o.wid.bytes < 4 ∧ widSigned o.wid = true then
        (extend32 true o.wid.bytes (bytesNat (p.bytesAt s.dev))).signExtend 64
       else BitVec.ofNat 64 (bytesNat (p.bytesAt s.dev)))))

/-- The bytes a store's lane writes: the low bytes of its data run, or of the leader's scalar (R180). -/
def storeBytes (i : Issuer) (scalar : Bool) (o : MemOp) (l : Nat) : List Byte :=
  if scalar = true then natBytes o.wid.bytes (i.sca (o.data.setWidth 6)).toNat
  else ((List.range ((o.wid.bytes + 3) / 4)).flatMap fun j => natBytes 4 (i.grp.readV i.fresh l (o.data.toNat + j)).toNat).take o.wid.bytes

/-- The private lines that a store's pieces lie in. -/
def pieceLines (ps : List (Nat × List Piece)) : List Nat :=
  ps.flatMap fun x => x.2.filterMap fun p => match p.loc with | .mem pa _ => some (pa / 128) | .scr .. => none

/-- What a passing store leaves (R180, R246): its own scratchpad written in lane order, unless it is held behind its
release or an earlier request there is outstanding; every other piece that is not private and cacheable asked for with
its data; registers and every other scratchpad as they were, and memory too but for dirty private lines. -/
def StoreLeaves (s : State) (i : Issuer) (o : MemOp) (data : Nat → List Byte) (ps : List (Nat × List Piece)) (d : Dev)
    (g : Group) : Prop :=
  let now := relScope o.ord = none ∧ s.dev.scrBusy i = false
  g.v = i.grp.v ∧ (g.owed.map fun o => (o.id, o.flag, o.slices, o.waits)) = i.grp.owed.map (fun o => (o.id, o.flag, o.slices, o.waits)) ∧
  KeepsMemory s i.core (pieceLines ps) d ∧
  (∀ k, k < i.grp.slices.length → g.slice k =
    if i.sp.mask.getLsbD k = true then { i.grp.slice k with pc := (i.grp.slice k).pc + 8 } else i.grp.slice k) ∧
  (∀ n t, s.dev.team? n = some t → ∃ t', d.team? n = some t' ∧ t'.tiles = t.tiles ∧
    (n ≠ i.ref.team ∨ ¬now → t'.scr = t.scr) ∧
    (n = i.ref.team → now → t'.scr = (ps.flatMap fun x => x.2.map fun p => (x.1, p)).foldl (fun m (l, p) => match p.loc with
      | .scr t a => if t = n then fsetBytes m a (((data l).drop p.off).take p.len) else m
      | .mem .. => m) t.scr)) ∧
  ∀ x ∈ ps, ∀ p ∈ x.2,
    (∀ pa leaf, p.loc = .mem pa leaf → o.space ≠ .p ∨ leaf.mt ≠ .cacheable →
      Asked d i s.dev.nextId x.1 p .store fun r y => y.data = BitVec.ofNat 128 (bytesNat (((data x.1).drop p.off).take p.len)) ∧
        r.owed = none ∧ r.held = (relScope o.ord).isSome) ∧
    (∀ t a, p.loc = .scr t a → t ≠ i.ref.team ∨ ¬now →
      Asked d i s.dev.nextId x.1 p .store fun r y => y.data = BitVec.ofNat 128 (bytesNat (((data x.1).drop p.off).take p.len)) ∧
        r.held = (relScope o.ord).isSome)

end Sys2Proof.Machine

/-- LD, LDU and LDF (R178 to R181): when no participant's check fails, the load completes: it is owed on SETA's flag, its
pieces are served or asked for, and registers, predicates, scratchpads and memory stay. LDF completes as well when some
lanes fail with XLATE or PERM: those are owed zero and a false predicate, the others a true one.

ST, STU and STF (R178 to R181): when no participant's check fails, the store completes and writes, or sends, exactly
its bytes. STF completes as well when some lanes fail with XLATE or PERM: those store nothing and their predicate is
false, the others' true.

Where the checks fail (R94, R158, R181, R325): a load or store with a lane whose address is misaligned traps with
MISALIGN in exactly those lanes, whatever other lanes raise, and performs in no lane. -/
def Obligations.LoadsAndStoresIssue : Prop :=
  ((∀ (s : State) (i : Issuer) (o : MemOp) (d : Dev) (rs : List (Nat × Except LaneFault (List Piece))),
    s.dev.issuer? = some i → (Instr.ld o).wf i.lc = true →
    s.dev.checkLanes i (loadAsk o) (i.lanesEa o (i.on o.g)) = (d, rs) → failures rs = [] →
    ∃ (d' : Dev) (g : Group) (ow : Owed), exec (.ld o) s = .next (s.withDev (d'.modGroup i.ref fun _ => g)) ∧ LoadLeaves s i o false (passes rs) d' g ow) ∧
  (∀ (s : State) (i : Issuer) (o : MemOp) (d : Dev) (rs : List (Nat × Except LaneFault (List Piece))),
    s.dev.issuer? = some i → (Instr.ldu o).wf i.lc = true →
    s.dev.checkLanes i (loadAsk o) (i.lanesEa o ((i.on o.g).take 1)) = (d, rs) → failures rs = [] →
    ∃ (d' : Dev) (g : Group) (ow : Owed), exec (.ldu o) s = .next (s.withDev (d'.modGroup i.ref fun _ => g)) ∧ LoadLeaves s i o true (passes rs) d' g ow) ∧
  (∀ (s : State) (i : Issuer) (o : MemOp) (d : Dev) (rs : List (Nat × Except LaneFault (List Piece))),
    s.dev.issuer? = some i → (Instr.ldf o).wf i.lc = true →
    s.dev.checkLanes i (loadAsk o) (i.lanesEa o (i.on o.g)) = (d, rs) →
    (∀ x ∈ failures rs, x.2.cause = .xlate ∨ x.2.cause = .perm) →
    ∃ (d' : Dev) (g : Group) (ow : Owed), exec (.ldf o) s = .next (s.withDev (d'.modGroup i.ref fun _ => g)) ∧
      LoadLeaves s i o false (passes rs) d' g ow ∧
      (∀ x ∈ failures rs, ∀ j, j < o.wid.regs → o.data.toNat + j ≠ 255 → ∃ it ∈ ow.items,
        it.dest = .v x.1 (o.data.toNat + j) ∧ it.value = some 0) ∧
      (o.pr ≠ 7 → (∀ x ∈ failures rs, ∃ it ∈ ow.items, it.dest = .p x.1 o.pr.toNat ∧ it.value = some 0) ∧
        (∀ x ∈ passes rs, ∃ it ∈ ow.items, it.dest = .p x.1 o.pr.toNat ∧ it.value = some 1)))) ∧
  ((∀ (s : State) (i : Issuer) (o : MemOp) (d : Dev) (rs : List (Nat × Except LaneFault (List Piece))),
    s.dev.issuer? = some i → (Instr.st o).wf i.lc = true →
    s.dev.checkLanes i (storeAsk o) (i.lanesEa o (i.on o.g)) = (d, rs) → failures rs = [] →
    ∃ (d' : Dev) (g : Group), exec (.st o) s = .next (s.withDev d') ∧ d'.group? i.ref = some g ∧ g.p = i.grp.p ∧
      StoreLeaves s i o (storeBytes i false o) (passes rs) d' g) ∧
  (∀ (s : State) (i : Issuer) (o : MemOp) (d : Dev) (rs : List (Nat × Except LaneFault (List Piece))),
    s.dev.issuer? = some i → (Instr.stu o).wf i.lc = true →
    s.dev.checkLanes i (storeAsk o) (i.lanesEa o ((i.on o.g).take 1)) = (d, rs) → failures rs = [] →
    ∃ (d' : Dev) (g : Group), exec (.stu o) s = .next (s.withDev d') ∧ d'.group? i.ref = some g ∧ g.p = i.grp.p ∧
      StoreLeaves s i o (storeBytes i true o) (passes rs) d' g) ∧
  (∀ (s : State) (i : Issuer) (o : MemOp) (d : Dev) (rs : List (Nat × Except LaneFault (List Piece))),
    s.dev.issuer? = some i → (Instr.stf o).wf i.lc = true →
    s.dev.checkLanes i (storeAsk o) (i.lanesEa o (i.on o.g)) = (d, rs) →
    (∀ x ∈ failures rs, x.2.cause = .xlate ∨ x.2.cause = .perm) →
    ∃ (d' : Dev) (g : Group), exec (.stf o) s = .next (s.withDev d') ∧ d'.group? i.ref = some g ∧
      StoreLeaves s i o (storeBytes i false o) (passes rs) d' g ∧
      ∀ l, l < 32 → ∀ n, n < 8 → g.pred l n = if l ∈ i.on o.g ∧ n = o.pr.toNat ∧ n ≠ 7
        then decide (l ∈ (passes rs).map (·.1)) else i.grp.pred l n)) ∧
  (∀ (s : State) (i : Issuer) (o : MemOp) (l : Nat), s.dev.issuer? = some i → l ∈ i.on o.g →
    i.ea o.base o.idx o.form o.wid.bytes l % o.wid.bytes ≠ 0 →
    (∀ m ∈ i.on o.g, m < l → i.ea o.base o.idx o.form o.wid.bytes m % o.wid.bytes = 0) →
    ∃ mask : BitVec 32, (∀ m, m < 32 → mask.getLsbD m =
        (decide (m ∈ i.on o.g) && decide (i.ea o.base o.idx o.form o.wid.bytes m % o.wid.bytes ≠ 0))) ∧
      let u := fun (d : Dev) => s.withDev (d.trap i { cause := .misalign, sub := 0, mask, src := .instruction, pc := i.pc
                                                      info := i.ea o.base o.idx o.form o.wid.bytes l % 2 ^ 48 })
      exec (.ld o) s = .next (u (s.dev.checkLanes i (loadAsk o) (i.lanesEa o (i.on o.g))).1) ∧
      exec (.st o) s = .next (u (s.dev.checkLanes i (storeAsk o) (i.lanesEa o (i.on o.g))).1))

namespace Sys2Proof.Machine

/-- The data a lane of an atomic sends: its operand as the compare value, and for CAS the next register run as the new
value (R276). -/
def atomData (i : Issuer) (o : AtomOp) (cas : Bool) (l : Nat) : Word64 × BitVec 128 :=
  let rd := fun (k : Nat) => if o.w64 = true then i.grp.readV64 i.fresh l (o.c.toNat + k)
    else (i.grp.readV i.fresh l (o.c.toNat + k)).setWidth 64
  (rd 0, (if cas = true then rd (if o.w64 = true then 2 else 1) else rd 0).setWidth 128)

end Sys2Proof.Machine

/-- ATOM, RED, CAS and WAITA (R276, R278): when no lane's check fails the word completes. ATOM, CAS and WAITA are owed on
SETA's flag the register run of each lane, RED is owed nothing; every lane's piece of memory is sent with its operand;
no register, predicate or memory changes. One lane's relaxed atomic on its team's own scratchpad, with nothing
outstanding there, performs at once.

The new word of each atomic operation (R276): 0 ADD, 1 and 2 the unsigned and signed least, 3 and 4 the greatest, 5
AND, 6 OR, 7 XOR, 8 exchange, 9 the correctly rounded sum; CAS and its comparison. -/
def Obligations.AtomicsWork : Prop :=
  (∀ (s : State) (i : Issuer) (o : AtomOp) (d : Dev) (rs : List (Nat × Except LaneFault (List Piece))),
    s.dev.issuer? = some i → s.dev.checkLanes i (atomAsk o) (i.atomEas o) = (d, rs) → failures rs = [] →
    let dests := loadDests i false o.d.toNat (atomSize o) ((passes rs).map (·.1))
    let sent := fun (d' : Dev) (k : ReqKind) (cas : Bool) (own : Option Nat) => ∀ x ∈ passes rs, ∀ p ∈ x.2,
      ∀ pa leaf, p.loc = .mem pa leaf → Asked d' i s.dev.nextId x.1 p k fun r y =>
        (y.cmp, y.data) = atomData i o cas x.1 ∧ r.owed = own
    (∀ (ins : Instr) (k : ReqKind), (ins = .atom o ∧ k = .atom o.op.toNat o.w64) ∨ (ins = .cas o ∧ k = .cas o.w64) ∨
        (ins = .waita o ∧ k = .watch o.w64) →
      ∃ (d' : Dev) (g : Group) (ow : Owed), exec ins s = .next (s.withDev d') ∧ d'.group? i.ref = some g ∧ OwesMemory s i ow g ∧ d'.mem = s.dev.mem ∧
        ow.items.map (·.dest) = dests ∧ sent d' k (decide (k = .cas o.w64)) (some ow.id)) ∧
    (∃ (d' : Dev) (g : Group), exec (.red o) s = .next (s.withDev d') ∧ d'.group? i.ref = some g ∧ d'.mem = s.dev.mem ∧
      g.v = i.grp.v ∧ g.p = i.grp.p ∧ g.owed = i.grp.owed ∧ sent d' (.atom o.op.toNat o.w64) false none ∧
      ∀ k, k < i.grp.slices.length → g.slice k =
        if i.sp.mask.getLsbD k = true then { i.grp.slice k with pc := (i.grp.slice k).pc + 8 } else i.grp.slice k) ∧
    ∀ l a va, passes rs = [(l, [⟨.scr i.ref.team a, va, 0, atomSize o⟩])] → semRel o.sem = none → s.dev.scrBusy i = false →
      let old := bytesNat (fgetBytes i.team.scr a (atomSize o))
      let new := natBytes (atomSize o) (atomNew o.op.toNat o.w64 old (atomData i o false l).1.toNat)
      ∀ ins ∈ [Instr.atom o, .red o], ∃ (d' : Dev) (t : Team), exec ins s = .next (s.withDev d') ∧
        d'.team? i.ref.team = some t ∧ t.scr = fsetBytes i.team.scr a new) ∧
  ((∀ (w64 : Bool) (x y : Nat), let n := if w64 = true then 64 else 32
    x < 2 ^ n → y < 2 ^ n →
    let sg := fun (v : Nat) => if v < 2 ^ (n - 1) then (v : Int) else (v : Int) - 2 ^ n
    atomNew 0 w64 x y = (x + y) % 2 ^ n ∧ atomNew 1 w64 x y = min x y ∧ sg (atomNew 2 w64 x y) = min (sg x) (sg y) ∧
    atomNew 3 w64 x y = max x y ∧ sg (atomNew 4 w64 x y) = max (sg x) (sg y) ∧
    (∀ j, (atomNew 5 w64 x y).testBit j = (x.testBit j && y.testBit j)) ∧
    (∀ j, (atomNew 6 w64 x y).testBit j = (x.testBit j || y.testBit j)) ∧
    (∀ j, (atomNew 7 w64 x y).testBit j = (x.testBit j != y.testBit j)) ∧ atomNew 8 w64 x y = y ∧
    (let f := if w64 = true then f64 else Machine.f32
     atomNew 9 w64 x y = f.roundTo .rne false ((f.value x).add .rne (f.value y)))) ∧
  (∀ (w64 : Bool) (x : Nat) (p : Part), (ReqKind.cas w64).apply x p =
    if x = p.cmp.toNat then some p.data.toNat else none))

namespace Sys2Proof.Machine

/-- The group as a word leaves it that has only moved on, and perhaps waits. -/
def Passed (i : Issuer) (g : Group) : Prop :=
  g.v = i.grp.v ∧ g.p = i.grp.p ∧ g.owed = i.grp.owed ∧ (∀ k, k < i.grp.slices.length → g.slice k =
    if i.sp.mask.getLsbD k = true then { i.grp.slice k with pc := (i.grp.slice k).pc + 8 } else i.grp.slice k)

end Sys2Proof.Machine

/-- FENCE (R246, R248, R249, R277): an acquire fence makes the split wait for every earlier load; a release fence sends
the group's markers and lets it go on; FENCE.SC goes on once its release has performed, having dropped the clean lines
of its core, and until then waits at the word.

WAITGE (R254, R279): once the global word is at least the scalar it goes on, and until then waits at the word. -/
def Obligations.FencesAndWaits : Prop :=
  ((∀ (s : State) (i : Issuer) (sc : Scope), s.dev.issuer? = some i →
    MakesGroup (.fence (.acq sc)) s i fun g => Passed i g ∧
      ∀ x ∈ g.splits, x.stamp = i.sp.stamp → x.wait = .acquire s.dev.nextId) ∧
  (∀ (s : State) (i : Issuer) (sc : Scope), s.dev.issuer? = some i →
    MakesGroup (.fence (.rel sc)) s i fun g => Passed i g ∧ g.posted = [] ∧
      g.markers = i.grp.markers ++ i.grp.posted.map (fun p =>
        { place := p.place, before := s.dev.nextId, expiry := p.expiry, va := p.va, pc := p.pc }) ∧
      ∀ x ∈ g.splits, x.stamp = i.sp.stamp → x.wait = .ready ∧ x.release = some (s.dev.nextId, sc)) ∧
  (∀ (s : State) (i : Issuer) (sc : Scope), s.dev.issuer? = some i → i.releaseMet s.dev sc = true →
    ∃ (d' : Dev) (g : Group), exec (.fence (.ar sc)) s = .next (s.withDev (d'.modGroup i.ref fun _ => g)) ∧ Passed i g ∧
      d'.mem = s.dev.mem ∧ d'.reqs = s.dev.reqs ∧
      (∀ sb ∈ (d'.core i.core).l1, ∀ l, some l ∈ sb.lines → l.owner = none → l.dirty = true) ∧
      ∀ c, c ≠ i.core → d'.core c = s.dev.core c) ∧
  (∀ (s : State) (i : Issuer) (sc : Scope), s.dev.issuer? = some i → i.releaseMet s.dev sc = false →
    MakesGroup (.fence (.ar sc)) s i fun g => g.v = i.grp.v ∧ g.p = i.grp.p ∧ g.slices = i.grp.slices)) ∧
  (∀ (s : State) (i : Issuer) (sc : Scope) (a b : BitVec 6) (d : Dev) (v : Nat), s.dev.issuer? = some i →
    s.dev.globalWord i (i.sca a).toNat = (d, .ok v) →
    ((i.sca b).toNat ≤ v → ∃ g : Group, exec (.waitge sc a b) s = .next (s.withDev (d.modGroup i.ref fun _ => g)) ∧ Passed i g) ∧
    (v < (i.sca b).toNat → ∃ g : Group, exec (.waitge sc a b) s = .next (s.withDev (d.modGroup i.ref fun _ => g)) ∧
      g.v = i.grp.v ∧ g.p = i.grp.p ∧ g.slices = i.grp.slices ∧
      ∀ x ∈ g.splits, x.stamp = i.sp.stamp → ∃ n, x.wait = .word n))

/-- PREF and CCTL (R183, R184): PREF never faults, changes no register, and writes no memory but an evicted dirty line.
CCTL, when its lanes pass, changes no register but LOCK's predicate, true only where the superblock is locked: INV and WB write back the named dirty lines, INV
removes them, INVALL removes every clean global line outside locked superblocks, IINV the named instruction lines. -/
def Obligations.CacheControl : Prop :=
  (∀ (s : State) (i : Issuer) (o : PrefOp), s.dev.issuer? = some i →
    ∃ (d' : Dev) (g : Group), exec (.pref o) s = .next (s.withDev d') ∧ d'.group? i.ref = some g ∧ Passed i g ∧ d'.parts = s.dev.parts ∧
      KeepsMemory s i.core [] d') ∧
  (∀ (s : State) (i : Issuer) (sp : Space), s.dev.issuer? = some i →
    ∃ d' : Dev, exec (.cctlInvall sp) s = .next (s.withDev (d'.modGroup i.ref fun _ => i.grp.advance i.sp false)) ∧
      d' = s.dev.modCore i.core (fun c => { c with l1 := (d'.core i.core).l1 }) ∧
      ∀ sb ∈ (d'.core i.core).l1, sb.locked = false → ∀ l, some l ∈ sb.lines → l.owner = none → l.dirty = true) ∧
  (∀ (s : State) (i : Issuer) (o : CctlOp) (d : Dev) (rs : List (Nat × Except LaneFault (List Piece))), s.dev.issuer? = some i →
    s.dev.checkLanes i { space := o.space, size := 1, align := false, store := false, need := .r, reads := false }
      ((i.on o.g).map fun l => (l, i.ea o.base o.idx (.f o.ix) 1 l)) = (d, rs) → failures rs = [] →
    ∀ ins ∈ [Instr.cctlInv o, .cctlWb o, .cctlLock o, .cctlUnlock o, .cctlIinv o],
      ∃ (d' : Dev) (g : Group), exec ins s = .next (s.withDev d') ∧ d'.group? i.ref = some g ∧ g.v = i.grp.v ∧
        (ins ≠ .cctlLock o → g.p = i.grp.p) ∧ KeepsMemory s i.core [] d' ∧
        (∀ x ∈ passes rs, ∀ p ∈ x.2, ∀ pa leaf, p.loc = .mem pa leaf → leaf.mt = .cacheable →
          (ins = .cctlInv o → (d'.core i.core).line? (pa / 128) = none) ∧
          (ins = .cctlWb o → ∀ l, (d'.core i.core).line? (pa / 128) = some l → l.dirty = false) ∧
          (ins = .cctlUnlock o → ∀ sb, (d'.core i.core).sb? (pa / 128) = some sb → sb.locked = false) ∧
          (ins = .cctlLock o → o.pr ≠ 7 → g.pred x.1 o.pr.toNat = true →
            ∃ sb, (d'.core i.core).sb? (pa / 128) = some sb ∧ sb.locked = true) ∧
          (ins = .cctlIinv o → ∀ l ∈ (d'.core i.core).icache, l.num ≠ pa / 128)))

namespace Sys2Proof.Machine

/-! ## At the homes and beyond the core -/

/-- A group whose operation has had answers: its places filled, the requests no longer waited for. -/
def Answered (g g' : Group) (ids : List Nat) (op : Nat) (vals : List (Dest × Word64)) : Prop :=
  g'.v = g.v ∧ g'.p = g.p ∧ g'.slices = g.slices ∧ g'.splits = g.splits ∧
  g'.owed.map (·.id) = g.owed.map (·.id) ∧
  ∀ (n : Nat) (o : Owed), g.owed[n]? = some o → ∃ o' : Owed, g'.owed[n]? = some o' ∧ o'.flag = o.flag ∧ o'.slices = o.slices ∧
    (o.id ≠ op → o' = o) ∧
    (o.id = op → o'.waits = o.waits.filter (!ids.contains ·) ∧ o'.items.map (·.dest) = o.items.map (·.dest) ∧
      ∀ (k : Nat) (it : OwedItem), o.items[k]? = some it → ∃ it' : OwedItem, o'.items[k]? = some it' ∧ it'.contested = it.contested ∧
        (it.dest ∉ vals.map (·.1) → it' = it) ∧
        ((∀ sl n, it.dest ≠ .s sl n) → ∀ x, (it.dest, x) ∈ vals → (vals.filter fun v => decide (v.1 = it.dest)).length = 1 →
          it'.value = some x))

end Sys2Proof.Machine

/-- HOME_ACCESS of a load (R158, R169, R172, R173, R240): the requests of one load for the line perform together, each
returning the bytes its home holds at that moment under its page's key; the lease a line is installed under is no longer
than the requester's MAXL, than NL when the home held the line, and than 64 units on a host line, and its deadline stops
short of the home's expiry; memory stays but for an evicted dirty line. -/
def Obligations.LoadsPerform : Prop :=
  ∀ (s : State) (id op : Nat) (r : Req) (g : Group), s.dev.req? id = some r → r.kind = .load → r.target = none →
    s.dev.atHome r = true → (s.dev.mates r).head? = some r →
    (∀ m ∈ s.dev.mates r, s.dev.mayPerform m = true ∧ m.kind = .load ∧ m.by_ = r.by_ ∧ m.core = r.core ∧ m.line = r.line ∧ m.owed = some op ∧
      ∀ p ∈ m.parts, ∀ k, k < p.size → (p.pa + k) / 128 = r.line) →
    ((s.dev.mates r).length = 1 ∨ ∀ sb ∈ (s.dev.core r.core).l1, sb.lines.length ≤ 4) →
    s.dev.unreachable (r.line * 128) = false → s.dev.group? r.by_ = some g →
    ∃ (d : Dev) (g' : Group), exec (.homeAccess id) s = .next (s.withDev d) ∧ (∀ m ∈ s.dev.mates r, d.req? m.id = none) ∧
      d.group? r.by_ = some g' ∧
      Answered g g' ((s.dev.mates r).map (·.id)) op ((s.dev.mates r).flatMap fun m => m.values fun p => s.dev.rdBytes m.key p.pa p.size) ∧
      (∀ key a, ¬(s.dev.core r.core).dirty (a / 128) → d.rd key a = s.dev.rd key a) ∧
      (r.alloc = true → ∀ l, (d.core r.core).line? r.line = some l → l.owner = none →
        ∃ m ∈ s.dev.mates r, m.alloc = true ∧ l.data = s.dev.rdLine m.key r.line ∧
        ∃ u, u ≤ (s.dev.part m.pid).rec_.maxl ∧ ((s.dev.home r.line).form ≠ none → u ≤ (s.dev.home r.line).nl) ∧
          (paRegion (r.line * 128) = 2 → u ≤ 64) ∧ l.deadline ≤ m.leftAt + 16 * u - drift (16 * u) ∧
          (0 < u → s.dev.cycle + 16 * u ≤ (d.home r.line).expiry))

namespace Sys2Proof.Machine

/-- Byte `b` after the parts of a store have been written in order. -/
def partsByte (ps : List Part) (old : Byte) (b : Nat) : Byte :=
  ps.foldl (fun acc p => if p.pa ≤ b ∧ b < p.pa + p.size then BitVec.ofNat 8 (p.data.toNat / 256 ^ (b - p.pa)) else acc) old

end Sys2Proof.Machine

/-- HOME_ACCESS of a store and of an atomic (R173, R239, R241, R245, R276): every byte reads, under the store's key, as
the parts written in lane order leave it, and every other byte as before; NL, that of a line the home did not hold
being MAXL, falls to half or less while a lease is out;
the answer carries the settle duration in whole units of 16 cycles, unless the store was posted to another die or a
peer. An atomic returns the old word and writes the new one. -/
def Obligations.StoresPerform : Prop :=
  (∀ (s : State) (id : Nat) (r : Req), s.dev.req? id = some r → r.kind = .store → r.target = none → r.owed = none →
    s.dev.mayPerform r = true → s.dev.atHome r = true → s.dev.mates r = [r] → s.dev.unreachable (r.line * 128) = false →
    (∀ p ∈ r.parts, p.pa / 128 = r.line ∧ 0 < p.size ∧ (p.pa + p.size - 1) / 128 = r.line) → r.parts ≠ [] →
    ∃ d : Dev, exec (.homeAccess id) s = .next (s.withDev d) ∧
      (∀ b, d.rd r.key b = partsByte r.parts (s.dev.rd r.key b) b) ∧
      (∀ key b, b / 128 ≠ r.line → d.rd key b = s.dev.rd key b) ∧
      (s.dev.cycle < (s.dev.home r.line).expiry → (d.home r.line).nl ≤
          (if (s.dev.home r.line).form.isSome = true ∨ r.mt ≠ .cacheable ∨ r.pol = .uc then (s.dev.home r.line).nl
           else max (s.dev.home r.line).nl (s.dev.part r.pid).rec_.maxl) / 2 ∧
        (d.home r.line).stored = true ∧ (d.home r.line).expiry = (s.dev.home r.line).expiry) ∧
      (r.postedTo = none → ∃ r' : Req, d.req? id = some r' ∧ r'.done = true ∧
        r'.settle = if r.mt = .cacheable then ((s.dev.home r.line).expiry - s.dev.cycle + 15) / 16 * 16 else 0) ∧
      (∀ p, r.postedTo = some p → d.req? id = none)) ∧
  (∀ (s : State) (id op : Nat) (r : Req) (p : Part) (g : Group) (f : Nat → Part → Option Nat),
    s.dev.req? id = some r → r.target = none →
    ((∃ n w64, r.kind = .atom n w64 ∧ f = fun x q => some (atomNew n w64 x q.data.toNat)) ∨
      (∃ w64, r.kind = .cas w64 ∧ f = fun x q => if x = q.cmp.toNat then some q.data.toNat else none)) →
    r.owed = some op → r.parts = [p] → p.pa / 128 = r.line → 0 < p.size → (p.pa + p.size - 1) / 128 = r.line →
    s.dev.mayPerform r = true → s.dev.atHome r = true → s.dev.mates r = [r] → s.dev.unreachable (r.line * 128) = false →
    s.dev.group? r.by_ = some g →
    ∃ (d : Dev) (g' : Group), exec (.homeAccess id) s = .next (s.withDev d) ∧ d.req? id = none ∧ d.group? r.by_ = some g' ∧
      Answered g g' [id] op (placed r.dst r.signed [] p.lane p.off (s.dev.rdBytes r.key p.pa p.size)) ∧
      let old := bytesNat (s.dev.rdBytes r.key p.pa p.size)
      (∀ b, d.rd r.key b = match f old p with
        | some v => if p.pa ≤ b ∧ b < p.pa + p.size then BitVec.ofNat 8 (v / 256 ^ (b - p.pa)) else s.dev.rd r.key b
        | none => s.dev.rd r.key b))

/-- PEER_PROBE (R176, R249, R251): a core of the same die that holds the line live under the same key, no older than what the
load's group has met or its split's last FENCE.SC admits, answers the load with its own bytes and remaining lease; a core
without such a copy leaves the load to go on to its home.

SCRATCHPAD_REMOTE_ACCESS (R244): a load returns the pool's bytes as they stand, a store writes its parts in lane
order and is answered, and an atomic returns the old word and writes the new one. -/
def Obligations.PeersAndPools : Prop :=
  (∀ (s : State) (id op core : Nat) (r : Req) (g : Group), s.dev.req? id = some r → r.kind = .load → r.alloc = true →
    r.acq = false → r.target = none → r.seat = .way → (s.dev.mates r).length = 1 → s.dev.mayPerform r = true → core ≠ r.core → core / 128 = r.core / 128 →
    r.owed = some op → s.dev.group? r.by_ = some g →
    (s.dev.peerCopy? r core = none → exec (.peerProbe id core) s = .next s) ∧
    (∀ l, s.dev.peerCopy? r core = some l →
      ∃ (d : Dev) (g' : Group), exec (.peerProbe id core) s = .next (s.withDev d) ∧ d.req? id = none ∧
        d.group? r.by_ = some g' ∧ Answered g g' [id] op (r.values fun p => l.bytes (p.pa % 128) p.size) ∧
        (∀ l', (d.core r.core).line? r.line = some l' → l'.owner = none → l'.data = l.data ∧
          l'.deadline ≤ r.leftAt + (l.deadline - s.dev.cycle)))) ∧
  (∀ (s : State) (id tgt : Nat) (r : Req) (t : Team), s.dev.req? id = some r → r.target = some tgt →
    s.dev.mayPerform r = true → s.dev.team? tgt = some t → t.scrLive = true →
    (∀ (op : Nat) (g : Group), r.kind = .load → r.owed = some op → s.dev.group? r.by_ = some g →
      ∃ (d : Dev) (g' : Group), exec (.scratchpadRemoteAccess id) s = .next (s.withDev d) ∧ d.req? id = none ∧
        d.mem = s.dev.mem ∧ d.group? r.by_ = some g' ∧ Answered g g' [id] op (r.values fun p => fgetBytes t.scr p.pa p.size)) ∧
    (r.kind = .store →
      ∃ (d : Dev) (t' : Team) (r' : Req), exec (.scratchpadRemoteAccess id) s = .next (s.withDev d) ∧ d.mem = s.dev.mem ∧
        d.team? tgt = some t' ∧ d.req? id = some r' ∧ r'.done = true ∧ (∀ b, fget 0 t'.scr b = partsByte r.parts (fget 0 t.scr b) b) ∧
        ∀ n u, n ≠ tgt → s.dev.team? n = some u → d.team? n = some u) ∧
    (∀ (n : Nat) (w64 : Bool) (p : Part) (op : Nat), r.kind = .atom n w64 → r.owed = some op → r.parts = [p] →
      ∃ (d : Dev) (t' : Team), exec (.scratchpadRemoteAccess id) s = .next (s.withDev d) ∧ d.req? id = none ∧
        d.team? tgt = some t' ∧ t'.scr = fsetBytes t.scr p.pa (natBytes p.size
          (atomNew n w64 (bytesNat (fgetBytes t.scr p.pa p.size)) p.data.toNat))))

/-- STORE_ANSWER, FLUSH_MARKER, SETTLE_DEADLINE and LEASE_EXPIRY (R239, R241, R246, R247): an answer's settle duration
counts from its arrival and joins the group's SETTLE; a marker answers once the place has performed every posted store
it gathers, and one to a peer with no live port raises PERM (R371); SETTLE ends when it has passed; an expired lease
doubles NL up to MAXL, never lowering it, unless a store has performed.

Watches (R278): WAITA's first access and its reading after a wake return a word that differs from the operand, and
watch a line whose word still equals it; WATCH_DROP returns the operand. -/
def Obligations.LeasesAndWatches : Prop :=
  ((∀ (s : State) (id : Nat) (r : Req) (g : Group), s.dev.req? id = some r → r.done = true → s.dev.group? r.by_ = some g →
    ∃ (d : Dev) (g' : Group), exec (.storeAnswer id) s = .next (s.withDev d) ∧ d.req? id = none ∧ d.mem = s.dev.mem ∧
      d.group? r.by_ = some g' ∧ g' = { g with settle := g'.settle } ∧
      (r.mt = .cacheable → ∃ t, g'.settle = some t ∧ s.dev.cycle + r.settle + drift r.settle ≤ t ∧
        (∀ t', g.settle = some t' → t' ≤ t)) ∧ (r.mt ≠ .cacheable → g' = g)) ∧
  (∀ (s : State) (r : GroupRef) (place : Nat) (g : Group) (m : Marker), s.dev.group? r = some g →
    g.markers.find? (fun x => x.place == place) = some m → (place < 64 ∨ s.dev.peerDead (place - 64) = false) →
    ((∃ q ∈ s.dev.reqs, q.by_ = r ∧ q.postedTo = some place ∧ q.id < m.before) → ∃ e, exec (.flushMarker r place) s = .refused e) ∧
    ((∀ q ∈ s.dev.reqs, q.by_ = r → q.postedTo = some place → m.before ≤ q.id) →
      ∃ (d : Dev) (g' : Group), exec (.flushMarker r place) s = .next (s.withDev d) ∧ d.group? r = some g' ∧
        g'.markers.length + 1 = g.markers.length ∧ g'.v = g.v ∧ g'.p = g.p ∧ g'.slices = g.slices ∧
        ∃ t, g'.settle = some t ∧ m.expiry ≤ t ∧ (∀ t', g.settle = some t' → t' ≤ t))) ∧
  (∀ (s : State) (r : GroupRef) (place : Nat) (g : Group) (m : Marker), s.dev.group? r = some g →
    g.markers.find? (fun x => x.place == place) = some m → 64 ≤ place → s.dev.peerDead (place - 64) = true →
    ∃ (d : Dev) (g' : Group) (a : AsyncCause), exec (.flushMarker r place) s = .next (s.withDev d) ∧ d.group? r = some g' ∧
      g'.markers.length + 1 = g.markers.length ∧ g'.async = g.async ++ [a] ∧ a.cause = .perm ∧ a.pc = m.pc ∧
      a.info = m.va % 2 ^ 48 ∧ g'.settle = g.settle) ∧
  (∀ (s : State) (r : GroupRef) (g : Group) (t : Nat), s.dev.group? r = some g → g.settle = some t → t < s.dev.cycle →
    ∃ d : Dev, exec (.settleDeadline r) s = .next (s.withDev d) ∧ d.group? r = some { g with settle := none }) ∧
  (∀ (s : State) (line : Nat), (s.dev.home line).leased = true → (s.dev.home line).expiry ≤ s.dev.cycle →
    ∃ d : Dev, exec (.leaseExpiry line) s = .next (s.withDev d) ∧ (∀ n, n ≠ line → d.home n = s.dev.home n) ∧ d.mem = s.dev.mem ∧
      d.home line = { s.dev.home line with
        leased := false, stored := false
        nl := if (s.dev.home line).stored = true then (s.dev.home line).nl
              else max (s.dev.home line).nl (min (2 * (s.dev.home line).nl) (s.dev.home line).maxl) })) ∧
  (∀ (s : State) (id op : Nat) (r : Req) (p : Part) (g : Group) (w64 : Bool), s.dev.req? id = some r → r.kind = .watch w64 →
    r.parts = [p] → r.owed = some op → s.dev.group? r.by_ = some g → r.target = none →
    let now := s.dev.rdBytes r.key p.pa p.size
    let ends := fun (ins : Instr) (bs : List Byte) => ∃ (d : Dev) (g' : Group), exec ins s = .next (s.withDev d) ∧
      d.req? id = none ∧ d.mem = s.dev.mem ∧ d.group? r.by_ = some g' ∧ Answered g g' [id] op (r.values fun _ => bs)
    let watches := fun (ins : Instr) => ∃ (d : Dev) (r' : Req), exec ins s = .next (s.withDev d) ∧ d.req? id = some r' ∧
      r'.watch = 1 ∧ d.mem = s.dev.mem ∧ d.teams = s.dev.teams
    (r.watch = 2 → bytesNat now ≠ p.cmp.toNat → ends (.waitaWake id) now) ∧
    (r.watch = 2 → bytesNat now = p.cmp.toNat → watches (.waitaWake id)) ∧
    (r.watch = 1 → ends (.watchDrop id) (natBytes p.size p.cmp.toNat)) ∧
    (s.dev.mayPerform r = true → s.dev.atHome r = true → s.dev.mates r = [r] → s.dev.unreachable (r.line * 128) = false →
      (bytesNat now ≠ p.cmp.toNat → ends (.homeAccess id) now) ∧ (bytesNat now = p.cmp.toNat → watches (.homeAccess id))))

namespace Sys2Proof.Machine

/-- Where a byte of the host's address range lies: in the device-memory range at its offset, otherwise in the host's own
memory, region 0x2 (R160, R362). -/
def hostPlace (hpa : Nat) : Nat := (hdmOffset hpa).getD (2 * 2 ^ 48 + hpa % 2 ^ 48)

end Sys2Proof.Machine

/-- ICACHE_FILL and PAGE_WALK (R68, R71, R164, R183): a line asked for joins the core's instruction cache with the bytes of
its home, unless one is uncorrectable; a walk that only a prefetch waits for fills the core's TLB when it succeeds, its
line then being asked for, and is dropped with no fault recorded when it fails.

HOST_MEM_WRITE, HOST_MEM_READ and HOST_SNOOP (R255 to R257, R362, R379): outside recovery each byte the host writes
is read there, under key 0, and every other byte as before, while the device's own areas keep theirs; a read changes no
byte and notes the host as holder of the lines it took, while their homes have tags left; a snoop takes the line from its home, after its leases, and ends
the watches on it. -/
def Obligations.FillsAndHost : Prop :=
  ((∀ (s : State) (core line : Nat) (f : Nat × BitVec 8), (s.dev.core core).fills.find? (fun x => x.1 == line) = some f →
    ∃ d : Dev, exec (.icacheFill core line) s = .next (s.withDev d) ∧ d.mem = s.dev.mem ∧ d.teams = s.dev.teams ∧
      (∀ x ∈ (d.core core).fills, x.1 ≠ line) ∧
      (s.dev.poisoned (line * 128) 128 = false →
        ∃ c ∈ (d.core core).icache, c.num = line ∧ c.data = s.dev.rdLine f.2 line) ∧
      (s.dev.poisoned (line * 128) 128 = true → (d.core core).icache = (s.dev.core core).icache)) ∧
  (∀ (s : State) (die : Nat) (w : Walk) (ws : List Walk), (s.dev.die die).walks = w :: ws → die < s.dev.dies.length →
    ∃ d : Dev, exec (.pageWalk die) s = .next (s.withDev d) ∧ (d.die die).walks = ws ∧ d.teams = s.dev.teams ∧ d.parts = s.dev.parts ∧
      (∀ key a, ¬(s.dev.core w.core).dirty (a / 128) → d.rd key a = s.dev.rd key a) ∧
      (∀ l, (s.dev.translate w.core w.pid w.asid w.va .r).2 = .ok l → l ∈ (d.core w.core).tlb))) ∧
  ((∀ (s : State) (hpa : Nat) (bytes : List Byte), s.fw.recovery = false → bytes.length ≤ 2 ^ 48 →
    ∃ d : Dev, exec (.hostMemWrite hpa bytes) s = .next (s.withDev d) ∧
      (∀ k b, bytes[k]? = some b → carveOut (hostPlace (hpa + k)) = false → d.rd 0 (hostPlace (hpa + k)) = b) ∧
      (∀ a, (∀ k, k < bytes.length → a ≠ hostPlace (hpa + k) ∨ carveOut a = true) → d.rd 0 a = s.dev.rd 0 a)) ∧
  (∀ (s : State) (hpa n : Nat), s.fw.recovery = false →
    ∃ d : Dev, exec (.hostMemRead hpa n) s = .next (s.withDev d) ∧ d.mem = s.dev.mem ∧ d.lineKey = s.dev.lineKey ∧ d.teams = s.dev.teams ∧
      (∀ pa, hdmOffset hpa = some pa → ∀ l ∈ linesOf pa n, carveOut (l * 128) = false →
        (s.dev.tagsAt (homeAt l)).length + (linesOf pa n).length ≤ 24576 → (d.home l).hostHas = true) ∧
      (hdmOffset hpa = none → d = s.dev)) ∧
  (∀ (s : State) (line : Nat), ∃ d : Dev, exec (.hostSnoop line) s = .next (s.withDev d) ∧ d.mem = s.dev.mem ∧
    d.home line = { s.dev.home line with owned := false, form := none, str := false } ∧ (∀ n, n ≠ line → d.home n = s.dev.home n) ∧
    (s.dev.cycle < (s.dev.home line).expiry → (s.dev.home line).expiry ≤ d.hostTill) ∧
    ∀ r ∈ d.reqs, r.watch = 1 → r.line ≠ line))

namespace Sys2Proof.Machine

/-! ## Copies -/

/-- The device with an issued word's group moved on and a fresh name used. -/
def Dev.issued (d : Dev) (i : Issuer) (region : Bool) : Dev :=
  { d.modGroup i.ref fun _ => i.grp.advance i.sp region with nextId := d.nextId + 1 }

/-- The operands of a linear copy: spaces, addresses, length, CRC, and whether a region begins (R197). -/
def linearOf (i : Issuer) : CpyForm → Option (Nat × Nat × Nat × Nat × Nat × Bool × BitVec 2 × BitVec 6)
  | .short dsp ssp dD dA len12 dd sd => some (dsp.toNat, ssp.toNat, (i.sca dD + (dd.setWidth 64 <<< 12)).toNat,
      (i.sca dA + (sd.setWidth 64 <<< 12)).toNat, 16 * (len12.toNat + 1), false, 0, 63)
  | .full dsp ssp mode cmp crc _ _ dD dA b c =>
    if mode = 0 then some (dsp.toNat, ssp.toNat, (i.sca dD).toNat, (i.sca dA).toNat, (i.sca b).toNat, crc, cmp, c) else none

/-- A form that may complete on an operand begins a region (R191, R321). -/
def copyRegion : Instr → Bool
  | .cpy (.full _ _ _ cmp ..) _ => cmp != 0
  | .cpg o => o.cmp != 0
  | _ => false

/-- The copy that a tensor or gather form makes of its record (R197, R198). -/
def boxOf (i : Issuer) (d : Dev) : Instr → Option (Guard × (Dev × List LaneFault × Option CopyAsk))
  | .cpy (.full dsp ssp mode cmp _ lb lbs dD dA b c) gd =>
    if mode = 1 then some (gd, d.tensorAsk i true dsp.toNat (i.sca dD).toNat (i.sca dA).toNat (if lb = true then some lbs.toNat else none)
      (i.coords b) (d.completion i cmp c))
    else if mode = 2 then some (gd, d.tensorAsk i false ssp.toNat (i.sca dA).toNat (i.sca dD).toNat none (i.coords b) (d.completion i cmp c))
    else none
  | .cpg o => some (o.g, d.gatherAsk i o)
  | _ => none

/-- A copy as it enters the unit (R191). -/
def FreshCopy (d : Dev) (i : Issuer) (gd : Guard) (c : Copy) : Prop :=
  c.id = d.nextId ∧ c.owner = .group i.ref none ∧ c.core = i.core ∧ c.pid = i.grid.pid ∧ c.asid = i.grid.asid ∧ c.pc = i.pc ∧
  c.held = false ∧ c.got = [] ∧ c.next = 0 ∧ c.stop = 0 ∧ some c.lane = (i.on gd).head?

end Sys2Proof.Machine

/-- Tensor coordinates and places (R187 to R189): a coordinate in range stands for itself; with repeats the range is
reflected about its edges, without them about its end elements, so that each is given by its period and its reflection;
places in the box and box indices correspond; the swizzle keeps 16-byte chunks whole, in their 128-byte row, and undoes
itself; BLOCK_TRANSFER's and every other linear copy's chunk moves 16 bytes to their place.

CPY and CPG (R186 to R198): without a participant the word only moves on; while the unit is full it waits; a linear
copy of aligned, allowed ranges enters the unit with every 16-byte chunk still to move; a tensor copy, a tensor store and
a gather enter as their record says, and a gather's length counts its participants. Nothing else changes.

COPY_COMPLETE, CPBAT and CPWAIT (R191 to R193, R199, R200): a copy whose every chunk is written completes, with an
arrival of no arrivals and its bytes, or by adding its bytes to the word of `.CNT`, a CRC having been stored beside that
word first, or silently; until then it does not.
CPBAT closes the group's pending copies as batch BSEQ + 1, whose number goes to the scalar, and waits before a 17th
incomplete batch. CPWAIT waits while a closed batch up to the number given is incomplete, and then what those batches have
written counts as stored by the group: it is among what the group has seen and what it has to settle (R254). -/
def Obligations.CopiesMove : Prop :=
  ((∀ (l : Layout) (n : Nat) (c : Int), 0 < n →
    (0 ≤ c ∧ c < n → l.mapCoord n c = some c.toNat) ∧
    (l.zero = true → (c < 0 ∨ n ≤ c) → l.mapCoord n c = none) ∧
    (l.zero = false → (∃ k, k < n ∧ l.mapCoord n c = some k) ∧
      (l.repeats = true → l.mapCoord n (-1 - c) = l.mapCoord n c ∧ l.mapCoord n (c + 2 * n) = l.mapCoord n c) ∧
      (l.repeats = false → l.mapCoord n (-c) = l.mapCoord n c ∧ l.mapCoord n (c + (2 * n - 2)) = l.mapCoord n c))) ∧
  (∀ (l : Layout) (e : Nat), l.rank ≤ 5 → (∀ k, l.rank ≤ k → l.box k = 1) → e < l.box 0 * l.box 1 * l.box 2 * l.box 3 * l.box 4 →
    (l.boxIndex e).length = l.rank ∧ (∀ k, k < l.rank → (l.boxIndex e).getD k 0 < l.box k) ∧ l.linear (l.boxIndex e) = e) ∧
  (∀ k x, k ≤ 3 → swizzle k (swizzle k x) = x ∧ swizzle k x / 128 = x / 128 ∧ swizzle k x % 16 = x % 16 ∧ swizzle 0 x = x) ∧
  (∀ (d : Dev) (c : Copy) (j t u so po : Nat) (x y : Team), c.kind = .linear → c.src = .scr t so → c.dst = .scr u po →
    d.team? t = some x → x.scrLive = true → d.team? u = some y → y.scrLive = true →
    ∃ (d' : Dev) (y' : Team), d.copyChunk c j = (d', .ok (fgetBytes x.scr (so + 16 * j) 16)) ∧ d'.team? u = some y' ∧ d'.mem = d.mem ∧
      y'.scr = fsetBytes y.scr (po + 16 * j) (fgetBytes x.scr (so + 16 * j) 16))) ∧
  ((∀ (s : State) (i : Issuer) (f : CpyForm) (o : CpgOp) (gd : Guard), s.dev.issuer? = some i →
    (i.on gd = [] → MakesGroup (.cpy f gd) s i fun g => g = i.grp.advance i.sp (copyRegion (.cpy f gd))) ∧
    (i.on o.g = [] → MakesGroup (.cpg o) s i fun g => g = i.grp.advance i.sp (copyRegion (.cpg o))) ∧
    (i.on gd ≠ [] → s.dev.copiesFull i.core = true → exec (.cpy f gd) s = .next s) ∧
    (i.on o.g ≠ [] → s.dev.copiesFull i.core = true → exec (.cpg o) s = .next s)) ∧
  (∀ (s : State) (i : Issuer) (f : CpyForm) (gd : Guard) (dsp ssp dst src len : Nat) (crc : Bool) (cmp : BitVec 2) (c : BitVec 6)
      (fin : Completion) (ds ss : Side),
    s.dev.issuer? = some i → linearOf i f = some (dsp, ssp, dst, src, len, crc, cmp, c) → i.on gd ≠ [] →
    s.dev.copiesFull i.core = false → dst % 16 = 0 → src % 16 = 0 → len % 16 = 0 → len ≤ 0x1000000 →
    s.dev.completion i cmp c = .ok fin → s.dev.sideAt i dsp dst len = .ok ds → s.dev.sideAt i ssp src len = .ok ss →
    (0 < len ∨ fin ≠ .none) →
    ∃ k : Copy, FreshCopy s.dev i gd k ∧ k.kind = .linear ∧ k.src = ss ∧ k.dst = ds ∧ k.bytes = len ∧
      k.left = List.range (len / 16) ∧ k.crc = crc ∧ k.fin = fin ∧
      exec (.cpy f gd) s = .next (s.withDev { s.dev.issued i (copyRegion (.cpy f gd)) with copies := s.dev.copies ++ [k] })) ∧
  (∀ (s : State) (i : Issuer) (ins : Instr) (gd : Guard) (d : Dev) (a : CopyAsk), s.dev.issuer? = some i → i.on gd ≠ [] →
    s.dev.copiesFull i.core = false → boxOf i s.dev ins = some (gd, d, [], some a) → (0 < a.bytes ∨ a.fin ≠ .none) →
    ∃ k : Copy, FreshCopy d i gd k ∧ k.kind = a.kind ∧ k.src = a.src ∧ k.dst = a.dst ∧ k.bytes = a.bytes ∧ k.left = a.left ∧
      k.crc = false ∧ k.fin = a.fin ∧ d.mem = s.dev.mem ∧ d.teams = s.dev.teams ∧ d.copies = s.dev.copies ∧
      exec ins s = .next (s.withDev { d.issued i (copyRegion ins) with copies := d.copies ++ [k] }) ∧
      (∀ o, ins = .cpg o → ∃ l : Layout, l.rank = 2 ∧ k.bytes = (i.on gd).length * (l.box 0 * l.esz) ∧
        k.kind = .gather l ((i.on gd).map fun x => (i.vec x o.b).toInt)))) ∧
  ((∀ (s : State) (id : Nat) (c : Copy) (g : GroupRef) (b : Option (BitVec 32)), s.dev.copy? id = some c → c.completes s.dev = true →
    c.owner = .group g b →
    (c.fin = .none → exec (.copyComplete id) s = .next (s.withDev (s.dev.dropCopy c.id))) ∧
    (∀ a, c.fin = .mb a → exec (.copyComplete id) s = .next (s.withDev
      { s.dev.dropCopy c.id with
        nextId := s.dev.nextId + 1
        arrivals := s.dev.arrivals ++ [{ id := s.dev.nextId, at_ := a, n := 0, bytes := c.bytes, sender := g.team }] })) ∧
    (∀ va d d' x, c.fin = .cnt va → c.crc = false → s.dev.engWord (c.core / 128) c.pid c.asid va = (d, .ok x) →
      d.engWrite (c.core / 128) c.pid c.asid va (wordBytes (x + BitVec.ofNat 64 c.bytes)) = (d', .ok ()) →
      exec (.copyComplete id) s = .next (s.withDev (d'.dropCopy c.id))) ∧
    (∀ va d', c.fin = .cnt va → c.crc = true →
      s.dev.engWrite (c.core / 128) c.pid c.asid (va + 8) (natBytes 8 (crc32c (fgetBytes c.got 0 c.bytes)).toNat) = (d', .ok ()) →
      exec (.copyComplete id) s = .next (s.withDev (d'.modCopy c.id fun x => { x with crc := false })))) ∧
  (∀ (s : State) (id : Nat) (c : Copy), s.dev.copy? id = some c → c.left ≠ [] → ∃ e, exec (.copyComplete id) s = .refused e) ∧
  (∀ (s : State) (i : Issuer) (sd : BitVec 6), s.dev.issuer? = some i →
    (s.dev.batchesFull i.ref = true → exec (.cpbat sd) s = .next s) ∧
    (s.dev.batchesFull i.ref = false → ∃ g : Group,
      Wrote i { i.grp.advance i.sp true with bseq := i.grp.bseq + 1 } g untouched untouched (fun k m =>
        if i.sp.mask.getLsbD k ∧ k < i.grp.slices.length ∧ m = sd.toNat ∧ m ≠ 63 then some ((i.grp.bseq + 1).setWidth 64) else none) ∧
      let close := fun (c : Copy) => if c.owner = .group i.ref none then { c with owner := .group i.ref (some (i.grp.bseq + 1)) } else c
      let shut := fun (u : Unsettled) => if u.by_ = i.ref ∧ u.copy = true ∧ u.batch = none then
        { u with batch := some (i.grp.bseq + 1) } else u
      exec (.cpbat sd) s = .next (s.withDev ({ s.dev with
        copies := s.dev.copies.map close, unsettled := s.dev.unsettled.map shut }.modGroup i.ref fun _ => g)))) ∧
  (∀ (s : State) (i : Issuer) (src : BitVec 6 ⊕ BitVec 32), s.dev.issuer? = some i →
    let n : BitVec 32 := match src with
      | .inl a => (i.sca a).setWidth 32
      | .inr x => x
    let waits := ∃ c ∈ s.dev.copies, ∃ b, c.owner = .group i.ref (some b) ∧ (n - b).msb = false
    MakesGroup (.cpwait src) s i fun g => g.v = i.grp.v ∧ g.p = i.grp.p ∧
      (waits → g.slices = i.grp.slices ∧ ∀ x ∈ g.splits, x.stamp = i.sp.stamp → ∃ m, x.wait = .word m) ∧
      (¬waits → Passed i g ∧ ∀ u ∈ s.dev.unsettled, u.by_ = i.ref → u.copy = true → (∃ b, u.batch = some b ∧ (n - b).msb = false) →
        s.dev.cycle < u.v.till → (∃ t, g.settle = some t ∧ u.v.till ≤ t) ∧
          ∃ v ∈ g.seen, v.line = u.v.line ∧ u.v.asOf ≤ v.asOf ∧ u.v.till ≤ v.till)))

namespace Sys2Proof.Machine

/-! ## Class 10 -/

/-- What MMA and MMAH ask of their group: one split, and every lane of the launch active (R202). -/
def Issuer.whole (i : Issuer) : Prop := i.grp.splits.length = 1 ∧ i.active.length = i.grid.launch.width

/-- The device with an operation in its matrix unit's queue (R214). -/
def Dev.queued (d : Dev) (i : Issuer) (m : MatOp) : Dev := { d.issued i true with mats := d.mats ++ [m] }

/-- An operation of the issuer as it enters its queue. -/
def FreshMat (d : Dev) (i : Issuer) (t : Nat) (m : MatOp) : Prop :=
  m.id = d.nextId ∧ m.by_ = i.ref ∧ m.core = i.core ∧ m.sextant = i.grp.sextant ∧ m.pid = i.grid.pid ∧ m.asid = i.grid.asid ∧
  m.pc = i.pc ∧ m.tile = t ∧ m.skip = [] ∧ m.rows = [] ∧ m.cols = []

/-- The group of a split that finds its group not whole: its word has been counted, and it stands there till the handler has
returned (R94, R327). -/
def Issuer.convGroup (i : Issuer) (id : Nat) : Group :=
  let g := i.grp.countOnce i.sp
  if i.sp.wait = .ready then g.modSplit i.sp.stamp fun x => { x with wait := .word id, counted := true } else g

/-- ILLCONV with a subcode, over the active lanes of every split, taken by the oldest (R94). -/
def RaisesConv (ins : Instr) (s : State) (i : Issuer) (sub : BitVec 8) : Prop :=
  ∀ y, oldest (i.convGroup s.dev.nextId).splits = some y →
    exec ins s = .next (s.withDev (s.dev.trap { i with grp := i.convGroup s.dev.nextId, sp := { y with counted := true } }
      { cause := .illconv, sub, mask := laneMask (i.grp.splits.flatMap i.grp.activeLanes), src := .instruction, info := 0, pc := i.pc }))

/-- Byte `q` of element-register `j` of lane `l` in a tile's image (R204). -/
def tileByte (n l j q : Nat) : Nat := 1024 * n + 512 * (j / 4) + 16 * l + 4 * (j % 4) + q

end Sys2Proof.Machine

/-- Class 10 (R201, R202, R211 to R213, R217 to R220): MMA, MMAH, ACLR and AFILL enter their unit's queue with their
operands as they stand at issue, wait while it holds 16, and change no register; ACLR and AFILL without a participant do
nothing. MFENCE waits for results owed to its registers, MWAIT for the group's operations on its tile or on all. AMOV
moves eight registers of each participant to or from the tile's bytes when no operation of the group is queued on it.
MMA and MMAH raise ILLCONV 0x01 in a group that is not one split, and 0x02 when a lane of it is not active.

MATRIX_OP_COMPLETE and MMAH_FETCH (R201, R206, R208 to R210, R213, R214): the oldest operation of a unit with all it
needs writes its tiles, and only them, and leaves the queue; a later one does not complete before it. An INT8 product
adds, block by block of 32, the exact sum of the products, clamped to 32 bits. B's bytes are read a 32-byte sector at a
time, and the fetch is done when no sector is left.

ADRAIN (R221): with its tiles within the team's, its stride a multiple of 16 and no piece failing, it completes: every
16-byte piece is sent to its home, or written in the team's own scratchpad; registers and predicates stay; with a
maximum, a reduction of each row's greatest magnitude is sent behind a release; without a participant it does nothing.
In `.F32` the piece at row r, place q holds the tile's bytes, which with no operation queued on the tile are those it
holds. -/
def Obligations.MatrixUnits : Prop :=
  ((∀ (s : State) (i : Issuer) (o : MmaOp) (a b : Operand), s.dev.issuer? = some i → i.whole →
    i.operand o false = ([], a) → i.operand o true = ([], b) →
    o.d.toNat + 1 ≤ 16 * i.grid.launch.accu →
    (s.dev.matFull i = true → exec (.mma o) s = .next s) ∧
    (s.dev.matFull i = false → ∃ m : MatOp, FreshMat s.dev i o.d.toNat m ∧
      m.kind = .mma o a b (scalesOf o (i.lanesOf o.c.toNat)) (scalesOf o (i.lanesOf (o.c.toNat + 1))) ∧ exec (.mma o) s = .next (s.withDev (s.dev.queued i m)))) ∧
  (∀ (s : State) (i : Issuer) (o : MmaOp) (a : Operand) (d : Dev) (l : Layout) (k0 n0 : Word32), s.dev.issuer? = some i → i.whole →
    i.operand o false = ([], a) → o.d.toNat + 1 ≤ 16 * i.grid.launch.accu →
    s.dev.readLayout i ((i.sca (o.b.setWidth 6)).toNat % 2 ^ 48) = (d, .ok l) → n0 ++ k0 = i.sca (o.b.setWidth 6 + 1) →
    let b : HostB := { rec_ := (i.sca (o.b.setWidth 6)).toNat % 2 ^ 48, l, k0 := k0.toInt, n0 := n0.toInt, todo := none, got := []
                       fetched := false, held := false }
    hostBOk o b = true →
    (s.dev.matFull i = true → exec (.mmah o) s = .next s) ∧
    (s.dev.matFull i = false → ∃ m : MatOp, FreshMat d i o.d.toNat m ∧ m.kind = .mmah o a (scalesOf o (i.lanesOf o.c.toNat)) b ∧
      d.mem = s.dev.mem ∧ d.teams = s.dev.teams ∧ exec (.mmah o) s = .next (s.withDev (d.queued i m)))) ∧
  (∀ (s : State) (i : Issuer) (o : MmaOp), s.dev.issuer? = some i → i.grp.splits.length ≠ 1 → ∀ ins ∈ [Instr.mma o, .mmah o],
    RaisesConv ins s i 1) ∧
  (∀ (s : State) (i : Issuer) (o : MmaOp), s.dev.issuer? = some i → i.grp.splits.length = 1 →
    i.active.length ≠ i.grid.launch.width → ∀ ins ∈ [Instr.mma o, .mmah o], RaisesConv ins s i 2) ∧
  (∀ (s : State) (i : Issuer) (t : BitVec 8) (n1 : BitVec 4) (gd : Guard) (ins : Instr) (w : Word64), s.dev.issuer? = some i →
    ((ins = .aclr t n1 gd ∧ w = 0) ∨ (∃ sa, ins = .afill true t sa n1 gd ∧ w = i.sca sa) ∨
      (∃ sa, ins = .afill false t sa n1 gd ∧ w = ((i.sca sa).extractLsb' 0 32 ++ (i.sca sa).extractLsb' 0 32 : BitVec 64))) →
    (i.on gd = [] → MakesGroup ins s i fun g => g = i.grp.advance i.sp true) ∧
    (i.on gd ≠ [] → t.toNat + n1.toNat + 1 ≤ 16 * i.grid.launch.accu →
      (s.dev.matFull i = true → exec ins s = .next s) ∧
      (s.dev.matFull i = false → ∃ m : MatOp, FreshMat s.dev i t.toNat m ∧ m.kind = .fill (n1.toNat + 1) w ∧
        exec ins s = .next (s.withDev (s.dev.queued i m))))) ∧
  (∀ (s : State) (i : Issuer) (va : BitVec 8) (n1 : BitVec 4), s.dev.issuer? = some i →
    let waits := ∃ o ∈ i.grp.owed, ∃ it ∈ o.items, ∃ l r, it.dest = .v l r ∧ i.sp.mask.getLsbD (l / 4) = true ∧
      va.toNat ≤ r ∧ r ≤ va.toNat + n1.toNat
    (waits → MakesGroup (.mfence va n1) s i fun g => g = i.grp.await i.sp (.word s.dev.nextId)) ∧
    (¬waits → MakesGroup (.mfence va n1) s i fun g => g = i.grp.advance i.sp false)) ∧
  (∀ (s : State) (i : Issuer) (t : BitVec 8) (all : Bool), s.dev.issuer? = some i →
    (all = true ∨ t.toNat + 1 ≤ 16 * i.grid.launch.accu) →
    let waits := ∃ m ∈ s.dev.mats, m.by_ = i.ref ∧ (all = true ∨ m.covers t.toNat = true)
    (waits → MakesGroup (.mwait t all) s i fun g => g = i.grp.await i.sp (.word s.dev.nextId)) ∧
    (¬waits → MakesGroup (.mwait t all) s i fun g => g = i.grp.advance i.sp false)) ∧
  (∀ (s : State) (i : Issuer) (v t : BitVec 8) (gd : Guard), s.dev.issuer? = some i → (Instr.amov false v t gd).wf i.lc = true →
    t.toNat + 1 ≤ 16 * i.grid.launch.accu → s.dev.matOpen i.ref t.toNat false = false →
    MakesGroup (.amov false v t gd) s i fun g => Wrote i (i.grp.advance i.sp false) g (fun l m =>
      if l ∈ i.on gd ∧ v.toNat ≤ m ∧ m < v.toNat + 8 ∧ m ≠ 255 then
        some (BitVec.ofNat 32 (bytesNat (fgetBytes i.team.tiles (tileByte t.toNat l (m - v.toNat) 0) 4))) else none) untouched untouched) ∧
  (∀ (s : State) (i : Issuer) (v t : BitVec 8) (gd : Guard), s.dev.issuer? = some i → t.toNat + 1 ≤ 16 * i.grid.launch.accu →
    s.dev.matOpen i.ref t.toNat false = false →
    ∃ F : FMap Byte → FMap Byte, exec (.amov true v t gd) s = .next (s.withDev
        ((s.dev.modTeam i.ref.team fun x => { x with tiles := F x.tiles }).modGroup i.ref fun _ => i.grp.advance i.sp false)) ∧
      ∀ old, (∀ l ∈ i.on gd, ∀ j, j < 8 → ∀ q, q < 4 → fget 0 (F old) (tileByte t.toNat l j q) =
        (i.grp.readV i.fresh l (v.toNat + j)).extractLsb' (8 * q) 8) ∧
      ∀ k, (∀ l ∈ i.on gd, ∀ j, j < 8 → ∀ q, q < 4 → k ≠ tileByte t.toNat l j q) → fget 0 (F old) k = fget 0 old k)) ∧
  ((∀ (s : State) (id : Nat) (m : MatOp) (t : Team) (ws : List (Nat × List Byte)), s.dev.mat? id = some m →
    ((s.dev.matQueue m.core m.sextant).head?.map fun x => x.id) = some id → s.dev.team? m.by_.team = some t →
    (s.dev.sampled m).result t.tile = some ws → m.skip = [] →
    ∃ (d : Dev) (t' : Team), exec (.matrixOpComplete id) s = .next (s.withDev d) ∧ d.team? m.by_.team = some t' ∧ d.mat? m.id = none ∧
      d.mem = s.dev.mem ∧ d.copies = s.dev.copies ∧ t'.scr = t.scr ∧
      (∀ (k : Nat) (w : Word64), m.kind = .fill k w → ∀ b, fget 0 t'.tiles b =
        if 1024 * m.tile ≤ b ∧ b < 1024 * (m.tile + k) then w.extractLsb' (8 * (b % 8)) 8 else fget 0 t.tiles b) ∧
      ((∀ k w, m.kind ≠ .fill k w) → ∃ bs, ws = [(m.tile, bs)] ∧ bs.length = 1024 ∧ ∀ b, fget 0 t'.tiles b =
        if 1024 * m.tile ≤ b ∧ b < 1024 * (m.tile + 1) then bs.getD (b - 1024 * m.tile) 0 else fget 0 t.tiles b)) ∧
  (∀ (s : State) (id : Nat) (m : MatOp), s.dev.mat? id = some m →
    ((s.dev.matQueue m.core m.sextant).head?.map fun x => x.id) ≠ some id → ∃ e, exec (.matrixOpComplete id) s = .refused e) ∧
  (∀ (zs : Bool) (x : MatIn) (i j acc : Nat), (∀ r k, x.sa r k = 127 ∧ x.sb r k = 127 ∧ x.a r k < 256 ∧ x.b r k < 256) → acc < 2 ^ 32 →
    let byte := fun (w : Nat) => (BitVec.ofNat 8 w).toInt
    let clamp := fun (e : Int) => max (-2 ^ 31) (min (2 ^ 31 - 1) e)
    let block := fun (b : Nat) => ((List.range 32).map fun k => byte (x.a i (32 * b + k)) * byte (x.b j (32 * b + k))).sum
    (BitVec.ofNat 32 (matElem 5 zs x i j acc)).toInt = clamp (clamp ((BitVec.ofNat 32 acc).toInt + block 0) + block 1)) ∧
  (∀ (s : State) (id : Nat) (m : MatOp) (o : MmaOp) (b : HostB), s.dev.mat? id = some m → m.hostB? = some (o, b) → b.fetched = false →
    (b.todo = some [] → ∃ d' : Dev, exec (.mmahFetch id) s = .next (s.withDev d') ∧ d'.mem = s.dev.mem ∧ d'.teams = s.dev.teams ∧
      ∃ m', d'.mat? id = some m' ∧ m'.hostB? = some (o, { b with fetched := true }) ∧ m'.tile = m.tile ∧ m'.by_ = m.by_) ∧
    (b.todo ≠ some [] → ∃ e, exec (.mmahFetch id) s = .refused e)) ∧
  (∀ (d d' : Dev) (id a : Nat) (m : MatOp) (o : MmaOp) (b : HostB) (bs : List Byte), d.mat? id = some m → m.hostB? = some (o, b) →
    b.held = false → d.mayFetch m = true → b.todo = some [a] →
    d.engRead (m.core / 128) m.pid m.asid a (32 - a % 32) = (d', .ok bs) →
    d.fetchStep id = some (d'.modMat id (·.setB fun b => { b with got := fsetBytes b.got a bs, todo := some [] })))) ∧
  ((∀ (s : State) (i : Issuer) (o : DrainOp), s.dev.issuer? = some i → i.on o.g = [] →
    MakesGroup (.adrain o) s i fun g => g = i.grp.advance i.sp false) ∧
  (∀ (s : State) (i : Issuer) (o : DrainOp) (d : Dev) (str : Word64) (ok : List (List Piece × List Byte)), s.dev.issuer? = some i →
    i.on o.g ≠ [] → o.scope = none → o.a.toNat + (if o.fmt = 4 then 2 else 1) ≤ 16 * i.grid.launch.accu →
    str = (if i.sca o.b = 0 then BitVec.ofNat 64 (drainShape o.fmt.toNat).2 else i.sca o.b) → str.toNat % 16 = 0 →
    let ks := if o.fmt = 5 then (List.range 512).map (512 * (if o.h then 1 else 0) + ·) else List.range 1024
    let t1 := (s.dev.readTile i o.a.toNat ks).2
    let t2 := if o.fmt = 4 then ((s.dev.readTile i o.a.toNat ks).1.readTile i (o.a.toNat + 1) ks).2 else t1
    s.dev.checkPieces i (if o.dspS = true then .s else .g) (drainPieces o t1 t2 (i.sca o.d) str) = (d, [], ok) →
    ∃ (d' : Dev) (g : Group), exec (.adrain o) s = .next (s.withDev d') ∧ d'.group? i.ref = some g ∧ Passed i g ∧
      (∀ x ∈ ok, ∀ p ∈ x.1, ∀ pa leaf, p.loc = .mem pa leaf → Asked d' i s.dev.nextId ((i.on o.g).headD 0) p .store fun r y =>
        y.data = BitVec.ofNat 128 (bytesNat ((x.2.drop p.off).take p.len)) ∧ r.owed = none ∧ r.held = false) ∧
      (o.dspS = true → s.dev.scrBusy i = false → ∃ t, d'.team? i.ref.team = some t ∧
        t.scr = (ok.flatMap fun x => x.1.map fun p => (x.2, p)).foldl (fun m (bs, p) => match p.loc with
          | .scr u a => if u = i.ref.team then fsetBytes m a ((bs.drop p.off).take p.len) else m
          | .mem .. => m) i.team.scr)) ∧
  (∀ (d : Dev) (i : Issuer) (n : Nat) (ks : List Nat), d.matOpen i.ref n false = false →
    (d.readTile i n ks).2 = fgetBytes i.team.tiles (1024 * n) 1024) ∧
  (∀ (o : DrainOp) (t1 t2 : List Byte) (base str : Word64) (r q : Nat), o.fmt = 0 → r < 16 → q < 4 →
    ((base + BitVec.ofNat 64 r * str + BitVec.ofNat 64 (16 * q)).toNat, (t1.drop (64 * r + 16 * q)).take 16)
      ∈ drainPieces o t1 t2 base str))

namespace Sys2Proof.Machine

/-! ## Near memory -/

/-- What a unit's write of a sector leaves (R224, R228): an element of it that no other overlaps stands as the entry
computes it, and no line without an element of it changes. -/
def ZWrote (c : ZCall) (l : Leaf) (sec : Nat) (d d' : Dev) : Prop :=
  (∀ key b, (∀ x ∈ c.sectorElems sec, b / 128 ≠ l.paOf x.1 / 128 ∧ b / 128 ≠ (l.paOf x.1 + c.esz - 1) / 128) → d'.rd key b = d.rd key b) ∧
  ∀ x ∈ c.sectorElems sec, (∀ y ∈ c.sectorElems sec, y ≠ x → l.paOf y.1 + c.esz ≤ l.paOf x.1 ∨ l.paOf x.1 + c.esz ≤ l.paOf y.1) →
    d'.rdNat l.key (l.paOf x.1) c.esz = c.result d.fresh x.2.1 x.2.2.1 x.2.2.2 % 256 ^ c.esz

end Sys2Proof.Machine

/-- NMCALL and NMCLOSE, the start and end of a call, and the acknowledgement of a close (R222 to R232): an accepted call
joins the team's open round, or opens one, and the word moves on; a full round, or an update of the control store,
holds it. The units read and write a 32-byte sector at a time, each written as the entry says from elements already read,
and the call ends when none is left; an uncorrectable error ends it at once and counts. A close is acknowledged once every
call has ended and every lease on what it wrote has lapsed, with the round's counts; a close without a round is
acknowledged at once with zeros. Entries 0 to 3 fill, copy, scale and add; 6 and 7 sum products and elements in a unit's
ascending address order. -/
def Obligations.NearMemoryCalls : Prop :=
  (∀ (s : State) (i : Issuer) (o : NmcallOp), s.dev.issuer? = some i →
    (i.on o.g = [] → MakesGroup (.nmcall o) s i fun g => g = i.grp.advance i.sp true) ∧
    (i.on o.g ≠ [] → s.dev.callHeld i = true → exec (.nmcall o) s = .next s) ∧
    ∀ (d : Dev) (c : ZCall) (area : Option (Nat × Nat)) (obj : Option ArriveAt), i.on o.g ≠ [] → s.dev.callHeld i = false →
      s.dev.acceptCall i.core i.grid.pid i.grid.asid o.ent.toNat o.f64 ((List.range 6).map fun k => i.sca (o.a + BitVec.ofNat 6 k))
        (i.sca o.b) = (d, .ok c) →
      (if (s.dev.zentry i.die o.ent.toNat).res = true ∧ o.d ≠ 63 then (d.areaAt i o.d 512).map some else .ok none) = .ok area →
      (if o.c = 63 then .ok none else (d.objectAt i o.c).map some) = .ok obj →
      ∃ (d' : Dev) (r : Round) (k : ZCall), exec (.nmcall o) s = .next (s.withDev d') ∧
        d'.group? i.ref = some (i.grp.advance i.sp true) ∧ d'.mem = s.dev.mem ∧ d'.openRound? (.team i.ref.team) = some r ∧
        r.ncall = ((s.dev.openRound? (.team i.ref.team)).map fun x => x.ncall).getD 0 + 1 ∧
        r.calls = ((s.dev.openRound? (.team i.ref.team)).map fun x => x.calls).getD [] ++ [k] ∧
        k = { c with id := k.id, by_ := some i.ref, sender := i.ref.team, pc := i.pc, area
                     arrive := if area.isSome = true then obj else none }) ∧
  (∀ (s : State) (i : Issuer) (a d_ : BitVec 6) (gd : Guard) (area : Option (Nat × Nat)) (obj : Option ArriveAt),
    s.dev.issuer? = some i →
    (i.on gd = [] → MakesGroup (.nmclose a d_ gd) s i fun g => g = i.grp.advance i.sp true) ∧
    (i.on gd ≠ [] → (if d_ = 63 then .ok none else (s.dev.areaAt i d_ 8).map some) = .ok area →
      (if a = 63 then .ok none else (s.dev.objectAt i a).map some) = .ok obj →
      ∃ d' : Dev, exec (.nmclose a d_ gd) s = .next (s.withDev (d'.modGroup i.ref fun _ => i.grp.advance i.sp true)) ∧ d'.mem = s.dev.mem ∧
        (∀ r, s.dev.openRound? (.team i.ref.team) = some r → d' = s.dev.modRound r.id fun r =>
          { r with closedAt := some s.dev.cycle, status := area, arrive := obj }) ∧
        (s.dev.openRound? (.team i.ref.team) = none → d'.rounds = s.dev.rounds ∧
          (∀ t off x, area = some (t, off) → s.dev.team? t = some x → x.scrLive = true → ∃ y, d'.team? t = some y ∧
            y.scr = fsetBytes x.scr off (List.replicate 8 0)) ∧
          (∀ x, obj = some x → d'.arrivals = s.dev.arrivals ++
            [{ id := s.dev.nextId, at_ := x, n := 0, bytes := 8, sender := i.ref.team }])))) ∧
  (∀ (s : State) (id : Nat) (r : Round) (c : ZCall), s.dev.call? id = some (r, c) → s.dev.roundAway r = false →
    (c.started = false → r.mayStart c = true → ∃ (d : Dev) (r' : Round), exec (.zitherCallStart id) s = .next (s.withDev d) ∧
      d.mem = s.dev.mem ∧ d.call? id = some (r', { c with
        started := true, left := c.sectors c.inputs, out := c.sectors (c.writes.map (·.2)) })) ∧
    (c.started = true → c.ended = false → c.left = [] → c.out = [] →
      ∃ (d : Dev) (c' : ZCall) (r' : Round), exec (.zitherCallEnd id) s = .next (s.withDev d) ∧ d.mem = s.dev.mem ∧
        d.call? id = some (r', c') ∧ c' = { c with ended := true, sums := c'.sums } ∧
        ((s.dev.zentry r.die c.ent).res = true → c'.sums.length = 64 ∧ ∀ u, u < 64 →
          (c.ent = 6 → c'.sums[u]? = some (BitVec.ofNat 64 ((c.unitElems u).foldl (fun S x => fmaWord .rne f64
            (c.wide (c.elemOf (c.readVec 0) x.1 x.2)) (c.wide (c.elemOf (c.readVec 1) x.1 x.2)) S) 0))) ∧
          (c.ent = 7 → c'.sums[u]? = some (BitVec.ofNat 64 ((c.unitElems u).foldl (fun S x => addWord .rne f64 S
            (c.wide (c.elemOf (c.readVec 0) x.1 x.2))) 0))))) ∧
    ((c.left ≠ [] ∨ c.out ≠ []) → ∃ e, exec (.zitherCallEnd id) s = .refused e)) ∧
  (∀ (d : Dev) (id sec : Nat) (r : Round) (c : ZCall) (l : Leaf), d.call? id = some (r, c) → d.roundAway r = false → c.started = true →
    c.ended = false → c.leaf? (32 * sec) = some l →
    (c.left = [sec] → c.out.filter c.inputsRead = [] → d.poisoned (l.paOf (32 * sec)) 32 = false → ∃ (d' : Dev) (r' : Round),
      d.zitherStep id = some d' ∧ d'.mem = d.mem ∧ d'.call? id = some (r', { c with
        left := [], got := fsetBytes c.got (32 * sec) (d.rdBytes l.key (l.paOf (32 * sec)) 32) })) ∧
    (c.left = [] → c.out = [sec] → d.poisoned (l.paOf (32 * sec)) 32 = false → ∃ (d' : Dev) (r' : Round),
      d.zitherStep id = some d' ∧ ZWrote c l sec d d' ∧ d'.call? id = some (r', { c with out := [] })) ∧
    ((c.left = [sec] ∧ c.out.filter c.inputsRead = [] ∨ c.left = [] ∧ c.out = [sec]) → d.poisoned (l.paOf (32 * sec)) 32 = true →
      ∃ (d' : Dev) (r' : Round) (c' : ZCall), d.zitherStep id = some d' ∧ d'.mem = d.mem ∧ d'.call? id = some (r', c') ∧
        c'.ended = true ∧ c'.sums = c.sums ∧ r'.nerr = r.nerr + 1)) ∧
  (∀ (s : State) (id : Nat) (r : Round) (t : Nat), s.dev.round? id = some r → r.owner = .team t → s.dev.roundAway r = false →
    (s.dev.roundQuiet r = false → ∃ e, exec (.roundCloseAck id) s = .refused e) ∧
    (s.dev.roundQuiet r = true → ∃ d : Dev, exec (.roundCloseAck id) s = .next (s.withDev d) ∧ d.mem = s.dev.mem ∧
      d.rounds = s.dev.rounds.filter (fun x => x.id != id) ∧
      (∀ x, r.arrive = some x → d.arrivals = s.dev.arrivals ++ [{ id := s.dev.nextId, at_ := x, n := 0, bytes := 8, sender := t }]) ∧
      (∀ u off x, r.status = some (u, off) → s.dev.team? u = some x → x.scrLive = true → r.ncall < 2 ^ 16 → r.units.length < 2 ^ 16 →
        ∃ (y : Team) (w : Word64), d.team? u = some y ∧ y.scr = fsetBytes x.scr off (wordBytes w) ∧ (w.extractLsb' 32 16).toNat = r.ncall ∧
          (w.extractLsb' 16 16).toNat = r.units.length ∧ (w.extractLsb' 8 8).toNat = min 255 r.nerr ∧
          (w.extractLsb' 0 8).toNat = (if r.nerr = 0 then 0 else 6)))) ∧
  (∀ (c : ZCall) (n k r i : Nat), let x := fun (v : Nat) => c.elemOf (c.readVec v) r i
    let q := fun (k : Nat) => c.fmt.roundTo .rne false (f64.value (c.args.getD k 0).toNat)
    (c.ent = 0 → c.result n k r i = (c.args.getD 1 0).toNat % 256 ^ c.esz) ∧ (c.ent = 1 → c.result n k r i = x 1) ∧
    (c.ent = 2 → c.result n k r i = mulWord .rne c.fmt (q 2) (x 1)) ∧
    (c.ent = 3 → c.result n k r i = fmaWord .rne c.fmt (q 3) (x 1) (mulWord .rne c.fmt (q 4) (x 2))))

/-- EMBAG and EMBAG_COMPLETE (R235 to R237): a bag whose checks pass is taken up with what they found, and the word moves
on; without a participant it does nothing. Its lists are read a 32-byte sector at a time. A bag is then pooled: NaN where a
list or a row it needs is poisoned, 0 for a bag that names no row of the table, and otherwise the reduction over its rows,
each buffer's rows in list order and then the buffers in theirs; and its words are written to the team's scratchpad in
16-byte chunks. When nothing is left it completes, and the arrival counts its bytes. A team past its retirement's seventh
step receives nothing. -/
def Obligations.EmbedsBags : Prop :=
  (∀ (s : State) (i : Issuer) (red : BitVec 2) (o : Sc4), s.dev.issuer? = some i →
    (i.on o.g = [] → MakesGroup (.embag red o) s i fun g => g = i.grp.advance i.sp true) ∧
    ∀ (d : Dev) (e : Embag), i.on o.g ≠ [] → s.dev.acceptBag i red o = (d, .ok e) →
      d.mem = s.dev.mem ∧ d.teams = s.dev.teams ∧ e.red = red ∧ e.by_ = i.ref ∧ 0 < e.nbag ∧ e.nbag ≤ 65536 ∧ e.offs.length = e.nbag + 1 ∧
      e.bags = List.range e.nbag ∧ e.chunks = [] ∧ e.got = [] ∧
      exec (.embag red o) s = .next (s.withDev { d.issued i true with embags := d.embags ++ [{ e with id := d.nextId }] })) ∧
  (∀ (s : State) (id : Nat) (e : Embag), s.dev.embags.find? (fun x => x.id == id) = some e →
    (e.left = [] → e.bags = [] → e.chunks = [] →
      ∃ d : Dev, exec (.embagComplete id) s = .next (s.withDev d) ∧ d.mem = s.dev.mem ∧
        d.embags = s.dev.embags.filter (fun x => x.id != id) ∧
        (∀ n, (d.team? n).map (fun t => (t.scr, t.tiles)) = (s.dev.team? n).map (fun t => (t.scr, t.tiles))) ∧
        (∀ t x, s.dev.team? e.out.1 = some t → t.scrLive = true → e.arrive = some x → d.arrivals = s.dev.arrivals ++
          [{ id := s.dev.nextId, at_ := x, n := 0, bytes := (4 * e.nbag * e.dim : Nat), sender := e.by_.team }]) ∧
        (∀ t, s.dev.team? e.out.1 = some t → t.scrLive = true → e.ecc = false → d.teams = s.dev.teams) ∧
        ((∀ t, s.dev.team? e.out.1 = some t → t.scrLive = false) → d.arrivals = s.dev.arrivals)) ∧
    ((e.left ≠ [] ∨ e.bags ≠ [] ∨ e.chunks ≠ []) → ∃ x, exec (.embagComplete id) s = .refused x)) ∧
  (∀ (d : Dev) (id : Nat) (e : Embag), d.embags.find? (fun x => x.id == id) = some e →
    (∀ sec, e.left = [sec] → d.bagStep id = some (d.modBag id fun _ => d.bagList e sec)) ∧
    (∀ sec l, ((e.idx :: e.wts.toList).flatMap (·.pages)).find? (fun l => l.base ≤ 32 * sec ∧ 32 * sec < l.base + l.size) = some l →
      d.poisoned (l.paOf (32 * sec)) 32 = false → d.bagList e sec = { e with
        left := e.left.filter (· != sec), got := fsetBytes e.got (32 * sec) (d.rdBytes l.key (l.paOf (32 * sec)) 32) }) ∧
    (∀ k, e.left = [] → e.bags = [k] → e.chunks = [] → d.bagStep id = some (d.modBag id fun _ => d.poolBag e k)) ∧
    (∀ o bs t, e.left = [] → e.bags = [] → e.chunks = [(o, bs)] → d.team? e.out.1 = some t → t.scrLive = true →
      ∃ d' : Dev, d.bagStep id = some d' ∧ d'.mem = d.mem ∧ ∃ t', d'.team? e.out.1 = some t' ∧ t'.tiles = t.tiles ∧
        t'.scr = fsetBytes t.scr (e.out.2 + o) bs)) ∧
  (∀ (d : Dev) (e : Embag) (k : Nat), e.dim % 4 = 0 →
    let p := d.poolBag e k
    let new := p.chunks.drop e.chunks.length
    p.bags = e.bags.filter (· != k) ∧ p.chunks = e.chunks ++ new ∧ (new.flatMap (·.2)) = (d.bagWords e k).2.flatMap (natBytes 4) ∧
    (∀ (n o : Nat) (bs : List Byte), new[n]? = some (o, bs) → o = 4 * k * e.dim + 16 * n ∧ bs.length = 16) ∧
    (e.bad = true → ∀ w ∈ (d.bagWords e k).2, w = Machine.f32.nan) ∧
    (e.bad = false → d.poison = [] → (d.bagWords e k).2.length = e.dim ∧ ∀ j, j < e.dim →
        let rows := ((List.range (e.offs.getD (k + 1) 0 - e.offs.getD k 0)).map fun n =>
          (e.word e.idx (e.offs.getD k 0 + n), e.offs.getD k 0 + n)).filter fun x => decide (x.1 < e.rows)
        let sum := fun (a b : Nat) => Machine.f32.roundTo .rne false ((Machine.f32.value a).add .rne (Machine.f32.value b))
        let most := fun (a b : Nat) => Machine.f32.minMax true a b
        let val := fun (x : Nat × Nat) => d.bagElem e x.1 j
        let mine := fun (b : Nat) => rows.filter fun x => x.1 % 8 == b
        let used := (List.range 8).filter fun b => !(mine b).isEmpty
        (d.bagWords e k).2[j]? = some (if rows = [] then 0 else match e.red.toNat with
          | 3 => match used.map fun b => (mine b).foldl (fun a x => most a (val x)) 0xFF800000 with
            | p :: ps => ps.foldl most p
            | [] => 0
          | 1 => match used.map fun b => (mine b).foldl (fun a x => fmaWord .rne Machine.f32
                (match e.wts with | some w => e.word w x.2 | none => 0x3F800000) (val x) a) 0 with
            | p :: ps => ps.foldl sum p
            | [] => 0
          | m => match used.map fun b => (mine b).foldl (fun a x => sum a (val x)) 0 with
            | p :: ps => let t := ps.foldl sum p
              if m = 2 then divWord .rne Machine.f32 t (Machine.f32.roundTo .rne false (FVal.ofInt rows.length)) else t
            | [] => 0)))

namespace Sys2Proof.Machine

/-! ## Barriers -/

/-- The device once an object has been written, and every blocked MBWAIT on it has judged it: no register, predicate,
slice or owed result of any group changes. -/
def WroteObject (d d' : Dev) (inst off : Nat) (o : Obj) : Prop :=
  d'.mem = d.mem ∧ d'.reqs = d.reqs ∧ d'.arrivals = d.arrivals ∧
  (∀ n t, d.team? n = some t → ∃ t', d'.team? n = some t' ∧ t'.tiles = t.tiles ∧
    t'.scr = (if n = inst then fsetBytes t.scr off o.toBytes else t.scr)) ∧
  ∀ r g, d.group? r = some g → ∃ g', d'.group? r = some g' ∧ g' = { g with splits := g'.splits } ∧
    g'.splits.map (fun x => { x with wait := .ready }) = g.splits.map (fun x => { x with wait := .ready }) ∧
    ∀ (k : Nat) (x : Split), g.splits[k]? = some x → (∀ gen, x.wait ≠ .object inst off gen none) → g'.splits[k]? = some x

/-- Every MBWAIT blocked on an object has been released with its predicate false (R272). -/
def ReleasesWaiters (d d' : Dev) (inst off : Nat) : Prop :=
  ∀ r g, d.group? r = some g → ∃ g', d'.group? r = some g' ∧ ∀ (k : Nat) (x : Split) (gen : BitVec 8), g.splits[k]? = some x →
    x.wait = .object inst off gen none → ∃ x', g'.splits[k]? = some x' ∧ x'.wait = .object inst off gen (some false)

/-- The object at an address of a resident team. -/
def Dev.objectOf (d : Dev) (inst off : Nat) : Obj := ((d.team? inst).map fun t => t.obj off).getD (Obj.ofBytes [])

/-- An arrival's effect on an object (R266): both fields fall, saturating; when ARRIVALS is no longer positive and OWED is
zero the phase rises and ARRIVALS is refilled. -/
def ArrivedAt (o o' : Obj) (n b : Int) : Prop :=
  let sat := fun (x : Int) => max (-2 ^ 31) (min (2 ^ 31 - 1) x)
  let full := sat (o.arr - n) ≤ 0 ∧ sat (o.owed - b) = 0
  o' = { o with arr := (if full then sat (sat (o.arr - n) + o.exp) else sat (o.arr - n)), owed := sat (o.owed - b)
                phase := if full then (o.phase + 1) % 65536 else o.phase }

end Sys2Proof.Machine

/-- MBINIT, MBINV, MBARV, MBEXP and BARRIER_ARRIVAL (R265 to R273): the object is written as each says, the lanes' word
moves on, and MBARV and MBEXP give the phase before theirs, or all ones when the arrival is discarded; an arrival counts
only on a valid object of its generation. An object's 16 bytes hold its fields. A misaligned object operand raises
MISALIGN in the lowest participant alone. MBINIT and MBINV release every MBWAIT that waits on the object with false.

MBWAIT, BAR, CBAR (R246, R254, R269, R271, R274): MBWAIT ends with false on an invalid object, with true once the phase
has passed the one waited for, and otherwise blocks; blocked, it ends as the operations on the object have judged it, an
MBWAIT among them; what has arrived on the object then counts as the group's to settle. BAR and CBAR
release, then wait at the barrier until every unfinished split of every group of the team or the cluster has come; then
every such split moves on, and BAR resets URG. -/
def Obligations.BarriersHold : Prop :=
  ((∀ (s : State) (i : Issuer) (a b : BitVec 6) (gd : Guard) (t off : Nat), s.dev.issuer? = some i → i.on gd ≠ [] →
    s.dev.objAt i a = .at_ t off →
    let o := s.dev.objectOf t off
    let moved := s.dev.modGroup i.ref fun _ => i.grp.advance i.sp true
    let e := ((i.sca b).extractLsb' 0 32).toNat
    let n : Nat := if e = 0 then 1 else min e 0x7FFFFFFF
    (∃ d : Dev, exec (.mbinit a b gd) s = .next (s.withDev d) ∧ ReleasesWaiters moved d t off ∧ WroteObject moved d t off
      { o with exp := n, arr := n, owed := 0, phase := 0, valid := true, gen := (o.gen + 1) % 256 }) ∧
    (∃ d : Dev, exec (.mbinv a gd) s = .next (s.withDev d) ∧ ReleasesWaiters moved d t off ∧
      WroteObject moved d t off { o with valid := false, gen := (o.gen + 1) % 256 })) ∧
  (∀ (s : State) (i : Issuer) (dst a b : BitVec 6) (n : BitVec 8) (gd : Guard) (t off : Nat), s.dev.issuer? = some i → i.on gd ≠ [] →
    s.dev.objAt i a = .at_ t off → i.releaseMet s.dev .clu = true →
    let o := s.dev.objectOf t off
    let moved := s.dev.modGroup i.ref fun _ => i.released s.dev
    ∀ (ins : Instr) (k owed : Int), (ins = .mbarv dst a n gd ∧ k = n.toNat + 1 ∧ owed = 0) ∨
        (ins = .mbexp dst a b n gd ∧ k = n.toNat ∧ owed = -((i.sca b).extractLsb' 0 32).toInt) →
      (o.valid = true → ∃ (d : Dev) (o' : Obj), ArrivedAt o o' k owed ∧ WroteObject moved d t off o' ∧
        exec ins s = .next (s.withDev (d.modGroup i.ref fun g => (g.advance i.sp true).writeS i.sp.mask dst.toNat (BitVec.ofNat 64 o.phase)))) ∧
      (o.valid = false → ∃ d : Dev, d.mem = s.dev.mem ∧ exec ins s = .next (s.withDev (d.modGroup i.ref fun g =>
        (g.advance i.sp true).writeS i.sp.mask dst.toNat 0xFFFFFFFFFFFFFFFF)) ∧ d = (moved.judgeObj t off).lose t)) ∧
  (∀ (s : State) (i : Issuer) (dst a b : BitVec 6) (n : BitVec 8) (gd : Guard), s.dev.issuer? = some i → i.on gd = [] →
    ∀ ins ∈ [Instr.mbinit a b gd, .mbinv a gd, .mbarv dst a n gd, .mbexp dst a b n gd],
      MakesGroup ins s i fun g => g = i.grp.advance i.sp true) ∧
  (∀ (s : State) (i : Issuer) (dst a b : BitVec 6) (n : BitVec 8) (gd : Guard) (l : Nat), s.dev.issuer? = some i →
    (i.on gd).head? = some l → (i.sca a).toNat % 16 ≠ 0 →
    ∀ ins ∈ [Instr.mbinit a b gd, .mbinv a gd, .mbarv dst a n gd, .mbexp dst a b n gd],
      exec ins s = .next (s.withDev (s.dev.trap i { cause := .misalign, sub := 0, mask := 1#32 <<< l, src := .instruction, pc := i.pc
                                                    info := (i.sca a).toNat % 2 ^ 48 }))) ∧
  (∀ (s : State) (id : Nat) (x : Arrival) (t : Team), s.dev.arrivals.find? (fun y => y.id == id) = some x →
    s.dev.team? x.at_.team = some t → t.away = false → t.scrLive = true →
    let o := s.dev.objectOf x.at_.team x.at_.off
    let gone := { s.dev with arrivals := s.dev.arrivals.filter fun y => y.id != id }
    (o.valid = true → o.gen = x.at_.gen.toNat → ∃ (d : Dev) (o' : Obj), ArrivedAt o o' x.n x.bytes ∧
      WroteObject gone d x.at_.team x.at_.off o' ∧ exec (.barrierArrival id) s = .next (s.withDev d)) ∧
    ((o.valid = false ∨ o.gen ≠ x.at_.gen.toNat) → exec (.barrierArrival id) s = .next (s.withDev
      ((gone.judgeObj x.at_.team x.at_.off).lose x.at_.team)))) ∧
  (∀ o : Obj, -2 ^ 31 ≤ o.arr → o.arr < 2 ^ 31 → -2 ^ 31 ≤ o.owed → o.owed < 2 ^ 31 → o.exp < 2 ^ 32 → o.gen < 256 → o.rsv < 128 →
    o.phase < 65536 → o.toBytes.length = 16 ∧ Obj.ofBytes o.toBytes = o)) ∧
  ((∀ (s : State) (i : Issuer) (a b : BitVec 6) (pr : BitVec 3) (t off : Nat) (gj : Group), s.dev.issuer? = some i →
    (∀ x y gen v, i.sp.wait ≠ .object x y gen v) → s.dev.objAt i a = .at_ t off →
    let o := s.dev.objectOf t off
    let d := s.dev.judgeObj t off
    let past := (o.phase + 65536 - (i.sca b).toNat % 65536) % 65536
    let makes := fun (P : Group → Prop) => ∃ g, P g ∧ exec (.mbwait a b pr) s = .next (s.withDev (d.modGroup i.ref fun _ => g))
    let ends := fun (g0 : Group) (v : Bool) => makes fun g => Wrote i (g0.advance i.sp false) g untouched
      (fun l n => if l ∈ i.active ∧ n = pr.toNat ∧ n ≠ 7 then some v else none) untouched
    d.group? i.ref = some gj →
    (o.valid = false → ends gj false) ∧ (o.valid = true → 1 ≤ past → past ≤ 0x7FFF → ends (d.joinSettle gj (·.arrivesOn t off)) true) ∧
    (o.valid = true → (past = 0 ∨ 0x7FFF < past) → makes fun g => g = gj.await i.sp (.object t off (BitVec.ofNat 8 o.gen) none))) ∧
  (∀ (s : State) (i : Issuer) (a b : BitVec 6) (pr : BitVec 3) (t off : Nat) (gen : BitVec 8) (v : Bool), s.dev.issuer? = some i →
    i.sp.wait = .object t off gen (some v) →
    MakesGroup (.mbwait a b pr) s i fun g => Wrote i ((s.dev.joinSettle i.grp (·.arrivesOn t off)).advance i.sp false) g untouched
      (fun l n => if l ∈ i.active ∧ n = pr.toNat ∧ n ≠ 7 then some v else none) untouched) ∧
  (∀ (s : State) (i : Issuer) (cluster : Bool) (id : Nat) (ins : Instr) (t : Team),
    (∃ n, ins = .bar n ∧ cluster = false ∧ id = n.toNat) ∨ (∃ n, ins = .cbar n ∧ cluster = true ∧ id = n.toNat) →
    s.dev.issuer? = some i → (∀ c n, i.sp.wait ≠ .barrier c n) →
    i.releaseMet s.dev (if cluster = true then .clu else .core) = true →
    let d := s.dev.modGroup i.ref fun _ => (i.released s.dev).await i.sp (.barrier cluster id)
    d.team? i.ref.team = some t →
    (d.barrierReady t cluster id = false → exec ins s = .next (s.withDev d)) ∧
    (d.barrierReady t cluster id = true → ∃ d' : Dev, exec ins s = .next (s.withDev d') ∧ d'.mem = d.mem ∧
      ∀ x ∈ d.barrierTeams t cluster, d.team? x.inst = some x → d'.team? x.inst = some
        { x with groups := x.groups.map fun g => g.leaveBarrier cluster id })) ∧
  (∀ (g : Group) (cluster : Bool) (id : Nat), (g.splits.map fun x => x.stamp).Nodup → g.splits.Pairwise (fun x y => x.mask &&& y.mask = 0) →
    let g' := g.leaveBarrier cluster id
    g'.v = g.v ∧ g'.p = g.p ∧ g'.owed = g.owed ∧ (cluster = false → g'.urg = 0) ∧
    (g'.splits.map fun x => (x.stamp, x.mask)) = g.splits.map (fun x => (x.stamp, x.mask)) ∧
    (∀ (k : Nat) (x : Split), g.splits[k]? = some x → ∃ y, g'.splits[k]? = some y ∧
      (x.wait = .barrier cluster id → y.wait = .ready) ∧ (x.wait ≠ .barrier cluster id → y = x)) ∧
    ∀ k, k < g.slices.length → g'.slice k = { g.slice k with pc := (g.slice k).pc +
      (if ∃ x ∈ g.splits, x.wait = .barrier cluster id ∧ x.mask.getLsbD k = true then 8 else 0) }))

namespace Sys2Proof.Machine

/-! ## REGROUP, and the words of the engines -/

end Sys2Proof.Machine

/-- REGROUP (R121): alone of its team's groups to arrive, a group that is one split waits; once every unfinished group of
the team stands there with every flag zero and no deferred path, lanes are dealt by key: an active lane's registers that
the map names, and its predicates, go to the place its key has in the sorted list, stably by group and lane; a group that
is not one split raises ILLCONV 0x01. -/
def Obligations.Regroups : Prop :=
  (∀ (s : State) (i : Issuer) (va : BitVec 8) (sb : BitVec 6), s.dev.issuer? = some i → i.grp.splits.length ≠ 1 →
    RaisesConv (.regroup va sb) s i 1) ∧
  (∀ (s : State) (i : Issuer) (va : BitVec 8) (sb : BitVec 6), s.dev.issuer? = some i → i.grp.splits.length = 1 → i.sp.wait ≠ .regroup →
    (∀ g ∈ i.team.groups, g.num ≠ i.ref.group → ∀ x ∈ g.splits, x.wait ≠ .regroup) →
    (∃ g ∈ i.team.groups, g.num ≠ i.ref.group ∧ g.splits ≠ []) →
    MakesGroup (.regroup va sb) s i fun g => g = i.grp.await i.sp .regroup) ∧
  (∀ (s : State) (i : Issuer) (va : BitVec 8) (sb : BitVec 6), s.dev.issuer? = some i → i.grp.splits = [i.sp] →
    i.team.groups = [i.grp] → i.grp.parked = false → i.grp.stop = false →
    (∀ x ∈ i.grp.slices, x.cf = [] ∧ x.rstack = []) → i.grp.slices.length * 4 = i.grid.launch.width → i.sp.wait ≠ .regroup →
    ∃ (d : Dev) (g : Group) (order : List Nat), exec (.regroup va sb) s = .next (s.withDev d) ∧ d.mem = s.dev.mem ∧
      d.group? i.ref = some g ∧ g.urg = 0 ∧
      (∀ l, l ∈ order ↔ l < i.grid.launch.width ∧ (i.grp.slice (l / 4)).x.getLsbD (l % 4) = true ∧ i.grp.vreg l va.toNat ≠ 0xFFFFFFFF) ∧
      order.Pairwise (fun a b => (i.grp.vreg a va.toNat).toNat < (i.grp.vreg b va.toNat).toNat ∨
        (i.grp.vreg a va.toNat = i.grp.vreg b va.toNat ∧ a < b)) ∧
      (∀ k l, order[k]? = some l → ((g.slice (k / 4)).x.getLsbD (k % 4) = true) ∧
        (∀ n, n < 8 → g.pred k n = i.grp.pred l n) ∧
        ∀ n, n < 255 → g.vreg k n = if n < min 64 (8 * i.grid.launch.nreg8) ∧ (i.sca sb).getLsbD n = true then i.grp.vreg l n
          else i.grp.vreg k n) ∧
      ∀ k, order.length ≤ k → k < i.grid.launch.width → (g.slice (k / 4)).x.getLsbD (k % 4) = false ∧
        (g.slice (k / 4)).rtd.getLsbD (k % 4) = true)

/-- ETAIL, REC, DENSE and CHAIN's tail (R59, R283, R285, R311): each releases at .DEV first and then moves on. ETAIL's tail
reaches the chain: one no further than the tail does nothing, one beyond the ring halts the chain with 0x01. REC's records
enter the node in order, and the split waits with those for which no buffer is free. DENSE leaves its request with
what it found. Without a
participant each only moves on.

BLOCK_TRANSFER and the entries of chains (R282, R284): the entry at the head of a running chain begins, HEAD passes it,
and a copy or a fill of its bytes, with all of them to move, belongs to it; a malformed entry halts the chain with 0x02. A
chain with nothing to take begins none. A completed entry raises the count of leading entries only over entries that have
all completed. -/
def Obligations.EnginesAndChains : Prop :=
  ((∀ (s : State) (i : Issuer) (a b c : BitVec 6) (sc : Bool) (o : Sc4) (gd : Guard), s.dev.issuer? = some i →
    (i.on gd = [] → (MakesGroup (.etail a b gd) s i fun g => g = i.grp.advance i.sp true) ∧
      ((∀ n rs, i.sp.wait ≠ .records n rs) → MakesGroup (.rec_ sc a b c gd) s i fun g => g = i.grp.advance i.sp true)) ∧
    (i.on o.g = [] → MakesGroup (.dense o) s i fun g => g = i.grp.advance i.sp true)) ∧
  (∀ (s : State) (i : Issuer) (a b : BitVec 6) (gd : Guard) (c : Chain), s.dev.issuer? = some i → i.on gd ≠ [] →
    (i.sca a).toNat % 64 = 0 → (i.sca a).toNat < 2 ^ 48 → s.dev.chain? (chainKey i.grid.pid (i.sca a).toNat) = some c →
    i.releaseMet s.dev .dev = true →
    let d := s.dev.modGroup i.ref fun _ => (i.released s.dev).advance i.sp true
    let t := (i.sca b).toNat
    (t ≤ c.tail → exec (.etail a b gd) s = .next (s.withDev d)) ∧
    (c.tail < t → t ≤ c.head + 2 ^ c.logn → exec (.etail a b gd) s = .next (s.withDev
      (d.modChain (chainKey i.grid.pid (i.sca a).toNat) fun x => { x with tail := t }))) ∧
    (c.tail < t → c.head + 2 ^ c.logn < t → ∃ (d' : Dev) (c' : Chain), exec (.etail a b gd) s = .next (s.withDev d') ∧
      d'.chain? (chainKey i.grid.pid (i.sca a).toNat) = some c' ∧ c'.halted = true ∧ c'.tail = c.tail ∧ (c.halted = false → c'.code = 1))) ∧
  (∀ (s : State) (i : Issuer) (sc : Bool) (a b c : BitVec 6) (gd : Guard) (nd : Node) (d : Dev) (bs : List Byte), s.dev.issuer? = some i →
    (∀ n rs, i.sp.wait ≠ .records n rs) → i.sp.begun = false → i.on gd ≠ [] → (i.sca b).toNat % 8 = 0 →
    s.dev.liveNode? i.grid.pid ((i.sca a).toNat % 2 ^ 16) = some nd →
    let n := (i.sca c).toNat % 2 ^ 11
    0 < n → n ≤ 1024 → s.dev.recordBytes i sc (i.sca b).toNat (n * nd.rsz) = (d, .ok bs) → i.releaseMet d .dev = true →
    let d1 := d.modGroup i.ref fun _ => i.released d
    ∀ (d2 : Dev) (rest : List (List Byte)), d1.enterMany ((i.sca a).toNat % 2 ^ 16) none (piecesOf nd.rsz n bs) = (d2, rest) →
      (rest = [] → exec (.rec_ sc a b c gd) s = .next (s.withDev (d2.modGroup i.ref fun g => g.advance i.sp true))) ∧
      (rest ≠ [] → exec (.rec_ sc a b c gd) s = .next (s.withDev (d2.modGroup i.ref fun g =>
        g.await i.sp (.records ((i.sca a).toNat % 2 ^ 16) rest))))) ∧
  (∀ (s : State) (i : Issuer) (o : Sc4) (d d' : Dev) (out : ZVec) (st : Nat × Leaf) (obj : Option ArriveAt),
    s.dev.issuer? = some i → i.on o.g ≠ [] → (∀ c, s.dev.ctx? ((i.sca o.a).toNat % 256) = some c → c.pid = i.grid.pid) →
    s.dev.denseOut i ((i.sca o.a).toNat % 256) (i.sca o.d).toNat
      (((s.dev.ctx? ((i.sca o.a).toNat % 256)).map fun c => c.n * c.esz).getD 0) = (d, .ok out) →
    d.denseStatus i (i.sca (o.d + 1)).toNat = (d', .ok st) →
    (if o.c = 63 then .ok none else (d'.objectAt i o.c).map some) = .ok obj → i.releaseMet d' .dev = true →
    d'.mem = s.dev.mem ∧ exec (.dense o) s = .next (s.withDev (({ d'.modGroup i.ref (fun _ => (i.released d').advance i.sp true) with
        nextId := d'.nextId + 1 } : Dev).addDense
      { id := d'.nextId, ctx := (i.sca o.a).toNat % 256, by_ := i.ref, pid := i.grid.pid, asid := i.grid.asid, out, status := st
        t := i.sca o.b, arrive := obj, served := false })))) ∧
  ((∀ (s : State) (key : Nat) (c : Chain) (d : Dev) (ws : List Word64), s.dev.chain? key = some c → c.eng = 1 → c.takes = true →
    s.dev.readEntry c = (d, some ws) →
    (transferBad ws = true → exec (.blockTransfer key) s = .next (s.withDev (d.chainHalt key 2))) ∧
    (transferBad ws = false → ∃ (d' : Dev) (k : Copy), exec (.blockTransfer key) s = .next (s.withDev d') ∧ d'.copies = d.copies ++ [k] ∧
      d'.mem = d.mem ∧ k.owner = .chain c.key c.head ∧ k.src = .glob (ws.getD 0 0).toNat ∧ k.dst = .glob (ws.getD 1 0).toNat ∧
      k.bytes = (ws.getD 2 0).toNat ∧ k.stop = (ws.getD 2 0).toNat / 16 ∧ k.next = 0 ∧ k.left = [] ∧
      (k.kind = .fill ↔ (ws.getD 3 0).getLsbD 1 = true) ∧ (k.crc = (ws.getD 3 0).getLsbD 0) ∧
      (k.fin = if (ws.getD 4 0) = 0 then .none else .cnt (ws.getD 4 0).toNat) ∧
      ∃ c', d'.chain? key = some c' ∧ c.head < c'.head ∧ (c.done = [] → c'.head = c.head + 1) ∧ c'.tail = c.tail)) ∧
  (∀ (s : State) (key : Nat) (c : Chain), s.dev.chain? key = some c → (c.takes = false ∨ c.eng ≠ 1) →
    ∃ e, exec (.blockTransfer key) s = .refused e) ∧
  (∀ (d : Dev) (key n : Nat) (c : Chain), d.chain? key = some c → ∃ c', (d.chainDone key n).chain? key = some c' ∧
    c.lead ≤ c'.lead ∧ (c.halted = true → c'.lead = c.lead) ∧ (∀ k, c.lead ≤ k → k < c'.lead → k = n ∨ k ∈ c.done) ∧
    (c.halted = false → c'.lead ∉ c.done ∧ c'.lead ≠ n ∨ c.done.length < c'.lead - c.lead) ∧
    (c.lead < c'.lead → c'.due = true)) ∧
  (∀ (c : Chain), c.takes = true ↔ c.halted = false ∧ c.stuck = false ∧ c.head < c.tail))

namespace Sys2Proof.Machine

/-! ## Galliard and Cittern -/

end Sys2Proof.Machine

/-- Galliard's entries, attempts, records and dense output (R60, R292 to R299, R303, R309 to R311): START enters a context
that runs from T0 with the lesser of H0 and HMAX, or that ends with the lowest code its checks give; STOP ends the
context in its slot with 0x10 and completes; an attempt begins by counting, with every stage to be formed but the one FSAL spares; a record that
retires leaves the context, and one that comes back unprocessed ends it with 0x13; a DENSE of no context is answered with
0x06, and one outside the last step with 0x05. -/
def Obligations.Integrates : Prop :=
  (∀ (s : State) (key : Nat) (ch : Chain) (d d2 d3 : Dev) (ws rs tab : List Word64) (a slot : Nat), s.dev.chain? key = some ch → ch.eng = 3 →
    ch.takes = true → s.dev.readEntry ch = (d, some ws) → galliardEntry ws = some (1, a, slot) → d.ctx? (ch.tgt * 64 + slot) = none →
    d.engWords ch.die ch.pid ch.asid a 24 = (d2, .ok rs) → d2.readTableau ch (bits (rs.getD 0 0).toNat 0 48) = (d3, .ok tab) →
    ∃ (d' : Dev) (c : Ctx), exec (.galliardStart key) s = .next (s.withDev d') ∧ d'.mem = s.dev.mem ∧ d'.ctx? (ch.tgt * 64 + slot) = some c ∧
      c.addr = a ∧ c.rec_ = rs ∧ c.tab = tab ∧ c.t = rs.getD 1 0 ∧ c.h = dmin (rs.getD 3 0) (rs.getD 5 0) ∧ c.start = some ch.head ∧
      c.att = 0 ∧ c.nacc = 0 ∧ c.nrej = 0 ∧ c.recs = [] ∧ c.phase = .publish 0 ∧
      let why := d3.startWhy (ch.newCtx slot a rs tab) (!tab.isEmpty)
      (why = 0 → c.status = 0x80 ∧ c.why = 0) ∧ (why ≠ 0 → c.status = 6 ∧ c.why = why)) ∧
  (∀ (s : State) (key : Nat) (ch : Chain) (d : Dev) (ws : List Word64), s.dev.chain? key = some ch → ch.eng = 3 → ch.takes = true →
    s.dev.readEntry ch = (d, some ws) →
    (galliardEntry ws = none → exec (.galliardStart key) s = .next (s.withDev (d.chainHalt key 2))) ∧
    (∀ slot c, galliardEntry ws = some (2, 0, slot) → d.ctx? (ch.tgt * 64 + slot) = some c → c.running = true →
      ∃ (d' : Dev) (c' : Ctx), exec (.galliardStop key) s = .next (s.withDev d') ∧ d'.ctx? (ch.tgt * 64 + slot) = some c' ∧
        c'.status = 6 ∧ c'.why = 0x10 ∧ c'.phase = .publish 0 ∧ c'.t = c.t ∧ c'.stages = [] ∧ d'.mem = s.dev.mem)) ∧
  (∀ (s : State) (num : Nat) (c : Ctx), s.dev.ctx? num = some c → c.phase = .begin → c.held = false →
    (∀ r ∈ c.recs, r.att ≠ c.att - 1) →
    ∀ (d : Dev), s.dev.engWrite (c.num / 64) c.pid c.asid (c.addr + 0xC8)
        ({ c with att := c.att + 1 } : Ctx).block = (d, .ok ()) →
      ∃ (d' : Dev) (c' : Ctx), exec (.galliardAttempt num) s = .next (s.withDev d') ∧ d'.ctx? num = some c' ∧ d'.mem = d.mem ∧
        c' = { c with att := c.att + 1, rem := dsub c.tend c.t, phase := .stages, jac := none, gamma := none, stages := c'.stages } ∧
        c'.stages.map (fun r => (r.stage, r.phase)) = (List.range c.s).map fun j =>
          (j, if c.fsal && c.nacc != 0 && j == 0 then StagePhase.done else StagePhase.forming)) ∧
  (∀ (s : State) (num idx : Nat) (c : Ctx) (r : CtxRec), s.dev.ctx? num = some c → c.recs.find? (fun x => x.idx == idx) = some r →
    r.back = true → c.held = false →
    ((c.running = false ∨ r.att ≠ c.att) → exec (.recordRetire num idx) s = .next (s.withDev (s.dev.modCtx num fun _ =>
      { c with recs := c.recs.filter fun x => x.idx != idx }))) ∧
    (c.running = true → r.att = c.att → r.lost = true → ∃ (d : Dev) (c' : Ctx), exec (.recordRetire num idx) s = .next (s.withDev d) ∧
      d.ctx? num = some c' ∧ c'.status = 6 ∧ c'.why = 0x13 ∧ d.mem = s.dev.mem) ∧
    (c.running = true → r.att = c.att → r.lost = false → r.kind = 0 → c.imex = false → ∃ (d : Dev) (c' : Ctx),
      exec (.recordRetire num idx) s = .next (s.withDev d) ∧ d.ctx? num = some c' ∧ d.mem = s.dev.mem ∧
      c' = { c with recs := c.recs.filter (fun x => x.idx != idx), stages := c'.stages } ∧
      ∀ (k : Nat) (x : StageRun), c.stages[k]? = some x → c'.stages[k]? = some (if x.stage = r.stage then { x with phase := .done } else x))) ∧
  (∀ (s : State) (num : Nat) (r : DenseReq), s.dev.dense.find? (fun x => x.ctx == num && !x.served) = some r →
    ((∀ c, s.dev.ctx? num = some c → c.pid ≠ r.pid) →
      exec (.denseServe num) s = .next (s.withDev (s.dev.serveDense r [] (denseWord 6 0)))) ∧
    (∀ c, s.dev.ctx? num = some c → c.pid = r.pid → c.held = false → c.phase.servesDense = true → c.status = 6 →
      exec (.denseServe num) s = .next (s.withDev (s.dev.serveDense r [] (denseWord 6 c.nacc)))) ∧
    (∀ c, s.dev.ctx? num = some c → c.pid = r.pid → c.held = false → c.phase.servesDense = true → c.status ≠ 6 →
      c.covers r.t = false → exec (.denseServe num) s = .next (s.withDev (s.dev.serveDense r [] (denseWord 5 c.nacc)))) ∧
    (∀ c d vs, s.dev.ctx? num = some c → c.pid = r.pid → c.held = false → c.phase.servesDense = true → c.status ≠ 6 →
      c.covers r.t = true → s.dev.denseElems c r.t = (d, .ok vs) → exec (.denseServe num) s = .next (s.withDev
        (d.serveDense r (vs.zipIdx.map fun (v, k) => (r.out.va + k * c.esz, natBytes c.esz v)) (denseWord 0 c.nacc)))))

/-- Cittern (R305 to R308): with no budget FACT writes the factors and pivots of partial pivoting over A, SOLVE and FSOLVE
write the solution of Ax = b by their factors, each with a result area that says OK, or the count of regularised pivots,
and each completes its entry. The pivot of a column is its element of the
greatest magnitude from the diagonal down, the first of equals. A matrix-free solve whose right-hand side is
already within a tenth of NTOL ends with a zero Δ. -/
def Obligations.SolvesSystems : Prop :=
  (∀ (s : State) (id op : Nat) (j : CitternJob) (k e : Nat) (ins : Instr) (d1 d2 : Dev) (rows : List (List Word64)) (old : List Nat),
    s.dev.job? id op = some j → j.ctx = none → j.chain = some (k, e) →
    let o := CitternOp.ofWords j.words
    o.budget = 0 → s.dev.readRows j.die j.pid j.asid o.a o.lda o.n = (d1, .ok rows) → rows.length = o.n →
    d1.readPivots j.die j.pid j.asid o.piv o.n = (d2, .ok old) →
    let m := factor o.tau rows
    let status := fun (panels : Nat) (regs : Nat) => BitVec.ofNat 64 (min regs (2 ^ 32 - 1) * 2 ^ 32 + min panels 0xFFFF * 2 ^ 16 +
      (if regs = 0 then 0 else 2 ^ 8 + 4))
    let ends := fun (d : Dev) => (d.dropJob j.id).chainDone k e
    (op = 1 → ins = .citternFact id → ∀ d3 d4,
      d2.writeAll j.die j.pid j.asid (rowWrites o.a o.lda m.rows ++ [(o.piv, pivotBytes m.piv)]) = (d3, .ok ()) →
      d3.writeAll j.die j.pid j.asid [(o.res, wordBytes (status ((o.n + 63) / 64) m.regs) ++ wordBytes 0)] = (d4, .ok ()) →
      exec ins s = .next (s.withDev (ends d4))) ∧
    (op = 2 → ins = .citternSolve id → ∀ d3 d4 b, d2.engWords j.die j.pid j.asid o.b o.n = (d3, .ok b) →
      let f : Lu := { rows, piv := old, regs := 0 }
      d3.writeAll j.die j.pid j.asid [(o.x, (f.solve b).flatMap wordBytes), (o.res, wordBytes (status 0 0) ++ wordBytes (f.residual b (f.solve b)))]
        = (d4, .ok ()) → exec ins s = .next (s.withDev (ends d4))) ∧
    (op = 3 → ins = .citternFsolve id → ∀ d3 d4 d5 b,
      d2.writeAll j.die j.pid j.asid (rowWrites o.a o.lda m.rows ++ [(o.piv, pivotBytes m.piv)]) = (d3, .ok ()) →
      d3.engWords j.die j.pid j.asid o.b o.n = (d4, .ok b) →
      d4.writeAll j.die j.pid j.asid [(o.x, (m.solve b).flatMap wordBytes),
        (o.res, wordBytes (status ((o.n + 63) / 64) m.regs) ++ wordBytes (m.residual b (m.solve b)))] = (d5, .ok ()) →
      exec ins s = .next (s.withDev (ends d5)))) ∧
  (∀ (m : Lu) (k : Nat), k < m.rows.length →
    let p := m.pivotRow k
    k ≤ p ∧ p < m.rows.length ∧ (∀ i, k ≤ i → i < m.rows.length → dlt (dabs (m.at_ p k)) (dabs (m.at_ i k)) = false) ∧
    ∀ i, k ≤ i → i < p → (f64.value (dabs (m.at_ i k)).toNat).isNan = true ∨ dlt (dabs (m.at_ i k)) (dabs (m.at_ p k)) = true) ∧
  (∀ (s : State) (num st : Nat) (c : Ctx) (d d' : Dev) (x : GmresIn), s.dev.ctx? num = some c → c.solving? .gmres = some st →
    c.held = false → c.gmres = none → s.dev.gmresIn c st = (d, .ok x) →
    dle (wrmsNorm d.fresh 4500000 x.atol x.rtol x.y x.r) (ddiv c.ntol 0x4024000000000000) = true →
    d.engWrite (c.num / 64) c.pid c.asid (c.vec 83) (List.replicate c.bytes 0) = (d', .ok ()) →
    exec (.citternGmres num) s = .next (s.withDev (d'.modCtx c.num fun c => { c.toPhase st .solved with gmres := none })))

namespace Sys2Proof.Machine

/-! ## Links and transfers between devices -/

/-! ## Queues, packets and grids -/

/-- The packet at its queue's turn in its die's round, just read (R49). -/
structure Turn (s : State) (qn opc : Nat) (q : Queue) (ws : List Word64) : Prop where
  queue : s.dev.queue? qn = some q
  first : (s.dev.die (qn / 64)).round.head? = some qn
  type  : q.turnType = some opc
  slot  : q.slot = some ws
  runs  : q.halted = false

/-- The device once the turn has come. -/
def Dev.turned (d : Dev) (qn : Nat) : Dev :=
  (d.modDie (qn / 64) fun x => { x with round := x.round.tail }).modQueue qn fun q => { q with slot := none }

/-- The packet as the queue takes it (R46). -/
def Queue.packet (q : Queue) (ws : List Word64) : Packet := { seq := q.head, words := ws, finished := false, data := [], expires := none }

/-- The queue has taken the packet: HEAD has passed it, it stands last, and the status word is to be written (R45, R46). -/
def TookPacket (q : Queue) (p : Packet) (qn : Nat) (d : Dev) : Prop :=
  ∃ q', d.queue? qn = some q' ∧ q'.head = q.head + 1 ∧ q'.taken.getLast? = some p ∧ q'.taken.length = q.taken.length + 1 ∧ q'.kick = q.kick ∧
    q'.posts = q.posts ++ [({ q with head := q.head + 1 }.statusWord, false)]

/-- The queue has halted with a code, its packet still at HEAD; the status word is to say so, and then the vector comes
(R45, R48). -/
def HaltedWith (q : Queue) (code : BitVec 8) (qn : Nat) (d : Dev) : Prop :=
  ∃ q', d.queue? qn = some q' ∧ q'.halted = true ∧ q'.err = true ∧ q'.code = code ∧ q'.head = q.head ∧ q'.taken = q.taken ∧
    q'.posts = q.posts ++ [(q'.statusWord, true)]

end Sys2Proof.Machine

/-- Kicks and rounds (R42, R43, R49, R368, R369): a newer kick is kept, an older or repeated one, and one to a page with no
queue, does nothing, as every kick after a fatal error, and one beyond the ring halts the queue with 0x13. A round hands over each queue's packet once, by
type and then by lane.

Packets at their turn (R44 to R48, R59, R60, R61, R283): NOP, CHAIN, SIGNAL, LAUNCH, NODE-RECORD, GRAPH, WAIT, FENCE,
RESET-QUEUE and ABORT are taken when what they name is as it must be, and each has its effect; a bad launch record, graph,
node, or chain leaves the packet at HEAD and halts the queue with its code. A status word is written at .SYS once
every earlier write has settled, and then the vector is raised. -/
def Obligations.QueuesRun : Prop :=
  ((∀ (s : State) (pid page : Nat) (x : BitVec 32) (q : Queue), s.dev.queues.find? (fun q => q.pid == pid && q.page == page) = some q →
    (s.dev.frozen = true → exec (.kick pid page x) s = .next s) ∧
    (s.dev.frozen = false → (s.dev.part pid).resetting = none →
    ((x = q.kick ∨ (x - q.kick).msb = true) → exec (.kick pid page x) s = .next s) ∧
    (x ≠ q.kick → (x - q.kick).msb = false → (x - q.head).toNat ≤ 2 ^ q.logn →
      exec (.kick pid page x) s = .next (s.withDev (s.dev.modQueue q.num fun q => { q with kick := x }))) ∧
    (x ≠ q.kick → (x - q.kick).msb = false → 2 ^ q.logn < (x - q.head).toNat → s.dev.queue? q.num = some q →
      ∃ d : Dev, exec (.kick pid page x) s = .next (s.withDev d) ∧ HaltedWith { q with kick := x } 0x13 q.num d))) ∧
  (∀ (s : State) (pid page : Nat) (x : BitVec 32), s.dev.queues.find? (fun q => q.pid == pid && q.page == page) = none →
    exec (.kick pid page x) s = .next s) ∧
  (∀ (s : State) (die : Nat), die < s.dev.dies.length → (s.dev.die die).round = [] → s.dev.settle < s.dev.cycle →
    (∃ q ∈ s.dev.lanes die, q.takes = true ∨ q.again? ≠ none) →
    ∃ d : Dev, exec (.theorboRound die) s = .next (s.withDev d) ∧
      (d.die die).round.Pairwise (fun a b => ∃ x ∈ d.lanes die, ∃ y ∈ d.lanes die, x.num = a ∧ y.num = b ∧ ∃ t u, x.turnType = some t ∧
        y.turnType = some u ∧ (typeOrder t < typeOrder u ∨ (typeOrder t = typeOrder u ∧ a ≤ b))) ∧
      ∀ n, n ∈ (d.die die).round ↔ ∃ q ∈ d.lanes die, q.num = n ∧ q.turnType ≠ none)) ∧
  ((∀ (s : State) (qn : Nat) (q : Queue) (ws : List Word64), Turn s qn 0 q ws →
    ∃ d : Dev, exec (.nopPacket qn) s = .next (s.withDev d) ∧ TookPacket q { q.packet ws with finished := true } qn d ∧ d.teams = s.dev.teams) ∧
  (∀ (s : State) (qn : Nat) (q : Queue) (ws : List Word64), Turn s qn 3 q ws →
    ∃ d : Dev, exec (.fencePacket qn) s = .next (s.withDev d) ∧ TookPacket q (q.packet ws) qn d) ∧
  (∀ (s : State) (qn : Nat) (q : Queue) (ws : List Word64), Turn s qn 9 q ws →
    let key := chainKey q.pid (ws.getD 1 0).toNat
    (s.dev.chain? key = none → ∃ d : Dev, exec (.chainPacket qn) s = .next (s.withDev d) ∧ HaltedWith q 0x14 qn d) ∧
    (∀ c, s.dev.chain? key = some c → ∃ d : Dev, exec (.chainPacket qn) s = .next (s.withDev d) ∧
      TookPacket q { q.packet ws with finished := true } qn d ∧ d.chains = (s.dev.chainTail key (ws.getD 2 0).toNat).chains)) ∧
  (∀ (s : State) (qn : Nat) (q : Queue) (ws : List Word64) (d0 : Dev), Turn s qn 5 q ws →
    let p := q.packet ws
    s.dev.settle < s.dev.cycle → (s.dev.turned qn).signalWord { q with slot := none } p = (d0, .ok ()) →
    ∃ d : Dev, exec (.signal qn) s = .next (s.withDev d) ∧ TookPacket q { p with finished := true } qn d) ∧
  (∀ (d : Dev) (q : Queue) (p : Packet) (d1 : Dev) (x : Word64), bits (p.word 3) 0 2 ≠ 0 →
    d.engWord (q.num / 64) q.pid q.asid (p.word 1) = (d1, .ok x) →
    let v := p.words.getD 2 0
    d.signalWord q p = d1.engWrite (q.num / 64) q.pid q.asid (p.word 1)
      (wordBytes (if bits (p.word 3) 0 2 = 1 then x + v else if x.toNat < v.toNat then v else x))) ∧
  (∀ (s : State) (qn : Nat) (q : Queue) (ws : List Word64), Turn s qn 7 q ws →
    let q1 := { q with slot := none }
    (∀ d0 c, (s.dev.turned qn).checkLaunch q1 (ws.getD 1 0).toNat = (d0, .error c) →
      ∃ d : Dev, exec (.launch qn) s = .next (s.withDev d) ∧ HaltedWith q c qn d) ∧
    (∀ d0 l, (s.dev.turned qn).checkLaunch q1 (ws.getD 1 0).toNat = (d0, .ok l) →
      ∃ (d : Dev) (g : Grid) (u : Unit_), exec (.launch qn) s = .next (s.withDev d) ∧ TookPacket q (q.packet ws) qn d ∧
        d.grids = s.dev.grids ++ [g] ∧ d.pending = s.dev.pending ++ [u] ∧ g.launch = l ∧ g.origin = .packet qn q.head ∧ g.left = l.nteam ∧
        g.queue = q.num ∧ g.pid = q.pid ∧ g.asid = q.asid ∧ u.grid = g.id ∧ u.first = 0 ∧ u.saved = [] ∧
        u.per = (if l.coop = true then l.nteam else l.clw * l.clh) ∧ u.count = l.nteam / u.per)) ∧
  (∀ (s : State) (qn : Nat) (q : Queue) (ws : List Word64), Turn s qn 8 q ws →
    (s.dev.recordTarget q.pid (ws.getD 1 0).toNat = none →
      ∃ d : Dev, exec (.nodeRecord qn) s = .next (s.withDev d) ∧ HaltedWith q 0x14 qn d) ∧
    (∀ n k d0 bs, s.dev.recordTarget q.pid (ws.getD 1 0).toNat = some (n, k) →
      (s.dev.turned qn).engRead (qn / 64) q.pid q.asid (ws.getD 2 0).toNat (k * n.rsz) = (d0, .ok bs) →
      ∃ (d : Dev) (rest : List (List Byte)) (q' : Queue) (p : Packet), exec (.nodeRecord qn) s = .next (s.withDev d) ∧
        d.queue? qn = some q' ∧ q'.head = q.head + 1 ∧ q'.taken.getLast? = some p ∧ p.data = rest ∧ p.words = ws ∧ p.finished = rest.isEmpty ∧
        rest <:+ piecesOf n.rsz k bs)) ∧
  (∀ (s : State) (qn : Nat) (q : Queue) (ws hs : List Word64) (d0 : Dev), Turn s qn 6 q ws →
    (s.dev.turned qn).engWords (qn / 64) q.pid q.asid (ws.getD 1 0).toNat 8 = (d0, .ok hs) →
    (∀ d1 r, d0.engWords (qn / 64) q.pid q.asid ((ws.getD 1 0).toNat + 64) (8 * graphNodes hs) = (d1, r) → (∀ xs, r ≠ .ok xs) →
      ∃ d : Dev, exec (.graph qn) s = .next (s.withDev d) ∧ HaltedWith q 0x17 qn d) ∧
    (∀ d1 xs, d0.engWords (qn / 64) q.pid q.asid ((ws.getD 1 0).toNat + 64) (8 * graphNodes hs) = (d1, .ok xs) →
      let ns := startNodes xs (bits (hs.headD 0).toNat 16 12)
      (graphHeaderBad hs = true ∨ graphBad ns = true → ∃ d : Dev, exec (.graph qn) s = .next (s.withDev d) ∧ HaltedWith q 0x15 qn d) ∧
      (graphHeaderBad hs = false → graphBad ns = false → ∃ (d : Dev) (g : Graph), exec (.graph qn) s = .next (s.withDev d) ∧
        TookPacket q (q.packet ws) qn d ∧ d.graphs = s.dev.graphs ++ [g] ∧ g.nodes = ns ∧ g.queue = qn ∧ g.seq = q.head ∧
        g.status = (hs.getD 1 0).toNat ∧ g.aborted = false ∧ g.stopped = false))) ∧
  (∀ (s : State) (qn : Nat) (q : Queue) (ws : List Word64) (d0 d1 : Dev) (x : Word64), Turn s qn 4 q ws →
    let t := bits (ws.getD 3 0).toNat 0 32
    let p := { q.packet ws with expires := if t = 0 then none else some (s.dev.cycle + 1600 * t) }
    (s.dev.turned qn).accept { q with slot := none } p = d0 → d0.engWord (q.num / 64) q.pid q.asid (ws.getD 1 0).toNat = (d1, .ok x) →
    ∃ d : Dev, exec (.waitPacket qn) s = .next (s.withDev d) ∧ TookPacket q { p with finished := match bits (ws.getD 3 0).toNat 32 2 with
      | 0 => decide ((ws.getD 2 0).toNat ≤ x.toNat)
      | 1 => decide (x = ws.getD 2 0)
      | _ => decide (x ≠ ws.getD 2 0) } qn d) ∧
  (∀ (s : State) (qn t : Nat) (q : Queue) (p : Packet), s.dev.queue? qn = some q → q.again? = some p → p.opc = 4 → p.expires = some t →
    qn ∉ (s.dev.die (qn / 64)).round →
    (s.dev.cycle < t → ∃ e, exec (.waitTimeout qn) s = .refused e) ∧
    (t ≤ s.dev.cycle → ∃ d : Dev, exec (.waitTimeout qn) s = .next (s.withDev d) ∧
      HaltedWith { q with taken := q.taken.filter fun x => x.seq != p.seq } 0x16 qn d)) ∧
  (∀ (s : State) (qn : Nat) (q : Queue) (ws : List Word64), Turn s qn 2 q ws →
    ∃ (d : Dev) (q' : Queue), exec (.resetQueue qn) s = .next (s.withDev d) ∧ d.queue? qn = some q' ∧ q'.head = q.kick ∧ q'.deficit ≤ 0 ∧
      q'.level = 0 ∧ q'.taken.getLast? = some { q.packet ws with finished := true }) ∧
  (∀ (s : State) (qn : Nat) (q : Queue) (ws : List Word64), Turn s qn 1 q ws →
    ∃ d : Dev, exec (.abort qn) s = .next (s.withDev d) ∧ (∃ q', d.queue? qn = some q' ∧ q'.head = q.head + 1) ∧
      (∀ g ∈ d.graphs, g.queue = qn → g.aborted = true ∧ g.stopped = true) ∧
      ∀ g ∈ s.dev.grids, g.queue = qn → g.origin.ofNode = false → ∀ u ∈ d.pending, u.grid ≠ g.id) ∧
  (∀ (d : Dev) (qn : Nat) (q : Queue) (w : Word64) (tell : Bool) (rest : List (Word64 × Bool)), d.queue? qn = some q →
    q.posts = (w, tell) :: rest →
    (d.cycle ≤ d.settle → d.writeStatus qn = none) ∧
    (∀ d', d.settle < d.cycle → d.engWrite (qn / 64) q.pid q.asid q.stat (wordBytes w) = (d', .ok ()) →
      ∃ t : Dev, d.writeStatus qn = some t ∧ t.mem = d'.mem ∧ t.queue? qn = some { q with posts := rest } ∧
        (tell = false → t.parts = d.parts) ∧ (tell = true → t.parts = ((d.raiseVec q.pid q.vec).setEvt q.pid 1).parts))))

/-- DISPATCH, AGEING_TICK, RAMP_WINDOW, TEAM_START, POWER_GATE and CORE_WAKE (R18, R22, R25, R29, R51 to R57, R390): the
dispatcher places the unit chosen, whose queue has a positive deficit; its teams stand on the cores found, in order, with
their groups at CODE and nothing run. A unit that the window leaves room for starts, and its groups then hold the launch's
arguments, each as memory holds it or held it at acceptance. A window begins with no unit started but those that step down in it. A core without a team for 100
microseconds loses its caches and TLB, and wakes for a team. -/
def Obligations.TeamsPlaced : Prop :=
  (∀ (s : State) (d : Dev) (q : Queue) (u : Unit_) (cs : List Nat), s.dev.chooseUnit [7, 6, 5, 4, 3, 2, 1, 0] = (d, some (q, u, cs)) →
    exec .dispatch s = .next (s.withDev (d.place q u cs)) ∧ (∃ q', d.queue? q.num = some q' ∧ 0 < q'.deficit) ∧
    d.pending = s.dev.pending ∧ d.firstUnit? q.num = some u) ∧
  (∀ (d : Dev) (q : Queue) (u : Unit_) (cores : List Nat) (g : Grid), d.grid? u.grid = some g → u.saved = [] →
    ∃ news : List Team, (d.place q u cores).teams = d.teams ++ news ∧ news.map (fun t => t.core) = cores ∧
      news.map (fun t => t.num) = (List.range cores.length).map (fun k => u.first + k) ∧
      ∀ t ∈ news, t.grid = g.id ∧ t.state = .placed g.launch.units ∧ t.record = 0 ∧ t.lost = 0 ∧ t.groups.length = g.launch.ngroup ∧
        ∀ (k : Nat) (x : Group), t.groups[k]? = some x → x.num = k ∧ x.owed = [] ∧ x.splits.length = 1 ∧ x.loaded = false ∧ x.urg = 0 ∧
          x.slices = List.replicate (g.launch.width / 4) { (Slice.blank) with
            pc := g.launch.code, x := 15, pm := 15, snap := { repc := g.launch.code, x := 15, pm := 15, depth := 0, rgnctr := 0, clause := none } }) ∧
  (∀ (s : State) (qn : Nat) (q : Queue), s.dev.queue? qn = some q →
    let n := s.dev.waited q / max 1 (s.dev.die (qn / 64)).ageus
    (q.level < n → exec (.ageingTick qn) s = .next (s.withDev (s.dev.modQueue qn fun x => { x with level := n }))) ∧
    (n ≤ q.level → ∃ e, exec (.ageingTick qn) s = .refused e)) ∧
  (∀ (s : State) (die : Nat), die < s.dev.dies.length → (s.dev.die die).window ≠ s.dev.tick die →
    ∃ d : Dev, exec (.rampWindow die) s = .next (s.withDev d) ∧ (d.die die).window = s.dev.tick die ∧ (d.die die).used ≤ (s.dev.die die).rampu ∧
      (∀ c, (d.core c).stepping <:+ (s.dev.core c).stepping) ∧
      ((∃ c, c / 128 = die ∧ (d.core c).stepping ≠ []) → (d.die die).used = (s.dev.die die).rampu)) ∧
  (∀ (s : State) (inst : Nat) (t : Team) (l : Launch), s.dev.team? inst = some t → s.dev.launchOf t = some l → s.dev.unitOf t = [t] →
    s.dev.nextStart? (t.core / 128) = some t → t.core / 128 < s.dev.dies.length → (s.dev.die (t.core / 128)).window = s.dev.tick (t.core / 128) →
    (s.dev.core t.core).gated = false → t.record = 0 →
    (s.dev.settle < s.dev.cycle ∨ ∀ g, s.dev.grid? t.grid = some g → g.origin.ofNode = false) →
    (s.dev.die (t.core / 128)).used + l.units ≤ (s.dev.die (t.core / 128)).rampu →
    exec (.teamStart inst) s = .next (s.withDev (t.groups.foldl (fun d g => d.loadGroup ⟨t.inst, g.num⟩)
      ((s.dev.modDie (t.core / 128) fun x => { x with used := x.used + l.units }).modTeam inst fun t => { t with state := .running })))) ∧
  (∀ (d d' : Dev) (i : Issuer) (g : Group) (sp : Split) (args : List Word64), d.group? i.ref = some g →
    g.splits.head? = some sp → d.issuerAt? ⟨i.ref.team, i.ref.group, sp.stamp⟩ = some i → i.grid.origin.ofNode = false →
    d.loadWords i.core i.grid.pid i.grid.asid i.grid.launch.args i.grid.launch.narg = (d', .ok args) → g.slices.length ≤ 8 →
    ∃ g', (d.loadGroup i.ref).group? i.ref = some g' ∧ g'.loaded = true ∧ g'.v = g.v ∧ g'.p = g.p ∧ args.length = i.grid.launch.narg ∧
      ∀ k n, k < g.slices.length → n < 63 → 
        (∀ w, args[n]? = some w → g'.sreg k n = w ∨ g'.sreg k n = i.grid.args.getD n w) ∧ (args.length ≤ n → g'.sreg k n = g.sreg k n)) ∧
  (∀ (s : State) (core : Nat), (s.dev.core core).gated = false → (∀ t ∈ s.dev.teams, t.core = core → t.holds = false) →
    (s.dev.cycle < (s.dev.core core).idle + 160000 → ∃ e, exec (.powerGate core) s = .refused e) ∧
    ((s.dev.core core).idle + 160000 ≤ s.dev.cycle → ∃ d : Dev, exec (.powerGate core) s = .next (s.withDev d) ∧
      (d.core core).gated = true ∧ (d.core core).l1 = [] ∧ (d.core core).icache = [] ∧ (d.core core).tlb = [] ∧
      (∀ c, c ≠ core → d.core c = s.dev.core c) ∧ KeepsMemory s core [] d)) ∧
  (∀ (s : State) (core : Nat), (s.dev.core core).gated = true → (∃ t ∈ s.dev.teams, t.core = core ∧ t.holds = true) →
    exec (.coreWake core) s = .next (s.withDev (s.dev.modCore core fun c => { c with gated := false })))

/-- A node's firing (R58 to R60, R391): once the gather timer of its open buffer has passed, the buffer closes with its
header, the counter rises, and a grid of its launch record enters for it.

A kind of a task graph's node, started (R62, R63): KIND 0 enters its grid, KIND 1 has its records to feed, KIND 2 moves
its chain and completes, COND completes toward the side its test gives and skips the other, WHILE counts an iteration or
goes on past its body. Only a node whose predecessors have completed or been skipped starts. -/
def Obligations.NodesAndGraphs : Prop :=
  (∀ (s : State) (id k : Nat) (n : Node) (b : Buf) (t : Nat) (d d' : Dev) (q : Queue) (l : Launch), s.dev.node? id = some n →
    n.bufs[k]? = some b → b.state = .opened (some t) → 0 < b.count → n.gtim ≠ 0 → t + n.gtim < s.dev.queueTick n.ownq →
    (∀ j, j < k → ∀ x, n.bufs[j]? = some x → x.count = 0) →
    s.dev.engWrite (n.ownq / 64) n.pid n.asid (n.bufa + k * (64 + n.bcap * n.rsz))
      (natBytes 8 (n.firing.toNat * 2 ^ 32 + b.count) ++ natBytes 8 n.id ++ List.replicate 48 0) = (d, .ok ()) →
    s.dev.queue? n.ownq = some q →
    (d.modNode n.id fun x => { x with next := (k + 1) % n.bufs.length, firing := x.firing + 1 }).checkLaunch { q with asid := n.asid } n.lrec
      = (d', .ok l) →
    ∃ (t : Dev) (g : Grid) (n' : Node) (b' : Buf), exec (.nodeTimerLapse id) s = .next (s.withDev t) ∧ t.grids = s.dev.grids ++ [g] ∧
      g.launch = l ∧ g.origin = .firing id k ∧ g.queue = n.ownq ∧ g.asid = n.asid ∧ g.rec_ = BitVec.ofNat 64 (n.bufa + k * (64 + n.bcap * n.rsz)) ∧
      t.node? id = some n' ∧ n'.firing = n.firing + 1 ∧ n'.next = (k + 1) % n.bufs.length ∧ n'.bufs[k]? = some b' ∧
      b' = { b with state := .fired g.id }) ∧
  ((∀ (s : State) (id n : Nat) (g : Graph) (x : GNode) (q : Queue), s.dev.graph? id = some g → g.nodes[n]? = some x →
    s.dev.queue? g.queue = some q → g.stopped = false →
    (x.ready = false → ∃ e, exec (.graphNodeStart id n) s = .refused e) ∧
    (x.ready = true → x.kind = 0 → ∀ d l, s.dev.checkLaunch q (x.word 1) = (d, .ok l) →
      ∃ (d' : Dev) (gr : Grid), exec (.graphNodeStart id n) s = .next (s.withDev d') ∧ d'.grids = s.dev.grids ++ [gr] ∧ gr.launch = l ∧
        gr.origin = .graph id n ∧ gr.left = l.nteam ∧ ∃ g' x', d'.graph? id = some g' ∧ g'.nodes[n]? = some x' ∧ x'.state = .running) ∧
    (x.ready = true → x.kind = 1 → ∀ nd k d bs, s.dev.recordTarget q.pid (x.word 1) = some (nd, k) →
      s.dev.engRead (q.num / 64) q.pid q.asid (x.word 2) (k * nd.rsz) = (d, .ok bs) →
      ∃ (d' : Dev) (g' : Graph) (x' : GNode), exec (.graphNodeStart id n) s = .next (s.withDev d') ∧ d'.graph? id = some g' ∧ g'.nodes[n]? = some x' ∧
        x' = { x with state := .running, data := piecesOf nd.rsz k bs } ∧ d'.mem = s.dev.mem) ∧
    (x.ready = true → x.kind = 2 → ∀ c, s.dev.chain? (chainKey q.pid (x.word 1)) = some c →
      exec (.graphNodeStart id n) s = .next (s.withDev ((s.dev.chainTail (chainKey q.pid (x.word 1)) (x.word 2)).nodeComplete id n))) ∧
    (x.ready = true → x.kind = 3 → ∀ d v, s.dev.engWord (q.num / 64) q.pid q.asid (x.word 1) = (d, .ok v) →
      let holds := waitTest (bits (x.word 4) 0 2) (v &&& x.words.getD 2 0).toNat (x.word 3)
      exec (.graphNodeStart id n) s = .next (s.withDev (d.modGraph id fun g => if holds = true then g.complete n (x.succ 0).toList (x.succ 1)
        else g.complete n (x.succ 1).toList (x.succ 0)))) ∧
    (x.ready = true → x.kind = 4 → ∀ d v, s.dev.engWord (q.num / 64) q.pid q.asid (x.word 1) = (d, .ok v) →
      waitTest (bits (x.word 4) 0 2) (v &&& x.words.getD 2 0).toNat (x.word 3) = false →
      exec (.graphNodeStart id n) s = .next (s.withDev (d.modGraph id fun g => g.complete n ((x.succ 1).toList ++ (x.succ 2).toList) none)))) ∧
  (∀ (g : Graph) (n k : Nat) (to_ : List Nat) (x : GNode), g.nodes[n]? = some x → x.again = 0 → n ∉ to_ → to_.length ≤ 3 → g.nodes.length ≤ 4096 →
    (∀ m ∈ to_, ∀ y, g.nodes[m]? = some y → y.kind ≠ 4 ∧ ∃ p s, y.state = .waiting p s ∧ (y.npred ≠ p + 1 ∨ s ≠ p + 1)) → to_.Nodup →
    let g' := g.complete n to_ none
    (∃ x', g'.nodes[n]? = some x' ∧ x'.state = .complete) ∧
    (∀ m ∈ to_, ∀ y p s, g.nodes[m]? = some y → y.state = .waiting p s → ∃ y', g'.nodes[m]? = some y' ∧ y'.state = .waiting (p + 1) s) ∧
    (k ≠ n → k ∉ to_ → g'.nodes[k]? = g.nodes[k]?)))

/-- Pre-emption and retirement (R55, R252, R336 to R345): a group that has reached no PHINT within the window is to be saved
in full. A save writes the team's record, with the first group's program counters at its start, frees the team's units,
and leaves it saved; a restore reads them back. A running team whose groups are all done begins to retire; its first
steps drop its copies and matrix operations; the last takes it away and lowers its grid's count. -/
def Obligations.TeamsLeave : Prop :=
  (∀ (s : State) (r : GroupRef) (t : Team) (g : Group) (gr : Grid) (since : Nat), s.dev.team? r.team = some t → t.group? r.group = some g →
    s.dev.grid? t.grid = some gr → t.state = .saving since → g.splits ≠ [] → g.save = none →
    (s.dev.cycle ≤ since + (s.dev.part gr.pid).rec_.pw → ∃ e, exec (.phintWindowExpiry r) s = .refused e) ∧
    (since + (s.dev.part gr.pid).rec_.pw < s.dev.cycle → exec (.phintWindowExpiry r) s = .next (s.withDev
      (s.dev.modGroup r fun g => { g with save := some { hint := none } })))) ∧
  (∀ (s : State) (inst since : Nat) (t : Team) (gr : Grid) (g : Group) (rest : List Group), s.dev.team? inst = some t →
    s.dev.grid? t.grid = some gr → t.state = .saving since → t.groups = g :: rest → s.dev.savePoint (s.dev.savingTeams t) = true →
    (∃ x ∈ t.groups, x.splits ≠ []) → t ∈ s.dev.savingTeams t →
    (∀ r ∈ s.dev.rounds, r.owner = .team inst → r.stopped = true) → (∀ x ∈ t.groups, x.posted = [] ∧ s.dev.obliged ⟨inst, x.num⟩ x = false) →
    ∃ (d : Dev) (t' : Team), exec (.teamSave inst) s = .next (s.withDev d) ∧ d.team? inst = some t' ∧ t'.state = .saved ∧ t'.record = t.record ∧
      t'.scr = [] ∧ t'.tiles = [] ∧ t'.units = [] ∧ t'.locks = t.locks ∧ (d.core t.core).stepping <:+ (s.dev.core t.core).stepping ++ t.units ∧
      (∀ k, k < g.slices.length → k < 8 → d.rdNat 0 (t.record + 6 * k) 6 = (g.slice k).pc.toNat) ∧ 128 ≤ t'.recSize) ∧
  (∀ (s : State) (inst : Nat) (t : Team) (gr : Grid) (g : Group) (rest : List Group), s.dev.team? inst = some t →
    s.dev.grid? t.grid = some gr → t.state = .placed 0 → t.record ≠ 0 → t.groups = g :: rest → 128 ≤ t.recSize →
    ∃ (d : Dev) (t' : Team) (g' : Group) (rest' : List Group), exec (.teamRestore inst) s = .next (s.withDev d) ∧ d.team? inst = some t' ∧
      t'.groups = g' :: rest' ∧ d.mem = s.dev.mem ∧ t'.record = 0 ∧ (t'.state = .running ∨ t'.state = .placed 0) ∧ g'.posted = [] ∧
      ∀ k, k < g.slices.length → k < 8 → (g'.slice k).pc = BitVec.ofNat 48 (s.dev.rdNat 0 (t.record + 6 * k) 6)) ∧
  (∀ (s : State) (inst : Nat) (t : Team), s.dev.team? inst = some t → s.dev.clusterOf t = [t] → t.state = .running →
    ((∃ g ∈ t.groups, g.splits ≠ []) → ∃ e, exec (.retire inst) s = .refused e) ∧
    ((∀ g ∈ t.groups, g.splits = []) → exec (.retire inst) s = .next (s.withDev
      (s.dev.modTeam inst fun t => { t with state := .retiring { killed := false, step := 0 } })))) ∧
  (∀ (s : State) (inst : Nat) (t : Team) (r : Retiring) (gr : Grid), s.dev.team? inst = some t → t.state = .retiring r →
    s.dev.grid? t.grid = some gr → (s.dev.part gr.pid).resetting = none →
    let next := fun (d : Dev) => d.modTeam inst fun t => { t with state := .retiring { r with step := r.step + 1 } }
    (r.step = 0 → ∃ d : Dev, exec (.retire inst) s = .next (s.withDev (next d)) ∧
      d = { s.dev with copies := d.copies, embags := s.dev.embags.filter fun e => e.by_.team != inst } ∧
      ∀ c, c ∈ d.copies ↔ c ∈ s.dev.copies ∧ ∀ g b, c.owner = .group g b → g.team ≠ inst) ∧
    (r.step = 1 → exec (.retire inst) s = .next (s.withDev (next { s.dev with mats := s.dev.mats.filter fun m => m.by_.team != inst }))) ∧
    (r.step = 7 → ∃ d : Dev, exec (.retire inst) s = .next (s.withDev d) ∧ d.mem = s.dev.mem ∧ ∀ q, s.dev.queue? gr.queue = some q →
      ∃ q', d.queue? gr.queue = some q' ∧ q'.deficit = q.deficit - (((s.dev.cycle - t.since) * gr.launch.units + 191) / 192 : Nat)) ∧
    (8 ≤ r.step → 1 < gr.left → ∃ d : Dev, exec (.retire inst) s = .next (s.withDev d) ∧ d.team? inst = none ∧
      ∃ g', d.grid? t.grid = some g' ∧ g'.left = gr.left - 1))

namespace Sys2Proof.Machine

/-! ## The mailbox -/

/-- The function has issued this command, Lute has not begun it, and the device runs an image (R366, R379). -/
structure Commanded (s : State) (pid opc : Nat) (p : Partition) : Prop where
  here   : s.dev.parts[pid]? = some p
  asks   : p.asks opc = true
  normal : s.fw.recovery = false

/-- `ins` ends the command: over the device `d`, its RESULT and its OUT words. -/
def Replies (ins : Instr) (s : State) (d : Dev) (pid : Nat) (r : BitVec 8) (out : List Word64) : Prop :=
  exec ins s = .next (s.withDev (d.answerCmd pid r out))

/-- `ins` leaves the command running over the device `d`, to be answered when `w` is over. -/
def Lasts (ins : Instr) (s : State) (d : Dev) (pid : Nat) (w : CmdWait) : Prop :=
  exec ins s = .next (s.withDev (d.modPart pid fun p => { p with box := { p.box with wait := some w } }))

/-- A command of R367: its function, its OPC, the operation that ARG word 0 names, and whether it is the PF's alone. -/
def commandOf : Instr → Option (Nat × Nat × Option Nat × Bool)
  | .loadModule p => some (p, 0x01, none, false)
  | .setRoot p => some (p, 0x02, none, false)
  | .invalidate p => some (p, 0x03, none, false)
  | .createQueue p => some (p, 0x04, none, false)
  | .destroyQueue p => some (p, 0x05, none, false)
  | .resumeQueue p => some (p, 0x06, none, false)
  | .createNode p => some (p, 0x07, none, false)
  | .destroyNode p => some (p, 0x08, none, false)
  | .registerChain p => some (p, 0x09, none, false)
  | .resumeChain p => some (p, 0x0A, none, false)
  | .dropChain p => some (p, 0x0B, none, false)
  | .faultCfg p => some (p, 0x0C, none, false)
  | .faultRead p => some (p, 0x0D, none, false)
  | .replayAll p => some (p, 0x0E, none, false)
  | .debugAttach p => some (p, 0x0F, some 1, false)
  | .debugDetach p => some (p, 0x0F, some 2, false)
  | .debugStop p => some (p, 0x0F, some 3, false)
  | .debugRead p => some (p, 0x0F, some 4, false)
  | .debugWrite p => some (p, 0x0F, some 5, false)
  | .cteWindow p => some (p, 0x10, none, false)
  | .cteEndpoint p => some (p, 0x11, none, false)
  | .partSet p => some (p, 0x20, none, true)
  | .partReset p => some (p, 0x21, none, true)
  | .peerSet p => some (p, 0x22, none, true)
  | .portMode p => some (p, 0x23, none, true)
  | .fecfg p => some (p, 0x24, none, true)
  | .writeSlot p => some (p, 0x25, some 1, true)
  | .bootOnce p => some (p, 0x25, some 2, true)
  | .commit p => some (p, 0x25, some 3, true)
  | .zreload p => some (p, 0x25, some 4, true)
  | .dumpRead p => some (p, 0x26, some 1, true)
  | .dumpClear p => some (p, 0x26, some 2, true)
  | .dumpConfig p => some (p, 0x26, some 3, true)
  | _ => none

end Sys2Proof.Machine

/-- What the host does to a function's page, each to its end (R366 to R368): reading STS clears LOST; a write of EVT clears the
bits it has set; a write of CMD begins a command, and while one runs sets LOST instead; one of an ARG word stores it;
unmasking a vector sends its pending message; and a command of an OPC that the table does not list ends with 0x01 and one of
an operation its command does not list with 0x03 (log 33). -/
def Obligations.PageEventsComplete : Prop :=
  ∀ (s : State) (pid : Nat) (p : Partition) (v : BitVec 64), s.dev.parts[pid]? = some p → p.resetting = none → s.fw.recovery = false →
    let to_ : Partition → State := fun q => s.withDev (s.dev.modPart pid fun _ => q)
    exec (.stsRead pid) s = .next (to_ { p with box := { p.box with lost := false } }) ∧
    exec (.evtClear pid v) s = .next (to_ { p with box := { p.box with evt := p.box.evt &&& ~~~(v.extractLsb' 0 6) } }) ∧
    (p.box.busy = true →
      exec (.mailboxWriteWhileBusy pid v) s = .next (to_ { p with box := { p.box with lost := true } }) ∧
      exec (.registerWrite pid 0 v) s = .next (to_ { p with box := { p.box with lost := true } })) ∧
    (p.box.busy = false → exec (.registerWrite pid 0 v) s = .next (to_ { p with box := { p.box with
      tag := v.extractLsb' 32 32, intr := v.getLsbD 8, opc := v.extractLsb' 0 8, busy := true } })) ∧
    (∀ k, k < 32 → exec (.registerWrite pid (0x100 + 8 * k) v) s = .next (to_ { p with box := { p.box with
      arg := fset 0 p.box.arg k v } })) ∧
    (∀ vec, vec < 64 →
      (vec ∉ p.box.pending → exec (.msixUnmask pid vec) s = .next (to_ { p with box := { p.box with
        masked := p.box.masked.filter (· != vec) } })) ∧
      (vec ∈ p.box.pending → exec (.msixUnmask pid vec) s = .next (to_ { p with box := { p.box with
        masked := p.box.masked.filter (· != vec), pending := p.box.pending.filter (· != vec)
        sent := fset 0 p.box.sent vec (fget 0 p.box.sent vec + 1) } }))) ∧
    (p.box.busy = true → p.box.wait = none → let opc := p.box.opc.toNat; let op := p.argN 0 % 256
      (opc = 0 ∨ (0x12 ≤ opc ∧ opc < 0x20) ∨ 0x26 < opc → exec (.unknownCommand pid) s = .next (s.withDev (s.dev.answerCmd pid 1 []))) ∧
      (opc = 0x0F ∧ (op = 0 ∨ 5 < op) ∨ pid = 0 ∧ opc = 0x25 ∧ (op = 0 ∨ 4 < op) ∨ pid = 0 ∧ opc = 0x26 ∧ (op = 0 ∨ 3 < op) →
        exec (.unknownCommand pid) s = .next (s.withDev (s.dev.answerCmd pid 3 []))))

/-- The registers of a function's page (R366, R368): what a write of CMD, of an ARG word, of EVT and of a vector's control
word does, and a write elsewhere nothing; LOST; what a completed command leaves in STS and OUT, and vector 0 only where
INTR asks for it, as a message or, masked, as a pending bit; an unmasked pending vector is sent.

Commands that are turned away (R366, R367, R379): the PF's commands from a VF, and in recovery every command but
FW_UPDATE and DUMP_READ, answer 0x02 and do nothing; an OPC that names no command answers 0x01, and an operation that names
none of its command's 0x03 (log 33). -/
def Obligations.MailboxAnswers : Prop :=
  ((∀ (d : Dev) (pid : Nat) (p : Partition) (r : BitVec 8) (out : List Word64), d.parts[pid]? = some p →
    ∃ p' : Partition, (d.answerCmd pid r out).parts[pid]? = some p' ∧ p'.box.busy = false ∧ p'.box.wait = none ∧ p'.box.result = r ∧
      p'.box.dtag = p.box.tag ∧ p'.box.arg = p.box.arg ∧ p'.box.evt = p.box.evt ∧ p'.box.lost = p.box.lost ∧ p'.rec_ = p.rec_ ∧
      (∀ k, fget 0 p'.box.out k = out.getD k (fget 0 p.box.out k)) ∧
      (p.box.intr = false → p'.box.pending = p.box.pending ∧ p'.box.sent = p.box.sent) ∧
      (p.box.intr = true → 0 ∈ p.box.masked → 0 ∈ p'.box.pending ∧ p'.box.sent = p.box.sent) ∧
      (p.box.intr = true → 0 ∉ p.box.masked → p'.box.pending = p.box.pending ∧
        ∀ k, fget 0 p'.box.sent k = fget 0 p.box.sent k + if k = 0 then 1 else 0) ∧
      ∀ k, k ≠ pid → (d.answerCmd pid r out).parts[k]? = d.parts[k]?) ∧
  (∀ (s : State) (pid : Nat) (p : Partition) (v : BitVec 64), s.dev.parts[pid]? = some p → s.fw.recovery = false →
    (∀ off, ∃ d : Dev, exec (.registerWrite pid off v) s = .next (s.withDev d) ∧ ∃ p', d.parts[pid]? = some p' ∧
      (off = 0 → p.resetting ≠ none → p' = p) ∧
      (off = 0 → p.resetting = none → p.box.busy = true → p' = { p with box := { p.box with lost := true } }) ∧
      (off = 0 → p.resetting = none → p.box.busy = false → p' = { p with box := { p.box with
        tag := v.extractLsb' 32 32, intr := v.getLsbD 8, opc := v.extractLsb' 0 8, busy := true } }) ∧
      (∀ k, k < 32 → off = 0x100 + 8 * k → p'.box.busy = p.box.busy ∧
        ∀ j, fget 0 p'.box.arg j = if j = k then v else fget 0 p.box.arg j) ∧
      (∀ n, n < 64 → off = 0x8000 + 16 * n → p' = { p with box := { p.box with msix := p'.box.msix } } ∧
        ∀ k, fget 0 p'.box.msix k = if k = 2 * n then v else fget 0 p.box.msix k) ∧
      (∀ n, n < 64 → off = 0x8000 + 16 * n + 8 →
        (∀ k, fget 0 p'.box.msix k = if k = 2 * n + 1 then v &&& 0xFFFFFFFF else fget 0 p.box.msix k) ∧
        ∀ k, k ∈ p'.box.masked ↔ if k = n then v.getLsbD 32 = true else k ∈ p.box.masked)) ∧
    (∀ off, off ≠ 0 → (0x100 ≤ off → off < 0x200 → off % 8 ≠ 0) → (0x8000 ≤ off → off < 0x8400 → off % 8 ≠ 0) →
      exec (.registerWrite pid off v) s = .next s)) ∧
  (∀ (s : State) (pid : Nat) (p : Partition) (v : BitVec 64), s.dev.parts[pid]? = some p →
    (p.box.busy = true → exec (.mailboxWriteWhileBusy pid v) s = .next (s.withDev (s.dev.modPart pid fun p =>
      { p with box := { p.box with lost := true } }))) ∧
    exec (.stsRead pid) s = .next (s.withDev (s.dev.modPart pid fun p => { p with box := { p.box with lost := false } })) ∧
    ∃ (d : Dev) (p' : Partition), exec (.evtClear pid v) s = .next (s.withDev d) ∧ d.parts[pid]? = some p' ∧
      p' = { p with box := { p.box with evt := p'.box.evt } } ∧
      ∀ k, k < 6 → p'.box.evt.getLsbD k = (p.box.evt.getLsbD k && !v.getLsbD k)) ∧
  (∀ (s : State) (pid vec : Nat) (p : Partition), s.dev.parts[pid]? = some p → vec < 64 →
    ∃ (d : Dev) (p' : Partition), exec (.msixUnmask pid vec) s = .next (s.withDev d) ∧ d.parts[pid]? = some p' ∧
      vec ∉ p'.box.masked ∧ vec ∉ p'.box.pending ∧ (∀ k, k ≠ vec → (k ∈ p'.box.masked ↔ k ∈ p.box.masked) ∧
        (k ∈ p'.box.pending ↔ k ∈ p.box.pending) ∧ fget 0 p'.box.sent k = fget 0 p.box.sent k) ∧
      fget 0 p'.box.sent vec = fget 0 p.box.sent vec + if vec ∈ p.box.pending then 1 else 0)) ∧
  ((∀ (ins : Instr) (s : State) (pid opc : Nat) (op : Option Nat) (pf : Bool) (p : Partition), commandOf ins = some (pid, opc, op, pf) →
    s.dev.parts[pid]? = some p → p.asks opc = true → (∀ k, op = some k → p.argN 0 % 256 = k) →
    (ins = .resumeChain pid → ∀ c ∈ s.dev.chains, c.pid = pid → c.halted = true → c.told = true) →
    (pf = true ∧ pid ≠ 0) ∨ (s.fw.recovery = true ∧ opc ≠ 0x25 ∧ opc ≠ 0x26) → Replies ins s s.dev pid 2 []) ∧
  (∀ (s : State) (pid opc : Nat) (p : Partition), Commanded s pid opc p →
    opc = 0 ∨ (0x12 ≤ opc ∧ opc < 0x20) ∨ 0x26 < opc → Replies (.unknownCommand pid) s s.dev pid 1 []) ∧
  (∀ (s : State) (pid opc : Nat) (p : Partition), Commanded s pid opc p → (opc = 0x0F ∨ pid = 0) →
    opc = 0x0F ∧ (p.argN 0 % 256 = 0 ∨ 5 < p.argN 0 % 256) ∨ opc = 0x25 ∧ (p.argN 0 % 256 = 0 ∨ 4 < p.argN 0 % 256) ∨
      opc = 0x26 ∧ (p.argN 0 % 256 = 0 ∨ 3 < p.argN 0 % 256) → Replies (.unknownCommand pid) s s.dev pid 3 []))

/-- SET_ROOT and INVALIDATE (R161, R165, R365, R367): an ASID of the caller's own takes a root that the windows allow; no
translation of the range is left in any TLB, translations of other ASIDs are, and the command answers at once only where no
access whose pages were found before it is still to perform.

Queues' commands (R40, R42, R47, R48, R367): a descriptor that keeps R40 makes a queue on the lowest lane and page free,
with HEAD and KICK at SEQ0; DESTROY_QUEUE ends its work and answers when it has gone; RESUME_QUEUE lifts a halt. -/
def Obligations.RootsAndQueuesMade : Prop :=
  ((∀ (s : State) (pid : Nat) (p : Partition), Commanded s pid 2 p →
    let (asid, root) := (p.argN 0, p.argN 1)
    if p.rec_.ownsAsid asid = true ∧ root % 16 = 0 ∧ paLegal s.dev.capacity root = true ∧ p.rec_.allows root 16 = true then
      ∃ d : Dev, Replies (.setRoot pid) s d pid 0 [] ∧ d = { s.dev with roots := d.roots } ∧
        ∀ a, fget 0 d.roots a = if a = asid then root + 1 else fget 0 s.dev.roots a
    else Replies (.setRoot pid) s s.dev pid 3 []) ∧
  (∀ (s : State) (pid : Nat) (p : Partition), Commanded s pid 3 p →
    let (asid, va, n) := (p.argN 0, p.argN 1, p.argN 2)
    let clear : Leaf → Prop := fun l => l.asid = asid → l.base + l.size ≤ va ∨ va + n ≤ l.base
    (p.rec_.ownsAsid asid = false → Replies (.invalidate pid) s s.dev pid 3 []) ∧
    (p.rec_.ownsAsid asid = true → ∃ d : Dev,
      (s.dev.openUnder asid va n = [] → Replies (.invalidate pid) s d pid 0 []) ∧
      (s.dev.openUnder asid va n ≠ [] → Lasts (.invalidate pid) s d pid (.calls (s.dev.openUnder asid va n))) ∧
      d = { s.dev with cores := d.cores, dies := d.dies } ∧
      (∀ x ∈ d.dies, ∀ l ∈ x.l2tlb, clear l) ∧ (∀ x ∈ d.cores, ∀ l ∈ x.2.tlb, clear l) ∧
      (∀ (k : Nat) (x : Die), s.dev.dies[k]? = some x → ∃ y, d.dies[k]? = some y ∧ (∀ l ∈ x.l2tlb, clear l → l ∈ y.l2tlb) ∧
        y = { x with l2tlb := y.l2tlb }) ∧
      ∀ (k : Nat) (x : Nat × Core), s.dev.cores[k]? = some x → ∃ y, d.cores[k]? = some y ∧ y.1 = x.1 ∧
        (∀ l ∈ x.2.tlb, clear l → l ∈ y.2.tlb) ∧ y.2 = { x.2 with tlb := y.2.tlb }))) ∧
  ((∀ (s : State) (pid : Nat) (p : Partition) (d : Dev), Commanded s pid 4 p →
    (s.dev.descriptor p (p.argN 0) (p.argN 1) = (d, none) → Replies (.createQueue pid) s d pid 3 []) ∧
    (∀ ws, s.dev.descriptor p (p.argN 0) (p.argN 1) = (d, some ws) →
      let f := fun (k lo n : Nat) => bits (ws.getD k 0).toNat lo n
      (p.queueBad ws = true ∨ f 3 0 12 ≠ p.argN 1 ∨ p.rec_.nvec ≤ p.argN 2 → Replies (.createQueue pid) s d pid 3 []) ∧
      (p.queueBad ws = false → f 3 0 12 = p.argN 1 → p.argN 2 < p.rec_.nvec →
        (d.freeLane (BitVec.ofNat 4 (f 1 60 4)) = none → Replies (.createQueue pid) s d pid 4 []) ∧
        (∀ num page, d.freeLane (BitVec.ofNat 4 (f 1 60 4)) = some num →
          lowestFree ((d.queues.filter fun q => q.pid == pid).map (·.page)) 256 = some page →
          ∃ q : Queue, Replies (.createQueue pid) s { d with queues := d.queues ++ [q] } pid 0 [BitVec.ofNat 64 num, BitVec.ofNat 64 page] ∧
            q.num = num ∧ q.page = page ∧ q.pid = pid ∧ q.asid = p.argN 1 ∧ q.vec = p.argN 2 ∧ q.head = (ws.getD 2 0).extractLsb' 0 32 ∧
            q.kick = q.head ∧ q.logn = f 0 52 4 ∧ q.ring = f 0 0 48 ∧ q.stat = f 1 0 48 ∧ q.wgt = f 1 48 8 ∧ q.prio = f 2 32 3 ∧
            q.halted = false ∧ q.err = false ∧ q.taken = [] ∧ q.deficit = 0)))) ∧
  (∀ (d : Dev) (dies : BitVec 4) (num : Nat), d.freeLane dies = some num → num < 256 ∧ dies.getLsbD (num / 64) = true ∧
    (∀ q ∈ d.queues, q.num ≠ num) ∧ ∀ n, n < num → dies.getLsbD (n / 64) = true → ∃ q ∈ d.queues, q.num = n) ∧
  (∀ (p : Partition) (ws : List Word64), p.queueBad ws = false →
    let f := fun (k lo n : Nat) => bits (ws.getD k 0).toNat lo n
    2 ≤ f 0 52 4 ∧ f 0 0 12 = 0 ∧ f 1 60 4 ≠ 0 ∧ 1 ≤ f 1 48 8 ∧ f 1 0 3 = 0 ∧ f 2 32 3 ≤ p.rec_.ceil ∧ p.rec_.ownsAsid (f 3 0 12) = true ∧
      ∀ k, 4 ≤ k → ws.getD k 0 = 0) ∧
  (∀ (s : State) (pid : Nat) (p : Partition), Commanded s pid 5 p →
    (s.dev.ownQueue? pid (p.argN 0) = none → Replies (.destroyQueue pid) s s.dev pid 3 []) ∧
    (∀ q, s.dev.ownQueue? pid (p.argN 0) = some q → ∃ (d : Dev) (q' : Queue), Lasts (.destroyQueue pid) s d pid (.queue q.num) ∧
      d.queue? q.num = some q' ∧ q'.dying = true ∧ (∀ g ∈ d.graphs, g.queue = q.num → g.aborted = true ∧ g.stopped = true) ∧
      ∀ g ∈ s.dev.grids, g.queue = q.num → g.origin.ofNode = false → ∀ u ∈ d.pending, u.grid ≠ g.id)) ∧
  (∀ (s : State) (pid : Nat) (p : Partition), Commanded s pid 6 p →
    (s.dev.ownQueue? pid (p.argN 0) = none → Replies (.resumeQueue pid) s s.dev pid 3 []) ∧
    (∀ q, s.dev.ownQueue? pid (p.argN 0) = some q →
      Replies (.resumeQueue pid) s (s.dev.modQueue q.num fun q => { q with halted := false }) pid 0 [])))

/-- Nodes' commands (R58, R367, R391): a descriptor whose queue is the caller's and of the same ASID makes a node under the
lowest free id, its buffers empty; DESTROY_NODE ends its id for producers and answers when it has gone.

Chains' commands (R281, R282, R367): a descriptor that keeps R281 and names no chain yet makes one with its count at 0,
and its CWORD is written as 0; RESUME_CHAIN
lifts a halt that has been told; DROP_CHAIN leaves no chain. -/
def Obligations.NodesAndChainsMade : Prop :=
  ((∀ (s : State) (pid : Nat) (p : Partition) (d : Dev), Commanded s pid 7 p →
    (s.dev.descriptor p (p.argN 0) (p.argN 1) = (d, none) → Replies (.createNode pid) s d pid 3 []) ∧
    (∀ ws, s.dev.descriptor p (p.argN 0) (p.argN 1) = (d, some ws) →
      (d.nodeOf pid (p.argN 1) ws = none → Replies (.createNode pid) s d pid 3 []) ∧
      (∀ n, d.nodeOf pid (p.argN 1) ws = some n →
        (lowestFree (d.nodes.map (·.id)) 4096 = none → Replies (.createNode pid) s d pid 4 []) ∧
        (∀ id, lowestFree (d.nodes.map (·.id)) 4096 = some id → (∀ m ∈ d.nodes, m.id ≠ id) ∧
          Replies (.createNode pid) s { d with nodes := d.nodes ++ [{ n with id }] } pid 0 [BitVec.ofNat 64 id])))) ∧
  (∀ (d : Dev) (pid asid : Nat) (ws : List Word64) (n : Node), d.nodeOf pid asid ws = some n →
    2 ≤ n.nbuf ∧ n.nbuf ≤ 64 ∧ 1 ≤ n.bcap ∧ n.bcap ≤ 1024 ∧ 1 ≤ n.rsz ∧ n.rsz ≤ 256 ∧ n.rsz % 8 = 0 ∧ n.bufs.length = n.nbuf ∧
      (∀ b ∈ n.bufs, b = emptyBuf) ∧ n.pid = pid ∧ n.asid = asid ∧ n.destroyed = false ∧ n.firing = 0 ∧
      ∃ q, d.queue? n.ownq = some q ∧ q.pid = pid ∧ q.asid = asid) ∧
  (∀ (s : State) (pid : Nat) (p : Partition), Commanded s pid 8 p →
    (s.dev.liveNode? pid (p.argN 0) = none → Replies (.destroyNode pid) s s.dev pid 3 []) ∧
    (∀ n, s.dev.liveNode? pid (p.argN 0) = some n → ∃ d : Dev, Lasts (.destroyNode pid) s d pid (.node n.id) ∧
      d.node? n.id = some { n with destroyed := true } ∧ d.liveNode? pid n.id = none ∧ d.mem = s.dev.mem ∧
      ∀ k, k ≠ n.id → d.node? k = s.dev.node? k))) ∧
  ((∀ (s : State) (pid : Nat) (p : Partition) (d : Dev), Commanded s pid 9 p →
    (s.dev.descriptor p (p.argN 0) (p.argN 1) = (d, none) → Replies (.registerChain pid) s d pid 3 []) ∧
    (∀ ws, s.dev.descriptor p (p.argN 0) (p.argN 1) = (d, some ws) →
      (chainBad ws = true ∨ d.chain? (chainKey pid (p.argN 0)) ≠ none → Replies (.registerChain pid) s d pid 3 []) ∧
      (chainBad ws = false → d.chain? (chainKey pid (p.argN 0)) = none → ∃ c : Chain,
        c.addr = p.argN 0 ∧ c.pid = pid ∧ c.asid = p.argN 1 ∧ c.eng = bits (ws.getD 0 0).toNat 60 4 ∧ c.logn = bits (ws.getD 0 0).toNat 56 4 ∧
        c.ring = bits (ws.getD 0 0).toNat 0 48 ∧ c.tgt = bits (ws.getD 1 0).toNat 48 16 ∧ c.cword = bits (ws.getD 1 0).toNat 0 48 ∧
        c.head = 0 ∧ c.tail = 0 ∧ c.lead = 0 ∧ c.done = [] ∧ c.halted = false ∧ ∃ t : Dev, Replies (.registerChain pid) s t pid 0 [] ∧
        (∀ d', ({ d with chains := d.chains ++ [c] } : Dev).engWrite c.die pid c.asid c.cword (natBytes 8 0) = (d', .ok ()) →
          t.mem = d'.mem ∧ ∃ c', t.chain? (chainKey pid (p.argN 0)) = some c' ∧ c' = { c with due := false })))) ∧
  (∀ (s : State) (pid : Nat) (p : Partition), Commanded s pid 10 p →
    let key := chainKey pid (p.argN 0)
    ((∃ c ∈ s.dev.chains, c.pid = pid ∧ c.addr = p.argN 0 ∧ c.halted = true ∧ c.told = false) → ∃ e, exec (.resumeChain pid) s = .refused e) ∧
    ((∀ c ∈ s.dev.chains, c.pid = pid → c.addr = p.argN 0 → c.halted = true → c.told = true) →
    (s.dev.chain? key = none → Replies (.resumeChain pid) s s.dev pid 3 []) ∧
    (∀ c, s.dev.chain? key = some c → c.halted = false → Replies (.resumeChain pid) s s.dev pid 0 []) ∧
    (∀ c, s.dev.chain? key = some c → c.halted = true → ∃ (d : Dev) (c' : Chain), Replies (.resumeChain pid) s d pid 0 [] ∧
      d.chain? key = some c' ∧ c'.halted = false ∧ c'.code = 0 ∧ c'.tail = c.tail ∧ c'.ring = c.ring ∧ c.lead ≤ c'.lead ∧
      ∀ k, k ≠ key → d.chain? k = s.dev.chain? k))) ∧
  (∀ (s : State) (pid : Nat) (p : Partition), Commanded s pid 11 p →
    let key := chainKey pid (p.argN 0)
    (s.dev.chain? key = none → Replies (.dropChain pid) s s.dev pid 3 []) ∧
    (s.dev.chain? key ≠ none → ∃ d : Dev, Replies (.dropChain pid) s d pid 0 [] ∧ d.chain? key = none ∧ d.mem = s.dev.mem ∧
      ∀ k, k ≠ key → d.chain? k = s.dev.chain? k)))

/-- The fault buffer (R317, R318, R320): FAULT_CFG sets DEPTH while no entry is held; FAULT_READ gives the register and up to
seven entries of four words; REPLAY_ALL empties the buffer and releases what faults have parked or held.

The debugger (R334): attached, it stops a group, reads and writes the registers of one that has stopped, and its going
lets every group go on; a group of another partition, or one that has not stopped, answers 0x03. -/
def Obligations.FaultsAndDebugger : Prop :=
  ((∀ (s : State) (pid : Nat) (p : Partition), Commanded s pid 12 p →
    let (n, vec) := (p.argN 0, p.argN 1)
    if 8 ≤ n ∧ n ≤ 512 ∧ vec < p.rec_.nvec then
      Replies (.faultCfg pid) s (s.dev.modPart pid fun p =>
        if p.entries = [] then { p with depth := n, seq := 0, fvec := vec } else { p with fvec := vec }) pid 0 []
    else Replies (.faultCfg pid) s s.dev pid 3 []) ∧
  (∀ (s : State) (pid : Nat) (p : Partition), Commanded s pid 13 p → ∃ out : List Word64,
    Replies (.faultRead pid) s s.dev pid 0 out ∧ out[0]? = some p.faultWord ∧
    out.length = 1 + 4 * min 7 (p.entries.length - p.argN 0) ∧
    ∀ (k : Nat) (e : FaultEntry), k < 7 → p.entries[p.argN 0 + k]? = some e →
      (out.drop (1 + 4 * k)).take 4 = e.words) ∧
  (∀ p : Partition, p.entries.length < 2 ^ 16 → p.depth < 2 ^ 16 → p.faultWord.getLsbD 63 = p.drop ∧
    p.faultWord.extractLsb' 32 16 = p.dropn ∧ (p.faultWord.extractLsb' 16 16).toNat = p.entries.length ∧
    (p.faultWord.extractLsb' 0 16).toNat = p.depth) ∧
  (∀ (s : State) (pid : Nat) (p : Partition), Commanded s pid 14 p → ∃ (d : Dev) (p' : Partition),
    let mine : Nat → Prop := fun gid => (s.dev.grid? gid).map (·.pid) = some pid
    Replies (.replayAll pid) s d pid 0 [] ∧ d.parts[pid]? = some p' ∧ p' = { p with entries := [], keys := [], drop := false, dropn := 0 } ∧
    d.mem = s.dev.mem ∧ d.grids = s.dev.grids ∧
    (∀ (k : Nat) (t : Team), s.dev.teams[k]? = some t → (¬ mine t.grid → d.teams[k]? = some t) ∧
      (mine t.grid → ∃ t', d.teams[k]? = some t' ∧ t'.groups.length = t.groups.length ∧
        ∀ (j : Nat) (g : Group), t.groups[j]? = some g → ∃ g', t'.groups[j]? = some g' ∧ g'.parked = false ∧
          g' = { g with parked := false, splits := g'.splits } ∧ (g.parked = false → g' = g) ∧
          (g.parked = true → ∀ x ∈ g'.splits, x.wait ≠ .parked))) ∧
    (∀ c ∈ d.copies, c.pid = pid → c.held = false) ∧ (∀ c ∈ d.chains, c.pid = pid → c.held = false) ∧
    (∀ c ∈ d.ctxs, c.pid = pid → c.held = false) ∧ ∀ j ∈ d.jobs, j.pid = pid → j.held = false)) ∧
  ((∀ (s : State) (pid : Nat) (p : Partition), Commanded s pid 15 p →
    let op := p.argN 0 % 256
    (op = 1 → Replies (.debugAttach pid) s (s.dev.modPart pid fun p => { p with debugger := true }) pid 0 []) ∧
    (op = 2 → ∃ d : Dev, Replies (.debugDetach pid) s d pid 0 [] ∧ (∃ p', d.parts[pid]? = some p' ∧ p' = { p with debugger := false }) ∧
      ∀ t ∈ d.teams, (s.dev.grid? t.grid).map (·.pid) = some pid → ∀ g ∈ t.groups, g.stop = false) ∧
    (op = 3 → (s.dev.debugGroup? p = none → Replies (.debugStop pid) s s.dev pid 3 []) ∧ ∀ r g, s.dev.debugGroup? p = some (r, g) →
      Replies (.debugStop pid) s (s.dev.modGroup r fun g => { g with stop := true }) pid 0 []) ∧
    (op = 4 → (∀ r g w, s.dev.debugGroup? p = some (r, g) → g.stopped = true → g.debugRead (p.argN 4) (p.argN 5) (p.argN 6) = some w →
        Replies (.debugRead pid) s s.dev pid 0 [w]) ∧
      ((∀ r g, s.dev.debugGroup? p = some (r, g) → g.stopped = false) → Replies (.debugRead pid) s s.dev pid 3 [])) ∧
    (op = 5 → (∀ r g w, s.dev.debugGroup? p = some (r, g) → g.stopped = true → g.debugRead (p.argN 4) (p.argN 5) (p.argN 6) = some w →
        Replies (.debugWrite pid) s (s.dev.modGroup r (·.debugWrite (p.argN 4) (p.argN 5) (p.argN 6) (p.arg 7))) pid 0 []) ∧
      ((∀ r g, s.dev.debugGroup? p = some (r, g) → g.stopped = false) → Replies (.debugWrite pid) s s.dev pid 3 []))) ∧
  (∀ (d : Dev) (p : Partition) (r : GroupRef) (g : Group), d.debugGroup? p = some (r, g) → p.debugger = true ∧
    ∃ x, d.grid? (p.argN 1) = some x ∧ x.pid = p.pid ∧ g.num = p.argN 3) ∧
  (∀ (g : Group) (kind lane n : Nat) (w v : Word64), g.slices.length ≤ 8 → g.debugRead kind lane n = some v →
    (g.debugWrite kind lane n w).debugRead kind lane n = some (match kind with
      | 0 => if n = 255 then 0 else w &&& 0xFFFFFFFF#64
      | 1 => (w &&& 0x7F#64) ||| 0x80#64
      | 2 => if n = 63 then 0 else w
      | _ => if n = 0 then w &&& 0x0000FFFFFFFFFFFF else if n = 3 then w &&& 0xF000FFFFFFFFFFFF else w)))

namespace Sys2Proof.Machine

/-! ## The PF's commands, resets, firmware, the dump -/

end Sys2Proof.Machine

/-- PART_SET (R364, R382): a record within R364's limits, that overlaps no other partition's ranges and shares no more than
the homes have, becomes the partition's, and fresh keys are made for key ids newly granted; any other answers 0x03.

Resets (R369): a partition's begins once, and ends its running command with 0x05; the PF's begins every partition's. -/
def Obligations.PartitionsHeld : Prop :=
  ((∀ (s : State) (p q : Partition), Commanded s 0 0x20 p → s.dev.parts[p.argN 0]? = some q →
    let n := p.argN 0
    let bs := s.dev.hostRd (p.argN 1) 320
    let ws := (List.range 40).map fun k => BitVec.ofNat 64 (bytesNat ((bs.drop (8 * k)).take 8))
    let r := PartRec.ofWords ws
    let granted := fun (x : PartRec) (k : Nat) => x.keyb ≤ k ∧ k < x.keyb + x.keyn
    if n < 64 ∧ partRecBad ws = false ∧ (∀ x ∈ s.dev.parts, x.pid ≠ n →
          rangesMeet r.asidb r.asidn x.rec_.asidb x.rec_.asidn = false ∧ rangesMeet r.keyb r.keyn x.rec_.keyb x.rec_.keyn = false) ∧
        r.hshare + ((s.dev.parts.filter fun x => x.pid != n).map fun x => x.rec_.hshare).sum ≤ 128 ∧
        (s.dev.partBusy n = true → r.fixedPart = q.rec_.fixedPart) then
      ∃ d : Dev, Replies (.partSet 0) s d 0 0 [] ∧ d = { s.dev with keyGen := d.keyGen, parts := d.parts } ∧
        (∀ k, d.parts[k]? = if k = n then some { q with rec_ := r } else s.dev.parts[k]?) ∧
        ∀ k, (granted r k ∧ ¬ granted q.rec_ k → fget 0 d.keyGen k = fget 0 s.dev.keyGen k + 1) ∧
          (¬ (granted r k ∧ ¬ granted q.rec_ k) → fget 0 d.keyGen k = fget 0 s.dev.keyGen k)
    else Replies (.partSet 0) s s.dev 0 3 []) ∧
  (∀ ws : List Word64, partRecBad ws = false → let r := PartRec.ofWords ws
    r.asidb + r.asidn ≤ 4096 ∧ 1 ≤ r.keyb ∧ r.keyb + r.keyn ≤ 256 ∧ 1 ≤ r.nvec ∧ r.nvec ≤ 64 ∧ 1000 ≤ r.pw ∧ r.maxl ≤ 4000 ∧
      1 ≤ r.lshare ∧ r.hshare ≤ 128 ∧ 1 ≤ r.p ∧ r.saveb % 2 ^ 14 = 0 ∧ r.savesz % 2 ^ 14 = 0 ∧
      ∀ w ∈ r.dwin ++ r.hwin, w.1 % 2 ^ 25 = 0 ∧ w.1 ≤ w.2)) ∧
  ((∀ (d : Dev) (n : Nat) (q : Partition), d.parts[n]? = some q →
    (q.resetting ≠ none → d.beginReset n = d) ∧
    (q.resetting = none → ∃ q' : Partition, (d.beginReset n).parts[n]? = some q' ∧ q'.resetting = some 1 ∧ q'.box.busy = false ∧
      (q.box.busy = true → q'.box.result = 5) ∧ q'.rec_ = q.rec_ ∧ (d.beginReset n).mem = d.mem ∧ (d.beginReset n).teams = d.teams ∧
      ∀ k, k ≠ n → (d.beginReset n).parts[k]? = d.parts[k]?)) ∧
  (∀ (s : State) (p : Partition), Commanded s 0 0x21 p →
    (63 < p.argN 0 → Replies (.partReset 0) s s.dev 0 3 []) ∧
    (p.argN 0 = 0 → Replies (.partReset 0) s (s.dev.modPart 0 fun p => { p with resetting := some 1 }) 0 5 []) ∧
    (p.argN 0 ≠ 0 → p.argN 0 ≤ 63 → Replies (.partReset 0) s (s.dev.beginReset (p.argN 0)) 0 0 [])) ∧
  (∀ (s : State) (n : Nat), n ≠ 0 → n < 64 → exec (.functionLevelReset n) s = .next (s.withDev (s.dev.beginReset n))) ∧
  (∀ s : State, s.dev.parts.length = 64 → ∃ d : Dev, exec (.functionLevelReset 0) s = .next (s.withDev d) ∧ d.pfReset = true ∧
    d.mem = s.dev.mem ∧ ∀ q ∈ d.parts, q.resetting ≠ none))

/-- PEER_SET, PORT_MODE, FECFG, CTE_WINDOW and CTE_ENDPOINT (R50, R370 to R375): what each accepts is set, and what breaks
its limits answers 0x03.

The cache transfer engine, Parzon and Ethernet (R369 to R376): a send chain's entry becomes its blocks, and each whose
source has been read is converted and sent, to an endpoint in datagrams of at most 8,192 bytes; the last acknowledgement
removes its block, and the last block of an entry completes it, while a refusal halts the chain with its code; a datagram
unanswered by an endpoint for 100 microseconds is sent again, 16 times, and then the chain halts with 0x12. What no window
takes, or has come before, changes nothing, and any other is kept once. A failed flit is replayed 8 times, then the port retrains or goes down with EVT[3]; a port comes up for a
peer only with its identity; Ethernet frames that are no datagram of the engine are counted and dropped. -/
def Obligations.LinksWork : Prop :=
  ((∀ (s : State) (p : Partition), Commanded s 0 0x22 p →
    let (n, mask) := (p.argN 0, p.argN 2)
    let none_ : Peer := { identity := 0, ports := 0 }
    if n < 64 ∧ mask < 2 ^ 24 ∧ ∀ k, k < 24 → bits mask k 1 = 1 → s.dev.koraPort k = false ∧ ∀ q, s.dev.ports[k]? = some q → q.mode ≠ .ethernet then
      ∃ d : Dev, Replies (.peerSet 0) s d 0 0 [] ∧ d.ports = s.dev.ports ∧
        ∀ k, fget none_ d.peers k = if k = n then { identity := p.argN 1, ports := BitVec.ofNat 24 mask } else fget none_ s.dev.peers k
    else Replies (.peerSet 0) s s.dev 0 3 []) ∧
  (∀ (s : State) (p : Partition) (q : Port), Commanded s 0 0x23 p → s.dev.ports[p.argN 0]? = some q →
    let n := p.argN 0
    (2 < p.argN 1 ∨ 23 < n ∨ s.dev.koraPort n = true → Replies (.portMode 0) s s.dev 0 3 []) ∧
    (p.argN 1 = 2 → (∃ x ∈ s.dev.peers, x.2.ports.getLsbD n = true) → Replies (.portMode 0) s s.dev 0 3 []) ∧
    (∀ m, portMode? (p.argN 1) = some m → n ≤ 23 → s.dev.koraPort n = false → (m = .ethernet → ∀ x ∈ s.dev.peers, x.2.ports.getLsbD n = false) →
      (q.mode = m → Replies (.portMode 0) s s.dev 0 0 []) ∧
      (q.mode ≠ m → ∃ d : Dev, Replies (.portMode 0) s d 0 0 [] ∧ (∃ q', d.ports[n]? = some q' ∧ q'.mode = m ∧ q'.up = false) ∧
        ∀ k, k ≠ n → d.ports[k]? = s.dev.ports[k]?))) ∧
  (∀ (s : State) (p : Partition) (x : Die), Commanded s 0 0x24 p → s.dev.dies[p.argN 0]? = some x →
    let f := fun (lo n : Nat) => bits (p.argN 1) lo n
    if p.argN 0 ≤ 3 ∧ 1 ≤ f 32 8 ∧ f 32 8 ≤ 7 ∧ 192 ≤ f 16 16 ∧ 1 ≤ f 0 16 then
      ∃ d : Dev, Replies (.fecfg 0) s d 0 0 [] ∧ d = { s.dev with dies := d.dies } ∧
        ∀ k, d.dies[k]? = if k = p.argN 0 then some { x with pregap := f 32 8, rampu := f 16 16, ageus := f 0 16 } else s.dev.dies[k]?
    else Replies (.fecfg 0) s s.dev 0 3 []) ∧
  (∀ (s : State) (pid : Nat) (p : Partition), Commanded s pid 0x10 p →
    let (id, asid, table, cnt) := (p.argN 0, p.argN 1, p.argN 2, p.argN 5)
    (1024 ≤ id ∨ p.rec_.ownsAsid asid = false ∨ table % 8 ≠ 0 ∨ cnt % 8 ≠ 0 → Replies (.cteWindow pid) s s.dev pid 3 []) ∧
    (id < 1024 → p.rec_.ownsAsid asid = true → table % 8 = 0 → cnt % 8 = 0 → table < 2 ^ 48 → cnt < 2 ^ 48 →
      (∀ q ∈ s.dev.parts, q.pid ≠ pid → ∀ w ∈ q.windows, w.id ≠ id) →
      ∃ (d : Dev) (w : CteWindow), Replies (.cteWindow pid) s d pid 0 [] ∧ w.id = id ∧ w.asid = asid ∧ w.table = table ∧ w.cnt = cnt ∧
        w.ndst = p.argN 3 ∧ w.blk = p.argN 4 ∧ w.seen = [] ∧ w.parts = [] ∧ (∀ k, k < 64 → w.opens k = (p.arg 6).getLsbD k) ∧
        ∃ p', d.parts[pid]? = some p' ∧ p' = { p with windows := p'.windows } ∧ w ∈ p'.windows ∧ (∀ x ∈ p'.windows, x.id = id → x = w) ∧
          ∀ x ∈ p.windows, x.id ≠ id → x ∈ p'.windows)) ∧
  (∀ (s : State) (pid : Nat) (p : Partition), Commanded s pid 0x11 p →
    (256 ≤ p.argN 0 → Replies (.cteEndpoint pid) s s.dev pid 3 []) ∧
    (p.argN 0 < 256 → ∃ (d : Dev) (e : CteEndpoint) (p' : Partition), Replies (.cteEndpoint pid) s d pid 0 [] ∧ d.parts[pid]? = some p' ∧
      e.id = p.argN 0 ∧ (∀ k, k < 6 → e.args[k]? = some (p.arg (k + 1))) ∧ e ∈ p'.endpoints ∧
      ∀ x ∈ p.endpoints, x.id ≠ e.id → x ∈ p'.endpoints))) ∧
  ((∀ (s : State) (key : Nat) (c : Chain) (b : CteBlock), s.dev.chain? key = some c → c.eng = 4 → c.halted = false →
    s.dev.blocks.find? (fun x => x.chain == key && x.data.isNone && x.left.isEmpty) = some b →
    (b.dest < 64 → s.dev.peerDead b.dest = true → exec (.cteSend key) s = .next (s.withDev (s.dev.chainHalt c.key 0x12))) ∧
    ((b.dest < 64 → s.dev.peerDead b.dest = false) →
      let data := convert b.conv ((List.range b.size).map fun k => fget 0 b.got k)
      ∃ grams : List CteGram, exec (.cteSend key) s = .next (s.withDev (s.dev.modBlock b fun x => { x with data := some data, grams })) ∧
        (∀ g ∈ grams, g.resends = 0 ∧ g.sentAt = s.dev.cycle) ∧
        grams.map (·.off) = (List.range (if b.dest < 64 then 1 else (data.length + 8191) / 8192)).map (8192 * ·))) ∧
  (∀ (s : State) (key : Nat) (c : Chain) (d d' : Dev) (ws srcs : List Word64), s.dev.chain? key = some c → c.eng = 4 → c.takes = true →
    (∀ b ∈ s.dev.blocks, b.chain = key → b.data ≠ none ∨ b.left ≠ []) → s.dev.readEntry c = (d, some ws) →
    let e := CteEntry.ofWords ws
    ((d.part c.pid).cteBad ws = true → exec (.cteSend key) s = .next (s.withDev (d.chainHalt key 2))) ∧
    ((d.part c.pid).cteBad ws = false → d.engWords c.die c.pid c.asid e.table e.nblk = (d', .ok srcs) →
      (∀ a ∈ srcs, a.toNat % 2 ^ e.logb = 0) →
      ∃ (t : Dev) (news : List CteBlock), exec (.cteSend key) s = .next (s.withDev t) ∧ t.blocks = d'.blocks ++ news ∧ t.mem = s.dev.mem ∧
        news.length = srcs.length ∧ ∀ (k : Nat) (a : Word64), srcs[k]? = some a → ∃ b, news[k]? = some b ∧ b.chain = key ∧ b.entry = c.head ∧
          b.block = k ∧ b.src = a.toNat ∧ b.size = 2 ^ e.logb ∧ b.win = e.win ∧ b.idx = e.didx + k ∧ b.data = none ∧ b.conv = e.conv ∧
          b.left = List.range ((2 ^ e.logb + 31) / 32) ∧ b.got = [] ∧ b.held = false ∧ b.grams = [] ∧
          b.dest = (if e.eth = true then 64 + e.dest else e.dest))) ∧
  (∀ (s : State) (chain entry block off : Nat) (b : CteBlock), s.dev.block? chain entry block = some b → (∃ g ∈ b.grams, g.off = off) →
    (∀ code : BitVec 8, code = 0x10 ∨ code = 0x11 ∨ code = 0x14 →
      exec (.cteAck chain entry ⟨block, off⟩ code) s = .next (s.withDev (s.dev.chainHalt chain code))) ∧
    ((∃ g ∈ b.grams, g.off ≠ off) → exec (.cteAck chain entry ⟨block, off⟩ 0) s = .next (s.withDev
      (s.dev.modBlock b fun x => { x with grams := b.grams.filter (·.off != off) }))) ∧
    ((∀ g ∈ b.grams, g.off = off) → ∃ d : Dev, exec (.cteAck chain entry ⟨block, off⟩ 0) s = .next (s.withDev d) ∧ d.mem = s.dev.mem ∧
      d.blocks = s.dev.blocks.filter (fun x => !(x.chain == chain && x.entry == entry && x.block == block)) ∧
      ((∃ x ∈ d.blocks, x.chain = chain ∧ x.entry = entry) → d.chains = s.dev.chains) ∧
      ((∀ x ∈ d.blocks, x.chain ≠ chain ∨ x.entry ≠ entry) → d.chains = (s.dev.chainDone chain entry).chains))) ∧
  (∀ (s : State) (chain entry block off : Nat) (b : CteBlock) (g : CteGram), s.dev.block? chain entry block = some b →
    b.grams.find? (·.off == off) = some g → 64 ≤ b.dest →
    (s.dev.cycle < g.sentAt + 160000 → ∃ e, exec (.cteResend chain entry ⟨block, off⟩) s = .refused e) ∧
    (g.sentAt + 160000 ≤ s.dev.cycle → 16 ≤ g.resends →
      exec (.cteResend chain entry ⟨block, off⟩) s = .next (s.withDev (s.dev.chainHalt chain 0x12))) ∧
    (g.sentAt + 160000 ≤ s.dev.cycle → g.resends < 16 → exec (.cteResend chain entry ⟨block, off⟩) s = .next (s.withDev
      (s.dev.modBlock b fun x => { x with grams := b.grams.map fun y =>
        if y.off = off then { y with resends := y.resends + 1, sentAt := s.dev.cycle } else y })))) ∧
  (∀ (s : State) (win idx src stream off : Nat) (bs : List Byte),
    ((∀ p w, s.dev.window? win = some (p, w) → s.dev.frozen = true ∨ p.resetting ≠ none ∨ w.opens src = false ∨ w.ndst ≤ idx ∨
        w.blk < off + bs.length ∨ (stream, idx, off) ∈ w.seen) →
      exec (.cteBlockReceive win ⟨idx, off⟩ src stream bs) s = .next s) ∧
    (∀ p w, s.dev.window? win = some (p, w) → s.dev.frozen = false → p.resetting = none → w.opens src = true → idx < w.ndst →
        off + bs.length ≤ w.blk → (stream, idx, off) ∉ w.seen →
      ∃ (d : Dev) (a : CteIn), exec (.cteBlockReceive win ⟨idx, off⟩ src stream bs) s = .next (s.withDev d) ∧ d.arrived = s.dev.arrived ++ [a] ∧
        d.mem = s.dev.mem ∧ d.blocks = s.dev.blocks ∧ a.win = win ∧ a.idx = idx ∧ a.stream = stream ∧ a.off = off ∧ a.bytes = bs ∧
        a.dst = none ∧ a.left = List.range ((bs.length + 31) / 32) ∧ a.held = false ∧ a.die < 4)) ∧
  (∀ (s : State) (n : Nat) (p : Port), s.dev.ports[n]? = some p → p.up = true → p.mode = .parzon →
    let set := fun (k : Nat) => s.withDev (s.dev.modPort n fun p => { p with replays := k })
    (∀ b, exec (.parzonFlit n true b) s = .next (set 0)) ∧
    (p.replays < 8 → ∀ b, exec (.parzonFlit n false b) s = .next (s.withDev (s.dev.modPort n fun p => { p with replays := p.replays + 1 }))) ∧
    (8 ≤ p.replays → exec (.parzonFlit n false true) s = .next (set 0) ∧
      ∃ d : Dev, exec (.parzonFlit n false false) s = .next (s.withDev d) ∧ (∃ q, d.ports[n]? = some q ∧ q.up = false ∧ q.mode = p.mode) ∧
        (s.dev.parts ≠ [] → (d.part 0).box.evt.getLsbD 3 = true))) ∧
  (∀ (s : State) (n : Nat) (p : Port), s.dev.ports[n]? = some p → p.up = false → p.mode ≠ .off → ∀ who : Nat,
    ((∀ q ∈ s.dev.peers, q.2.ports.getLsbD n = true → q.2.identity = who) ∨ p.mode = .ethernet →
      exec (.linkTraining n who) s = .next (s.withDev (s.dev.modPort n fun p => { p with up := true, replays := 0 }))) ∧
    (p.mode = .parzon → (∃ q ∈ s.dev.peers, q.2.ports.getLsbD n = true ∧ q.2.identity ≠ who) → exec (.linkTraining n who) s = .next s)) ∧
  (∀ (s : State) (n : Nat) (p : Port), s.dev.ports[n]? = some p → p.up = true → p.mode = .ethernet →
    exec (.ethernetFrame n true) s = .next s ∧ exec (.ethernetFrame n false) s = .next (s.withDev
      (s.dev.modPort n fun p => { p with discarded := p.discarded + 1 }))))

/-- LOAD_MODULE (R36, R37, R39): an ASID, area or file that breaks its limits answers 0x03; too few free node ids 0x04; a module that is
read, bound, finalised or found in the finaliser's cache, and placed is listed under its digest and answers once its writes have settled; sections lie in order at their
alignment within the area; a native kernel's words stand unchanged; a placed module's lines are gone from the instruction
caches; and a load that answers with an error makes no module and no node. -/
def Obligations.ModulesLoad : Prop :=
  (∀ (s : State) (pid : Nat) (p : Partition), Commanded s pid 1 p → p.pid = pid →
    let (a, size, asid, base, length) := (p.argN 0, p.argN 1, p.argN 2, p.argN 3, p.argN 4)
    (p.rec_.ownsAsid asid = false ∨ base % 2 ^ 16 ≠ 0 ∨ 2 ^ 48 < base + length → Replies (.loadModule pid) s s.dev pid 3 []) ∧
    (p.rec_.ownsAsid asid = true → base % 2 ^ 16 = 0 → base + length ≤ 2 ^ 48 → ∀ (d : Dev) (bs : List Byte),
      s.dev.engRead 0 pid asid a size = (d, .ok bs) →
      (moduleFile bs = none → Replies (.loadModule pid) s d pid 3 []) ∧
      ∀ m f, moduleFile bs = some (m, f) →
        let want := (((f.ofType 6).map fun (_, x) => x.bytes.length / 64).foldl (· + ·) 0)
        let ids := ((List.range 4096).filter fun k => !d.nodes.any (·.id == k)).take want
        let b : Bind := { f, base, at_ := (f.places base).1, nodes := ids }
        let made := match d.images.find? (fun c => c.digest == Config.sha512 m) with
          | some c => some (c.placed b)
          | none => b.relocated.bind b.image
        (base + length < (f.places base).2 ∨ d.areaInUse asid base length = true → Replies (.loadModule pid) s d pid 3 []) ∧
        ((f.places base).2 ≤ base + length → d.areaInUse asid base length = false →
          (ids.length < want → Replies (.loadModule pid) s d pid 4 []) ∧
          ∀ parts pages d0 d1 d2, ids.length = want → made = some parts → d.moduleNodes pid asid b parts = some d1 →
            d.areaPages pid asid base (base + length) (length / 16384 + 1) = (d0, some pages) →
            d1.placeModule pid { digest := Config.sha512 m, asid, base, length, kernels := b.kernels }
              { digest := Config.sha512 m, parts, fixes := b.fixes } parts pages = (d2, true) →
            Lasts (.loadModule pid) s d2 pid (.settled b.results))) ∧
    ∀ (d : Dev) (r : BitVec 8) (out : List Word64), r ≠ 0 → Replies (.loadModule pid) s d pid r out →
      (d.answerCmd pid r out).nodes = s.dev.nodes ∧ ((d.answerCmd pid r out).part pid).modules = p.modules) ∧
  (∀ (d d' : Dev) (pid : Nat) (p : Partition) (m : Module) (image : Cached) (parts : List (Nat × Nat × List Byte)) (pages : List (Nat × Nat)),
    d.parts[pid]? = some p → d.placeModule pid m image parts pages = (d', true) →
    d'.parts[pid]? = some { p with modules := p.modules ++ [m] } ∧
    ∀ x ∈ d'.cores, ∀ l ∈ x.2.icache, ∀ pg ∈ pages, rangesMeet (128 * l.num) 128 pg.1 pg.2 = false) ∧
  (∀ (f : ModuleFile) (base k : Nat) (x : Section), f.secs[k]? = some x → placedType x.type = true →
    let a := (f.places base).1.getD k 0
    a % 2 ^ x.align = 0 ∧ base + (if x.type = 1 then 64 else 0) ≤ a ∧ a + x.placedSize ≤ (f.places base).2 ∧
    ∀ (j : Nat) (y : Section), j < k → f.secs[j]? = some y → placedType y.type = true →
      (f.places base).1.getD j 0 + y.placedSize + (if x.type = 1 then 64 else 0) ≤ a) ∧
  (∀ (f : ModuleFile) (k : Nat) (x : Section) (bs out : List Byte), x.native = true → kernelBytes f k x bs = some out →
    ∃ desc ∈ f.linked 2 k, out = desc.bytes ++ (wordsOf bs).flatMap wordBytes)

namespace Sys2Proof.Machine

/-- The PF has issued this operation of FW_UPDATE or DUMP_READ (R380, R386). -/
structure FwAsked (s : State) (opc op : Nat) (p : Partition) : Prop where
  here : s.dev.parts[0]? = some p
  asks : p.asks opc = true
  op   : p.argN 0 % 256 = op

end Sys2Proof.Machine

/-- Firmware (R222, R377 to R380): what authenticates; WRITE_SLOT takes a good image while the other slot is good; BOOT_ONCE
boots a staged one in recovery alone; COMMIT blows fuses up to the running SVN, one at a time, where both slots stay good;
ZRELOAD holds each die's calls; a boot takes the good slot of the greater SVN, slot 0 on a tie, or the device recovers. -/
def Obligations.FirmwareKept : Prop :=
  (∀ (fw : Fw) (x : FwSlot), fw.refuses x = 0 ↔ x.malformed = false ∧
    (x.field 0 32 16 = 0xFFFF ∨ x.field 0 32 16 = Config.stepping.toNat) ∧ fw.revoked.getLsbD x.kid.toNat = false ∧
    Config.sha512 (natBytes 32 (Config.imageKey x.body).toNat) = Config.keyDigest x.kid ∧
    Config.edVerify (Config.imageKey x.body) x.digest (BitVec.ofNat 512 (numAt x.header 0x40 64)) = true ∧ fw.arb ≤ x.svn) ∧
  (∀ (s : State) (p : Partition), FwAsked s 0x25 1 p →
    let (x, k) := (s.namedImage p, p.argN 3)
    (1 < k → Replies (.writeSlot 0) s s.dev 0 3 []) ∧
    (k ≤ 1 → s.fw.refuses x ≠ 0 → Replies (.writeSlot 0) s s.dev 0 3 [BitVec.ofNat 64 (s.fw.refuses x)]) ∧
    (k ≤ 1 → s.fw.refuses x = 0 → s.fw.recovery = false → s.fw.refuses (s.fw.slot (1 - k)) ≠ 0 → Replies (.writeSlot 0) s s.dev 0 3 [6]) ∧
    (k ≤ 1 → s.fw.refuses x = 0 → (s.fw.recovery = true ∨ s.fw.refuses (s.fw.slot (1 - k)) = 0) →
      Lasts (.writeSlot 0) s s.dev 0 (.writeSlot k x))) ∧
  (∀ (s : State) (p : Partition), FwAsked s 0x25 2 p → let x := s.namedImage p
    (s.fw.recovery = false → Replies (.bootOnce 0) s s.dev 0 2 []) ∧
    (s.fw.recovery = true → s.fw.refuses x ≠ 0 → Replies (.bootOnce 0) s s.dev 0 3 [BitVec.ofNat 64 (s.fw.refuses x)]) ∧
    (s.fw.recovery = true → s.fw.refuses x = 0 → ∃ t : State, exec (.bootOnce 0) s = .next t ∧
      t.fw = { s.fw with running := some x, recovery := false } ∧ t.inbox = s.inbox ∧ t.dev.mem = s.dev.mem ∧ t.dev.teams = s.dev.teams ∧
      (s.dev.dies.length = 4 → ∀ y ∈ t.dev.dies, y.entries = imageEntries x ∧ y.reload = false ∧ ∀ n, n < 256 →
        fget 0 y.micro n = Config.zitherMicro (x.body.drop (numAt x.header 0x18 8)) n))) ∧
  (∀ (s : State) (p : Partition), FwAsked s 0x25 3 p → let svn := s.fw.svn
    (svn ≤ s.fw.arb → Replies (.commit 0) s s.dev 0 3 [5]) ∧
    (s.fw.arb < svn → (∃ x ∈ s.fw.slots, ({ s.fw with arb := svn } : Fw).refuses x ≠ 0) → Replies (.commit 0) s s.dev 0 3 [6]) ∧
    (s.fw.arb < svn → (∀ x ∈ s.fw.slots, ({ s.fw with arb := svn } : Fw).refuses x = 0) → Lasts (.commit 0) s s.dev 0 (.commit svn))) ∧
  (∀ (s : State) (n : Nat), (s.fw.arb < n → s.fwStep 0 (.commit n) = some { s with fw := { s.fw with arb := s.fw.arb + 1 } }) ∧
    (n ≤ s.fw.arb → s.fwStep 0 (.commit n) = some (s.withDev (s.dev.answerCmd 0 0 [])))) ∧
  (∀ (s : State) (p : Partition), FwAsked s 0x25 4 p → s.fw.recovery = false → ∃ d : Dev, Lasts (.zreload 0) s d 0 .reload ∧
    d = { s.dev with dies := d.dies } ∧ d.dies.length = s.dev.dies.length ∧
    ∀ (k : Nat) (x : Die), s.dev.dies[k]? = some x → d.dies[k]? = some { x with reload := true }) ∧
  (∀ (s : State) (warm : Bool), s.fw.on = warm → ∃ t : State, exec (.boot warm) s = .next t ∧ t.inbox = s.inbox ∧ t.fw.on = true ∧
    t.fw.slots = s.fw.slots ∧ t.fw.arb = s.fw.arb ∧ t.fw.revoked = s.fw.revoked ∧ t.dev.teams = [] ∧ t.dev.queues = [] ∧
    (warm = true → t.dev.mem = s.dev.mem) ∧ (∀ a, fget 0 t.dev.mem a = if warm = false ∧ a < 2 ^ 49 then 0 else fget 0 s.dev.mem a) ∧
    (s.fw.refuses (s.fw.slot 0) ≠ 0 → s.fw.refuses (s.fw.slot 1) ≠ 0 → t.fw.recovery = true ∧ t.fw.running = none) ∧
    ∀ k j, k + j = 1 → s.fw.refuses (s.fw.slot k) = 0 →
      (s.fw.refuses (s.fw.slot j) ≠ 0 ∨ (s.fw.slot j).svn < (s.fw.slot k).svn ∨ ((s.fw.slot j).svn = (s.fw.slot k).svn ∧ k = 0)) →
      t.fw.running = some (s.fw.slot k) ∧ t.fw.recovery = false)

/-- The fatal dump, power and the scrub (R383, R385, R386, R388): a fatal error freezes the device and begins a dump, one
that finds a dump held raises only NDUMP, and one that comes while it is written closes it as truncated; the header holds
the fields of R385; CLEAR and CONFIG; the clock falls and rises by 50 MHz; a loss of power keeps fuses, NDUMP and the slots
that no write was changing, and no device memory. -/
def Obligations.FatalAndPower : Prop :=
  (∀ (s : State) (cause : BitVec 8) (die : BitVec 2), 1 ≤ cause.toNat → cause.toNat ≤ 5 → let x := s.fw.dump
    ∃ (t : State) (y : Dump), exec (.fatalError cause die) s = .next t ∧ t.inbox = s.inbox ∧ t.fw = { s.fw with dump := y } ∧ t.dev.frozen = true ∧
      t.dev.mem = s.dev.mem ∧
      (x.writing = false → x.state = 0 → y.ndump = x.ndump + 1 ∧ y.magic = true ∧ y.cause = cause ∧ y.cause2 = 0 ∧ y.die = die.setWidth 4 ∧
        y.pooldies = x.next ∧ y.writing = true) ∧
      (x.writing = false → x.state ≠ 0 → y = { x with ndump := x.ndump + 1 }) ∧
      (x.writing = true → y.cause2 = cause ∧ y.state = 2 ∧ y.writing = false ∧ y.cause = x.cause ∧
        (s.dev.parts ≠ [] → (t.dev.part 0).box.evt.getLsbD 5 = true))) ∧
  (∀ x : Dump, ∃ a b : Word64, x.header = [a, b, x.time, x.size, 0, 0, 0, 0] ∧ a.extractLsb' 32 32 = x.ndump ∧
    a.extractLsb' 0 32 = (if x.magic = true then 0x44554D50#32 else 0#32) ∧ b.extractLsb' 56 8 = x.cause ∧ b.extractLsb' 48 8 = x.cause2 ∧
    b.extractLsb' 44 4 = x.die ∧ b.extractLsb' 42 2 = x.state ∧ b.extractLsb' 38 4 = x.pooldies ∧ b.extractLsb' 32 6 = x.sect ∧
    b.extractLsb' 0 32 = 0) ∧
  (∀ (s : State) (p : Partition), FwAsked s 0x26 1 p →
    (2 ^ 30 < p.argN 1 + p.argN 2 → Replies (.dumpRead 0) s s.dev 0 3 []) ∧
    (p.argN 1 + p.argN 2 ≤ 2 ^ 30 →
      Lasts (.dumpRead 0) s (s.dev.hostWr (!s.fw.recovery) (p.argN 3) (s.fw.dump.bytes (p.argN 1) (p.argN 2))) 0 (.settled []))) ∧
  (∀ (s : State) (p : Partition), FwAsked s 0x26 2 p → ∃ y : Dump, y.state = 0 ∧ y.magic = false ∧ y.ndump = s.fw.dump.ndump ∧
    exec (.dumpClear 0) s = .next ⟨s.dev.answerCmd 0 0 [], { s.fw with dump := y }, s.inbox⟩) ∧
  (∀ (s : State) (p : Partition), FwAsked s 0x26 3 p → let m := BitVec.ofNat 4 (p.argN 1)
    (((List.range 4).filter fun k => m.getLsbD k).length ≤ 2 → exec (.dumpConfig 0) s =
      .next ⟨s.dev.answerCmd 0 0 [], { s.fw with dump := { s.fw.dump with next := m } }, s.inbox⟩) ∧
    (2 < ((List.range 4).filter fun k => m.getLsbD k).length → Replies (.dumpConfig 0) s s.dev 0 3 [])) ∧
  (∀ s : State, (50 < s.fw.clock → exec .clockThrottle s = .next { s with fw := { s.fw with clock := s.fw.clock - 50 } }) ∧
    (s.fw.clock < 1600 → exec .clockRaise s = .next { s with fw := { s.fw with clock := s.fw.clock + 50 } })) ∧
  (∀ (s : State) (sector : Nat), paLegal s.dev.capacity (32 * sector) = true → paRegion (32 * sector) ≤ 1 →
    (s.dev.poisoned (32 * sector) 32 = true → exec (.patrolScrub sector) s = .next s) ∧
    ∃ (d : Dev) (n : Nat), exec (.patrolScrub sector) s = .next { s with dev := d, fw := { s.fw with scrubbed := n } } ∧
      ((d = s.dev ∧ (n = s.fw.scrubbed ∨ n = s.fw.scrubbed + 1)) ∨
       (n = s.fw.scrubbed ∧ d = { s.dev with poison := d.poison } ∧ (s.dev.home (sector / 4)).form = none ∧
        ∀ k, k ∈ d.poison ↔ k = sector ∨ k ∈ s.dev.poison))) ∧
  (∀ s : State, s.fw.on = true → ∃ t : State, exec .powerLoss s = .next t ∧ t.fw.on = false ∧ t.fw.arb = s.fw.arb ∧
    t.fw.revoked = s.fw.revoked ∧ t.fw.dump.ndump = s.fw.dump.ndump ∧ t.fw.dump.state = 0 ∧ t.dev.teams = [] ∧
    (∀ a, fget 0 t.dev.mem a = if a < 2 ^ 49 then 0 else fget 0 s.dev.mem a) ∧
    ((∀ k x, (s.dev.part 0).box.wait ≠ some (.writeSlot k x)) → t.fw.slots = s.fw.slots))

/-- SPDM and IDE keys (R381): each exchange is answered once those before it have been, with what R381 names, and an exchange
out of order is answered with nothing and changes nothing else (log 13); a session opens where the requester's verification
holds, and IDE keys are taken inside one. -/
def Obligations.SpdmAnswers : Prop :=
  ∀ s : State, let p := s.fw.spdm
    let gives : Instr → Spdm → Prop := fun ins q => exec ins s = .next { s with fw := { s.fw with spdm := q } }
    let spurns : Instr → Prop := fun ins => gives ins { p with reply := [] }
    let ready := p.version = true ∧ p.caps = true ∧ p.algs = true
    (gives .spdmGetVersion { Spdm.reset with version := true, ide := p.ide, reply := [0x13] }) ∧
    (p.version = true → gives .spdmGetCapabilities { p with caps := true, reply := [0x13] }) ∧
    (p.version = false → spurns .spdmGetCapabilities) ∧
    (p.version = true ∧ p.caps = true → gives .spdmNegotiateAlgorithms { p with algs := true, reply := [0x13] }) ∧
    (¬ (p.version = true ∧ p.caps = true) → spurns .spdmNegotiateAlgorithms) ∧
    (ready → gives .spdmGetDigests { p with reply := digestBytes (Config.sha512 Config.certificates) }) ∧
    (ready → ∀ off len, gives (.spdmGetCertificate off len) { p with reply := (Config.certificates.drop off).take len }) ∧
    (ready → ∀ n : BitVec 256, ∃ mine : BitVec 256, gives (.spdmChallenge n) { p with
      reply := signed (natBytes 32 n.toNat ++ natBytes 32 mine.toNat ++ digestBytes (Config.sha512 Config.certificates)) }) ∧
    (ready → ∀ k : BitVec 8, 1 ≤ k.toNat → k.toNat ≤ 6 → gives (.spdmGetMeasurements k) { p with reply := signed (s.measurement k.toNat) }) ∧
    (ready → ∀ x : BitVec 768, ∃ y : BitVec 768, gives (.spdmKeyExchange x) { p with
      peer := some x, share := y, session := false, reply := signed (natBytes 96 y.toNat) }) ∧
    (¬ ready → spurns .spdmGetDigests ∧ (∀ off len, spurns (.spdmGetCertificate off len)) ∧ (∀ n, spurns (.spdmChallenge n)) ∧
      (∀ k, spurns (.spdmGetMeasurements k)) ∧ (∀ x, spurns (.spdmKeyExchange x)) ∧ ∀ v, spurns (.spdmFinish v)) ∧
    (ready → ∀ x v, p.peer = some x → (Config.spdmFinishOk x p.share v = true → gives (.spdmFinish v) { p with session := true, reply := [0x13] }) ∧
      (Config.spdmFinishOk x p.share v = false → spurns (.spdmFinish v))) ∧
    (p.session = true → gives .spdmEndSession { p with session := false, peer := none, reply := [0x13] } ∧
      ∀ (n : BitVec 8) (key : BitVec 256), ∃ m : FMap (BitVec 256), gives (.ideKmMessage n key) { p with ide := m, reply := [0x13] } ∧
        ∀ k, fget 0 m k = if k = n.toNat then key else fget 0 p.ide k) ∧
    (p.session = false → spurns .spdmEndSession ∧ ∀ n key, spurns (.ideKmMessage n key)) ∧
    (s.fw.recovery = true → s.measurement 5 = "recovery".toList.map fun c => BitVec.ofNat 8 c.toNat) ∧
    s.measurement 3 = natBytes 4 s.fw.svn ++ natBytes 4 s.fw.arb

namespace Sys2Proof.Machine

/-! ## Encodings -/

end Sys2Proof.Machine

/-- Words worked out in the spec decode to what they stand for (R76, R81, R84, R88, R108, R115, R145, R182, R200, R211,
R218, R219, R221, R225, R270, R276, R329, R336, R361). -/
def Obligations.SpecWordsDecode : Prop :=
  decodeAny 0xF008054C00000000 = some (.clauseIssue { wait := 0x008, setA := 0, setB := 5, len := 4, rgne := true, pf := 2 }) ∧
  decodeAny 0x8430300000000039 = some (.imul { ty := ⟨false, false⟩, sat := false, d := .v 3, a := .v 0, b := .imm 3, g := ⟨1, true⟩ }) ∧
  decodeAny 0x00100000000000E0 = some (.nop ⟨7, false⟩) ∧
  decodeAny 0x8020005000000032 = some (.bra ⟨2, false⟩ 5 3) ∧
  decodeAny 0x18101030000000E0 = some (.ballot { G := false, d := .v 1, pa := 3, g := ⟨7, false⟩ }) ∧
  decodeAny 0x24208000000000E0 = some (.cpbat 8) ∧
  decodeAny 0x24300080000000E0 = some (.cpwait (.inl 8)) ∧
  decodeAny 0x28300000000000E0 = some (.mwait 0 false) ∧
  decodeAny 0x30500272800007E0 = some (.mbwait 0x27 0x28 7) ∧
  decodeAny 0x34301020000000E0 = some (.srd (.v 1) 2 ⟨7, false⟩) ∧
  decodeAny 0x80D0100000000017 = some (.phint 1 0 1) ∧
  decodeAny 0x8530201000000007 = some (.movi (.s 2) 0 ⟨7, false⟩) ∧
  decodeAny 0x00900000000000E0 = some (.exit ⟨7, false⟩)

/-- DECODE AND ENCODE AGREE, one way (R73 to R89): what the encoder writes of any well-formed instruction decodes to it, a
header where a clause starts and every other word where its place in a clause admits it. RGN alone is no native word. -/
def Obligations.EncodedDecodes : Prop :=
  ∀ (c : DecodeCtx) (i : Instr) (w : Word64), i.wf c.toLaunchCtx = true → encode i = some w →
    (∀ h, i = .clauseIssue h → decodeStart w = .ok h) ∧
    ((∀ h, i ≠ .clauseIssue h) → i ≠ .rgn → (i.endsClause = true → c.last = true) →
      (i.longA = true ∨ i.longB = true → c.flagless = false) → decode c w = .ok i) ∧
    (i = .rgn → decode c w = .error 0x09)

/-- DECODE AND ENCODE AGREE, the other way: a word that decodes is the one word of a well-formed instruction, so that no bit
of it is dropped. -/
def Obligations.DecodedEncodes : Prop :=
  (∀ (c : DecodeCtx) (w : Word64) (i : Instr), decode c w = .ok i → i.wf c.toLaunchCtx = true ∧ encode i = some w) ∧
  (∀ (c : LaunchCtx) (w : Word64) (h : Header), decodeStart w = .ok h → (Instr.clauseIssue h).wf c = true ∧ encode (.clauseIssue h) = some w)

namespace Sys2Proof.Machine

/-! ## Steps -/

end Sys2Proof.Machine

/-- A STEP RUNS THE DECODED INSTRUCTION (R64, R73, R89): the word that a split is about to issue is the next one of its
clause, decoded, or at a clause start the header its core holds, and a word the decoder refuses raises ILLOP; a step that
takes such a move is that instruction's effect on the device with the split presented as the issuing one, its port noted as
having chosen, and then time passes. -/
def Obligations.StepRunsDecoded : Prop :=
  (∀ (s : State) (r : SplitRef) (ins : Instr) (opens : Bool), s.fw.on = true → s.pickMove = some (.word r ins opens) →
    ∃ (i : Issuer) (t : State), s.dev.issuerAt? r = some i ∧ s.dev.nextWord? i = some ins ∧ s.ready i ins = true ∧
      exec ins { s with dev := (s.dev.portChose i opens).present i ins } = .next t ∧ step s = .next (t.pass 0)) ∧
  (∀ (d : Dev) (i : Issuer) (c : Clause) (w : Word64) (rest : List Word64), i.sp.clause = some c → c.words = w :: rest →
    let x : DecodeCtx := { i.lc with last := decide (rest = []), flagless := decide (c.setA = 15 ∧ c.setB = 15) }
    (∀ ins, decode x w = .ok ins → d.nextWord? i = some ins) ∧ (∀ e, decode x w = .error e → d.nextWord? i = some (.illop e))) ∧
  (∀ (d : Dev) (i : Issuer) (w : Word64), i.sp.clause = none → d.heldWord? i i.pc.toNat = some w →
    (∀ h, decodeStart w = .ok h → d.nextWord? i = some (.clauseIssue h)) ∧
    (∀ e, decodeStart w = .error e → d.nextWord? i = some (.illop e))) ∧
  (∀ (d : Dev) (i : Issuer) (ins : Instr), (d.present i ins).cur = some i.splitRef ∧ (d.present i ins).mem = d.mem) ∧
  (∀ (d : Dev) (i : Issuer) (opens : Bool), d.portChose i opens = { d with passed := 0, chose := (d.portChose i opens).chose }) ∧
  (∀ (s : State) (m : Move), s.fw.on = true → s.pickMove = some m → ∃ t u, run m s = .next t ∧ step s = .next (u.pass 0) ∧
    (m.isWord = true ∨ s.wordMoves = [] → u = t) ∧
    (m.isWord = false → s.wordMoves ≠ [] → u = { t with dev := { t.dev with passed := t.dev.passed + 1 } })) ∧
  (∀ s : State, s.fw.on = true → s.pickMove = none → step s = .next (s.pass 1))

/-- The device with power never stops: every state of it has a next one, whatever it holds. -/
def Obligations.PoweredNeverStops : Prop :=
  ∀ s : State, s.fw.on = true → ∃ t, step s = .next t

/-- Flags at issue (R75, R103). R103: "A long-latency instruction whose flag stands at 63 in any slice of its split does not
issue", and R75: a clause begins only when every flag in WAIT is zero in every slice of the split; a header that
reconverges, or takes an asynchronous cause, begins no clause. -/
def Obligations.FlagsGateIssue : Prop :=
  (∀ (s : State) (i : Issuer) (ins : Instr) (k : Nat), s.dev.issuerAt? i.splitRef = some i → k < 8 → i.sp.mask.getLsbD k = true →
    (ins.longA = true ∧ (i.grp.slice k).flag (i.sp.flagFor true) = 63 ∨ ins.longB = true ∧ (i.grp.slice k).flag (i.sp.flagFor false) = 63) →
    s.ready i ins = false ∧ ∀ o, Move.word i.splitRef ins o ∉ s.moves) ∧
  (∀ (i : Issuer) (ins : Instr), (∀ k, k < 8 → i.sp.mask.getLsbD k = true → ∀ a, (i.grp.slice k).flag (i.sp.flagFor a) < 63) →
    i.flagStops ins = false) ∧
  (∀ (s : State) (i : Issuer) (h : Header) (k n : Nat) (o : Bool), s.dev.issuerAt? i.splitRef = some i → Move.word i.splitRef (.clauseIssue h) o ∈ s.moves →
    i.grp.mustReconverge i.sp = false → i.takesAsync = false → k < 8 → i.sp.mask.getLsbD k = true → n < 12 → h.wait.getLsbD n = true →
    (i.grp.slice k).flag n = 0)

namespace Sys2Proof.Machine

/-! ## Invariants -/

end Sys2Proof.Machine

/-- Memory keeps its canonical form over every step (R160): addresses rising and no listed byte zero, and so do the lines'
key tags (R382). -/
def Obligations.MemoryStaysCanonical : Prop :=
  ∀ s t : State, s.dev.canonical = true → step s = .next t → t.dev.canonical = true

/-- Over every step fuses are only blown, anti-rollback fuses one at a time, and key revocations stand (R380); and the
arithmetic clock stays at one of its rates (R388; which rates, log 35). -/
def Obligations.FusesOnlyBlown : Prop :=
  ∀ s t : State, step s = .next t → s.fw.fusesFollow t.fw ∧ (s.fw.clockOk = true → t.fw.clockOk = true)

/-- What reset leaves where the spec states it: FECFG (R50), partition records (R364) and that every window is unused (R365),
the mailbox registers (R366), DEPTH (R317), the dump (R385), the ports of Kora buffers (R370); and that the invariants hold
there. -/
def Obligations.ResetLeaves : Prop :=
  let d := State.reset.dev
  (d.dies.length = 4 ∧ ∀ x ∈ d.dies, x.pregap = 2 ∧ x.rampu = 1536 ∧ x.ageus = 100) ∧
  (d.parts.length = 64 ∧ ∀ p ∈ d.parts,
    (p.rec_.asidb = 0 ∧ p.rec_.asidn = 0 ∧ p.rec_.keyb = 1 ∧ p.rec_.keyn = 0 ∧ p.rec_.nvec = 1 ∧ p.rec_.pw = 20000 ∧ p.rec_.maxl = 400 ∧
      p.rec_.lshare = 1 ∧ p.rec_.hshare = 0 ∧ p.rec_.p = 1 ∧ p.rec_.ceil = 7 ∧ p.rec_.peers = 0 ∧ p.rec_.saveb = 0 ∧ p.rec_.savesz = 0 ∧
      p.rec_.cores = 0 ∧ ∀ w ∈ p.rec_.dwin ++ p.rec_.hwin, w = (0, 0)) ∧
    (p.box.tag = 0 ∧ p.box.intr = false ∧ p.box.opc = 0 ∧ p.box.dtag = 0 ∧ p.box.busy = false ∧ p.box.lost = false ∧ p.box.result = 0 ∧
      p.box.evt = 0 ∧ ∀ k, fget 0 p.box.arg k = 0 ∧ fget 0 p.box.out k = 0) ∧
    p.depth = 8 ∧ p.entries = [] ∧ p.drop = false ∧ p.dropn = 0) ∧
  (∀ n, n < 24 → ∃ x, d.ports[n]? = some x ∧ (n % 6 < 2 → x.mode = .parzon)) ∧
  State.reset.fw.dump.state = 0 ∧ State.reset.fw.dump.magic = false ∧ State.reset.fw.dump.ndump = 0 ∧
  d.teams = [] ∧ d.queues = [] ∧ d.mem = [] ∧ d.canonical = true ∧ State.reset.fw.clockOk = true

/-- R389: the codes of the causes; the code stands in CAUSE of `sr.tr1` (R326) and of a fault buffer entry (R318), and every
other code names no cause. -/
def Obligations.CauseCodes : Prop :=
  (Cause.illop.code = 0x01 ∧ Cause.illconv.code = 0x02 ∧ Cause.misalign.code = 0x03 ∧ Cause.xlate.code = 0x04 ∧ Cause.perm.code = 0x05 ∧
    Cause.ecc.code = 0x06 ∧ Cause.stackspill.code = 0x07 ∧ Cause.retempty.code = 0x08 ∧ Cause.swtrap.code = 0x09 ∧ Cause.bkpt.code = 0x0A ∧
    Cause.regionloop.code = 0x0B) ∧
  (∀ n : BitVec 8, (∃ c : Cause, c.code = n) ↔ 0x01 ≤ n.toNat ∧ n.toNat ≤ 0x0B) ∧
  (∀ (g : Group) (sp : Split) (h : BitVec 48) (r : Raise), ((g.enterHandler sp h r).tr1).extractLsb' 56 8 = r.cause.code) ∧
  (∀ e : FaultEntry, e.src < 16 → e.lvl < 4 → e.ctx < 256 → (e.words.getD 1 0).extractLsb' 56 8 = e.cause) ∧
  (∀ (d : Dev) (pid : Nat) (p : Partition) (f : MemFault) (lanes : BitVec 32) (w : Where), d.parts[pid]? = some p →
    p.entries.length < p.depth → f.key ∉ p.keys → ∃ (p' : Partition) (e : FaultEntry), (d.recordFault pid f lanes w).parts[pid]? = some p' ∧
      p'.entries = p.entries ++ [e] ∧ e.cause = f.cause.code ∧ e.lanes = lanes ∧ e.k = false)
end

