-- ==== Sys2Proof/Laws/Encoding.lean ====
section
/-! SUPPORT. Reading back what the encoder writes: the fields of each operand shape (R73, R78 to R82). -/

namespace Sys2Proof.Laws

/-! ## Codes -/

@[simp] theorem rnd2_enc (r : Rnd) : rnd2 r.enc = r := by cases r <;> rfl
@[simp] theorem pfmt2_enc (p : PFmt) : pfmt2 p.enc = p := by cases p <;> rfl
@[simp] theorem space3_enc (sp : Space) : space3 sp.enc = sp := by cases sp <;> rfl
@[simp] theorem wid3_enc (w : Wid) : wid3 w.enc = w := by cases w <;> rfl
@[simp] theorem pol2_enc (p : Pol) : pol2 p.enc = p := by cases p <;> rfl
@[simp] theorem scope3_enc (sc : Scope) : scope3 sc.enc = some sc := by cases sc <;> rfl
@[simp] theorem ord4_enc (o : MemOrd) : ord4 o.enc = some o := by
  cases o with
  | relaxed => rfl
  | acq s => cases s <;> rfl
  | rel s => cases s <;> rfl

/-- SEM and SCOPE as R275 lays them out. -/
theorem sem5_enc (s : Sem) : sem5 (s.enc.extractLsb' 0 2) (s.enc.extractLsb' 2 3) = some s := by
  cases s with
  | relaxed => rfl
  | acq s => cases s <;> rfl
  | rel s => cases s <;> rfl
  | ar s => cases s <;> rfl

@[simp] theorem space_code_lt (sp : Space) : ¬5 ≤ sp.enc.toNat := by cases sp <;> decide
@[simp] theorem wid_code_ne (w : Wid) : w.enc ≠ 7#3 := by cases w <;> decide
@[simp] theorem pfmt_code_ne (p : PFmt) : p.enc ≠ 3#2 := by cases p <;> decide
@[simp] theorem mzero_zero (lo len : Nat) : mzero 0 lo len = true := by simp [mzero]

/-! ## Registers -/

@[simp] theorem kreg_num (r : Reg) : kreg r.isScalar r.num = r := by
  cases r <;> simp [kreg, Reg.num, Reg.isScalar]

@[simp] theorem sc64_e6 (n : BitVec 6) : sc64 (e6 n) = false := by
  simp [sc64, e6]; omega

@[simp] theorem pr8_e3 (n : BitVec 3) : pr8 (e3 n) = false := by
  simp [pr8, e3]; omega

@[simp] theorem e6_setWidth (n : BitVec 6) : (e6 n).setWidth 6 = n := by simp [e6]
@[simp] theorem e3_setWidth (n : BitVec 3) : (e3 n).setWidth 3 = n := by simp [e3]

@[simp] theorem kbad_num (r : Reg) : kbad r.isScalar r.num = false := by
  cases r with
  | v n => rfl
  | s n => exact sc64_e6 n

/-! ## The modifier bits above an 8-bit rest (R80) -/

/-- Bit `k` of the low byte. -/
def low8 (m8 : BitVec 8) (k : Nat) : Bool := m8.getLsbD k

/-- Bits of the low byte. -/
def part8 (m8 : BitVec 8) (lo len : Nat) : BitVec len := m8.extractLsb' lo len

/-- The kind bits of `M12`, and its low byte. -/
structure ModParts (m : BitVec 12) (x y z v : Bool) (m8 : BitVec 8) : Prop where
  dk : dk m = x
  ak : ak m = y
  bk : bk m = z
  ck : ck m = v
  bit : ∀ k < 8, mbit m k = low8 m8 k
  sub : ∀ lo len, lo + len ≤ 8 → m.extractLsb' lo len = part8 m8 lo len

theorem modParts (x y z v : Bool) (m8 : BitVec 8) : ModParts (b1 x ++ b1 y ++ b1 z ++ b1 v ++ m8) x y z v m8 where
  dk := by
    change BitVec.getLsbD (w := 1 + 1 + 1 + 1 + 8) (b1 x ++ b1 y ++ b1 z ++ b1 v ++ m8) 11 = x
    rw [BitVec.getLsbD_append, if_neg (by decide)]; revert x y z v; decide
  ak := by
    change BitVec.getLsbD (w := 1 + 1 + 1 + 1 + 8) (b1 x ++ b1 y ++ b1 z ++ b1 v ++ m8) 10 = y
    rw [BitVec.getLsbD_append, if_neg (by decide)]; revert x y z v; decide
  bk := by
    change BitVec.getLsbD (w := 1 + 1 + 1 + 1 + 8) (b1 x ++ b1 y ++ b1 z ++ b1 v ++ m8) 9 = z
    rw [BitVec.getLsbD_append, if_neg (by decide)]; revert x y z v; decide
  ck := by
    change BitVec.getLsbD (w := 1 + 1 + 1 + 1 + 8) (b1 x ++ b1 y ++ b1 z ++ b1 v ++ m8) 8 = v
    rw [BitVec.getLsbD_append, if_neg (by decide)]; revert x y z v; decide
  bit k h := by
    change BitVec.getLsbD (w := 1 + 1 + 1 + 1 + 8) (b1 x ++ b1 y ++ b1 z ++ b1 v ++ m8) k = _
    rw [BitVec.getLsbD_append, if_pos h]; rfl
  sub lo len h := by
    change BitVec.extractLsb' lo len (n := 1 + 1 + 1 + 1 + 8) (b1 x ++ b1 y ++ b1 z ++ b1 v ++ m8) = _
    ext i hi
    rw [part8]
    have : lo + i < 8 := by omega
    rw [BitVec.getElem_extractLsb', BitVec.getElem_extractLsb', BitVec.getLsbD_append, if_pos this]

theorem modPartsR (x y z : Bool) (m8 : BitVec 8) : ModParts (b1 x ++ b1 y ++ b1 z ++ 0#1 ++ m8) x y z false m8 :=
  modParts x y z false m8

theorem modPartsI (x y : Bool) (m8 : BitVec 8) : ModParts (b1 x ++ b1 y ++ 0#2 ++ m8) x y false false m8 := by
  have h : (b1 x ++ b1 y ++ 0#2 : BitVec 4) = b1 x ++ b1 y ++ b1 false ++ b1 false := by revert x y; decide
  have : (b1 x ++ b1 y ++ 0#2 ++ m8 : BitVec 12) = b1 x ++ b1 y ++ b1 false ++ b1 false ++ m8 :=
    congrArg (fun t : BitVec 4 => (t ++ m8 : BitVec 12)) h
  rw [this]; exact modParts x y false false m8

/-! ## Shapes with a register or an immediate last (R78 to R80) -/

/-- An opcode whose F and FI words both read through `mk`. -/
structure BinForm (opc : BitVec 10) (mk : BitVec 8 → BitVec 8 → BitVec 12 → BSrc → Guard → Parsed) : Prop where
  f : ∀ d a b c m g, (Fields.f opc d a b c m g).parse = some (mk d a m (.reg (bk m) b c (ck m)) g)
  i : ∀ d a m x g, (Fields.fm opc d a m x g).parse = some (mk d a m (.imm x (bk m) (ck m)) g)

/-- What the encoder wrote stands in the modifier bits and in the last source. -/
structure BinRead (x y : Bool) (m8 : BitVec 8) (b : Src) (m : BitVec 12) (s : BSrc) : Prop where
  dk  : dk m = x
  ak  : ak m = y
  bit : ∀ k < 8, mbit m k = low8 m8 k
  sub : ∀ lo len, lo + len ≤ 8 → m.extractLsb' lo len = part8 m8 lo len
  src : s.src = b
  b5  : s.b5 = false
  b6  : s.b6 = false

theorem encBin_parse {opc mk} (h : BinForm opc mk) (d a : BitVec 8) (x y : Bool) (b : Src) (m8 : BitVec 8) (g : Guard) :
    ∃ m s, (encBin opc d a x y b m8 g).parse = some (mk d a m s g) ∧ BinRead x y m8 b m s := by
  cases b with
  | reg r =>
    have p := modPartsR x y r.isScalar m8
    exact ⟨_, _, h.f .., p.dk, p.ak, p.bit, p.sub, by simp [BSrc.src, p.bk], by simp [BSrc.b5, p.bk],
      by simp [BSrc.b6, p.ck]⟩
  | imm i =>
    have p := modPartsI x y m8
    exact ⟨_, _, h.i .., p.dk, p.ak, p.bit, p.sub, rfl, rfl, by simp [BSrc.b6, p.bk, p.ck]⟩

theorem encIntBin_parse {opc k} (h : BinForm opc (mkIntBin k)) (o : IntBin) : (encIntBin opc o).parse = some ⟨k o, false, false⟩ := by
  obtain ⟨⟨w, u⟩, t, d, a, b, g⟩ := o
  obtain ⟨m, s, hp, r⟩ := encBin_parse h d.num a.num d.isScalar a.isScalar b (b1 w ++ b1 u ++ b1 t ++ 0#5) g
  have e : ∀ w u t : Bool, let m8 : BitVec 8 := b1 w ++ b1 u ++ b1 t ++ 0#5
      low8 m8 7 = w ∧ low8 m8 6 = u ∧ low8 m8 5 = t ∧ part8 m8 0 5 = 0 := by decide
  rw [encIntBin, hp]
  simp [mkIntBin, r.dk, r.ak, r.src, r.b5, r.b6, intTy, mzero, r.bit, r.sub, e]

theorem encLogBin_parse {opc k} (h : BinForm opc (mkLogBin k)) (o : LogBin) : (encLogBin opc o).parse = some ⟨k o, false, false⟩ := by
  obtain ⟨w, d, a, b, g⟩ := o
  obtain ⟨m, s, hp, r⟩ := encBin_parse h d.num a.num d.isScalar a.isScalar b (b1 w ++ 0#7) g
  have e : ∀ w : Bool, let m8 : BitVec 8 := b1 w ++ 0#7
      low8 m8 7 = w ∧ part8 m8 0 7 = 0 := by decide
  rw [encLogBin, hp]
  simp [mkLogBin, r.dk, r.ak, r.src, r.b5, r.b6, mzero, r.bit, r.sub, e]

theorem encFBin_parse {opc k} (h : BinForm opc (mkFBin k)) (o : FBin) : (encFBin opc o).parse = some ⟨k o, false, false⟩ := by
  obtain ⟨f, rn, z, na, nb, d, a, b, g⟩ := o
  obtain ⟨m, s, hp, r⟩ := encBin_parse h d.num a.num d.isScalar a.isScalar b (f.enc ++ rn.enc ++ b1 z ++ b1 na ++ b1 nb ++ 0#1) g
  have e : let m8 : BitVec 8 := f.enc ++ rn.enc ++ b1 z ++ b1 na ++ b1 nb ++ 0#1
      pfmt2 (part8 m8 6 2) = f ∧ rnd2 (part8 m8 4 2) = rn ∧ low8 m8 3 = z ∧ low8 m8 2 = na ∧ low8 m8 1 = nb ∧
      low8 m8 0 = false ∧ part8 m8 6 2 ≠ 3#2 := by
    clear hp r; cases f <;> cases rn <;> revert z na nb <;> decide
  rw [encFBin, hp]
  simp [mkFBin, r.dk, r.ak, r.src, r.b5, r.b6, r.bit, r.sub, e]

theorem encFSet_parse {opc k} (h : BinForm opc (mkFSet k)) (o : FSetOp) : (encFSet opc o).parse = some ⟨k o, false, false⟩ := by
  obtain ⟨c, z, na, pd, a, b, g⟩ := o
  obtain ⟨m, s, hp, r⟩ := encBin_parse h (e3 pd) a.num false a.isScalar b (0#3 ++ b1 na ++ b1 z ++ c) g
  have e : ∀ (na z : Bool) (c : BitVec 3), let m8 : BitVec 8 := 0#3 ++ b1 na ++ b1 z ++ c
      part8 m8 0 3 = c ∧ low8 m8 3 = z ∧ low8 m8 4 = na ∧ part8 m8 5 3 = 0 := by decide
  rw [encFSet, hp]
  simp [mkFSet, r.dk, r.ak, r.src, r.b5, r.b6, mzero, r.bit, r.sub, e]

theorem encDBin_parse {opc k} (h : BinForm opc (mkDBin k)) (o : DBin) : (encDBin opc o).parse = some ⟨k o, false, false⟩ := by
  obtain ⟨rn, na, nb, d, a, b, g⟩ := o
  obtain ⟨m, s, hp, r⟩ := encBin_parse h d.num a.num d.isScalar a.isScalar b (0#2 ++ rn.enc ++ 0#1 ++ b1 na ++ b1 nb ++ 0#1) g
  have e : let m8 : BitVec 8 := 0#2 ++ rn.enc ++ 0#1 ++ b1 na ++ b1 nb ++ 0#1
      rnd2 (part8 m8 4 2) = rn ∧ low8 m8 2 = na ∧ low8 m8 1 = nb ∧ low8 m8 0 = false ∧ low8 m8 3 = false ∧
      part8 m8 6 2 = 0 := by
    clear hp r; cases rn <;> revert na nb <;> decide
  rw [encDBin, hp]
  simp [mkDBin, r.dk, r.ak, r.src, r.b5, r.b6, mzero, r.bit, r.sub, e]

/-! ## Shapes of classes 1 to 5 without an immediate -/

/-- An opcode whose F word reads through `mk`. -/
abbrev TriForm (opc : BitVec 10) (mk : BitVec 8 → BitVec 8 → BitVec 8 → BitVec 8 → BitVec 12 → Guard → Parsed) : Prop :=
  ∀ d a b c m g, (Fields.f opc d a b c m g).parse = some (mk d a b c m g)

theorem encTri_parse {opc mk} (h : TriForm opc mk) (d a b c : Reg) (m8 : BitVec 8) (g : Guard) :
    ∃ m, (encTri opc d a b c m8 g).parse = some (mk d.num a.num b.num c.num m g) ∧
      ModParts m d.isScalar a.isScalar b.isScalar c.isScalar m8 :=
  ⟨_, h .., modParts ..⟩

theorem encUn_parse {opc mk} (h : TriForm opc mk) (d a : Reg) (m8 : BitVec 8) (g : Guard) :
    ∃ m, (encUn opc d a m8 g).parse = some (mk d.num a.num 0 0 m g) ∧ ModParts m d.isScalar a.isScalar false false m8 :=
  ⟨_, h .., modPartsI ..⟩

theorem encIntTri_parse {opc k} (h : TriForm opc (mkIntTri k)) (o : IntTri) : (encIntTri opc o).parse = some ⟨k o, false, false⟩ := by
  obtain ⟨⟨w, u⟩, t, d, a, b, c, g⟩ := o
  obtain ⟨m, hp, r⟩ := encTri_parse h d a b c (b1 w ++ b1 u ++ b1 t ++ 0#5) g
  have e : ∀ w u t : Bool, let m8 : BitVec 8 := b1 w ++ b1 u ++ b1 t ++ 0#5
      low8 m8 7 = w ∧ low8 m8 6 = u ∧ low8 m8 5 = t ∧ part8 m8 0 5 = 0 := by decide
  rw [encIntTri, hp]
  simp [mkIntTri, r.dk, r.ak, r.bk, r.ck, intTy, mzero, r.bit, r.sub, e]

theorem encIntUn_parse {opc k} (h : TriForm opc (mkIntUn k)) (o : IntUn) : (encIntUn opc o).parse = some ⟨k o, false, false⟩ := by
  obtain ⟨w, t, d, a, g⟩ := o
  obtain ⟨m, hp, r⟩ := encUn_parse h d a (b1 w ++ 0#1 ++ b1 t ++ 0#5) g
  have e : ∀ w t : Bool, let m8 : BitVec 8 := b1 w ++ 0#1 ++ b1 t ++ 0#5
      low8 m8 7 = w ∧ low8 m8 6 = false ∧ low8 m8 5 = t ∧ part8 m8 0 5 = 0 := by decide
  rw [encIntUn, hp]
  simp [mkIntUn, unused2, r.dk, r.ak, r.bk, r.ck, mzero, r.bit, r.sub, e]

theorem encLogUn_parse {opc k} (h : TriForm opc (mkLogUn k)) (o : LogUn) : (encLogUn opc o).parse = some ⟨k o, false, false⟩ := by
  obtain ⟨w, d, a, g⟩ := o
  obtain ⟨m, hp, r⟩ := encUn_parse h d a (b1 w ++ 0#7) g
  have e : ∀ w : Bool, let m8 : BitVec 8 := b1 w ++ 0#7
      low8 m8 7 = w ∧ part8 m8 0 7 = 0 := by decide
  rw [encLogUn, hp]
  simp [mkLogUn, unused2, r.dk, r.ak, r.bk, r.ck, mzero, r.bit, r.sub, e]

theorem encFUn_parse {opc k} (h : TriForm opc (mkFUn k)) (o : FUn) : (encFUn opc o).parse = some ⟨k o, false, false⟩ := by
  obtain ⟨f, rn, z, na, d, a, g⟩ := o
  obtain ⟨m, hp, r⟩ := encUn_parse h d a (f.enc ++ rn.enc ++ b1 z ++ b1 na ++ 0#2) g
  have e : let m8 : BitVec 8 := f.enc ++ rn.enc ++ b1 z ++ b1 na ++ 0#2
      pfmt2 (part8 m8 6 2) = f ∧ rnd2 (part8 m8 4 2) = rn ∧ low8 m8 3 = z ∧ low8 m8 2 = na ∧ part8 m8 0 2 = 0 ∧
      part8 m8 6 2 ≠ 3#2 := by
    clear hp r; cases f <;> cases rn <;> revert z na <;> decide
  rw [encFUn, hp]
  simp [mkFUn, unused2, r.dk, r.ak, r.bk, r.ck, mzero, r.bit, r.sub, e]

theorem encDUn_parse {opc k} (h : TriForm opc (mkDUn k)) (o : DUn) : (encDUn opc o).parse = some ⟨k o, false, false⟩ := by
  obtain ⟨rn, na, d, a, g⟩ := o
  obtain ⟨m, hp, r⟩ := encUn_parse h d a (0#2 ++ rn.enc ++ 0#1 ++ b1 na ++ 0#2) g
  have e : let m8 : BitVec 8 := 0#2 ++ rn.enc ++ 0#1 ++ b1 na ++ 0#2
      rnd2 (part8 m8 4 2) = rn ∧ low8 m8 2 = na ∧ low8 m8 3 = false ∧ part8 m8 0 2 = 0 ∧ part8 m8 6 2 = 0 := by
    clear hp r; cases rn <;> revert na <;> decide
  rw [encDUn, hp]
  simp [mkDUn, unused2, r.dk, r.ak, r.bk, r.ck, mzero, r.bit, r.sub, e]

theorem encPredBin_parse {opc k} (h : TriForm opc (mkPredBin k)) (o : PredBin) :
    (encPredBin opc o).parse = some ⟨k o, false, false⟩ := by
  obtain ⟨na, nb, pd, pa, pb, g⟩ := o
  have e : ∀ na nb : Bool, let m : BitVec 12 := 0#10 ++ b1 na ++ b1 nb
      mbit m 1 = na ∧ mbit m 0 = nb ∧ mzero m 2 10 = true := by decide
  simp [encPredBin, h .., mkPredBin, e]

theorem encCvt_parse {opc k} (h : TriForm opc (mkCvt k)) (o : CvtOp) : (encCvt opc o).parse = some ⟨k o, false, false⟩ := by
  obtain ⟨dt, st, rn, t, d, a, g⟩ := o
  have r := modPartsI d.isScalar a.isScalar (dt ++ st)
  have e : ∀ x y : BitVec 4, part8 (x ++ y) 4 4 = x ∧ part8 (x ++ y) 0 4 = y := by decide
  have f : let c : BitVec 8 := 0#5 ++ b1 t ++ rn.enc
      rnd2 (c.extractLsb' 0 2) = rn ∧ getElem c 2 (by decide) = t ∧ c.extractLsb' 3 5 = 0 := by
    cases rn <;> revert t <;> decide
  have q : (b1 d.isScalar ++ b1 a.isScalar ++ 0#2 ++ dt ++ st : BitVec 12) = b1 d.isScalar ++ b1 a.isScalar ++ 0#2 ++ (dt ++ st) := by
    rw [BitVec.append_assoc]; rfl
  simp only [encCvt, h .., mkCvt]
  rw [q]
  simp only [r.dk, r.ak, r.bk, r.ck]
  simp [r.sub, e, f]

/-! ## Modifier bits laid out piece by piece -/

theorem append_low {a b : Nat} (x : BitVec a) (y : BitVec b) {lo len : Nat} (h : lo + len ≤ b) :
    (x ++ y).extractLsb' lo len = y.extractLsb' lo len := by
  ext i hi
  have : lo + i < b := by omega
  rw [BitVec.getElem_extractLsb', BitVec.getElem_extractLsb', BitVec.getLsbD_append, if_pos this]

theorem append_high {a b : Nat} (x : BitVec a) (y : BitVec b) {lo len : Nat} (h : b ≤ lo) :
    (x ++ y).extractLsb' lo len = x.extractLsb' (lo - b) len := by
  ext i hi
  have : ¬lo + i < b := by omega
  rw [BitVec.getElem_extractLsb', BitVec.getElem_extractLsb', BitVec.getLsbD_append, if_neg this]
  congr 1; omega

theorem append_bit_low {a b : Nat} (x : BitVec a) (y : BitVec b) {k : Nat} (h : k < b) : (x ++ y).getLsbD k = y.getLsbD k := by
  rw [BitVec.getLsbD_append, if_pos h]

theorem append_bit_high {a b : Nat} (x : BitVec a) (y : BitVec b) {k : Nat} (h : b ≤ k) : (x ++ y).getLsbD k = x.getLsbD (k - b) := by
  rw [BitVec.getLsbD_append, if_neg (by omega)]

theorem whole {a : Nat} (x : BitVec a) : x.extractLsb' 0 a = x := by simp

/-- Class 7's modifier: SP, WD, ORD, POL (R178). -/
theorem mem_parts (x y : BitVec 3) (z : BitVec 4) (w : BitVec 2) : let m : BitVec 12 := x ++ y ++ z ++ w
    m.extractLsb' 9 3 = x ∧ m.extractLsb' 6 3 = y ∧ m.extractLsb' 2 4 = z ∧ m.extractLsb' 0 2 = w :=
  ⟨(append_high (x ++ y ++ z) w (lo := 9) (by decide)).trans ((append_high (x ++ y) z (lo := 7) (by decide)).trans
      ((append_high x y (lo := 3) (by decide)).trans (whole x))),
   (append_high (x ++ y ++ z) w (lo := 6) (by decide)).trans ((append_high (x ++ y) z (lo := 4) (by decide)).trans
      ((append_low x y (lo := 0) (by decide)).trans (whole y))),
   (append_high (x ++ y ++ z) w (lo := 2) (by decide)).trans ((append_low (x ++ y) z (lo := 0) (by decide)).trans (whole z)),
   (append_low (x ++ y ++ z) w (lo := 0) (by decide)).trans (whole w)⟩

/-- Class 8's modifier: SP, W64, SCOPE and SEM, OP (R275). -/
theorem atom_parts (x : BitVec 2) (b : Bool) (y : BitVec 5) (z : BitVec 4) : let m : BitVec 12 := x ++ b1 b ++ y ++ z
    m.extractLsb' 10 2 = x ∧ mbit m 9 = b ∧ m.extractLsb' 6 3 = y.extractLsb' 2 3 ∧ m.extractLsb' 4 2 = y.extractLsb' 0 2 ∧
    m.extractLsb' 0 4 = z :=
  ⟨(append_high (x ++ b1 b ++ y) z (lo := 10) (by decide)).trans ((append_high (x ++ b1 b) y (lo := 6) (by decide)).trans
      ((append_high x (b1 b) (lo := 1) (by decide)).trans (whole x))),
   (append_bit_high (x ++ b1 b ++ y) z (k := 9) (by decide)).trans ((append_bit_high (x ++ b1 b) y (k := 5) (by decide)).trans
      ((append_bit_low x (b1 b) (k := 0) (by decide)).trans (by cases b <;> rfl))),
   (append_high (x ++ b1 b ++ y) z (lo := 6) (by decide)).trans (append_low (x ++ b1 b) y (lo := 2) (by decide)),
   (append_high (x ++ b1 b ++ y) z (lo := 4) (by decide)).trans (append_low (x ++ b1 b) y (lo := 0) (by decide)),
   (append_low (x ++ b1 b ++ y) z (lo := 0) (by decide)).trans (whole z)⟩

/-- Class 6's modifier: G, DK, EXC, two zeros, PR, OP (R115). -/
theorem lane_parts (G k e : Bool) (pr : BitVec 3) (op : BitVec 4) :
    let m : BitVec 12 := b1 G ++ b1 k ++ b1 e ++ 0#2 ++ pr ++ op
    mbit m 11 = G ∧ mbit m 10 = k ∧ mbit m 9 = e ∧ mzero m 7 2 = true ∧ m.extractLsb' 4 3 = pr ∧ m.extractLsb' 0 4 = op := by
  have hm : ∀ n, 4 ≤ n → BitVec.getLsbD (b1 G ++ b1 k ++ b1 e ++ 0#2 ++ pr ++ op) n =
      BitVec.getLsbD (b1 G ++ b1 k ++ b1 e ++ 0#2 ++ pr) (n - 4) := fun n hn => append_bit_high _ op hn
  have e8 : ∀ (G k e : Bool) (pr : BitVec 3), let q : BitVec 8 := b1 G ++ b1 k ++ b1 e ++ 0#2 ++ pr
      q.getLsbD 7 = G ∧ q.getLsbD 6 = k ∧ q.getLsbD 5 = e ∧ q.extractLsb' 3 2 = 0 ∧ q.extractLsb' 0 3 = pr := by decide
  obtain ⟨h1, h2, h3, h4, h5⟩ := e8 G k e pr
  refine ⟨(hm 11 (by decide)).trans h1, (hm 10 (by decide)).trans h2, (hm 9 (by decide)).trans h3, ?_,
    (append_high _ op (lo := 4) (by decide)).trans h5, (append_low _ op (lo := 0) (by decide)).trans (whole op)⟩
  rw [mzero, show BitVec.extractLsb' 7 2 (b1 G ++ b1 k ++ b1 e ++ 0#2 ++ pr ++ op : BitVec 12) = 0 from
    (append_high (b1 G ++ b1 k ++ b1 e ++ 0#2 ++ pr) op (lo := 7) (by decide)).trans h4]
  rfl

/-! ## The word -/

theorem extract_high {a b : Nat} (x : BitVec a) (y : BitVec b) {lo len : Nat} (h : b ≤ lo) {z : BitVec len}
   (e : x.extractLsb' (lo - b) len = z) : (x ++ y).extractLsb' lo len = z := (append_high x y h).trans e
theorem extract_low {a b : Nat} (x : BitVec a) (y : BitVec b) {lo len : Nat} (h : lo + len ≤ b) {z : BitVec len}
   (e : y.extractLsb' lo len = z) : (x ++ y).extractLsb' lo len = z := (append_low x y h).trans e

/-- A one-bit field read back. -/
theorem ofBool_bit (b : Bool) : (BitVec.ofBool b == 1#1) = b := by cases b <;> rfl

theorem unpackF_pack (opc : BitVec 10) (d a b c : BitVec 8) (m : BitVec 12) (g : Guard) : unpackF (Fields.f opc d a b c m g).pack = .f opc d a b c m g := by
  have e (lo len : Nat) (z : BitVec len) (h : (0#2 ++ opc ++ d ++ a ++ b ++ c ++ m ++ g.p ++ BitVec.ofBool g.neg ++ 0#4).extractLsb' lo len = z) :
    fld (Fields.f opc d a b c m g).pack lo len = z := h
  have h0 := e 52 10 opc (by repeat first | exact whole _ | refine extract_high _ _ (by decide) ?_ | refine extract_low _ _ (by decide) ?_)
  have h1 := e 44 8 d (by repeat first | exact whole _ | refine extract_high _ _ (by decide) ?_ | refine extract_low _ _ (by decide) ?_)
  have h2 := e 36 8 a (by repeat first | exact whole _ | refine extract_high _ _ (by decide) ?_ | refine extract_low _ _ (by decide) ?_)
  have h3 := e 28 8 b (by repeat first | exact whole _ | refine extract_high _ _ (by decide) ?_ | refine extract_low _ _ (by decide) ?_)
  have h4 := e 20 8 c (by repeat first | exact whole _ | refine extract_high _ _ (by decide) ?_ | refine extract_low _ _ (by decide) ?_)
  have h5 := e 8 12 m (by repeat first | exact whole _ | refine extract_high _ _ (by decide) ?_ | refine extract_low _ _ (by decide) ?_)
  have h6 := e 5 3 g.p (by repeat first | exact whole _ | refine extract_high _ _ (by decide) ?_ | refine extract_low _ _ (by decide) ?_)
  have h7 := e 4 1 (BitVec.ofBool g.neg) (by repeat first | exact whole _ | refine extract_high _ _ (by decide) ?_ | refine extract_low _ _ (by decide) ?_)
  rw [unpackF, h0, h1, h2, h3, h4, h5, h6, h7]
  cases g; simp [ofBool_bit]
theorem unpackFm_pack (opc : BitVec 10) (d a : BitVec 8) (m : BitVec 12) (i : BitVec 20) (g : Guard) : unpackFm (Fields.fm opc d a m i g).pack = .fm opc d a m i g := by
  have e (lo len : Nat) (z : BitVec len) (h : (2#2 ++ opc ++ d ++ a ++ m ++ i ++ BitVec.ofBool g.neg ++ g.p).extractLsb' lo len = z) :
    fld (Fields.fm opc d a m i g).pack lo len = z := h
  have h0 := e 52 10 opc (by repeat first | exact whole _ | refine extract_high _ _ (by decide) ?_ | refine extract_low _ _ (by decide) ?_)
  have h1 := e 44 8 d (by repeat first | exact whole _ | refine extract_high _ _ (by decide) ?_ | refine extract_low _ _ (by decide) ?_)
  have h2 := e 36 8 a (by repeat first | exact whole _ | refine extract_high _ _ (by decide) ?_ | refine extract_low _ _ (by decide) ?_)
  have h3 := e 24 12 m (by repeat first | exact whole _ | refine extract_high _ _ (by decide) ?_ | refine extract_low _ _ (by decide) ?_)
  have h4 := e 4 20 i (by repeat first | exact whole _ | refine extract_high _ _ (by decide) ?_ | refine extract_low _ _ (by decide) ?_)
  have h5 := e 0 3 g.p (by repeat first | exact whole _ | refine extract_high _ _ (by decide) ?_ | refine extract_low _ _ (by decide) ?_)
  have h6 := e 3 1 (BitVec.ofBool g.neg) (by repeat first | exact whole _ | refine extract_high _ _ (by decide) ?_ | refine extract_low _ _ (by decide) ?_)
  rw [unpackFm, h0, h1, h2, h3, h4, h5, h6]
  cases g; simp [ofBool_bit]
theorem unpackFi_pack (opc : BitVec 10) (d a : BitVec 8) (i : BitVec 32) (g : Guard) : unpackFi (Fields.fi opc d a i g).pack = .fi opc d a i g := by
  have e (lo len : Nat) (z : BitVec len) (h : (2#2 ++ opc ++ d ++ a ++ i ++ BitVec.ofBool g.neg ++ g.p).extractLsb' lo len = z) :
    fld (Fields.fi opc d a i g).pack lo len = z := h
  have h0 := e 52 10 opc (by repeat first | exact whole _ | refine extract_high _ _ (by decide) ?_ | refine extract_low _ _ (by decide) ?_)
  have h1 := e 44 8 d (by repeat first | exact whole _ | refine extract_high _ _ (by decide) ?_ | refine extract_low _ _ (by decide) ?_)
  have h2 := e 36 8 a (by repeat first | exact whole _ | refine extract_high _ _ (by decide) ?_ | refine extract_low _ _ (by decide) ?_)
  have h3 := e 4 32 i (by repeat first | exact whole _ | refine extract_high _ _ (by decide) ?_ | refine extract_low _ _ (by decide) ?_)
  have h4 := e 0 3 g.p (by repeat first | exact whole _ | refine extract_high _ _ (by decide) ?_ | refine extract_low _ _ (by decide) ?_)
  have h5 := e 3 1 (BitVec.ofBool g.neg) (by repeat first | exact whole _ | refine extract_high _ _ (by decide) ?_ | refine extract_low _ _ (by decide) ?_)
  rw [unpackFi, h0, h1, h2, h3, h4, h5]
  cases g; simp [ofBool_bit]

/-- The opcode field. -/
def opcOf : Fields → BitVec 10
  | .f o .. | .fm o .. | .fi o .. => o

/-- The layout is one of the opcode's own (R78, R79). -/
def fits (fm : Forms) : Fields → Bool
  | .f .. => fm.f
  | .fm .. => fm.i20
  | .fi .. => !fm.i20 && fm.i32

theorem unpack_pack {fm : Forms} {f : Fields} (h : fits fm f = true) : unpackFields f.pack fm = some f := by
  cases f with
  | f opc d a b c m g =>
    have : fld (Fields.f opc d a b c m g).pack 62 2 = 0#2 := by
      show (0#2 ++ opc ++ d ++ a ++ b ++ c ++ m ++ g.p ++ BitVec.ofBool g.neg ++ 0#4).extractLsb' 62 2 = 0#2
      repeat first | exact whole _ | refine extract_high _ _ (by decide) ?_ | refine extract_low _ _ (by decide) ?_
    simp [unpackFields, this, fits] at *; simp [h, unpackF_pack]
  | fm opc d a m i g =>
    have : fld (Fields.fm opc d a m i g).pack 62 2 = 2#2 := by
      show (2#2 ++ opc ++ d ++ a ++ m ++ i ++ BitVec.ofBool g.neg ++ g.p).extractLsb' 62 2 = 2#2
      repeat first | exact whole _ | refine extract_high _ _ (by decide) ?_ | refine extract_low _ _ (by decide) ?_
    simp [unpackFields, this, fits] at *; simp [h, unpackFm_pack]
  | fi opc d a i g =>
    have : fld (Fields.fi opc d a i g).pack 62 2 = 2#2 := by
      show (2#2 ++ opc ++ d ++ a ++ i ++ BitVec.ofBool g.neg ++ g.p).extractLsb' 62 2 = 2#2
      repeat first | exact whole _ | refine extract_high _ _ (by decide) ?_ | refine extract_low _ _ (by decide) ?_
    simp [unpackFields, this, fits] at *; simp [h, unpackFi_pack]

theorem form_pack (f : Fields) : fld f.pack 62 2 = 0#2 ∨ fld f.pack 62 2 = 2#2 := by
  cases f with
  | f opc d a b c m g =>
    left
    show (0#2 ++ opc ++ d ++ a ++ b ++ c ++ m ++ g.p ++ BitVec.ofBool g.neg ++ 0#4).extractLsb' 62 2 = 0#2
    repeat first | exact whole _ | refine extract_high _ _ (by decide) ?_ | refine extract_low _ _ (by decide) ?_
  | fm opc d a m i g =>
    right
    show (2#2 ++ opc ++ d ++ a ++ m ++ i ++ BitVec.ofBool g.neg ++ g.p).extractLsb' 62 2 = 2#2
    repeat first | exact whole _ | refine extract_high _ _ (by decide) ?_ | refine extract_low _ _ (by decide) ?_
  | fi opc d a i g =>
    right
    show (2#2 ++ opc ++ d ++ a ++ i ++ BitVec.ofBool g.neg ++ g.p).extractLsb' 62 2 = 2#2
    repeat first | exact whole _ | refine extract_high _ _ (by decide) ?_ | refine extract_low _ _ (by decide) ?_

theorem opc_pack (f : Fields) : fld f.pack 52 10 = opcOf f := by
  cases f with
  | f opc d a b c m g =>
    show (0#2 ++ opc ++ d ++ a ++ b ++ c ++ m ++ g.p ++ BitVec.ofBool g.neg ++ 0#4).extractLsb' 52 10 = opc
    repeat first | exact whole _ | refine extract_high _ _ (by decide) ?_ | refine extract_low _ _ (by decide) ?_
  | fm opc d a m i g =>
    show (2#2 ++ opc ++ d ++ a ++ m ++ i ++ BitVec.ofBool g.neg ++ g.p).extractLsb' 52 10 = opc
    repeat first | exact whole _ | refine extract_high _ _ (by decide) ?_ | refine extract_low _ _ (by decide) ?_
  | fi opc d a i g =>
    show (2#2 ++ opc ++ d ++ a ++ i ++ BitVec.ofBool g.neg ++ g.p).extractLsb' 52 10 = opc
    repeat first | exact whole _ | refine extract_high _ _ (by decide) ?_ | refine extract_low _ _ (by decide) ?_

theorem zeros_pack (f : Fields) : (fld f.pack 62 2 == 0#2 && fld f.pack 0 4 != 0#4) = false := by
  cases f with
  | f opc d a b c m g =>
    have : fld (Fields.f opc d a b c m g).pack 0 4 = 0#4 := by
      show (0#2 ++ opc ++ d ++ a ++ b ++ c ++ m ++ g.p ++ BitVec.ofBool g.neg ++ 0#4).extractLsb' 0 4 = 0#4
      repeat first | exact whole _ | refine extract_high _ _ (by decide) ?_ | refine extract_low _ _ (by decide) ?_
    simp [this]
  | fm opc d a m i g =>
    have : fld (Fields.fm opc d a m i g).pack 62 2 = 2#2 := by
      show (2#2 ++ opc ++ d ++ a ++ m ++ i ++ BitVec.ofBool g.neg ++ g.p).extractLsb' 62 2 = 2#2
      repeat first | exact whole _ | refine extract_high _ _ (by decide) ?_ | refine extract_low _ _ (by decide) ?_
    simp [this]
  | fi opc d a i g =>
    have : fld (Fields.fi opc d a i g).pack 62 2 = 2#2 := by
      show (2#2 ++ opc ++ d ++ a ++ i ++ BitVec.ofBool g.neg ++ g.p).extractLsb' 62 2 = 2#2
      repeat first | exact whole _ | refine extract_high _ _ (by decide) ?_ | refine extract_low _ _ (by decide) ?_
    simp [this]

/-- The map assigns the opcode, in a class below 14, and accepts the layout (R85, R86). -/
def accepted (f : Fields) : Bool := (opcForms (opcOf f)).any (fun fm => fits fm f) && (opcOf f).toNat < 0x380

theorem accepted_f {opc d a b c m g} (h : ((opcForms opc).any (·.f) && opc.toNat < 0x380) = true) :
    accepted (.f opc d a b c m g) = true := h

theorem accepted_fm {opc d a m i g} (h : ((opcForms opc).any (·.i20) && opc.toNat < 0x380) = true) :
    accepted (.fm opc d a m i g) = true := h

theorem accepted_fi {opc d a i g} (h : ((opcForms opc).any (fun fm => !fm.i20 && fm.i32) && opc.toNat < 0x380) = true) :
    accepted (.fi opc d a i g) = true := h

theorem encBin_accepted {opc d a x y b m g}
    (h : ((opcForms opc).any (fun fm => fm.f && fm.i20) && opc.toNat < 0x380) = true) :
    accepted (encBin opc d a x y b m g) = true := by
  cases b <;> cases e : opcForms opc <;> simp_all [encBin, accepted, opcOf, fits]

theorem enc7_accepted {opc d base idx form pr m g}
    (h : ((opcForms opc).any (fun fm => fm.f && fm.i20) && opc.toNat < 0x380) = true) :
    accepted (enc7 opc d base idx form pr m g) = true := by
  cases form <;> cases e : opcForms opc <;> simp_all [enc7, accepted, opcOf, fits]

/-! ## Classes 7 and 8 -/

@[simp] theorem always_isAlways : always.isAlways = true := rfl

/-- Both class 7 forms read alike, the FI form with PR zero (R177). -/
theorem enc7_parse {opc : BitVec 10} {d : BitVec 8} {base : BitVec 6} {idx : BitVec 8} {form : MemForm} {pr : BitVec 3}
    {m : BitVec 12} {g : Guard} (h : opc.toNat / 64 = 7) (hp : ∀ x, form = .fi x → pr = 0) :
    (enc7 opc d base idx form pr m g).parse = parse7 opc.toNat d (e6 base) idx form pr m g := by
  cases form with
  | f ix =>
    have e := (by decide : ∀ (pr : BitVec 3) (ix : Bool), let c : BitVec 8 := 0#1 ++ pr ++ 0#3 ++ b1 ix
      c.getLsbD 0 = ix ∧ c.extractLsb' 4 3 = pr ∧ c.getLsbD 7 = false ∧ c.extractLsb' 1 3 = 0#3) pr ix
    simp only [enc7, Fields.parse, parseF, h]
    rw [e.1, e.2.1, e.2.2.1, e.2.2.2]
    cases parse7 opc.toNat d (e6 base) idx (.f ix) pr m g <;> simp
  | fi x =>
    have e1 : (idx ++ x : BitVec 20).extractLsb' 12 8 = idx :=
      (append_high idx x (lo := 12) (by decide)).trans (whole idx)
    have e2 : (idx ++ x : BitVec 20).extractLsb' 0 12 = x := (append_low idx x (lo := 0) (by decide)).trans (whole x)
    simp only [enc7, Fields.parse, parseFm, h]
    rw [e1, e2, hp x rfl]

/-- What the class 7 modifier holds. -/
theorem mem_read (o : MemOp) : space3 ((encMemM o).extractLsb' 9 3) = o.space ∧ wid3 ((encMemM o).extractLsb' 6 3) = o.wid ∧
    ord4 ((encMemM o).extractLsb' 2 4) = some o.ord ∧ pol2 ((encMemM o).extractLsb' 0 2) = o.pol ∧
    (5 ≤ ((encMemM o).extractLsb' 9 3).toNat) = False ∧ ((encMemM o).extractLsb' 6 3 == 7#3) = false := by
  obtain ⟨h1, h2, h3, h4⟩ := mem_parts o.space.enc o.wid.enc o.ord.enc o.pol.enc
  rw [encMemM, h1, h2, h3, h4]
  simp [-BitVec.extractLsb'_toNat, Nat.not_le.mp (space_code_lt o.space)]

/-- What the CCTL modifier holds. -/
theorem cctl_read (sp : Space) : let m : BitVec 12 := sp.enc ++ 0#9
    space3 (m.extractLsb' 9 3) = sp ∧ m.extractLsb' 6 3 = 0#3 ∧ m.extractLsb' 2 4 = 0#4 ∧ m.extractLsb' 0 2 = 0#2 ∧
    (5 ≤ (m.extractLsb' 9 3).toNat) = False := by
  cases sp <;> simp <;> decide

/-- What the class 8 modifier holds. -/
theorem atom_read (o : AtomOp) (hs : o.space = .g ∨ o.space = .s ∨ o.space = .c) :
    let m : BitVec 12 := o.space.enc.setWidth 2 ++ b1 o.w64 ++ o.sem.enc ++ o.op
    space3 ((m.extractLsb' 10 2).setWidth 3) = o.space ∧ (m.extractLsb' 10 2 == 3#2) = false ∧ mbit m 9 = o.w64 ∧
    sem5 (m.extractLsb' 4 2) (m.extractLsb' 6 3) = some o.sem ∧ m.extractLsb' 0 4 = o.op := by
  obtain ⟨h1, h2, h3, h4, h5⟩ := atom_parts (o.space.enc.setWidth 2) o.w64 o.sem.enc o.op
  refine ⟨?_, ?_, h2, ?_, h5⟩
  · rw [h1]; obtain h | h | h := hs <;> rw [h] <;> rfl
  · rw [h1]; obtain h | h | h := hs <;> rw [h] <;> rfl
  · rw [h3, h4]; exact sem5_enc o.sem

end Sys2Proof.Laws
end

