-- ==== Sys2Proof/Laws/Memory.lean ====
section
/-! SUPPORT. Maps: read after write and the canonical form; memory: every operation keeps the canonical form. -/

namespace Sys2Proof.Machine

/-! ## Reads -/

@[simp] theorem fget_nil {α : Type} (d : α) (n : Nat) : fget d [] n = d := rfl

@[simp] theorem fget_cons {α : Type} (d : α) (k : Nat) (v : α) (t : FMap α) (n : Nat) :
    fget d ((k, v) :: t) n = if k = n then v else fget d t n := rfl

@[simp] theorem fget_fdrop_same {α : Type} (d : α) (m : FMap α) (n : Nat) : fget d (fdrop m n) n = d := by
  induction m with
  | nil => rfl
  | cons x t ih =>
    obtain ⟨k, v⟩ := x
    by_cases h : k = n <;> simp_all [fdrop]

theorem fget_fdrop_ne {α : Type} (d : α) (m : FMap α) {n k : Nat} (h : k ≠ n) : fget d (fdrop m n) k = fget d m k := by
  induction m with
  | nil => rfl
  | cons x t ih =>
    obtain ⟨a, v⟩ := x
    by_cases e : a = n
    · have : a ≠ k := fun c => h (c ▸ e)
      simp_all [fdrop]
    · simp_all [fdrop]

theorem fget_fput_same {α : Type} (d : α) (m : FMap α) (n : Nat) (v : α) (h : n ∉ m.map (·.1)) :
    fget d (fput m n v) n = v := by
  induction m with
  | nil => simp [fput]
  | cons x t ih =>
    obtain ⟨a, w⟩ := x
    simp only [List.map_cons, List.mem_cons, not_or] at h
    unfold fput
    split
    · simp
    · rw [fget_cons, if_neg (Ne.symm h.1), ih h.2]

theorem fget_fput_ne {α : Type} (d : α) (m : FMap α) {n k : Nat} (v : α) (h : k ≠ n) :
    fget d (fput m n v) k = fget d m k := by
  induction m with
  | nil => simp [fput, Ne.symm h]
  | cons x t ih =>
    obtain ⟨a, w⟩ := x
    unfold fput
    split
    · rw [fget_cons, if_neg (Ne.symm h)]
    · rw [fget_cons, fget_cons, ih]

theorem not_mem_fdrop {α : Type} (m : FMap α) (n : Nat) : n ∉ (fdrop m n).map (·.1) := by simp [fdrop]

/-- A read after a write of the same key. -/
@[simp] theorem fget_fset_same {α : Type} [DecidableEq α] (d : α) (m : FMap α) (n : Nat) (v : α) :
    fget d (fset d m n v) n = v := by
  by_cases h : v = d
  · simp [fset, h]
  · simp only [fset, h, if_false]; exact fget_fput_same _ _ _ _ (not_mem_fdrop m n)

/-- A write leaves every other key alone. -/
theorem fget_fset_ne {α : Type} [DecidableEq α] (d : α) (m : FMap α) {n k : Nat} (v : α) (h : k ≠ n) :
    fget d (fset d m n v) k = fget d m k := by
  by_cases e : v = d
  · simp [fset, e, fget_fdrop_ne d m h]
  · simp only [fset, e, if_false]; rw [fget_fput_ne _ _ _ h, fget_fdrop_ne _ _ h]

theorem fget_fset {α : Type} [DecidableEq α] (d : α) (m : FMap α) (n k : Nat) (v : α) :
    fget d (fset d m n v) k = if k = n then v else fget d m k := by
  by_cases h : k = n
  · subst h; simp
  · simp [h, fget_fset_ne d m v h]

/-- Bytes read after bytes written. -/
theorem fget_fsetBytes (m : FMap Byte) (a : Nat) (bs : List Byte) (k : Nat) :
    fget 0 (fsetBytes m a bs) k = if a ≤ k ∧ k < a + bs.length then bs.getD (k - a) 0 else fget 0 m k := by
  induction bs generalizing m a with
  | nil => simp only [fsetBytes, List.length_nil]; rw [if_neg (by omega)]
  | cons b t ih =>
    rw [fsetBytes, ih, fget_fset]
    by_cases h : k = a
    · subst h; rw [if_neg (by omega)]; simp
    · by_cases c : a + 1 ≤ k ∧ k < a + 1 + t.length
      · have e : k - a = (k - (a + 1)) + 1 := by omega
        have : a ≤ k ∧ k < a + (b :: t).length := by simp; omega
        rw [if_pos c, if_pos this, e]; simp
      · have : ¬(a ≤ k ∧ k < a + (b :: t).length) := by simp; omega
        rw [if_neg c, if_neg h, if_neg this]

@[simp] theorem fgetBytes_length (m : FMap Byte) (a n : Nat) : (fgetBytes m a n).length = n := by simp [fgetBytes]

/-! ## The canonical form -/

theorem fwfFrom_mono {α : Type} [DecidableEq α] {d : α} {m : FMap α} {lo hi : Nat} (h : lo ≤ hi)
    (w : fwfFrom d hi m = true) : fwfFrom d lo m = true := by
  cases m with
  | nil => rfl
  | cons x t =>
    obtain ⟨k, v⟩ := x
    simp only [fwfFrom, Bool.and_eq_true, decide_eq_true_eq] at w ⊢
    exact ⟨⟨by omega, w.1.2⟩, w.2⟩

theorem fwfFrom_fdrop {α : Type} [DecidableEq α] {d : α} {m : FMap α} {lo : Nat} (n : Nat)
    (w : fwfFrom d lo m = true) : fwfFrom d lo (fdrop m n) = true := by
  induction m generalizing lo with
  | nil => rfl
  | cons x t ih =>
    obtain ⟨k, v⟩ := x
    simp only [fwfFrom, Bool.and_eq_true, decide_eq_true_eq] at w
    by_cases e : k = n
    · have : fdrop ((k, v) :: t) n = fdrop t n := by simp [fdrop, e]
      rw [this]; exact fwfFrom_mono (by omega) (ih w.2)
    · have : fdrop ((k, v) :: t) n = (k, v) :: fdrop t n := by simp [fdrop, e]
      rw [this]; simp only [fwfFrom, Bool.and_eq_true, decide_eq_true_eq]; exact ⟨w.1, ih w.2⟩

theorem fwfFrom_fput {α : Type} [DecidableEq α] {d : α} {m : FMap α} {lo n : Nat} {v : α} (hv : v ≠ d) (hlo : lo ≤ n)
    (hn : n ∉ m.map (·.1)) (w : fwfFrom d lo m = true) : fwfFrom d lo (fput m n v) = true := by
  induction m generalizing lo with
  | nil => simp [fput, fwfFrom, hv, hlo]
  | cons x t ih =>
    obtain ⟨k, u⟩ := x
    simp only [fwfFrom, Bool.and_eq_true, decide_eq_true_eq] at w
    simp only [List.map_cons, List.mem_cons, not_or] at hn
    by_cases e : n < k
    · simp only [fput, e, if_true, fwfFrom, Bool.and_eq_true, decide_eq_true_eq]
      exact ⟨⟨hlo, hv⟩, ⟨by omega, w.1.2⟩, w.2⟩
    · simp only [fput, e, if_false, fwfFrom, Bool.and_eq_true, decide_eq_true_eq]
      exact ⟨w.1, ih (by have := hn.1; omega) hn.2 w.2⟩

/-- A write keeps the canonical form. -/
theorem fwf_fset {α : Type} [DecidableEq α] {d : α} {m : FMap α} (n : Nat) (v : α) (w : fwf d m = true) :
    fwf d (fset d m n v) = true := by
  by_cases h : v = d
  · simp only [fset, h, if_true]; exact fwfFrom_fdrop n w
  · simp only [fset, h, if_false]
    exact fwfFrom_fput h (Nat.zero_le _) (not_mem_fdrop m n) (fwfFrom_fdrop n w)

theorem Memory.wf_fsetBytes {m : FMap Byte} (a : Nat) (bs : List Byte) (w : Memory.wf m = true) :
    Memory.wf (fsetBytes m a bs) = true := by
  induction bs generalizing m a with
  | nil => exact w
  | cons b t ih => exact ih (a + 1) (fwf_fset a b w)

/-! ## Memory's operations -/

theorem Memory.wf_foldl {α : Type} {f : Dev → α → Dev} (hf : ∀ d x, Memory.wf d.mem = true → Memory.wf (f d x).mem = true)
    (l : List α) (d : Dev) (w : Memory.wf d.mem = true) : Memory.wf (l.foldl f d).mem = true := by
  induction l generalizing d with
  | nil => exact w
  | cons x t ih => exact ih (f d x) (hf d x w)

theorem Memory.wf_rekey (d : Dev) (key : BitVec 8) (line : Nat) (w : Memory.wf d.mem = true) :
    Memory.wf (d.rekey key line).mem = true := by
  unfold Dev.rekey
  split
  · exact w
  · exact Memory.wf_fsetBytes _ _ w

theorem Memory.wf_wr (d : Dev) (key : BitVec 8) (pa : Nat) (bs : List Byte) (w : Memory.wf d.mem = true) :
    Memory.wf (d.wr key pa bs).mem = true :=
  Memory.wf_fsetBytes _ _ (Memory.wf_foldl (fun d l h => Memory.wf_rekey d key l h) _ d w)

/-! What a home holds is no part of memory (R172). -/

theorem Dev.trimData_mem (fuel line : Nat) (d : Dev) : (d.trimData line fuel).mem = d.mem := by
  induction fuel generalizing d with
  | zero => rfl
  | succ n ih =>
    unfold Dev.trimData
    simp only
    split
    · rfl
    · split
      · rw [ih]; rfl
      · rfl

theorem Dev.holdData_mem (d : Dev) (line : Nat) : (d.holdData line).mem = d.mem := by
  unfold Dev.holdData
  split
  · rfl
  · rw [Dev.trimData_mem]; rfl

theorem Dev.tagRoom_mem (d : Dev) (line : Nat) : (d.tagRoom line).1.mem = d.mem := by
  unfold Dev.tagRoom
  simp only
  split
  · rfl
  · split <;> rfl

theorem Dev.homeStore_mem (d : Dev) (cached : Bool) (line : Nat) : (d.homeStore cached line).mem = d.mem := by
  have held : ∀ (e : Dev) (b : Bool), (if b then e.holdData line else e).mem = e.mem := by
    intro e b; cases b
    · rfl
    · exact Dev.holdData_mem e line
  unfold Dev.homeStore
  simp only
  split
  · split
    next e h =>
      rw [Dev.holdData_mem]
      have := congrArg (fun x => x.1.mem) h
      simp only [Dev.tagRoom_mem, held] at this
      exact this.symm
    next e h =>
      have := congrArg (fun x => x.1.mem) h
      simp only [Dev.tagRoom_mem, held] at this
      exact this.symm
  · exact held _ _

theorem Dev.wakeWatches_mem (d : Dev) (line : Nat) : (d.wakeWatches line).mem = d.mem := rfl

theorem Memory.wf_homeWrite (d : Dev) (cached : Bool) (key : BitVec 8) (pa : Nat) (bs : List Byte)
    (w : Memory.wf d.mem = true) : Memory.wf (d.homeWrite cached key pa bs).mem = true := by
  unfold Dev.homeWrite
  refine Memory.wf_foldl (fun d l h => ?_) _ _ (Memory.wf_foldl (fun d l h => ?_) _ _ (Memory.wf_wr d key pa bs w))
  · split
    · exact h
    · exact h
  · rw [Dev.homeStore_mem]; exact h

theorem Memory.wf_engineWrite (d : Dev) (cached : Bool) (key : BitVec 8) (pa : Nat) (bs : List Byte)
    (w : Memory.wf d.mem = true) : Memory.wf (d.engineWrite cached key pa bs).mem = true :=
  Memory.wf_homeWrite d cached key pa bs w

/-- Translation leaves memory alone. -/
theorem Dev.l2Translate_mem (d : Dev) (die pid asid va : Nat) (need : Need) :
    (d.l2Translate die pid asid va need).1.mem = d.mem := by
  unfold Dev.l2Translate
  split
  · rfl
  · simp only; split <;> rfl

theorem Dev.translate_mem (d : Dev) (core pid asid va : Nat) (need : Need) :
    (d.translate core pid asid va need).1.mem = d.mem := by
  unfold Dev.translate
  split
  · rfl
  · simp only
    have := Dev.l2Translate_mem (d.modCore core fun x => { x with tlb := tlbDrop x.tlb asid va }) (core / 128) pid asid va need
    split <;> simp_all [Dev.modCore]

/-- Memory at reset lists nothing. -/
theorem Memory.wf_reset : Memory.wf State.reset.dev.mem = true := rfl

end Sys2Proof.Machine
end

