-- ==== Sys2Proof/Laws/State.lean ====
section
/-! SUPPORT. What each named update of the device and of a group leaves as it was, field by field. -/

set_option Elab.async false

namespace Sys2Proof.Machine

/-! ## The device's updates -/

@[simp] theorem Dev.modTeam_fresh (d : Dev) (t : Nat) (f : Team → Team) : (d.modTeam t f).fresh = d.fresh := rfl
@[simp] theorem Dev.modTeam_nextId (d : Dev) (t : Nat) (f : Team → Team) : (d.modTeam t f).nextId = d.nextId := rfl
@[simp] theorem Dev.modTeam_cur (d : Dev) (t : Nat) (f : Team → Team) : (d.modTeam t f).cur = d.cur := rfl
@[simp] theorem Dev.modTeam_chose (d : Dev) (t : Nat) (f : Team → Team) : (d.modTeam t f).chose = d.chose := rfl
@[simp] theorem Dev.modTeam_passed (d : Dev) (t : Nat) (f : Team → Team) : (d.modTeam t f).passed = d.passed := rfl
@[simp] theorem Dev.modTeam_cycle (d : Dev) (t : Nat) (f : Team → Team) : (d.modTeam t f).cycle = d.cycle := rfl
@[simp] theorem Dev.modTeam_capacity (d : Dev) (t : Nat) (f : Team → Team) : (d.modTeam t f).capacity = d.capacity := rfl
@[simp] theorem Dev.modTeam_mem (d : Dev) (t : Nat) (f : Team → Team) : (d.modTeam t f).mem = d.mem := rfl
@[simp] theorem Dev.modTeam_poison (d : Dev) (t : Nat) (f : Team → Team) : (d.modTeam t f).poison = d.poison := rfl
@[simp] theorem Dev.modTeam_lineKey (d : Dev) (t : Nat) (f : Team → Team) : (d.modTeam t f).lineKey = d.lineKey := rfl
@[simp] theorem Dev.modTeam_keyGen (d : Dev) (t : Nat) (f : Team → Team) : (d.modTeam t f).keyGen = d.keyGen := rfl
@[simp] theorem Dev.modTeam_roots (d : Dev) (t : Nat) (f : Team → Team) : (d.modTeam t f).roots = d.roots := rfl
@[simp] theorem Dev.modTeam_homes (d : Dev) (t : Nat) (f : Team → Team) : (d.modTeam t f).homes = d.homes := rfl
@[simp] theorem Dev.modTeam_reqs (d : Dev) (t : Nat) (f : Team → Team) : (d.modTeam t f).reqs = d.reqs := rfl
@[simp] theorem Dev.modTeam_cores (d : Dev) (t : Nat) (f : Team → Team) : (d.modTeam t f).cores = d.cores := rfl
@[simp] theorem Dev.modTeam_dies (d : Dev) (t : Nat) (f : Team → Team) : (d.modTeam t f).dies = d.dies := rfl
@[simp] theorem Dev.modTeam_grids (d : Dev) (t : Nat) (f : Team → Team) : (d.modTeam t f).grids = d.grids := rfl
@[simp] theorem Dev.modTeam_pending (d : Dev) (t : Nat) (f : Team → Team) : (d.modTeam t f).pending = d.pending := rfl
@[simp] theorem Dev.modTeam_queues (d : Dev) (t : Nat) (f : Team → Team) : (d.modTeam t f).queues = d.queues := rfl
@[simp] theorem Dev.modTeam_levels (d : Dev) (t : Nat) (f : Team → Team) : (d.modTeam t f).levels = d.levels := rfl
@[simp] theorem Dev.modTeam_nodes (d : Dev) (t : Nat) (f : Team → Team) : (d.modTeam t f).nodes = d.nodes := rfl
@[simp] theorem Dev.modTeam_graphs (d : Dev) (t : Nat) (f : Team → Team) : (d.modTeam t f).graphs = d.graphs := rfl
@[simp] theorem Dev.modTeam_copies (d : Dev) (t : Nat) (f : Team → Team) : (d.modTeam t f).copies = d.copies := rfl
@[simp] theorem Dev.modTeam_mats (d : Dev) (t : Nat) (f : Team → Team) : (d.modTeam t f).mats = d.mats := rfl
@[simp] theorem Dev.modTeam_rounds (d : Dev) (t : Nat) (f : Team → Team) : (d.modTeam t f).rounds = d.rounds := rfl
@[simp] theorem Dev.modTeam_embags (d : Dev) (t : Nat) (f : Team → Team) : (d.modTeam t f).embags = d.embags := rfl
@[simp] theorem Dev.modTeam_arrivals (d : Dev) (t : Nat) (f : Team → Team) : (d.modTeam t f).arrivals = d.arrivals := rfl
@[simp] theorem Dev.modTeam_chains (d : Dev) (t : Nat) (f : Team → Team) : (d.modTeam t f).chains = d.chains := rfl
@[simp] theorem Dev.modTeam_ctxs (d : Dev) (t : Nat) (f : Team → Team) : (d.modTeam t f).ctxs = d.ctxs := rfl
@[simp] theorem Dev.modTeam_dense (d : Dev) (t : Nat) (f : Team → Team) : (d.modTeam t f).dense = d.dense := rfl
@[simp] theorem Dev.modTeam_jobs (d : Dev) (t : Nat) (f : Team → Team) : (d.modTeam t f).jobs = d.jobs := rfl
@[simp] theorem Dev.modTeam_blocks (d : Dev) (t : Nat) (f : Team → Team) : (d.modTeam t f).blocks = d.blocks := rfl
@[simp] theorem Dev.modTeam_arrived (d : Dev) (t : Nat) (f : Team → Team) : (d.modTeam t f).arrived = d.arrived := rfl
@[simp] theorem Dev.modTeam_parts (d : Dev) (t : Nat) (f : Team → Team) : (d.modTeam t f).parts = d.parts := rfl
@[simp] theorem Dev.modTeam_ports (d : Dev) (t : Nat) (f : Team → Team) : (d.modTeam t f).ports = d.ports := rfl
@[simp] theorem Dev.modTeam_peers (d : Dev) (t : Nat) (f : Team → Team) : (d.modTeam t f).peers = d.peers := rfl
@[simp] theorem Dev.modTeam_images (d : Dev) (t : Nat) (f : Team → Team) : (d.modTeam t f).images = d.images := rfl
@[simp] theorem Dev.modTeam_unsettled (d : Dev) (t : Nat) (f : Team → Team) : (d.modTeam t f).unsettled = d.unsettled := rfl
@[simp] theorem Dev.modTeam_settle (d : Dev) (t : Nat) (f : Team → Team) : (d.modTeam t f).settle = d.settle := rfl
@[simp] theorem Dev.modTeam_hostTill (d : Dev) (t : Nat) (f : Team → Team) : (d.modTeam t f).hostTill = d.hostTill := rfl
@[simp] theorem Dev.modTeam_pfReset (d : Dev) (t : Nat) (f : Team → Team) : (d.modTeam t f).pfReset = d.pfReset := rfl
@[simp] theorem Dev.modTeam_frozen (d : Dev) (t : Nat) (f : Team → Team) : (d.modTeam t f).frozen = d.frozen := rfl

@[simp] theorem Dev.modGroup_fresh (d : Dev) (r : GroupRef) (f : Group → Group) : (d.modGroup r f).fresh = d.fresh := rfl
@[simp] theorem Dev.modGroup_nextId (d : Dev) (r : GroupRef) (f : Group → Group) : (d.modGroup r f).nextId = d.nextId := rfl
@[simp] theorem Dev.modGroup_cur (d : Dev) (r : GroupRef) (f : Group → Group) : (d.modGroup r f).cur = d.cur := rfl
@[simp] theorem Dev.modGroup_chose (d : Dev) (r : GroupRef) (f : Group → Group) : (d.modGroup r f).chose = d.chose := rfl
@[simp] theorem Dev.modGroup_passed (d : Dev) (r : GroupRef) (f : Group → Group) : (d.modGroup r f).passed = d.passed := rfl
@[simp] theorem Dev.modGroup_cycle (d : Dev) (r : GroupRef) (f : Group → Group) : (d.modGroup r f).cycle = d.cycle := rfl
@[simp] theorem Dev.modGroup_capacity (d : Dev) (r : GroupRef) (f : Group → Group) : (d.modGroup r f).capacity = d.capacity := rfl
@[simp] theorem Dev.modGroup_mem (d : Dev) (r : GroupRef) (f : Group → Group) : (d.modGroup r f).mem = d.mem := rfl
@[simp] theorem Dev.modGroup_poison (d : Dev) (r : GroupRef) (f : Group → Group) : (d.modGroup r f).poison = d.poison := rfl
@[simp] theorem Dev.modGroup_lineKey (d : Dev) (r : GroupRef) (f : Group → Group) : (d.modGroup r f).lineKey = d.lineKey := rfl
@[simp] theorem Dev.modGroup_keyGen (d : Dev) (r : GroupRef) (f : Group → Group) : (d.modGroup r f).keyGen = d.keyGen := rfl
@[simp] theorem Dev.modGroup_roots (d : Dev) (r : GroupRef) (f : Group → Group) : (d.modGroup r f).roots = d.roots := rfl
@[simp] theorem Dev.modGroup_homes (d : Dev) (r : GroupRef) (f : Group → Group) : (d.modGroup r f).homes = d.homes := rfl
@[simp] theorem Dev.modGroup_reqs (d : Dev) (r : GroupRef) (f : Group → Group) : (d.modGroup r f).reqs = d.reqs := rfl
@[simp] theorem Dev.modGroup_cores (d : Dev) (r : GroupRef) (f : Group → Group) : (d.modGroup r f).cores = d.cores := rfl
@[simp] theorem Dev.modGroup_dies (d : Dev) (r : GroupRef) (f : Group → Group) : (d.modGroup r f).dies = d.dies := rfl
@[simp] theorem Dev.modGroup_grids (d : Dev) (r : GroupRef) (f : Group → Group) : (d.modGroup r f).grids = d.grids := rfl
@[simp] theorem Dev.modGroup_pending (d : Dev) (r : GroupRef) (f : Group → Group) : (d.modGroup r f).pending = d.pending := rfl
@[simp] theorem Dev.modGroup_queues (d : Dev) (r : GroupRef) (f : Group → Group) : (d.modGroup r f).queues = d.queues := rfl
@[simp] theorem Dev.modGroup_levels (d : Dev) (r : GroupRef) (f : Group → Group) : (d.modGroup r f).levels = d.levels := rfl
@[simp] theorem Dev.modGroup_nodes (d : Dev) (r : GroupRef) (f : Group → Group) : (d.modGroup r f).nodes = d.nodes := rfl
@[simp] theorem Dev.modGroup_graphs (d : Dev) (r : GroupRef) (f : Group → Group) : (d.modGroup r f).graphs = d.graphs := rfl
@[simp] theorem Dev.modGroup_copies (d : Dev) (r : GroupRef) (f : Group → Group) : (d.modGroup r f).copies = d.copies := rfl
@[simp] theorem Dev.modGroup_mats (d : Dev) (r : GroupRef) (f : Group → Group) : (d.modGroup r f).mats = d.mats := rfl
@[simp] theorem Dev.modGroup_rounds (d : Dev) (r : GroupRef) (f : Group → Group) : (d.modGroup r f).rounds = d.rounds := rfl
@[simp] theorem Dev.modGroup_embags (d : Dev) (r : GroupRef) (f : Group → Group) : (d.modGroup r f).embags = d.embags := rfl
@[simp] theorem Dev.modGroup_arrivals (d : Dev) (r : GroupRef) (f : Group → Group) : (d.modGroup r f).arrivals = d.arrivals := rfl
@[simp] theorem Dev.modGroup_chains (d : Dev) (r : GroupRef) (f : Group → Group) : (d.modGroup r f).chains = d.chains := rfl
@[simp] theorem Dev.modGroup_ctxs (d : Dev) (r : GroupRef) (f : Group → Group) : (d.modGroup r f).ctxs = d.ctxs := rfl
@[simp] theorem Dev.modGroup_dense (d : Dev) (r : GroupRef) (f : Group → Group) : (d.modGroup r f).dense = d.dense := rfl
@[simp] theorem Dev.modGroup_jobs (d : Dev) (r : GroupRef) (f : Group → Group) : (d.modGroup r f).jobs = d.jobs := rfl
@[simp] theorem Dev.modGroup_blocks (d : Dev) (r : GroupRef) (f : Group → Group) : (d.modGroup r f).blocks = d.blocks := rfl
@[simp] theorem Dev.modGroup_arrived (d : Dev) (r : GroupRef) (f : Group → Group) : (d.modGroup r f).arrived = d.arrived := rfl
@[simp] theorem Dev.modGroup_parts (d : Dev) (r : GroupRef) (f : Group → Group) : (d.modGroup r f).parts = d.parts := rfl
@[simp] theorem Dev.modGroup_ports (d : Dev) (r : GroupRef) (f : Group → Group) : (d.modGroup r f).ports = d.ports := rfl
@[simp] theorem Dev.modGroup_peers (d : Dev) (r : GroupRef) (f : Group → Group) : (d.modGroup r f).peers = d.peers := rfl
@[simp] theorem Dev.modGroup_images (d : Dev) (r : GroupRef) (f : Group → Group) : (d.modGroup r f).images = d.images := rfl
@[simp] theorem Dev.modGroup_unsettled (d : Dev) (r : GroupRef) (f : Group → Group) : (d.modGroup r f).unsettled = d.unsettled := rfl
@[simp] theorem Dev.modGroup_settle (d : Dev) (r : GroupRef) (f : Group → Group) : (d.modGroup r f).settle = d.settle := rfl
@[simp] theorem Dev.modGroup_hostTill (d : Dev) (r : GroupRef) (f : Group → Group) : (d.modGroup r f).hostTill = d.hostTill := rfl
@[simp] theorem Dev.modGroup_pfReset (d : Dev) (r : GroupRef) (f : Group → Group) : (d.modGroup r f).pfReset = d.pfReset := rfl
@[simp] theorem Dev.modGroup_frozen (d : Dev) (r : GroupRef) (f : Group → Group) : (d.modGroup r f).frozen = d.frozen := rfl

@[simp] theorem Dev.modGrid_fresh (d : Dev) (n : Nat) (f : Grid → Grid) : (d.modGrid n f).fresh = d.fresh := rfl
@[simp] theorem Dev.modGrid_nextId (d : Dev) (n : Nat) (f : Grid → Grid) : (d.modGrid n f).nextId = d.nextId := rfl
@[simp] theorem Dev.modGrid_cur (d : Dev) (n : Nat) (f : Grid → Grid) : (d.modGrid n f).cur = d.cur := rfl
@[simp] theorem Dev.modGrid_chose (d : Dev) (n : Nat) (f : Grid → Grid) : (d.modGrid n f).chose = d.chose := rfl
@[simp] theorem Dev.modGrid_passed (d : Dev) (n : Nat) (f : Grid → Grid) : (d.modGrid n f).passed = d.passed := rfl
@[simp] theorem Dev.modGrid_cycle (d : Dev) (n : Nat) (f : Grid → Grid) : (d.modGrid n f).cycle = d.cycle := rfl
@[simp] theorem Dev.modGrid_capacity (d : Dev) (n : Nat) (f : Grid → Grid) : (d.modGrid n f).capacity = d.capacity := rfl
@[simp] theorem Dev.modGrid_mem (d : Dev) (n : Nat) (f : Grid → Grid) : (d.modGrid n f).mem = d.mem := rfl
@[simp] theorem Dev.modGrid_poison (d : Dev) (n : Nat) (f : Grid → Grid) : (d.modGrid n f).poison = d.poison := rfl
@[simp] theorem Dev.modGrid_lineKey (d : Dev) (n : Nat) (f : Grid → Grid) : (d.modGrid n f).lineKey = d.lineKey := rfl
@[simp] theorem Dev.modGrid_keyGen (d : Dev) (n : Nat) (f : Grid → Grid) : (d.modGrid n f).keyGen = d.keyGen := rfl
@[simp] theorem Dev.modGrid_roots (d : Dev) (n : Nat) (f : Grid → Grid) : (d.modGrid n f).roots = d.roots := rfl
@[simp] theorem Dev.modGrid_homes (d : Dev) (n : Nat) (f : Grid → Grid) : (d.modGrid n f).homes = d.homes := rfl
@[simp] theorem Dev.modGrid_reqs (d : Dev) (n : Nat) (f : Grid → Grid) : (d.modGrid n f).reqs = d.reqs := rfl
@[simp] theorem Dev.modGrid_cores (d : Dev) (n : Nat) (f : Grid → Grid) : (d.modGrid n f).cores = d.cores := rfl
@[simp] theorem Dev.modGrid_dies (d : Dev) (n : Nat) (f : Grid → Grid) : (d.modGrid n f).dies = d.dies := rfl
@[simp] theorem Dev.modGrid_teams (d : Dev) (n : Nat) (f : Grid → Grid) : (d.modGrid n f).teams = d.teams := rfl
@[simp] theorem Dev.modGrid_pending (d : Dev) (n : Nat) (f : Grid → Grid) : (d.modGrid n f).pending = d.pending := rfl
@[simp] theorem Dev.modGrid_queues (d : Dev) (n : Nat) (f : Grid → Grid) : (d.modGrid n f).queues = d.queues := rfl
@[simp] theorem Dev.modGrid_levels (d : Dev) (n : Nat) (f : Grid → Grid) : (d.modGrid n f).levels = d.levels := rfl
@[simp] theorem Dev.modGrid_nodes (d : Dev) (n : Nat) (f : Grid → Grid) : (d.modGrid n f).nodes = d.nodes := rfl
@[simp] theorem Dev.modGrid_graphs (d : Dev) (n : Nat) (f : Grid → Grid) : (d.modGrid n f).graphs = d.graphs := rfl
@[simp] theorem Dev.modGrid_copies (d : Dev) (n : Nat) (f : Grid → Grid) : (d.modGrid n f).copies = d.copies := rfl
@[simp] theorem Dev.modGrid_mats (d : Dev) (n : Nat) (f : Grid → Grid) : (d.modGrid n f).mats = d.mats := rfl
@[simp] theorem Dev.modGrid_rounds (d : Dev) (n : Nat) (f : Grid → Grid) : (d.modGrid n f).rounds = d.rounds := rfl
@[simp] theorem Dev.modGrid_embags (d : Dev) (n : Nat) (f : Grid → Grid) : (d.modGrid n f).embags = d.embags := rfl
@[simp] theorem Dev.modGrid_arrivals (d : Dev) (n : Nat) (f : Grid → Grid) : (d.modGrid n f).arrivals = d.arrivals := rfl
@[simp] theorem Dev.modGrid_chains (d : Dev) (n : Nat) (f : Grid → Grid) : (d.modGrid n f).chains = d.chains := rfl
@[simp] theorem Dev.modGrid_ctxs (d : Dev) (n : Nat) (f : Grid → Grid) : (d.modGrid n f).ctxs = d.ctxs := rfl
@[simp] theorem Dev.modGrid_dense (d : Dev) (n : Nat) (f : Grid → Grid) : (d.modGrid n f).dense = d.dense := rfl
@[simp] theorem Dev.modGrid_jobs (d : Dev) (n : Nat) (f : Grid → Grid) : (d.modGrid n f).jobs = d.jobs := rfl
@[simp] theorem Dev.modGrid_blocks (d : Dev) (n : Nat) (f : Grid → Grid) : (d.modGrid n f).blocks = d.blocks := rfl
@[simp] theorem Dev.modGrid_arrived (d : Dev) (n : Nat) (f : Grid → Grid) : (d.modGrid n f).arrived = d.arrived := rfl
@[simp] theorem Dev.modGrid_parts (d : Dev) (n : Nat) (f : Grid → Grid) : (d.modGrid n f).parts = d.parts := rfl
@[simp] theorem Dev.modGrid_ports (d : Dev) (n : Nat) (f : Grid → Grid) : (d.modGrid n f).ports = d.ports := rfl
@[simp] theorem Dev.modGrid_peers (d : Dev) (n : Nat) (f : Grid → Grid) : (d.modGrid n f).peers = d.peers := rfl
@[simp] theorem Dev.modGrid_images (d : Dev) (n : Nat) (f : Grid → Grid) : (d.modGrid n f).images = d.images := rfl
@[simp] theorem Dev.modGrid_unsettled (d : Dev) (n : Nat) (f : Grid → Grid) : (d.modGrid n f).unsettled = d.unsettled := rfl
@[simp] theorem Dev.modGrid_settle (d : Dev) (n : Nat) (f : Grid → Grid) : (d.modGrid n f).settle = d.settle := rfl
@[simp] theorem Dev.modGrid_hostTill (d : Dev) (n : Nat) (f : Grid → Grid) : (d.modGrid n f).hostTill = d.hostTill := rfl
@[simp] theorem Dev.modGrid_pfReset (d : Dev) (n : Nat) (f : Grid → Grid) : (d.modGrid n f).pfReset = d.pfReset := rfl
@[simp] theorem Dev.modGrid_frozen (d : Dev) (n : Nat) (f : Grid → Grid) : (d.modGrid n f).frozen = d.frozen := rfl

@[simp] theorem Dev.modQueue_fresh (d : Dev) (q : Nat) (f : Queue → Queue) : (d.modQueue q f).fresh = d.fresh := rfl
@[simp] theorem Dev.modQueue_nextId (d : Dev) (q : Nat) (f : Queue → Queue) : (d.modQueue q f).nextId = d.nextId := rfl
@[simp] theorem Dev.modQueue_cur (d : Dev) (q : Nat) (f : Queue → Queue) : (d.modQueue q f).cur = d.cur := rfl
@[simp] theorem Dev.modQueue_chose (d : Dev) (q : Nat) (f : Queue → Queue) : (d.modQueue q f).chose = d.chose := rfl
@[simp] theorem Dev.modQueue_passed (d : Dev) (q : Nat) (f : Queue → Queue) : (d.modQueue q f).passed = d.passed := rfl
@[simp] theorem Dev.modQueue_cycle (d : Dev) (q : Nat) (f : Queue → Queue) : (d.modQueue q f).cycle = d.cycle := rfl
@[simp] theorem Dev.modQueue_capacity (d : Dev) (q : Nat) (f : Queue → Queue) : (d.modQueue q f).capacity = d.capacity := rfl
@[simp] theorem Dev.modQueue_mem (d : Dev) (q : Nat) (f : Queue → Queue) : (d.modQueue q f).mem = d.mem := rfl
@[simp] theorem Dev.modQueue_poison (d : Dev) (q : Nat) (f : Queue → Queue) : (d.modQueue q f).poison = d.poison := rfl
@[simp] theorem Dev.modQueue_lineKey (d : Dev) (q : Nat) (f : Queue → Queue) : (d.modQueue q f).lineKey = d.lineKey := rfl
@[simp] theorem Dev.modQueue_keyGen (d : Dev) (q : Nat) (f : Queue → Queue) : (d.modQueue q f).keyGen = d.keyGen := rfl
@[simp] theorem Dev.modQueue_roots (d : Dev) (q : Nat) (f : Queue → Queue) : (d.modQueue q f).roots = d.roots := rfl
@[simp] theorem Dev.modQueue_homes (d : Dev) (q : Nat) (f : Queue → Queue) : (d.modQueue q f).homes = d.homes := rfl
@[simp] theorem Dev.modQueue_reqs (d : Dev) (q : Nat) (f : Queue → Queue) : (d.modQueue q f).reqs = d.reqs := rfl
@[simp] theorem Dev.modQueue_cores (d : Dev) (q : Nat) (f : Queue → Queue) : (d.modQueue q f).cores = d.cores := rfl
@[simp] theorem Dev.modQueue_dies (d : Dev) (q : Nat) (f : Queue → Queue) : (d.modQueue q f).dies = d.dies := rfl
@[simp] theorem Dev.modQueue_teams (d : Dev) (q : Nat) (f : Queue → Queue) : (d.modQueue q f).teams = d.teams := rfl
@[simp] theorem Dev.modQueue_grids (d : Dev) (q : Nat) (f : Queue → Queue) : (d.modQueue q f).grids = d.grids := rfl
@[simp] theorem Dev.modQueue_pending (d : Dev) (q : Nat) (f : Queue → Queue) : (d.modQueue q f).pending = d.pending := rfl
@[simp] theorem Dev.modQueue_levels (d : Dev) (q : Nat) (f : Queue → Queue) : (d.modQueue q f).levels = d.levels := rfl
@[simp] theorem Dev.modQueue_nodes (d : Dev) (q : Nat) (f : Queue → Queue) : (d.modQueue q f).nodes = d.nodes := rfl
@[simp] theorem Dev.modQueue_graphs (d : Dev) (q : Nat) (f : Queue → Queue) : (d.modQueue q f).graphs = d.graphs := rfl
@[simp] theorem Dev.modQueue_copies (d : Dev) (q : Nat) (f : Queue → Queue) : (d.modQueue q f).copies = d.copies := rfl
@[simp] theorem Dev.modQueue_mats (d : Dev) (q : Nat) (f : Queue → Queue) : (d.modQueue q f).mats = d.mats := rfl
@[simp] theorem Dev.modQueue_rounds (d : Dev) (q : Nat) (f : Queue → Queue) : (d.modQueue q f).rounds = d.rounds := rfl
@[simp] theorem Dev.modQueue_embags (d : Dev) (q : Nat) (f : Queue → Queue) : (d.modQueue q f).embags = d.embags := rfl
@[simp] theorem Dev.modQueue_arrivals (d : Dev) (q : Nat) (f : Queue → Queue) : (d.modQueue q f).arrivals = d.arrivals := rfl
@[simp] theorem Dev.modQueue_chains (d : Dev) (q : Nat) (f : Queue → Queue) : (d.modQueue q f).chains = d.chains := rfl
@[simp] theorem Dev.modQueue_ctxs (d : Dev) (q : Nat) (f : Queue → Queue) : (d.modQueue q f).ctxs = d.ctxs := rfl
@[simp] theorem Dev.modQueue_dense (d : Dev) (q : Nat) (f : Queue → Queue) : (d.modQueue q f).dense = d.dense := rfl
@[simp] theorem Dev.modQueue_jobs (d : Dev) (q : Nat) (f : Queue → Queue) : (d.modQueue q f).jobs = d.jobs := rfl
@[simp] theorem Dev.modQueue_blocks (d : Dev) (q : Nat) (f : Queue → Queue) : (d.modQueue q f).blocks = d.blocks := rfl
@[simp] theorem Dev.modQueue_arrived (d : Dev) (q : Nat) (f : Queue → Queue) : (d.modQueue q f).arrived = d.arrived := rfl
@[simp] theorem Dev.modQueue_parts (d : Dev) (q : Nat) (f : Queue → Queue) : (d.modQueue q f).parts = d.parts := rfl
@[simp] theorem Dev.modQueue_ports (d : Dev) (q : Nat) (f : Queue → Queue) : (d.modQueue q f).ports = d.ports := rfl
@[simp] theorem Dev.modQueue_peers (d : Dev) (q : Nat) (f : Queue → Queue) : (d.modQueue q f).peers = d.peers := rfl
@[simp] theorem Dev.modQueue_images (d : Dev) (q : Nat) (f : Queue → Queue) : (d.modQueue q f).images = d.images := rfl
@[simp] theorem Dev.modQueue_unsettled (d : Dev) (q : Nat) (f : Queue → Queue) : (d.modQueue q f).unsettled = d.unsettled := rfl
@[simp] theorem Dev.modQueue_settle (d : Dev) (q : Nat) (f : Queue → Queue) : (d.modQueue q f).settle = d.settle := rfl
@[simp] theorem Dev.modQueue_hostTill (d : Dev) (q : Nat) (f : Queue → Queue) : (d.modQueue q f).hostTill = d.hostTill := rfl
@[simp] theorem Dev.modQueue_pfReset (d : Dev) (q : Nat) (f : Queue → Queue) : (d.modQueue q f).pfReset = d.pfReset := rfl
@[simp] theorem Dev.modQueue_frozen (d : Dev) (q : Nat) (f : Queue → Queue) : (d.modQueue q f).frozen = d.frozen := rfl

@[simp] theorem Dev.modPart_fresh (d : Dev) (p : Nat) (f : Partition → Partition) : (d.modPart p f).fresh = d.fresh := rfl
@[simp] theorem Dev.modPart_nextId (d : Dev) (p : Nat) (f : Partition → Partition) : (d.modPart p f).nextId = d.nextId := rfl
@[simp] theorem Dev.modPart_cur (d : Dev) (p : Nat) (f : Partition → Partition) : (d.modPart p f).cur = d.cur := rfl
@[simp] theorem Dev.modPart_chose (d : Dev) (p : Nat) (f : Partition → Partition) : (d.modPart p f).chose = d.chose := rfl
@[simp] theorem Dev.modPart_passed (d : Dev) (p : Nat) (f : Partition → Partition) : (d.modPart p f).passed = d.passed := rfl
@[simp] theorem Dev.modPart_cycle (d : Dev) (p : Nat) (f : Partition → Partition) : (d.modPart p f).cycle = d.cycle := rfl
@[simp] theorem Dev.modPart_capacity (d : Dev) (p : Nat) (f : Partition → Partition) : (d.modPart p f).capacity = d.capacity := rfl
@[simp] theorem Dev.modPart_mem (d : Dev) (p : Nat) (f : Partition → Partition) : (d.modPart p f).mem = d.mem := rfl
@[simp] theorem Dev.modPart_poison (d : Dev) (p : Nat) (f : Partition → Partition) : (d.modPart p f).poison = d.poison := rfl
@[simp] theorem Dev.modPart_lineKey (d : Dev) (p : Nat) (f : Partition → Partition) : (d.modPart p f).lineKey = d.lineKey := rfl
@[simp] theorem Dev.modPart_keyGen (d : Dev) (p : Nat) (f : Partition → Partition) : (d.modPart p f).keyGen = d.keyGen := rfl
@[simp] theorem Dev.modPart_roots (d : Dev) (p : Nat) (f : Partition → Partition) : (d.modPart p f).roots = d.roots := rfl
@[simp] theorem Dev.modPart_homes (d : Dev) (p : Nat) (f : Partition → Partition) : (d.modPart p f).homes = d.homes := rfl
@[simp] theorem Dev.modPart_reqs (d : Dev) (p : Nat) (f : Partition → Partition) : (d.modPart p f).reqs = d.reqs := rfl
@[simp] theorem Dev.modPart_cores (d : Dev) (p : Nat) (f : Partition → Partition) : (d.modPart p f).cores = d.cores := rfl
@[simp] theorem Dev.modPart_dies (d : Dev) (p : Nat) (f : Partition → Partition) : (d.modPart p f).dies = d.dies := rfl
@[simp] theorem Dev.modPart_teams (d : Dev) (p : Nat) (f : Partition → Partition) : (d.modPart p f).teams = d.teams := rfl
@[simp] theorem Dev.modPart_grids (d : Dev) (p : Nat) (f : Partition → Partition) : (d.modPart p f).grids = d.grids := rfl
@[simp] theorem Dev.modPart_pending (d : Dev) (p : Nat) (f : Partition → Partition) : (d.modPart p f).pending = d.pending := rfl
@[simp] theorem Dev.modPart_queues (d : Dev) (p : Nat) (f : Partition → Partition) : (d.modPart p f).queues = d.queues := rfl
@[simp] theorem Dev.modPart_levels (d : Dev) (p : Nat) (f : Partition → Partition) : (d.modPart p f).levels = d.levels := rfl
@[simp] theorem Dev.modPart_nodes (d : Dev) (p : Nat) (f : Partition → Partition) : (d.modPart p f).nodes = d.nodes := rfl
@[simp] theorem Dev.modPart_graphs (d : Dev) (p : Nat) (f : Partition → Partition) : (d.modPart p f).graphs = d.graphs := rfl
@[simp] theorem Dev.modPart_copies (d : Dev) (p : Nat) (f : Partition → Partition) : (d.modPart p f).copies = d.copies := rfl
@[simp] theorem Dev.modPart_mats (d : Dev) (p : Nat) (f : Partition → Partition) : (d.modPart p f).mats = d.mats := rfl
@[simp] theorem Dev.modPart_rounds (d : Dev) (p : Nat) (f : Partition → Partition) : (d.modPart p f).rounds = d.rounds := rfl
@[simp] theorem Dev.modPart_embags (d : Dev) (p : Nat) (f : Partition → Partition) : (d.modPart p f).embags = d.embags := rfl
@[simp] theorem Dev.modPart_arrivals (d : Dev) (p : Nat) (f : Partition → Partition) : (d.modPart p f).arrivals = d.arrivals := rfl
@[simp] theorem Dev.modPart_chains (d : Dev) (p : Nat) (f : Partition → Partition) : (d.modPart p f).chains = d.chains := rfl
@[simp] theorem Dev.modPart_ctxs (d : Dev) (p : Nat) (f : Partition → Partition) : (d.modPart p f).ctxs = d.ctxs := rfl
@[simp] theorem Dev.modPart_dense (d : Dev) (p : Nat) (f : Partition → Partition) : (d.modPart p f).dense = d.dense := rfl
@[simp] theorem Dev.modPart_jobs (d : Dev) (p : Nat) (f : Partition → Partition) : (d.modPart p f).jobs = d.jobs := rfl
@[simp] theorem Dev.modPart_blocks (d : Dev) (p : Nat) (f : Partition → Partition) : (d.modPart p f).blocks = d.blocks := rfl
@[simp] theorem Dev.modPart_arrived (d : Dev) (p : Nat) (f : Partition → Partition) : (d.modPart p f).arrived = d.arrived := rfl
@[simp] theorem Dev.modPart_ports (d : Dev) (p : Nat) (f : Partition → Partition) : (d.modPart p f).ports = d.ports := rfl
@[simp] theorem Dev.modPart_peers (d : Dev) (p : Nat) (f : Partition → Partition) : (d.modPart p f).peers = d.peers := rfl
@[simp] theorem Dev.modPart_images (d : Dev) (p : Nat) (f : Partition → Partition) : (d.modPart p f).images = d.images := rfl
@[simp] theorem Dev.modPart_unsettled (d : Dev) (p : Nat) (f : Partition → Partition) : (d.modPart p f).unsettled = d.unsettled := rfl
@[simp] theorem Dev.modPart_settle (d : Dev) (p : Nat) (f : Partition → Partition) : (d.modPart p f).settle = d.settle := rfl
@[simp] theorem Dev.modPart_hostTill (d : Dev) (p : Nat) (f : Partition → Partition) : (d.modPart p f).hostTill = d.hostTill := rfl
@[simp] theorem Dev.modPart_pfReset (d : Dev) (p : Nat) (f : Partition → Partition) : (d.modPart p f).pfReset = d.pfReset := rfl
@[simp] theorem Dev.modPart_frozen (d : Dev) (p : Nat) (f : Partition → Partition) : (d.modPart p f).frozen = d.frozen := rfl

@[simp] theorem Dev.modDie_fresh (d : Dev) (n : Nat) (f : Die → Die) : (d.modDie n f).fresh = d.fresh := rfl
@[simp] theorem Dev.modDie_nextId (d : Dev) (n : Nat) (f : Die → Die) : (d.modDie n f).nextId = d.nextId := rfl
@[simp] theorem Dev.modDie_cur (d : Dev) (n : Nat) (f : Die → Die) : (d.modDie n f).cur = d.cur := rfl
@[simp] theorem Dev.modDie_chose (d : Dev) (n : Nat) (f : Die → Die) : (d.modDie n f).chose = d.chose := rfl
@[simp] theorem Dev.modDie_passed (d : Dev) (n : Nat) (f : Die → Die) : (d.modDie n f).passed = d.passed := rfl
@[simp] theorem Dev.modDie_cycle (d : Dev) (n : Nat) (f : Die → Die) : (d.modDie n f).cycle = d.cycle := rfl
@[simp] theorem Dev.modDie_capacity (d : Dev) (n : Nat) (f : Die → Die) : (d.modDie n f).capacity = d.capacity := rfl
@[simp] theorem Dev.modDie_mem (d : Dev) (n : Nat) (f : Die → Die) : (d.modDie n f).mem = d.mem := rfl
@[simp] theorem Dev.modDie_poison (d : Dev) (n : Nat) (f : Die → Die) : (d.modDie n f).poison = d.poison := rfl
@[simp] theorem Dev.modDie_lineKey (d : Dev) (n : Nat) (f : Die → Die) : (d.modDie n f).lineKey = d.lineKey := rfl
@[simp] theorem Dev.modDie_keyGen (d : Dev) (n : Nat) (f : Die → Die) : (d.modDie n f).keyGen = d.keyGen := rfl
@[simp] theorem Dev.modDie_roots (d : Dev) (n : Nat) (f : Die → Die) : (d.modDie n f).roots = d.roots := rfl
@[simp] theorem Dev.modDie_homes (d : Dev) (n : Nat) (f : Die → Die) : (d.modDie n f).homes = d.homes := rfl
@[simp] theorem Dev.modDie_reqs (d : Dev) (n : Nat) (f : Die → Die) : (d.modDie n f).reqs = d.reqs := rfl
@[simp] theorem Dev.modDie_cores (d : Dev) (n : Nat) (f : Die → Die) : (d.modDie n f).cores = d.cores := rfl
@[simp] theorem Dev.modDie_teams (d : Dev) (n : Nat) (f : Die → Die) : (d.modDie n f).teams = d.teams := rfl
@[simp] theorem Dev.modDie_grids (d : Dev) (n : Nat) (f : Die → Die) : (d.modDie n f).grids = d.grids := rfl
@[simp] theorem Dev.modDie_pending (d : Dev) (n : Nat) (f : Die → Die) : (d.modDie n f).pending = d.pending := rfl
@[simp] theorem Dev.modDie_queues (d : Dev) (n : Nat) (f : Die → Die) : (d.modDie n f).queues = d.queues := rfl
@[simp] theorem Dev.modDie_levels (d : Dev) (n : Nat) (f : Die → Die) : (d.modDie n f).levels = d.levels := rfl
@[simp] theorem Dev.modDie_nodes (d : Dev) (n : Nat) (f : Die → Die) : (d.modDie n f).nodes = d.nodes := rfl
@[simp] theorem Dev.modDie_graphs (d : Dev) (n : Nat) (f : Die → Die) : (d.modDie n f).graphs = d.graphs := rfl
@[simp] theorem Dev.modDie_copies (d : Dev) (n : Nat) (f : Die → Die) : (d.modDie n f).copies = d.copies := rfl
@[simp] theorem Dev.modDie_mats (d : Dev) (n : Nat) (f : Die → Die) : (d.modDie n f).mats = d.mats := rfl
@[simp] theorem Dev.modDie_rounds (d : Dev) (n : Nat) (f : Die → Die) : (d.modDie n f).rounds = d.rounds := rfl
@[simp] theorem Dev.modDie_embags (d : Dev) (n : Nat) (f : Die → Die) : (d.modDie n f).embags = d.embags := rfl
@[simp] theorem Dev.modDie_arrivals (d : Dev) (n : Nat) (f : Die → Die) : (d.modDie n f).arrivals = d.arrivals := rfl
@[simp] theorem Dev.modDie_chains (d : Dev) (n : Nat) (f : Die → Die) : (d.modDie n f).chains = d.chains := rfl
@[simp] theorem Dev.modDie_ctxs (d : Dev) (n : Nat) (f : Die → Die) : (d.modDie n f).ctxs = d.ctxs := rfl
@[simp] theorem Dev.modDie_dense (d : Dev) (n : Nat) (f : Die → Die) : (d.modDie n f).dense = d.dense := rfl
@[simp] theorem Dev.modDie_jobs (d : Dev) (n : Nat) (f : Die → Die) : (d.modDie n f).jobs = d.jobs := rfl
@[simp] theorem Dev.modDie_blocks (d : Dev) (n : Nat) (f : Die → Die) : (d.modDie n f).blocks = d.blocks := rfl
@[simp] theorem Dev.modDie_arrived (d : Dev) (n : Nat) (f : Die → Die) : (d.modDie n f).arrived = d.arrived := rfl
@[simp] theorem Dev.modDie_parts (d : Dev) (n : Nat) (f : Die → Die) : (d.modDie n f).parts = d.parts := rfl
@[simp] theorem Dev.modDie_ports (d : Dev) (n : Nat) (f : Die → Die) : (d.modDie n f).ports = d.ports := rfl
@[simp] theorem Dev.modDie_peers (d : Dev) (n : Nat) (f : Die → Die) : (d.modDie n f).peers = d.peers := rfl
@[simp] theorem Dev.modDie_images (d : Dev) (n : Nat) (f : Die → Die) : (d.modDie n f).images = d.images := rfl
@[simp] theorem Dev.modDie_unsettled (d : Dev) (n : Nat) (f : Die → Die) : (d.modDie n f).unsettled = d.unsettled := rfl
@[simp] theorem Dev.modDie_settle (d : Dev) (n : Nat) (f : Die → Die) : (d.modDie n f).settle = d.settle := rfl
@[simp] theorem Dev.modDie_hostTill (d : Dev) (n : Nat) (f : Die → Die) : (d.modDie n f).hostTill = d.hostTill := rfl
@[simp] theorem Dev.modDie_pfReset (d : Dev) (n : Nat) (f : Die → Die) : (d.modDie n f).pfReset = d.pfReset := rfl
@[simp] theorem Dev.modDie_frozen (d : Dev) (n : Nat) (f : Die → Die) : (d.modDie n f).frozen = d.frozen := rfl

@[simp] theorem Dev.modCore_fresh (d : Dev) (c : Nat) (f : Core → Core) : (d.modCore c f).fresh = d.fresh := rfl
@[simp] theorem Dev.modCore_nextId (d : Dev) (c : Nat) (f : Core → Core) : (d.modCore c f).nextId = d.nextId := rfl
@[simp] theorem Dev.modCore_cur (d : Dev) (c : Nat) (f : Core → Core) : (d.modCore c f).cur = d.cur := rfl
@[simp] theorem Dev.modCore_chose (d : Dev) (c : Nat) (f : Core → Core) : (d.modCore c f).chose = d.chose := rfl
@[simp] theorem Dev.modCore_passed (d : Dev) (c : Nat) (f : Core → Core) : (d.modCore c f).passed = d.passed := rfl
@[simp] theorem Dev.modCore_cycle (d : Dev) (c : Nat) (f : Core → Core) : (d.modCore c f).cycle = d.cycle := rfl
@[simp] theorem Dev.modCore_capacity (d : Dev) (c : Nat) (f : Core → Core) : (d.modCore c f).capacity = d.capacity := rfl
@[simp] theorem Dev.modCore_mem (d : Dev) (c : Nat) (f : Core → Core) : (d.modCore c f).mem = d.mem := rfl
@[simp] theorem Dev.modCore_poison (d : Dev) (c : Nat) (f : Core → Core) : (d.modCore c f).poison = d.poison := rfl
@[simp] theorem Dev.modCore_lineKey (d : Dev) (c : Nat) (f : Core → Core) : (d.modCore c f).lineKey = d.lineKey := rfl
@[simp] theorem Dev.modCore_keyGen (d : Dev) (c : Nat) (f : Core → Core) : (d.modCore c f).keyGen = d.keyGen := rfl
@[simp] theorem Dev.modCore_roots (d : Dev) (c : Nat) (f : Core → Core) : (d.modCore c f).roots = d.roots := rfl
@[simp] theorem Dev.modCore_homes (d : Dev) (c : Nat) (f : Core → Core) : (d.modCore c f).homes = d.homes := rfl
@[simp] theorem Dev.modCore_reqs (d : Dev) (c : Nat) (f : Core → Core) : (d.modCore c f).reqs = d.reqs := rfl
@[simp] theorem Dev.modCore_dies (d : Dev) (c : Nat) (f : Core → Core) : (d.modCore c f).dies = d.dies := rfl
@[simp] theorem Dev.modCore_teams (d : Dev) (c : Nat) (f : Core → Core) : (d.modCore c f).teams = d.teams := rfl
@[simp] theorem Dev.modCore_grids (d : Dev) (c : Nat) (f : Core → Core) : (d.modCore c f).grids = d.grids := rfl
@[simp] theorem Dev.modCore_pending (d : Dev) (c : Nat) (f : Core → Core) : (d.modCore c f).pending = d.pending := rfl
@[simp] theorem Dev.modCore_queues (d : Dev) (c : Nat) (f : Core → Core) : (d.modCore c f).queues = d.queues := rfl
@[simp] theorem Dev.modCore_levels (d : Dev) (c : Nat) (f : Core → Core) : (d.modCore c f).levels = d.levels := rfl
@[simp] theorem Dev.modCore_nodes (d : Dev) (c : Nat) (f : Core → Core) : (d.modCore c f).nodes = d.nodes := rfl
@[simp] theorem Dev.modCore_graphs (d : Dev) (c : Nat) (f : Core → Core) : (d.modCore c f).graphs = d.graphs := rfl
@[simp] theorem Dev.modCore_copies (d : Dev) (c : Nat) (f : Core → Core) : (d.modCore c f).copies = d.copies := rfl
@[simp] theorem Dev.modCore_mats (d : Dev) (c : Nat) (f : Core → Core) : (d.modCore c f).mats = d.mats := rfl
@[simp] theorem Dev.modCore_rounds (d : Dev) (c : Nat) (f : Core → Core) : (d.modCore c f).rounds = d.rounds := rfl
@[simp] theorem Dev.modCore_embags (d : Dev) (c : Nat) (f : Core → Core) : (d.modCore c f).embags = d.embags := rfl
@[simp] theorem Dev.modCore_arrivals (d : Dev) (c : Nat) (f : Core → Core) : (d.modCore c f).arrivals = d.arrivals := rfl
@[simp] theorem Dev.modCore_chains (d : Dev) (c : Nat) (f : Core → Core) : (d.modCore c f).chains = d.chains := rfl
@[simp] theorem Dev.modCore_ctxs (d : Dev) (c : Nat) (f : Core → Core) : (d.modCore c f).ctxs = d.ctxs := rfl
@[simp] theorem Dev.modCore_dense (d : Dev) (c : Nat) (f : Core → Core) : (d.modCore c f).dense = d.dense := rfl
@[simp] theorem Dev.modCore_jobs (d : Dev) (c : Nat) (f : Core → Core) : (d.modCore c f).jobs = d.jobs := rfl
@[simp] theorem Dev.modCore_blocks (d : Dev) (c : Nat) (f : Core → Core) : (d.modCore c f).blocks = d.blocks := rfl
@[simp] theorem Dev.modCore_arrived (d : Dev) (c : Nat) (f : Core → Core) : (d.modCore c f).arrived = d.arrived := rfl
@[simp] theorem Dev.modCore_parts (d : Dev) (c : Nat) (f : Core → Core) : (d.modCore c f).parts = d.parts := rfl
@[simp] theorem Dev.modCore_ports (d : Dev) (c : Nat) (f : Core → Core) : (d.modCore c f).ports = d.ports := rfl
@[simp] theorem Dev.modCore_peers (d : Dev) (c : Nat) (f : Core → Core) : (d.modCore c f).peers = d.peers := rfl
@[simp] theorem Dev.modCore_images (d : Dev) (c : Nat) (f : Core → Core) : (d.modCore c f).images = d.images := rfl
@[simp] theorem Dev.modCore_unsettled (d : Dev) (c : Nat) (f : Core → Core) : (d.modCore c f).unsettled = d.unsettled := rfl
@[simp] theorem Dev.modCore_settle (d : Dev) (c : Nat) (f : Core → Core) : (d.modCore c f).settle = d.settle := rfl
@[simp] theorem Dev.modCore_hostTill (d : Dev) (c : Nat) (f : Core → Core) : (d.modCore c f).hostTill = d.hostTill := rfl
@[simp] theorem Dev.modCore_pfReset (d : Dev) (c : Nat) (f : Core → Core) : (d.modCore c f).pfReset = d.pfReset := rfl
@[simp] theorem Dev.modCore_frozen (d : Dev) (c : Nat) (f : Core → Core) : (d.modCore c f).frozen = d.frozen := rfl

@[simp] theorem Dev.setHome_fresh (d : Dev) (l : Nat) (h : HomeLine) : (d.setHome l h).fresh = d.fresh := rfl
@[simp] theorem Dev.setHome_nextId (d : Dev) (l : Nat) (h : HomeLine) : (d.setHome l h).nextId = d.nextId := rfl
@[simp] theorem Dev.setHome_cur (d : Dev) (l : Nat) (h : HomeLine) : (d.setHome l h).cur = d.cur := rfl
@[simp] theorem Dev.setHome_chose (d : Dev) (l : Nat) (h : HomeLine) : (d.setHome l h).chose = d.chose := rfl
@[simp] theorem Dev.setHome_passed (d : Dev) (l : Nat) (h : HomeLine) : (d.setHome l h).passed = d.passed := rfl
@[simp] theorem Dev.setHome_cycle (d : Dev) (l : Nat) (h : HomeLine) : (d.setHome l h).cycle = d.cycle := rfl
@[simp] theorem Dev.setHome_capacity (d : Dev) (l : Nat) (h : HomeLine) : (d.setHome l h).capacity = d.capacity := rfl
@[simp] theorem Dev.setHome_mem (d : Dev) (l : Nat) (h : HomeLine) : (d.setHome l h).mem = d.mem := rfl
@[simp] theorem Dev.setHome_poison (d : Dev) (l : Nat) (h : HomeLine) : (d.setHome l h).poison = d.poison := rfl
@[simp] theorem Dev.setHome_lineKey (d : Dev) (l : Nat) (h : HomeLine) : (d.setHome l h).lineKey = d.lineKey := rfl
@[simp] theorem Dev.setHome_keyGen (d : Dev) (l : Nat) (h : HomeLine) : (d.setHome l h).keyGen = d.keyGen := rfl
@[simp] theorem Dev.setHome_roots (d : Dev) (l : Nat) (h : HomeLine) : (d.setHome l h).roots = d.roots := rfl
@[simp] theorem Dev.setHome_reqs (d : Dev) (l : Nat) (h : HomeLine) : (d.setHome l h).reqs = d.reqs := rfl
@[simp] theorem Dev.setHome_cores (d : Dev) (l : Nat) (h : HomeLine) : (d.setHome l h).cores = d.cores := rfl
@[simp] theorem Dev.setHome_dies (d : Dev) (l : Nat) (h : HomeLine) : (d.setHome l h).dies = d.dies := rfl
@[simp] theorem Dev.setHome_teams (d : Dev) (l : Nat) (h : HomeLine) : (d.setHome l h).teams = d.teams := rfl
@[simp] theorem Dev.setHome_grids (d : Dev) (l : Nat) (h : HomeLine) : (d.setHome l h).grids = d.grids := rfl
@[simp] theorem Dev.setHome_pending (d : Dev) (l : Nat) (h : HomeLine) : (d.setHome l h).pending = d.pending := rfl
@[simp] theorem Dev.setHome_queues (d : Dev) (l : Nat) (h : HomeLine) : (d.setHome l h).queues = d.queues := rfl
@[simp] theorem Dev.setHome_levels (d : Dev) (l : Nat) (h : HomeLine) : (d.setHome l h).levels = d.levels := rfl
@[simp] theorem Dev.setHome_nodes (d : Dev) (l : Nat) (h : HomeLine) : (d.setHome l h).nodes = d.nodes := rfl
@[simp] theorem Dev.setHome_graphs (d : Dev) (l : Nat) (h : HomeLine) : (d.setHome l h).graphs = d.graphs := rfl
@[simp] theorem Dev.setHome_copies (d : Dev) (l : Nat) (h : HomeLine) : (d.setHome l h).copies = d.copies := rfl
@[simp] theorem Dev.setHome_mats (d : Dev) (l : Nat) (h : HomeLine) : (d.setHome l h).mats = d.mats := rfl
@[simp] theorem Dev.setHome_rounds (d : Dev) (l : Nat) (h : HomeLine) : (d.setHome l h).rounds = d.rounds := rfl
@[simp] theorem Dev.setHome_embags (d : Dev) (l : Nat) (h : HomeLine) : (d.setHome l h).embags = d.embags := rfl
@[simp] theorem Dev.setHome_arrivals (d : Dev) (l : Nat) (h : HomeLine) : (d.setHome l h).arrivals = d.arrivals := rfl
@[simp] theorem Dev.setHome_chains (d : Dev) (l : Nat) (h : HomeLine) : (d.setHome l h).chains = d.chains := rfl
@[simp] theorem Dev.setHome_ctxs (d : Dev) (l : Nat) (h : HomeLine) : (d.setHome l h).ctxs = d.ctxs := rfl
@[simp] theorem Dev.setHome_dense (d : Dev) (l : Nat) (h : HomeLine) : (d.setHome l h).dense = d.dense := rfl
@[simp] theorem Dev.setHome_jobs (d : Dev) (l : Nat) (h : HomeLine) : (d.setHome l h).jobs = d.jobs := rfl
@[simp] theorem Dev.setHome_blocks (d : Dev) (l : Nat) (h : HomeLine) : (d.setHome l h).blocks = d.blocks := rfl
@[simp] theorem Dev.setHome_arrived (d : Dev) (l : Nat) (h : HomeLine) : (d.setHome l h).arrived = d.arrived := rfl
@[simp] theorem Dev.setHome_parts (d : Dev) (l : Nat) (h : HomeLine) : (d.setHome l h).parts = d.parts := rfl
@[simp] theorem Dev.setHome_ports (d : Dev) (l : Nat) (h : HomeLine) : (d.setHome l h).ports = d.ports := rfl
@[simp] theorem Dev.setHome_peers (d : Dev) (l : Nat) (h : HomeLine) : (d.setHome l h).peers = d.peers := rfl
@[simp] theorem Dev.setHome_images (d : Dev) (l : Nat) (h : HomeLine) : (d.setHome l h).images = d.images := rfl
@[simp] theorem Dev.setHome_unsettled (d : Dev) (l : Nat) (h : HomeLine) : (d.setHome l h).unsettled = d.unsettled := rfl
@[simp] theorem Dev.setHome_settle (d : Dev) (l : Nat) (h : HomeLine) : (d.setHome l h).settle = d.settle := rfl
@[simp] theorem Dev.setHome_hostTill (d : Dev) (l : Nat) (h : HomeLine) : (d.setHome l h).hostTill = d.hostTill := rfl
@[simp] theorem Dev.setHome_pfReset (d : Dev) (l : Nat) (h : HomeLine) : (d.setHome l h).pfReset = d.pfReset := rfl
@[simp] theorem Dev.setHome_frozen (d : Dev) (l : Nat) (h : HomeLine) : (d.setHome l h).frozen = d.frozen := rfl

/-! ## A group's updates -/

@[simp] theorem Group.modSlices_num (g : Group) (m : BitVec 8) (f : Nat → Slice → Slice) : (g.modSlices m f).num = g.num := rfl
@[simp] theorem Group.modSlices_sextant (g : Group) (m : BitVec 8) (f : Nat → Slice → Slice) : (g.modSlices m f).sextant = g.sextant := rfl
@[simp] theorem Group.modSlices_splits (g : Group) (m : BitVec 8) (f : Nat → Slice → Slice) : (g.modSlices m f).splits = g.splits := rfl
@[simp] theorem Group.modSlices_stamps (g : Group) (m : BitVec 8) (f : Nat → Slice → Slice) : (g.modSlices m f).stamps = g.stamps := rfl
@[simp] theorem Group.modSlices_v (g : Group) (m : BitVec 8) (f : Nat → Slice → Slice) : (g.modSlices m f).v = g.v := rfl
@[simp] theorem Group.modSlices_p (g : Group) (m : BitVec 8) (f : Nat → Slice → Slice) : (g.modSlices m f).p = g.p := rfl
@[simp] theorem Group.modSlices_urg (g : Group) (m : BitVec 8) (f : Nat → Slice → Slice) : (g.modSlices m f).urg = g.urg := rfl
@[simp] theorem Group.modSlices_rgnctr (g : Group) (m : BitVec 8) (f : Nat → Slice → Slice) : (g.modSlices m f).rgnctr = g.rgnctr := rfl
@[simp] theorem Group.modSlices_reexec (g : Group) (m : BitVec 8) (f : Nat → Slice → Slice) : (g.modSlices m f).reexec = g.reexec := rfl
@[simp] theorem Group.modSlices_bseq (g : Group) (m : BitVec 8) (f : Nat → Slice → Slice) : (g.modSlices m f).bseq = g.bseq := rfl
@[simp] theorem Group.modSlices_settle (g : Group) (m : BitVec 8) (f : Nat → Slice → Slice) : (g.modSlices m f).settle = g.settle := rfl
@[simp] theorem Group.modSlices_posted (g : Group) (m : BitVec 8) (f : Nat → Slice → Slice) : (g.modSlices m f).posted = g.posted := rfl
@[simp] theorem Group.modSlices_markers (g : Group) (m : BitVec 8) (f : Nat → Slice → Slice) : (g.modSlices m f).markers = g.markers := rfl
@[simp] theorem Group.modSlices_seen (g : Group) (m : BitVec 8) (f : Nat → Slice → Slice) : (g.modSlices m f).seen = g.seen := rfl
@[simp] theorem Group.modSlices_tr0 (g : Group) (m : BitVec 8) (f : Nat → Slice → Slice) : (g.modSlices m f).tr0 = g.tr0 := rfl
@[simp] theorem Group.modSlices_tr1 (g : Group) (m : BitVec 8) (f : Nat → Slice → Slice) : (g.modSlices m f).tr1 = g.tr1 := rfl
@[simp] theorem Group.modSlices_tr2 (g : Group) (m : BitVec 8) (f : Nat → Slice → Slice) : (g.modSlices m f).tr2 = g.tr2 := rfl
@[simp] theorem Group.modSlices_tr3 (g : Group) (m : BitVec 8) (f : Nat → Slice → Slice) : (g.modSlices m f).tr3 = g.tr3 := rfl
@[simp] theorem Group.modSlices_handler (g : Group) (m : BitVec 8) (f : Nat → Slice → Slice) : (g.modSlices m f).handler = g.handler := rfl
@[simp] theorem Group.modSlices_parked (g : Group) (m : BitVec 8) (f : Nat → Slice → Slice) : (g.modSlices m f).parked = g.parked := rfl
@[simp] theorem Group.modSlices_parkedAt (g : Group) (m : BitVec 8) (f : Nat → Slice → Slice) : (g.modSlices m f).parkedAt = g.parkedAt := rfl
@[simp] theorem Group.modSlices_stop (g : Group) (m : BitVec 8) (f : Nat → Slice → Slice) : (g.modSlices m f).stop = g.stop := rfl
@[simp] theorem Group.modSlices_pmc (g : Group) (m : BitVec 8) (f : Nat → Slice → Slice) : (g.modSlices m f).pmc = g.pmc := rfl
@[simp] theorem Group.modSlices_ictx (g : Group) (m : BitVec 8) (f : Nat → Slice → Slice) : (g.modSlices m f).ictx = g.ictx := rfl
@[simp] theorem Group.modSlices_stage (g : Group) (m : BitVec 8) (f : Nat → Slice → Slice) : (g.modSlices m f).stage = g.stage := rfl
@[simp] theorem Group.modSlices_async (g : Group) (m : BitVec 8) (f : Nat → Slice → Slice) : (g.modSlices m f).async = g.async := rfl
@[simp] theorem Group.modSlices_owed (g : Group) (m : BitVec 8) (f : Nat → Slice → Slice) : (g.modSlices m f).owed = g.owed := rfl
@[simp] theorem Group.modSlices_save (g : Group) (m : BitVec 8) (f : Nat → Slice → Slice) : (g.modSlices m f).save = g.save := rfl
@[simp] theorem Group.modSlices_loaded (g : Group) (m : BitVec 8) (f : Nat → Slice → Slice) : (g.modSlices m f).loaded = g.loaded := rfl

@[simp] theorem Group.modSplit_num (g : Group) (st : BitVec 16) (f : Split → Split) : (g.modSplit st f).num = g.num := rfl
@[simp] theorem Group.modSplit_sextant (g : Group) (st : BitVec 16) (f : Split → Split) : (g.modSplit st f).sextant = g.sextant := rfl
@[simp] theorem Group.modSplit_slices (g : Group) (st : BitVec 16) (f : Split → Split) : (g.modSplit st f).slices = g.slices := rfl
@[simp] theorem Group.modSplit_stamps (g : Group) (st : BitVec 16) (f : Split → Split) : (g.modSplit st f).stamps = g.stamps := rfl
@[simp] theorem Group.modSplit_v (g : Group) (st : BitVec 16) (f : Split → Split) : (g.modSplit st f).v = g.v := rfl
@[simp] theorem Group.modSplit_p (g : Group) (st : BitVec 16) (f : Split → Split) : (g.modSplit st f).p = g.p := rfl
@[simp] theorem Group.modSplit_urg (g : Group) (st : BitVec 16) (f : Split → Split) : (g.modSplit st f).urg = g.urg := rfl
@[simp] theorem Group.modSplit_rgnctr (g : Group) (st : BitVec 16) (f : Split → Split) : (g.modSplit st f).rgnctr = g.rgnctr := rfl
@[simp] theorem Group.modSplit_reexec (g : Group) (st : BitVec 16) (f : Split → Split) : (g.modSplit st f).reexec = g.reexec := rfl
@[simp] theorem Group.modSplit_bseq (g : Group) (st : BitVec 16) (f : Split → Split) : (g.modSplit st f).bseq = g.bseq := rfl
@[simp] theorem Group.modSplit_settle (g : Group) (st : BitVec 16) (f : Split → Split) : (g.modSplit st f).settle = g.settle := rfl
@[simp] theorem Group.modSplit_posted (g : Group) (st : BitVec 16) (f : Split → Split) : (g.modSplit st f).posted = g.posted := rfl
@[simp] theorem Group.modSplit_markers (g : Group) (st : BitVec 16) (f : Split → Split) : (g.modSplit st f).markers = g.markers := rfl
@[simp] theorem Group.modSplit_seen (g : Group) (st : BitVec 16) (f : Split → Split) : (g.modSplit st f).seen = g.seen := rfl
@[simp] theorem Group.modSplit_tr0 (g : Group) (st : BitVec 16) (f : Split → Split) : (g.modSplit st f).tr0 = g.tr0 := rfl
@[simp] theorem Group.modSplit_tr1 (g : Group) (st : BitVec 16) (f : Split → Split) : (g.modSplit st f).tr1 = g.tr1 := rfl
@[simp] theorem Group.modSplit_tr2 (g : Group) (st : BitVec 16) (f : Split → Split) : (g.modSplit st f).tr2 = g.tr2 := rfl
@[simp] theorem Group.modSplit_tr3 (g : Group) (st : BitVec 16) (f : Split → Split) : (g.modSplit st f).tr3 = g.tr3 := rfl
@[simp] theorem Group.modSplit_handler (g : Group) (st : BitVec 16) (f : Split → Split) : (g.modSplit st f).handler = g.handler := rfl
@[simp] theorem Group.modSplit_parked (g : Group) (st : BitVec 16) (f : Split → Split) : (g.modSplit st f).parked = g.parked := rfl
@[simp] theorem Group.modSplit_parkedAt (g : Group) (st : BitVec 16) (f : Split → Split) : (g.modSplit st f).parkedAt = g.parkedAt := rfl
@[simp] theorem Group.modSplit_stop (g : Group) (st : BitVec 16) (f : Split → Split) : (g.modSplit st f).stop = g.stop := rfl
@[simp] theorem Group.modSplit_pmc (g : Group) (st : BitVec 16) (f : Split → Split) : (g.modSplit st f).pmc = g.pmc := rfl
@[simp] theorem Group.modSplit_ictx (g : Group) (st : BitVec 16) (f : Split → Split) : (g.modSplit st f).ictx = g.ictx := rfl
@[simp] theorem Group.modSplit_stage (g : Group) (st : BitVec 16) (f : Split → Split) : (g.modSplit st f).stage = g.stage := rfl
@[simp] theorem Group.modSplit_async (g : Group) (st : BitVec 16) (f : Split → Split) : (g.modSplit st f).async = g.async := rfl
@[simp] theorem Group.modSplit_owed (g : Group) (st : BitVec 16) (f : Split → Split) : (g.modSplit st f).owed = g.owed := rfl
@[simp] theorem Group.modSplit_save (g : Group) (st : BitVec 16) (f : Split → Split) : (g.modSplit st f).save = g.save := rfl
@[simp] theorem Group.modSplit_loaded (g : Group) (st : BitVec 16) (f : Split → Split) : (g.modSplit st f).loaded = g.loaded := rfl

@[simp] theorem Group.count_num (g : Group) (e n : Nat) : (g.count e n).num = g.num := rfl
@[simp] theorem Group.count_sextant (g : Group) (e n : Nat) : (g.count e n).sextant = g.sextant := rfl
@[simp] theorem Group.count_slices (g : Group) (e n : Nat) : (g.count e n).slices = g.slices := rfl
@[simp] theorem Group.count_splits (g : Group) (e n : Nat) : (g.count e n).splits = g.splits := rfl
@[simp] theorem Group.count_stamps (g : Group) (e n : Nat) : (g.count e n).stamps = g.stamps := rfl
@[simp] theorem Group.count_v (g : Group) (e n : Nat) : (g.count e n).v = g.v := rfl
@[simp] theorem Group.count_p (g : Group) (e n : Nat) : (g.count e n).p = g.p := rfl
@[simp] theorem Group.count_urg (g : Group) (e n : Nat) : (g.count e n).urg = g.urg := rfl
@[simp] theorem Group.count_rgnctr (g : Group) (e n : Nat) : (g.count e n).rgnctr = g.rgnctr := rfl
@[simp] theorem Group.count_reexec (g : Group) (e n : Nat) : (g.count e n).reexec = g.reexec := rfl
@[simp] theorem Group.count_bseq (g : Group) (e n : Nat) : (g.count e n).bseq = g.bseq := rfl
@[simp] theorem Group.count_settle (g : Group) (e n : Nat) : (g.count e n).settle = g.settle := rfl
@[simp] theorem Group.count_posted (g : Group) (e n : Nat) : (g.count e n).posted = g.posted := rfl
@[simp] theorem Group.count_markers (g : Group) (e n : Nat) : (g.count e n).markers = g.markers := rfl
@[simp] theorem Group.count_seen (g : Group) (e n : Nat) : (g.count e n).seen = g.seen := rfl
@[simp] theorem Group.count_tr0 (g : Group) (e n : Nat) : (g.count e n).tr0 = g.tr0 := rfl
@[simp] theorem Group.count_tr1 (g : Group) (e n : Nat) : (g.count e n).tr1 = g.tr1 := rfl
@[simp] theorem Group.count_tr2 (g : Group) (e n : Nat) : (g.count e n).tr2 = g.tr2 := rfl
@[simp] theorem Group.count_tr3 (g : Group) (e n : Nat) : (g.count e n).tr3 = g.tr3 := rfl
@[simp] theorem Group.count_handler (g : Group) (e n : Nat) : (g.count e n).handler = g.handler := rfl
@[simp] theorem Group.count_parked (g : Group) (e n : Nat) : (g.count e n).parked = g.parked := rfl
@[simp] theorem Group.count_parkedAt (g : Group) (e n : Nat) : (g.count e n).parkedAt = g.parkedAt := rfl
@[simp] theorem Group.count_stop (g : Group) (e n : Nat) : (g.count e n).stop = g.stop := rfl
@[simp] theorem Group.count_ictx (g : Group) (e n : Nat) : (g.count e n).ictx = g.ictx := rfl
@[simp] theorem Group.count_stage (g : Group) (e n : Nat) : (g.count e n).stage = g.stage := rfl
@[simp] theorem Group.count_async (g : Group) (e n : Nat) : (g.count e n).async = g.async := rfl
@[simp] theorem Group.count_owed (g : Group) (e n : Nat) : (g.count e n).owed = g.owed := rfl
@[simp] theorem Group.count_save (g : Group) (e n : Nat) : (g.count e n).save = g.save := rfl
@[simp] theorem Group.count_loaded (g : Group) (e n : Nat) : (g.count e n).loaded = g.loaded := rfl

@[simp] theorem Group.contest_num (g : Group) (x : Dest) : (g.contest x).num = g.num := rfl
@[simp] theorem Group.contest_sextant (g : Group) (x : Dest) : (g.contest x).sextant = g.sextant := rfl
@[simp] theorem Group.contest_slices (g : Group) (x : Dest) : (g.contest x).slices = g.slices := rfl
@[simp] theorem Group.contest_splits (g : Group) (x : Dest) : (g.contest x).splits = g.splits := rfl
@[simp] theorem Group.contest_stamps (g : Group) (x : Dest) : (g.contest x).stamps = g.stamps := rfl
@[simp] theorem Group.contest_v (g : Group) (x : Dest) : (g.contest x).v = g.v := rfl
@[simp] theorem Group.contest_p (g : Group) (x : Dest) : (g.contest x).p = g.p := rfl
@[simp] theorem Group.contest_urg (g : Group) (x : Dest) : (g.contest x).urg = g.urg := rfl
@[simp] theorem Group.contest_rgnctr (g : Group) (x : Dest) : (g.contest x).rgnctr = g.rgnctr := rfl
@[simp] theorem Group.contest_reexec (g : Group) (x : Dest) : (g.contest x).reexec = g.reexec := rfl
@[simp] theorem Group.contest_bseq (g : Group) (x : Dest) : (g.contest x).bseq = g.bseq := rfl
@[simp] theorem Group.contest_settle (g : Group) (x : Dest) : (g.contest x).settle = g.settle := rfl
@[simp] theorem Group.contest_posted (g : Group) (x : Dest) : (g.contest x).posted = g.posted := rfl
@[simp] theorem Group.contest_markers (g : Group) (x : Dest) : (g.contest x).markers = g.markers := rfl
@[simp] theorem Group.contest_seen (g : Group) (x : Dest) : (g.contest x).seen = g.seen := rfl
@[simp] theorem Group.contest_tr0 (g : Group) (x : Dest) : (g.contest x).tr0 = g.tr0 := rfl
@[simp] theorem Group.contest_tr1 (g : Group) (x : Dest) : (g.contest x).tr1 = g.tr1 := rfl
@[simp] theorem Group.contest_tr2 (g : Group) (x : Dest) : (g.contest x).tr2 = g.tr2 := rfl
@[simp] theorem Group.contest_tr3 (g : Group) (x : Dest) : (g.contest x).tr3 = g.tr3 := rfl
@[simp] theorem Group.contest_handler (g : Group) (x : Dest) : (g.contest x).handler = g.handler := rfl
@[simp] theorem Group.contest_parked (g : Group) (x : Dest) : (g.contest x).parked = g.parked := rfl
@[simp] theorem Group.contest_parkedAt (g : Group) (x : Dest) : (g.contest x).parkedAt = g.parkedAt := rfl
@[simp] theorem Group.contest_stop (g : Group) (x : Dest) : (g.contest x).stop = g.stop := rfl
@[simp] theorem Group.contest_pmc (g : Group) (x : Dest) : (g.contest x).pmc = g.pmc := rfl
@[simp] theorem Group.contest_ictx (g : Group) (x : Dest) : (g.contest x).ictx = g.ictx := rfl
@[simp] theorem Group.contest_stage (g : Group) (x : Dest) : (g.contest x).stage = g.stage := rfl
@[simp] theorem Group.contest_async (g : Group) (x : Dest) : (g.contest x).async = g.async := rfl
@[simp] theorem Group.contest_save (g : Group) (x : Dest) : (g.contest x).save = g.save := rfl
@[simp] theorem Group.contest_loaded (g : Group) (x : Dest) : (g.contest x).loaded = g.loaded := rfl

@[simp] theorem Group.storeV_num (g : Group) (l n : Nat) (w : Word32) : (g.storeV l n w).num = g.num := by unfold Group.storeV; split <;> rfl
@[simp] theorem Group.storeV_sextant (g : Group) (l n : Nat) (w : Word32) : (g.storeV l n w).sextant = g.sextant := by unfold Group.storeV; split <;> rfl
@[simp] theorem Group.storeV_slices (g : Group) (l n : Nat) (w : Word32) : (g.storeV l n w).slices = g.slices := by unfold Group.storeV; split <;> rfl
@[simp] theorem Group.storeV_splits (g : Group) (l n : Nat) (w : Word32) : (g.storeV l n w).splits = g.splits := by unfold Group.storeV; split <;> rfl
@[simp] theorem Group.storeV_stamps (g : Group) (l n : Nat) (w : Word32) : (g.storeV l n w).stamps = g.stamps := by unfold Group.storeV; split <;> rfl
@[simp] theorem Group.storeV_p (g : Group) (l n : Nat) (w : Word32) : (g.storeV l n w).p = g.p := by unfold Group.storeV; split <;> rfl
@[simp] theorem Group.storeV_urg (g : Group) (l n : Nat) (w : Word32) : (g.storeV l n w).urg = g.urg := by unfold Group.storeV; split <;> rfl
@[simp] theorem Group.storeV_rgnctr (g : Group) (l n : Nat) (w : Word32) : (g.storeV l n w).rgnctr = g.rgnctr := by unfold Group.storeV; split <;> rfl
@[simp] theorem Group.storeV_reexec (g : Group) (l n : Nat) (w : Word32) : (g.storeV l n w).reexec = g.reexec := by unfold Group.storeV; split <;> rfl
@[simp] theorem Group.storeV_bseq (g : Group) (l n : Nat) (w : Word32) : (g.storeV l n w).bseq = g.bseq := by unfold Group.storeV; split <;> rfl
@[simp] theorem Group.storeV_settle (g : Group) (l n : Nat) (w : Word32) : (g.storeV l n w).settle = g.settle := by unfold Group.storeV; split <;> rfl
@[simp] theorem Group.storeV_posted (g : Group) (l n : Nat) (w : Word32) : (g.storeV l n w).posted = g.posted := by unfold Group.storeV; split <;> rfl
@[simp] theorem Group.storeV_markers (g : Group) (l n : Nat) (w : Word32) : (g.storeV l n w).markers = g.markers := by unfold Group.storeV; split <;> rfl
@[simp] theorem Group.storeV_seen (g : Group) (l n : Nat) (w : Word32) : (g.storeV l n w).seen = g.seen := by unfold Group.storeV; split <;> rfl
@[simp] theorem Group.storeV_tr0 (g : Group) (l n : Nat) (w : Word32) : (g.storeV l n w).tr0 = g.tr0 := by unfold Group.storeV; split <;> rfl
@[simp] theorem Group.storeV_tr1 (g : Group) (l n : Nat) (w : Word32) : (g.storeV l n w).tr1 = g.tr1 := by unfold Group.storeV; split <;> rfl
@[simp] theorem Group.storeV_tr2 (g : Group) (l n : Nat) (w : Word32) : (g.storeV l n w).tr2 = g.tr2 := by unfold Group.storeV; split <;> rfl
@[simp] theorem Group.storeV_tr3 (g : Group) (l n : Nat) (w : Word32) : (g.storeV l n w).tr3 = g.tr3 := by unfold Group.storeV; split <;> rfl
@[simp] theorem Group.storeV_handler (g : Group) (l n : Nat) (w : Word32) : (g.storeV l n w).handler = g.handler := by unfold Group.storeV; split <;> rfl
@[simp] theorem Group.storeV_parked (g : Group) (l n : Nat) (w : Word32) : (g.storeV l n w).parked = g.parked := by unfold Group.storeV; split <;> rfl
@[simp] theorem Group.storeV_parkedAt (g : Group) (l n : Nat) (w : Word32) : (g.storeV l n w).parkedAt = g.parkedAt := by unfold Group.storeV; split <;> rfl
@[simp] theorem Group.storeV_stop (g : Group) (l n : Nat) (w : Word32) : (g.storeV l n w).stop = g.stop := by unfold Group.storeV; split <;> rfl
@[simp] theorem Group.storeV_pmc (g : Group) (l n : Nat) (w : Word32) : (g.storeV l n w).pmc = g.pmc := by unfold Group.storeV; split <;> rfl
@[simp] theorem Group.storeV_ictx (g : Group) (l n : Nat) (w : Word32) : (g.storeV l n w).ictx = g.ictx := by unfold Group.storeV; split <;> rfl
@[simp] theorem Group.storeV_stage (g : Group) (l n : Nat) (w : Word32) : (g.storeV l n w).stage = g.stage := by unfold Group.storeV; split <;> rfl
@[simp] theorem Group.storeV_async (g : Group) (l n : Nat) (w : Word32) : (g.storeV l n w).async = g.async := by unfold Group.storeV; split <;> rfl
@[simp] theorem Group.storeV_owed (g : Group) (l n : Nat) (w : Word32) : (g.storeV l n w).owed = g.owed := by unfold Group.storeV; split <;> rfl
@[simp] theorem Group.storeV_save (g : Group) (l n : Nat) (w : Word32) : (g.storeV l n w).save = g.save := by unfold Group.storeV; split <;> rfl
@[simp] theorem Group.storeV_loaded (g : Group) (l n : Nat) (w : Word32) : (g.storeV l n w).loaded = g.loaded := by unfold Group.storeV; split <;> rfl

@[simp] theorem Group.storeP_num (g : Group) (l n : Nat) (b : Bool) : (g.storeP l n b).num = g.num := by unfold Group.storeP; split <;> rfl
@[simp] theorem Group.storeP_sextant (g : Group) (l n : Nat) (b : Bool) : (g.storeP l n b).sextant = g.sextant := by unfold Group.storeP; split <;> rfl
@[simp] theorem Group.storeP_slices (g : Group) (l n : Nat) (b : Bool) : (g.storeP l n b).slices = g.slices := by unfold Group.storeP; split <;> rfl
@[simp] theorem Group.storeP_splits (g : Group) (l n : Nat) (b : Bool) : (g.storeP l n b).splits = g.splits := by unfold Group.storeP; split <;> rfl
@[simp] theorem Group.storeP_stamps (g : Group) (l n : Nat) (b : Bool) : (g.storeP l n b).stamps = g.stamps := by unfold Group.storeP; split <;> rfl
@[simp] theorem Group.storeP_v (g : Group) (l n : Nat) (b : Bool) : (g.storeP l n b).v = g.v := by unfold Group.storeP; split <;> rfl
@[simp] theorem Group.storeP_urg (g : Group) (l n : Nat) (b : Bool) : (g.storeP l n b).urg = g.urg := by unfold Group.storeP; split <;> rfl
@[simp] theorem Group.storeP_rgnctr (g : Group) (l n : Nat) (b : Bool) : (g.storeP l n b).rgnctr = g.rgnctr := by unfold Group.storeP; split <;> rfl
@[simp] theorem Group.storeP_reexec (g : Group) (l n : Nat) (b : Bool) : (g.storeP l n b).reexec = g.reexec := by unfold Group.storeP; split <;> rfl
@[simp] theorem Group.storeP_bseq (g : Group) (l n : Nat) (b : Bool) : (g.storeP l n b).bseq = g.bseq := by unfold Group.storeP; split <;> rfl
@[simp] theorem Group.storeP_settle (g : Group) (l n : Nat) (b : Bool) : (g.storeP l n b).settle = g.settle := by unfold Group.storeP; split <;> rfl
@[simp] theorem Group.storeP_posted (g : Group) (l n : Nat) (b : Bool) : (g.storeP l n b).posted = g.posted := by unfold Group.storeP; split <;> rfl
@[simp] theorem Group.storeP_markers (g : Group) (l n : Nat) (b : Bool) : (g.storeP l n b).markers = g.markers := by unfold Group.storeP; split <;> rfl
@[simp] theorem Group.storeP_seen (g : Group) (l n : Nat) (b : Bool) : (g.storeP l n b).seen = g.seen := by unfold Group.storeP; split <;> rfl
@[simp] theorem Group.storeP_tr0 (g : Group) (l n : Nat) (b : Bool) : (g.storeP l n b).tr0 = g.tr0 := by unfold Group.storeP; split <;> rfl
@[simp] theorem Group.storeP_tr1 (g : Group) (l n : Nat) (b : Bool) : (g.storeP l n b).tr1 = g.tr1 := by unfold Group.storeP; split <;> rfl
@[simp] theorem Group.storeP_tr2 (g : Group) (l n : Nat) (b : Bool) : (g.storeP l n b).tr2 = g.tr2 := by unfold Group.storeP; split <;> rfl
@[simp] theorem Group.storeP_tr3 (g : Group) (l n : Nat) (b : Bool) : (g.storeP l n b).tr3 = g.tr3 := by unfold Group.storeP; split <;> rfl
@[simp] theorem Group.storeP_handler (g : Group) (l n : Nat) (b : Bool) : (g.storeP l n b).handler = g.handler := by unfold Group.storeP; split <;> rfl
@[simp] theorem Group.storeP_parked (g : Group) (l n : Nat) (b : Bool) : (g.storeP l n b).parked = g.parked := by unfold Group.storeP; split <;> rfl
@[simp] theorem Group.storeP_parkedAt (g : Group) (l n : Nat) (b : Bool) : (g.storeP l n b).parkedAt = g.parkedAt := by unfold Group.storeP; split <;> rfl
@[simp] theorem Group.storeP_stop (g : Group) (l n : Nat) (b : Bool) : (g.storeP l n b).stop = g.stop := by unfold Group.storeP; split <;> rfl
@[simp] theorem Group.storeP_pmc (g : Group) (l n : Nat) (b : Bool) : (g.storeP l n b).pmc = g.pmc := by unfold Group.storeP; split <;> rfl
@[simp] theorem Group.storeP_ictx (g : Group) (l n : Nat) (b : Bool) : (g.storeP l n b).ictx = g.ictx := by unfold Group.storeP; split <;> rfl
@[simp] theorem Group.storeP_stage (g : Group) (l n : Nat) (b : Bool) : (g.storeP l n b).stage = g.stage := by unfold Group.storeP; split <;> rfl
@[simp] theorem Group.storeP_async (g : Group) (l n : Nat) (b : Bool) : (g.storeP l n b).async = g.async := by unfold Group.storeP; split <;> rfl
@[simp] theorem Group.storeP_owed (g : Group) (l n : Nat) (b : Bool) : (g.storeP l n b).owed = g.owed := by unfold Group.storeP; split <;> rfl
@[simp] theorem Group.storeP_save (g : Group) (l n : Nat) (b : Bool) : (g.storeP l n b).save = g.save := by unfold Group.storeP; split <;> rfl
@[simp] theorem Group.storeP_loaded (g : Group) (l n : Nat) (b : Bool) : (g.storeP l n b).loaded = g.loaded := by unfold Group.storeP; split <;> rfl

@[simp] theorem Group.storeS_num (g : Group) (m : BitVec 8) (n : Nat) (w : Word64) : (g.storeS m n w).num = g.num := by unfold Group.storeS; split <;> rfl
@[simp] theorem Group.storeS_sextant (g : Group) (m : BitVec 8) (n : Nat) (w : Word64) : (g.storeS m n w).sextant = g.sextant := by unfold Group.storeS; split <;> rfl
@[simp] theorem Group.storeS_splits (g : Group) (m : BitVec 8) (n : Nat) (w : Word64) : (g.storeS m n w).splits = g.splits := by unfold Group.storeS; split <;> rfl
@[simp] theorem Group.storeS_stamps (g : Group) (m : BitVec 8) (n : Nat) (w : Word64) : (g.storeS m n w).stamps = g.stamps := by unfold Group.storeS; split <;> rfl
@[simp] theorem Group.storeS_v (g : Group) (m : BitVec 8) (n : Nat) (w : Word64) : (g.storeS m n w).v = g.v := by unfold Group.storeS; split <;> rfl
@[simp] theorem Group.storeS_p (g : Group) (m : BitVec 8) (n : Nat) (w : Word64) : (g.storeS m n w).p = g.p := by unfold Group.storeS; split <;> rfl
@[simp] theorem Group.storeS_urg (g : Group) (m : BitVec 8) (n : Nat) (w : Word64) : (g.storeS m n w).urg = g.urg := by unfold Group.storeS; split <;> rfl
@[simp] theorem Group.storeS_rgnctr (g : Group) (m : BitVec 8) (n : Nat) (w : Word64) : (g.storeS m n w).rgnctr = g.rgnctr := by unfold Group.storeS; split <;> rfl
@[simp] theorem Group.storeS_reexec (g : Group) (m : BitVec 8) (n : Nat) (w : Word64) : (g.storeS m n w).reexec = g.reexec := by unfold Group.storeS; split <;> rfl
@[simp] theorem Group.storeS_bseq (g : Group) (m : BitVec 8) (n : Nat) (w : Word64) : (g.storeS m n w).bseq = g.bseq := by unfold Group.storeS; split <;> rfl
@[simp] theorem Group.storeS_settle (g : Group) (m : BitVec 8) (n : Nat) (w : Word64) : (g.storeS m n w).settle = g.settle := by unfold Group.storeS; split <;> rfl
@[simp] theorem Group.storeS_posted (g : Group) (m : BitVec 8) (n : Nat) (w : Word64) : (g.storeS m n w).posted = g.posted := by unfold Group.storeS; split <;> rfl
@[simp] theorem Group.storeS_markers (g : Group) (m : BitVec 8) (n : Nat) (w : Word64) : (g.storeS m n w).markers = g.markers := by unfold Group.storeS; split <;> rfl
@[simp] theorem Group.storeS_seen (g : Group) (m : BitVec 8) (n : Nat) (w : Word64) : (g.storeS m n w).seen = g.seen := by unfold Group.storeS; split <;> rfl
@[simp] theorem Group.storeS_tr0 (g : Group) (m : BitVec 8) (n : Nat) (w : Word64) : (g.storeS m n w).tr0 = g.tr0 := by unfold Group.storeS; split <;> rfl
@[simp] theorem Group.storeS_tr1 (g : Group) (m : BitVec 8) (n : Nat) (w : Word64) : (g.storeS m n w).tr1 = g.tr1 := by unfold Group.storeS; split <;> rfl
@[simp] theorem Group.storeS_tr2 (g : Group) (m : BitVec 8) (n : Nat) (w : Word64) : (g.storeS m n w).tr2 = g.tr2 := by unfold Group.storeS; split <;> rfl
@[simp] theorem Group.storeS_tr3 (g : Group) (m : BitVec 8) (n : Nat) (w : Word64) : (g.storeS m n w).tr3 = g.tr3 := by unfold Group.storeS; split <;> rfl
@[simp] theorem Group.storeS_handler (g : Group) (m : BitVec 8) (n : Nat) (w : Word64) : (g.storeS m n w).handler = g.handler := by unfold Group.storeS; split <;> rfl
@[simp] theorem Group.storeS_parked (g : Group) (m : BitVec 8) (n : Nat) (w : Word64) : (g.storeS m n w).parked = g.parked := by unfold Group.storeS; split <;> rfl
@[simp] theorem Group.storeS_parkedAt (g : Group) (m : BitVec 8) (n : Nat) (w : Word64) : (g.storeS m n w).parkedAt = g.parkedAt := by unfold Group.storeS; split <;> rfl
@[simp] theorem Group.storeS_stop (g : Group) (m : BitVec 8) (n : Nat) (w : Word64) : (g.storeS m n w).stop = g.stop := by unfold Group.storeS; split <;> rfl
@[simp] theorem Group.storeS_pmc (g : Group) (m : BitVec 8) (n : Nat) (w : Word64) : (g.storeS m n w).pmc = g.pmc := by unfold Group.storeS; split <;> rfl
@[simp] theorem Group.storeS_ictx (g : Group) (m : BitVec 8) (n : Nat) (w : Word64) : (g.storeS m n w).ictx = g.ictx := by unfold Group.storeS; split <;> rfl
@[simp] theorem Group.storeS_stage (g : Group) (m : BitVec 8) (n : Nat) (w : Word64) : (g.storeS m n w).stage = g.stage := by unfold Group.storeS; split <;> rfl
@[simp] theorem Group.storeS_async (g : Group) (m : BitVec 8) (n : Nat) (w : Word64) : (g.storeS m n w).async = g.async := by unfold Group.storeS; split <;> rfl
@[simp] theorem Group.storeS_owed (g : Group) (m : BitVec 8) (n : Nat) (w : Word64) : (g.storeS m n w).owed = g.owed := by unfold Group.storeS; split <;> rfl
@[simp] theorem Group.storeS_save (g : Group) (m : BitVec 8) (n : Nat) (w : Word64) : (g.storeS m n w).save = g.save := by unfold Group.storeS; split <;> rfl
@[simp] theorem Group.storeS_loaded (g : Group) (m : BitVec 8) (n : Nat) (w : Word64) : (g.storeS m n w).loaded = g.loaded := by unfold Group.storeS; split <;> rfl

end Sys2Proof.Machine
end

