-- ==== Sys2Proof/Laws/Groups.lean ====
section
/-! SUPPORT. Registers: a read after each write; what finding and replacing a group does; what an issuing split is. -/

namespace Sys2Proof.Machine

/-! ## Lanes -/

theorem Group.lane_lt {g : Group} {sp : Split} {l : Nat} (h : l ∈ g.activeLanes sp) : l < 32 := by
  simp only [Group.activeLanes, List.mem_filter, Bool.and_eq_true] at h
  have := BitVec.lt_of_getLsbD h.2.1
  omega

theorem Issuer.on_lt {i : Issuer} {gd : Guard} {l : Nat} (h : l ∈ i.on gd) : l < 32 := by
  simp only [Issuer.on, Issuer.active, List.mem_filter] at h
  exact Group.lane_lt h.1

theorem Group.activeLanes_nodup (g : Group) (sp : Split) : (g.activeLanes sp).Nodup :=
  List.Pairwise.filter _ List.nodup_range

theorem Issuer.on_nodup (i : Issuer) (gd : Guard) : (i.on gd).Nodup :=
  List.Pairwise.filter _ (Group.activeLanes_nodup _ _)

theorem mem_maskSlices {m : BitVec 8} {k : Nat} : k ∈ maskSlices m ↔ m.getLsbD k = true := by
  simp only [maskSlices, List.mem_filter, List.mem_range]
  exact ⟨fun h => h.2, fun h => ⟨BitVec.lt_of_getLsbD h, h⟩⟩

/-! ## Vector registers -/

@[simp] theorem Group.vreg_255 (g : Group) (l : Nat) : g.vreg l 255 = 0 := rfl

theorem Group.vreg_storeV (g : Group) {l l' : Nat} (n n' : Nat) (w : Word32) (h : l < 32) (h' : l' < 32) :
    (g.storeV l n w).vreg l' n' = if l' = l ∧ n' = n ∧ n ≠ 255 then w else g.vreg l' n' := by
  unfold Group.storeV Group.vreg
  by_cases e : n = 255
  · simp [e]
  · by_cases e' : n' = 255
    · have : ¬(l' = l ∧ n' = n ∧ n ≠ 255) := by omega
      rw [if_neg this]; simp [e']
    · simp only [e, e', if_false]
      rw [fget_fset]
      by_cases c : l' = l ∧ n' = n
      · simp [c, e]
      · rw [if_neg (by omega), if_neg (by omega)]

@[simp] theorem Group.vreg_contest (g : Group) (x : Dest) (l n : Nat) : (g.contest x).vreg l n = g.vreg l n := rfl
@[simp] theorem Group.pred_contest (g : Group) (x : Dest) (l n : Nat) : (g.contest x).pred l n = g.pred l n := rfl
@[simp] theorem Group.sreg_contest (g : Group) (x : Dest) (k n : Nat) : (g.contest x).sreg k n = g.sreg k n := rfl

theorem Group.vreg_writeV (g : Group) {l l' : Nat} (n n' : Nat) (w : Word32) (h : l < 32) (h' : l' < 32) :
    (g.writeV l n w).vreg l' n' = if l' = l ∧ n' = n ∧ n ≠ 255 then w else g.vreg l' n' := by
  unfold Group.writeV
  by_cases e : n = 255
  · simp [e]
  · simp only [e, if_false, Group.vreg_contest]; rw [Group.vreg_storeV g n n' w h h']

@[simp] theorem Group.pred_storeV (g : Group) (l n : Nat) (w : Word32) (l' n' : Nat) :
    (g.storeV l n w).pred l' n' = g.pred l' n' := by unfold Group.pred; rw [Group.storeV_p]

@[simp] theorem Group.pred_writeV (g : Group) (l n : Nat) (w : Word32) (l' n' : Nat) :
    (g.writeV l n w).pred l' n' = g.pred l' n' := by unfold Group.writeV; split <;> simp

@[simp] theorem Group.sreg_storeV (g : Group) (l n : Nat) (w : Word32) (k m : Nat) :
    (g.storeV l n w).sreg k m = g.sreg k m := by unfold Group.sreg Group.slice; rw [Group.storeV_slices]

@[simp] theorem Group.sreg_writeV (g : Group) (l n : Nat) (w : Word32) (k m : Nat) :
    (g.writeV l n w).sreg k m = g.sreg k m := by unfold Group.writeV; split <;> simp

/-! ## Predicates -/

@[simp] theorem Group.pred_7 (g : Group) (l : Nat) : g.pred l 7 = true := rfl

theorem setBit8_get : ∀ (x : BitVec 8) (b : Bool), ∀ n < 8, ∀ k < 8,
    (setBit8 x n b).getLsbD k = if k = n then b else x.getLsbD k := by
  intro x b n hn k hk
  unfold setBit8
  by_cases e : k = n
  · subst e; cases b <;> simp [hk]
  · cases b <;> simp [hk, e] <;> omega

theorem Group.pred_storeP (g : Group) {l l' n n' : Nat} (b : Bool) (h : n < 8) (h' : n' < 8) :
    (g.storeP l n b).pred l' n' = if l' = l ∧ n' = n ∧ n ≠ 7 then b else g.pred l' n' := by
  unfold Group.storeP
  by_cases e : n = 7
  · simp [e]
  · simp only [e, if_false]
    unfold Group.pred
    by_cases c : n' = 7
    · have : ¬(l' = l ∧ n' = n ∧ n ≠ 7) := by omega
      rw [if_neg this]; simp [c]
    · rw [fget_fset]
      by_cases a : l' = l
      · subst a
        simp only [if_true, setBit8_get _ b n h n' h']
        by_cases d : n' = n
        · subst d; simp [c]
        · simp [d]
      · simp [a]

theorem Group.pred_writeP (g : Group) {l l' n n' : Nat} (b : Bool) (h : n < 8) (h' : n' < 8) :
    (g.writeP l n b).pred l' n' = if l' = l ∧ n' = n ∧ n ≠ 7 then b else g.pred l' n' := by
  unfold Group.writeP
  by_cases e : n = 7
  · simp [e]
  · simp only [e, if_false, Group.pred_contest]; rw [Group.pred_storeP g b h h']

@[simp] theorem Group.vreg_storeP (g : Group) (l n : Nat) (b : Bool) (l' n' : Nat) :
    (g.storeP l n b).vreg l' n' = g.vreg l' n' := by unfold Group.vreg; rw [Group.storeP_v]

@[simp] theorem Group.vreg_writeP (g : Group) (l n : Nat) (b : Bool) (l' n' : Nat) :
    (g.writeP l n b).vreg l' n' = g.vreg l' n' := by unfold Group.writeP; split <;> simp

@[simp] theorem Group.sreg_storeP (g : Group) (l n : Nat) (b : Bool) (k m : Nat) :
    (g.storeP l n b).sreg k m = g.sreg k m := by unfold Group.sreg Group.slice; rw [Group.storeP_slices]

@[simp] theorem Group.sreg_writeP (g : Group) (l n : Nat) (b : Bool) (k m : Nat) :
    (g.writeP l n b).sreg k m = g.sreg k m := by unfold Group.writeP; split <;> simp

/-! ## Slices and scalars -/

theorem Group.slice_modSlices (g : Group) (m : BitVec 8) (f : Nat → Slice → Slice) (k : Nat) :
    (g.modSlices m f).slice k =
      if m.getLsbD k ∧ k < g.slices.length then f k (g.slice k) else g.slice k := by
  unfold Group.slice Group.modSlices
  by_cases h : k < g.slices.length
  · cases c : m.getLsbD k <;> simp [h, c]
  · simp [h]

@[simp] theorem Group.slices_length_modSlices (g : Group) (m : BitVec 8) (f : Nat → Slice → Slice) :
    (g.modSlices m f).slices.length = g.slices.length := by simp [Group.modSlices]

@[simp] theorem Group.sreg_63 (g : Group) (k : Nat) : g.sreg k 63 = 0 := rfl

theorem Group.sreg_storeS (g : Group) (m : BitVec 8) (n n' k : Nat) (w : Word64) :
    (g.storeS m n w).sreg k n' =
      if m.getLsbD k ∧ k < g.slices.length ∧ n' = n ∧ n ≠ 63 then w else g.sreg k n' := by
  unfold Group.storeS
  by_cases e : n = 63
  · simp [e]
  · simp only [e, if_false]
    unfold Group.sreg
    by_cases c : n' = 63
    · have : ¬(m.getLsbD k ∧ k < g.slices.length ∧ n' = n ∧ n ≠ 63) := by omega
      rw [if_neg this]; simp [c]
    · simp only [c, if_false, Group.slice_modSlices]
      by_cases a : m.getLsbD k = true ∧ k < g.slices.length
      · simp only [a, and_self, if_true, true_and]; rw [fget_fset]; simp [e]
      · simp only [a, if_false]
        rw [if_neg (fun h => a ⟨h.1, h.2.1⟩)]

@[simp] theorem Group.vreg_storeS (g : Group) (m : BitVec 8) (n : Nat) (w : Word64) (l n' : Nat) :
    (g.storeS m n w).vreg l n' = g.vreg l n' := by unfold Group.vreg; rw [Group.storeS_v]

@[simp] theorem Group.pred_storeS (g : Group) (m : BitVec 8) (n : Nat) (w : Word64) (l n' : Nat) :
    (g.storeS m n w).pred l n' = g.pred l n' := by unfold Group.pred; rw [Group.storeS_p]

theorem Group.contests_keep (ks : List Nat) (n : Nat) (g : Group) :
    (∀ l m, (ks.foldl (fun g k => g.contest (.s k n)) g).vreg l m = g.vreg l m) ∧
    (∀ l m, (ks.foldl (fun g k => g.contest (.s k n)) g).pred l m = g.pred l m) ∧
    (∀ k m, (ks.foldl (fun g k => g.contest (.s k n)) g).sreg k m = g.sreg k m) := by
  induction ks generalizing g with
  | nil => exact ⟨fun _ _ => rfl, fun _ _ => rfl, fun _ _ => rfl⟩
  | cons x t ih =>
    obtain ⟨a, b, c⟩ := ih (g.contest (.s x n))
    exact ⟨fun l m => by simpa using a l m, fun l m => by simpa using b l m, fun k m => by simpa using c k m⟩

theorem Group.sreg_writeS (g : Group) (m : BitVec 8) (n n' k : Nat) (w : Word64) :
    (g.writeS m n w).sreg k n' =
      if m.getLsbD k ∧ k < g.slices.length ∧ n' = n ∧ n ≠ 63 then w else g.sreg k n' := by
  unfold Group.writeS
  by_cases e : n = 63
  · simp [e]
  · simp only [e, if_false]; rw [(Group.contests_keep _ _ _).2.2, Group.sreg_storeS]

@[simp] theorem Group.vreg_writeS (g : Group) (m : BitVec 8) (n : Nat) (w : Word64) (l n' : Nat) :
    (g.writeS m n w).vreg l n' = g.vreg l n' := by
  unfold Group.writeS; split
  · rfl
  · rw [(Group.contests_keep _ _ _).1, Group.vreg_storeS]

@[simp] theorem Group.pred_writeS (g : Group) (m : BitVec 8) (n : Nat) (w : Word64) (l n' : Nat) :
    (g.writeS m n w).pred l n' = g.pred l n' := by
  unfold Group.writeS; split
  · rfl
  · rw [(Group.contests_keep _ _ _).2.1, Group.pred_storeS]

/-! ## Finding and replacing -/

theorem Team.num_of_group? {t : Team} {n : Nat} {g : Group} (h : t.group? n = some g) : g.num = n := by
  have := List.find?_some h; simpa using this

theorem Dev.inst_of_team? {d : Dev} {n : Nat} {t : Team} (h : d.team? n = some t) : t.inst = n := by
  have := List.find?_some h; simpa using this

theorem find_map {α : Type} (l : List α) (p : α → Bool) (f : α → α) {x : α}
    (hp : ∀ y, p (f y) = p y) (h : l.find? p = some x) : (l.map f).find? p = some (f x) := by
  induction l with
  | nil => cases h
  | cons a t ih =>
    simp only [List.find?_cons, List.map_cons, hp] at h ⊢
    cases e : p a <;> simp_all

theorem Dev.team?_modTeam (d : Dev) {n : Nat} {t : Team} (f : Team → Team) (hf : ∀ t, (f t).inst = t.inst)
    (h : d.team? n = some t) : (d.modTeam n f).team? n = some (f t) := by
  have e := Dev.inst_of_team? h
  have := find_map d.teams (·.inst == n) (fun x => if x.inst = n then f x else x)
    (fun y => by by_cases c : y.inst = n <;> simp [c, hf]) h
  simpa [Dev.team?, Dev.modTeam, e] using this

theorem Team.group?_modGroup (t : Team) {n : Nat} {g : Group} (f : Group → Group) (hf : ∀ g, g.num = n → (f g).num = n)
    (h : t.group? n = some g) : (t.modGroup n f).group? n = some (f g) := by
  have e := Team.num_of_group? h
  have := find_map t.groups (·.num == n) (fun x => if x.num = n then f x else x)
    (fun y => by by_cases c : y.num = n <;> simp [c, hf]) h
  simpa [Team.group?, Team.modGroup, e] using this

/-- A group found after it was replaced. -/
theorem Dev.group?_modGroup (d : Dev) {r : GroupRef} {g : Group} (f : Group → Group)
    (hf : ∀ g, g.num = r.group → (f g).num = r.group) (h : d.group? r = some g) :
    (d.modGroup r f).group? r = some (f g) := by
  obtain ⟨t, ht, hg⟩ := Option.bind_eq_some_iff.mp h
  have := Dev.team?_modTeam d (·.modGroup r.group f) (fun _ => rfl) ht
  unfold Dev.group? Dev.modGroup
  rw [this]
  exact Team.group?_modGroup t f hf hg

/-- What `issuer?` finds. -/
theorem Dev.issuerAt?_spec {d : Dev} {r : SplitRef} {i : Issuer} (h : d.issuerAt? r = some i) :
    i.ref = ⟨r.team, r.group⟩ ∧ d.team? r.team = some i.team ∧ d.grid? i.team.grid = some i.grid ∧
    i.team.group? r.group = some i.grp ∧ i.grp.split? r.stamp = some i.sp ∧ i.fresh = d.fresh := by
  simp only [Dev.issuerAt?, Option.bind_eq_bind, Option.bind_eq_some_iff] at h
  obtain ⟨t, ht, gr, hgr, g, hg, sp, hsp, e⟩ := h
  cases e
  exact ⟨rfl, ht, hgr, hg, hsp, rfl⟩

theorem Dev.group?_of_issuer? {d : Dev} {i : Issuer} (h : d.issuer? = some i) : d.group? i.ref = some i.grp := by
  obtain ⟨r, _, hr⟩ := Option.bind_eq_some_iff.mp h
  obtain ⟨e, ht, _, hg, _⟩ := Dev.issuerAt?_spec hr
  unfold Dev.group?; rw [e, ht]; exact hg

theorem Dev.team?_of_issuer? {d : Dev} {i : Issuer} (h : d.issuer? = some i) : d.team? i.ref.team = some i.team := by
  obtain ⟨r, _, hr⟩ := Option.bind_eq_some_iff.mp h
  obtain ⟨e, ht, _⟩ := Dev.issuerAt?_spec hr
  rw [e]; exact ht

/-! ## What a step is built from -/

theorem withIssuer_next {s : State} {i : Issuer} (f : Issuer → Dev → Dev) (h : s.dev.issuer? = some i) :
    withIssuer s f = .next { s with dev := f i s.dev } := by simp [withIssuer, h]

theorem withGroup_next {s : State} {i : Issuer} (after : Bool) (f : Issuer → Group → Group) (h : s.dev.issuer? = some i) :
    withGroup s after f = .next { s with dev := s.dev.modGroup i.ref fun _ => f i (i.grp.advance i.sp after) } :=
  withIssuer_next _ h

theorem withEvent_next {s : State} {d : Dev} (f : Dev → Option Dev) (h : f s.dev = some d) :
    withEvent s f = .next { s with dev := d } := by simp [withEvent, h]

/-- What a word's issue leaves as it was: the registers, and the group's number. -/
theorem Group.advance_keeps (g : Group) (sp : Split) (after : Bool) :
    (g.advance sp after).num = g.num ∧ (g.advance sp after).v = g.v ∧ (g.advance sp after).p = g.p ∧
    (g.advance sp after).owed = g.owed ∧ (g.advance sp after).slices.length = g.slices.length := by
  unfold Group.advance Group.countOnce; simp only; split <;> simp [Group.countIssue]

end Sys2Proof.Machine
end

