-- ==== Sys2Proof/Laws/PerInstr.lean ====
section
/-! SUPPORT. The family F of statements about each instruction: the fields the encoder gives it are read back as that
instruction, with nothing found wrong in them (R73 to R89). -/

set_option Elab.async false

namespace Sys2Proof.Laws

/-- What the encoder writes for a well-formed instruction has an opcode and a layout of the map, and the decoder's
field reading gives the instruction back. -/
def F.Statement (i : Instr) : Prop :=
  ∀ c f, i.wf c = true → i.fields = some f → accepted f = true ∧ f.parse = some ⟨i, false, false⟩

theorem parses {i : Instr} {f : Fields} (e : i.fields = some f)
    (h : (∃ c, i.wf c = true) → f.parse = some ⟨i, false, false⟩)
    (ha : accepted f = true := by
      first
      | exact accepted_f rfl
      | exact accepted_fi rfl
      | exact accepted_fm rfl
      | exact encBin_accepted rfl
      | exact enc7_accepted rfl) : F.Statement i := by
  intro c f' hw hf
  rw [e] at hf
  cases hf
  exact ⟨ha, h ⟨c, hw⟩⟩

theorem parsesWith {i : Instr} {f : Fields} (e : i.fields = some f)
    (h : (∃ c, i.wf c = true) → accepted f = true ∧ f.parse = some ⟨i, false, false⟩) : F.Statement i := by
  intro c f' hw hf
  rw [e] at hf
  cases hf
  exact h ⟨c, hw⟩

theorem some_parsed {i j : Instr} {b5 b6 : Bool} (hi : i = j) (h5 : b5 = false) (h6 : b6 = false) :
    some (Parsed.mk i b5 b6) = some ⟨j, false, false⟩ := by rw [hi, h5, h6]

theorem halves16 (x : BitVec 16) : (x.extractLsb' 8 8 ++ x.extractLsb' 0 8 : BitVec 16) = x := by
  apply BitVec.eq_of_getLsbD_eq
  intro i hi
  rw [show (x.extractLsb' 8 8 ++ x.extractLsb' 0 8 : BitVec 16).getLsbD i = _ from BitVec.getLsbD_append,
    BitVec.getLsbD_extractLsb', BitVec.getLsbD_extractLsb']
  split
  · next h => simp [h]
  · next h => simp [show i - 8 < 8 by omega, show 8 + (i - 8) = i by omega]

theorem kind_bit : ∀ k : Bool, let m : BitVec 12 := 0#11 ++ b1 k
    mbit m 0 = k ∧ mzero m 1 11 = true := by decide

theorem noFields {i : Instr} (h : i.fields = none) : F.Statement i := by
  intro c f _ hf
  rw [h] at hf
  cases hf

theorem F.clauseIssue (o) : F.Statement (.clauseIssue o) := noFields rfl

theorem F.illop (o) : F.Statement (.illop o) := noFields rfl

theorem F.pairedWord (x0) (x1) : F.Statement (.pairedWord x0 x1) := noFields rfl

theorem F.nop (g) : F.Statement (.nop g) := parses rfl fun _ => rfl

theorem F.bra (g rcv disp) : F.Statement (.bra g rcv disp) := parses rfl fun _ =>
  some_parsed (congrArg (Instr.bra g · disp) (halves16 rcv)) rfl rfl

theorem F.brx (g rcv t) : F.Statement (.brx g rcv t) := parses rfl fun _ => by
  refine some_parsed ?_ ?_ ?_ <;> simp [kind_bit]

theorem F.call (g disp) : F.Statement (.call g disp) := parses rfl fun _ => rfl

theorem F.callx (g t) : F.Statement (.callx g t) := parses rfl fun _ => by
  refine some_parsed ?_ ?_ ?_ <;> simp [kind_bit]

theorem F.ret : F.Statement .ret := parses rfl fun _ => rfl

theorem F.join : F.Statement .join := parses rfl fun _ => rfl

theorem F.joint (pd cyc) : F.Statement (.joint pd cyc) := parses rfl fun _ =>
  some_parsed (congrArg (Instr.joint · cyc) (e3_setWidth pd)) (pr8_e3 pd) rfl

theorem F.jointTimeout (o) : F.Statement (.jointTimeout o) := noFields rfl

theorem F.exit (g) : F.Statement (.exit g) := parses rfl fun _ => rfl

theorem F.delay (g cyc) : F.Statement (.delay g cyc) := parses rfl fun _ => rfl

theorem F.delayExpiry (o) : F.Statement (.delayExpiry o) := noFields rfl

theorem F.yield : F.Statement .yield := parses rfl fun _ => rfl

theorem F.rgn : F.Statement .rgn := parses rfl fun _ => rfl

theorem F.phint (s l v) : F.Statement (.phint s l v) := parses rfl fun _ => rfl

theorem F.ipf (g n disp) : F.Statement (.ipf g n disp) := parses rfl fun _ =>
  some_parsed (by simp) rfl (by simp; omega)

theorem F.iadd (o) : F.Statement (.iadd o) := parses rfl fun _ => encIntBin_parse ⟨fun _ _ _ _ _ _ => rfl, fun _ _ _ _ _ => rfl⟩ o

theorem F.isub (o) : F.Statement (.isub o) := parses rfl fun _ => encIntBin_parse ⟨fun _ _ _ _ _ _ => rfl, fun _ _ _ _ _ => rfl⟩ o

theorem F.iadd3 (o) : F.Statement (.iadd3 o) := parses rfl fun _ => encIntTri_parse (fun _ _ _ _ _ _ => rfl) o

theorem F.imul (o) : F.Statement (.imul o) := parses rfl fun _ => encIntBin_parse ⟨fun _ _ _ _ _ _ => rfl, fun _ _ _ _ _ => rfl⟩ o

theorem F.imulh (o) : F.Statement (.imulh o) := parses rfl fun _ => encIntBin_parse ⟨fun _ _ _ _ _ _ => rfl, fun _ _ _ _ _ => rfl⟩ o

theorem F.imad (o) : F.Statement (.imad o) := parses rfl fun _ => encIntTri_parse (fun _ _ _ _ _ _ => rfl) o

theorem F.imadw (o) : F.Statement (.imadw o) := parses rfl fun _ => encIntTri_parse (fun _ _ _ _ _ _ => rfl) o

theorem F.idiv (o) : F.Statement (.idiv o) := parses rfl fun _ => encIntBin_parse ⟨fun _ _ _ _ _ _ => rfl, fun _ _ _ _ _ => rfl⟩ o

theorem F.irem (o) : F.Statement (.irem o) := parses rfl fun _ => encIntBin_parse ⟨fun _ _ _ _ _ _ => rfl, fun _ _ _ _ _ => rfl⟩ o

theorem F.imin (o) : F.Statement (.imin o) := parses rfl fun _ => encIntBin_parse ⟨fun _ _ _ _ _ _ => rfl, fun _ _ _ _ _ => rfl⟩ o

theorem F.imax (o) : F.Statement (.imax o) := parses rfl fun _ => encIntBin_parse ⟨fun _ _ _ _ _ _ => rfl, fun _ _ _ _ _ => rfl⟩ o

theorem F.iabs (o) : F.Statement (.iabs o) := parses rfl fun _ => encIntUn_parse (fun _ _ _ _ _ _ => rfl) o

theorem F.ineg (o) : F.Statement (.ineg o) := parses rfl fun _ => encIntUn_parse (fun _ _ _ _ _ _ => rfl) o

theorem F.isad (o) : F.Statement (.isad o) := parses rfl fun _ => encIntTri_parse (fun _ _ _ _ _ _ => rfl) o

theorem F.idot4 (o) : F.Statement (.idot4 o) := parses rfl fun _ => by
  obtain ⟨t, au, bu, d, a, b, c, g⟩ := o
  obtain ⟨m, hp, r⟩ := encTri_parse (opc := 0x04E) (fun _ _ _ _ _ _ => rfl) d a b c (0#2 ++ b1 t ++ 0#3 ++ b1 au ++ b1 bu) g
  have e : ∀ t au bu : Bool, let m8 : BitVec 8 := 0#2 ++ b1 t ++ 0#3 ++ b1 au ++ b1 bu
      low8 m8 5 = t ∧ low8 m8 1 = au ∧ low8 m8 0 = bu ∧ part8 m8 6 2 = 0 ∧ part8 m8 2 3 = 0 := by decide
  refine hp.trans ?_
  simp [kbad4, r.dk, r.ak, r.bk, r.ck, mzero, r.bit, r.sub, e]

theorem F.iset (o) : F.Statement (.iset o) := parses rfl fun _ => by
  obtain ⟨⟨w, u⟩, c, pd, a, b, g⟩ := o
  obtain ⟨m, s, hp, r⟩ := encBin_parse (opc := 0x04F) (mk := fun d a m b g => ⟨.iset ⟨intTy m, m.extractLsb' 0 3, d.setWidth 3, kreg (ak m) a, b.src, g⟩,
      pr8 d || kbad (ak m) a || b.b5, b.b6 || dk m || mbit m 5 || !mzero m 3 2⟩)
    ⟨fun _ _ _ _ _ _ => rfl, fun _ _ _ _ _ => rfl⟩
    (e3 pd) a.num false a.isScalar b (b1 w ++ b1 u ++ 0#3 ++ c) g
  have e : ∀ (w u : Bool) (c : BitVec 3), let m8 : BitVec 8 := b1 w ++ b1 u ++ 0#3 ++ c
      low8 m8 7 = w ∧ low8 m8 6 = u ∧ low8 m8 5 = false ∧ part8 m8 3 2 = 0 ∧ part8 m8 0 3 = c := by decide
  refine hp.trans ?_
  simp [r.dk, r.ak, r.src, r.b5, r.b6, intTy, mzero, r.bit, r.sub, e]

theorem F.sel (o) : F.Statement (.sel o) := parses rfl fun _ => by
  obtain ⟨w, d, a, b, p, g⟩ := o
  have r := modPartsR d.isScalar a.isScalar b.isScalar (b1 w ++ 0#7)
  have e : ∀ w : Bool, low8 (b1 w ++ 0#7) 7 = w ∧ part8 (b1 w ++ 0#7) 0 7 = 0 := by decide
  have q : (b1 d.isScalar ++ b1 a.isScalar ++ b1 b.isScalar ++ 0#1 ++ b1 w ++ 0#7 : BitVec 12) =
      b1 d.isScalar ++ b1 a.isScalar ++ b1 b.isScalar ++ 0#1 ++ (b1 w ++ 0#7) := by rw [BitVec.append_assoc]; rfl
  simp only [q]
  refine some_parsed ?_ ?_ ?_ <;> simp [r.dk, r.ak, r.bk, r.ck, mzero, r.bit, r.sub, e]

theorem F.lea (o) : F.Statement (.lea o) := parses rfl fun _ => by
  obtain ⟨⟨w, u⟩, sh, d, a, b, g⟩ := o
  obtain ⟨m, s, hp, r⟩ := encBin_parse (opc := 0x051) (mk := fun d a m b g => ⟨.lea ⟨intTy m, m.extractLsb' 0 5, kreg (dk m) d, kreg (ak m) a, b.src, g⟩,
      kbad (dk m) d || kbad (ak m) a || b.b5, b.b6 || mbit m 5⟩)
    ⟨fun _ _ _ _ _ _ => rfl, fun _ _ _ _ _ => rfl⟩
    d.num a.num d.isScalar a.isScalar b (b1 w ++ b1 u ++ 0#1 ++ sh) g
  have e : ∀ (w u : Bool) (c : BitVec 5), let m8 : BitVec 8 := b1 w ++ b1 u ++ 0#1 ++ c
      low8 m8 7 = w ∧ low8 m8 6 = u ∧ low8 m8 5 = false ∧ part8 m8 0 5 = c := by decide
  refine hp.trans ?_
  simp [r.dk, r.ak, r.src, r.b5, r.b6, intTy, r.bit, r.sub, e]

theorem F.mov (o) : F.Statement (.mov o) := parses rfl fun _ => encLogUn_parse (fun _ _ _ _ _ _ => rfl) o

theorem F.movi (d imm g) : F.Statement (.movi d imm g) := parses rfl fun _ => by
  cases d with
  | v n => exact some_parsed rfl rfl rfl
  | s n => exact some_parsed (by simp [kreg, Reg.num, Reg.isScalar]) (sc64_e6 n) rfl

theorem F.movw (d imm g) : F.Statement (.movw d imm g) := parses rfl fun _ => by
  cases d with
  | v n => exact some_parsed rfl rfl rfl
  | s n => exact some_parsed (by simp [kreg, Reg.num, Reg.isScalar]) (sc64_e6 n) rfl

theorem F.and (o) : F.Statement (.and o) := parses rfl fun _ => encLogBin_parse ⟨fun _ _ _ _ _ _ => rfl, fun _ _ _ _ _ => rfl⟩ o

theorem F.or (o) : F.Statement (.or o) := parses rfl fun _ => encLogBin_parse ⟨fun _ _ _ _ _ _ => rfl, fun _ _ _ _ _ => rfl⟩ o

theorem F.xor (o) : F.Statement (.xor o) := parses rfl fun _ => encLogBin_parse ⟨fun _ _ _ _ _ _ => rfl, fun _ _ _ _ _ => rfl⟩ o

theorem F.not (o) : F.Statement (.not o) := parses rfl fun _ => encLogUn_parse (fun _ _ _ _ _ _ => rfl) o

theorem F.bool3 (o) : F.Statement (.bool3 o) := parses rfl fun _ => by
  obtain ⟨t, d, a, b, c, g⟩ := o
  obtain ⟨m, hp, r⟩ := encTri_parse (opc := 0x084) (fun _ _ _ _ _ _ => rfl) d a b c t g
  refine hp.trans ?_
  simp [kbad4, r.dk, r.ak, r.bk, r.ck, r.sub, part8]

theorem F.shl (o) : F.Statement (.shl o) := parses rfl fun _ => encLogBin_parse ⟨fun _ _ _ _ _ _ => rfl, fun _ _ _ _ _ => rfl⟩ o

theorem F.shr (o) : F.Statement (.shr o) := parses rfl fun _ => encLogBin_parse ⟨fun _ _ _ _ _ _ => rfl, fun _ _ _ _ _ => rfl⟩ o

theorem F.sar (o) : F.Statement (.sar o) := parses rfl fun _ => encLogBin_parse ⟨fun _ _ _ _ _ _ => rfl, fun _ _ _ _ _ => rfl⟩ o

theorem F.rot (o) : F.Statement (.rot o) := parses rfl fun _ => encLogBin_parse ⟨fun _ _ _ _ _ _ => rfl, fun _ _ _ _ _ => rfl⟩ o

theorem F.funnel (o) : F.Statement (.funnel o) := parses rfl fun _ => by
  obtain ⟨t, d, a, b, c, g⟩ := o
  obtain ⟨m, hp, r⟩ := encTri_parse (opc := 0x089) (fun _ _ _ _ _ _ => rfl) d a b c (0#7 ++ b1 t) g
  have e : ∀ t : Bool, low8 (0#7 ++ b1 t) 0 = t ∧ part8 (0#7 ++ b1 t) 1 7 = 0 := by decide
  refine hp.trans ?_
  simp [kbad4, r.dk, r.ak, r.bk, r.ck, mzero, r.bit, r.sub, e]

theorem F.bfe (o) : F.Statement (.bfe o) := parses rfl fun _ => by
  obtain ⟨t, w, d, a, b, g⟩ := o
  obtain ⟨m, s, hp, r⟩ := encBin_parse (opc := 0x08A) (mk := fun d a m b g => ⟨.bfe ⟨mbit m 6, mbit m 7, kreg (dk m) d, kreg (ak m) a, b.src, g⟩,
      kbad (dk m) d || kbad (ak m) a || b.b5, b.b6 || !mzero m 0 6⟩)
    ⟨fun _ _ _ _ _ _ => rfl, fun _ _ _ _ _ => rfl⟩
    d.num a.num d.isScalar a.isScalar b (b1 w ++ b1 t ++ 0#6) g
  have e : ∀ w t : Bool, let m8 : BitVec 8 := b1 w ++ b1 t ++ 0#6
      low8 m8 7 = w ∧ low8 m8 6 = t ∧ part8 m8 0 6 = 0 := by decide
  refine hp.trans ?_
  simp [r.dk, r.ak, r.src, r.b5, r.b6, mzero, r.bit, r.sub, e]

theorem F.bfi (o) : F.Statement (.bfi o) := parses rfl fun _ => by
  obtain ⟨t, d, a, b, c, g⟩ := o
  obtain ⟨m, hp, r⟩ := encTri_parse (opc := 0x08B) (fun _ _ _ _ _ _ => rfl) d a b c (b1 t ++ 0#7) g
  have e : ∀ t : Bool, low8 (b1 t ++ 0#7) 7 = t ∧ part8 (b1 t ++ 0#7) 0 7 = 0 := by decide
  refine hp.trans ?_
  simp [kbad4, r.dk, r.ak, r.bk, r.ck, mzero, r.bit, r.sub, e]

theorem F.popc (o) : F.Statement (.popc o) := parses rfl fun _ => encLogUn_parse (fun _ _ _ _ _ _ => rfl) o

theorem F.clz (o) : F.Statement (.clz o) := parses rfl fun _ => encLogUn_parse (fun _ _ _ _ _ _ => rfl) o

theorem F.ctz (o) : F.Statement (.ctz o) := parses rfl fun _ => encLogUn_parse (fun _ _ _ _ _ _ => rfl) o

theorem F.brev (o) : F.Statement (.brev o) := parses rfl fun _ => encLogUn_parse (fun _ _ _ _ _ _ => rfl) o

theorem F.prmt (o) : F.Statement (.prmt o) := parses rfl fun hw => by
  obtain ⟨t, d, a, b, c, g⟩ := o
  have ht : t = false := by obtain ⟨_, h⟩ := hw; simp [Instr.wf, Instr.fieldsOk] at h; exact h.2.1
  obtain ⟨m, hp, r⟩ := encTri_parse (opc := 0x090) (fun _ _ _ _ _ _ => rfl) d a b c 0 g
  have e : part8 (0#8) 0 8 = 0 := by decide
  refine hp.trans ?_
  simp [kbad4, r.dk, r.ak, r.bk, r.ck, mzero, r.sub, e, ht]

theorem F.pand (o) : F.Statement (.pand o) := parses rfl fun _ => encPredBin_parse (fun _ _ _ _ _ _ => rfl) o

theorem F.por (o) : F.Statement (.por o) := parses rfl fun _ => encPredBin_parse (fun _ _ _ _ _ _ => rfl) o

theorem F.pxor (o) : F.Statement (.pxor o) := parses rfl fun _ => encPredBin_parse (fun _ _ _ _ _ _ => rfl) o

theorem F.pnot (o) : F.Statement (.pnot o) := parses rfl fun _ => by
  obtain ⟨na, pd, pa, g⟩ := o
  have e : ∀ na : Bool, let m : BitVec 12 := 0#10 ++ b1 na ++ 0#1
      mbit m 1 = na ∧ mbit m 0 = false ∧ mzero m 2 10 = true := by decide
  refine some_parsed ?_ ?_ ?_ <;> simp [e]

theorem F.pmov (f g) : F.Statement (.pmov f g) := by
  cases f with
  | pp na pd pa =>
    refine parses rfl fun _ => ?_
    have e : ∀ na : Bool, let m : BitVec 12 := 0#10 ++ b1 na ++ 0#1
        mbit m 1 = na ∧ mbit m 0 = false ∧ mzero m 4 8 = true ∧ (m.extractLsb' 2 2 : BitVec 2).toNat = 0 := by decide
    cases na <;> exact some_parsed (by simp [e]) (by simp) (by simp [e])
  | toV v => exact parses rfl fun _ => rfl
  | fromV v => exact parses rfl fun _ => rfl

theorem F.fadd (o) : F.Statement (.fadd o) := parses rfl fun _ => encFBin_parse ⟨fun _ _ _ _ _ _ => rfl, fun _ _ _ _ _ => rfl⟩ o

theorem F.fmul (o) : F.Statement (.fmul o) := parses rfl fun _ => encFBin_parse ⟨fun _ _ _ _ _ _ => rfl, fun _ _ _ _ _ => rfl⟩ o

theorem F.ffma (o) : F.Statement (.ffma o) := parses rfl fun _ => by
  obtain ⟨f, rn, z, na, nb, nc, d, a, b, c, g⟩ := o
  have e : ∀ (f : PFmt) (rn : Rnd) (z na nb nc : Bool), let m8 : BitVec 8 := f.enc ++ rn.enc ++ b1 z ++ b1 na ++ b1 nb ++ b1 nc
      pfmt2 (part8 m8 6 2) = f ∧ rnd2 (part8 m8 4 2) = rn ∧ low8 m8 3 = z ∧ low8 m8 2 = na ∧ low8 m8 1 = nb ∧
      low8 m8 0 = nc ∧ part8 m8 6 2 ≠ 3#2 := by
    intro f rn; cases f <;> cases rn <;> decide
  obtain ⟨m, hp, r⟩ := encTri_parse (opc := 0x0C2) (fun _ _ _ _ _ _ => rfl) d a b c
    (f.enc ++ rn.enc ++ b1 z ++ b1 na ++ b1 nb ++ b1 nc) g
  refine hp.trans ?_
  simp [kbad4, r.dk, r.ak, r.bk, r.ck, r.bit, r.sub, e]

theorem F.fmin (o) : F.Statement (.fmin o) := parses rfl fun _ => encFBin_parse ⟨fun _ _ _ _ _ _ => rfl, fun _ _ _ _ _ => rfl⟩ o

theorem F.fmax (o) : F.Statement (.fmax o) := parses rfl fun _ => encFBin_parse ⟨fun _ _ _ _ _ _ => rfl, fun _ _ _ _ _ => rfl⟩ o

theorem F.fdiv (o) : F.Statement (.fdiv o) := parses rfl fun _ => encFBin_parse ⟨fun _ _ _ _ _ _ => rfl, fun _ _ _ _ _ => rfl⟩ o

theorem F.fset (o) : F.Statement (.fset o) := parses rfl fun _ => encFSet_parse ⟨fun _ _ _ _ _ _ => rfl, fun _ _ _ _ _ => rfl⟩ o

theorem F.fclass (o) : F.Statement (.fclass o) := parses rfl fun _ => encFUn_parse (fun _ _ _ _ _ _ => rfl) o

theorem F.frnd (o) : F.Statement (.frnd o) := parses rfl fun _ => encFUn_parse (fun _ _ _ _ _ _ => rfl) o

theorem F.fscale (o) : F.Statement (.fscale o) := parses rfl fun _ => by
  obtain ⟨rn, z, na, d, a, b, g⟩ := o
  have e : ∀ (rn : Rnd) (z na : Bool), let m8 : BitVec 8 := 0#2 ++ rn.enc ++ b1 z ++ b1 na ++ 0#2
      rnd2 (part8 m8 4 2) = rn ∧ low8 m8 3 = z ∧ low8 m8 2 = na ∧ part8 m8 0 2 = 0 ∧ part8 m8 6 2 = 0 := by
    intro rn; cases rn <;> decide
  obtain ⟨m, s, hp, r⟩ := encBin_parse (opc := 0x0C8) (mk := fun d a m b g => ⟨.fscale ⟨rnd2 (m.extractLsb' 4 2), mbit m 3, mbit m 2, kreg (dk m) d, kreg (ak m) a, b.src, g⟩,
      kbad (dk m) d || kbad (ak m) a || b.b5, b.b6 || !mzero m 0 2 || !mzero m 6 2⟩)
    ⟨fun _ _ _ _ _ _ => rfl, fun _ _ _ _ _ => rfl⟩
    d.num a.num d.isScalar a.isScalar b (0#2 ++ rn.enc ++ b1 z ++ b1 na ++ 0#2) g
  refine hp.trans ?_
  simp [r.dk, r.ak, r.src, r.b5, r.b6, mzero, r.bit, r.sub, e]

theorem F.rcp (o) : F.Statement (.rcp o) := parses rfl fun _ => encFUn_parse (fun _ _ _ _ _ _ => rfl) o

theorem F.rsq (o) : F.Statement (.rsq o) := parses rfl fun _ => encFUn_parse (fun _ _ _ _ _ _ => rfl) o

theorem F.sqrt (o) : F.Statement (.sqrt o) := parses rfl fun _ => encFUn_parse (fun _ _ _ _ _ _ => rfl) o

theorem F.exp2 (o) : F.Statement (.exp2 o) := parses rfl fun _ => encFUn_parse (fun _ _ _ _ _ _ => rfl) o

theorem F.log2 (o) : F.Statement (.log2 o) := parses rfl fun _ => encFUn_parse (fun _ _ _ _ _ _ => rfl) o

theorem F.sin (o) : F.Statement (.sin o) := parses rfl fun _ => encFUn_parse (fun _ _ _ _ _ _ => rfl) o

theorem F.cos (o) : F.Statement (.cos o) := parses rfl fun _ => encFUn_parse (fun _ _ _ _ _ _ => rfl) o

theorem F.tanh (o) : F.Statement (.tanh o) := parses rfl fun _ => encFUn_parse (fun _ _ _ _ _ _ => rfl) o

theorem F.dadd (o) : F.Statement (.dadd o) := parses rfl fun _ => encDBin_parse ⟨fun _ _ _ _ _ _ => rfl, fun _ _ _ _ _ => rfl⟩ o

theorem F.dmul (o) : F.Statement (.dmul o) := parses rfl fun _ => encDBin_parse ⟨fun _ _ _ _ _ _ => rfl, fun _ _ _ _ _ => rfl⟩ o

theorem F.dfma (o) : F.Statement (.dfma o) := parses rfl fun _ => by
  obtain ⟨rn, na, nb, nc, d, a, b, c, g⟩ := o
  have e : ∀ (rn : Rnd) (na nb nc : Bool), let m8 : BitVec 8 := 0#2 ++ rn.enc ++ 0#1 ++ b1 na ++ b1 nb ++ b1 nc
      rnd2 (part8 m8 4 2) = rn ∧ low8 m8 2 = na ∧ low8 m8 1 = nb ∧ low8 m8 0 = nc ∧ low8 m8 3 = false ∧
      part8 m8 6 2 = 0 := by
    intro rn; cases rn <;> decide
  obtain ⟨m, hp, r⟩ := encTri_parse (opc := 0x102) (fun _ _ _ _ _ _ => rfl) d a b c
    (0#2 ++ rn.enc ++ 0#1 ++ b1 na ++ b1 nb ++ b1 nc) g
  refine hp.trans ?_
  simp [kbad4, r.dk, r.ak, r.bk, r.ck, mzero, r.bit, r.sub, e]

theorem F.dmin (o) : F.Statement (.dmin o) := parses rfl fun _ => encDBin_parse ⟨fun _ _ _ _ _ _ => rfl, fun _ _ _ _ _ => rfl⟩ o

theorem F.dmax (o) : F.Statement (.dmax o) := parses rfl fun _ => encDBin_parse ⟨fun _ _ _ _ _ _ => rfl, fun _ _ _ _ _ => rfl⟩ o

theorem F.dset (o) : F.Statement (.dset o) := parses rfl fun _ => encFSet_parse ⟨fun _ _ _ _ _ _ => rfl, fun _ _ _ _ _ => rfl⟩ o

theorem F.dclass (o) : F.Statement (.dclass o) := parses rfl fun _ => encDUn_parse (fun _ _ _ _ _ _ => rfl) o

theorem F.dfrnd (o) : F.Statement (.dfrnd o) := parses rfl fun _ => encDUn_parse (fun _ _ _ _ _ _ => rfl) o

theorem F.dscale (o) : F.Statement (.dscale o) := parses rfl fun _ => encDBin_parse ⟨fun _ _ _ _ _ _ => rfl, fun _ _ _ _ _ => rfl⟩ o

theorem F.drcp (o) : F.Statement (.drcp o) := parses rfl fun _ => encDUn_parse (fun _ _ _ _ _ _ => rfl) o

theorem F.drsq (o) : F.Statement (.drsq o) := parses rfl fun _ => encDUn_parse (fun _ _ _ _ _ _ => rfl) o

theorem F.dsqrt (o) : F.Statement (.dsqrt o) := parses rfl fun _ => encDUn_parse (fun _ _ _ _ _ _ => rfl) o

theorem F.ddiv (o) : F.Statement (.ddiv o) := parses rfl fun _ => encDBin_parse ⟨fun _ _ _ _ _ _ => rfl, fun _ _ _ _ _ => rfl⟩ o

theorem F.cvt (o) : F.Statement (.cvt o) := parses rfl fun _ => encCvt_parse (fun _ _ _ _ _ _ => rfl) o

theorem F.fcvt (o) : F.Statement (.fcvt o) := parses rfl fun _ => encCvt_parse (fun _ _ _ _ _ _ => rfl) o

theorem F.qpack (o) : F.Statement (.qpack o) := parses rfl fun _ => by
  obtain ⟨q, rn, d, a, b, g⟩ := o
  have h := (by decide : ∀ (x : Bool) (q : BitVec 4) (r : BitVec 2), let m : BitVec 12 := 0#2 ++ b1 x ++ 0#1 ++ q ++ r ++ 0#2
      m.extractLsb' 4 4 = q ∧ m.extractLsb' 2 2 = r ∧ dk m = false ∧ ak m = false ∧ bk m = x ∧ ck m = false ∧
      mzero m 0 2 = true) b.isScalar q rn.enc
  refine some_parsed ?_ ?_ ?_
  all_goals generalize (0#2 ++ b1 b.isScalar ++ 0#1 ++ q ++ rn.enc ++ 0#2 : BitVec 12) = m at *
  all_goals simp [h]

theorem F.qunpk (o) : F.Statement (.qunpk o) := parses rfl fun hw => by
  obtain ⟨q, rn, d, a, b, g⟩ := o
  have hs : rn = .rne ∧ b.isScalar = false := by
    obtain ⟨_, h⟩ := hw
    simp [Instr.wf, Instr.fieldsOk] at h
    exact ⟨h.2.1.2, h.2.2⟩
  obtain ⟨rfl, hb⟩ := hs
  cases b with
  | s n => cases hb
  | v n =>
    have e : ∀ q : BitVec 4, let m : BitVec 12 := 0#4 ++ q ++ 0#4
        m.extractLsb' 4 4 = q ∧ dk m = false ∧ ak m = false ∧ bk m = false ∧ ck m = false ∧ mzero m 0 4 = true := by decide
    refine some_parsed ?_ ?_ ?_ <;> simp [e, kreg, kbad, Reg.num]

theorem F.qscale (o) : F.Statement (.qscale o) := parses rfl fun _ => by
  obtain ⟨q, d, a, g⟩ := o
  obtain ⟨m, hp, r⟩ := encUn_parse (opc := 0x144) (fun _ _ _ _ _ _ => rfl) d a (q ++ 0#4) g
  have e : ∀ q : BitVec 4, part8 (q ++ 0#4) 4 4 = q ∧ part8 (q ++ 0#4) 0 4 = 0 := by decide
  refine hp.trans ?_
  simp [unused2, r.dk, r.ak, r.bk, r.ck, mzero, r.sub, e]

theorem F.amax (o) : F.Statement (.amax o) := parses rfl fun _ => by
  obtain ⟨f, d, a, b, g⟩ := o
  have r := modPartsR d.isScalar a.isScalar b.isScalar (f ++ 0#4)
  have e : ∀ f : BitVec 4, part8 (f ++ 0#4) 4 4 = f ∧ part8 (f ++ 0#4) 0 4 = 0 := by decide
  have q : (b1 d.isScalar ++ b1 a.isScalar ++ b1 b.isScalar ++ 0#1 ++ f ++ 0#4 : BitVec 12) =
      b1 d.isScalar ++ b1 a.isScalar ++ b1 b.isScalar ++ 0#1 ++ (f ++ 0#4) := by rw [BitVec.append_assoc]; rfl
  simp only [q]
  refine some_parsed ?_ ?_ ?_ <;> simp [r.dk, r.ak, r.bk, r.ck, mzero, r.sub, e]

theorem F.vote (o) : F.Statement (.vote o) := parses rfl fun _ => by
  obtain ⟨op, G, pd, pa, g⟩ := o
  have h := (by decide : ∀ (G : Bool) (op : BitVec 2), let m : BitVec 12 := b1 G ++ b1 false ++ b1 false ++ 0#2 ++ 0#3 ++ op.setWidth 4
      mbit m 11 = G ∧ mzero m 7 2 = true ∧ (m.extractLsb' 0 4).setWidth 2 = op ∧ mzero m 4 3 = true ∧ mbit m 10 = false ∧ mbit m 9 = false ∧ (m.extractLsb' 0 4).toNat < 4) G op
  refine some_parsed ?_ ?_ ?_
  all_goals generalize (b1 G ++ b1 false ++ b1 false ++ 0#2 ++ 0#3 ++ op.setWidth 4 : BitVec 12) = m at *
  all_goals simp [h, -BitVec.extractLsb'_toNat]

theorem F.ballot (o) : F.Statement (.ballot o) := parses rfl fun _ => by
  obtain ⟨G, d, pa, g⟩ := o
  have h := (by decide : ∀ G k : Bool, let m : BitVec 12 := b1 G ++ b1 k ++ b1 false ++ 0#2 ++ 0#3 ++ 0#4
      mbit m 11 = G ∧ mzero m 7 2 = true ∧ mbit m 10 = k ∧ mzero m 4 3 = true ∧ mzero m 0 4 = true ∧ mbit m 9 = false) G d.isScalar
  refine some_parsed ?_ ?_ ?_
  all_goals generalize (b1 G ++ b1 d.isScalar ++ b1 false ++ 0#2 ++ 0#3 ++ 0#4 : BitVec 12) = m at *
  all_goals simp [h, -BitVec.extractLsb'_toNat]

theorem F.shfl (o) : F.Statement (.shfl o) := by
  obtain ⟨op, G, pr, d, a, b, g⟩ := o
  cases b with
  | inl b =>
    refine parses rfl fun _ => ?_
    have e := lane_parts G false false pr op
    refine some_parsed ?_ ?_ ?_ <;> simp [e]
  | inr i =>
    refine parses rfl fun _ => ?_
    have e := lane_parts G false false pr op
    have q : (b1 G ++ 0#4 ++ pr ++ op : BitVec 12) = b1 G ++ b1 false ++ b1 false ++ 0#2 ++ pr ++ op := by
      have : ∀ G : Bool, (b1 G ++ 0#4 : BitVec 5) = b1 G ++ b1 false ++ b1 false ++ 0#2 := by decide
      exact congrArg (fun t : BitVec 5 => (t ++ pr ++ op : BitVec 12)) (this G)
    simp only [q]
    refine some_parsed ?_ ?_ ?_ <;> simp [e]

theorem F.redux (o) : F.Statement (.redux o) := parses rfl fun _ => by
  obtain ⟨op, G, x, d, a, g⟩ := o
  have h := (by decide : ∀ (G x : Bool) (op : BitVec 4), let m : BitVec 12 := b1 G ++ b1 false ++ b1 x ++ 0#2 ++ 0#3 ++ op
      mbit m 11 = G ∧ mzero m 7 2 = true ∧ mbit m 10 = false ∧ mzero m 4 3 = true ∧ mbit m 9 = x ∧ m.extractLsb' 0 4 = op) G x op
  refine some_parsed ?_ ?_ ?_
  all_goals generalize (b1 G ++ b1 false ++ b1 x ++ 0#2 ++ 0#3 ++ op : BitVec 12) = m at *
  all_goals simp [h, -BitVec.extractLsb'_toNat]

theorem F.scan (o) : F.Statement (.scan o) := parses rfl fun _ => by
  obtain ⟨op, G, x, d, a, g⟩ := o
  have h := (by decide : ∀ (G x : Bool) (op : BitVec 4), let m : BitVec 12 := b1 G ++ b1 false ++ b1 x ++ 0#2 ++ 0#3 ++ op
      mbit m 11 = G ∧ mzero m 7 2 = true ∧ mbit m 10 = false ∧ mzero m 4 3 = true ∧ mbit m 9 = x ∧ m.extractLsb' 0 4 = op) G x op
  refine some_parsed ?_ ?_ ?_
  all_goals generalize (b1 G ++ b1 false ++ b1 x ++ 0#2 ++ 0#3 ++ op : BitVec 12) = m at *
  all_goals simp [h, -BitVec.extractLsb'_toNat]

theorem F.match_ (o) : F.Statement (.match_ o) := parses rfl fun _ => by
  obtain ⟨w, G, pr, d, a, g⟩ := o
  have h := (by decide : ∀ (w G : Bool) (pr : BitVec 3), let m : BitVec 12 := b1 G ++ b1 false ++ b1 false ++ 0#2 ++ pr ++ (if w then 1#4 else 0#4)
      mbit m 11 = G ∧ mzero m 7 2 = true ∧ mbit m 10 = false ∧ m.extractLsb' 4 3 = pr ∧ mbit m 9 = false ∧ (m.extractLsb' 0 4 == 1#4) = w ∧ (m.extractLsb' 0 4).toNat < 2) w G pr
  refine some_parsed ?_ ?_ ?_
  all_goals generalize (b1 G ++ b1 false ++ b1 false ++ 0#2 ++ pr ++ (if w then 1#4 else 0#4) : BitVec 12) = m at *
  all_goals simp [h, -BitVec.extractLsb'_toNat]

theorem F.elect (G pd g) : F.Statement (.elect G pd g) := parses rfl fun _ => by
  have e : ∀ G : Bool, let m : BitVec 12 := b1 G ++ b1 false ++ b1 false ++ 0#2 ++ 0#3 ++ 0#4
      mbit m 11 = G ∧ mbit m 10 = false ∧ mbit m 9 = false ∧ mzero m 7 2 = true ∧ mzero m 4 3 = true ∧ mzero m 0 4 = true := by
    decide
  refine some_parsed ?_ ?_ ?_ <;> simp [e]

theorem F.regroup (va sb) : F.Statement (.regroup va sb) := parses rfl fun _ =>
  some_parsed (by simp) (sc64_e6 sb) rfl

theorem F.xmget (sd) : F.Statement (.xmget sd) := parses rfl fun _ => some_parsed (by simp) (sc64_e6 sd) rfl

theorem F.xmset (x) : F.Statement (.xmset x) := by
  cases x with
  | inl a => exact parses rfl fun _ => some_parsed (by simp) (sc64_e6 a) rfl
  | inr i => exact parses rfl fun _ => rfl

theorem F.ld (o) : F.Statement (.ld o) := parses rfl fun hw => by
  refine (enc7_parse rfl ?_).trans ?_
  · obtain ⟨c, h⟩ := hw
    simp [Instr.wf, Instr.fieldsOk] at h
    intro x hx
    simp_all
  · simp [parse7, mem_read, orElse', -BitVec.extractLsb'_toNat]

theorem F.st (o) : F.Statement (.st o) := parses rfl fun hw => by
  refine (enc7_parse rfl ?_).trans ?_
  · obtain ⟨c, h⟩ := hw
    simp [Instr.wf, Instr.fieldsOk] at h
    intro x hx
    simp_all
  · simp [parse7, mem_read, orElse', -BitVec.extractLsb'_toNat]

theorem F.ldu (o) : F.Statement (.ldu o) := parsesWith rfl fun hw => by
  obtain ⟨⟨x, hf⟩, hp, hd⟩ : (∃ x, o.form = .fi x) ∧ o.pr = 0 ∧ o.data.toNat < 64 := by
    obtain ⟨c, h⟩ := hw
    cases hf : o.form <;> simp_all [Instr.wf, Instr.fieldsOk, Instr.fieldsOk.isFi]
  refine ⟨by rw [encMem, hf]; exact accepted_fm rfl, (enc7_parse rfl fun _ _ => hp).trans ?_⟩
  simp [parse7, mem_read, orElse', sc64, e6, -BitVec.extractLsb'_toNat]
  omega

theorem F.stu (o) : F.Statement (.stu o) := parsesWith rfl fun hw => by
  obtain ⟨⟨x, hf⟩, hp, hd⟩ : (∃ x, o.form = .fi x) ∧ o.pr = 0 ∧ o.data.toNat < 64 := by
    obtain ⟨c, h⟩ := hw
    cases hf : o.form <;> simp_all [Instr.wf, Instr.fieldsOk, Instr.fieldsOk.isFi]
  refine ⟨by rw [encMem, hf]; exact accepted_fm rfl, (enc7_parse rfl fun _ _ => hp).trans ?_⟩
  simp [parse7, mem_read, orElse', sc64, e6, -BitVec.extractLsb'_toNat]
  omega

theorem F.ldf (o) : F.Statement (.ldf o) := parsesWith rfl fun hw => by
  obtain ⟨ix, hf⟩ : ∃ ix, o.form = .f ix := by
    obtain ⟨c, h⟩ := hw
    cases hf : o.form <;> simp [Instr.wf, Instr.fieldsOk, Instr.fieldsOk.isFi, hf] at h ⊢
  refine ⟨by rw [encMem, hf]; exact accepted_f rfl, (enc7_parse rfl (by simp [hf])).trans ?_⟩
  simp [parse7, mem_read, orElse', -BitVec.extractLsb'_toNat]

theorem F.stf (o) : F.Statement (.stf o) := parsesWith rfl fun hw => by
  obtain ⟨ix, hf⟩ : ∃ ix, o.form = .f ix := by
    obtain ⟨c, h⟩ := hw
    cases hf : o.form <;> simp [Instr.wf, Instr.fieldsOk, Instr.fieldsOk.isFi, hf] at h ⊢
  refine ⟨by rw [encMem, hf]; exact accepted_f rfl, (enc7_parse rfl (by simp [hf])).trans ?_⟩
  simp [parse7, mem_read, orElse', -BitVec.extractLsb'_toNat]

theorem F.pref (o) : F.Statement (.pref o) := parses rfl fun _ => by
  obtain ⟨home, sp, po, base, idx, form, g⟩ := o
  refine (enc7_parse rfl fun _ _ => rfl).trans ?_
  have h : let m : BitVec 12 := sp.enc ++ 0#7 ++ po.enc
      space3 (m.extractLsb' 9 3) = sp ∧ m.extractLsb' 6 3 = 0#3 ∧ m.extractLsb' 2 4 = 0#4 ∧ pol2 (m.extractLsb' 0 2) = po ∧
      ¬5 ≤ (m.extractLsb' 9 3).toNat := by
    cases sp <;> cases po <;> decide
  generalize (sp.enc ++ 0#7 ++ po.enc : BitVec 12) = m at *
  cases home <;> simp [parse7, h, -BitVec.extractLsb'_toNat]

theorem F.cctlInv (o) : F.Statement (.cctlInv o) := parses rfl fun _ => by
  refine (enc7_parse rfl fun _ h => by cases h).trans ?_
  simp [parse7, cctl_read, MemForm.ix, -BitVec.extractLsb'_toNat]

theorem F.cctlWb (o) : F.Statement (.cctlWb o) := parses rfl fun _ => by
  refine (enc7_parse rfl fun _ h => by cases h).trans ?_
  simp [parse7, cctl_read, MemForm.ix, -BitVec.extractLsb'_toNat]

theorem F.cctlLock (o) : F.Statement (.cctlLock o) := parses rfl fun _ => by
  refine (enc7_parse rfl fun _ h => by cases h).trans ?_
  simp [parse7, cctl_read, MemForm.ix, -BitVec.extractLsb'_toNat]

theorem F.cctlUnlock (o) : F.Statement (.cctlUnlock o) := parses rfl fun _ => by
  refine (enc7_parse rfl fun _ h => by cases h).trans ?_
  simp [parse7, cctl_read, MemForm.ix, -BitVec.extractLsb'_toNat]

theorem F.cctlInvall (sp) : F.Statement (.cctlInvall sp) := parses rfl fun _ => by
  cases sp <;> rfl

theorem F.cctlIinv (o) : F.Statement (.cctlIinv o) := parses rfl fun _ => by
  refine (enc7_parse rfl fun _ h => by cases h).trans ?_
  simp [parse7, cctl_read, MemForm.ix, -BitVec.extractLsb'_toNat]

theorem F.atom (o) : F.Statement (.atom o) := parses rfl fun hw => by
  have hs : o.space = .g ∨ o.space = .s ∨ o.space = .c := by
    obtain ⟨c, h⟩ := hw
    simp [Instr.wf, Instr.fieldsOk, Instr.fieldsOk.atomOk] at h
    simp_all [or_assoc]
  obtain ⟨h1, h2, h3, h4, h5⟩ := atom_read o hs
  refine some_parsed ?_ ?_ ?_ <;> simp [h1, h2, h3, h4, h5, orElse']

theorem F.red (o) : F.Statement (.red o) := parses rfl fun hw => by
  have hs : o.space = .g ∨ o.space = .s ∨ o.space = .c := by
    obtain ⟨c, h⟩ := hw
    simp [Instr.wf, Instr.fieldsOk, Instr.fieldsOk.atomOk] at h
    simp_all [or_assoc]
  obtain ⟨h1, h2, h3, h4, h5⟩ := atom_read o hs
  refine some_parsed ?_ ?_ ?_ <;> simp [h1, h2, h3, h4, h5, orElse']

theorem F.cas (o) : F.Statement (.cas o) := parses rfl fun hw => by
  have hs : o.space = .g ∨ o.space = .s ∨ o.space = .c := by
    obtain ⟨c, h⟩ := hw
    simp [Instr.wf, Instr.fieldsOk, Instr.fieldsOk.atomOk] at h
    simp_all [or_assoc]
  obtain ⟨h1, h2, h3, h4, h5⟩ := atom_read o hs
  refine some_parsed ?_ ?_ ?_ <;> simp [h1, h2, h3, h4, h5, orElse']

theorem F.fence (s) : F.Statement (.fence s) := parses rfl fun _ => by
  cases s with
  | relaxed => rfl
  | acq s => cases s <;> rfl
  | rel s => cases s <;> rfl
  | ar s => cases s <;> rfl

theorem F.waita (o) : F.Statement (.waita o) := parses rfl fun hw => by
  have hs : o.space = .g ∨ o.space = .s ∨ o.space = .c := by
    obtain ⟨c, h⟩ := hw
    simp [Instr.wf, Instr.fieldsOk, Instr.fieldsOk.atomOk] at h
    simp_all [or_assoc]
  obtain ⟨h1, h2, h3, h4, h5⟩ := atom_read o hs
  refine some_parsed ?_ ?_ ?_ <;> simp [h1, h2, h3, h4, h5, orElse']

theorem F.waitaWake (o) : F.Statement (.waitaWake o) := noFields rfl

theorem F.watchDrop (o) : F.Statement (.watchDrop o) := noFields rfl

theorem F.waitge (sc a b) : F.Statement (.waitge sc a b) := parses rfl fun _ => by
  cases sc <;> exact some_parsed (by simp; rfl) (by simp) (by simp; decide)

theorem F.cpy (f g) : F.Statement (.cpy f g) := by
  cases f with
  | short dsp ssp d a len dd sd =>
    refine parses rfl fun _ => some_parsed ?_ rfl rfl
    have h2 : ∀ (x : BitVec 2) (y : BitVec 6), (x ++ y).extractLsb' 6 2 = x ∧ (x ++ y).extractLsb' 0 6 = y := by
      intro x y; exact ⟨(append_high x y (lo := 6) (by decide)).trans (whole x), (append_low x y (lo := 0) (by decide)).trans (whole y)⟩
    have h3 : let i : BitVec 32 := len ++ dd ++ sd
        i.extractLsb' 20 12 = len ∧ i.extractLsb' 10 10 = dd ∧ i.extractLsb' 0 10 = sd :=
      ⟨(append_high (len ++ dd) sd (lo := 20) (by decide)).trans ((append_high len dd (lo := 10) (by decide)).trans (whole len)),
       (append_high (len ++ dd) sd (lo := 10) (by decide)).trans ((append_low len dd (lo := 0) (by decide)).trans (whole dd)),
       (append_low (len ++ dd) sd (lo := 0) (by decide)).trans (whole sd)⟩
    obtain ⟨k1, k2, k3⟩ := h3
    rw [k1, k2, k3, (h2 dsp d).1, (h2 dsp d).2, (h2 ssp a).1, (h2 ssp a).2]
  | full dsp ssp mode cmp crc lb lbs d a b c =>
    refine parses rfl fun _ => ?_
    have h := (by decide +kernel : ∀ (dsp ssp mode cmp : BitVec 2) (crc lb : Bool) (lbs : BitVec 2),
      let m : BitVec 12 := dsp ++ ssp ++ mode ++ cmp ++ b1 crc ++ b1 lb ++ lbs
      m.extractLsb' 10 2 = dsp ∧ m.extractLsb' 8 2 = ssp ∧ m.extractLsb' 6 2 = mode ∧ m.extractLsb' 4 2 = cmp ∧
      mbit m 3 = crc ∧ mbit m 2 = lb ∧ m.extractLsb' 0 2 = lbs) dsp ssp mode cmp crc lb lbs
    refine some_parsed ?_ ?_ ?_
    all_goals generalize (dsp ++ ssp ++ mode ++ cmp ++ b1 crc ++ b1 lb ++ lbs : BitVec 12) = m at *
    all_goals simp [h]

theorem F.cpg (o) : F.Statement (.cpg o) := parses rfl fun _ => by
  obtain ⟨dsp, cmp, d, a, b, c, g⟩ := o
  have h := (by decide : ∀ dsp cmp : BitVec 2, let m : BitVec 12 := dsp ++ 0#4 ++ cmp ++ 0#4
      m.extractLsb' 10 2 = dsp ∧ m.extractLsb' 4 2 = cmp ∧ mzero m 6 4 = true ∧ mzero m 0 4 = true) dsp cmp
  refine some_parsed ?_ ?_ ?_
  all_goals generalize (dsp ++ 0#4 ++ cmp ++ 0#4 : BitVec 12) = m at *
  all_goals simp [h, -BitVec.extractLsb'_toNat]

theorem F.cpbat (sd) : F.Statement (.cpbat sd) := parses rfl fun _ => some_parsed (by simp) (sc64_e6 sd) rfl

theorem F.cpwait (x) : F.Statement (.cpwait x) := by
  cases x with
  | inl a => exact parses rfl fun _ => some_parsed (by simp) (sc64_e6 a) rfl
  | inr i => exact parses rfl fun _ => rfl

theorem F.etail (a b g) : F.Statement (.etail a b g) := parses rfl fun _ => some_parsed (by simp) (by simp) rfl

theorem F.rec_ (x a b c g) : F.Statement (.rec_ x a b c g) := parses rfl fun _ => by
  have h := (by decide : ∀ x : Bool, let m : BitVec 12 := 0#1 ++ b1 x ++ 0#10
      (m.extractLsb' 10 2 == 1#2) = x ∧ mzero m 0 10 = true ∧ mbit m 11 = false) x
  refine some_parsed ?_ ?_ ?_
  all_goals generalize (0#1 ++ b1 x ++ 0#10 : BitVec 12) = m at *
  all_goals simp [h, -BitVec.extractLsb'_toNat]

theorem F.dense (o) : F.Statement (.dense o) := parses rfl fun _ => some_parsed (by simp) rfl (by simp)

theorem F.mma (o) : F.Statement (.mma o) := parses rfl fun hw => by
  obtain ⟨f, mx, sb, zs, as, bs, la, d, a, b, c⟩ := o
  have hl : la = 0 := by
    obtain ⟨_, h⟩ := hw
    simp [Instr.wf, Instr.fieldsOk] at h
    simp_all
  subst hl
  have h := (by decide +kernel : ∀ (f : BitVec 3) (mx : Bool) (sb : BitVec 2) (zs as : Bool) (bs : Bool), let m : BitVec 12 := 0#1 ++ f ++ b1 mx ++ sb ++ b1 zs ++ b1 as ++ (b1 bs ++ 0#2)
      m.extractLsb' 8 3 = f ∧ mbit m 7 = mx ∧ m.extractLsb' 5 2 = sb ∧ mbit m 4 = zs ∧ mbit m 3 = as ∧ mbit m 11 = false ∧ mbit m 2 = bs ∧ mzero m 0 2 = true) f mx sb zs as bs
  refine some_parsed ?_ ?_ ?_
  all_goals simp only [encMmaM]
  all_goals generalize (0#1 ++ f ++ b1 mx ++ sb ++ b1 zs ++ b1 as ++ (b1 bs ++ 0#2) : BitVec 12) = m at *
  all_goals simp [h, -BitVec.extractLsb'_toNat]

theorem F.mmah (o) : F.Statement (.mmah o) := parses rfl fun hw => by
  obtain ⟨f, mx, sb, zs, as, bs, la, d, a, b, c⟩ := o
  have hl : bs = false := by
    obtain ⟨_, h⟩ := hw
    simp [Instr.wf, Instr.fieldsOk] at h
    simp_all
  subst hl
  have h := (by decide +kernel : ∀ (f : BitVec 3) (mx : Bool) (sb : BitVec 2) (zs as : Bool) (la : BitVec 2), let m : BitVec 12 := 0#1 ++ f ++ b1 mx ++ sb ++ b1 zs ++ b1 as ++ (0#1 ++ la)
      m.extractLsb' 8 3 = f ∧ mbit m 7 = mx ∧ m.extractLsb' 5 2 = sb ∧ mbit m 4 = zs ∧ mbit m 3 = as ∧ mbit m 11 = false ∧ mbit m 2 = false ∧ m.extractLsb' 0 2 = la) f mx sb zs as la
  refine some_parsed ?_ ?_ ?_
  all_goals simp only [encMmaM]
  all_goals generalize (0#1 ++ f ++ b1 mx ++ sb ++ b1 zs ++ b1 as ++ (0#1 ++ la) : BitVec 12) = m at *
  all_goals simp [h, -BitVec.extractLsb'_toNat]

theorem F.mfence (va n) : F.Statement (.mfence va n) := parses rfl fun _ => by
  have h := (by decide : ∀ n : BitVec 4, let m : BitVec 12 := 0#8 ++ n
      m.extractLsb' 0 4 = n ∧ mzero m 4 8 = true) n
  refine some_parsed ?_ ?_ ?_
  all_goals generalize (0#8 ++ n : BitVec 12) = m at *
  all_goals simp [h, -BitVec.extractLsb'_toNat]

theorem F.mwait (t x) : F.Statement (.mwait t x) := parses rfl fun _ => by
  have h := (by decide : ∀ x : Bool, let m : BitVec 12 := 0#11 ++ b1 x
      mbit m 0 = x ∧ mzero m 1 11 = true) x
  refine some_parsed ?_ ?_ ?_
  all_goals generalize (0#11 ++ b1 x : BitVec 12) = m at *
  all_goals simp [h, -BitVec.extractLsb'_toNat]

theorem F.aclr (t n g) : F.Statement (.aclr t n g) := parses rfl fun _ => by
  have h := (by decide : ∀ n : BitVec 4, let m : BitVec 12 := 0#8 ++ n
      m.extractLsb' 0 4 = n ∧ mzero m 4 8 = true) n
  refine some_parsed ?_ ?_ ?_
  all_goals generalize (0#8 ++ n : BitVec 12) = m at *
  all_goals simp [h, -BitVec.extractLsb'_toNat]

theorem F.afill (x t sa n g) : F.Statement (.afill x t sa n g) := parses rfl fun _ => by
  have h := (by decide : ∀ (x : Bool) (n : BitVec 4), let m : BitVec 12 := 0#7 ++ b1 x ++ n
      m.extractLsb' 0 4 = n ∧ mbit m 4 = x ∧ mzero m 5 7 = true) x n
  refine some_parsed ?_ ?_ ?_
  all_goals generalize (0#7 ++ b1 x ++ n : BitVec 12) = m at *
  all_goals simp [h, -BitVec.extractLsb'_toNat]

theorem F.adrain (o) : F.Statement (.adrain o) := parses rfl fun _ => by
  obtain ⟨f, ds, rn, sat, sc, hh, d, a, b, c, g⟩ := o
  have H := (by decide +kernel : ∀ (f : BitVec 3) (ds : Bool) (rn : BitVec 2) (sat : Bool) (sc : BitVec 3) (hh : Bool),
      let m : BitVec 12 := f ++ b1 ds ++ rn ++ b1 sat ++ sc ++ b1 hh ++ 0#1
      m.extractLsb' 9 3 = f ∧ mbit m 8 = ds ∧ m.extractLsb' 6 2 = rn ∧ mbit m 5 = sat ∧ m.extractLsb' 2 3 = sc ∧
      mbit m 1 = hh ∧ mbit m 0 = false) f ds rn.enc sat
  cases sc with
  | none =>
    have h := H 0#3 hh
    refine some_parsed ?_ ?_ ?_
    all_goals generalize (f ++ b1 ds ++ rn.enc ++ b1 sat ++ 0#3 ++ b1 hh ++ 0#1 : BitVec 12) = m at *
    all_goals simp [h, show scope3 0#3 = none from rfl, -BitVec.extractLsb'_toNat]
  | some s =>
    have h := H s.enc hh
    have k : s.enc.toNat < 6 := by cases s <;> decide
    refine some_parsed ?_ ?_ ?_
    all_goals generalize (f ++ b1 ds ++ rn.enc ++ b1 sat ++ s.enc ++ b1 hh ++ 0#1 : BitVec 12) = m at *
    all_goals simp [h, k, -BitVec.extractLsb'_toNat]

theorem F.amov (x v t g) : F.Statement (.amov x v t g) := by
  cases x <;> exact parses rfl fun _ => rfl

theorem F.nmcall (o) : F.Statement (.nmcall o) := parses rfl fun _ => by
  obtain ⟨ent, x, d, a, b, c, g⟩ := o
  have h := (by decide : ∀ (ent : BitVec 6) (x : Bool), let m : BitVec 12 := ent ++ (if x then 9#4 else 8#4) ++ 0#2
      m.extractLsb' 6 6 = ent ∧ (m.extractLsb' 2 4 == 9#4) = x ∧ mzero m 0 2 = true ∧
      (m.extractLsb' 2 4 != 8#4 && m.extractLsb' 2 4 != 9#4) = false) ent x
  refine some_parsed ?_ ?_ ?_
  all_goals generalize (ent ++ (if x then 9#4 else 8#4) ++ 0#2 : BitVec 12) = m at *
  · rw [h.1, h.2.1]; simp
  · rfl
  · rw [h.2.2.1, h.2.2.2]; simp

theorem F.nmclose (a d g) : F.Statement (.nmclose a d g) := parses rfl fun _ => some_parsed (by simp) rfl (by simp)

theorem F.embag (r o) : F.Statement (.embag r o) := parses rfl fun _ => by
  obtain ⟨d, a, b, c, g⟩ := o
  have h := (by decide : ∀ r : BitVec 2, let m : BitVec 12 := r ++ 0#10
      m.extractLsb' 10 2 = r ∧ mzero m 0 10 = true) r
  refine some_parsed ?_ ?_ ?_
  all_goals generalize (r ++ 0#10 : BitVec 12) = m at *
  all_goals simp [h, -BitVec.extractLsb'_toNat]

theorem F.bar (n) : F.Statement (.bar n) := parses rfl fun _ => by
  have h := (by decide : ∀ n : BitVec 4, let m : BitVec 12 := 0#8 ++ n
      m.extractLsb' 0 4 = n ∧ mzero m 4 8 = true) n
  refine some_parsed ?_ ?_ ?_
  all_goals generalize (0#8 ++ n : BitVec 12) = m at *
  all_goals simp [h, -BitVec.extractLsb'_toNat]

theorem F.cbar (n) : F.Statement (.cbar n) := parses rfl fun _ => by
  have h := (by decide : ∀ n : BitVec 2, let m : BitVec 12 := 0#10 ++ n
      m.extractLsb' 0 2 = n ∧ mzero m 2 10 = true) n
  refine some_parsed ?_ ?_ ?_
  all_goals generalize (0#10 ++ n : BitVec 12) = m at *
  all_goals simp [h, -BitVec.extractLsb'_toNat]

theorem F.mbinit (a b g) : F.Statement (.mbinit a b g) := parses rfl fun _ => some_parsed (by simp) (by simp) rfl

theorem F.mbarv (d a n g) : F.Statement (.mbarv d a n g) := parses rfl fun _ => by
  have h := (by decide : ∀ n : BitVec 8, let m : BitVec 12 := 0#4 ++ n
      m.extractLsb' 0 8 = n ∧ mzero m 8 4 = true) n
  refine some_parsed ?_ ?_ ?_
  all_goals generalize (0#4 ++ n : BitVec 12) = m at *
  all_goals simp [h, -BitVec.extractLsb'_toNat]

theorem F.mbexp (d a b n g) : F.Statement (.mbexp d a b n g) := parses rfl fun _ => by
  have h := (by decide : ∀ n : BitVec 8, let m : BitVec 12 := 0#4 ++ n
      m.extractLsb' 0 8 = n ∧ mzero m 8 4 = true) n
  refine some_parsed ?_ ?_ ?_
  all_goals generalize (0#4 ++ n : BitVec 12) = m at *
  all_goals simp [h, -BitVec.extractLsb'_toNat]

theorem F.mbwait (a b p) : F.Statement (.mbwait a b p) := parses rfl fun _ => by
  have h := (by decide : ∀ p : BitVec 3, let m : BitVec 12 := 0#9 ++ p
      m.extractLsb' 0 3 = p ∧ mzero m 3 9 = true) p
  refine some_parsed ?_ ?_ ?_
  all_goals generalize (0#9 ++ p : BitVec 12) = m at *
  all_goals simp [h, -BitVec.extractLsb'_toNat]

theorem F.mbinv (a g) : F.Statement (.mbinv a g) := parses rfl fun _ => some_parsed (by simp) (by simp) rfl

theorem F.trap (code g) : F.Statement (.trap code g) := parses rfl fun _ => by
  have h := (by decide : ∀ c : BitVec 8, let i : BitVec 32 := 0#24 ++ c
      i.setWidth 8 = c ∧ i.extractLsb' 8 24 = 0#24) code
  exact some_parsed (by rw [h.1]) rfl (by rw [h.2]; rfl)

theorem F.rte : F.Statement .rte := parses rfl fun _ => rfl

theorem F.bkpt (g) : F.Statement (.bkpt g) := parses rfl fun _ => rfl

theorem F.srd (d sr g) : F.Statement (.srd d sr g) := parses rfl fun _ => by
  have h := (by decide : ∀ k : Bool, let m : BitVec 12 := b1 k ++ 0#11
      mbit m 11 = k ∧ mzero m 0 11 = true) d.isScalar
  refine some_parsed ?_ ?_ ?_
  all_goals generalize (b1 d.isScalar ++ 0#11 : BitVec 12) = m at *
  all_goals simp [h, -BitVec.extractLsb'_toNat]

theorem F.swr (sr a) : F.Statement (.swr sr a) := parses rfl fun _ => some_parsed (by simp) (by simp) rfl

theorem F.pmev (n ev) : F.Statement (.pmev n ev) := parses rfl fun _ => by
  have h : (0#16 ++ ev : BitVec 32).setWidth 16 = ev ∧ (0#16 ++ ev : BitVec 32).extractLsb' 16 16 = 0#16 :=
    ⟨(BitVec.setWidth_eq_extractLsb' (show (16 : Nat) ≤ 16 + 16 by decide)).trans
      ((append_low (0#16) ev (lo := 0) (len := 16) (by decide)).trans (whole ev)),
     (append_high (0#16) ev (lo := 16) (by decide)).trans (whole _)⟩
  exact some_parsed (by rw [h.1]; simp) rfl (by rw [h.2]; simp; omega)

theorem F.longLatencyWriteback (o) : F.Statement (.longLatencyWriteback o) := noFields rfl

theorem F.icacheFill (x0) (x1) : F.Statement (.icacheFill x0 x1) := noFields rfl

theorem F.pageWalk (o) : F.Statement (.pageWalk o) := noFields rfl

theorem F.homeAccess (o) : F.Statement (.homeAccess o) := noFields rfl

theorem F.storeAnswer (o) : F.Statement (.storeAnswer o) := noFields rfl

theorem F.flushMarker (x0) (x1) : F.Statement (.flushMarker x0 x1) := noFields rfl

theorem F.leaseExpiry (o) : F.Statement (.leaseExpiry o) := noFields rfl

theorem F.peerProbe (x0) (x1) : F.Statement (.peerProbe x0 x1) := noFields rfl

theorem F.scratchpadRemoteAccess (o) : F.Statement (.scratchpadRemoteAccess o) := noFields rfl

theorem F.hostSnoop (o) : F.Statement (.hostSnoop o) := noFields rfl

theorem F.hostMemRead (x0) (x1) : F.Statement (.hostMemRead x0 x1) := noFields rfl

theorem F.hostMemWrite (x0) (x1) : F.Statement (.hostMemWrite x0 x1) := noFields rfl

theorem F.copyComplete (o) : F.Statement (.copyComplete o) := noFields rfl

theorem F.barrierArrival (o) : F.Statement (.barrierArrival o) := noFields rfl

theorem F.matrixOpComplete (o) : F.Statement (.matrixOpComplete o) := noFields rfl

theorem F.mmahFetch (o) : F.Statement (.mmahFetch o) := noFields rfl

theorem F.zitherCallStart (o) : F.Statement (.zitherCallStart o) := noFields rfl

theorem F.zitherCallEnd (o) : F.Statement (.zitherCallEnd o) := noFields rfl

theorem F.roundCloseAck (o) : F.Statement (.roundCloseAck o) := noFields rfl

theorem F.embagComplete (o) : F.Statement (.embagComplete o) := noFields rfl

theorem F.kick (x0) (x1) (x2) : F.Statement (.kick x0 x1 x2) := noFields rfl

theorem F.theorboRound (o) : F.Statement (.theorboRound o) := noFields rfl

theorem F.abort (o) : F.Statement (.abort o) := noFields rfl

theorem F.resetQueue (o) : F.Statement (.resetQueue o) := noFields rfl

theorem F.fencePacket (o) : F.Statement (.fencePacket o) := noFields rfl

theorem F.waitPacket (o) : F.Statement (.waitPacket o) := noFields rfl

theorem F.waitTimeout (o) : F.Statement (.waitTimeout o) := noFields rfl

theorem F.signal (o) : F.Statement (.signal o) := noFields rfl

theorem F.graph (o) : F.Statement (.graph o) := noFields rfl

theorem F.launch (o) : F.Statement (.launch o) := noFields rfl

theorem F.nodeRecord (o) : F.Statement (.nodeRecord o) := noFields rfl

theorem F.chainPacket (o) : F.Statement (.chainPacket o) := noFields rfl

theorem F.nopPacket (o) : F.Statement (.nopPacket o) := noFields rfl

theorem F.dispatch : F.Statement (.dispatch) := noFields rfl

theorem F.ageingTick (o) : F.Statement (.ageingTick o) := noFields rfl

theorem F.rampWindow (o) : F.Statement (.rampWindow o) := noFields rfl

theorem F.teamStart (o) : F.Statement (.teamStart o) := noFields rfl

theorem F.powerGate (o) : F.Statement (.powerGate o) := noFields rfl

theorem F.coreWake (o) : F.Statement (.coreWake o) := noFields rfl

theorem F.nodeTimerLapse (o) : F.Statement (.nodeTimerLapse o) := noFields rfl

theorem F.graphNodeStart (x0) (x1) : F.Statement (.graphNodeStart x0 x1) := noFields rfl

theorem F.phintWindowExpiry (o) : F.Statement (.phintWindowExpiry o) := noFields rfl

theorem F.teamSave (o) : F.Statement (.teamSave o) := noFields rfl

theorem F.teamRestore (o) : F.Statement (.teamRestore o) := noFields rfl

theorem F.retire (o) : F.Statement (.retire o) := noFields rfl

theorem F.galliardStart (o) : F.Statement (.galliardStart o) := noFields rfl

theorem F.galliardStop (o) : F.Statement (.galliardStop o) := noFields rfl

theorem F.galliardAttempt (o) : F.Statement (.galliardAttempt o) := noFields rfl

theorem F.recordRetire (x0) (x1) : F.Statement (.recordRetire x0 x1) := noFields rfl

theorem F.denseServe (o) : F.Statement (.denseServe o) := noFields rfl

theorem F.blockTransfer (o) : F.Statement (.blockTransfer o) := noFields rfl

theorem F.citternFact (o) : F.Statement (.citternFact o) := noFields rfl

theorem F.citternSolve (o) : F.Statement (.citternSolve o) := noFields rfl

theorem F.citternFsolve (o) : F.Statement (.citternFsolve o) := noFields rfl

theorem F.citternGmres (o) : F.Statement (.citternGmres o) := noFields rfl

theorem F.cteSend (o) : F.Statement (.cteSend o) := noFields rfl

theorem F.cteBlockReceive (x0) (x1) (x2) (x3) (x4) : F.Statement (.cteBlockReceive x0 x1 x2 x3 x4) := noFields rfl

theorem F.cteAck (x0) (x1) (x2) (x3) : F.Statement (.cteAck x0 x1 x2 x3) := noFields rfl

theorem F.cteResend (x0) (x1) (x2) : F.Statement (.cteResend x0 x1 x2) := noFields rfl

theorem F.parzonFlit (x0) (x1) (x2) : F.Statement (.parzonFlit x0 x1 x2) := noFields rfl

theorem F.linkTraining (x0) (x1) : F.Statement (.linkTraining x0 x1) := noFields rfl

theorem F.ethernetFrame (x0) (x1) : F.Statement (.ethernetFrame x0 x1) := noFields rfl

theorem F.mailboxWriteWhileBusy (x0) (x1) : F.Statement (.mailboxWriteWhileBusy x0 x1) := noFields rfl

theorem F.stsRead (o) : F.Statement (.stsRead o) := noFields rfl

theorem F.evtClear (x0) (x1) : F.Statement (.evtClear x0 x1) := noFields rfl

theorem F.registerWrite (x0) (x1) (x2) : F.Statement (.registerWrite x0 x1 x2) := noFields rfl

theorem F.functionLevelReset (o) : F.Statement (.functionLevelReset o) := noFields rfl

theorem F.spdmGetCertificate (x0) (x1) : F.Statement (.spdmGetCertificate x0 x1) := noFields rfl

theorem F.spdmChallenge (o) : F.Statement (.spdmChallenge o) := noFields rfl

theorem F.spdmGetMeasurements (o) : F.Statement (.spdmGetMeasurements o) := noFields rfl

theorem F.spdmKeyExchange (o) : F.Statement (.spdmKeyExchange o) := noFields rfl

theorem F.spdmFinish (o) : F.Statement (.spdmFinish o) := noFields rfl

theorem F.boot (o) : F.Statement (.boot o) := noFields rfl

theorem F.fatalError (x0) (x1) : F.Statement (.fatalError x0 x1) := noFields rfl

theorem F.patrolScrub (o) : F.Statement (.patrolScrub o) := noFields rfl

theorem F.settleDeadline (o) : F.Statement (.settleDeadline o) := noFields rfl

theorem F.ideKmMessage (x0) (x1) : F.Statement (.ideKmMessage x0 x1) := noFields rfl

theorem F.msixUnmask (x0) (x1) : F.Statement (.msixUnmask x0 x1) := noFields rfl

theorem F.loadModule (o) : F.Statement (.loadModule o) := noFields rfl

theorem F.setRoot (o) : F.Statement (.setRoot o) := noFields rfl

theorem F.invalidate (o) : F.Statement (.invalidate o) := noFields rfl

theorem F.createQueue (o) : F.Statement (.createQueue o) := noFields rfl

theorem F.destroyQueue (o) : F.Statement (.destroyQueue o) := noFields rfl

theorem F.resumeQueue (o) : F.Statement (.resumeQueue o) := noFields rfl

theorem F.createNode (o) : F.Statement (.createNode o) := noFields rfl

theorem F.destroyNode (o) : F.Statement (.destroyNode o) := noFields rfl

theorem F.registerChain (o) : F.Statement (.registerChain o) := noFields rfl

theorem F.resumeChain (o) : F.Statement (.resumeChain o) := noFields rfl

theorem F.dropChain (o) : F.Statement (.dropChain o) := noFields rfl

theorem F.faultCfg (o) : F.Statement (.faultCfg o) := noFields rfl

theorem F.faultRead (o) : F.Statement (.faultRead o) := noFields rfl

theorem F.replayAll (o) : F.Statement (.replayAll o) := noFields rfl

theorem F.debugAttach (o) : F.Statement (.debugAttach o) := noFields rfl

theorem F.debugDetach (o) : F.Statement (.debugDetach o) := noFields rfl

theorem F.debugStop (o) : F.Statement (.debugStop o) := noFields rfl

theorem F.debugRead (o) : F.Statement (.debugRead o) := noFields rfl

theorem F.debugWrite (o) : F.Statement (.debugWrite o) := noFields rfl

theorem F.cteWindow (o) : F.Statement (.cteWindow o) := noFields rfl

theorem F.cteEndpoint (o) : F.Statement (.cteEndpoint o) := noFields rfl

theorem F.partSet (o) : F.Statement (.partSet o) := noFields rfl

theorem F.partReset (o) : F.Statement (.partReset o) := noFields rfl

theorem F.peerSet (o) : F.Statement (.peerSet o) := noFields rfl

theorem F.portMode (o) : F.Statement (.portMode o) := noFields rfl

theorem F.fecfg (o) : F.Statement (.fecfg o) := noFields rfl

theorem F.writeSlot (o) : F.Statement (.writeSlot o) := noFields rfl

theorem F.bootOnce (o) : F.Statement (.bootOnce o) := noFields rfl

theorem F.commit (o) : F.Statement (.commit o) := noFields rfl

theorem F.zreload (o) : F.Statement (.zreload o) := noFields rfl

theorem F.dumpRead (o) : F.Statement (.dumpRead o) := noFields rfl

theorem F.dumpClear (o) : F.Statement (.dumpClear o) := noFields rfl

theorem F.dumpConfig (o) : F.Statement (.dumpConfig o) := noFields rfl

theorem F.unknownCommand (o) : F.Statement (.unknownCommand o) := noFields rfl

theorem F.spdmGetVersion : F.Statement (.spdmGetVersion) := noFields rfl

theorem F.spdmGetCapabilities : F.Statement (.spdmGetCapabilities) := noFields rfl

theorem F.spdmNegotiateAlgorithms : F.Statement (.spdmNegotiateAlgorithms) := noFields rfl

theorem F.spdmGetDigests : F.Statement (.spdmGetDigests) := noFields rfl

theorem F.spdmEndSession : F.Statement (.spdmEndSession) := noFields rfl

theorem F.clockThrottle : F.Statement (.clockThrottle) := noFields rfl

theorem F.clockRaise : F.Statement (.clockRaise) := noFields rfl

theorem F.powerLoss : F.Statement (.powerLoss) := noFields rfl

end Sys2Proof.Laws
end

