-- ==== Sys2Proof/Laws/Results.lean ====
section
/-! SUPPORT. What writing a result does: `Issuer.put` and `Issuer.putP` write their registers and nothing else. -/

namespace Sys2Proof.Machine

/-! ## What is left of a group without its registers -/

@[simp] theorem Group.bare_contest (g : Group) (x : Dest) : (g.contest x).bare = g.bare := by
  simp only [Group.bare, Group.contest, List.map_map]
  congr 1
  apply List.map_congr_left
  intro o _
  simp only [Function.comp]
  congr 1
  rw [List.map_map]
  apply List.map_congr_left
  intro it _
  simp only [Function.comp]
  split <;> rfl

@[simp] theorem Group.bare_storeV (g : Group) (l n : Nat) (w : Word32) : (g.storeV l n w).bare = g.bare := by
  unfold Group.storeV; split <;> rfl

@[simp] theorem Group.bare_storeP (g : Group) (l n : Nat) (b : Bool) : (g.storeP l n b).bare = g.bare := by
  unfold Group.storeP; split <;> rfl

@[simp] theorem Group.bare_storeS (g : Group) (m : BitVec 8) (n : Nat) (w : Word64) : (g.storeS m n w).bare = g.bare := by
  unfold Group.storeS
  split
  · rfl
  · simp only [Group.bare, Group.modSlices, List.map_map]
    congr 1
    have : ∀ (l : List Slice) (j : Nat), List.map ((fun s : Slice => { s with s := [] }) ∘ fun (x : Slice × Nat) =>
        if m.getLsbD x.2 = true then { x.1 with s := fset 0 x.1.s n w } else x.1) (l.zipIdx j) =
        l.map fun s => { s with s := [] } := by
      intro l
      induction l with
      | nil => intro j; rfl
      | cons a t ih =>
        intro j
        simp only [List.zipIdx_cons, List.map_cons, ih]
        congr 1
        simp only [Function.comp]
        split <;> rfl
    exact this _ 0

@[simp] theorem Group.bare_writeV (g : Group) (l n : Nat) (w : Word32) : (g.writeV l n w).bare = g.bare := by
  unfold Group.writeV; split <;> simp

@[simp] theorem Group.bare_writeP (g : Group) (l n : Nat) (b : Bool) : (g.writeP l n b).bare = g.bare := by
  unfold Group.writeP; split <;> simp

theorem Group.bare_contests (ks : List Nat) (n : Nat) (g : Group) :
    (ks.foldl (fun g k => g.contest (.s k n)) g).bare = g.bare := by
  induction ks generalizing g with
  | nil => rfl
  | cons x t ih => simp [ih]

@[simp] theorem Group.bare_writeS (g : Group) (m : BitVec 8) (n : Nat) (w : Word64) : (g.writeS m n w).bare = g.bare := by
  unfold Group.writeS; split
  · rfl
  · rw [Group.bare_contests, Group.bare_storeS]

/-- The group as its word's issue leaves it holds the registers it held. -/
structure Issues (i : Issuer) (g0 : Group) : Prop where
  vreg : ∀ l n, g0.vreg l n = i.grp.vreg l n
  pred : ∀ l n, g0.pred l n = i.grp.pred l n
  sreg : ∀ k n, g0.sreg k n = i.grp.sreg k n
  len  : g0.slices.length = i.grp.slices.length

theorem Group.sreg_modSlices (g : Group) (m : BitVec 8) (f : Nat → Slice → Slice) (hf : ∀ k s, (f k s).s = s.s) (k n : Nat) :
    (g.modSlices m f).sreg k n = g.sreg k n := by
  unfold Group.sreg
  split
  · rfl
  · rw [Group.slice_modSlices]; split
    · rw [hf]
    · rfl

theorem issues_advance (i : Issuer) (after : Bool) : Issues i (i.grp.advance i.sp after) := by
  have h := Group.advance_keeps i.grp i.sp after
  refine ⟨fun l n => by unfold Group.vreg; rw [h.2.1], fun l n => by unfold Group.pred; rw [h.2.2.1], fun k n => ?_, h.2.2.2.2⟩
  unfold Group.advance Group.countOnce
  simp only
  split
  · exact Group.sreg_modSlices i.grp i.sp.mask (fun _ s => { s with pc := s.pc + 8 }) (fun _ _ => rfl) k n
  · exact Group.sreg_modSlices i.grp.countIssue i.sp.mask (fun _ s => { s with pc := s.pc + 8 }) (fun _ _ => rfl) k n

/-- Nothing written. -/
theorem wrote_nothing {i : Issuer} {g0 : Group} (h : Issues i g0) {v p s} (hv : ∀ l, l < 32 → ∀ n, v l n = none)
    (hp : ∀ l, l < 32 → ∀ n, n < 8 → p l n = none) (hs : ∀ k n, s k n = none) : Wrote i g0 g0 v p s :=
  ⟨rfl, fun l hl n => by rw [hv l hl]; exact h.vreg l n, fun l hl n hn => by rw [hp l hl n hn]; exact h.pred l n,
    fun k n => by rw [hs]; exact h.sreg k n⟩

/-! ## Register results -/

theorem Group.vreg_writeLane (g : Group) {l l' : Nat} (w64 : Bool) (n m : Nat) (x : Word64) (h : l < 32) (h' : l' < 32) :
    (g.writeLane w64 l n x).vreg l' m = (laneWrites [l] w64 n (fun _ => x) l' m).getD (g.vreg l' m) := by
  have e : (x >>> 32).setWidth 32 = x.extractLsb' 32 32 := by
    apply BitVec.eq_of_getLsbD_eq; intro i hi; simp [hi]
  unfold Group.writeLane laneWrites
  cases w64
  · simp only [Bool.false_eq_true, if_false, false_and, List.mem_singleton]
    rw [Group.vreg_writeV g n m _ h h']
    by_cases a : l' = l <;> by_cases b : m = n <;> by_cases c : m = 255 <;> simp_all
  · simp only [if_true, true_and, List.mem_singleton, Group.writeV64]
    rw [Group.vreg_writeV _ (n + 1) m _ h h', Group.vreg_writeV g n m _ h h', e]
    by_cases a : l' = l <;> by_cases b : m = n <;> by_cases c : m = 255 <;> by_cases d : m = n + 1 <;> simp_all <;> omega

@[simp] theorem Group.pred_writeLane (g : Group) (w64 : Bool) (l n : Nat) (x : Word64) (l' m : Nat) :
    (g.writeLane w64 l n x).pred l' m = g.pred l' m := by
  unfold Group.writeLane Group.writeV64; split <;> simp

@[simp] theorem Group.sreg_writeLane (g : Group) (w64 : Bool) (l n : Nat) (x : Word64) (k m : Nat) :
    (g.writeLane w64 l n x).sreg k m = g.sreg k m := by
  unfold Group.writeLane Group.writeV64; split <;> simp

@[simp] theorem Group.bare_writeLane (g : Group) (w64 : Bool) (l n : Nat) (x : Word64) :
    (g.writeLane w64 l n x).bare = g.bare := by
  unfold Group.writeLane Group.writeV64; split <;> simp

/-- A result written lane by lane. -/
theorem writeLanes_spec (w64 : Bool) (n : Nat) (f : Nat → Word64) (ls : List Nat) (hl : ∀ l ∈ ls, l < 32) (g : Group) :
    let g' := ls.foldl (fun g l => g.writeLane w64 l n (f l)) g
    g'.bare = g.bare ∧ (∀ l, l < 32 → ∀ m, g'.vreg l m = (laneWrites ls w64 n f l m).getD (g.vreg l m)) ∧
    (∀ l m, g'.pred l m = g.pred l m) ∧ (∀ k m, g'.sreg k m = g.sreg k m) := by
  induction ls generalizing g with
  | nil => exact ⟨rfl, fun l _ m => by simp [laneWrites], fun _ _ => rfl, fun _ _ => rfl⟩
  | cons a t ih =>
    obtain ⟨h1, h2, h3, h4⟩ := ih (fun l h => hl l (List.mem_cons_of_mem _ h)) (g.writeLane w64 a n (f a))
    refine ⟨by simpa using h1, fun l hlt m => ?_, fun l m => by simpa using h3 l m, fun k m => by simpa using h4 k m⟩
    rw [List.foldl_cons, h2 l hlt m, Group.vreg_writeLane g w64 n m (f a) (hl a (List.mem_cons_self ..)) hlt]
    unfold laneWrites
    cases w64 <;> by_cases c : l ∈ t <;> by_cases e : l = a <;> by_cases z : m = 255 <;> by_cases y : m = n <;>
      by_cases w : m = n + 1 <;> simp_all

theorem scalarResult_eq (w64 sgn : Bool) (x : Word64) : scalarResult w64 sgn x = asScalar w64 sgn x := by
  have : x.extractLsb' 0 32 = x.setWidth 32 := by apply BitVec.eq_of_getLsbD_eq; intro i hi; simp [hi]
  unfold scalarResult asScalar; rw [this]

/-- What `put` does. -/
theorem put_wrote {i : Issuer} {g0 : Group} (h : Issues i g0) (d : Reg) (w64 sgn : Bool) (gd : Guard) (f : Nat → Word64) :
    WroteReg i g0 (i.put d w64 sgn gd f g0) d w64 sgn gd f := by
  cases d with
  | v n =>
    obtain ⟨h1, h2, h3, h4⟩ := writeLanes_spec w64 n.toNat f (i.on gd) (fun l hl => Issuer.on_lt hl) g0
    exact ⟨h1, fun l hl m => by rw [← h.vreg]; exact h2 l hl m, fun l _ m _ => by rw [← h.pred]; exact h3 l m,
      fun k m => by rw [← h.sreg]; exact h4 k m⟩
  | s n =>
    simp only [WroteReg, Issuer.put]
    cases e : i.on gd with
    | nil => exact wrote_nothing h (fun _ _ _ => rfl) (fun _ _ _ _ => rfl) (fun _ _ => rfl)
    | cons l t =>
      refine ⟨by simp, fun l _ m => by simpa [untouched] using h.vreg l m, fun l _ m _ => by simpa [untouched] using h.pred l m,
        fun k m => ?_⟩
      rw [Group.sreg_writeS, h.len, h.sreg, scalarResult_eq]
      simp only [scalarWrites]
      by_cases a : i.sp.mask.getLsbD k = true ∧ k < i.grp.slices.length ∧ m = n.toNat
      · by_cases b : m = 63 <;> simp_all
      · rw [if_neg (fun x => a ⟨x.1, x.2.1, x.2.2.1⟩), if_neg (fun x => a ⟨x.1, x.2.1, x.2.2.1⟩)]; rfl

/-- What `putP` does. -/
theorem putP_wrote {i : Issuer} {g0 : Group} (h : Issues i g0) (pd : BitVec 3) (gd : Guard) (f : Nat → Bool) :
    WrotePred i g0 (i.putP pd gd f g0) pd gd f := by
  have key : ∀ (ls : List Nat) (g : Group), let g' := ls.foldl (fun g l => g.writeP l pd.toNat (f l)) g
      g'.bare = g.bare ∧ (∀ l m, g'.vreg l m = g.vreg l m) ∧ (∀ l m, m < 8 → g'.pred l m =
        (if l ∈ ls ∧ m = pd.toNat ∧ m ≠ 7 then some (f l) else none).getD (g.pred l m)) ∧ (∀ k m, g'.sreg k m = g.sreg k m) := by
    intro ls
    induction ls with
    | nil => intro g; exact ⟨rfl, fun _ _ => rfl, fun l m _ => by simp, fun _ _ => rfl⟩
    | cons a t ih =>
      intro g
      obtain ⟨h1, h2, h3, h4⟩ := ih (g.writeP a pd.toNat (f a))
      refine ⟨by simpa using h1, fun l m => by simpa using h2 l m, fun l m hm => ?_, fun k m => by simpa using h4 k m⟩
      rw [List.foldl_cons, h3 l m hm, Group.pred_writeP g (f a) pd.isLt hm]
      by_cases c : l ∈ t <;> by_cases e : l = a <;> by_cases z : m = 7 <;> by_cases y : m = pd.toNat <;> simp_all
  obtain ⟨h1, h2, h3, h4⟩ := key (i.on gd) g0
  exact ⟨h1, fun l _ m => by rw [← h.vreg]; exact h2 l m, fun l _ m hm => by rw [← h.pred]; exact h3 l m hm,
    fun k m => by rw [← h.sreg]; exact h4 k m⟩

/-- A fixed-latency word with a register result. -/
theorem aluStep_gives {s : State} {i : Issuer} {ins : Instr} {r : RegResult} (h : s.dev.issuer? = some i)
    (f : Issuer → Nat → Word64) (he : exec ins s = aluStep s r.d r.w64 r.sgn r.g f) (hv : ∀ l ∈ i.on r.g, r.val l (f i l)) :
    GivesReg ins s i r :=
  ⟨f i, hv, _, put_wrote (issues_advance i false) r.d r.w64 r.sgn r.g (f i), he.trans (withGroup_next false _ h)⟩

/-- A fixed-latency word with a predicate result. -/
theorem predStep_gives {s : State} {i : Issuer} {ins : Instr} {pd : BitVec 3} {gd : Guard} {val : Nat → Bool → Prop}
    (h : s.dev.issuer? = some i) (f : Issuer → Nat → Bool) (he : exec ins s = predStep s pd gd f)
    (hv : ∀ l ∈ i.on gd, val l (f i l)) : GivesPred ins s i pd gd val :=
  ⟨f i, hv, _, putP_wrote (issues_advance i false) pd gd (f i), he.trans (withGroup_next false _ h)⟩

end Sys2Proof.Machine
end

