-- ==== Sys2Proof/Tests/Slice0.lean ====
section
/-! SUPPORT. Checks of the model's own author: which terms the encodings refuse, words of the spec decoded, single steps on
small states, and for each obligation a state and operands that meet what it assumes. -/

set_option Elab.async false

namespace Sys2Proof.Machine

/-! ## What WellFormed refuses -/

def c256 : LaunchCtx := ⟨256, 32, false⟩
def c16 : LaunchCtx := ⟨16, 32, false⟩
def gA : Guard := ⟨7, false⟩
def i32 : IntTy := ⟨false, false⟩
def i64 : IntTy := ⟨true, false⟩
def ib (ty : IntTy) (sat : Bool) (d a : Reg) (b : Src) : IntBin := ⟨ty, sat, d, a, b, gA⟩
def it (ty : IntTy) (sat : Bool) (d a b c : Reg) : IntTri := ⟨ty, sat, d, a, b, c, gA⟩
def lb (b64 : Bool) (d a : Reg) (b : Src) : LogBin := ⟨b64, d, a, b, gA⟩
def fb (f : PFmt) (r : Rnd) (ftz : Bool) (b : Src) : FBin := ⟨f, r, ftz, false, false, .v 0, .v 1, b, gA⟩
def fu (f : PFmt) (r : Rnd) (ftz na : Bool) : FUn := ⟨f, r, ftz, na, .v 0, .v 1, gA⟩
def db (r : Rnd) (nb : Bool) (d a : Reg) : DBin := ⟨r, false, nb, d, a, .reg (.v 4), gA⟩
def mo (sp : Space) (w : Wid) (o : MemOrd) (p : Pol) (data idx : BitVec 8) (f : MemForm) (pr : BitVec 3) : MemOp :=
  ⟨sp, w, o, p, data, 2, idx, f, pr, gA⟩
def co (sp : Space) (idx : BitVec 8) (ix : Bool) (pr : BitVec 3) : CctlOp := ⟨sp, 2, idx, ix, pr, gA⟩
def ao (sp : Space) (w64 : Bool) (s : Sem) (op : BitVec 4) (d c : BitVec 8) : AtomOp := ⟨sp, w64, s, op, d, 4, 5, c, gA⟩
def mm (fmt : BitVec 3) (mx zs asp bsp : Bool) (sb la : BitVec 2) (a b c : BitVec 8) : MmaOp := ⟨fmt, mx, sb, zs, asp, bsp, la, 0, a, b, c⟩
def ad (fmt : BitVec 3) (r : Rnd) (sat dspS h : Bool) (sc : Option Scope) (c : BitVec 6) : DrainOp :=
  ⟨fmt, dspS, r, sat, sc, h, 10, 0, 63, c, gA⟩

def allRefused (c : LaunchCtx) (l : List Instr) : Bool := l.all fun i => !i.wf c
def allTaken (c : LaunchCtx) (l : List Instr) : Bool := l.all fun i => i.wf c

/-- Registers beyond the launch (R89): destination, sources, runs, pairs of slots. -/
theorem test_registers_refused : allRefused c16 [
    .iadd (ib i32 false (.v 16) (.v 0) (.imm 0)), .iadd (ib i32 false (.v 0) (.v 16) (.imm 0)), .iadd (ib i32 false (.v 0) (.v 0) (.reg (.v 16))),
    .iadd3 (it i32 false (.v 0) (.v 0) (.v 0) (.v 16)), .imadw (it i32 false (.v 0) (.v 0) (.v 16) (.v 0)), .isad (it i32 false (.v 16) (.v 0) (.v 0) (.v 0)),
    .iabs ⟨false, false, .v 0, .v 16, gA⟩, .idot4 ⟨false, false, false, .v 0, .v 0, .v 0, .v 16, gA⟩, .iset ⟨i32, 0, 0, .v 16, .imm 0, gA⟩,
    .sel ⟨false, .v 0, .v 0, .v 16, 0, gA⟩, .lea ⟨i32, 0, .v 16, .v 0, .imm 0, gA⟩, .mov ⟨false, .v 0, .v 16, gA⟩, .movi (.v 16) 0 gA, .movw (.v 16) 0 gA,
    .and (lb false (.v 0) (.v 16) (.imm 0)), .shl (lb false (.v 16) (.v 0) (.imm 0)), .bool3 ⟨0, .v 0, .v 0, .v 0, .v 16, gA⟩,
    .funnel ⟨false, .v 0, .v 0, .v 16, .v 0, gA⟩, .bfe ⟨false, false, .v 16, .v 0, .imm 0, gA⟩, .bfi ⟨false, .v 0, .v 0, .v 0, .v 16, gA⟩,
    .popc ⟨false, .v 0, .v 16, gA⟩, .pmov (.toV 16) gA, .pmov (.fromV 16) gA, .brx gA 0 (.v 16), .callx gA (.v 16)] = true ∧
  allRefused c16 [.ffma ⟨.f32, .rne, false, false, false, false, .v 0, .v 0, .v 0, .v 16, gA⟩, .fset ⟨0, false, false, 0, .v 16, .imm 0, gA⟩,
    .fscale ⟨.rne, false, false, .v 16, .v 0, .imm 0, gA⟩, .dfma ⟨.rne, false, false, false, .v 0, .v 0, .v 0, .v 16, gA⟩,
    .dclass ⟨.rne, false, .v 0, .v 16, gA⟩, .cvt ⟨0, 1, .rne, false, .v 0, .v 16, gA⟩, .qpack ⟨12, .rne, 0, 13, .v 0, gA⟩, .qunpk ⟨12, .rne, 13, 0, .v 0, gA⟩,
    .qscale ⟨12, .v 0, .v 16, gA⟩, .amax ⟨8, .v 0, .v 0, .v 16, gA⟩, .ballot ⟨false, .v 16, 0, gA⟩, .shfl ⟨0, false, 0, 0, 0, .inl 16, gA⟩,
    .redux ⟨0, false, false, 16, 0, gA⟩, .match_ ⟨false, false, 0, 0, 16, gA⟩, .regroup 16 0, .ld (mo .g .b128 .relaxed .ca 13 255 (.f false) 0),
    .pref ⟨false, .g, .ca, 0, 16, .f false, gA⟩, .cctlInv (co .g 16 false 0), .atom (ao .g false .relaxed 0 16 0), .red ⟨.g, false, .relaxed, 0, 0, 4, 16, 0, gA⟩,
    .cas (ao .g false .relaxed 0 0 15), .cpg ⟨1, 0, 0, 0, 16, 0, gA⟩, .mma (mm 0 false false false false 0 0 9 0 0), .mmah (mm 4 false false false false 0 0 0 0 16),
    .mfence 15 1, .amov false 9 0 gA, .srd (.v 16) 0 gA, .pairedWord ⟨1, 16, 0, 0, 7⟩ ⟨0, 0, 0, 0, 7⟩] = true ∧
  allTaken c16 [.iadd (ib i32 false (.v 15) (.v 255) (.reg (.v 0))), .ld (mo .g .b128 .relaxed .ca 12 255 (.f false) 0), .mfence 15 0] = true := by decide

/-- Class 1 and 2 forms: a scalar destination with a vector source, odd pairs, SAT and W64 where they have no place. -/
theorem test_integer_forms_refused : allRefused c256 [
    .iadd (ib i32 false (.s 0) (.v 0) (.imm 0)), .iadd (ib i32 false (.s 0) (.s 0) (.reg (.v 0))), .iadd (ib i64 false (.v 1) (.v 0) (.imm 0)),
    .isub (ib i64 false (.v 0) (.v 1) (.imm 0)), .imul (ib i64 false (.v 0) (.v 0) (.reg (.v 1))), .imulh (ib i32 true (.v 0) (.v 0) (.imm 0)),
    .idiv (ib i32 true (.v 0) (.v 0) (.imm 0)), .irem (ib i32 true (.v 0) (.v 0) (.imm 0)), .imin (ib i32 true (.v 0) (.v 0) (.imm 0)),
    .imax (ib i64 false (.v 1) (.v 0) (.imm 0)), .iadd3 (it i64 false (.v 0) (.v 0) (.v 0) (.v 1)), .imad (it i32 false (.s 0) (.s 0) (.s 0) (.v 0)),
    .imadw (it i64 false (.v 0) (.v 0) (.v 0) (.v 0)), .imadw (it i32 true (.v 0) (.v 0) (.v 0) (.v 0)), .imadw (it i32 false (.v 1) (.v 0) (.v 0) (.v 0)),
    .isad (it i32 true (.v 0) (.v 0) (.v 0) (.v 0)), .isad (it i64 false (.v 0) (.v 0) (.v 0) (.v 0)), .iabs ⟨true, false, .v 0, .v 1, gA⟩,
    .ineg ⟨false, false, .s 0, .v 1, gA⟩, .idot4 ⟨false, false, false, .s 0, .s 0, .v 0, .s 0, gA⟩, .iset ⟨i32, 6, 0, .v 0, .imm 0, gA⟩,
    .iset ⟨i64, 0, 0, .v 1, .imm 0, gA⟩, .sel ⟨true, .v 1, .v 0, .v 0, 0, gA⟩, .lea ⟨i64, 0, .v 0, .v 1, .imm 0, gA⟩, .mov ⟨true, .v 0, .v 1, gA⟩,
    .movw (.v 1) 0 gA, .and (lb true (.v 0) (.v 0) (.reg (.v 1))), .or (lb false (.s 0) (.v 0) (.imm 0)), .shl (lb true (.v 1) (.v 0) (.imm 0)),
    .not ⟨true, .v 1, .v 0, gA⟩, .bool3 ⟨0, .s 0, .s 0, .s 0, .v 0, gA⟩, .funnel ⟨false, .s 0, .v 0, .s 0, .s 0, gA⟩, .prmt ⟨true, .v 0, .v 0, .v 0, .v 0, gA⟩,
    .bfe ⟨false, true, .v 0, .v 1, .imm 0, gA⟩, .bfi ⟨true, .v 0, .v 0, .v 1, .v 0, gA⟩, .popc ⟨true, .v 0, .v 1, gA⟩, .brx gA 0 (.v 1), .callx gA (.v 1)] = true ∧
  allTaken c256 [.iadd (ib i64 true (.v 0) (.v 2) (.imm 7)), .iadd (ib i32 false (.s 0) (.s 1) (.imm 0)), .iset ⟨i32, 5, 0, .v 0, .imm 0, gA⟩,
    .movw (.v 2) 0 gA, .brx gA 0 (.v 2), .mov ⟨false, .s 0, .v 1, gA⟩] = true := by decide

/-- Classes 3 to 5: FTZ and immediates outside FP32, roundings, negation and saturation where they have no place, codes. -/
theorem test_float_forms_refused : allRefused c256 [
    .fadd (fb .f16x2 .rne true (.reg (.v 2))), .fmul (fb .bf16x2 .rne false (.imm 0)), .fmin (fb .f32 .rz false (.reg (.v 2))),
    .fmax (fb .f16x2 .rne false (.imm 0)), .fdiv (fb .f16x2 .rne false (.reg (.v 2))), .ffma ⟨.f16x2, .rne, true, false, false, false, .v 0, .v 0, .v 0, .v 0, gA⟩,
    .fclass (fu .f32 .rz false false), .fclass (fu .f32 .rne false true), .frnd (fu .bf16x2 .rne true false), .rsq (fu .f32 .ru false false),
    .exp2 (fu .f16x2 .rne true false), .fscale ⟨.rne, false, false, .s 0, .v 0, .imm 0, gA⟩, .dadd (db .rne false (.v 1) (.v 0)),
    .dmin (db .rz false (.v 0) (.v 0)), .dscale (db .rne true (.v 0) (.v 0)), .dfma ⟨.rne, false, false, false, .v 0, .v 0, .v 0, .v 1, gA⟩,
    .dset ⟨0, true, false, 0, .v 0, .imm 0, gA⟩, .dclass ⟨.rz, false, .v 0, .v 0, gA⟩, .dfrnd ⟨.rne, false, .v 1, .v 0, gA⟩, .drsq ⟨.rz, false, .v 0, .v 0, gA⟩,
    .cvt ⟨8, 9, .rne, false, .v 0, .v 0, gA⟩, .cvt ⟨12, 0, .rne, false, .v 0, .v 0, gA⟩, .cvt ⟨8, 0, .rne, true, .v 0, .v 0, gA⟩, .cvt ⟨0, 1, .rz, false, .v 0, .v 0, gA⟩,
    .cvt ⟨2, 0, .rne, false, .v 1, .v 0, gA⟩, .fcvt ⟨14, 8, .rne, false, .v 0, .v 0, gA⟩, .fcvt ⟨8, 7, .rne, false, .v 0, .v 0, gA⟩, .qpack ⟨11, .rne, 0, 0, .v 0, gA⟩,
    .qunpk ⟨12, .rz, 0, 0, .v 0, gA⟩, .qunpk ⟨12, .rne, 0, 0, .s 0, gA⟩, .qscale ⟨8, .v 0, .v 0, gA⟩, .amax ⟨9, .v 0, .v 0, .v 0, gA⟩] = true ∧
  allTaken c256 [.fadd (fb .f32 .rd true (.imm 5)), .fdiv (fb .f32 .rz true (.reg (.v 2))), .cvt ⟨1, 8, .rz, false, .v 0, .v 0, gA⟩,
    .cvt ⟨4, 1, .rne, true, .v 0, .v 0, gA⟩, .fcvt ⟨13, 8, .rne, true, .v 0, .v 0, gA⟩, .qpack ⟨5, .rd, 0, 0, .s 0, gA⟩] = true := by decide

/-- Classes 6 to 9. -/
theorem test_memory_forms_refused : allRefused c256 [
    .shfl ⟨5, false, 0, 0, 0, .inr 0, gA⟩, .shfl ⟨0, false, 0, 0, 0, .inr 32, gA⟩, .redux ⟨11, false, false, 0, 0, gA⟩, .redux ⟨0, false, true, 0, 0, gA⟩,
    .scan ⟨11, false, true, 0, 0, gA⟩, .match_ ⟨true, false, 0, 0, 1, gA⟩,
    .ld (mo .g .b32 (.rel .dev) .ca 0 255 (.f false) 0), .st (mo .g .b32 (.acq .dev) .ca 0 255 (.f false) 0), .st (mo .g .s8 .relaxed .ca 0 255 (.f false) 0),
    .ld (mo .s .b32 .relaxed .nl 0 255 (.f false) 0), .ld (mo .p .b32 (.acq .dev) .ca 0 255 (.f false) 0), .ld (mo .p .b32 .relaxed .uc 0 255 (.f false) 0),
    .ld (mo .g .b32 .relaxed .ca 0 5 (.f true) 0), .ld (mo .g .b64 .relaxed .ca 1 255 (.f false) 0), .ld (mo .g .b128 .relaxed .ca 2 255 (.f false) 0),
    .ld (mo .g .b32 .relaxed .ca 0 255 (.f false) 1), .ldu (mo .g .b128 .relaxed .ca 0 255 (.fi 0) 0), .ldu (mo .g .b32 .relaxed .ca 0 254 (.fi 0) 0),
    .ldu (mo .g .b32 .relaxed .ca 0 255 (.f false) 0), .ldu (mo .g .b32 .relaxed .ca 64 255 (.fi 0) 0), .ldf (mo .g .b32 .relaxed .ca 0 255 (.fi 0) 0),
    .pref ⟨false, .s, .ca, 0, 255, .f false, gA⟩, .pref ⟨false, .g, .nl, 0, 255, .f false, gA⟩, .pref ⟨false, .p, .str, 0, 255, .f false, gA⟩,
    .cctlInv (co .s 255 false 0), .cctlWb (co .g 255 false 1), .cctlLock (co .g 5 true 0), .cctlInvall .c, .cctlIinv (co .p 255 false 0),
    .atom (ao .p false .relaxed 0 0 0), .atom (ao .g false .relaxed 10 0 0), .atom (ao .g true .relaxed 0 1 0), .red (ao .g false .relaxed 8 0 0),
    .red (ao .g false (.ar .dev) 0 0 0), .red (ao .g false .relaxed 0 1 0), .cas (ao .g false .relaxed 1 0 0), .cas (ao .g true .relaxed 0 0 2), .fence .relaxed,
    .waita (ao .s false .relaxed 0 0 0), .waita (ao .g false (.rel .dev) 0 0 0)] = true ∧
  allRefused c256 [.cpy (.short 3 0 0 0 0 0 0) gA, .cpy (.full 3 0 0 0 false false 0 0 0 0 0) gA, .cpy (.full 0 0 3 0 false false 0 0 0 0 0) gA,
    .cpy (.full 0 0 0 3 false false 0 0 0 0 0) gA, .cpy (.full 0 0 0 0 true false 0 0 0 0 0) gA, .cpy (.full 0 0 0 0 false true 0 0 0 0 0) gA,
    .cpy (.full 0 0 0 0 false false 1 0 0 0 0) gA, .cpy (.full 0 0 0 0 false false 0 0 0 0 1) gA, .cpy (.full 0 0 1 0 false false 0 0 0 0 0) gA,
    .cpy (.full 1 0 2 0 false false 0 0 0 0 0) gA, .cpy (.full 1 0 1 0 false false 0 0 0 61 0) gA, .cpg ⟨0, 0, 0, 0, 0, 0, gA⟩, .cpg ⟨1, 3, 0, 0, 0, 0, gA⟩,
    .cpg ⟨1, 0, 0, 0, 0, 1, gA⟩, .dense ⟨63, 0, 0, 0, gA⟩] = true ∧
  allTaken c256 [.ld (mo .g .b128 (.acq .sys) .uc 4 6 (.f true) 0), .stu (mo .g .b64 (.rel .sys) .ca 63 255 (.fi 0) 0), .cas (ao .g true .relaxed 0 2 4),
    .cpy (.full 1 0 1 2 false true 1 0 0 60 9) gA, .dense ⟨62, 0, 0, 0, gA⟩] = true := by decide

/-- Classes 10 to 13, headers and pairs. -/
theorem test_unit_forms_refused : allRefused c256 [
    .mma (mm 0 true false false false 0 0 0 0 0), .mma (mm 4 false false false false 1 0 0 0 0), .mma (mm 7 false false false false 2 0 0 0 0),
    .mma (mm 0 false false false false 1 0 0 0 0), .mma (mm 7 false true false false 0 0 0 0 0), .mma (mm 0 false false false false 0 0 0 0 1),
    .mma (mm 0 false false false false 0 1 0 0 0), .mma (mm 0 false false true false 0 0 64 0 0), .mma (mm 7 false false false false 0 0 1 0 0),
    .mmah (mm 6 false false false false 0 0 0 0 0), .mmah (mm 0 false false false true 0 0 0 0 0), .mmah (mm 0 false false false false 0 0 0 62 0),
    .mwait 1 true, .adrain (ad 6 .rne false false false none 63), .adrain (ad 0 .rz false false false none 63), .adrain (ad 0 .rne true false false none 63),
    .adrain (ad 0 .rne false false false none 1), .adrain (ad 0 .rne false false true none 63), .adrain (ad 5 .rne false false false (some .dev) 1),
    .adrain (ad 2 .rne false true false (some .sys) 1), .nmcall ⟨4, false, 0, 59, 0, 0, gA⟩, .embag 0 ⟨0, 61, 0, 0, gA⟩, .srd (.v 0) 0x1A gA, .srd (.v 1) 0x10 gA,
    .srd (.s 63) 0 gA, .swr 0x00 0, .swr 0x12 0, .rte, .pmev 0 10, .clauseIssue ⟨0, 0, 0, 1, false, 0⟩, .clauseIssue ⟨0, 12, 0, 1, false, 0⟩,
    .clauseIssue ⟨0, 0, 13, 1, false, 0⟩, .clauseIssue ⟨0, 15, 15, 0, false, 0⟩, .pairedWord ⟨0x0D, 0, 0, 0, 7⟩ ⟨0, 0, 0, 0, 7⟩,
    .pairedWord ⟨1, 0, 0, 1, 7⟩ ⟨0, 0, 0, 0, 7⟩, .pairedWord ⟨0x0B, 0, 1, 0, 7⟩ ⟨0, 0, 0, 0, 7⟩, .pairedWord ⟨0, 1, 0, 0, 7⟩ ⟨0, 0, 0, 0, 7⟩,
    .pairedWord ⟨1, 0, 1, 0, 7⟩ ⟨1, 4, 2, 0, 7⟩, .pairedWord ⟨1, 4, 8, 0, 7⟩ ⟨1, 1, 12, 0, 7⟩] = true ∧
  allRefused ⟨256, 16, false⟩ [.mma (mm 0 false false false false 0 0 0 0 0), .mmah (mm 0 false false false false 0 0 0 0 0)] = true ∧
  allTaken ⟨256, 32, true⟩ [.rte, .swr 0x12 0] = true ∧
  allTaken c256 [.mma (mm 2 true true false false 3 0 0 0 0), .adrain (ad 2 .rz true false false (some .sys) 1), .srd (.v 2) 0x10 gA,
    .clauseIssue ⟨0, 15, 15, 15, true, 3⟩, .pairedWord ⟨1, 4, 3, 0, 7⟩ ⟨1, 9, 4, 0, 7⟩] = true := by decide

/-! ## Words written out from the spec's encodings -/

/-- Headers and class 0 (R76, R88, R108 and the exit of Command Ring's listing). -/
theorem test_decode_class0 :
    decodeAny 0xF008054C00000000 = some (.clauseIssue ⟨0x008, 0, 5, 4, true, 2⟩) ∧ decodeAny 0xF000FF7000000000 = some (.clauseIssue ⟨0, 15, 15, 7, false, 0⟩) ∧
    decodeAny 0x00100000000000E0 = some (.nop gA) ∧ decodeAny 0x8020005000000032 = some (.bra ⟨2, false⟩ 5 3) ∧
    decodeAny 0x8020000FFFFFFE9A = some (.bra ⟨2, true⟩ 0 0xFFFFFFE9) ∧ decodeAny 0x00900000000000E0 = some (.exit gA) ∧
    decodeAny 0x80D0100000000017 = some (.phint 1 0 1) := by decide

/-- A pair (R84) and class 1 (R81, R137, R361). -/
theorem test_decode_integer :
    decodeAny 0x4082018381090407 = some (.pairedWord ⟨1, 4, 3, 0, 7⟩ ⟨1, 9, 4, 0, 7⟩) ∧
    decodeAny 0x8430300000000039 = some (.imul ⟨i32, false, .v 3, .v 0, .imm 3, ⟨1, true⟩⟩) ∧
    decodeAny 0x84F01000420000C7 = some (.iset ⟨⟨false, true⟩, 2, 1, .v 0, .imm 12, gA⟩) ∧ decodeAny 0x8530201000000007 = some (.movi (.s 2) 0 gA) ∧
    decodeAny 0x8530400000003E87 = some (.movi (.v 4) 1000 gA) ∧ decodeAny 0x04001010000000E0 = some (.iadd (ib i32 false (.v 1) (.v 1) (.reg (.v 0)))) := by decide

/-- Classes 2 to 5 (First Touch and Integrator listings, R146, R151). -/
theorem test_decode_float :
    decodeAny 0x8850101000000057 = some (.shl (lb false (.v 1) (.v 1) (.imm 5))) ∧
    decodeAny 0x0C206040507012E0 = some (.ffma ⟨.f32, .rz, false, false, true, false, .v 6, .v 4, .v 5, .v 7, gA⟩) ∧
    decodeAny 0x9010202000C00001 = some (.dmul ⟨.rne, false, false, .v 2, .v 2, .imm 0xC0000, ⟨1, false⟩⟩) := by decide

theorem test_decode_cvt : decodeAny 0x14002010001018E0 = some (.cvt ⟨1, 8, .rz, false, .v 2, .v 1, gA⟩) := by decide

/-- Classes 6 to 8 (R115, R182, R276 and listings). -/
theorem test_decode_memory :
    decodeAny 0x18101030000000E0 = some (.ballot ⟨false, .v 1, 3, gA⟩) ∧ decodeAny 0x18602000000000E0 = some (.elect false 2 gA) ∧
    decodeAny 0x18305040000000E0 = some (.redux ⟨0, false, false, 5, 4, gA⟩) ∧ decodeAny 0x18700070200000E0 = some (.regroup 7 2) ∧
    decodeAny 0x9C00502080010807 = some (.ld ⟨.g, .b32, .relaxed, .ca, 5, 2, 1, .fi 0x080, 0, gA⟩) ∧
    decodeAny 0x9C1063F680FF0107 = some (.st ⟨.p, .b32, .relaxed, .ca, 6, 63, 255, .fi 0x010, 0, gA⟩) ∧
    decodeAny 0x9C02809500050047 = some (.ld ⟨.c, .b128, .relaxed, .ca, 40, 9, 5, .fi 0x004, 0, gA⟩) ∧
    decodeAny 0x9C207060C0FF0007 = some (.ldu ⟨.g, .b64, .relaxed, .ca, 7, 6, 255, .fi 0, 0, gA⟩) ∧
    decodeAny 0x9C30A020F4FF0007 = some (.stu ⟨.g, .b64, .rel .sys, .ca, 10, 2, 255, .fi 0, 0, gA⟩) ∧
    decodeAny 0x20002040501000E0 = some (.atom ⟨.g, false, .relaxed, 0, 2, 4, 5, 1, gA⟩) ∧
    decodeAny 0x2010001FF0500020 = some (.red ⟨.g, false, .relaxed, 0, 0, 1, 255, 5, ⟨1, false⟩⟩) ∧
    decodeAny 0x2040201FF0315060 = some (.waita ⟨.g, false, .acq .sys, 0, 2, 1, 255, 3, ⟨3, false⟩⟩) := by decide

/-- Classes 9 to 13 (R200, R212, R218, R219, R221, R225, R270, R311, R329). -/
theorem test_decode_units :
    decodeAny 0xA4046070FF000007 = some (.cpy (.short 1 0 6 7 0xFF 0 0) gA) ∧ decodeAny 0xA4046070FF005007 = some (.cpy (.short 1 0 6 7 0xFF 1 256) gA) ∧
    decodeAny 0x24208000000000E0 = some (.cpbat 8) ∧ decodeAny 0x24300080000000E0 = some (.cpwait (.inl 8)) ∧
    decodeAny 0x24614161718000E0 = some (.dense ⟨20, 22, 23, 24, gA⟩) ∧ decodeAny 0x28000101828400E0 = some (.mma (mm 4 false false false false 0 0 0x10 0x18 0x28)) ∧
    decodeAny 0x28300000000000E0 = some (.mwait 0 false) ∧ decodeAny 0x28400000000000E0 = some (.aclr 0 0 gA) ∧
    decodeAny 0x2860A003F3F000E0 = some (.adrain (ad 0 .rne false false false none 63)) ∧ decodeAny 0x2C03F202627120E0 = some (.nmcall ⟨4, false, 63, 32, 38, 39, gA⟩) ∧
    decodeAny 0x30500272800007E0 = some (.mbwait 0x27 0x28 7) ∧ decodeAny 0x34301020000000E0 = some (.srd (.v 1) 2 gA) := by decide

/-- R89's subcodes, one word each: unassigned, form 11, header fields, pair, register, field, no header, last word, RGN,
class 14, flagless. -/
theorem test_subcodes : let c : DecodeCtx := ⟨c16, true, false⟩
    let code := fun (r : Except (BitVec 8) Instr) => match r with | .error e => e.toNat | .ok _ => 0
    code (decode c 0x3FF00000000000E0) = 0x01 ∧ code (decode c 0xC000000000000000) = 0x02 ∧
    (match decodeStart 0xF000FF0000000000 with | .error e => e | .ok _ => 0) = 0x03 ∧ code (decode c 0x4000000000000000) ≠ 0x02 ∧
    code (decode c 0x04010000000000E0) = 0x05 ∧ code (decode c 0x00100000000000E1) = 0x06 ∧
    (match decodeStart 0x00100000000000E0 with | .error e => e | .ok _ => 0) = 0x07 ∧ code (decode { c with last := false } 0x00900000000000E0) = 0x08 ∧
    code (decode c 0x00C00000000000E0) = 0x09 ∧ code (decode c 0x38000000000000E0) = 0x0A ∧
    code (decode { c with flagless := true } 0x04700000000000E0) = 0x0B := by decide

/-! ## Small states that meet what the statements assume

Each theorem below is named after the statement it belongs to and gives one state, or one for each clause. `st` is the
state after reset with a NOP where the next step fetches, presented as the issuing word. -/

def st : State := let s := State.reset.withFetchWord 64 0x00100000000000E0; { s with dev := { s.dev with cur := some ⟨1, 0, 0⟩ } }
def inDev (f : Dev → Dev) : State := { st with dev := f st.dev }
def inGroup (f : Group → Group) : State := inDev (·.modGroup ⟨1, 0⟩ f)
def inSlice (k : Nat) (f : Slice → Slice) : State := inGroup fun g => g.modSlices (1#8 <<< k) fun _ s => f s
def inSplit (f : Split → Split) : State := inGroup fun g => { g with splits := g.splits.map f }
def inGrid (f : Grid → Grid) : State := inDev fun d => { d with grids := d.grids.map f }
def inLaunch (f : Launch → Launch) : State := inGrid fun g => { g with launch := f g.launch }
def inTeam (f : Team → Team) : State := inDev (·.modTeam 1 f)
def gNone : Guard := ⟨7, true⟩

/-- The same with scalars in every slice and vector registers in lanes. -/
def withS (s : State) (rs : List (Nat × Word64)) : State :=
  { s with dev := s.dev.modGroup ⟨1, 0⟩ fun g => g.modSlices 0xFF fun _ x => { x with s := rs } }
def withV (s : State) (vs : List (Nat × Nat × Word32)) : State :=
  { s with dev := s.dev.modGroup ⟨1, 0⟩ fun g => vs.foldl (fun g (l, n, x) => g.storeV l n x) g }

/-- Two splits: slices 0 to 3 issue, slices 4 to 7 wait as given. -/
def stTwo (w : Wait) : State := inGroup fun g => { g with
  stamps := 2
  splits := g.splits.flatMap fun x => [{ x with mask := 0x0F }, { x with mask := 0xF0, stamp := 1, wait := w }] }

/-- A page mapped for data at 0x8000, under key 0, beside the one the word stands in. -/
def page (key : BitVec 8) : Leaf :=
  { asid := 0, base := 0x8000, size := 0x4000, pa := 0x8000, key, rp := false, mt := .cacheable, x := false, w := true, r := true }
def mapped (s : State) : State := { s with dev := s.dev.modCore 0 fun c => { c with tlb := page 0 :: c.tlb } }

/-! ### Results of lane instructions -/

theorem test_meets_ClassOneResults : ∃ i ∈ st.dev.issuer?, (∀ ins ∈ [
      Instr.iadd (ib i32 true (.v 0) (.v 1) (.imm 0x80000)), .isub (ib i64 true (.s 0) (.s 1) (.reg (.s 2))), .imul (ib i32 false (.v 255) (.v 1) (.imm 7)),
      .imulh (ib i64 false (.v 254) (.v 2) (.reg (.v 4))), .imin (ib ⟨false, true⟩ false (.v 0) (.v 0) (.imm 1)), .imax (ib i32 false (.s 63) (.s 63) (.imm 1)),
      .iadd3 (it i64 true (.v 0) (.v 2) (.v 4) (.v 6)), .imad (it i32 false (.v 0) (.v 0) (.v 0) (.v 0)), .isad (it ⟨false, true⟩ false (.v 0) (.v 1) (.v 2) (.v 3)),
      .imadw (it ⟨false, true⟩ false (.v 0) (.v 1) (.v 2) (.v 4)), .iabs ⟨true, true, .v 0, .v 2, gA⟩, .ineg ⟨false, true, .s 0, .s 1, gA⟩,
      .idot4 ⟨true, true, false, .v 0, .v 1, .v 2, .v 3, gA⟩], ins.wf i.lc = true ∧ (classOne i ins).isSome = true) ∧
    ∀ ins ∈ [Instr.sel ⟨true, .v 0, .v 2, .v 4, 6, gA⟩, .lea ⟨i64, 31, .v 0, .v 2, .imm 0xFFFFF, gA⟩, .mov ⟨false, .s 0, .v 1, gA⟩, .movi (.s 0) 0x80000000 gA,
      .movw (.v 254) 1 gA], ins.wf i.lc = true ∧ (moveOne i ins).isSome = true := by decide +kernel

theorem test_meets_BitsAndPredicates : ∃ i ∈ st.dev.issuer?, (∀ ins ∈ [Instr.and (lb true (.v 0) (.v 2) (.imm 0xFFFFF)), .or (lb false (.s 0) (.s 1) (.reg (.s 2))),
      .xor (lb false (.v 0) (.v 1) (.reg (.v 2))), .shl (lb true (.v 0) (.v 2) (.imm 64)), .shr (lb false (.v 0) (.v 1) (.imm 31)), .sar (lb true (.v 0) (.v 2) (.imm 63)),
      .rot (lb false (.v 0) (.v 1) (.imm 32)), .bool3 ⟨0x96, .v 0, .v 1, .v 2, .v 3, gA⟩, .funnel ⟨true, .v 0, .v 1, .v 2, .v 3, gA⟩,
      .bfe ⟨true, false, .v 0, .v 1, .imm 0x2010, gA⟩, .bfi ⟨true, .v 0, .v 2, .v 4, .v 6, gA⟩, .prmt ⟨false, .v 0, .v 1, .v 2, .v 3, gA⟩, .not ⟨true, .v 0, .v 2, gA⟩,
      .brev ⟨false, .v 0, .v 1, gA⟩, .popc ⟨true, .v 0, .v 2, gA⟩, .clz ⟨true, .v 0, .v 2, gA⟩, .ctz ⟨false, .s 0, .s 1, gA⟩],
      ins.wf i.lc = true ∧ (classTwo i ins).isSome = true) ∧
    ∀ ins ∈ [Instr.iset ⟨i64, 5, 6, .v 0, .imm 0, gA⟩, .fset ⟨5, true, true, 0, .v 0, .imm 0, gA⟩, .dset ⟨0, false, true, 7, .v 0, .imm 0, gA⟩,
      .pand ⟨true, false, 0, 1, 2, gA⟩, .por ⟨false, false, 0, 1, 2, gA⟩, .pxor ⟨false, true, 0, 1, 2, gA⟩, .pnot ⟨true, 0, 1, gA⟩, .pmov (.pp true 0 1) gA],
      ins.wf i.lc = true ∧ (predOne i ins).isSome = true := by decide +kernel

theorem test_meets_FloatResults : ∃ i ∈ st.dev.issuer?, ∀ ins ∈ [Instr.fadd (fb .f32 .rd true (.imm 0x7F800)), .fmul (fb .bf16x2 .rz false (.reg (.v 2))),
    .fmin (fb .f16x2 .rne false (.reg (.v 2))), .fmax (fb .f32 .rne true (.imm 0xFF800)), .ffma ⟨.f16x2, .ru, false, true, true, true, .v 0, .v 1, .v 2, .v 3, gA⟩,
    .fclass (fu .f32 .rne true false), .frnd (fu .f16x2 .rd false true), .fscale ⟨.rz, true, true, .v 0, .v 1, .imm 0, gA⟩, .dadd (db .ru true (.v 0) (.v 2)),
    .dmul (db .rd false (.v 0) (.v 2)), .dmin (db .rne true (.v 0) (.v 2)), .dmax (db .rne false (.v 0) (.v 2)), .dscale (db .rz false (.v 0) (.v 2)),
    .dfma ⟨.rz, true, false, true, .v 0, .v 2, .v 4, .v 6, gA⟩, .dclass ⟨.rne, false, .v 1, .v 2, gA⟩, .dfrnd ⟨.ru, false, .v 0, .v 2, gA⟩],
    ins.wf i.lc = true ∧ (floatOne i ins).isSome = true := by decide +kernel

/-- The greatest magnitude that rounds to a finite word, the least that overflows under every mode, and E2M1 with saturation. -/
theorem test_meets_RoundsCorrectly :
    ((f16.common true 65504 0 f16.most).1.natAbs ≤ (f16.common true 65504 0 f16.most).2.natAbs) ∧ (f64.common false 1 (-1100) f64.most).1 = 1 ∧
    (f64.common false 1 (-1100) f64.most).1.natAbs ≤ (f64.common false 1 (-1100) f64.most).2.natAbs ∧
    (∀ x ∈ [(f16, 131008, (0 : Int)), (e2m1, 12, 0), (Machine.f32, 2 ^ 25 - 2, 104)], 0 < x.2.1 ∧ 2 * (x.1.units x.1.most).natAbs *
      2 ^ (1 - (x.1.bias : Int) - x.1.fb - min x.2.2 (1 - (x.1.bias : Int) - x.1.fb)).toNat ≤
        x.2.1 * 2 ^ (x.2.2 - min x.2.2 (1 - (x.1.bias : Int) - x.1.fb)).toNat) := by decide +kernel

theorem test_meets_ConversionResults : ∃ i ∈ st.dev.issuer?, (∀ ins ∈ [Instr.cvt ⟨0, 3, .rne, true, .v 0, .v 2, gA⟩, .cvt ⟨9, 4, .ru, false, .v 0, .v 1, gA⟩,
      .cvt ⟨1, 8, .rz, false, .v 0, .v 1, gA⟩, .fcvt ⟨13, 8, .rne, true, .v 0, .v 1, gA⟩, .fcvt ⟨8, 12, .rne, true, .v 0, .v 1, gA⟩, .qpack ⟨14, .rne, 0, 8, .v 1, gA⟩,
      .qscale ⟨12, .v 0, .v 1, gA⟩, .amax ⟨8, .v 0, .v 1, .v 2, gA⟩, .amax ⟨11, .v 0, .v 1, .v 2, gA⟩], ins.wf i.lc = true ∧ (convOne i ins).isSome = true) ∧
    (Instr.qunpk ⟨12, .rne, 8, 0, .v 1, gA⟩).wf i.lc = true ∧ (Instr.qunpk ⟨14, .rne, 248, 0, .v 1, gA⟩).wf i.lc = true := by decide +kernel

theorem test_meets_SpecialFunctionResults : st.dev.issuer?.isSome = true ∧ ∀ ins ∈ [Instr.rsq (fu .f32 .rne true true), .exp2 (fu .f16x2 .rne false false),
    .log2 (fu .bf16x2 .rne false false), .sin (fu .f32 .rne false true), .cos (fu .f32 .rne false false), .tanh (fu .f16x2 .rne false true)],
    (specialOne ins).isSome = true := by decide +kernel

/-- One result owed in v5 of lane 0, its slice due, no other operation. -/
def stOwed : State := inGroup fun g => { g with owed := [
  { id := 9, flag := 3, slices := [0], memory := false, waits := [], settle := none,
    items := [⟨.v 0 5, some 7, false⟩, ⟨.p 1 6, some 1, false⟩, ⟨.s 0 62, some 8, false⟩] }] }

theorem test_meets_LongLatencyOwes : (∃ i ∈ st.dev.issuer?, ∀ ins ∈ [Instr.idiv (ib i32 false (.v 0) (.v 1) (.imm 0)), .irem (ib i64 false (.v 0) (.v 2) (.reg (.v 4))),
      .fdiv (fb .f32 .rd true (.imm 0)), .rcp (fu .bf16x2 .ru false true), .sqrt (fu .f32 .rz true false), .ddiv (db .rne true (.v 0) (.v 2)),
      .drcp ⟨.rd, false, .v 0, .v 2, gA⟩, .dsqrt ⟨.rne, true, .v 0, .v 2, gA⟩], ins.wf i.lc = true ∧ (laterOne i ins).isSome = true) ∧
    ∃ x ∈ stOwed.dev.owing? 9, x.2.2.due ≠ [] ∧ stOwed.dev.group? x.1 = some x.2.1 ∧ (x.2.2.items.map (·.dest)).Nodup ∧
      ∀ it ∈ x.2.2.items, it.contested = false ∧ it.value ≠ none ∧ (match it.dest with
        | .v l n => decide (l < 32 ∧ n ≠ 255) | .p l n => decide (l < 32 ∧ n < 7) | .s k n => decide (k < 8 ∧ k < x.2.1.slices.length ∧ n ≠ 63)) = true := by
  decide +kernel

/-! ### Lane operations and control flow -/

def okB {ε α : Type} (e : Except ε α) : Bool := match e with | .ok _ => true | .error _ => false

/-- Over one split; with `.G` over the only split, and over two that meet at one address. -/
theorem test_meets_LaneOperations : (∃ i ∈ st.dev.issuer?, (∀ ins ∈ [Instr.vote ⟨3, false, 0, 1, gA⟩, .vote ⟨0, true, 0, 1, gA⟩, .ballot ⟨true, .s 1, 3, gA⟩,
      .elect true 2 gA, .shfl ⟨4, false, 1, 2, 3, .inr 31, gA⟩, .shfl ⟨0, false, 7, 255, 3, .inl 4, gA⟩, .redux ⟨10, true, false, 5, 4, gA⟩,
      .scan ⟨8, false, true, 5, 4, gA⟩, .match_ ⟨true, true, 0, 2, 4, gA⟩], ins.wf i.lc = true ∧ (laneOne i ins).isSome = true) ∧
      (Instr.shfl ⟨3, true, 1, 2, 3, .inr 31, gA⟩).wf i.lc = true ∧ (∀ x ∈ i.grp.slices, x.rstack = []) ∧ i.grp.splits = [i.sp]) ∧
    ∃ i ∈ (stTwo (.rendezvous none false)).dev.issuer?, i.grp.splits.length ≠ 1 ∧ (i.arrived none).gathered = true ∧ (∀ x ∈ i.grp.slices, x.rstack = []) ∧
      ((i.arrived none).merge (i.grp.splits.map (·.stamp))).splits.length = 1 := by decide +kernel

theorem test_meets_SplitsJoin :
    (∃ i ∈ st.dev.issuer?, i.grp.splits = [i.sp]) ∧
    (∃ i ∈ (stTwo (.rendezvous none false)).dev.issuer?, 1 < i.grp.splits.length ∧ (i.grp.splits.map (·.stamp)).Nodup ∧ (i.arrived none).gathered = true ∧
      (i.arrived (some 7)).gathered = true) ∧
    (∃ i ∈ (stTwo .ready).dev.issuer?, 1 < i.grp.splits.length ∧ (∃ x ∈ i.grp.splits, x.stamp ≠ i.sp.stamp ∧ x.wait.untimed = false) ∧
      (i.grp.await i.sp (.rendezvous none false)).gathered = false ∧ i.sp.wait.atRendezvous = false ∧ i.grp.splits.length ≠ 1 ∧
      (i.grp.await i.sp (.rendezvous (some 0) false)).gathered = false) ∧
    (let s := { inSplit (fun x => { x with wait := .rendezvous (some 4) true }) with dev.cycle := 5 }
     ∃ i ∈ s.dev.issuerAt? ⟨1, 0, 0⟩, i.sp.wait = .rendezvous (some 4) true ∧ ∃ c ∈ i.sp.clause, c.words ≠ []) ∧
    (∃ g ∈ (stTwo (.rendezvous (some 4) false)).dev.group? ⟨1, 0⟩, g.canMeet = false ∧ ∃ x ∈ g.splits, x.wait = .rendezvous (some 4) false) := by decide +kernel

/-- A branch by lane, for a slice with no active lane, lanes that agree, and lanes that do not. -/
def someBranch : Branch := { base := 0x4008, rpc := 0x4100, npc := fun l => if l % 4 < 2 then 0x4040 else 0x4008, call := fun l => l == 0 }

/-- Lane 0 alone has p0 true, and eight paths wait in slice 0. -/
def stDeep : State :=
  let s := inSlice 0 fun x => { x with rstack := List.replicate 8 ⟨0x5000, 0x4800, 2, 15, 15, false, false⟩ }
  { s with dev := s.dev.modGroup ⟨1, 0⟩ fun g => { g with p := [(0, 1)] } }

theorem test_meets_BranchesDivide :
    (∃ s ∈ [{ Slice.blank with x := 0 }], s.x = 0) ∧
    (∃ s ∈ [{ Slice.blank with x := 3 }], s.x.getLsbD 0 = true ∧ ∀ p, p < 4 → s.x.getLsbD p = true → someBranch.npc p = 0x4040) ∧
    (∃ s ∈ [{ Slice.blank with x := 15 }], s.x.getLsbD 2 = true ∧ s.x.getLsbD 0 = true ∧ someBranch.npc 2 = 0x4008 ∧ someBranch.npc 0 ≠ 0x4008 ∧
      ∀ r, r < 4 → s.x.getLsbD r = true → (0x4008 : BitVec 48).toNat ≤ (someBranch.npc r).toNat) ∧
    (∃ i ∈ st.dev.issuer?, ∀ ins ∈ [Instr.bra gA 5 3, .brx gA 0 (.v 2), .call gNone 0xFFFFFFFF, .callx gA (.s 2)], ∃ b ∈ branchOf i ins,
      (∀ k ∈ maskSlices i.sp.mask, ((i.branched b).slice k).rstack.length ≤ 8 ∧ ((i.branched b).slice k).ret.length ≤ 16) ∧
      okB (st.dev.spillOver i (i.branched b) (maskSlices i.sp.mask)).2 = true) ∧
    (∃ i ∈ stDeep.dev.issuer?, ∃ b ∈ branchOf i (.bra ⟨0, false⟩ 5 3), ∃ k ∈ maskSlices i.sp.mask, 8 < ((i.branched b).slice k).rstack.length) ∧
    (∃ i ∈ (withV st [(3, 2, 4)]).dev.issuer?, 3 ∈ i.on gA ∧ (i.reg64 (.v 2) 3).toNat % 8 ≠ 0 ∧ ∀ m ∈ i.on gA, m < 3 → (i.reg64 (.v 2) m).toNat % 8 = 0) := by
  decide +kernel

theorem test_meets_ReturnsAndExits :
    (∃ i ∈ (inGroup fun g => g.modSlices 0xFF fun _ x => { x with ret := [0x4000] }).dev.issuer?, (∀ k ∈ maskSlices i.sp.mask, (i.grp.slice k).ret ≠ []) ∧
      okB (st.dev.fillRet i (i.grp.advance i.sp true) (maskSlices i.sp.mask)).2 = true) ∧
    (∃ i ∈ st.dev.issuer?, 7 ∈ maskSlices i.sp.mask ∧ (i.grp.slice 7).ret = [] ∧ (i.grp.slice 7).spill = 0) ∧
    (∃ i ∈ st.dev.issuer?, (∀ x ∈ i.grp.splits, x.stamp = i.sp.stamp → x.mask = i.sp.mask) ∧ (i.grp.slice 0).rstack = [] ∧ (i.grp.slice 0).ret.length ≤ 16) := by
  decide +kernel

/-- A header that waits for flag 3, with two words in the line held. -/
def hdr3 : Header := { wait := 8, setA := 0, setB := 15, len := 2, rgne := false, pf := 0 }

theorem test_meets_ClausesIssue :
    (∃ i ∈ st.dev.issuer?, i.grp.mustReconverge i.sp = false ∧ i.takesAsync = false ∧ i.grp.waitsMet i.sp.mask hdr3.wait = true ∧ i.grp.splits = [i.sp] ∧
      (match (st.dev.fetch i (i.pc.toNat + 8) (8 * hdr3.len.toNat)).2 with | .ok _ => true | _ => false) = true ∧
      (Instr.pairedWord ⟨0x1B, 255, 0, 31, 7⟩ ⟨0x20, 2, 4, 0, 0⟩).wf i.lc = true ∧ (Instr.pairedWord ⟨0, 0, 0, 0, 7⟩ ⟨0x0C, 1, 0, 16, 7⟩).wf i.lc = true) ∧
    (∃ i ∈ (inSlice 5 fun x => { x with cf := [(3, 1)] }).dev.issuer?, i.grp.mustReconverge i.sp = false ∧ i.takesAsync = false ∧
      i.grp.waitsMet i.sp.mask hdr3.wait = false) := by decide +kernel

theorem test_meets_HintsAndDelays :
    (∃ i ∈ st.dev.issuer?, i.on gA ≠ [] ∧ i.on gNone = []) ∧
    (∀ c ∈ [6, 7, 8], ∃ i ∈ ({ inSplit (fun x => { x with wait := .delay 7 }) with dev.cycle := c } : State).dev.issuerAt? ⟨1, 0, 0⟩, i.sp.wait = .delay 7) ∧
    (∃ i ∈ (inTeam fun t => { t with state := .saving 0 }).dev.issuer?, i.team.state = .saving 0 ∧ i.grp.splits.length = 1 ∧ ∀ x ∈ i.grp.slices, x.rstack = []) := by
  decide +kernel

/-- The launch names a handler; the group is in its handler. -/
def stTrap : State := inLaunch fun l => { l with traph := true, handler := 0x6000 }
def stHandler : State := let s := State.reset.withFetchWord 64 0x34100000000000E0; { s with dev := { s.dev with cur := some ⟨1, 0, 0⟩ } }
def stDebugged : State := inDev (·.modPart 0 fun p => { p with debugger := true })

theorem test_meets_TrapsTaken :
    (∃ i ∈ stTrap.dev.issuer?, (∀ ins ∈ [Instr.illop 4, .rgn, .trap 7 gA, .bkpt gA], (raisesOf stTrap i ins).isSome = true) ∧ i.grp.inHandler i.sp = false ∧
      i.grid.launch.traph = true) ∧
    (∃ i ∈ st.dev.issuer?, (∀ ins ∈ [Instr.illop 4, .rgn, .trap 7 gA], (raisesOf st i ins).isSome = true) ∧ i.grp.inHandler i.sp = false ∧ i.grid.launch.traph = false ∧
      i.on gNone = [] ∧ i.on gA ≠ [] ∧ (st.dev.part i.grid.pid).debugger = false) ∧
    (∃ i ∈ stHandler.dev.issuer?, (∀ ins ∈ [Instr.illop 4, .rgn, .trap 7 gA], (raisesOf stHandler i ins).isSome = true) ∧ i.grp.inHandler i.sp = true) ∧
    (∃ i ∈ stDebugged.dev.issuer?, i.on gA ≠ [] ∧ (stDebugged.dev.part i.grid.pid).debugger = true) := by decide +kernel

/-- In the handler, RPC at REPC; and RPC at a header behind the word, which the core holds. -/
def stReturn : State :=
  let s := { stHandler with dev := stHandler.dev.modCore 0 fun c => { c with icache := [⟨0x80, 0, 0xF00FF04000000000#1024 <<< 128⟩] } }
  { s with dev := s.dev.modGroup ⟨1, 0⟩ fun g => { g with tr0 := 0x4010 } }

/-- The split is in handler mode, each of its slices saved once, with nothing short on its return stacks. -/
abbrev returnable (i : Issuer) : Prop :=
  i.grp.inHandler i.sp = true ∧ i.grp.reexec < 255 ∧ (∀ k, k < 8 → i.sp.mask.getLsbD k = true → ∃ h ∈ i.grp.handler.flatten, h.slice = k) ∧
    (∀ h ∈ i.grp.handler.flatten, ∀ h' ∈ i.grp.handler.flatten, h.slice = h'.slice → h = h') ∧
    ∀ k ∈ maskSlices i.sp.mask, (i.grp.slice k).shorts = [] ∧ ∀ h ∈ i.grp.handler.flatten, h.slice = k →
      (i.grp.slice k).retCount - h.retLen ≤ (i.grp.slice k).ret.length

theorem test_meets_ReturnFromException :
    (∃ i ∈ ({ stHandler with dev := stHandler.dev.modGroup ⟨1, 0⟩ fun g => { g with tr0 := 0x4000 } } : State).dev.issuer?, 
      returnable i ∧ (i.grp.tr0.setWidth 48 : BitVec 48) = (i.grp.slice i.sp.leader).snap.repc) ∧
    (∃ i ∈ stReturn.dev.issuer?, (i.grp.tr0.setWidth 48 : BitVec 48) ≠ (i.grp.slice i.sp.leader).snap.repc ∧ returnable i ∧ stReturn.dev.peekWord? i 0x4010 = some 0xF00FF04000000000) ∧
    okB (decodeStart 0xF00FF04000000000) = true := by decide +kernel

theorem test_meets_MasksAndSpecialRegisters :
    (∃ i ∈ st.dev.issuer?, ∀ ins ∈ [Instr.srd (.v 1) 2 gA, .srd (.v 2) 0x10 gA, .srd (.s 62) 4 gA, .srd (.s 0) 0x19 gA, .swr 0x16 3], ins.wf i.lc = true) ∧
    (∃ i ∈ stHandler.dev.issuer?, ∀ ins ∈ [Instr.swr 0x12 3, .swr 0x19 63, .srd (.s 0) 0x15 gA], ins.wf i.lc = true) ∧
    (∃ i ∈ st.dev.issuer?, i.grp.pmc.length = 4) := by decide +kernel

/-! ### Memory -/

/-- s2 holds the page's first address, s3 a value; lane 0 alone has p0. -/
def stMem : State :=
  let s := withS (mapped st) [(2, 0x8000), (3, 16)]
  { s with dev := s.dev.modGroup ⟨1, 0⟩ fun g => { g with p := [(0, 1)] } }
def gOne : Guard := ⟨0, false⟩

/-- A request of lane 0 for `size` bytes at `pa` of memory, or at an offset of a pool. -/
def rq (kind : ReqKind) (target : Option Nat) (pa size : Nat) (x : BitVec 128) : Req :=
  { id := 7, by_ := ⟨1, 0⟩, mask := 255, core := 0, pid := 0, asid := 0, kind, target, line := pa / 128, page := pa / 0x4000, seat := .way, mt := .cacheable, key := 0, pol := .ca
    alloc := decide (kind = .load), acq := false, pc := 0, leftAt := 0, owed := if kind = .store then none else some 3, signed := false, done := false, settle := 0
    dst := some (false, 5), stale := false, held := false, rel := none, soft := none, since := 0, watch := 0
    parts := [{ lane := 0, va := pa, pa, size, off := 0, data := x, cmp := 5 }] }
def asked (r : Req) (f : Dev → Dev) : State := inDev fun d => f { d with reqs := [r], nextId := 10 }

theorem test_meets_LoadsAndStoresIssue :
    (∃ i ∈ stMem.dev.issuer?,
      (∀ o ∈ [mo .g .b128 .relaxed .ca 4 255 (.fi 0x001) 0, mo .g .s8 (.acq .sys) .ca 5 255 (.f false) 0, { mo .s .b64 .relaxed .ca 254 255 (.f false) 0 with base := 3 }],
        (Instr.ld o).wf i.lc = true ∧ (failures (stMem.dev.checkLanes i (loadAsk o) (i.lanesEa o (i.on gOne))).2).isEmpty = true) ∧
      (∀ o ∈ [mo .g .b64 (.rel .sys) .ca 4 255 (.fi 0xFFF) 0], (Instr.st o).wf i.lc = true) ∧
      (∀ o ∈ [mo .g .b32 .relaxed .ca 5 255 (.fi 0) 0], (Instr.st o).wf i.lc = true ∧ (Instr.ld o).wf i.lc = true ∧
        (failures (stMem.dev.checkLanes i (storeAsk o) (i.lanesEa o (i.on o.g))).2).isEmpty = true) ∧
      (∀ o ∈ [mo .g .b64 .relaxed .ca 3 255 (.fi 0) 0], (Instr.ldu o).wf i.lc = true ∧ (Instr.stu o).wf i.lc = true ∧
        (failures (stMem.dev.checkLanes i (loadAsk o) (i.lanesEa o ((i.on o.g).take 1))).2).isEmpty = true ∧
        (failures (stMem.dev.checkLanes i (storeAsk o) (i.lanesEa o ((i.on o.g).take 1))).2).isEmpty = true)) ∧
    (∃ i ∈ (withV stMem [(0, 1, 0x100000)]).dev.issuer?, let o := mo .g .b32 .relaxed .ca 5 1 (.f false) 6
      (Instr.ldf o).wf i.lc = true ∧ (Instr.stf o).wf i.lc = true ∧
      (let rs := failures (stMem.dev.checkLanes i (loadAsk o) (i.lanesEa o (i.on o.g))).2
       rs.length = 1 ∧ ∀ x ∈ rs, x.2.cause = .xlate ∨ x.2.cause = .perm) ∧
      (let rs := failures (stMem.dev.checkLanes i (storeAsk o) (i.lanesEa o (i.on o.g))).2
       ∀ x ∈ rs, x.2.cause = .xlate ∨ x.2.cause = .perm)) ∧
    (∃ i ∈ (withV stMem [(2, 1, 1)]).dev.issuer?, let o := mo .g .b16 .relaxed .ca 5 1 (.fi 0) 0
      2 ∈ i.on o.g ∧ i.ea o.base o.idx o.form o.wid.bytes 2 % o.wid.bytes ≠ 0 ∧
      ∀ m ∈ i.on o.g, m < 2 → i.ea o.base o.idx o.form o.wid.bytes m % o.wid.bytes = 0) := by decide +kernel

theorem test_meets_AtomicsWork :
    (∃ i ∈ stMem.dev.issuer?, ∀ o ∈ [ao .g false .relaxed 9 2 255, ao .g true (.ar .sys) 0 2 255],
      (failures (stMem.dev.checkLanes i (atomAsk { o with base := 2, idx := 255 }) (i.atomEas { o with base := 2, idx := 255 })).2).isEmpty = true) ∧
    (∃ i ∈ (withS stMem []).dev.issuer?, let o : AtomOp := ⟨.s, false, .relaxed, 0, 2, 2, 255, 4, gOne⟩
      let rs := (stMem.dev.checkLanes i (atomAsk o) (i.atomEas o)).2
      (failures rs).isEmpty = true ∧ (match passes rs with | [(l, [⟨.scr t _, _, 0, 4⟩])] => l == 0 && t == i.ref.team | _ => false) = true ∧
      semRel o.sem = none ∧ stMem.dev.scrBusy i = false) := by decide +kernel

theorem test_meets_FencesAndWaits :
    (∃ i ∈ stMem.dev.issuer?, i.releaseMet stMem.dev .sys = true ∧
      (match (stMem.dev.globalWord i (i.sca 2).toNat).2 with | .ok v => v == 0 | .error _ => false) = true ∧
      (i.sca 63).toNat ≤ 0 ∧ 0 < (i.sca 3).toNat) ∧
    (∃ i ∈ (asked (rq .store none 0x8000 4 1) id).dev.issuer?, i.releaseMet (asked (rq .store none 0x8000 4 1) id).dev .sys = false) := by decide +kernel

theorem test_meets_CacheControl : ∃ i ∈ stMem.dev.issuer?, let o := co .g 255 false 3
    (failures (stMem.dev.checkLanes i { space := o.space, size := 1, align := false, store := false, need := .r, reads := false }
      ((i.on o.g).map fun l => (l, i.ea o.base o.idx (.f o.ix) 1 l))).2).isEmpty = true := by decide +kernel

theorem test_meets_LoadsPerform : let s := asked (rq .load none 0x807C 4 0) id
    ∃ r ∈ s.dev.req? 7, r.kind = .load ∧ r.target = none ∧ s.dev.atHome r = true ∧ s.dev.mates r = [r] ∧ s.dev.mayPerform r = true ∧ r.owed = some 3 ∧
      (∀ p ∈ r.parts, ∀ k, k < p.size → (p.pa + k) / 128 = r.line) ∧ s.dev.unreachable (r.line * 128) = false ∧ (s.dev.group? r.by_).isSome = true := by decide +kernel

theorem test_meets_StoresPerform :
    (let s := asked (rq .store none 0x807C 4 1) id
     ∃ r ∈ s.dev.req? 7, r.kind = .store ∧ r.target = none ∧ r.owed = none ∧ s.dev.mayPerform r = true ∧ s.dev.atHome r = true ∧ s.dev.mates r = [r] ∧ s.dev.unreachable (r.line * 128) = false ∧
      (∀ p ∈ r.parts, p.pa / 128 = r.line ∧ 0 < p.size ∧ (p.pa + p.size - 1) / 128 = r.line) ∧ r.parts ≠ []) ∧
    ∀ k ∈ [ReqKind.atom 0 false, .cas true], let s := asked (rq k none 0x8078 8 1) id
      ∃ r ∈ s.dev.req? 7, r.target = none ∧ r.kind = k ∧ r.owed = some 3 ∧ (∃ p ∈ r.parts.head?, r.parts = [p] ∧ p.pa / 128 = r.line ∧ 0 < p.size ∧
        (p.pa + p.size - 1) / 128 = r.line) ∧ s.dev.mayPerform r = true ∧ s.dev.atHome r = true ∧ s.dev.mates r = [r] ∧ s.dev.unreachable (r.line * 128) = false ∧ (s.dev.group? r.by_).isSome = true := by
  decide +kernel

/-- Core 5 holds the line live. -/
def stPeer : State := asked (rq .load none 0x8000 4 0) fun d => d.modCore 5 fun c =>
  { c with l1 := [{ tag := 0x40, locked := false, str := false, used := 0, lines := [some ⟨9, 0, false, none, 0, 0⟩, none, none, none] }] }

theorem test_meets_PeersAndPools :
    (∃ r ∈ stPeer.dev.req? 7, r.kind = .load ∧ r.alloc = true ∧ r.acq = false ∧ r.target = none ∧ r.seat = .way ∧ (stPeer.dev.mates r).length = 1 ∧ stPeer.dev.mayPerform r = true ∧ r.core = 0 ∧
      r.owed = some 3 ∧ (stPeer.dev.group? r.by_).isSome = true ∧ stPeer.dev.peerCopy? r 127 = none ∧ (stPeer.dev.peerCopy? r 5).isSome = true) ∧
    ∀ k ∈ [ReqKind.load, .store, .atom 0 false], let s := asked (rq k (some 1) 0x40 4 1) id
      ∃ r ∈ s.dev.req? 7, r.target = some 1 ∧ r.kind = k ∧ s.dev.mayPerform r = true ∧ (s.dev.group? r.by_).isSome = true ∧
        ∃ t ∈ s.dev.team? 1, t.scrLive = true := by decide +kernel

/-- A watch in each of its states, its word equal to the operand 5 or not. -/
def watching (w : Nat) (m : FMap Byte) : State := asked { rq (.watch false) none 0x8000 4 0 with watch := w } fun d => { d with mem := m }

theorem test_meets_LeasesAndWatches :
    (let s := asked { rq .store none 0x8000 4 1 with done := true, settle := 16 } id
     ∃ r ∈ s.dev.req? 7, r.done = true ∧ (s.dev.group? r.by_).isSome = true) ∧
    (∀ rs ∈ [[], [{ rq .store none 0x8000 4 1 with core := 128 }]], let s := inDev fun d => { d.modGroup ⟨1, 0⟩ fun g =>
        { g with markers := [⟨0, 8, 3, 0, 0⟩] } with reqs := rs }
      ∃ g ∈ s.dev.group? ⟨1, 0⟩, g.markers.find? (fun x => x.place == 0) = some ⟨0, 8, 3, 0, 0⟩) ∧
    (let s := inGroup fun g => { g with markers := [⟨66, 8, 3, 0, 0⟩] }; s.dev.peerDead 2 = true ∧ ∃ g ∈ s.dev.group? ⟨1, 0⟩, (g.markers.find? (fun x => x.place == 66)).isSome = true) ∧
    (let s := { inGroup fun g => { g with settle := some 4 } with dev.cycle := 5 }
     ∃ g ∈ s.dev.group? ⟨1, 0⟩, g.settle = some 4 ∧ 4 < s.dev.cycle) ∧
    (let s := inDev fun d => d.setHome 256 { HomeLine.none with leased := true, expiry := 0, nl := 5, maxl := 400 }
     (s.dev.home 256).leased = true ∧ (s.dev.home 256).expiry ≤ s.dev.cycle) ∧
    ∀ x ∈ [(2, [], false), (2, [(0x8000, 5)], true), (1, [], false), (0, [], false), (0, [(0x8000, 5)], true)], let s := watching x.1 x.2.1
      ∃ r ∈ s.dev.req? 7, r.kind = .watch false ∧ r.owed = some 3 ∧ r.watch = x.1 ∧ (s.dev.group? r.by_).isSome = true ∧ r.target = none ∧
        (x.1 = 0 → s.dev.mayPerform r = true ∧ s.dev.atHome r = true ∧ s.dev.mates r = [r] ∧ s.dev.unreachable (r.line * 128) = false) ∧ ∃ p ∈ r.parts.head?, r.parts = [p] ∧
        decide (bytesNat (s.dev.rdBytes r.key p.pa p.size) = p.cmp.toNat) = x.2.2 := by decide +kernel

def someWalk : Walk := ⟨⟨1, 0⟩, 255, false, .ca, false, 0, 0, 0, 0x8000⟩

theorem test_meets_FillsAndHost :
    (∀ ps ∈ [[], [0x400]], let s := inDev fun d => { d.modCore 3 fun c => { c with fills := [(0x100, 0)] } with poison := ps }
      (s.dev.core 3).fills.find? (fun x => x.1 == 0x100) = some (0x100, 0) ∧ s.dev.poisoned (0x100 * 128) 128 = decide (ps ≠ [])) ∧
    (let s := mapped (inDev fun d => d.modDie 0 fun x => { x with walks := [someWalk] })
     (s.dev.die 0).walks = [someWalk] ∧ 0 < s.dev.dies.length ∧ (match (s.dev.translate 0 0 0 0x8000 .r).2 with | .ok _ => true | _ => false) = true) ∧
    st.fw.recovery = false ∧ [1#8, 2#8].length ≤ 2 ^ 48 := by decide +kernel

/-! ### Copies, matrix units, near memory, barriers -/

/-- The state an instruction leaves, or the one it found. -/
def after (ins : Instr) (s : State) : State := match exec ins s with | .next t => t | _ => s

/-- Words of memory from an address on. -/
def withMem (s : State) (a : Nat) (ws : List Word64) : State :=
  { s with dev := { s.dev with mem := fsetBytes s.dev.mem a (ws.flatMap wordBytes) } }

/-- Scalars, and a layout record at 0x8000: BF16, 64 × 64, boxes of 32 × 16, rows 128 bytes apart from 0x9000 on. -/
def recWords : List Word64 := [0x012B000000009000, 0x4000000040, 0, 0x0010002000000000, 8, 0, 0, 0]
def stUnits : State :=
  let s := withMem (withS (mapped st) [(2, 0x8000), (3, 16), (4, 0x8000), (6, 256), (10, 0x8000), (16, 4), (18, 512), (25, 0x40)]) 0x8000 recWords
  { s with dev := s.dev.modDie 0 fun x => { x with l2tlb := [page 0] } }
def someLayout : Layout := Layout.ofWords recWords

def someCopy (fin : Completion) (left : List Nat) (b : Option (BitVec 32)) : Copy :=
  { id := 9, owner := .group ⟨1, 0⟩ b, core := 0, pid := 0, asid := 0, pc := 0, kind := .linear, src := .scr 1 0, dst := .scr 1 64, bytes := 32, left,
    next := 0, stop := 0, got := [], crc := false, fin, lane := 0, held := false }
/-- A CRC is still to be stored beside the word. -/
def crcCopy : Copy := { someCopy (.cnt 0x9000) [] none with crc := true }
def copying (cs : List Copy) : State := { stUnits with dev := { stUnits.dev with copies := cs, cycle := 1 } }

theorem test_meets_CopiesMove :
    (someLayout.rank ≤ 5 ∧ (∀ k ∈ [2, 3, 4], someLayout.box k = 1) ∧ someLayout.boxes.length = 5 ∧
      511 < someLayout.box 0 * someLayout.box 1 * someLayout.box 2 * someLayout.box 3 * someLayout.box 4) ∧
    (∀ l ∈ [{ someLayout with zero := true }, { someLayout with zero := false, repeats := true }, { someLayout with zero := false }], 0 < l.dims.headD 0) ∧
    (∃ t ∈ stUnits.dev.team? 1, t.scrLive = true ∧ (someCopy .none [0, 1] none).src = .scr 1 0 ∧ (someCopy .none [0, 1] none).dst = .scr 1 64) ∧
    (∃ i ∈ stUnits.dev.issuer?, i.on gNone = [] ∧ i.on gA ≠ [] ∧ stUnits.dev.copiesFull i.core = false ∧
      (∀ f ∈ [CpyForm.short 1 0 3 2 0x3EE 0 0, .full 1 0 0 1 true false 0 3 2 6 63, .full 0 1 0 2 false false 0 2 3 63 2], ∃ x ∈ linearOf i f,
        x.2.2.1 % 16 = 0 ∧ x.2.2.2.1 % 16 = 0 ∧ x.2.2.2.2.1 % 16 = 0 ∧ x.2.2.2.2.1 ≤ 0x1000000 ∧
        okB (stUnits.dev.completion i x.2.2.2.2.2.2.1 x.2.2.2.2.2.2.2) = true ∧ okB (stUnits.dev.sideAt i x.1 x.2.2.1 x.2.2.2.2.1) = true ∧
        okB (stUnits.dev.sideAt i x.2.1 x.2.2.2.1 x.2.2.2.2.1) = true ∧ (0 < x.2.2.2.2.1 ∨ x.2.2.2.2.2.2.1 ≠ 0)) ∧
      (∀ ins ∈ [Instr.cpy (.full 1 0 1 0 false false 0 3 4 63 63) gA, .cpy (.full 0 1 2 0 false false 0 4 3 63 63) gA, .cpg ⟨1, 1, 3, 4, 0, 63, gA⟩],
        ∃ x ∈ boxOf i stUnits.dev ins, x.1 = gA ∧ x.2.2.1.isEmpty = true ∧ ∃ a ∈ x.2.2.2, 0 < a.bytes)) ∧
    (∃ i ∈ (copying (List.replicate 256 (someCopy .none [] none))).dev.issuer?, (copying (List.replicate 256 (someCopy .none [] none))).dev.copiesFull i.core = true) := by
  decide +kernel

theorem test_meets_CopiesMove_ends :
    (∀ fin ∈ [Completion.none, .mb ⟨1, 64, 0⟩, .cnt 0x9000], let s := copying [someCopy fin [] none]
      ∃ c ∈ s.dev.copy? 9, c.completes s.dev = true ∧ c.fin = fin ∧ (fin = .cnt 0x9000 → (match s.dev.engWord 0 0 0 0x9000 with
        | (d, .ok x) => (match (d.engWrite 0 0 0 0x9000 (wordBytes (x + 32))).2 with | .ok _ => true | _ => false) | _ => false) = true)) ∧
    (∃ c ∈ (copying [crcCopy]).dev.copy? 9, c.completes (copying [crcCopy]).dev = true ∧ c.crc = true ∧
      (match ((copying [crcCopy]).dev.engWrite 0 0 0 0x9008 (natBytes 8 (crc32c (fgetBytes c.got 0 c.bytes)).toNat)).2 with | .ok _ => true | _ => false) = true) ∧
    (∃ c ∈ (copying [someCopy .none [1] none]).dev.copy? 9, c.left ≠ []) ∧
    (∃ i ∈ (copying [someCopy .none [1] none]).dev.issuer?, (copying [someCopy .none [1] none]).dev.batchesFull i.ref = false) ∧
    (let cs := (List.range 17).map fun k => { someCopy .none [1] (if k = 16 then none else some (BitVec.ofNat 32 k)) with id := k }
     ∃ i ∈ (copying cs).dev.issuer?, (copying cs).dev.batchesFull i.ref = true) ∧
    (∃ i ∈ (copying [someCopy .none [1] (some 0xFFFFFFFF)]).dev.issuer?, (i.sca 63 - (0xFFFFFFFF : Word64)).toNat ≠ 0) := by decide +kernel

def matOp (k : MatKind) (id : Nat) : MatOp :=
  { id, by_ := ⟨1, 0⟩, core := 0, sextant := 0, pid := 0, asid := 0, pc := 0, tile := 0, kind := k, skip := [], rows := [], cols := [] }
def matting (ms : List MatOp) : State := { stUnits with dev := { stUnits.dev with mats := ms } }
def mmBf : MmaOp := mm 0 false false false false 0 0 15 8 4
def someB (todo : Option (List Nat)) (f : Bool) : HostB :=
  { rec_ := 0x8000, l := someLayout, k0 := 0, n0 := 0, todo, got := [], fetched := f, held := false }

theorem test_meets_MatrixUnits :
    (∃ i ∈ stUnits.dev.issuer?, i.grp.splits.length = 1 ∧ i.active.length = i.grid.launch.width ∧ stUnits.dev.matFull i = false ∧
      (∀ o ∈ [mmBf, mm 5 false true true true 0 0 0 6 3], (i.operand o false).1.isEmpty = true ∧ (i.operand o true).1.isEmpty = true ∧ o.d.toNat + 1 ≤ 16 * i.grid.launch.accu) ∧
      (match (stUnits.dev.readLayout i ((i.sca 4).toNat % 2 ^ 48)).2 with | .ok l => l == someLayout | _ => false) = true ∧
      hostBOk mmBf (someB none false) = true ∧ (15 : BitVec 8).toNat + (0 : BitVec 4).toNat + 1 ≤ 16 * i.grid.launch.accu ∧ i.on gNone = [] ∧
      (Instr.amov false 248 15 gA).wf i.lc = true ∧ stUnits.dev.matOpen i.ref 15 false = false) ∧
    (let s := matting (List.replicate 16 (matOp (.fill 1 0) 9)); ∃ i ∈ s.dev.issuer?, s.dev.matFull i = true ∧ s.dev.matOpen i.ref 0 false = true) ∧
    (∃ i ∈ (stTwo .ready).dev.issuer?, i.grp.splits.length ≠ 1 ∧ (oldest (i.convGroup st.dev.nextId).splits).isSome = true) ∧
    (∃ i ∈ (inSlice 0 fun x => { x with x := 14 }).dev.issuer?, i.grp.splits = [i.sp] ∧ i.active.length ≠ i.grid.launch.width) ∧
    (∃ i ∈ stOwed.dev.issuer?, (∃ o ∈ i.grp.owed, ∃ it ∈ o.items, it.dest = .v 0 5 ∧ i.sp.mask.getLsbD 0 = true) ∧ (3 : BitVec 8).toNat ≤ 5 ∧ 5 ≤ (3 : BitVec 8).toNat + 2) := by
  decide +kernel

theorem test_meets_MatrixUnits_ends :
    (∀ k ∈ [MatKind.fill 2 7, .mma mmBf ⟨false, 8, []⟩ ⟨true, 0, []⟩ [] [], .mmah mmBf ⟨false, 8, []⟩ [] (someB (some []) true)], let s := matting [matOp k 9, matOp (.fill 1 0) 10]
      ∃ m ∈ s.dev.mat? 9, ((s.dev.matQueue m.core m.sextant).head?.map fun x => x.id) = some 9 ∧ m.skip = [] ∧
        ∃ t ∈ s.dev.team? m.by_.team, ((s.dev.sampled m).result t.tile).isSome = true) ∧
    (let s := matting [matOp (.fill 2 7) 9, matOp (.fill 1 0) 10]
     ∃ m ∈ s.dev.mat? 10, ((s.dev.matQueue m.core m.sextant).head?.map fun x => x.id) ≠ some 10) ∧
    (∀ x ∈ [some [], none], let s := matting [matOp (.mmah mmBf ⟨false, 8, []⟩ [] (someB x false)) 9]
     ∃ m ∈ s.dev.mat? 9, ∃ b ∈ m.hostB?, b.2.fetched = false ∧ b.2.todo = x) ∧
    (let s := matting [matOp (.mmah mmBf ⟨false, 8, []⟩ [] (someB (some [0x9008]) false)) 9]
     ∃ m ∈ s.dev.mat? 9, ∃ b ∈ m.hostB?, b.2.held = false ∧ s.dev.mayFetch m = true ∧ b.2.todo = some [0x9008] ∧
       (match (s.dev.engRead (m.core / 128) m.pid m.asid 0x9008 (32 - 0x9008 % 32)).2 with | .ok _ => true | _ => false) = true) := by decide +kernel

theorem test_meets_MatrixUnits_product : ∃ x : MatIn, ∀ r k, x.sa r k = 127 ∧ x.sb r k = 127 ∧ x.a r k < 256 ∧ x.b r k < 256 :=
  ⟨⟨fun _ _ => 255, fun _ _ => 128, fun _ _ => 127, fun _ _ => 127⟩, by simp⟩

theorem test_meets_MatrixUnits_drain : ∃ i ∈ stUnits.dev.issuer?, i.on gNone = [] ∧ i.on gA ≠ [] ∧
    (∀ o ∈ [{ ad 0 .rne false false false none 63 with d := 2, a := 15, b := 63 }, { ad 4 .rne true false false none 63 with d := 2, a := 14, b := 3 }],
      o.a.toNat + (if o.fmt = 4 then 2 else 1) ≤ 16 * i.grid.launch.accu ∧
      (let str := if i.sca o.b = 0 then BitVec.ofNat 64 (drainShape o.fmt.toNat).2 else i.sca o.b
       str.toNat % 16 = 0 ∧ (stUnits.dev.checkPieces i .g ((List.range 16).map fun r => ((i.sca o.d + BitVec.ofNat 64 r * str).toNat, [])) ).2.1.isEmpty = true)) ∧
    (stUnits.dev.checkPieces i .s (drainPieces { ad 0 .rne false true false none 63 with d := 63 } [] [] 0 64)).2.1.isEmpty = true := by decide +kernel

/-- Calls: entry 0 writes at s10 (4 elements); entry 7 reads there and returns a vector at scratchpad 0 and arrives at s18. -/
def callW : NmcallOp := ⟨0, false, 63, 10, 16, 63, gA⟩
def callR : NmcallOp := ⟨7, false, 62, 10, 16, 18, gA⟩
def stCall : State := after (.nmcall callW) stUnits
def someRound (closed : Option Nat) : Round :=
  { id := 9, owner := .team 1, die := 0, calls := [], ncall := 3, units := [1, 2], work := [], nerr := 0, closedAt := closed, stopped := false, status := some (1, 0), arrive := some ⟨1, 512, 0⟩, lines := [] }

theorem test_meets_NearMemoryCalls :
    (∃ i ∈ stUnits.dev.issuer?, i.on gNone = [] ∧ i.on gA ≠ [] ∧ stUnits.dev.callHeld i = false ∧ (∀ o ∈ [callW, callR],
      okB (stUnits.dev.acceptCall i.core i.grid.pid i.grid.asid o.ent.toNat o.f64 ((List.range 6).map fun k => i.sca (o.a + BitVec.ofNat 6 k)) (i.sca o.b)).2 = true ∧
      okB (stUnits.dev.areaAt i o.d 512) = true ∧ (o.c = 63 ∨ okB (stUnits.dev.objectAt i o.c) = true)) ∧
      (stUnits.dev.zentry i.die 7).res = true ∧ (stUnits.dev.zentry i.die 0).res = false ∧ stUnits.dev.openRound? (.team i.ref.team) = none ∧
      okB (stUnits.dev.areaAt i 62 8) = true) ∧
    (∃ i ∈ stCall.dev.issuer?, (stCall.dev.openRound? (.team i.ref.team)).isSome = true) ∧
    (let s := inDev fun d => d.modDie 0 fun x => { x with reload := true }; ∃ i ∈ s.dev.issuer?, s.dev.callHeld i = true) ∧
    (∃ x ∈ stCall.dev.call? 3, stCall.dev.roundAway x.1 = false ∧ x.2.started = false ∧ x.1.mayStart x.2 = true) ∧
    (∀ c ∈ [none, some 0], let s := inDev fun d => { d with rounds := [someRound c] }
      ∃ r ∈ s.dev.round? 9, r.owner = .team 1 ∧ s.dev.roundAway r = false ∧ s.dev.roundQuiet r = c.isSome ∧ r.ncall < 2 ^ 16 ∧ r.units.length < 2 ^ 16 ∧
        ∃ t ∈ s.dev.team? 1, t.scrLive = true) := by decide +kernel

/-- The call under way, with these sectors to read and to write. -/
def callIs (left out : List Nat) : Dev :=
  { stCall.dev with rounds := stCall.dev.rounds.map fun (r : Round) => r.modCall 3 fun c => { c with started := true, left, out } }
def sumCall (ent : Nat) : Dev :=
  { callIs [] [] with rounds := (callIs [] []).rounds.map fun (r : Round) => r.modCall 3 fun c => { c with ent } }

/-- Started with nothing left, with a sector to read, and with one to write, whole or poisoned. -/
theorem test_meets_NearMemoryCalls_started :
    (∀ d ∈ [callIs [] [], sumCall 6, sumCall 7], ∃ x ∈ d.call? 3, d.roundAway x.1 = false ∧ x.2.started = true ∧ x.2.ended = false ∧ x.2.left = [] ∧ x.2.out = [] ∧
      (x.2.ent = 6 ∨ x.2.ent = 7 → (d.zentry x.1.die x.2.ent).res = true)) ∧
    (∀ x ∈ [([0x400], []), ([], [0x400])], ∀ p ∈ [[], [0x400]], let d := { callIs x.1 x.2 with poison := p }
      ∃ y ∈ d.call? 3, d.roundAway y.1 = false ∧ y.2.started = true ∧ y.2.ended = false ∧ y.2.left = x.1 ∧ y.2.out = x.2 ∧ y.2.out.filter y.2.inputsRead = x.2 ∧
        ∃ l ∈ y.2.leaf? (32 * 0x400), d.poisoned (l.paOf (32 * 0x400)) 32 = !p.isEmpty) := by decide +kernel

/-- A table of 8 rows of 4 binary32 words in the capacity tier, two bags over it. -/
def stBag : State :=
  let s := withMem (withMem (withMem (withS (mapped st) [(2, 0x8000), (20, 0x8100), (21, 0x8200), (23, 2)]) 0x8000 [0x200000, 0x0000000800100004, 8, 0, 0, 0, 0, 0])
    0x8100 [3]) 0x8200 [0x0000000100000000, 1]
  { s with dev := s.dev.modCore 0 fun c => { c with tlb := { page 0 with base := 0x200000, size := 0x200000, pa := 2 ^ 48 + 0x200000 } :: c.tlb } }
def someBag (t : Nat) : Embag :=
  { id := 9, by_ := ⟨1, 0⟩, pc := 0, red := 2, tva := 0x200000, rows := 8, rstr := 16, dim := 4, fmt := 8, l0 := 0x40000, key := 0, idx := ⟨0x8100, [page 0]⟩,
    offs := [0, 0, 1], wts := none, nbag := 2, out := (t, 64), arrive := some ⟨1, 512, 0⟩
    left := [], got := [], bad := false, bags := [], chunks := [], ecc := false }

theorem test_meets_EmbedsBags :
    (∃ i ∈ stBag.dev.issuer?, i.on gNone = [] ∧ i.on gA ≠ [] ∧ okB (stBag.dev.acceptBag i 0 ⟨62, 20, 2, 63, gA⟩).2 = true) ∧
    (∀ t ∈ [1, 5], let s := inDev fun d => { d with embags := [someBag t] }
     s.dev.embags.find? (fun x => x.id == 9) = some (someBag t) ∧ ((s.dev.team? t).any fun x => x.scrLive) = decide (t = 1)) ∧
    (∀ e ∈ [{ someBag 1 with left := [0x408] }, { someBag 1 with bags := [1] }, { someBag 1 with chunks := [(0, [1, 2])] }], let s := inDev fun d => { d with embags := [e] }
     s.dev.embags.find? (fun x => x.id == 9) = some e ∧ s.dev.poison = [] ∧ (∃ t ∈ s.dev.team? 1, t.scrLive = true) ∧
      (((e.idx :: e.wts.toList).flatMap (·.pages)).find? (fun l => l.base ≤ 32 * 0x408 ∧ 32 * 0x408 < l.base + l.size)).isSome = true ∧
      s.dev.poisoned ((page 0).paOf (32 * 0x408)) 32 = false) ∧
    (∀ bad ∈ [false, true], let e := { someBag 1 with bad }; e.dim % 4 = 0 ∧ e.bad = bad) := by decide +kernel

/-- Objects at scratchpad 0 and 64: valid or not. -/
def withObj (v : Bool) (ph : Nat) : State := inTeam fun t =>
  { t with scr := fsetBytes [] 0 ({ arr := 1, exp := 2, gen := 7, rsv := 0, valid := v, phase := ph, owed := 0 } : Obj).toBytes }
def objIs (o : ObjAt) : Bool := match o with | .at_ 1 0 => true | _ => false

def arriving (v : Bool) (gen : BitVec 8) : State :=
  let s := withObj v 0
  { s with dev := { s.dev with arrivals := [{ id := 9, at_ := ⟨1, 0, gen⟩, n := 1, bytes := 0, sender := 1 }] } }

theorem test_meets_BarriersHold : ∀ v ∈ [true, false], ∃ i ∈ (withObj v 0).dev.issuer?, i.on gA ≠ [] ∧ i.on gNone = [] ∧ objIs ((withObj v 0).dev.objAt i 63) = true ∧
    i.releaseMet (withObj v 0).dev .clu = true ∧ ((withObj v 0).dev.objectOf 1 0).valid = v := by decide +kernel

theorem test_meets_BarriersHold_arrival :
    (∃ i ∈ (withS st [(9, 8)]).dev.issuer?, (i.on gA).head? = some 0 ∧ (i.sca 9).toNat % 16 ≠ 0) ∧
    (∀ x ∈ [(true, 7), (true, 8), (false, 7)], let s := arriving x.1 x.2
      (s.dev.arrivals.find? fun y => y.id == 9).isSome = true ∧ (s.dev.objectOf 1 0).valid = x.1 ∧ (s.dev.objectOf 1 0).gen = 7 ∧
      ∃ t ∈ s.dev.team? 1, t.away = false ∧ t.scrLive = true) ∧
    (let o : Obj := { arr := -2 ^ 31, exp := 2 ^ 32 - 1, gen := 255, rsv := 127, valid := true, phase := 65535, owed := 2 ^ 31 - 1 }
     o.arr < 2 ^ 31 ∧ -2 ^ 31 ≤ o.arr ∧ -2 ^ 31 ≤ o.owed ∧ o.owed < 2 ^ 31 ∧ o.exp < 2 ^ 32 ∧ o.gen < 256 ∧ o.rsv < 128 ∧ o.phase < 65536) := by decide +kernel

/-- MBWAIT for phase 0: an invalid object, then 1 past, 0x7FFF past, 0x8000 past, none past. -/
theorem test_meets_BarriersHold_wait :
    (∀ x ∈ [(false, 0), (true, 1), (true, 0x7FFF), (true, 0x8000), (true, 0)], let s := withObj x.1 x.2
      ∃ i ∈ s.dev.issuer?, i.sp.wait = .ready ∧ objIs (s.dev.objAt i 63) = true ∧ ((s.dev.judgeObj 1 0).group? i.ref).isSome = true ∧ (s.dev.objectOf 1 0).valid = x.1 ∧
        ((s.dev.objectOf 1 0).phase + 65536 - (i.sca 63).toNat % 65536) % 65536 = x.2) ∧
    (∃ i ∈ (inSplit fun x => { x with wait := .object 1 0 7 (some false) }).dev.issuer?, i.sp.wait = .object 1 0 7 (some false)) := by decide +kernel

/-- BAR and CBAR: the only group, and one of two. -/
theorem test_meets_BarriersHold_barrier : ∀ two ∈ [false, true], ∀ cluster ∈ [false, true],
    let s := inTeam fun t => { t with groups := if two = true then t.groups ++ t.groups.map (fun g => { g with num := 1 }) else t.groups }
    ∃ i ∈ s.dev.issuer?, i.sp.wait = .ready ∧ i.releaseMet s.dev (if cluster = true then .clu else .core) = true ∧
      (let d := s.dev.modGroup i.ref fun _ => (i.released s.dev).await i.sp (.barrier cluster 3)
       (∃ t ∈ d.team? i.ref.team, d.barrierReady t cluster 3 = !two)) ∧ (i.grp.splits.map fun x => x.stamp).Nodup := by decide +kernel

theorem test_meets_Regroups :
    (∃ i ∈ (stTwo .ready).dev.issuer?, i.grp.splits.length ≠ 1 ∧ (oldest (i.convGroup st.dev.nextId).splits).isSome = true) ∧
    (∃ i ∈ (inTeam fun t => { t with groups := t.groups ++ t.groups.map (fun g => { g with num := 1 }) }).dev.issuer?, i.grp.splits.length = 1 ∧ i.sp.wait = .ready ∧
      (∀ g ∈ i.team.groups, g.num ≠ i.ref.group → ∀ x ∈ g.splits, x.wait ≠ .regroup) ∧ ∃ g ∈ i.team.groups, g.num ≠ i.ref.group ∧ g.splits ≠ []) ∧
    (∃ i ∈ st.dev.issuer?, i.grp.splits = [i.sp] ∧ i.team.groups = [i.grp] ∧ i.grp.parked = false ∧ i.grp.stop = false ∧
      (∀ x ∈ i.grp.slices, x.cf = [] ∧ x.rstack = []) ∧ i.grp.slices.length * 4 = i.grid.launch.width ∧ i.sp.wait ≠ .regroup) := by decide +kernel

/-! ### Engines, chains, integration, solves -/

/-- A fetch or a write by an engine succeeds. -/
def okE {α : Type} (r : Dev × Eng α) : Bool := match r.2 with | .ok _ => true | _ => false

/-- A tableau of one stage at 0x8000, a context record at 0x8100, a ring of 16 entries at 0x8400. -/
def tabW : List Word64 := [0x121010, 0, 0, 0, 0, 0, 0, 0, 0, 0x3FF0000000000000, 0x3FE0000000000000, 0, 0x3FF0000000000000]
def ctxW (t0 : Word64) : List Word64 := [0x8000, t0, 0x3FF0000000000000, 0x3FB0000000000000, 0, 0x3FE0000000000000, 0, 0, 0x3FE0000000000000,
  0x3FE0000000000000, 0x4000000000000000, 0x100000004, 0x200000, 0x1000000210000, 0xFFFFFFFFFFFF0001, 0xA000, 0xA008, 0, 0, 0, 0, 0, 0, 0]
def someChain (e : Nat) : Chain :=
  { addr := 0x8800, pid := 0, asid := 0, eng := e, logn := 4, ring := 0x8400, tgt := 0, cword := 0x8808, head := 0, tail := 1, lead := 0, done := [],
    halted := false, code := 0, due := false, told := false, held := false, stuck := false }
def someNode : Node :=
  { id := 1, pid := 0, asid := 0, lrec := 0x9000, gtim := 5, bufa := 0xB000, nbuf := 2, bcap := 2, rsz := 64, ownq := 0, bufs := [emptyBuf, emptyBuf],
    next := 0, firing := 0, destroyed := false }
/-- Words of memory at rising addresses. -/
def memAt (xs : List (Nat × List Word64)) : FMap Byte :=
  xs.flatMap fun (a, ws) => ((ws.flatMap wordBytes).zipIdx.map fun (b, k) => (a + k, b)).filter fun x => x.2 != 0
def engTlb : List Leaf := [page 0, { page 0 with base := 0x200000, size := 0x200000, pa := 0x200000 }]
def stMemory (xs : List (Nat × List Word64)) : State := inDev fun d =>
  { (d.modDie 0 fun x => { x with l2tlb := engTlb }).modCore 0 fun c => { c with tlb := engTlb } with mem := memAt xs, cycle := 1, nodes := [someNode] }
def stEngT (t0 : Word64) (ents : List Word64) : State := stMemory [(0x8000, tabW), (0x8100, ctxW t0), (0x8400, ents)]
def stEng (ents : List Word64) : State := stEngT 0 ents
def chained (c : Chain) (ents : List Word64) : State := { stEng ents with dev := { (stEng ents).dev with chains := [c] } }
def chainedT (t0 : Word64) (c : Chain) (ents : List Word64) : State := { stEngT t0 ents with dev := { (stEngT t0 ents).dev with chains := [c] } }
def noded (n : Node) : State := { stEng [] with dev := { (stEng []).dev with nodes := [n] } }
def xfer (fill : Word64) : List Word64 := [0x9000, 0x9100, 64, fill, 0x9200, 0, 0, 0]

theorem test_meets_EnginesAndChains :
    (∃ i ∈ stUnits.dev.issuer?, i.on gNone = [] ∧ i.sp.wait = .ready) ∧
    (∀ n ∈ [0, 1, 2, 16, 17], let t := BitVec.ofNat 64 n; let s := withS (chained (someChain 1) []) [(2, 0x8800), (3, t)]
      ∃ i ∈ s.dev.issuer?, i.on gA ≠ [] ∧ (i.sca 2).toNat % 64 = 0 ∧ (i.sca 2).toNat < 2 ^ 48 ∧ (i.sca 3) = t ∧
        s.dev.chain? (chainKey i.grid.pid (i.sca 2).toNat) = some (someChain 1) ∧ i.releaseMet s.dev .dev = true) := by decide +kernel

/-- One record enters the open buffer; three wait where every buffer has fired. -/
theorem test_meets_EnginesAndChains_records : ∀ x ∈ [((1 : Word64), emptyBuf), (3, { emptyBuf with state := .fired 3 })],
    let s := withS (noded { someNode with bufs := [x.2] }) [(2, 1), (3, 0x8000), (4, x.1)]
    ∃ i ∈ s.dev.issuer?, i.sp.wait = .ready ∧ i.sp.begun = false ∧ i.on gA ≠ [] ∧ (i.sca 3).toNat % 8 = 0 ∧ (i.sca 4).toNat % 2 ^ 11 = x.1.toNat ∧
      (∃ nd ∈ s.dev.liveNode? i.grid.pid ((i.sca 2).toNat % 2 ^ 16), (match s.dev.recordBytes i false (i.sca 3).toNat (x.1.toNat * nd.rsz) with
        | (d, .ok bs) => i.releaseMet d .dev && ((d.modGroup i.ref fun _ => i.released d).enterMany 1 none (piecesOf nd.rsz x.1.toNat bs)).2.isEmpty == (x.1 == 1)
        | _ => false) = true) := by decide +kernel

/-- A context of one stage over 4 elements, as START enters it. -/
def someCtx : Ctx := (someChain 3).newCtx 0 0x8100 (ctxW 0) tabW
def integrating (c : Ctx) : State :=
  let s := chained (someChain 3) [2, 0, 0, 0, 0, 0, 0, 0]
  { s with dev := { s.dev with ctxs := [c] } }

theorem test_meets_EnginesAndChains_dense :
    ∀ cs ∈ [[someCtx], []], let s := withS { integrating someCtx with dev := { (integrating someCtx).dev with ctxs := cs } } [(2, 0), (3, 0x200000), (4, 0x8300)]
    ∃ i ∈ s.dev.issuer?, i.on gA ≠ [] ∧ (∀ c ∈ s.dev.ctx? ((i.sca 2).toNat % 256), c.pid = i.grid.pid) ∧
      (match s.dev.denseOut i 0 (i.sca 3).toNat (((s.dev.ctx? ((i.sca 2).toNat % 256)).map fun c => c.n * c.esz).getD 0) with
        | (d, .ok _) => (match d.denseStatus i (i.sca (3 + 1)).toNat with | (d', .ok _) => i.releaseMet d' .dev | _ => false)
        | _ => false) = true := by decide +kernel

theorem test_meets_EnginesAndChains_entries :
    (∀ x ∈ [(xfer 0, false), (xfer 3, false), (xfer 2, false), (xfer 4, true)], let s := chained (someChain 1) x.1
      s.dev.chain? 0x8800 = some (someChain 1) ∧ (someChain 1).takes = true ∧ transferBad x.1 = x.2 ∧
      (match s.dev.readEntry (someChain 1) with | (_, some ws) => ws == x.1 | _ => false) = true) ∧
    ({ someChain 1 with tail := 0 } : Chain).takes = false ∧ (someChain 2).eng ≠ 1 := by decide +kernel

theorem test_meets_Integrates :
    (∀ n ∈ [0, 0x4000000000000000], let t0 := BitVec.ofNat 64 n; let s := chainedT t0 (someChain 3) [1, 0x8100, 5, 0, 0, 0, 0, 0]
      s.dev.chain? 0x8800 = some (someChain 3) ∧ (someChain 3).takes = true ∧ s.dev.ctx? ((someChain 3).tgt * 64 + 5) = none ∧
      (match s.dev.readEntry (someChain 3) with
        | (d, some ws) => galliardEntry ws == some (1, 0x8100, 5) && match d.engWords 0 0 0 0x8100 24 with
          | (d2, .ok rs) => rs == ctxW t0 && (match d2.readTableau (someChain 3) 0x8000 with | (_, .ok tab) => tab == tabW | _ => false)
          | _ => false
        | _ => false) = true ∧ bits ((ctxW t0).getD 0 0).toNat 0 48 = 0x8000 ∧
      s.dev.startWhy ((someChain 3).newCtx 5 0x8100 (ctxW t0) tabW) true = if t0 = 0 then 0 else 2) := by decide +kernel

theorem test_meets_Integrates_attempt :
    (let s := chained (someChain 3) [3, 0, 0, 0, 0, 0, 0, 0]
     s.dev.chain? 0x8800 = some (someChain 3) ∧ (match s.dev.readEntry (someChain 3) with | (_, some ws) => galliardEntry ws == none | _ => false) = true) ∧
    (let s := integrating someCtx
     s.dev.chain? 0x8800 = some (someChain 3) ∧ (match s.dev.readEntry (someChain 3) with
       | (d, some ws) => galliardEntry ws == some (2, 0, 0) && (d.ctx? 0).any fun c => c.running | _ => false) = true) ∧
    (∃ c ∈ (integrating { someCtx with phase := .begin }).dev.ctx? 0, c.phase = .begin ∧ c.held = false ∧ c.recs = [] ∧
      okE ((integrating { someCtx with phase := .begin }).dev.engWrite (c.num / 64) c.pid c.asid (c.addr + 0xC8) ({ c with att := c.att + 1 } : Ctx).block) = true) := by
  decide +kernel

def someRec (att : BitVec 16) (lost : Bool) : CtxRec :=
  { idx := 4, att, kind := 0, stage := 0, node := 1, words := [], sent := true, entering := false, back := true, lost }
def someDense (pid : Nat) (t : Word64) : DenseReq :=
  { id := 8, ctx := 0, by_ := ⟨1, 0⟩, pid, asid := 0, out := ⟨0x8300, [page 0]⟩, status := (0x8380, page 0), t, arrive := none, served := false }
def densing (c : Ctx) (r : DenseReq) : State := { integrating c with dev := { (integrating c).dev with dense := [r] } }

theorem test_meets_Integrates_records :
    (∀ x ∈ [(0x80, 1, false), (0x80, 0, true), (0x80, 0, false), (6, 0, false)],
      ∃ c ∈ (integrating { someCtx with recs := [someRec (BitVec.ofNat 16 x.2.1) x.2.2], stages := [⟨0, 0, .evaluating⟩], status := BitVec.ofNat 8 x.1 }).dev.ctx? 0,
        c.held = false ∧ c.imex = false ∧ c.running = decide (x.1 = 0x80) ∧ c.att = 0 ∧ ∃ r ∈ c.recs.find? (fun y => y.idx == 4), r.back = true ∧ r.kind = 0) := by decide +kernel

theorem test_meets_Integrates_dense :
    (∀ x ∈ [(1, (0x4000000000000000 : Word64), (1 : BitVec 8)), (0, 0x4000000000000000, 6), (0, 0x4000000000000000, 1), (0, 0x3FE0000000000000, 1)],
      let s := densing { someCtx with status := x.2.2, phase := .ended, nacc := 1, tNew := 0x3FF0000000000000, hOld := 0x3FF0000000000000 } (someDense x.1 x.2.1)
      (∃ r ∈ s.dev.dense.find? (fun y => y.ctx == 0 && !y.served), r.pid = x.1) ∧ ∃ c ∈ s.dev.ctx? 0, c.pid = 0 ∧ c.held = false ∧ c.phase.servesDense = true ∧
        c.status = x.2.2 ∧ c.covers x.2.1 = decide (x.2.1 = 0x3FE0000000000000) ∧ okE (s.dev.denseElems c x.2.1) = true) := by
  decide +kernel

/-- FACT, SOLVE and FSOLVE of a 2 × 2 system at 0x8000. -/
def solveW (n : Nat) : List Word64 := [BitVec.ofNat 64 (n * 2 ^ 32), 0x8000, 16, 0x8080, 0x80C0, 0x8100, 0, 0x8180]
def someJob (op : Nat) (c : Option Nat) : CitternJob :=
  { id := 9, die := 0, chain := if c = none then some (0x8800, 0) else none, ctx := c, pid := 0, asid := 0, op, words := solveW 2, held := false }
def solving (op : Nat) : State :=
  let s := stMemory [(0x8000, [0x3FF0000000000000, 0, 0x4000000000000000, 0x3FF0000000000000])]
  { s with dev := { s.dev with chains := [someChain 2], jobs := [someJob op none] } }
/-- A context of one element, its absolute tolerance 1. -/
def stGmres : State := integrating { someCtx with rec_ := (someCtx.rec_.set 11 0x100000001).set 6 0x3FF0000000000000, stages := [⟨0, 0, .gmres⟩] }

theorem test_meets_SolvesSystems : (∀ op ∈ [1, 2, 3], let s := solving op; let o := CitternOp.ofWords (solveW 2)
      s.dev.job? 9 op = some (someJob op none) ∧ o.budget = 0 ∧ o.n = 2 ∧ (match s.dev.readRows 0 0 0 o.a o.lda o.n with
        | (d, .ok rows) => rows.length == 2 && (match d.readPivots 0 0 0 o.piv 2 with
          | (d, .ok _) =>
            let m := factor o.tau rows
            (match d.writeAll 0 0 0 (rowWrites o.a o.lda m.rows ++ [(o.piv, pivotBytes m.piv)]) with
            | (d, .ok ()) => (match d.engWords 0 0 0 o.b 2 with
              | (d, .ok b) => okE (d.writeAll 0 0 0 [(o.x, (m.solve b).flatMap wordBytes), (o.res, wordBytes 0 ++ wordBytes (m.residual b (m.solve b)))])
              | _ => false)
            | _ => false)
          | _ => false)
        | _ => false) = true) ∧
    (∃ k ∈ [(0 : Nat), 1], k < (factor 0 [[0, 1], [1, 0]]).rows.length) ∧
    (∃ c ∈ stGmres.dev.ctx? 0, c.solving? .gmres = some 0 ∧ c.held = false ∧ c.gmres = none ∧ (match stGmres.dev.gmresIn c 0 with
      | (d, .ok x) => dle (wrmsNorm d.fresh 4500000 x.atol x.rtol x.y x.r) (ddiv c.ntol 0x4024000000000000) && okE (d.engWrite 0 0 0 (c.vec 83) (List.replicate c.bytes 0))
      | _ => false) = true) := by decide +kernel

/-! ### Queues, teams, nodes, graphs -/

/-- A launch record at 0x8000 of one team of one group, its kernel's descriptor at 0x8200, a graph of one node at 0x9100. -/
def launchW : List Word64 := [0x8240, 0x0000000100000001, 0x444C1, 0, 0, 0, 0, 0]
def someQ (slot : Option (List Word64)) : Queue :=
  { num := 0, pid := 0, page := 0, vec := 1, logn := 4, ring := 0x8400, dies := 1, wgt := 1, stat := 0x8900, prio := 3, asid := 0, head := 0, kick := 1,
    halted := false, err := false, code := 0, posts := [], deficit := 1, since := none, level := 0, taken := [], slot, dying := false }
def queued (q : Queue) (round : List Nat) (gh : List Word64) : State :=
  let s := stMemory [(0x8000, launchW), (0x8200, [4]), (0x9100, gh)]
  { s with dev := { s.dev.modDie 0 (fun x => { x with round }) with queues := [q], chains := [someChain 1] } }
def turnAt (opc : Nat) (ws : List Word64) : Bool :=
  let s := queued (someQ (some ws)) [0] []
  decide (s.dev.queue? 0 = some (someQ (some ws)) ∧ (s.dev.die (0 / 64)).round.head? = some 0 ∧ (someQ (some ws)).turnType = some opc ∧
    (someQ (some ws)).slot = some ws ∧ (someQ (some ws)).halted = false ∧ s.dev.settle < s.dev.cycle)

theorem test_meets_QueuesRun :
    (∀ n ∈ [1, 0, 0xFFFFFFFF, 2, 16, 17], let k := BitVec.ofNat 32 n; let s := queued (someQ none) [] []
      s.dev.queues.find? (fun q => q.pid == 0 && q.page == 0) = some (someQ none) ∧ s.dev.frozen = false ∧ (s.dev.part 0).resetting = none ∧ s.dev.queue? 0 = some (someQ none) ∧
      (k = (someQ none).kick ∨ (k - (someQ none).kick).msb = true ∨ k ≠ (someQ none).kick ∧ (k - (someQ none).kick).msb = false) ∧
      ((k - (someQ none).head).toNat ≤ 2 ^ (someQ none).logn ∨ 2 ^ (someQ none).logn < (k - (someQ none).head).toNat)) ∧
    (queued (someQ none) [] []).dev.queues.find? (fun q => q.pid == 0 && q.page == 1) = none ∧
    (let s := queued (someQ none) [] []
     0 < s.dev.dies.length ∧ (s.dev.die 0).round = [] ∧ s.dev.settle < s.dev.cycle ∧ ∃ q ∈ s.dev.lanes 0, q.takes = true) := by decide +kernel

theorem test_meets_QueuesRun_turns : ∀ x ∈ [(0, [(0 : Word64), 0, 0, 0, 0, 0, 0, 0]), (1, [1]), (2, [2]), (3, [3]), (4, [4, 0x8600, 0, 0]), (4, [4, 0x8600, 0, 0x100000000]),
    (4, [4, 0x8600, 0, 0x200000005]), (5, [5, 0x8600, 7, 0]), (5, [5, 0x8600, 7, 1]), (5, [5, 0x8600, 7, 2]), (6, [6, 0x9100]), (7, [7, 0x8000]), (7, [7, 0x8040]),
    (8, [8, 0x10001, 0x8000]), (8, [8, 0x10002, 0x8000]), (9, [9, 0x8800, 1]), (9, [9, 0x8840, 1])], turnAt x.1 x.2 = true := by decide +kernel

theorem test_meets_QueuesRun_words :
    let d := (queued (someQ (some [])) [0] []).dev.turned 0
    let q := someQ none
    (∀ k ∈ [0, 1, 2], okE (d.signalWord q (q.packet [5, 0x8600, 7, BitVec.ofNat 64 k])) = true) ∧ okE (d.engWord 0 0 0 0x8600) = true ∧
    (match (d.checkLaunch q 0x8000).2 with | .ok _ => true | _ => false) = true ∧
    (match (d.checkLaunch q 0x8040).2 with | .ok _ => false | _ => true) = true ∧
    d.recordTarget 0 0x10002 = none ∧ (d.recordTarget 0 0x10001).isSome = true ∧ okE (d.engRead 0 0 0 0x8000 64) = true ∧
    (d.chain? (chainKey 0 0x8800)).isSome = true ∧ d.chain? (chainKey 0 0x8840) = none ∧
    okE ((d.accept q (q.packet [4, 0x8600, 0, 0])).engWord 0 0 0 0x8600) = true := by decide +kernel

/-- A graph of one CHAIN node; one whose header names an entry beyond it; one of an unassigned kind; one whose node cannot be read. -/
theorem test_meets_QueuesRun_graphs : ∀ x ∈ [([(1 : Word64), 0x9800, 0, 0, 0, 0, 0, 0], [(2 : Word64), 0x8800, 1, 0, 0, 0, 0, 0], false, false),
      ([0x10001, 0x9800, 0, 0, 0, 0, 0, 0], [2, 0x8800, 1, 0, 0, 0, 0, 0], true, false), ([1, 0x9800, 0, 0, 0, 0, 0, 0], [5, 0, 0, 0, 0, 0, 0, 0], false, true)],
    let d := (queued (someQ (some [6, 0x9100])) [0] (x.1 ++ x.2.1)).dev.turned 0
    graphHeaderBad x.1 = x.2.2.1 ∧ graphNodes x.1 = 1 ∧ graphBad (startNodes x.2.1 0) = x.2.2.2 ∧
    (match d.engWords 0 0 0 0x9100 8 with
      | (d, .ok hs) => hs == x.1 && match d.engWords 0 0 0 0x9140 8 with | (_, .ok ws) => ws == x.2.1 | _ => false
      | _ => false) = true := by decide +kernel

theorem test_meets_QueuesRun_graphs_lost :
    let d := { (queued (someQ (some [6, 0x9100])) [0] [1, 0x9800]).dev.turned 0 with poison := [0x9140 / 32] }
    (match d.engWords 0 0 0 0x9100 8 with
      | (d, .ok hs) => graphNodes hs == 1 && !okE (d.engWords 0 0 0 0x9140 8)
      | _ => false) = true := by decide +kernel

/-- A status word to write: earlier writes settled or not, the vector behind it or not. -/
theorem test_meets_QueuesRun_status : ∀ tell ∈ [false, true], ∀ t ∈ [0, 9],
    let d := { (queued { someQ none with posts := [(5, tell)] } [] []).dev with settle := t }
    ∃ q ∈ d.queue? 0, q.posts = [(5, tell)] ∧ (t = 0 → d.settle < d.cycle) ∧ (t = 9 → d.cycle ≤ d.settle) ∧
      okE (d.engWrite 0 q.pid q.asid q.stat (wordBytes 5)) = true := by decide +kernel

theorem test_meets_QueuesRun_timeout : ∀ t ∈ [1, 2],
    let p := { (someQ none).packet [4, 0x8600, 1, 1] with expires := some t }
    let s := queued { someQ none with taken := [p] } [] []
    ∃ q ∈ s.dev.queue? 0, q.again? = some p ∧ p.opc = 4 ∧ p.expires = some t ∧ 0 ∉ (s.dev.die (0 / 64)).round := by decide +kernel

/-! ### Placement, nodes, graphs, saves, retirement -/

def someUnit : Unit_ := { queue := 0, grid := 1, first := 0, per := 1, count := 1, saved := [] }
/-- A queue with a pending unit; its partition owns core 5 alone. -/
def stPlace : State :=
  let s := queued (someQ none) [] []
  { s with dev := { s.dev with pending := [someUnit], parts := listSet s.dev.parts 0 fun p => { p with rec_ := { p.rec_ with cores := 32 } } } }

theorem test_meets_TeamsPlaced :
    ((stPlace.dev.chooseUnit [7, 6, 5, 4, 3, 2, 1, 0]).2.map fun x => (x.1.num, x.2.1.grid, x.2.2)) = some (0, 1, [5]) ∧
    (∃ g ∈ stPlace.dev.grid? someUnit.grid, someUnit.saved = [] ∧ g.launch = fetchLaunch) ∧
    (∃ q ∈ stPlace.dev.queue? 0, stPlace.dev.waited q / max 1 (stPlace.dev.die (0 / 64)).ageus ≤ q.level) ∧
    (∀ c ∈ [1, 160000], let s := { stPlace with dev := { stPlace.dev with cycle := c } }
      (s.dev.core 7).gated = false ∧ (∀ t ∈ s.dev.teams, t.core = 7 → t.holds = false) ∧
        (s.dev.cycle < (s.dev.core 7).idle + 160000 ∨ (s.dev.core 7).idle + 160000 ≤ s.dev.cycle)) ∧
    (let s := inDev (·.modCore 0 fun c => { c with gated := true })
     (s.dev.core 0).gated = true ∧ ∃ t ∈ s.dev.teams, t.core = 0 ∧ t.holds = true) := by decide +kernel

/-- Ticks past 1,000 whatever the die's offset. -/
def stLate : State := { stPlace with dev := { stPlace.dev with cycle := 1600000, queues := [{ someQ none with since := some 0 }] } }

theorem test_meets_TeamsPlaced_ticks :
    stLate.dev.queue? 0 = some { someQ none with since := some 0 } ∧
    0 < stLate.dev.waited { someQ none with since := some 0 } / max 1 (stLate.dev.die (0 / 64)).ageus ∧
    0 < stLate.dev.dies.length ∧ (stLate.dev.die 0).window ≠ stLate.dev.tick 0 := by
  have h : stLate.dev.tick 0 = (1600000 + Config.tickOffset 0) / 1600 := rfl
  have hw : stLate.dev.waited { someQ none with since := some 0 } / max 1 (stLate.dev.die (0 / 64)).ageus =
      (1600000 + Config.tickOffset 0) / 1600 / 100 := rfl
  have hz : (stLate.dev.die 0).window = 0 := by decide +kernel
  refine ⟨by decide +kernel, ?_, by decide +kernel, ?_⟩
  · rw [hw]; omega
  · rw [hz, h]; omega

/-- A placed team whose window has begun. -/
def stStart : State :=
  let s := inTeam fun t => { t with state := .placed 66 }
  { s with dev := s.dev.modDie 0 fun x => { x with window := s.dev.tick 0 } }

theorem test_meets_TeamsPlaced_start : ∃ t l, stStart.dev.team? 1 = some t ∧ stStart.dev.launchOf t = some l ∧ stStart.dev.unitOf t = [t] ∧
    stStart.dev.nextStart? (t.core / 128) = some t ∧ t.core / 128 < stStart.dev.dies.length ∧
    (stStart.dev.die (t.core / 128)).window = stStart.dev.tick (t.core / 128) ∧ (stStart.dev.core t.core).gated = false ∧ t.record = 0 ∧
    (∀ g ∈ stStart.dev.grid? t.grid, g.origin.ofNode = false) ∧
    (stStart.dev.die (t.core / 128)).used + l.units ≤ (stStart.dev.die (t.core / 128)).rampu :=
  ⟨_, fetchLaunch, rfl, rfl, by decide +kernel, by decide +kernel, by decide +kernel, rfl, by decide +kernel, by decide +kernel, by decide +kernel, by decide +kernel⟩

theorem test_meets_TeamsPlaced_arguments :
    let s := (inLaunch fun l => { l with narg := 3, args := 0x8000 })
    let d := (mapped s).dev
    ∃ g ∈ d.group? ⟨1, 0⟩, ∃ sp ∈ g.splits.head?, ∃ i ∈ d.issuerAt? ⟨1, 0, sp.stamp⟩, i.ref = ⟨1, 0⟩ ∧ i.grid.origin = .packet 0 0 ∧ g.slices.length ≤ 8 ∧
      okB (d.loadWords i.core i.grid.pid i.grid.asid i.grid.launch.args i.grid.launch.narg).2 = true := by decide +kernel

/-- A node whose open buffer holds one record since tick 0; the header's page and the launch record are mapped. -/
def stFire : State :=
  let s := queued (someQ none) [] []
  { s with dev := { s.dev with cycle := 160000, nodes := [{ someNode with lrec := 0x8000, bufs := [{ state := .opened (some 0), count := 1, sources := [none] }, emptyBuf] }] } }

theorem test_meets_NodesAndGraphs_fires :
    (∃ n ∈ stFire.dev.node? 1, ∃ b ∈ n.bufs[0]?, b.state = .opened (some 0) ∧ 0 < b.count ∧ n.gtim = 5 ∧ stFire.dev.queue? n.ownq = some (someQ none) ∧
      okE (stFire.dev.engWrite (n.ownq / 64) n.pid n.asid n.bufa (natBytes 8 (n.firing.toNat * 2 ^ 32 + b.count) ++ natBytes 8 n.id ++ List.replicate 48 0)) = true ∧
      (match ((stFire.dev.modNode 1 fun x => { x with next := 1, firing := x.firing + 1 }).checkLaunch { someQ none with asid := n.asid } n.lrec).2 with
        | .ok _ => true | _ => false) = true) ∧
    0 + 5 < stFire.dev.queueTick 0 := by
  have h : stFire.dev.queueTick 0 = (160000 + Config.tickOffset 0) / 1600 := rfl
  refine ⟨by decide +kernel, ?_⟩
  rw [h]; omega

/-- A graph of five nodes, one of each kind, the last four waiting as the first completes. -/
def gnode (w : List Word64) (p : Nat) : GNode := { words := w, state := .waiting p 0, iters := 0, again := 0, data := [] }
def graphNodesW (k : Nat) : List GNode := [gnode [BitVec.ofNat 64 (k + 2 ^ 48 + 2 ^ 12 * 1 + 2 ^ 49 + 2 ^ 24 * 2), match k with | 0 => 0x8000 | 1 => 0x10001 | 2 => 0x8800 | _ => 0x8600,
  if k = 1 then 0x8000 else 1, 0, 0] 0, gnode [16] 0, gnode [32] 0]
def someGraph (k : Nat) : Graph := { id := 9, queue := 0, seq := 0, addr := 0x9100, status := 0x9800, aborted := false, stopped := false, nodes := graphNodesW k }
def graphing (k : Nat) : State := let s := queued (someQ none) [] []; { s with dev := { s.dev with graphs := [someGraph k] } }

theorem test_meets_NodesAndGraphs : ∀ k ∈ [0, 1, 2, 3, 4],
    ∃ g ∈ (graphing k).dev.graph? 9, g.stopped = false ∧ (graphing k).dev.queue? g.queue = some (someQ none) ∧ (∃ x ∈ g.nodes[0]?, x.ready = true ∧ x.kind = k ∧
      (match k with
        | 0 => (match ((graphing k).dev.checkLaunch (someQ none) (x.word 1)).2 with | .ok _ => true | _ => false)
        | 1 => ((graphing k).dev.recordTarget 0 (x.word 1)).isSome && okE ((graphing k).dev.engRead 0 0 0 (x.word 2) 64)
        | 2 => ((graphing k).dev.chain? (chainKey 0 (x.word 1))).isSome
        | 3 => okE ((graphing k).dev.engWord 0 0 0 (x.word 1))
        | _ => okE ((graphing k).dev.engWord 0 0 0 (x.word 1)) && !waitTest (bits (x.word 4) 0 2) 0 1) = true) ∧
      (∃ x ∈ g.nodes[1]?, x.ready = false) := by decide +kernel

theorem test_meets_NodesAndGraphs_complete : ∃ x, (graphNodesW 3)[0]? = some x ∧ x.again = 0 ∧ 0 ∉ [1, 2] ∧ [1, 2].length ≤ 3 ∧ (graphNodesW 3).length ≤ 4096 ∧
    (∀ m ∈ [1, 2], ∀ y ∈ (graphNodesW 3)[m]?, y.kind ≠ 4 ∧ y.state = .waiting 0 0 ∧ (y.npred ≠ 0 + 1 ∨ 0 ≠ 0 + 1)) ∧ [1, 2].Nodup := by
  exact ⟨_, rfl, by decide +kernel⟩

def savingSt (save : Option SavePoint) : State :=
  let s := inTeam fun t => { t with state := .saving 0, record := 0x2000000, recSize := 4096 }
  { s with dev := (s.dev.modGroup ⟨1, 0⟩ fun g => { g with save, splits := g.splits.map fun x => { x with clause := none } }) }

theorem test_meets_TeamsLeave :
    (∀ c ∈ [20000, 20001], let s := { savingSt none with dev := { (savingSt none).dev with cycle := c } }
      ∃ t ∈ s.dev.team? 1, ∃ g ∈ t.group? 0, ∃ gr ∈ s.dev.grid? t.grid, t.state = .saving 0 ∧ g.splits ≠ [] ∧ g.save = none ∧ (s.dev.part gr.pid).rec_.pw = 20000) ∧
    (let s := savingSt (some { hint := none })
     ∃ t ∈ s.dev.team? 1, (s.dev.grid? t.grid).isSome = true ∧ t.state = .saving 0 ∧ (∃ g ∈ t.groups.head?, 0 < g.slices.length ∧ g.splits ≠ []) ∧
      s.dev.savePoint (s.dev.savingTeams t) = true ∧ t ∈ s.dev.savingTeams t ∧ (∀ r ∈ s.dev.rounds, r.owner = .team 1 → r.stopped = true) ∧ ∀ x ∈ t.groups, x.posted = [] ∧ s.dev.obliged ⟨1, x.num⟩ x = false) ∧
    (let s := inTeam fun t => { t with state := .placed 0, record := 0x2000000, recSize := 4096 }
     ∃ t ∈ s.dev.team? 1, (s.dev.grid? t.grid).isSome = true ∧ t.state = .placed 0 ∧ t.record ≠ 0 ∧ t.groups ≠ [] ∧ 128 ≤ t.recSize) ∧
    (∃ t ∈ st.dev.team? 1, st.dev.clusterOf t = [t] ∧ t.state = .running ∧ ∃ g ∈ t.groups, g.splits ≠ []) ∧
    (let s := inGroup fun g => { g with splits := [] }
     ∃ t ∈ s.dev.team? 1, s.dev.clusterOf t = [t] ∧ t.state = .running ∧ ∀ g ∈ t.groups, g.splits = []) ∧
    (∀ n ∈ [0, 1, 7, 8], let s := inTeam fun t => { t with state := .retiring { killed := false, step := n } }
     let s : State := { s with dev := { s.dev with grids := s.dev.grids.map fun g => { g with left := 2 }, queues := [someQ none] } }
     ∃ t ∈ s.dev.team? 1, t.state = .retiring { killed := false, step := n } ∧ ∃ gr ∈ s.dev.grid? t.grid, (s.dev.part gr.pid).resetting = none ∧ gr.left = 2 ∧
      s.dev.queue? gr.queue = some (someQ none)) := by decide +kernel

/-! ### The mailbox, partitions, links, modules, firmware, the dump -/

/-- A function that has issued a command: a partition of 16 ASIDs and 4 vectors, its arguments in ARG. -/
def asking (s : State) (pid opc : Nat) (args : List Word64) : State :=
  { s with dev := { s.dev with parts := listSet s.dev.parts pid fun p => { p with
      rec_ := { p.rec_ with asidn := 16, nvec := 4, dwin := [(0, 2 ^ 40)], peers := 2 }, debugger := true,
      box := { p.box with busy := true, opc := BitVec.ofNat 8 opc, arg := args.zipIdx.map fun (w, k) => (k, w) } } } }
def asked_ (s : State) (pid opc : Nat) (args : List Nat) : Bool :=
  (s.dev.parts[pid]?).any fun p => p.asks opc && !s.fw.recovery && p.pid == pid && (args.zipIdx.all fun (w, k) => p.argN k == w)
def nums (xs : List Nat) : List Word64 := xs.map (BitVec.ofNat 64)

theorem test_meets_MailboxAnswers :
    (∃ p ∈ (asking st 3 2 []).dev.parts[3]?, p.resetting = none ∧ p.box.busy = true) ∧
    (∃ q ∈ st.dev.parts[3]?, q.resetting = none ∧ q.box.busy = false ∧ q.box.intr = false ∧ 0 ∈ q.box.masked) ∧
    (∃ p ∈ (inDev fun d => d.beginReset 3).dev.parts[3]?, p.resetting.isSome = true) ∧
    (∀ off ∈ [4, 0x0F8, 0x104, 0x200, 0x8000, 0x8400], off ≠ 0 ∧ (off < 0x100 ∨ 0x200 ≤ off ∨ off % 8 ≠ 0) ∧ (off < 0x8000 ∨ 0x8400 ≤ off ∨ off % 16 ≠ 8)) ∧
    (∀ x ∈ [(0x20, 1), (0x26, 1)], asked_ (asking st 1 x.1 [BitVec.ofNat 64 x.2]) 1 x.1 [x.2] = true) ∧
    (let s := asking { st with fw := { st.fw with recovery := true } } 0 2 []
     s.fw.recovery = true ∧ ∃ p ∈ s.dev.parts[0]?, p.asks 2 = true) ∧
    (∀ opc ∈ [0, 0x12, 0x1F, 0x27, 0xFF], asked_ (asking st 0 opc []) 0 opc [] = true) ∧
    (∀ x ∈ [(0x0F, 0), (0x0F, 6), (0x25, 0), (0x25, 5), (0x26, 0), (0x26, 4)], asked_ (asking st 0 x.1 [BitVec.ofNat 64 x.2]) 0 x.1 [x.2] = true) := by
  decide +kernel

/-- A function at rest, and one with a command under way: an OPC that the table does not list, and an operation that its
command does not; a vector pending and not. -/
theorem test_meets_PageEventsComplete :
    (∀ x ∈ [(3, 0x12, (0 : Word64)), (0, 0x25, 0), (3, 0x0F, 6)], let s := asking st x.1 x.2.1 [x.2.2]
      ∃ p ∈ s.dev.parts[x.1]?, p.resetting = none ∧ s.fw.recovery = false ∧ p.box.busy = true ∧ p.asks x.2.1 = true ∧ p.argN 0 = x.2.2.toNat) ∧
    (∀ vs ∈ [[], [5]], let s := inDev (·.modPart 3 fun p => { p with box := { p.box with pending := vs } })
      ∃ p ∈ s.dev.parts[3]?, p.resetting = none ∧ s.fw.recovery = false ∧ p.box.busy = false ∧ p.box.pending = vs) := by decide +kernel

/-- Descriptors at 0x8000: of a queue, of a node of queue 0, of a chain. -/
def queueW : List Word64 := [0x0040000000010000, 0x1001000000008900, 3 * 2 ^ 32 + 7, 0, 0, 0, 0, 0]
def nodeW : List Word64 := [0x9000, 0x000500000000B000, 0x0200400800000000, 0, 0, 0, 0, 0]
def chainW : List Word64 := [0x1400000000010000, 0x8808, 0, 0, 0, 0, 0, 0]
def describing (ws : List Word64) (pid opc : Nat) (args : List Nat) : State :=
  let s := stMemory [(0x8000, ws)]
  asking { s with dev := { s.dev with queues := [{ someQ none with num := 1, page := 1 }] } } pid opc (nums args)

theorem test_meets_RootsAndQueuesMade :
    (∀ x ∈ [[5, 0x40000], [16, 0x40000], [5, 0x40008], [5, 2 ^ 40]], asked_ (asking st 0 2 (nums x)) 0 2 x = true) ∧
    (∀ x ∈ [[5, 0x40000, 0x4000], [16, 0, 0]], asked_ (asking st 0 3 (nums x)) 0 3 x = true) ∧
    (∃ p ∈ (asking st 0 2 []).dev.parts[0]?, p.rec_.ownsAsid 5 = true ∧ p.rec_.ownsAsid 16 = false ∧ p.rec_.allows 0x40000 16 = true ∧
      paLegal st.dev.capacity 0x40000 = true ∧ p.rec_.allows (2 ^ 40) 16 = false) ∧ st.dev.openCalls 5 = [] ∧ stCall.dev.openCalls 0 ≠ [] ∧
    (∀ x ∈ [(0x8000, 1, true), (0x8000, 4, true), (0x8008, 1, false)], let s := describing queueW 0 4 [x.1, 0, x.2.1]
      ∃ p ∈ s.dev.parts[0]?, p.asks 4 = true ∧ p.queueBad queueW = false ∧ (match s.dev.descriptor p (p.argN 0) (p.argN 1) with
        | (d, some ws) => x.2.2 && ws == queueW && d.freeLane (BitVec.ofNat 4 (bits (ws.getD 1 0).toNat 60 4)) == some 0 &&
          lowestFree ((d.queues.filter fun q => q.pid == 0).map (·.page)) 256 == some 0
        | (_, none) => !x.2.2) = true) ∧
    (∃ p ∈ (asking st 0 2 []).dev.parts[0]?, p.queueBad [0] = true) ∧
    (∀ x ∈ [(5, 1), (5, 0), (6, 1), (6, 0)], let s := describing queueW 0 x.1 [x.2]
      asked_ s 0 x.1 [x.2] = true ∧ (s.dev.ownQueue? 0 x.2).isSome = decide (x.2 = 1)) ∧
    (let d := { st.dev with queues := (List.range 64).map fun k => { someQ none with num := k } }; d.freeLane 1 = none) := by decide +kernel

theorem test_meets_NodesAndChainsMade :
    (∀ x ∈ [(nodeW, true), ([0], false)], let s := let s := describing x.1 0 7 [0x8000, 0]; { s with dev := { s.dev with queues := [someQ none] } }
      asked_ s 0 7 [0x8000, 0] = true ∧ ∃ p ∈ s.dev.parts[0]?, (match s.dev.descriptor p 0x8000 0 with
        | (d, some ws) => (d.nodeOf 0 0 ws).isSome == x.2 && lowestFree (d.nodes.map (·.id)) 4096 == some 0
        | _ => false) = true) ∧
    (∀ x ∈ [1, 2], let s := describing nodeW 0 8 [x]; asked_ s 0 8 [x] = true ∧ (s.dev.liveNode? 0 x).isSome = decide (x = 1)) ∧
    (∀ x ∈ [(chainW, false), ([0], true)], let s := describing x.1 0 9 [0x8000, 0]
      asked_ s 0 9 [0x8000, 0] = true ∧ ∃ p ∈ s.dev.parts[0]?, (match s.dev.descriptor p 0x8000 0 with
        | (d, some ws) => chainBad ws == x.2 && d.chain? (chainKey 0 0x8000) == none && okE (d.engWrite 0 0 0 0x8808 (natBytes 8 0))
        | _ => false) = true) ∧
    (∀ x ∈ [(10, true), (10, false), (11, false)], let s := let s := describing [] 0 x.1 [0x8800]; { s with dev := { s.dev with chains := [{ someChain 1 with halted := x.2 }] } }
      asked_ s 0 x.1 [0x8800] = true ∧ s.dev.chain? (chainKey 0 0x8800) = some { someChain 1 with halted := x.2 } ∧ s.dev.chain? (chainKey 0 0x8840) = none) := by
  decide +kernel

theorem test_meets_FaultsAndDebugger :
    (∀ x ∈ [[8, 3], [512, 3], [7, 3], [513, 3], [8, 4]], asked_ (asking st 0 12 (nums x)) 0 12 x = true) ∧
    asked_ (asking st 0 13 []) 0 13 [0] = true ∧ asked_ (asking st 0 14 []) 0 14 [] = true ∧
    (∀ x ∈ [[1], [2], [3, 1, 0, 0], [3, 2, 0, 0], [4, 1, 0, 0, 0, 31, 255], [4, 1, 0, 0, 3, 0, 3], [5, 1, 0, 0, 2, 7, 63]], ∀ b ∈ [true, false],
      let s := let s := asking st 0 15 (nums x)
        { s with dev := s.dev.modGroup ⟨1, 0⟩ fun g => { g with stop := b, splits := g.splits.map fun y => { y with clause := none } } }
      asked_ s 0 15 x = true ∧ ∃ p ∈ s.dev.parts[0]?, (s.dev.debugGroup? p).isSome = decide (p.argN 1 = 1) ∧
        ∀ y ∈ s.dev.debugGroup? p, y.2.stopped = b ∧ y.2.slices.length ≤ 8 ∧ (3 < x.headD 0 → (y.2.debugRead (p.argN 4) (p.argN 5) (p.argN 6)).isSome = true)) := by
  decide +kernel

theorem test_meets_PartitionsHeld :
    asked_ (asking st 0 0x20 (nums [5, 0x8000])) 0 0x20 [5, 0x8000] = true ∧ (st.dev.parts[5]?).isSome = true ∧
    asked_ (asking st 0 0x20 (nums [64])) 0 0x20 [64] = true ∧ partRecBad [] = true ∧
    (∀ n ∈ [0, 1, 63, 64], asked_ (asking st 0 0x21 (nums [n])) 0 0x21 [n] = true) ∧ st.dev.parts.length = 64 ∧
    (∃ p ∈ st.dev.parts[7]?, p.resetting = none) ∧ (∃ p ∈ (inDev fun d => d.beginReset 7).dev.parts[7]?, p.resetting.isSome = true) := by decide +kernel

/-- A block whose source is still to be read, or has been read, or sent in datagrams not yet acknowledged. -/
def someBlock (left : List Nat) (data : Option (List Byte)) (dest : Nat) (grams : List CteGram) : CteBlock :=
  { chain := 0x8800, entry := 0, block := 0, dest, win := 7, idx := 0, src := 0x9000, size := 4096, conv := 0, left, got := [], data, grams, held := false }
/-- A send chain with such blocks; port 3 in each mode. -/
def linked (bs : List CteBlock) (cycle : Nat) (port : Port) : State :=
  let s := chained (someChain 4) [0x00070000010C0001, 0x9000, 1]
  { s with dev := { s.dev with
      blocks := bs, cycle, ports := listSet s.dev.ports 3 fun _ => port, peers := [(1, { identity := 77, ports := 8 })],
      parts := listSet s.dev.parts 0 fun p => { p with rec_ := { p.rec_ with peers := 2 }, windows := [
        { id := 7, asid := 0, table := 0x9000, ndst := 2, blk := 4096, cnt := 0x9800, from_ := (2, 0), seen := [(9, 1, 0)], parts := [] }] } } }
def aPort (mode : PortMode) (up : Bool) (r : Nat) : Port := { mode, up, replays := r, discarded := 0 }

theorem test_meets_LinksWork :
    (∀ n ∈ [64, 1, 2], (let s := linked [someBlock [] none n []] 1 (aPort .parzon true 0)
      s.dev.chain? 0x8800 = some (someChain 4) ∧ s.dev.blocks.find? (fun x => x.chain == 0x8800 && x.data.isNone && x.left.isEmpty) = some (someBlock [] none n []) ∧
        s.dev.peerDead 1 = false ∧ s.dev.peerDead 2 = true)) ∧
    (let s := linked [] 1 (aPort .parzon true 0)
     (someChain 4).takes = true ∧ s.dev.blocks = [] ∧ (match s.dev.readEntry (someChain 4) with
       | (d, some ws) => ws == [0x00070000010C0001, 0x9000, 1, 0, 0, 0, 0, 0] && (d.part 0).cteBad ws == false && (d.part 0).cteBad [] &&
          (match d.engWords 0 0 0 0x9000 1 with | (_, .ok srcs) => srcs == [0] | _ => false)
       | _ => false) = true) ∧
    (∀ gs ∈ [[⟨0, 0, 1⟩], [⟨0, 0, 1⟩, ⟨8192, 0, 1⟩]], let s := linked [someBlock [] (some []) 1 gs] 1 (aPort .off false 0)
      (s.dev.block? 0x8800 0 0).map (·.grams) = some gs ∧ (∃ g ∈ gs, g.off = 0)) ∧
    (∀ x ∈ [(16, 160001), (15, 160001), (0, 160000)], let s := linked [someBlock [] (some []) 64 [⟨0, x.1, 1⟩]] x.2 (aPort .off false 0)
      ∃ b ∈ s.dev.block? 0x8800 0 0, b.grams.find? (·.off == 0) = some ⟨0, x.1, 1⟩ ∧ 64 ≤ b.dest ∧ (x.2 < 1 + 160000 ∨ 1 + 160000 ≤ x.2)) ∧
    (let s := linked [] 1 (aPort .off false 0)
     s.dev.window? 6 = none ∧ s.dev.frozen = false ∧ ∃ x ∈ s.dev.window? 7, x.1.resetting = none ∧ x.2.opens 1 = true ∧ x.2.opens 0 = false ∧ x.2.ndst = 2 ∧
       x.2.blk = 4096 ∧ (9, 1, 0) ∈ x.2.seen ∧ (9, 0, 0) ∉ x.2.seen) ∧
    (∀ r ∈ [0, 7, 8], (linked [] 1 (aPort .parzon true r)).dev.ports[3]? = some (aPort .parzon true r)) ∧
    (∀ m ∈ [PortMode.parzon, .ethernet], (linked [] 1 (aPort m false 0)).dev.ports[3]? = some (aPort m false 0)) ∧
    (linked [] 1 (aPort .ethernet true 0)).dev.ports[3]? = some (aPort .ethernet true 0) := by decide +kernel

theorem test_meets_LinksWork_configured :
    (∀ x ∈ [[1, 77, 8], [63, 1, 0], [64, 1, 0], [1, 77, 1], [1, 77, 2 ^ 24]], asked_ (asking st 0 0x22 (nums x)) 0 0x22 x = true) ∧
    (∀ x ∈ [[3, 2], [2, 0], [23, 1], [24, 1], [0, 1], [3, 3]], asked_ (asking st 0 0x23 (nums x)) 0 0x23 x = true) ∧
    (∀ x ∈ [[3, 1 * 2 ^ 32 + 192 * 2 ^ 16 + 1], [4, 2 ^ 32], [0, 8 * 2 ^ 32]], asked_ (asking st 0 0x24 (nums x)) 0 0x24 x = true) ∧
    (∀ x ∈ [[1023, 5, 0x9000, 4, 4096, 0x9800, 2], [1024, 5], [7, 16], [7, 5, 4]], asked_ (asking st 0 0x10 (nums x)) 0 0x10 x = true) ∧
    ({ st.dev with capacity := true } : Dev).koraPort 0 = true ∧ st.dev.koraPort 3 = false ∧
    (∀ x ∈ [[255, 1], [256]], asked_ (asking st 0 0x11 (nums x)) 0 0x11 x = true) := by decide +kernel

/-- The least module: one string table that holds the empty name. -/
def moduleW : List Word64 := [0x14E524F42, 1, 64, 97, 0, 0, 0, 0, 10, 96, 1, 0]
def stLoad (ws : List Word64) : State :=
  let s := stMemory [(0x8000, ws)]
  asking { s with dev := s.dev.modDie 0 fun x => { x with l2tlb := [page 0, { page 0 with base := 0x200000, size := 0x200000, pa := 0x200000, x := true }] } }
    0 1 (nums [0x8000, 104, 0, 0x200000, 0x10000])

theorem test_meets_ModulesLoad :
    (∀ x ∈ [(moduleW, true), ([0], false)], let s := stLoad x.1
      asked_ s 0 1 [0x8000, 104, 0, 0x200000, 0x10000] = true ∧ (∃ p ∈ s.dev.parts[0]?, p.rec_.ownsAsid 0 = true ∧ p.rec_.ownsAsid 16 = false) ∧
      (match s.dev.engRead 0 0 0 0x8000 104 with
        | (_, .ok bs) => decide (bs = (x.1.flatMap wordBytes).take 104 ++ List.replicate (104 - 8 * x.1.length) 0)
        | _ => false) = true) ∧
    moduleFile (List.replicate 104 0) = none ∧
    (match moduleFile (moduleW.flatMap wordBytes ++ List.replicate 8 0) with
      | some (m, f) => m.length == 97 && (let b : Bind := { f, base := 0x200000, at_ := (f.places 0x200000).1, nodes := [] }
          (f.places 0x200000).2 == 0x200000 && (match b.relocated with
            | some secs => (match b.image secs with
              | some parts => parts.isEmpty && ((stLoad moduleW).dev.moduleNodes 0 0 b parts).isSome
              | none => false)
            | none => false))
      | none => false) = true ∧
    ((stLoad moduleW).dev.areaInUse 0 0x200000 0x10000 = false) ∧ (stLoad moduleW).dev.images = [] ∧
    ((stLoad moduleW).dev.areaPages 0 0 0x200000 0x210000 5).2 = some [(0x200000, 0x10000)] := by decide +kernel

/-- Placing it: no access is made, so the answer does not depend on the digest. -/
theorem test_meets_ModulesLoad_placed : ∀ (m : Module) (c : Cached), ((stLoad moduleW).dev.placeModule 0 m c [] [(0x200000, 0x10000)]).2 = true := fun _ _ => rfl

/-- What can be shown without an image that authenticates, which no value of this model decides (log 13). -/
theorem test_meets_FirmwareKept :
    (∀ x ∈ [(0x25, 1), (0x25, 2), (0x25, 3), (0x25, 4), (0x26, 1), (0x26, 2), (0x26, 3)], ∃ p ∈ (asking st 0 x.1 (nums [x.2, 0, 0, 1])).dev.parts[0]?,
      p.asks x.1 = true ∧ p.argN 0 % 256 = x.2 ∧ p.argN 3 ≤ 1) ∧
    (∃ p ∈ (asking st 0 0x25 (nums [1, 0, 0, 2])).dev.parts[0]?, 1 < p.argN 3) ∧
    (FwSlot.ofBytes []).malformed = true ∧ st.fw.refuses (FwSlot.ofBytes []) ≠ 0 ∧ st.fw.refuses (st.fw.slot 0) ≠ 0 ∧ st.fw.refuses (st.fw.slot 1) ≠ 0 ∧
    st.fw.recovery = false ∧ st.fw.svn ≤ st.fw.arb ∧ (0 < 1 ∧ st.fw.arb < 1) ∧ st.fw.on = true ∧ st.dev.dies.length = 4 := by decide +kernel

theorem test_meets_FatalAndPower :
    (∀ x ∈ [(true, 1), (false, 0), (false, 1), (false, 2)], ({ Dump.reset with writing := x.1, state := BitVec.ofNat 2 x.2 } : Dump).writing = x.1) ∧ st.dev.parts ≠ [] ∧
    (∀ m ∈ [[1, 0, 2 ^ 30], [1, 1, 2 ^ 30], [2], [3, 3], [3, 7]], asked_ (asking st 0 0x26 (nums m)) 0 0x26 m = true) ∧
    ((List.range 4).filter fun k => (3#4).getLsbD k).length ≤ 2 ∧ 2 < ((List.range 4).filter fun k => (7#4).getLsbD k).length ∧
    (∀ c ∈ [51, 1599], 50 < ({ st.fw with clock := c } : Fw).clock ∧ ({ st.fw with clock := c } : Fw).clock < 1600) ∧
    paLegal st.dev.capacity (32 * 5) = true ∧ paRegion (32 * 5) ≤ 1 ∧ st.dev.poisoned (32 * 5) 32 = false ∧ st.fw.on = true := by decide +kernel

theorem test_meets_SpdmAnswers : ∀ x ∈ [(false, false, false), (true, false, false), (true, true, false), (true, true, true)],
    let p : Spdm := { Spdm.reset with version := x.1, caps := x.2.1, algs := x.2.2, peer := if x.2.2 then some 5 else none, session := x.2.2 }
    p.ready = x.2.2 ∧ (p.ready = true → p.peer = some 5 ∧ p.session = true) := by decide +kernel

/-! ### Encodings and steps -/

def lastCtx : DecodeCtx := ⟨c256, true, false⟩
def stFetch (w : Nat) : State := State.reset.withFetchWord 64 w

theorem test_meets_EncodedDecodes :
    (∀ ins ∈ [Instr.nop gA, .exit gA, .idiv (ib i32 false (.v 0) (.v 1) (.imm 0)), .rgn, .clauseIssue { wait := 8, setA := 0, setB := 5, len := 4, rgne := true, pf := 2 }],
      ins.wf c256 = true ∧ (encode ins).isSome = true) ∧ lastCtx.last = true ∧ lastCtx.flagless = false := by decide +kernel

theorem test_meets_DecodedEncodes : (match decode lastCtx 0x00100000000000E0 with | .ok i => i == .nop gA | _ => false) = true ∧
    (match decodeStart 0xF008054C00000000 with | .ok h => h.len == 4 | _ => false) = true := by decide +kernel

theorem test_meets_StepRunsDecoded : (stFetch 0x00100000000000E0).fw.on = true ∧
    (match (stFetch 0x00100000000000E0).pickMove with | some (.word r i _) => r == ⟨1, 0, 0⟩ && i == .nop gA | _ => false) = true := by decide +kernel

theorem test_meets_StepRunsDecoded_idle : State.reset.fw.on = true ∧ State.reset.pickMove.isNone = true := by decide +kernel

theorem test_meets_StepRunsDecoded_words :
    (∀ x ∈ [0x00100000000000E0, 0x0FFFFFFFFFFFFFFF], ∃ i ∈ (stFetch x).dev.issuerAt? ⟨1, 0, 0⟩, (i.lc = c256 ∨ i.lc = ⟨256, 32, true⟩) ∧ ∃ c ∈ i.sp.clause,
      c.words = [BitVec.ofNat 64 x] ∧ c.setA = 0 ∧ c.setB = 1) ∧
    (decode lastCtx 0x00100000000000E0).toOption.isSome = true ∧ (∀ h ∈ [true, false], (decode ⟨⟨256, 32, h⟩, true, false⟩ 0x0FFFFFFFFFFFFFFF).toOption.isSome = false) ∧
    (∀ x ∈ [0xF008054C00000000, 0xFFFFFFFFFFFFFFFF], ∃ i ∈ (stFetch x).dev.issuerAt? ⟨1, 0, 0⟩, i.sp.clause = none ∧
      (stFetch x).dev.heldWord? i i.pc.toNat = some (BitVec.ofNat 64 x)) ∧
    (decodeStart 0xF008054C00000000).toOption.isSome = true ∧ (decodeStart 0xFFFFFFFFFFFFFFFF).toOption.isSome = false := by decide +kernel

/-- IDIV while its flag stands at 63, and at 62; a header that waits on flag 3. -/
def stFlag (n : Nat) : State :=
  { st with dev := st.dev.modGroup ⟨1, 0⟩ fun g => g.modSlices 0xFF fun _ x => { x with cf := [(0, n), (1, n)] } }

theorem test_meets_FlagsGateIssue :
    (∃ i ∈ (stFlag 63).dev.issuerAt? ⟨1, 0, 0⟩, i.splitRef = ⟨1, 0, 0⟩ ∧ i.sp.mask.getLsbD 7 = true ∧
      (Instr.idiv (ib i32 false (.v 0) (.v 1) (.imm 0))).longB = true ∧ (i.grp.slice 7).flag (i.sp.flagFor false) = 63) ∧
    (∃ i ∈ (stFlag 62).dev.issuerAt? ⟨1, 0, 0⟩, ∀ k, k < 8 → ∀ a ∈ [true, false], (i.grp.slice k).flag (i.sp.flagFor a) < 63) := by decide +kernel

theorem test_meets_FlagsGateIssue_header : let s := stFetch 0xF0080540F0000000
    ∃ i ∈ s.dev.issuerAt? ⟨1, 0, 0⟩, i.splitRef = ⟨1, 0, 0⟩ ∧ i.grp.mustReconverge i.sp = false ∧ i.takesAsync = false ∧ i.sp.mask.getLsbD 0 = true := by decide +kernel

theorem test_meets_MemoryStaysCanonical : (stFetch 0x00100000000000E0).dev.canonical = true ∧ (stFetch 0x00100000000000E0).fw.clockOk = true ∧
    (match step (stFetch 0x00100000000000E0) with | .next _ => true | _ => false) = true := by decide +kernel

theorem test_meets_CauseCodes : ∃ p ∈ State.reset.dev.parts[3]?, p.entries.length < p.depth ∧ p.keys = [] := by decide +kernel

/-! ## Examples of the spec

Each expected value is the spec's own, or worked out by hand from its rule. -/

/-- Lane 0's vector register `n` after a word, its inputs given. -/
def lane0 (ins : Instr) (vs : List (Nat × Word32)) (n : Nat) : Word32 :=
  ((after ins (withV st (vs.map fun (r, x) => (0, r, x)))).dev.group? ⟨1, 0⟩).elim 0 fun g => g.vreg 0 n

/-- R151: −2.7 rounds toward zero to −2; −5 saturates to 0. R152: 70,000 overflows to +Inf, and saturates to 57,344. -/
theorem test_conversion_examples :
    lane0 (.cvt ⟨1, 8, .rz, false, .v 0, .v 1, gA⟩) [(1, 0xC02CCCCD)] 0 = 0xFFFFFFFE ∧
    lane0 (.cvt ⟨4, 1, .rne, true, .v 0, .v 1, gA⟩) [(1, 0xFFFFFFFB)] 0 = 0 ∧
    lane0 (.fcvt ⟨13, 8, .rne, false, .v 0, .v 1, gA⟩) [(1, 0x4788B800)] 0 = 0x7C ∧
    lane0 (.fcvt ⟨13, 8, .rne, true, .v 0, .v 1, gA⟩) [(1, 0x4788B800)] 0 = 0x7B := by decide +kernel

/-- R142: TAB 0xD8 selects b where a is 1; TAB 0x96 is the exclusive OR of three. -/
theorem test_bool3_examples :
    lane0 (.bool3 ⟨0xD8, .v 0, .v 1, .v 2, .v 3, gA⟩) [(1, 0x0000FFFF), (2, 0x12345678), (3, 0x9ABCDEF0)] 0 = 0x9ABC5678 ∧
    lane0 (.bool3 ⟨0x96, .v 0, .v 1, .v 2, .v 3, gA⟩) [(1, 0x0F0F0F0F), (2, 0x33333333), (3, 0x55555555)] 0 = 0x69696969 := by decide +kernel

/-- R138: −1 as an immediate is 0xFFFF_FFFF, and the sum wraps; SAT clamps to the type. -/
theorem test_iadd_examples :
    lane0 (.iadd (ib ⟨false, true⟩ false (.v 1) (.v 1) (.imm 0xFFFFF))) [(1, 5)] 1 = 4 ∧
    lane0 (.iadd (ib i32 true (.v 1) (.v 1) (.imm 1))) [(1, 0x7FFFFFFF)] 1 = 0x7FFFFFFF ∧
    lane0 (.isub (ib ⟨false, true⟩ true (.v 1) (.v 1) (.imm 1))) [(1, 0)] 1 = 0 := by decide +kernel

/-- R188: both mirrors of a dimension of 5. -/
theorem test_border_examples :
    ([-3, -2, -1, 5, 6, 7].map fun c => ({ someLayout with zero := false, repeats := false } : Layout).mapCoord 5 c) = [3, 2, 1, 3, 2, 1].map some ∧
    ([-3, -2, -1, 5, 6, 7].map fun c => ({ someLayout with zero := false, repeats := true } : Layout).mapCoord 5 c) = [2, 1, 0, 4, 3, 2].map some := by
  decide +kernel

/-- The check value of CRC-32C over the digits 1 to 9 (R193). -/
theorem test_crc_check : crc32c ((List.range 9).map fun k => BitVec.ofNat 8 (0x31 + k)) = 0xE3069283 := by decide +kernel

/-- Gavotte's lane 9 of group 3 of team 4 finds private offset 0x40 at 35 × 8,192 + 16 × 128 + 36 beyond PBASE (R27). -/
theorem test_private_address : privAddr { fetchLaunch with pbase := 0x7E1000000000, psize := 256, ngroup := 8 } 4 3 9 0x40 = 0x7E1000046824 := by decide +kernel

/-- R332: SWTRAP without a handler kills the team; with one, the group enters it with RPC at the next word. -/
theorem test_trap_example :
    ((after (.trap 5 gA) (inLaunch fun l => { l with traph := true, handler := 0x5000 })).dev.group? ⟨1, 0⟩).map
      (fun g => ((g.slice 0).pc, g.tr0, g.tr1.extractLsb' 56 8)) = some (0x5000, 0x4008, 9) := by decide +kernel

end Sys2Proof.Machine
end

section
/-! SUPPORT. What one step does, by the move it takes: every move open to the device answers a next state, so the device
with power always goes on (R9, R64). -/

namespace Sys2Proof.Machine

/-- A move that can be taken is one whose run answers a next state. -/
theorem runs_iff {m : Move} {s : State} : runs m s = true ↔ ∃ t, run m s = .next t := by
  unfold runs
  cases run m s <;> simp

/-- The open moves are words that the ports choose and the other pending moves, both filtered by what can be taken; whose
turn it is only drops one of the two kinds (R20). -/
theorem mem_moves_cases {m : Move} {s : State} (h : m ∈ s.moves) :
    m ∈ (if s.dev.frozen then [] else s.wordMoves).filter (runs · s) ∨ m ∈ s.candidates.filter (runs · s) := by
  unfold State.moves at h
  generalize (if s.dev.frozen then [] else s.wordMoves).filter (runs · s) = words at h ⊢
  dsimp only at h
  split at h
  · exact .inr h
  · split at h
    · exact .inl h
    · exact List.mem_append.mp h

theorem runs_of_mem_moves {m : Move} {s : State} (h : m ∈ s.moves) : runs m s = true := by
  obtain hword | hother := mem_moves_cases h
  · exact (List.mem_filter.mp hword).2
  · exact (List.mem_filter.mp hother).2

/-- Whatever the free choice, the move it picks is an open one. -/
theorem mem_moves_of_pickMove {m : Move} {s : State} (h : s.pickMove = some m) : m ∈ s.moves := by
  unfold State.pickMove at h
  split at h
  case h_1 => cases h
  case h_2 m' hmoves =>
    cases h
    simp [hmoves]
  case h_3 => exact List.mem_of_getElem? h

theorem run_of_pickMove {m : Move} {s : State} (h : s.pickMove = some m) : ∃ t, run m s = .next t :=
  runs_iff.mp (runs_of_mem_moves (mem_moves_of_pickMove h))

/-- The state a taken move leaves, before time passes: a word that still waits for its port has been passed over (R20). -/
theorem State.take_of_run {m : Move} {s t : State} (h : run m s = .next t) :
    s.take m = .next ((if m.isWord || s.wordMoves.isEmpty then t else t.passedOver).pass 0) := by
  unfold State.take
  rw [h]

/-- With power and nothing to do, time passes. -/
theorem step_of_pickMove_none {s : State} (hon : s.fw.on = true) (h : s.pickMove = none) :
    step s = .next (s.pass 1) := by
  unfold step
  rw [if_pos hon, h]

/-- With power, a step takes the picked move. -/
theorem step_of_pickMove_some {m : Move} {s : State} (hon : s.fw.on = true) (h : s.pickMove = some m) :
    step s = s.take m := by
  unfold step
  rw [if_pos hon, h]

/-- Settles O55: with nothing to do time passes, and a picked move, being an open one, answers a next state. -/
theorem poweredNeverStops : Obligations.PoweredNeverStops := by
  intro s hon
  cases hpick : s.pickMove with
  | none => exact ⟨_, step_of_pickMove_none hon hpick⟩
  | some m =>
    obtain ⟨t, hrun⟩ := run_of_pickMove hpick
    exact ⟨_, (step_of_pickMove_some hon hpick).trans (State.take_of_run hrun)⟩

end Sys2Proof.Machine
end

section
/-! SUPPORT. A list's element after it was replaced. What an access to memory leaves as it was: the homes' part of a write
changes homes and requests alone, a write memory as well, and an engine's or a core's access TLBs and caches besides. -/

namespace Sys2Proof.Machine

/-! ## Elements of a list replaced -/

theorem getElem?_listSet {α : Type} (l : List α) (k j : Nat) (f : α → α) :
    (listSet l k f)[j]? = if j = k then l[j]?.map f else l[j]? := by
  simp only [listSet, List.getElem?_map, List.getElem?_zipIdx, Option.map_map, Function.comp_def, Nat.zero_add]
  split <;> simp

/-! ## Three frames -/

/-- Only what the homes hold and the watches that they end differ. -/
def Dev.OnlyHomes (d d' : Dev) : Prop := d' = { d with homes := d'.homes, reqs := d'.reqs }

/-- Only memory, its homes and what is to settle there differ. -/
def Dev.OnlyMemory (d d' : Dev) : Prop :=
  d' = { d with mem := d'.mem, poison := d'.poison, lineKey := d'.lineKey, homes := d'.homes, reqs := d'.reqs, settle := d'.settle }

/-- Only memory, caches and TLBs differ: no work of the device. -/
def Dev.OnlyAccess (d d' : Dev) : Prop :=
  d' = { d with mem := d'.mem, poison := d'.poison, lineKey := d'.lineKey, homes := d'.homes, reqs := d'.reqs, settle := d'.settle,
                cores := d'.cores, dies := d'.dies }

@[refl] theorem Dev.OnlyHomes.refl (d : Dev) : d.OnlyHomes d := rfl
@[refl] theorem Dev.OnlyMemory.refl (d : Dev) : d.OnlyMemory d := rfl
@[refl] theorem Dev.OnlyAccess.refl (d : Dev) : d.OnlyAccess d := rfl

theorem Dev.OnlyHomes.trans {a b c : Dev} (h : a.OnlyHomes b) (h' : b.OnlyHomes c) : a.OnlyHomes c :=
  Eq.trans h' (by rw [h])

theorem Dev.OnlyMemory.trans {a b c : Dev} (h : a.OnlyMemory b) (h' : b.OnlyMemory c) : a.OnlyMemory c :=
  Eq.trans h' (by rw [h])

theorem Dev.OnlyAccess.trans {a b c : Dev} (h : a.OnlyAccess b) (h' : b.OnlyAccess c) : a.OnlyAccess c :=
  Eq.trans h' (by rw [h])

theorem Dev.OnlyHomes.memory {a b : Dev} (h : a.OnlyHomes b) : a.OnlyMemory b := by
  unfold Dev.OnlyMemory
  rw [h]

theorem Dev.OnlyMemory.access {a b : Dev} (h : a.OnlyMemory b) : a.OnlyAccess b := by
  unfold Dev.OnlyAccess
  rw [h]

theorem Dev.OnlyMemory.cores {a b : Dev} (h : a.OnlyMemory b) : b.cores = a.cores := by rw [h]
theorem Dev.OnlyAccess.teams {a b : Dev} (h : a.OnlyAccess b) : b.teams = a.teams := by rw [h]
theorem Dev.OnlyAccess.nodes {a b : Dev} (h : a.OnlyAccess b) : b.nodes = a.nodes := by rw [h]
theorem Dev.OnlyAccess.parts {a b : Dev} (h : a.OnlyAccess b) : b.parts = a.parts := by rw [h]

/-! ## What the homes hold -/

theorem Dev.onlyHomes_trimData (fuel line : Nat) (d : Dev) : d.OnlyHomes (d.trimData line fuel) := by
  induction fuel generalizing d with
  | zero => rfl
  | succ n ih =>
    unfold Dev.trimData
    dsimp only
    split
    · rfl
    · split
      · next l _ => exact Dev.OnlyHomes.trans (b := d.setHome l { d.home l with form := none, str := false }) rfl (ih _)
      · rfl

theorem Dev.onlyHomes_holdData (d : Dev) (line : Nat) : d.OnlyHomes (d.holdData line) := by
  unfold Dev.holdData
  split
  · rfl
  · exact Dev.OnlyHomes.trans (b := d.setHome line { d.home line with form := some (d.memLine line).form }) rfl
      (Dev.onlyHomes_trimData _ _ _)

theorem Dev.onlyHomes_tagRoom (d : Dev) (line : Nat) : d.OnlyHomes (d.tagRoom line).1 := by
  unfold Dev.tagRoom
  dsimp only
  split
  · rfl
  · split <;> rfl

theorem Dev.onlyHomes_homeStore (d : Dev) (cached : Bool) (line : Nat) : d.OnlyHomes (d.homeStore cached line) := by
  unfold Dev.homeStore
  extract_lets _ h e e'
  have he : d.OnlyHomes e' := by
    have held : e.OnlyHomes e' := by
      unfold e'
      split
      · exact Dev.onlyHomes_holdData _ _
      · rfl
    exact Dev.OnlyHomes.trans (b := e) rfl held
  split
  · have hroom := he.trans (e'.onlyHomes_tagRoom line)
    split
    next e1 h1 =>
      rw [h1] at hroom
      exact hroom.trans (Dev.OnlyHomes.trans (b := e1.setHome line { e1.home line with owned := true }) rfl
        (Dev.onlyHomes_holdData _ _))
    next e1 h1 => rwa [h1] at hroom
  · exact he

/-! ## Writes -/

theorem Dev.onlyMemory_rekey (d : Dev) (key : BitVec 8) (line : Nat) : d.OnlyMemory (d.rekey key line) := by
  unfold Dev.rekey
  split <;> rfl

theorem Dev.OnlyMemory.foldl {α : Type} {f : Dev → α → Dev} (hf : ∀ (d : Dev) (x : α), d.OnlyMemory (f d x)) (l : List α) (d : Dev) :
    d.OnlyMemory (l.foldl f d) :=
  List.foldlRecOn (motive := d.OnlyMemory) l f (Dev.OnlyMemory.refl d) fun e he x _ => he.trans (hf e x)

theorem Dev.onlyMemory_wr (d : Dev) (key : BitVec 8) (pa : Nat) (bs : List Byte) : d.OnlyMemory (d.wr key pa bs) :=
  (Dev.OnlyMemory.foldl (fun d l => d.onlyMemory_rekey key l) (linesOf pa bs.length) d).trans rfl

/-- After the bytes themselves, a write changes homes and watches alone. -/
theorem Dev.onlyHomes_homeWrite (d : Dev) (cached : Bool) (key : BitVec 8) (pa : Nat) (bs : List Byte) :
    (d.wr key pa bs).OnlyHomes (d.homeWrite cached key pa bs) := by
  unfold Dev.homeWrite
  refine List.foldlRecOn (motive := (d.wr key pa bs).OnlyHomes) _ _ (List.foldlRecOn (motive := (d.wr key pa bs).OnlyHomes) _ _
    (Dev.OnlyHomes.refl _) fun e he l _ => he.trans (e.onlyHomes_homeStore _ l)) fun e he l _ => he.trans ?_
  split <;> rfl

theorem Dev.onlyMemory_homeWrite (d : Dev) (cached : Bool) (key : BitVec 8) (pa : Nat) (bs : List Byte) :
    d.OnlyMemory (d.homeWrite cached key pa bs) :=
  (d.onlyMemory_wr key pa bs).trans (d.onlyHomes_homeWrite cached key pa bs).memory

theorem Dev.onlyMemory_engineWrite (d : Dev) (cached : Bool) (key : BitVec 8) (pa : Nat) (bs : List Byte) :
    d.OnlyMemory (d.engineWrite cached key pa bs) :=
  (d.onlyMemory_homeWrite cached key pa bs).trans rfl

theorem Dev.onlyMemory_storeBack (d : Dev) (line : Nat) (l : L1Line) : d.OnlyMemory (d.storeBack line l) := by
  unfold Dev.storeBack
  split
  · exact Dev.onlyMemory_homeWrite ..
  · rfl

/-! ## Translation and engines -/

theorem Dev.onlyAccess_l2Translate (d : Dev) (die pid asid va : Nat) (need : Need) :
    d.OnlyAccess (d.l2Translate die pid asid va need).1 := by
  unfold Dev.l2Translate
  split
  · rfl
  · dsimp only
    split <;> rfl

theorem Dev.onlyAccess_translate (d : Dev) (core pid asid va : Nat) (need : Need) :
    d.OnlyAccess (d.translate core pid asid va need).1 := by
  unfold Dev.translate
  split
  · rfl
  · dsimp only
    have h := Dev.OnlyAccess.trans (a := d) (b := d.modCore core fun x => { x with tlb := tlbDrop x.tlb asid va }) rfl
      (Dev.onlyAccess_l2Translate _ (core / 128) pid asid va need)
    split
    next e l he =>
      rw [he] at h
      exact h.trans rfl
    next => exact h

theorem Dev.onlyAccess_engRead (d : Dev) (die pid asid va n : Nat) : d.OnlyAccess (d.engRead die pid asid va n).1 := by
  unfold Dev.engRead
  split
  · rfl
  · refine List.foldlRecOn (motive := fun (r : Dev × Eng _) => d.OnlyAccess r.1) _ _ (Dev.OnlyAccess.refl d) fun r hr x _ => ?_
    obtain ⟨e, acc⟩ := r
    obtain ⟨o, len⟩ := x
    cases acc with
    | ok bs =>
      have h := hr.trans (e.onlyAccess_l2Translate die pid asid (va + o) .r)
      dsimp only
      split
      next e' l he =>
        rw [he] at h
        split
        · exact h
        · split <;> exact h
      next e' f he => rwa [he] at h
      next e' he => rwa [he] at h
    | fault f => exact hr
    | ecc => exact hr

theorem Dev.onlyAccess_engWriteFor (d : Dev) (die pid asid va : Nat) (bs : List Byte) :
    d.OnlyAccess (d.engWriteFor die pid asid va bs).1 := by
  unfold Dev.engWriteFor
  split
  · rfl
  · extract_lets r
    have hr : d.OnlyAccess r.1 := by
      refine List.foldlRecOn (motive := fun (r : Dev × Eng _) => d.OnlyAccess r.1) _ _ (Dev.OnlyAccess.refl d) fun r hr x _ => ?_
      obtain ⟨e, acc⟩ := r
      obtain ⟨o, len⟩ := x
      cases acc with
      | ok ls =>
        have h := hr.trans (e.onlyAccess_l2Translate die pid asid (va + o) .w)
        dsimp only
        split
        next e' l he =>
          rw [he] at h
          split <;> exact h
        next e' f he => rwa [he] at h
        next e' he => rwa [he] at h
      | fault f => exact hr
      | ecc => exact hr
    clear_value r
    obtain ⟨e, ls | f | _⟩ := r
    · refine hr.trans ?_
      exact List.foldlRecOn (motive := fun (r : Dev × List Version) => e.OnlyAccess r.1) _ _ (Dev.OnlyAccess.refl e) fun r hr x _ =>
        hr.trans (Dev.onlyMemory_engineWrite ..).access
    · exact hr
    · exact hr

theorem Dev.onlyAccess_engWrite (d : Dev) (die pid asid va : Nat) (bs : List Byte) :
    d.OnlyAccess (d.engWrite die pid asid va bs).1 := by
  have h := d.onlyAccess_engWriteFor die pid asid va bs
  unfold Dev.engWrite
  split <;> next he => rwa [he] at h

theorem Dev.onlyAccess_loadWords (core pid asid a n : Nat) (d : Dev) : d.OnlyAccess (d.loadWords core pid asid a n).1 := by
  induction n generalizing d a with
  | zero => rfl
  | succ n ih =>
    unfold Dev.loadWords
    split
    · rfl
    split
    · rfl
    have h := d.onlyAccess_translate core pid asid a .r
    split
    next e f he => rwa [he] at h
    next e he => rwa [he] at h
    next e l he =>
      rw [he] at h
      split
      · exact h
      split
      · exact h
      have hrest := h.trans (ih (a + 8) e)
      dsimp only
      split
      next e' ws hws => rwa [hws] at hrest
      next => exact hrest

theorem Dev.length_loadWords {core pid asid a n : Nat} {d d' : Dev} {ws : List Word64}
    (h : d.loadWords core pid asid a n = (d', .ok ws)) : ws.length = n := by
  induction n generalizing d a ws with
  | zero => simp_all [Dev.loadWords]
  | succ n ih =>
    unfold Dev.loadWords at h
    split at h
    · cases h
    split at h
    · cases h
    split at h
    · cases h
    · cases h
    split at h
    · cases h
    split at h
    · cases h
    dsimp only at h
    split at h
    next e' rest hrest =>
      cases h
      simp [ih hrest]
    next hne => exact absurd h (hne _ _)

/-! ## Reads after writes -/

theorem mem_linesOf {pa n l : Nat} : l ∈ linesOf pa n ↔ 0 < n ∧ pa / 128 ≤ l ∧ l ≤ (pa + n - 1) / 128 := by
  unfold linesOf
  split
  · simp; omega
  · simp only [List.mem_map, List.mem_range]
    constructor
    · rintro ⟨k, hk, rfl⟩
      omega
    · intro h
      exact ⟨l - pa / 128, by omega, by omega⟩

/-- What a read of a byte depends on: memory in its line, the line's tag and the keys' generations (R382). -/
theorem Dev.rd_congr {d d' : Dev} {a : Nat} (key : BitVec 8) (hmem : ∀ x, x / 128 = a / 128 → fget 0 d'.mem x = fget 0 d.mem x)
    (htag : d'.tagOf a = d.tagOf a) (hgen : d'.keyGen = d.keyGen) : d'.rd key a = d.rd key a := by
  have hline : fgetBytes d'.mem (a / 128 * 128) 128 = fgetBytes d.mem (a / 128 * 128) 128 :=
    List.map_congr_left fun k hk => hmem _ (by have := List.mem_range.mp hk; omega)
  have hfor : d'.tagFor key a = d.tagFor key a := by rw [Dev.tagFor, Dev.tagFor, hgen]
  rw [Dev.rd, Dev.rd, htag, hfor, hline, hmem a rfl]

theorem Dev.OnlyHomes.rd {d d' : Dev} (h : d.OnlyHomes d') (key : BitVec 8) (a : Nat) : d'.rd key a = d.rd key a := by
  rw [h]
  rfl

theorem Dev.rd_rekey (d : Dev) (key key' : BitVec 8) {line a : Nat} (h : a / 128 ≠ line) :
    (d.rekey key line).rd key' a = d.rd key' a := by
  unfold Dev.rekey
  split
  · rfl
  · refine Dev.rd_congr key' (fun x hx => ?_) ?_ rfl
    · dsimp only
      rw [fget_fsetBytes, if_neg]
      simp only [Dev.rdBytes, List.length_map, List.length_range]
      omega
    · exact fget_fset_ne _ _ _ h

theorem Dev.rd_wr (d : Dev) (key key' : BitVec 8) {pa a : Nat} {bs : List Byte} (h : a / 128 ∉ linesOf pa bs.length) :
    (d.wr key pa bs).rd key' a = d.rd key' a := by
  have hkey : ((linesOf pa bs.length).foldl (fun d l => d.rekey key l) d).rd key' a = d.rd key' a :=
    List.foldlRecOn (motive := fun (e : Dev) => e.rd key' a = d.rd key' a) _ _ rfl fun e he l hl =>
      (e.rd_rekey key key' fun hal => h (hal ▸ hl)).trans he
  rw [← hkey]
  refine Dev.rd_congr key' (fun x hx => ?_) rfl rfl
  rw [mem_linesOf] at h
  dsimp only [Dev.wr]
  rw [fget_fsetBytes, if_neg]
  omega

theorem Dev.rd_storeBack (d : Dev) (key : BitVec 8) {line a : Nat} {l : L1Line} (h : l.dirty = true → line ≠ a / 128) :
    (d.storeBack line l).rd key a = d.rd key a := by
  unfold Dev.storeBack
  split
  next hdirty =>
    rw [(d.onlyHomes_homeWrite true l.key (line * 128) _).rd, Dev.rd_wr]
    rw [mem_linesOf, List.length_map, List.length_range]
    have := h hdirty
    omega
  next => rfl

/-! ## Eviction -/

theorem Dev.core_modCore_same (d : Dev) (c : Nat) (f : Core → Core) : (d.modCore c f).core c = f (d.core c) :=
  fget_fset_same ..

theorem Dev.core_modCore_ne (d : Dev) {c c' : Nat} (f : Core → Core) (h : c' ≠ c) : (d.modCore c f).core c' = d.core c' :=
  fget_fset_ne _ _ _ h

/-- The lines of a superblock, written back. -/
def Dev.linesBack (d : Dev) (s : Superblock) : Dev :=
  s.lines.zipIdx.foldl (fun d (l, k) => match l with
    | some l => d.storeBack (s.tag * 4 + k) l
    | none => d) d

theorem Dev.evict_eq (d : Dev) (core : Nat) (s : Superblock) :
    d.evict core s = (d.linesBack s).modCore core fun c => { c with l1 := c.l1.filter fun x => x.tag != s.tag } := rfl

theorem Dev.onlyMemory_linesBack (d : Dev) (s : Superblock) : d.OnlyMemory (d.linesBack s) := by
  refine Dev.OnlyMemory.foldl (fun d x => ?_) _ d
  obtain ⟨l, k⟩ := x
  cases l with
  | none => rfl
  | some l => exact d.onlyMemory_storeBack _ l

theorem Dev.rd_linesBack (d : Dev) (key : BitVec 8) (s : Superblock) {a : Nat}
    (h : ∀ (k : Nat) (l : L1Line), s.lines[k]? = some (some l) → l.dirty = true → s.tag * 4 + k ≠ a / 128) :
    (d.linesBack s).rd key a = d.rd key a := by
  refine List.foldlRecOn (motive := fun (e : Dev) => e.rd key a = d.rd key a) _ _ rfl fun e he x hx => ?_
  obtain ⟨l, k⟩ := x
  cases l with
  | none => exact he
  | some l => exact (e.rd_storeBack key (h k l (List.mem_zipIdx_iff_getElem?.mp hx))).trans he

theorem Dev.core_evict_ne (d : Dev) {core c : Nat} (s : Superblock) (h : c ≠ core) : (d.evict core s).core c = d.core c := by
  rw [Dev.evict_eq, Dev.core_modCore_ne _ _ h]
  exact congrArg (fget Core.empty · c) (d.onlyMemory_linesBack s).cores

theorem Dev.rd_evict (d : Dev) (key : BitVec 8) (core : Nat) (s : Superblock) {a : Nat}
    (h : ∀ (k : Nat) (l : L1Line), s.lines[k]? = some (some l) → l.dirty = true → s.tag * 4 + k ≠ a / 128) :
    (d.evict core s).rd key a = d.rd key a :=
  d.rd_linesBack key s h

end Sys2Proof.Machine
end

section
/-! SUPPORT. LOAD_MODULE: where sections lie, what placing a module changes, and what the command answers (R36, R37, R39). -/

namespace Sys2Proof.Machine

/-! ## Partitions -/

theorem Dev.parts_modPart (d : Dev) (pid j : Nat) (f : Partition → Partition) :
    (d.modPart pid f).parts[j]? = if j = pid then d.parts[j]?.map f else d.parts[j]? :=
  getElem?_listSet ..

theorem Dev.part_of_getElem? {d : Dev} {pid : Nat} {p : Partition} (h : d.parts[pid]? = some p) : d.part pid = p := by
  simp [Dev.part, List.getD_eq_getElem?_getD, h]

/-! ## Layout (R36, R37) -/

/-- Where a section begins when the sections before it end at `e`. -/
def Section.startAfter (x : Section) (e : Nat) : Nat :=
  if placedType x.type = true then
    (if x.type = 1 then alignUp (e + 64) (max 8 (2 ^ x.align)) else alignUp e (2 ^ x.align))
  else 0

/-- Where the sections up to this one end. -/
def Section.endAfter (x : Section) (e : Nat) : Nat :=
  if placedType x.type = true then x.startAfter e + x.placedSize else e

def startsFrom : Nat → List Section → List Nat
  | _, [] => []
  | e, x :: xs => x.startAfter e :: startsFrom (x.endAfter e) xs

def endFrom (e : Nat) (xs : List Section) : Nat := xs.foldl (fun e x => x.endAfter e) e

/-- The room that a section keeps free before it: a kernel's descriptor. -/
def Section.gap (x : Section) : Nat := if x.type = 1 then 64 else 0

theorem ModuleFile.places_eq (f : ModuleFile) (base : Nat) : f.places base = (startsFrom base f.secs, endFrom base f.secs) := by
  suffices ∀ (xs : List Section) (got : List Nat) (e : Nat), xs.foldl (fun (acc : List Nat × Nat) s =>
      if placedType s.type then
        let a := if s.type = 1 then alignUp (acc.2 + 64) (max 8 (2 ^ s.align)) else alignUp acc.2 (2 ^ s.align)
        (acc.1 ++ [a], a + s.placedSize)
      else (acc.1 ++ [0], acc.2)) (got, e) = (got ++ startsFrom e xs, endFrom e xs) from this f.secs [] base
  intro xs
  induction xs with
  | nil => simp [startsFrom, endFrom]
  | cons x xs ih =>
    intro got e
    rw [List.foldl_cons]
    by_cases h : placedType x.type = true <;> simp [h, ih, startsFrom, endFrom, Section.startAfter, Section.endAfter]

theorem le_alignUp {a n : Nat} (h : 0 < n) : a ≤ alignUp a n := by
  have := Nat.div_add_mod (a + n - 1) n
  have := Nat.mod_lt (a + n - 1) h
  rw [alignUp, Nat.mul_comm]
  omega

theorem dvd_alignUp (a n : Nat) : n ∣ alignUp a n := Nat.dvd_mul_left ..

/-- A power of two divides the greater of 8 and itself. -/
theorem pow_dvd_max (n : Nat) : 2 ^ n ∣ max 8 (2 ^ n) := by
  obtain h | h := Nat.le_total 3 n
  · exact ⟨1, (Nat.max_eq_right (Nat.pow_le_pow_right (n := 2) (by decide) h)).trans (Nat.mul_one _).symm⟩
  · rw [Nat.max_eq_left (Nat.pow_le_pow_right (n := 2) (by decide) h)]
    exact Nat.pow_dvd_pow 2 h

section
variable {x : Section} (hx : placedType x.type = true)
include hx

theorem Section.startAfter_aligned (e : Nat) : x.startAfter e % 2 ^ x.align = 0 := by
  rw [Section.startAfter, if_pos hx]
  split
  · exact Nat.mod_eq_zero_of_dvd (Nat.dvd_trans (pow_dvd_max _) (dvd_alignUp _ _))
  · exact Nat.mod_eq_zero_of_dvd (dvd_alignUp _ _)

theorem Section.le_startAfter (e : Nat) : e + x.gap ≤ x.startAfter e := by
  rw [Section.startAfter, if_pos hx, Section.gap]
  split
  · exact le_alignUp (by omega)
  · exact le_alignUp (Nat.two_pow_pos _)

theorem Section.endAfter_placed (e : Nat) : x.endAfter e = x.startAfter e + x.placedSize := if_pos hx

end

theorem Section.le_endAfter (x : Section) (e : Nat) : e ≤ x.endAfter e := by
  by_cases hx : placedType x.type = true
  · have := Section.le_startAfter hx e
    rw [Section.endAfter_placed hx]
    omega
  · exact Nat.le_of_eq (if_neg hx).symm

theorem le_endFrom (e : Nat) (xs : List Section) : e ≤ endFrom e xs :=
  List.foldlRecOn (motive := (e ≤ ·)) xs _ (Nat.le_refl e) fun _ h x _ => Nat.le_trans h (x.le_endAfter _)

/-- A placed section lies aligned between where the sections begin, its own gap kept, and where they end. -/
theorem startsFrom_spec {xs : List Section} {e k : Nat} {x : Section} (hk : xs[k]? = some x) (hx : placedType x.type = true) :
    let a := (startsFrom e xs).getD k 0
    a % 2 ^ x.align = 0 ∧ e + x.gap ≤ a ∧ a + x.placedSize ≤ endFrom e xs := by
  induction xs generalizing e k with
  | nil => cases hk
  | cons y ys ih =>
    cases k with
    | zero =>
      obtain rfl : y = x := by simpa using hk
      exact ⟨Section.startAfter_aligned hx e, Section.le_startAfter hx e,
        Section.endAfter_placed hx e ▸ le_endFrom (y.endAfter e) ys⟩
    | succ k =>
      obtain ⟨halign, hstart, hend⟩ := ih (e := y.endAfter e) hk
      exact ⟨halign, Nat.le_trans (Nat.add_le_add_right (y.le_endAfter e) _) hstart, hend⟩

/-- Sections lie in the table's order. -/
theorem startsFrom_ordered {xs : List Section} {e j k : Nat} {x y : Section} (hjk : j < k) (hk : xs[k]? = some x)
    (hx : placedType x.type = true) (hj : xs[j]? = some y) (hy : placedType y.type = true) :
    (startsFrom e xs).getD j 0 + y.placedSize + x.gap ≤ (startsFrom e xs).getD k 0 := by
  induction xs generalizing e j k with
  | nil => cases hk
  | cons z zs ih =>
    obtain ⟨k, rfl⟩ := Nat.exists_eq_add_one_of_ne_zero (Nat.ne_zero_of_lt hjk)
    cases j with
    | zero =>
      obtain rfl : z = y := by simpa using hj
      obtain ⟨_, hstart, _⟩ := startsFrom_spec (xs := zs) (e := z.endAfter e) hk hx
      exact Section.endAfter_placed hy e ▸ hstart
    | succ j => exact ih (e := z.endAfter e) (Nat.lt_of_succ_lt_succ hjk) hk hj

/-! ## The image -/

/-- A native kernel's words stand as they were, after its descriptor (R37, R361). -/
theorem kernelBytes_native {f : ModuleFile} {k : Nat} {x : Section} {bs out : List Byte} (hn : x.native = true)
    (h : kernelBytes f k x bs = some out) : ∃ desc ∈ f.linked 2 k, out = desc.bytes ++ (wordsOf bs).flatMap wordBytes := by
  simp only [kernelBytes, hn, if_true, Option.bind_eq_bind, Option.bind_eq_some_iff, Option.ite_none_right_eq_some] at h
  obtain ⟨desc, hdesc, ws, ⟨_, hws⟩, hout⟩ := h
  split at hout
  · cases hout
  · cases hws
    cases hout
    exact ⟨desc, List.mem_of_head? hdesc, rfl⟩

/-! ## Placing a module -/

/-- The sections' writes, up to the first that fails. -/
def Dev.writeParts (d : Dev) (pid : Nat) (m : Module) (parts : List (Nat × Nat × List Byte)) : Dev × Bool :=
  parts.foldl (fun (acc : Dev × Bool) (_, o, bs) =>
    if acc.2 then match acc.1.engWrite 0 pid m.asid (m.base + o) bs with
      | (d, .ok _) => (d, true)
      | (d, _) => (d, false)
    else acc) (d, true)

theorem Dev.onlyAccess_writeParts (d : Dev) (pid : Nat) (m : Module) (parts : List (Nat × Nat × List Byte)) :
    d.OnlyAccess (d.writeParts pid m parts).1 := by
  refine List.foldlRecOn (motive := fun (r : Dev × Bool) => d.OnlyAccess r.1) _ _ (Dev.OnlyAccess.refl d) fun r hr x _ => ?_
  obtain ⟨e, done⟩ := r
  obtain ⟨k, o, bs⟩ := x
  cases done with
  | false => exact hr
  | true =>
    have h := hr.trans (e.onlyAccess_engWrite 0 pid m.asid (m.base + o) bs)
    dsimp only
    rw [if_pos rfl]
    split <;> next he => rwa [he] at h

/-- Placing writes, drops code, and lists the module when every write has succeeded. -/
theorem Dev.placeModule_eq (d : Dev) (pid : Nat) (m : Module) (image : Cached) (parts : List (Nat × Nat × List Byte))
    (pages : List (Nat × Nat)) : d.placeModule pid m image parts pages =
      let e := (d.writeParts pid m parts).1.dropCode pages
      if (d.writeParts pid m parts).2 then
        ({ e.modPart pid fun p => { p with modules := p.modules ++ [m] } with images := cacheImage e.images image }, true)
      else (e, false) := by
  unfold Dev.placeModule Dev.writeParts
  dsimp only
  generalize List.foldl _ _ parts = r
  cases r.2 <;> rfl

/-- A line that stays in an instruction cache meets none of the ranges dropped (R72). -/
theorem Dev.dropCode_drops {d : Dev} {ps : List (Nat × Nat)} {x : Nat × Core} (hx : x ∈ (d.dropCode ps).cores) {l : ICLine}
    (hl : l ∈ x.2.icache) {pg : Nat × Nat} (hpg : pg ∈ ps) : rangesMeet (128 * l.num) 128 pg.1 pg.2 = false := by
  obtain ⟨y, _, rfl⟩ := List.mem_map.mp hx
  have hkept := (List.mem_filter.mp hl).2
  simp only [Bool.not_eq_true', List.any_eq_false] at hkept
  simpa using hkept pg hpg

theorem Dev.onlyAccess_dropped (d : Dev) (pid : Nat) (m : Module) (parts : List (Nat × Nat × List Byte)) (pages : List (Nat × Nat)) :
    d.OnlyAccess ((d.writeParts pid m parts).1.dropCode pages) :=
  (d.onlyAccess_writeParts pid m parts).trans rfl

theorem Dev.placeModule_true {d d' : Dev} {pid : Nat} {p : Partition} {m : Module} {image : Cached} {parts : List (Nat × Nat × List Byte)}
    {pages : List (Nat × Nat)} (hp : d.parts[pid]? = some p) (h : d.placeModule pid m image parts pages = (d', true)) :
    d'.parts[pid]? = some { p with modules := p.modules ++ [m] } ∧
    ∀ x ∈ d'.cores, ∀ l ∈ x.2.icache, ∀ pg ∈ pages, rangesMeet (128 * l.num) 128 pg.1 pg.2 = false := by
  rw [Dev.placeModule_eq] at h
  have hparts := (d.onlyAccess_dropped pid m parts pages).parts
  dsimp only at h
  split at h
  · cases h
    refine ⟨?_, fun x hx l hl pg hpg => Dev.dropCode_drops hx hl hpg⟩
    rw [Dev.parts_modPart, if_pos rfl, hparts, hp]
    rfl
  · cases h

theorem Dev.placeModule_false {d d' : Dev} {pid : Nat} {m : Module} {image : Cached} {parts : List (Nat × Nat × List Byte)}
    {pages : List (Nat × Nat)} (h : d.placeModule pid m image parts pages = (d', false)) : d.OnlyAccess d' := by
  rw [Dev.placeModule_eq] at h
  dsimp only at h
  split at h
  · cases h
  · cases h
    exact d.onlyAccess_dropped pid m parts pages

/-! ## Nodes of a module -/

/-- The ids that a load takes: the lowest free ones (R58). -/
def Dev.freeIds (d : Dev) (want : Nat) : List Nat := ((List.range 4096).filter fun k => !d.nodes.any (·.id == k)).take want

theorem Dev.not_mem_freeIds {d : Dev} {want : Nat} {n : Node} (h : n ∈ d.nodes) : n.id ∉ d.freeIds want := by
  intro hid
  have := (List.mem_filter.mp (List.mem_of_mem_take hid)).2
  simp only [Bool.not_eq_true', List.any_eq_false, beq_iff_eq] at this
  exact this n h rfl

theorem exists_of_mem_mapM {α β : Type} {f : α → Option β} {xs : List α} {ys : List β} (h : xs.mapM f = some ys) {y : β} (hy : y ∈ ys) :
    ∃ x ∈ xs, f x = some y := by
  induction xs generalizing ys with
  | nil =>
    obtain rfl : [] = ys := by simpa using h
    cases hy
  | cons a t ih =>
    simp only [List.mapM_cons, Option.bind_eq_bind, Option.bind_eq_some_iff, Option.pure_def, Option.some.injEq] at h
    obtain ⟨b, hb, bs, hbs, rfl⟩ := h
    obtain rfl | hy := List.mem_cons.mp hy
    · exact ⟨a, List.mem_cons_self, hb⟩
    · obtain ⟨x, hx, hxy⟩ := ih hbs hy
      exact ⟨x, List.mem_cons_of_mem a hx, hxy⟩

/-- A module's nodes come after those there were, each under an id taken for it. -/
theorem Dev.moduleNodes_some {d d1 : Dev} {pid asid : Nat} {b : Bind} {parts : List (Nat × Nat × List Byte)}
    (h : d.moduleNodes pid asid b parts = some d1) : ∃ ns : List Node, d1 = { d with nodes := d.nodes ++ ns } ∧ ∀ n ∈ ns, n.id ∈ b.nodes := by
  simp only [Dev.moduleNodes, Option.bind_eq_bind, Option.bind_eq_some_iff] at h
  obtain ⟨ns, hns, hd⟩ := h
  refine ⟨ns, (Option.some.inj hd).symm, fun n hn => ?_⟩
  obtain ⟨x, hx, hxn⟩ := exists_of_mem_mapM hns hn
  obtain ⟨n', _, rfl⟩ := Option.map_eq_some_iff.mp hxn
  exact (List.of_mem_zip hx).2

/-- A load that ends with an error gives its node ids back. -/
theorem Dev.nodes_given_back {d d1 : Dev} {pid asid want : Nat} {b : Bind} {parts : List (Nat × Nat × List Byte)}
    (hb : b.nodes = d.freeIds want) (h : d.moduleNodes pid asid b parts = some d1) :
    (d1.nodes.filter fun n => !(d.freeIds want).contains n.id) = d.nodes := by
  obtain ⟨ns, rfl, hns⟩ := Dev.moduleNodes_some h
  rw [List.filter_append, List.filter_eq_self.mpr, List.filter_eq_nil_iff.mpr, List.append_nil]
  · intro n hn
    simpa [← hb] using hns n hn
  · intro n hn
    simpa using Dev.not_mem_freeIds hn

end Sys2Proof.Machine
end

section
/-! SUPPORT. The command LOAD_MODULE (R36, R366): its answer by cases, and what an answer keeps. -/

namespace Sys2Proof.Machine

/-! ## A command's end -/

/-- What a command of a function leaves, by what it ends in (R366). -/
def State.replied (s : State) (pid : Nat) (r : Dev × Reply) : Res :=
  match r.2 with
  | .now c out => .next (s.withDev (r.1.answerCmd pid c out))
  | .later w => .next (s.withDev (r.1.modPart pid fun p => { p with box := { p.box with wait := some w } }))

theorem devCommand_of_commanded {s : State} {pid opc : Nat} {p : Partition} (h : Commanded s pid opc p)
    (f : Dev → Partition → Dev × Reply) : devCommand s pid opc false f = s.replied pid (f s.dev p) := by
  obtain ⟨hp, hasks, hnormal⟩ := h
  unfold devCommand runCommand State.replied
  rw [hp]
  dsimp only
  rw [hasks, hnormal]
  generalize f s.dev p = r
  obtain ⟨d, c | w⟩ := r <;> rfl

/-- The vector leaves the modules and the command's wait alone. -/
theorem Dev.parts_raiseVec {d : Dev} {pid vec : Nat} {p : Partition} (hp : d.parts[pid]? = some p) :
    ∃ q, (d.raiseVec pid vec).parts[pid]? = some q ∧ q.modules = p.modules ∧ q.box.wait = p.box.wait := by
  unfold Dev.raiseVec
  rw [Dev.parts_modPart, if_pos rfl, hp, Option.map_some]
  split
  · split
    · exact ⟨_, rfl, rfl, rfl⟩
    · exact ⟨_, rfl, rfl, rfl⟩
  · exact ⟨_, rfl, rfl, rfl⟩

theorem Dev.parts_answerCmd {d : Dev} {pid : Nat} {p : Partition} (r : BitVec 8) (out : List Word64) (hp : d.parts[pid]? = some p) :
    ∃ q, (d.answerCmd pid r out).parts[pid]? = some q ∧ q.modules = p.modules ∧ q.box.wait = none := by
  unfold Dev.answerCmd
  extract_lets e
  have he : e.parts[pid]? = some { p with box := { p.box with
      busy := false, wait := none, result := r, dtag := p.box.tag
      out := out.zipIdx.foldl (fun m (w, k) => fset 0 m k w) p.box.out } } := by
    unfold e
    rw [Dev.parts_modPart, if_pos rfl, hp]
    rfl
  split
  · exact Dev.parts_raiseVec he
  · exact ⟨_, he, rfl, rfl⟩

theorem Dev.nodes_answerCmd (d : Dev) (pid : Nat) (r : BitVec 8) (out : List Word64) : (d.answerCmd pid r out).nodes = d.nodes := by
  unfold Dev.answerCmd
  dsimp only
  split <;> rfl

theorem Dev.length_parts_modPart (d : Dev) (pid : Nat) (f : Partition → Partition) : (d.modPart pid f).parts.length = d.parts.length := by
  simp [Dev.modPart, listSet]

theorem Dev.length_parts_answerCmd (d : Dev) (pid : Nat) (r : BitVec 8) (out : List Word64) :
    (d.answerCmd pid r out).parts.length = d.parts.length := by
  unfold Dev.answerCmd
  dsimp only
  split
  · exact (Dev.length_parts_modPart ..).trans (Dev.length_parts_modPart ..)
  · exact Dev.length_parts_modPart ..

/-- A command answered is no command that still waits. -/
theorem Dev.answerCmd_ne_wait {d e : Dev} {pid : Nat} {p : Partition} (r : BitVec 8) (out : List Word64) (w : CmdWait)
    (he : e.parts[pid]? = some p) :
    d.answerCmd pid r out ≠ e.modPart pid fun p => { p with box := { p.box with wait := some w } } := by
  intro h
  have hwaits : (d.answerCmd pid r out).parts[pid]? = some { p with box := { p.box with wait := some w } } := by
    rw [h, Dev.parts_modPart, if_pos rfl, he]
    rfl
  have hlt : pid < d.parts.length := d.length_parts_answerCmd pid r out ▸ (List.getElem?_eq_some_iff.mp hwaits).1
  obtain ⟨q, hq, _, hwait⟩ := Dev.parts_answerCmd r out (List.getElem?_eq_getElem hlt)
  rw [hwaits] at hq
  cases hq
  cases hwait

/-! ## What a load answers -/

/-- Nodes that a module declares. -/
def ModuleFile.nodesWanted (f : ModuleFile) : Nat := ((f.ofType 6).map fun (_, s) => s.bytes.length / 64).foldl (· + ·) 0

/-- What the module's relocations need: its layout and the node ids that are free. -/
def Dev.bindFor (d : Dev) (f : ModuleFile) (base : Nat) : Bind :=
  { f, base, at_ := (f.places base).1, nodes := d.freeIds f.nodesWanted }

/-- The module's image: of the finaliser's cache, or finalised (R36). -/
def Dev.imageFor (d : Dev) (digest : BitVec 512) (b : Bind) : Option (List (Nat × Nat × List Byte)) :=
  match d.images.find? (fun c => c.digest == digest) with
  | some c => some (c.placed b)
  | none => b.relocated.bind b.image

/-- The module's image with its nodes made. -/
def Dev.madeFor (d : Dev) (pid : Nat) (digest : BitVec 512) (asid : Nat) (b : Bind) : Option (Dev × List (Nat × Nat × List Byte)) := do
  let parts ← match d.images.find? (·.digest == digest) with
    | some c => some (c.placed b)
    | none => b.relocated.bind b.image
  return (← d.moduleNodes pid asid b parts, parts)

/-- The answer once the module's bytes have been written, or a write has failed: the ids taken are then given back. -/
def Bind.placedReply (b : Bind) : Dev × Bool → Dev × Reply
  | (d, true) => (d, .later (.settled b.results))
  | (d, false) => ({ d with nodes := d.nodes.filter fun n => !b.nodes.contains n.id }, invalid)

/-- The load once its area and its node ids are found: over pages that hold the area, the module is placed. -/
def Dev.loadOver (d : Dev) (pid : Nat) (digest : BitVec 512) (asid length : Nat) (b : Bind) :
    Dev × Option (List (Nat × Nat)) → Option (Dev × List (Nat × Nat × List Byte)) → Dev × Reply
  | (_, some pages), some (d, parts) => b.placedReply
      (d.placeModule pid { digest, asid, base := b.base, length, kernels := b.kernels } { digest, parts, fixes := b.fixes } parts pages)
  | _, _ => (d, invalid)

theorem Dev.loadFile_eq (d : Dev) (p : Partition) (digest : BitVec 512) (f : ModuleFile) (asid base length : Nat) :
    d.loadFile p digest f asid base length =
      if base + length < (f.places base).2 ∨ d.areaInUse asid base length = true then (d, invalid)
      else if (d.freeIds f.nodesWanted).length < f.nodesWanted then (d, .now 4 [])
      else d.loadOver p.pid digest asid length (d.bindFor f base) (d.areaPages p.pid asid base (base + length) (length / 16384 + 1))
        (d.madeFor p.pid digest asid (d.bindFor f base)) := by
  rfl

theorem Dev.madeFor_eq (d : Dev) (pid : Nat) (digest : BitVec 512) (asid : Nat) (b : Bind) : d.madeFor pid digest asid b =
    (d.imageFor digest b).bind fun parts => (d.moduleNodes pid asid b parts).bind fun d1 => some (d1, parts) := by
  unfold Dev.madeFor Dev.imageFor
  cases d.images.find? (fun c => c.digest == digest) <;> rfl

section
variable {d : Dev} {p : Partition} {digest : BitVec 512} {f : ModuleFile} {asid base length : Nat}

/-- The area is too short, or not free to change. -/
theorem Dev.loadFile_noArea (h : base + length < (f.places base).2 ∨ d.areaInUse asid base length = true) :
    d.loadFile p digest f asid base length = (d, invalid) := by
  rw [Dev.loadFile_eq, if_pos h]

variable (hend : (f.places base).2 ≤ base + length) (hfree : d.areaInUse asid base length = false)
include hend hfree

theorem Dev.area_ok : ¬(base + length < (f.places base).2 ∨ d.areaInUse asid base length = true) := by
  simp [hend, hfree]

theorem Dev.loadFile_noIds (h : (d.freeIds f.nodesWanted).length < f.nodesWanted) :
    d.loadFile p digest f asid base length = (d, .now 4 []) := by
  rw [Dev.loadFile_eq, if_neg (Dev.area_ok hend hfree), if_pos h]

/-- The module is placed, and its writes are to settle. -/
theorem Dev.loadFile_placed {d0 d1 d2 : Dev} {parts : List (Nat × Nat × List Byte)} {pages : List (Nat × Nat)}
    (hids : (d.freeIds f.nodesWanted).length = f.nodesWanted) (himage : d.imageFor digest (d.bindFor f base) = some parts)
    (hnodes : d.moduleNodes p.pid asid (d.bindFor f base) parts = some d1)
    (hpages : d.areaPages p.pid asid base (base + length) (length / 16384 + 1) = (d0, some pages))
    (hplace : d1.placeModule p.pid { digest, asid, base, length, kernels := (d.bindFor f base).kernels }
      { digest, parts, fixes := (d.bindFor f base).fixes } parts pages = (d2, true)) :
    d.loadFile p digest f asid base length = (d2, .later (.settled (d.bindFor f base).results)) := by
  rw [Dev.loadFile_eq, if_neg (Dev.area_ok hend hfree), if_neg (Nat.not_lt.mpr (Nat.le_of_eq hids.symm)), hpages,
    Dev.madeFor_eq, himage, Option.bind_some, hnodes]
  exact congrArg (Bind.placedReply _) hplace

end

/-- What an answer keeps: one given at once leaves nodes and partitions as they were, and one to come leaves the function. -/
def Dev.AnswerKeeps (d : Dev) (pid : Nat) (r : Dev × Reply) : Prop :=
  match r.2 with
  | .now .. => r.1.nodes = d.nodes ∧ r.1.parts = d.parts
  | .later _ => ∃ q, r.1.parts[pid]? = some q

theorem Dev.AnswerKeeps.now {d d' : Dev} {pid : Nat} {c : BitVec 8} {out : List Word64} (hn : d'.nodes = d.nodes)
    (hp : d'.parts = d.parts) : d.AnswerKeeps pid (d', .now c out) := ⟨hn, hp⟩

/-- A load that answers with an error keeps no node and no module, whether it came to placing one or not. -/
theorem Dev.loadFile_keeps {d : Dev} {p : Partition} (digest : BitVec 512) (f : ModuleFile) (asid base length : Nat)
    (hp : d.parts[p.pid]? = some p) : d.AnswerKeeps p.pid (d.loadFile p digest f asid base length) := by
  rw [Dev.loadFile_eq]
  split
  · exact .now rfl rfl
  split
  · exact .now rfl rfl
  unfold Dev.loadOver
  split
  next _ pages d1 parts _ hmade =>
    rw [Dev.madeFor_eq, Option.bind_eq_some_iff] at hmade
    obtain ⟨_, _, hbind⟩ := hmade
    obtain ⟨_, hnodes, he⟩ := Option.bind_eq_some_iff.mp hbind
    cases he
    obtain ⟨ns, hd1, _⟩ := Dev.moduleNodes_some hnodes
    have hparts : d1.parts = d.parts := by rw [hd1]
    generalize hplace : d1.placeModule .. = placed
    obtain ⟨d2, _ | _⟩ := placed
    · have hd2 := Dev.placeModule_false hplace
      exact .now ((congrArg (List.filter _) hd2.nodes).trans (Dev.nodes_given_back rfl hnodes)) (hd2.parts.trans hparts)
    · exact ⟨_, (Dev.placeModule_true (hparts ▸ hp) hplace).1⟩
  next => exact .now rfl rfl

/-- LOAD_MODULE's answer over a device. -/
def Dev.loadReply (d : Dev) (pid : Nat) (p : Partition) : Dev × Reply :=
  let (a, size, asid, base, length) := (p.argN 0, p.argN 1, p.argN 2, p.argN 3, p.argN 4)
  if !p.rec_.ownsAsid asid || base % 2 ^ 16 != 0 || decide (2 ^ 48 < base + length) then (d, invalid)
  else match d.engRead 0 pid asid a size with
    | (d, .ok bs) => (match moduleFile bs with
      | some (m, f) => d.loadFile p (Config.sha512 m) f asid base length
      | none => (d, invalid))
    | (d, _) => (d, invalid)

theorem exec_loadModule {s : State} {pid : Nat} {p : Partition} (h : Commanded s pid 1 p) :
    exec (.loadModule pid) s = s.replied pid (s.dev.loadReply pid p) :=
  devCommand_of_commanded h fun d p => d.loadReply pid p

section
variable {d d' : Dev} {pid : Nat} {p : Partition} {bs : List Byte}

theorem Dev.loadReply_refused
    (h : p.rec_.ownsAsid (p.argN 2) = false ∨ p.argN 3 % 2 ^ 16 ≠ 0 ∨ 2 ^ 48 < p.argN 3 + p.argN 4) : d.loadReply pid p = (d, invalid) := by
  unfold Dev.loadReply
  dsimp only
  rw [if_pos]
  simpa [or_assoc] using h

variable (hasid : p.rec_.ownsAsid (p.argN 2) = true) (halign : p.argN 3 % 2 ^ 16 = 0) (htop : p.argN 3 + p.argN 4 ≤ 2 ^ 48)
  (hread : d.engRead 0 pid (p.argN 2) (p.argN 0) (p.argN 1) = (d', .ok bs))
include hasid halign htop hread

theorem Dev.loadReply_noModule (h : moduleFile bs = none) : d.loadReply pid p = (d', invalid) := by
  unfold Dev.loadReply
  dsimp only
  rw [if_neg (by simp only [hasid, halign]; simpa using htop), hread]
  dsimp only
  rw [h]

theorem Dev.loadReply_module {m : List Byte} {f : ModuleFile} (h : moduleFile bs = some (m, f)) :
    d.loadReply pid p = d'.loadFile p (Config.sha512 m) f (p.argN 2) (p.argN 3) (p.argN 4) := by
  unfold Dev.loadReply
  dsimp only
  rw [if_neg (by simp only [hasid, halign]; simpa using htop), hread]
  dsimp only
  rw [h]

end

theorem Dev.loadReply_keeps {d : Dev} {p : Partition} (hp : d.parts[p.pid]? = some p) : d.AnswerKeeps p.pid (d.loadReply p.pid p) := by
  unfold Dev.loadReply
  dsimp only
  split
  · exact .now rfl rfl
  have hread := d.onlyAccess_engRead 0 p.pid (p.argN 2) (p.argN 0) (p.argN 1)
  split
  next d' bs hbs =>
    rw [hbs] at hread
    split
    next m f _ =>
      have hfile := d'.loadFile_keeps (Config.sha512 m) f (p.argN 2) (p.argN 3) (p.argN 4) (hread.parts ▸ hp)
      unfold Dev.AnswerKeeps at *
      rwa [hread.nodes, hread.parts] at hfile
    next => exact .now hread.nodes hread.parts
  next d' r hr =>
    rw [hr] at hread
    exact .now hread.nodes hread.parts

/-- A load that has answered at once has made no node and no module. -/
theorem loadModule_answered {s : State} {p : Partition} (h : Commanded s p.pid 1 p) {d : Dev} {r : BitVec 8} {out : List Word64}
    (hans : Replies (.loadModule p.pid) s d p.pid r out) :
    (d.answerCmd p.pid r out).nodes = s.dev.nodes ∧ ((d.answerCmd p.pid r out).part p.pid).modules = p.modules := by
  unfold Replies at hans
  rw [exec_loadModule h] at hans
  have hkeeps := s.dev.loadReply_keeps h.here
  unfold State.replied at hans
  unfold Dev.AnswerKeeps at hkeeps
  split at hans
  next c out' hnow =>
    rw [hnow] at hkeeps
    obtain ⟨hnodes, hparts⟩ := hkeeps
    have hdev : (s.dev.loadReply p.pid p).1.answerCmd p.pid c out' = d.answerCmd p.pid r out := by
      simpa [State.withDev] using hans
    rw [← hdev]
    obtain ⟨q, hq, hmodules, _⟩ := Dev.parts_answerCmd c out' (hparts ▸ h.here)
    rw [Dev.part_of_getElem? hq]
    exact ⟨(Dev.nodes_answerCmd ..).trans hnodes, hmodules⟩
  next w hlater =>
    rw [hlater] at hkeeps
    obtain ⟨q, hq⟩ := hkeeps
    simp only [Host.Outcome.next.injEq, State.withDev, State.mk.injEq, and_true] at hans
    exact absurd hans.symm (Dev.answerCmd_ne_wait r out w hq)

theorem replies_of_loadReply {s : State} {pid : Nat} {p : Partition} (h : Commanded s pid 1 p) {d : Dev}
    {r : BitVec 8} {out : List Word64} (hr : s.dev.loadReply pid p = (d, .now r out)) : Replies (.loadModule pid) s d pid r out := by
  unfold Replies
  rw [exec_loadModule h, hr]
  rfl

theorem lasts_of_loadReply {s : State} {pid : Nat} {p : Partition} (h : Commanded s pid 1 p) {d : Dev}
    {w : CmdWait} (hr : s.dev.loadReply pid p = (d, .later w)) : Lasts (.loadModule pid) s d pid w := by
  unfold Lasts
  rw [exec_loadModule h, hr]
  rfl

/-- Settles O47: by the cases of the load's answer, the layout's order, and what placing changes. -/
theorem modulesLoad : Obligations.ModulesLoad := by
  refine ⟨fun s pid p h hpid => ?_, fun d d' pid p m image parts pages hp hplace => Dev.placeModule_true hp hplace,
    fun f base k x hk hx => ?_, fun f k x bs out hn hout => kernelBytes_native hn hout⟩
  · subst hpid
    refine ⟨fun hbad => replies_of_loadReply h (Dev.loadReply_refused hbad),
      fun hasid halign htop d bs hread => ⟨fun hnone => ?_, fun m f hfile => ?_⟩,
      fun d r out _ hans => loadModule_answered h hans⟩
    · exact replies_of_loadReply h (Dev.loadReply_noModule hasid halign htop hread hnone)
    have hload := Dev.loadReply_module hasid halign htop hread hfile
    refine ⟨fun harea => replies_of_loadReply h (hload.trans (Dev.loadFile_noArea harea)),
      fun hend hfree => ⟨fun hids => replies_of_loadReply h (hload.trans (Dev.loadFile_noIds hend hfree hids)),
        fun parts pages d0 d1 d2 hids himage hnodes hpages hplace => ?_⟩⟩
    exact lasts_of_loadReply h (hload.trans (Dev.loadFile_placed hend hfree hids himage hnodes hpages hplace))
  · rw [ModuleFile.places_eq]
    obtain ⟨halign, hstart, hend⟩ := startsFrom_spec (e := base) hk hx
    exact ⟨halign, hstart, hend, fun j y hjk hj hy => startsFrom_ordered hjk hk hx hj hy⟩

end Sys2Proof.Machine
end

section
/-! SUPPORT. The dispatcher's choice, what placing a unit makes, and the ageing interval (R18, R29, R51 to R55). -/

namespace Sys2Proof.Machine

/-! ## Choosing (R52) -/

/-- A choice open to the dispatcher: its queue exists, and its unit is that queue's first. -/
def Dev.Open (d : Dev) (x : Queue × Unit_ × List Nat) : Prop :=
  (∃ q, d.queue? x.1.num = some q) ∧ d.firstUnit? x.1.num = some x.2.1

theorem mem_insertIn {α : Type} {le : α → α → Bool} {x y : α} {l : List α} : y ∈ List.insertIn le x l ↔ y = x ∨ y ∈ l := by
  induction l with
  | nil => simp [List.insertIn]
  | cons z t ih =>
    unfold List.insertIn
    split
    · simp
    · simp only [List.mem_cons, ih]
      exact or_left_comm

theorem mem_isort {α : Type} {le : α → α → Bool} {y : α} {l : List α} : y ∈ l.isort le ↔ y ∈ l := by
  unfold List.isort
  induction l with
  | nil => simp
  | cons z t ih => simp [mem_insertIn, ih]

theorem Dev.queue?_isSome_of_mem {d : Dev} {q : Queue} (h : q ∈ d.queues) : ∃ q', d.queue? q.num = some q' :=
  Option.isSome_iff_exists.mp (List.find?_isSome.mpr ⟨q, h, by simp⟩)

theorem Dev.waiting_spec {d : Dev} {q : Queue} {u : Unit_} (h : (q, u) ∈ d.waiting) :
    (∃ q', d.queue? q.num = some q') ∧ d.firstUnit? q.num = some u := by
  obtain ⟨q', hq', hu⟩ := List.mem_filterMap.mp h
  obtain ⟨u', hfirst, he⟩ := Option.map_eq_some_iff.mp hu
  cases he
  exact ⟨Dev.queue?_isSome_of_mem (List.mem_filter.mp (mem_isort.mp hq')).1, hfirst⟩

theorem Dev.open_of_mem_ready {d : Dev} {level : Nat} {x : Queue × Unit_ × List Nat} (h : x ∈ d.ready level) : d.Open x := by
  unfold Dev.ready at h
  extract_lets held all from_ at h
  have hall : x ∈ all := by
    obtain h | h := List.mem_append.mp h
    · exact (List.mem_filter.mp h).1
    · exact (List.mem_filter.mp h).1
  obtain ⟨⟨q, u⟩, hwait, hx⟩ := List.mem_filterMap.mp hall
  dsimp only at hx
  split at hx
  · obtain ⟨cs, _, rfl⟩ := Option.map_eq_some_iff.mp hx
    exact Dev.waiting_spec hwait
  · cases hx

@[simp] theorem Dev.setLevel_pending (d : Dev) (level n : Nat) : (d.setLevel level n).pending = d.pending := rfl
@[simp] theorem Dev.setLevel_queues (d : Dev) (level n : Nat) : (d.setLevel level n).queues = d.queues := rfl

theorem Dev.queue?_modQueue {d : Dev} {qn : Nat} (n : Nat) {f : Queue → Queue} (hf : ∀ q, (f q).num = q.num)
    (h : ∃ q, d.queue? qn = some q) : ∃ q, (d.modQueue n f).queue? qn = some q := by
  obtain ⟨q, hq⟩ := h
  exact ⟨_, find_map d.queues (·.num == qn) (fun x => if x.num = n then f x else x) (fun y => by split <;> simp [hf]) hq⟩

/-- What the rounds of R52 choose was offered, its queue's deficit is positive, and no unit has left its queue. -/
theorem Dev.choose_spec {level fuel : Nat} {xs : List (Queue × Unit_ × List Nat)} {d d' : Dev} {x : Queue × Unit_ × List Nat}
    (hopen : ∀ y ∈ xs, d.Open y) (h : d.choose level fuel xs = (d', some x)) :
    (∃ q, d'.queue? x.1.num = some q ∧ 0 < q.deficit) ∧ d'.pending = d.pending ∧ d'.firstUnit? x.1.num = some x.2.1 := by
  induction fuel generalizing d xs with
  | zero => cases h
  | succ n ih =>
    cases xs with
    | nil => cases h
    | cons y rest =>
      obtain ⟨⟨q, hq⟩, hunit⟩ := hopen y (by simp)
      unfold Dev.choose at h
      rw [hq] at h
      dsimp only [Option.getD_some] at h
      split at h
      next hpos =>
        cases h
        exact ⟨⟨q, hq, hpos⟩, rfl, hunit⟩
      next =>
        have hrest := ih (fun z hz => ?_) h
        · exact hrest
        have hz' := hopen z (by simpa [or_comm] using hz)
        exact ⟨Dev.queue?_modQueue q.num (fun _ => rfl) hz'.1, hz'.2⟩

theorem Dev.chooseUnit_spec {levels : List Nat} {d d' : Dev} {x : Queue × Unit_ × List Nat} (h : d.chooseUnit levels = (d', some x)) :
    (∃ q, d'.queue? x.1.num = some q ∧ 0 < q.deficit) ∧ d'.pending = d.pending ∧ d'.firstUnit? x.1.num = some x.2.1 := by
  induction levels with
  | nil => cases h
  | cons l rest ih =>
    unfold Dev.chooseUnit at h
    split at h
    next => exact ih h
    next xs hxs => exact Dev.choose_spec (fun y hy => Dev.open_of_mem_ready hy) h

/-! ## Events -/

theorem withEvent_refused {s : State} {f : Dev → Option Dev} (h : f s.dev = none) : ∃ e, withEvent s f = .refused e :=
  ⟨.notPending, by simp [withEvent, h]⟩

theorem exec_dispatch {s : State} {d : Dev} {q : Queue} {u : Unit_} {cs : List Nat}
    (h : s.dev.chooseUnit [7, 6, 5, 4, 3, 2, 1, 0] = (d, some (q, u, cs))) : exec .dispatch s = .next (s.withDev (d.place q u cs)) := by
  change execDispatch s = _
  unfold execDispatch
  refine withEvent_next _ ?_
  rw [h]

/-- The ageing intervals that a queue's first unit has waited (R51). -/
def Dev.intervals (d : Dev) (q : Queue) (qn : Nat) : Nat := d.waited q / max 1 (d.die (qn / 64)).ageus

section
variable {s : State} {qn : Nat} {q : Queue} (hq : s.dev.queue? qn = some q)
include hq

theorem exec_ageingTick_next (h : q.level < s.dev.intervals q qn) :
    exec (.ageingTick qn) s = .next (s.withDev (s.dev.modQueue qn fun x => { x with level := s.dev.intervals q qn })) := by
  change execAgeingTick qn s = _
  unfold execAgeingTick
  refine withEvent_next _ ?_
  rw [hq]
  exact if_pos h

theorem exec_ageingTick_refused (h : s.dev.intervals q qn ≤ q.level) : ∃ e, exec (.ageingTick qn) s = .refused e := by
  change ∃ e, execAgeingTick qn s = .refused e
  unfold execAgeingTick
  refine withEvent_refused ?_
  rw [hq]
  exact if_neg (Nat.not_lt.mpr h)

end

/-! ## Placing (R18, R29) -/

theorem Dev.noteWaits_teams (d : Dev) (q : Nat) : (d.noteWaits q).teams = d.teams := rfl

/-- A team as placement makes it: its groups stand at CODE, and nothing has run (R18, R29). -/
def Team.Fresh (t : Team) (g : Grid) : Prop :=
  t.grid = g.id ∧ t.state = .placed g.launch.units ∧ t.record = 0 ∧ t.lost = 0 ∧ t.groups.length = g.launch.ngroup ∧
  ∀ (k : Nat) (x : Group), t.groups[k]? = some x → ∃ sextant, x = Group.start g.launch k sextant

theorem Dev.placeTeam_teams (d : Dev) (g : Grid) (num core : Nat) :
    ∃ t : Team, (d.placeTeam g num core).teams = d.teams ++ [t] ∧ t.num = num ∧ t.core = core ∧ t.Fresh g := by
  refine ⟨_, rfl, rfl, rfl, rfl, rfl, rfl, rfl, by simp, fun k x hx => ?_⟩
  rw [List.getElem?_map] at hx
  obtain ⟨k', hk', rfl⟩ := Option.map_eq_some_iff.mp hx
  obtain ⟨_, hval⟩ := List.getElem?_eq_some_iff.mp hk'
  obtain rfl : k = k' := by simpa using hval
  exact ⟨_, rfl⟩

/-- One team for each core found, in order. -/
theorem Dev.placeTeams_teams (g : Grid) (first : Nat) (cores : List Nat) (k : Nat) (d : Dev) :
    ∃ news : List Team, ((cores.zipIdx k).foldl (fun d (c, j) => d.placeTeam g (first + j) c) d).teams = d.teams ++ news ∧
      news.map (fun t => t.core) = cores ∧ news.map (fun t => t.num) = (List.range' k cores.length).map (fun j => first + j) ∧
      ∀ t ∈ news, t.Fresh g := by
  induction cores generalizing k d with
  | nil => exact ⟨[], (List.append_nil _).symm, rfl, rfl, fun _ h => nomatch h⟩
  | cons c cs ih =>
    obtain ⟨t, ht, hnum, hcore, hnew⟩ := d.placeTeam_teams g (first + k) c
    obtain ⟨news, hteams, hcores, hnums, hfresh⟩ := ih (k + 1) (d.placeTeam g (first + k) c)
    refine ⟨t :: news, ?_, ?_, ?_, List.forall_mem_cons.mpr ⟨hnew, hfresh⟩⟩
    · rw [ht, List.append_assoc] at hteams
      exact hteams
    · rw [List.map_cons, hcore, hcores]
    · rw [List.map_cons, hnum, hnums, List.length_cons, List.range'_succ, List.map_cons]

theorem Dev.place_teams {d : Dev} {q : Queue} {u : Unit_} {cores : List Nat} {g : Grid} (hg : d.grid? u.grid = some g)
    (hu : u.saved = []) : (d.place q u cores).teams = ((cores.zipIdx).foldl (fun d (c, j) => d.placeTeam g (u.first + j) c) d).teams := by
  unfold Dev.place
  rw [hg]
  simp only [hu, List.isEmpty_nil, if_true, Dev.noteWaits_teams, Dev.modQueue_teams]
  split <;> rfl

/-- What a group at its start holds. -/
theorem Group.start_spec (l : Launch) (k sextant : Nat) : let x := Group.start l k sextant
    x.num = k ∧ x.owed = [] ∧ x.splits.length = 1 ∧ x.loaded = false ∧ x.urg = 0 ∧
      x.slices = List.replicate (l.width / 4) { (Slice.blank) with
        pc := l.code, x := 15, pm := 15, snap := { repc := l.code, x := 15, pm := 15, depth := 0, rgnctr := 0, clause := none } } :=
  ⟨rfl, rfl, rfl, rfl, rfl, rfl⟩

end Sys2Proof.Machine
end

section
/-! SUPPORT. The ramp's window, a unit's start, its groups' arguments, and power gating (R30, R56, R57, R390). -/

namespace Sys2Proof.Machine

/-! ## The ramp (R56) -/

theorem Dev.die_modDie_same {d : Dev} {n : Nat} (f : Die → Die) (h : n < d.dies.length) : (d.modDie n f).die n = f (d.die n) := by
  simp only [Dev.die, Dev.modDie, List.getD_eq_getElem?_getD, getElem?_listSet, if_true, List.getElem?_eq_getElem h,
    Option.map_some, Option.getD_some]

theorem Dev.core_modDie (d : Dev) (n c : Nat) (f : Die → Die) : (d.modDie n f).core c = d.core c := rfl

theorem Dev.length_dies_modDie (d : Dev) (n : Nat) (f : Die → Die) : (d.modDie n f).dies.length = d.dies.length := by
  simp [Dev.modDie, listSet]

/-- The units of a core that step down next: as many as the window still allows. -/
def Dev.stepUnits (d : Dev) (die c : Nat) : Nat := min (d.core c).stepping.length ((d.die die).rampu - (d.die die).used)

/-- Units of one core step down. -/
def Dev.stepCore (d : Dev) (die c : Nat) : Dev :=
  let k := d.stepUnits die c
  if k = 0 then d
  else (d.modCore c fun y => { y with stepping := y.stepping.drop k }).modDie die fun y => { y with used := y.used + k }

theorem Dev.stepDown_eq (d : Dev) (die : Nat) :
    d.stepDown die = ((List.range 128).map (die * 128 + ·)).foldl (fun d c => d.stepCore die c) d := rfl

theorem Dev.die_stepCore {d : Dev} {die : Nat} (c : Nat) (h : die < d.dies.length) :
    (d.stepCore die c).die die = { d.die die with used := (d.die die).used + d.stepUnits die c } := by
  unfold Dev.stepCore
  dsimp only
  split
  next h0 => rw [h0]; rfl
  next => exact Dev.die_modDie_same _ h

theorem Dev.stepping_stepCore (d : Dev) (die c c' : Nat) : ((d.stepCore die c).core c').stepping =
    if c' = c then (d.core c').stepping.drop (d.stepUnits die c) else (d.core c').stepping := by
  unfold Dev.stepCore
  dsimp only
  split
  next h0 => simp [h0]
  next =>
    rw [Dev.core_modDie]
    split
    next hc => rw [hc, Dev.core_modCore_same]
    next hc => rw [Dev.core_modCore_ne _ _ hc]

theorem Dev.length_dies_stepCore (d : Dev) (die c : Nat) : (d.stepCore die c).dies.length = d.dies.length := by
  unfold Dev.stepCore
  dsimp only
  split
  · rfl
  · exact Dev.length_dies_modDie ..

/-- What stepping down keeps of a die's window: its tick and size, and that no more units are counted than it allows. -/
structure Dev.Steps (d0 d : Dev) (die : Nat) : Prop where
  dies   : die < d.dies.length
  window : (d.die die).window = (d0.die die).window
  rampu  : (d.die die).rampu = (d0.die die).rampu
  used   : (d.die die).used ≤ (d.die die).rampu
  suffix : ∀ c, (d.core c).stepping <:+ (d0.core c).stepping

theorem Dev.Steps.stepCore {d0 d : Dev} {die : Nat} (h : d0.Steps d die) (c : Nat) : d0.Steps (d.stepCore die c) die := by
  obtain ⟨hdies, hwindow, hrampu, hused, hsuffix⟩ := h
  have hdie := Dev.die_stepCore c hdies
  have hroom : d.stepUnits die c ≤ (d.die die).rampu - (d.die die).used := Nat.min_le_right ..
  refine ⟨by rwa [Dev.length_dies_stepCore], by rwa [hdie], by rwa [hdie], by rw [hdie]; dsimp only; omega, fun c' => ?_⟩
  rw [Dev.stepping_stepCore]
  split
  · exact (List.drop_suffix ..).trans (hsuffix c')
  · exact hsuffix c'

/-- A core whose units have not all stepped down has used up the window. -/
theorem Dev.Steps.used_up {d0 d : Dev} {die : Nat} (h : d0.Steps d die) {c : Nat} (hleft : ((d.stepCore die c).core c).stepping ≠ []) :
    ((d.stepCore die c).die die).used = ((d.stepCore die c).die die).rampu := by
  obtain ⟨hdies, _, _, hused, _⟩ := h
  rw [Dev.stepping_stepCore, if_pos rfl, ne_eq, List.drop_eq_nil_iff, Nat.not_le] at hleft
  rw [Dev.die_stepCore c hdies]
  unfold Dev.stepUnits at hleft ⊢
  dsimp only
  omega

/-- Once used up, the window lets nothing more step down. -/
theorem Dev.stepCore_full {d : Dev} {die c : Nat} (h : (d.die die).used = (d.die die).rampu) : d.stepCore die c = d := by
  simp [Dev.stepCore, Dev.stepUnits, h]

theorem Dev.stepCores_full {d : Dev} {die : Nat} (cs : List Nat) (h : (d.die die).used = (d.die die).rampu) :
    cs.foldl (fun d c => d.stepCore die c) d = d :=
  List.foldlRecOn (motive := (· = d)) cs _ rfl fun _ he _ _ => he ▸ Dev.stepCore_full (he ▸ h)

theorem Dev.Steps.stepCores {d0 d : Dev} {die : Nat} (h : d0.Steps d die) (cs : List Nat) :
    d0.Steps (cs.foldl (fun d c => d.stepCore die c) d) die :=
  List.foldlRecOn (motive := (d0.Steps · die)) cs _ h fun _ he c _ => he.stepCore c

theorem Dev.Steps.cores_used_up {d0 d : Dev} {die c : Nat} {cs : List Nat} (h : d0.Steps d die) (hc : c ∈ cs)
    (hleft : ((cs.foldl (fun d c => d.stepCore die c) d).core c).stepping ≠ []) :
    ((cs.foldl (fun d c => d.stepCore die c) d).die die).used = ((cs.foldl (fun d c => d.stepCore die c) d).die die).rampu := by
  obtain ⟨as, bs, rfl⟩ := List.append_of_mem hc
  rw [List.foldl_append, List.foldl_cons] at hleft ⊢
  have hmid := h.stepCores as
  generalize as.foldl (fun d c => d.stepCore die c) d = e at hleft hmid ⊢
  have hrest := Dev.Steps.stepCores ⟨(hmid.stepCore c).dies, rfl, rfl, (hmid.stepCore c).used, fun _ => List.suffix_refl _⟩ bs
  have hleft' : ((e.stepCore die c).core c).stepping ≠ [] := fun h0 => hleft (List.suffix_nil.mp (h0 ▸ hrest.suffix c))
  have hfull := hmid.used_up hleft'
  rwa [Dev.stepCores_full bs hfull]

theorem exec_rampWindow {s : State} {die : Nat} (h : (s.dev.die die).window ≠ s.dev.tick die) :
    exec (.rampWindow die) s = .next (s.withDev ((s.dev.openWindow die).stepDown die)) := by
  change execRampWindow die s = _
  unfold execRampWindow
  exact withEvent_next _ (if_neg h)

/-- A window that opens has its die's tick and size, and nothing started or stopped. -/
theorem Dev.openWindow_spec {d : Dev} {die : Nat} (hdie : die < d.dies.length) (h : (d.die die).window ≠ d.tick die) :
    (d.openWindow die).die die = { d.die die with window := d.tick die, used := 0 } ∧
    die < (d.openWindow die).dies.length ∧ ∀ c, (d.openWindow die).core c = d.core c := by
  rw [Dev.openWindow, if_neg h]
  exact ⟨Dev.die_modDie_same _ hdie, by rwa [Dev.length_dies_modDie], fun _ => rfl⟩

theorem Dev.rampWindow_spec {d : Dev} {die : Nat} (hdie : die < d.dies.length) (h : (d.die die).window ≠ d.tick die) :
    let e := (d.openWindow die).stepDown die
    (e.die die).window = d.tick die ∧ (e.die die).used ≤ (d.die die).rampu ∧ (∀ c, (e.core c).stepping <:+ (d.core c).stepping) ∧
      ((∃ c, c / 128 = die ∧ (e.core c).stepping ≠ []) → (e.die die).used = (d.die die).rampu) := by
  obtain ⟨hopen, hlen, hcores⟩ := Dev.openWindow_spec hdie h
  have hstart : (d.openWindow die).Steps (d.openWindow die) die :=
    ⟨hlen, rfl, rfl, by rw [hopen]; exact Nat.zero_le _, fun _ => List.suffix_refl _⟩
  rw [Dev.stepDown_eq]
  obtain ⟨_, hwindow, hrampu, hused, hsuffix⟩ := hstart.stepCores ((List.range 128).map (die * 128 + ·))
  have hrampu' := hrampu.trans (congrArg Die.rampu hopen)
  refine ⟨hwindow.trans (congrArg Die.window hopen), hrampu' ▸ hused, fun c => by rw [← hcores c]; exact hsuffix c, ?_⟩
  rintro ⟨c, hc, hleft⟩
  have hmem : c ∈ (List.range 128).map (die * 128 + ·) :=
    List.mem_map.mpr ⟨c % 128, List.mem_range.mpr (Nat.mod_lt _ (by decide)), by omega⟩
  exact (hstart.cores_used_up hmem hleft).trans hrampu'

/-! ## Starts (R56, R390) -/

/-- Teams marked first and then changed one by one, where the mark makes no difference to the change. -/
theorem Dev.modTeam_map {d : Dev} {inst : Nat} {f g : Team → Team}
    (h : ∀ u, (if (f u).inst = inst then g (f u) else f u) = if u.inst = inst then g u else u) :
    ({ d with teams := d.teams.map f } : Dev).modTeam inst g = d.modTeam inst g := by
  simp only [Dev.modTeam, List.map_map, Function.comp_def, h]

/-- A unit of one team that has no record to restore runs, and its groups are loaded. -/
theorem Dev.startUnit_alone (d : Dev) {t : Team} (h : t.record = 0) : d.startUnit [t] =
    t.groups.foldl (fun d g => d.loadGroup ⟨t.inst, g.num⟩) (d.modTeam t.inst fun t => { t with state := .running }) := by
  simp [Dev.startUnit, h]

theorem exec_teamStart {s : State} {inst : Nat} {t : Team} {l : Launch} (ht : s.dev.team? inst = some t)
    (hl : s.dev.launchOf t = some l) (hunit : s.dev.unitOf t = [t]) (hnext : s.dev.nextStart? (t.core / 128) = some t)
    (hwindow : (s.dev.die (t.core / 128)).window = s.dev.tick (t.core / 128)) (hawake : (s.dev.core t.core).gated = false)
    (hrecord : t.record = 0) (hacquired : s.dev.settle < s.dev.cycle ∨ ∀ g, s.dev.grid? t.grid = some g → g.origin.ofNode = false)
    (hroom : (s.dev.die (t.core / 128)).used + l.units ≤ (s.dev.die (t.core / 128)).rampu) :
    exec (.teamStart inst) s = .next (s.withDev (t.groups.foldl (fun d g => d.loadGroup ⟨t.inst, g.num⟩)
      ((s.dev.modDie (t.core / 128) fun x => { x with used := x.used + l.units }).modTeam inst fun t => { t with state := .running }))) := by
  have hinst := Dev.inst_of_team? ht
  have hacq : s.dev.acquires [t] = false := by
    obtain h | h := hacquired
    · simp [Dev.acquires, Nat.not_le.mpr h]
    · cases hg : s.dev.grid? t.grid with
      | none => simp [Dev.acquires, hg]
      | some g => simp [Dev.acquires, hg, h g hg]
  change execTeamStart inst s = _
  unfold execTeamStart
  refine withEvent_next _ ?_
  rw [ht]
  simp only [Option.bind_eq_bind, Option.bind_some, hnext, hunit, List.filterMap_cons, List.filterMap_nil, hl, Option.map_some,
    List.foldl_cons, List.foldl_nil, Nat.zero_add, hinst, ne_eq, not_true, hwindow, decide_false,
    List.any_cons, List.any_nil, hawake, hacq, Bool.or_false, Bool.false_eq_true, if_false]
  rw [if_pos (by omega), if_neg (by omega)]
  refine congrArg some ((Dev.startUnit_alone _ hrecord).trans ?_)
  rw [hinst]
  refine congrArg (List.foldl _ · t.groups) (Dev.modTeam_map fun u => ?_)
  by_cases hu : u.inst = inst
  · split <;> simp [hu]
  · simp [hu, Ne.symm hu]

/-! ## A group's arguments (R30) -/

/-- A slice's scalars with the words of a list written from register `k` on. -/
theorem fget_argWrites (ws : List Word64) (k n : Nat) (m : FMap Word64) :
    fget 0 ((ws.zipIdx k).foldl (fun m (w, n) => fset 0 m n w) m) n =
      if k ≤ n ∧ n < k + ws.length then ws.getD (n - k) 0 else fget 0 m n := by
  induction ws generalizing k m with
  | nil => exact (if_neg fun h => by rw [List.length_nil] at h; omega).symm
  | cons w ws ih =>
    rw [List.zipIdx_cons, List.foldl_cons, ih, fget_fset, List.length_cons]
    by_cases hne : n = k
    · subst hne
      rw [if_neg (by omega), if_pos rfl, if_pos (by omega), Nat.sub_self, List.getD_cons_zero]
    · rw [if_neg hne]
      by_cases h : k + 1 ≤ n ∧ n < k + 1 + ws.length
      · rw [if_pos h, if_pos (by omega), show n - k = n - (k + 1) + 1 by omega, List.getD_cons_succ]
      · rw [if_neg h, if_neg (by omega)]

/-- A team's arguments: each word as memory holds it, or as it stood at acceptance (R30). -/
def argsOf (team : Nat) (old now : List Word64) : List Word64 :=
  now.zipIdx.map fun (w, n) => if Config.freeBool team (40000 + n) then old.getD n w else w

theorem getElem?_argsOf {team n : Nat} {old now : List Word64} {w : Word64} (h : now[n]? = some w) :
    ∃ x, (argsOf team old now)[n]? = some x ∧ (x = w ∨ x = old.getD n w) := by
  simp only [argsOf, List.getElem?_map, List.getElem?_zipIdx, h, Option.map_some, Nat.zero_add]
  refine ⟨_, rfl, ?_⟩
  split
  · exact .inr rfl
  · exact .inl rfl

theorem length_argsOf (team : Nat) (old now : List Word64) : (argsOf team old now).length = now.length := by simp [argsOf]

/-- A group with its arguments in the scalars of every slice. -/
def Group.takeArgs (g : Group) (args : List Word64) : Group :=
  { g.modSlices 0xFF fun _ s => { s with s := args.zipIdx.foldl (fun m (w, n) => fset 0 m n w) s.s } with loaded := true }

theorem Group.sreg_takeArgs (g : Group) (args : List Word64) {k n : Nat} (hk : k < g.slices.length) (hlen : g.slices.length ≤ 8)
    (hn : n < 63) : (g.takeArgs args).sreg k n = if n < args.length then args.getD n 0 else g.sreg k n := by
  have hmask : ∀ k < 8, (0xFF : BitVec 8).getLsbD k = true := by decide
  have hslice : (g.takeArgs args).slice k = _ :=
    g.slice_modSlices 0xFF (fun _ s => { s with s := args.zipIdx.foldl (fun m (w, n) => fset 0 m n w) s.s }) k
  rw [if_pos ⟨hmask k (by omega), hk⟩] at hslice
  have hne : n ≠ 63 := by omega
  simp only [Group.sreg, hne, if_false, hslice]
  simpa using fget_argWrites args 0 n (g.slice k).s

theorem Dev.OnlyAccess.group? {d d' : Dev} (h : d.OnlyAccess d') (r : GroupRef) : d'.group? r = d.group? r := by
  simp only [Dev.group?, Dev.team?, h.teams]

/-- A group of no firing's grid takes its arguments as loads read them. -/
theorem Dev.loadGroup_next {d d' : Dev} {i : Issuer} {g : Group} {sp : Split} {args : List Word64} (hg : d.group? i.ref = some g)
    (hsp : g.splits.head? = some sp) (hi : d.issuerAt? ⟨i.ref.team, i.ref.group, sp.stamp⟩ = some i)
    (horigin : i.grid.origin.ofNode = false)
    (hargs : d.loadWords i.core i.grid.pid i.grid.asid i.grid.launch.args i.grid.launch.narg = (d', .ok args)) :
    d.loadGroup i.ref = d'.modGroup i.ref (·.takeArgs (argsOf i.ref.team i.grid.args args)) := by
  unfold Dev.loadGroup
  rw [hg, Option.bind_some, hsp, Option.bind_some, hi]
  dsimp only
  rw [hargs]
  cases ho : i.grid.origin with
  | firing n b => simp [ho, GridOrigin.ofNode] at horigin
  | packet q seq => rfl
  | graph id n => rfl

/-! ## Power (R57) -/

theorem exec_powerGate_refused {s : State} {core : Nat} (h : s.dev.cycle < (s.dev.core core).idle + 160000) :
    ∃ e, exec (.powerGate core) s = .refused e := by
  change ∃ e, execPowerGate core s = .refused e
  unfold execPowerGate
  refine withEvent_refused (if_pos ?_)
  simp [h]

/-- The core's superblocks evicted. -/
def Dev.evictAll (d : Dev) (core : Nat) : Dev := (d.core core).l1.foldl (fun d sb => d.evict core sb) d

/-- A core gated: its caches and its TLB are lost. -/
def Core.gate (c : Core) : Core := { c with l1 := [], icache := [], fills := [], tlb := [], gated := true }

theorem exec_powerGate {s : State} {core : Nat} (hgated : (s.dev.core core).gated = false)
    (hteams : ∀ t ∈ s.dev.teams, t.core = core → t.holds = false) (h : (s.dev.core core).idle + 160000 ≤ s.dev.cycle) :
    exec (.powerGate core) s = .next (s.withDev ((s.dev.evictAll core).modCore core Core.gate)) := by
  change execPowerGate core s = _
  unfold execPowerGate
  refine withEvent_next _ (if_neg ?_)
  have hnone : s.dev.teams.any (fun t => t.core == core && t.holds) = false := by
    simpa [List.any_eq_false] using hteams
  simp [hgated, hnone, h]

theorem Dev.core_evictAll_ne (d : Dev) {core c : Nat} (h : c ≠ core) : (d.evictAll core).core c = d.core c :=
  List.foldlRecOn (motive := fun (e : Dev) => e.core c = d.core c) _ _ rfl fun e he sb _ => (e.core_evict_ne sb h).trans he

/-- Eviction writes back the lines that the core holds dirty, and no other byte. -/
theorem keepsMemory_evictAll (s : State) (core : Nat) : KeepsMemory s core [] (s.dev.evictAll core) := by
  intro key a hclean _
  refine List.foldlRecOn (motive := fun (e : Dev) => e.rd key a = s.dev.rd key a) _ _ rfl fun e he sb hsb => ?_
  refine (e.rd_evict key core sb fun k l hk hdirty hline => ?_).trans he
  exact hclean ⟨sb, hsb, k, l, hk, hdirty, hline⟩

theorem exec_coreWake {s : State} {core : Nat} (hgated : (s.dev.core core).gated = true)
    (hteam : ∃ t ∈ s.dev.teams, t.core = core ∧ t.holds = true) :
    exec (.coreWake core) s = .next (s.withDev (s.dev.modCore core fun c => { c with gated := false })) := by
  change execCoreWake core s = _
  unfold execCoreWake
  refine withEvent_next _ (if_pos ?_)
  simpa [hgated] using hteam

/-- Settles O37: each event's rule, by the part of the dispatcher, the ramp or the core that it moves. -/
theorem teamsPlaced : Obligations.TeamsPlaced := by
  refine ⟨fun s d q u cs h => ?_, fun d q u cores g hg hu => ?_, fun s qn q hq => ?_, fun s die hdie hwindow => ?_,
    fun s inst t l ht hl hunit hnext _ hwindow hawake hrecord hacquired hroom =>
      exec_teamStart ht hl hunit hnext hwindow hawake hrecord hacquired hroom,
    fun d d' i g sp args hg hsp hi horigin hargs hlen => ?_, fun s core hgated hteams => ?_,
    fun s core hgated hteam => exec_coreWake hgated hteam⟩
  · exact ⟨exec_dispatch h, Dev.chooseUnit_spec h⟩
  · obtain ⟨news, hteams, hcores, hnums, hfresh⟩ := Dev.placeTeams_teams g u.first cores 0 d
    rw [← List.range_eq_range'] at hnums
    refine ⟨news, (Dev.place_teams hg hu).trans hteams, hcores, hnums, fun t ht => ?_⟩
    obtain ⟨hgrid, hstate, hrecord, hlost, hlength, hgroups⟩ := hfresh t ht
    refine ⟨hgrid, hstate, hrecord, hlost, hlength, fun k x hx => ?_⟩
    obtain ⟨sextant, rfl⟩ := hgroups k x hx
    exact Group.start_spec g.launch k sextant
  · exact ⟨exec_ageingTick_next hq, exec_ageingTick_refused hq⟩
  · exact ⟨_, exec_rampWindow hwindow, Dev.rampWindow_spec hdie hwindow⟩
  · have hload := Dev.loadGroup_next hg hsp hi horigin hargs
    have haccess := Dev.onlyAccess_loadWords i.core i.grid.pid i.grid.asid i.grid.launch.args i.grid.launch.narg d
    rw [hargs] at haccess
    refine ⟨g.takeArgs (argsOf i.ref.team i.grid.args args), ?_, rfl, rfl, rfl, Dev.length_loadWords hargs, fun k n hk hn => ?_⟩
    · rw [hload]
      exact Dev.group?_modGroup d' _ (fun _ h => h) ((haccess.group? i.ref).trans hg)
    rw [Group.sreg_takeArgs g _ hk hlen hn, length_argsOf]
    refine ⟨fun w hw => ?_, fun h => if_neg (Nat.not_lt.mpr h)⟩
    obtain ⟨x, hx, hval⟩ := getElem?_argsOf (team := i.ref.team) (old := i.grid.args) hw
    rw [if_pos (List.getElem?_eq_some_iff.mp hw).1, List.getD_eq_getElem?_getD, hx]
    exact hval
  · refine ⟨exec_powerGate_refused, fun h => ⟨_, exec_powerGate hgated hteams h, ?_⟩⟩
    rw [Dev.core_modCore_same]
    exact ⟨rfl, rfl, rfl, rfl, fun c hc => (Dev.core_modCore_ne _ _ hc).trans (s.dev.core_evictAll_ne hc), keepsMemory_evictAll s core⟩

end Sys2Proof.Machine
end

section
/-! SUPPORT. Layouts: a field of a word, or of its modifier bits, written from the fields it was read as (R73, R78 to R82). -/

namespace Sys2Proof.Laws

/-! ## Layouts -/

/-- Two fields side by side are the field that spans them. -/
theorem join {w a b lo : Nat} {m : BitVec w} {x : BitVec a} {y : BitVec b}
    (hx : x = m.extractLsb' (lo + b) a) (hy : y = m.extractLsb' lo b) : x ++ y = m.extractLsb' lo (a + b) := by
  rw [hx, hy]
  exact BitVec.extractLsb'_append_extractLsb'_eq_extractLsb' rfl

theorem eq_of_layout {w : Nat} {m x : BitVec w} (h : x = m.extractLsb' 0 w) : x = m := h.trans (whole m)

theorem b1_getLsbD {w : Nat} (m : BitVec w) (k : Nat) : b1 (m.getLsbD k) = m.extractLsb' k 1 := by
  ext i hi
  obtain rfl : i = 0 := by omega
  simp [b1]

theorem b1_mbit (m : BitVec 12) (k : Nat) : b1 (mbit m k) = m.extractLsb' k 1 := b1_getLsbD m k

/-- A one-bit field written from the flag it was read as. -/
theorem ofBool_beq_one (x : BitVec 1) : BitVec.ofBool (x == 1#1) = x := by revert x; decide

/-- A bit that is not set is a zero field. -/
theorem zero_getLsbD {w : Nat} {m : BitVec w} {k : Nat} (h : m.getLsbD k = false) : 0#1 = m.extractLsb' k 1 := by
  rw [← b1_getLsbD, h]; rfl

theorem zero_bit {m : BitVec 12} {k : Nat} (h : mbit m k = false) : 0#1 = m.extractLsb' k 1 := zero_getLsbD h

theorem zero_dk {m : BitVec 12} (h : dk m = false) : 0#1 = m.extractLsb' 11 1 := zero_bit h
theorem zero_ak {m : BitVec 12} (h : ak m = false) : 0#1 = m.extractLsb' 10 1 := zero_bit h
theorem zero_bk {m : BitVec 12} (h : bk m = false) : 0#1 = m.extractLsb' 9 1 := zero_bit h
theorem zero_ck {m : BitVec 12} (h : ck m = false) : 0#1 = m.extractLsb' 8 1 := zero_bit h

theorem zero_run {m : BitVec 12} {lo len : Nat} (h : (!mzero m lo len) = false) : 0#len = m.extractLsb' lo len := by
  rw [Bool.not_eq_false'] at h
  exact (eq_of_beq h).symm

/-- Zero fields side by side are a zero field. -/
theorem zero_join {w a b lo : Nat} {m : BitVec w} (hx : 0#a = m.extractLsb' (lo + b) a) (hy : 0#b = m.extractLsb' lo b) :
    0#(a + b) = m.extractLsb' lo (a + b) := by
  rw [← join hx hy]; simp

/-! ## Codes and register numbers -/

@[simp] theorem enc_rnd2 (x : BitVec 2) : (rnd2 x).enc = x := by revert x; decide
@[simp] theorem enc_pol2 (x : BitVec 2) : (pol2 x).enc = x := by revert x; decide
theorem enc_pfmt2 {x : BitVec 2} (h : x ≠ 3#2) : (pfmt2 x).enc = x := by revert x; decide
theorem enc_space3 {x : BitVec 3} (h : decide (5 ≤ x.toNat) = false) : (space3 x).enc = x := by revert x; decide
theorem enc_wid3 {x : BitVec 3} (h : x ≠ 7#3) : (wid3 x).enc = x := by revert x; decide

theorem enc_ord4 {x : BitVec 4} (h : (ord4 x).isNone = false) : (orElse' (ord4 x) .relaxed).enc = x := by revert x; decide

/-- SEM and SCOPE together, as the encoder joins them (R275). -/
theorem enc_sem5 {x : BitVec 2} {y : BitVec 3} (h : (sem5 x y).isNone = false) :
    (orElse' (sem5 x y) .relaxed).enc = y ++ x := by revert x y; decide

@[simp] theorem isScalar_kreg (k : Bool) (n : BitVec 8) : (kreg k n).isScalar = k := by cases k <;> rfl

/-- A number that fits a narrower field is read from it and written again. -/
theorem setWidth_setWidth_of_lt {w k : Nat} {x : BitVec w} (h : decide (2 ^ k ≤ x.toNat) = false) :
    (x.setWidth k).setWidth w = x := by
  apply BitVec.eq_of_toNat_eq
  rw [BitVec.toNat_setWidth, BitVec.toNat_setWidth, Nat.mod_eq_of_lt (Nat.not_le.mp (of_decide_eq_false h)),
    Nat.mod_eq_of_lt x.isLt]

theorem e6_of_sc64 {n : BitVec 8} (h : sc64 n = false) : e6 (n.setWidth 6) = n := setWidth_setWidth_of_lt h

theorem e3_of_pr8 {n : BitVec 8} (h : pr8 n = false) : e3 (n.setWidth 3) = n := setWidth_setWidth_of_lt h

theorem num_kreg {k : Bool} {n : BitVec 8} (h : kbad k n = false) : (kreg k n).num = n := by
  cases k with
  | false => rfl
  | true => exact e6_of_sc64 h

/-- The only guard that `isAlways` accepts. -/
theorem not_isAlways_eq_false {g : Guard} : (!g.isAlways) = false ↔ g = always := by
  rw [Bool.not_eq_false']
  exact beq_iff_eq

/-- A number that matched a code is that code. -/
theorem eq_ofNat_of_toNat {w k : Nat} {x : BitVec w} (h : x.toNat = k) : x = BitVec.ofNat w k := by
  subst h; simp

/-- A field that is 0 or 1 is a flag. -/
theorem flag_of_lt_two {w : Nat} {x : BitVec w} (h : decide (2 ≤ x.toNat) = false) : (if x == 1 then 1 else 0) = x := by
  obtain hx | hx : x.toNat = 0 ∨ x.toNat = 1 := by have := of_decide_eq_false h; omega
  · rw [eq_ofNat_of_toNat hx]
    split
    · exact (eq_of_beq ‹_›).symm
    · rfl
  · rw [eq_ofNat_of_toNat hx]
    exact if_pos (beq_self_eq_true 1#w)

/-! ## The words -/

theorem pack_unpackF {w : Word64} (hform : fld w 62 2 = 0#2) (hfixed : fld w 0 4 = 0#4) : (unpackF w).pack = w :=
  eq_of_layout (join (join (join (join (join (join (join (join (join hform.symm rfl) rfl) rfl) rfl) rfl) rfl) rfl)
    (ofBool_beq_one _)) hfixed.symm)

theorem pack_unpackFm {w : Word64} (hform : fld w 62 2 = 2#2) : (unpackFm w).pack = w :=
  eq_of_layout (join (join (join (join (join (join (join hform.symm rfl) rfl) rfl) rfl) rfl) (ofBool_beq_one _)) rfl)

theorem pack_unpackFi {w : Word64} (hform : fld w 62 2 = 2#2) : (unpackFi w).pack = w :=
  eq_of_layout (join (join (join (join (join (join hform.symm rfl) rfl) rfl) rfl) (ofBool_beq_one _)) rfl)

theorem Header.pack_unpack {w : Word64} (hform : fld w 60 4 = 15#4) (hzero : fld w 0 33 = 0#33) : (Header.unpack w).pack = w :=
  eq_of_layout (join (join (join (join (join (join (join hform.symm rfl) rfl) rfl) rfl) (ofBool_beq_one _)) rfl) hzero.symm)

theorem Slot.pack_unpack (x : BitVec 31) : (Slot.unpack x).pack = x :=
  eq_of_layout (join (join (join (join rfl rfl) rfl) rfl) rfl)

/-- The two slots of a P word (R82), read and written again. -/
theorem packPair_unpack {w : Word64} (hform : fld w 62 2 = 1#2) :
    packPair (Slot.unpack (fld w 31 31)) (Slot.unpack (fld w 0 31)) = w :=
  eq_of_layout (join (join hform.symm (Slot.pack_unpack _)) (Slot.pack_unpack _))

/-! ## What a written word holds -/

/-- A field that spans two holds each of them. -/
theorem unjoin {w a b lo : Nat} {m : BitVec w} {x : BitVec a} {y : BitVec b} (h : x ++ y = m.extractLsb' lo (a + b)) :
    x = m.extractLsb' (lo + b) a ∧ y = m.extractLsb' lo b := by
  rw [← BitVec.extractLsb'_append_extractLsb'_eq_extractLsb' (x := m) rfl] at h
  have hx := congrArg (BitVec.extractLsb' b a) h
  have hy := congrArg (BitVec.extractLsb' 0 b) h
  simp only [BitVec.extractLsb'_append_eq_left] at hx
  simp only [BitVec.extractLsb'_append_eq_right] at hy
  exact ⟨hx, hy⟩

theorem Header.fields_pack (h : Header) : fld h.pack 60 4 = 15#4 ∧ fld h.pack 0 33 = 0#33 ∧ Header.unpack h.pack = h := by
  have e : 15#4 ++ h.wait ++ h.setA ++ h.setB ++ h.len ++ BitVec.ofBool h.rgne ++ h.pf ++ 0#33 = h.pack.extractLsb' 0 64 :=
    (whole h.pack).symm
  obtain ⟨e, hzero⟩ := unjoin e
  obtain ⟨e, hpf⟩ := unjoin e
  obtain ⟨e, hrgne⟩ := unjoin e
  obtain ⟨e, hlen⟩ := unjoin e
  obtain ⟨e, hsetB⟩ := unjoin e
  obtain ⟨e, hsetA⟩ := unjoin e
  obtain ⟨hform, hwait⟩ := unjoin e
  refine ⟨hform.symm, hzero.symm, ?_⟩
  simp only [Header.unpack, fld, ← hwait, ← hsetA, ← hsetB, ← hlen, ← hrgne, ← hpf]
  cases h; simp [ofBool_bit]

theorem Slot.unpack_pack (s : Slot) : Slot.unpack s.pack = s := by
  have e : s.pop ++ s.d ++ s.s ++ s.imm5 ++ s.g = s.pack.extractLsb' 0 31 := (whole s.pack).symm
  obtain ⟨e, hg⟩ := unjoin e
  obtain ⟨e, himm⟩ := unjoin e
  obtain ⟨e, hs⟩ := unjoin e
  obtain ⟨hpop, hd⟩ := unjoin e
  simp only [Slot.unpack, ← hpop, ← hd, ← hs, ← himm, ← hg]

theorem fields_packPair (x y : Slot) :
    fld (packPair x y) 62 2 = 1#2 ∧ fld (packPair x y) 31 31 = x.pack ∧ fld (packPair x y) 0 31 = y.pack := by
  have e : 1#2 ++ x.pack ++ y.pack = (packPair x y).extractLsb' 0 64 := (whole (packPair x y)).symm
  obtain ⟨e, hy⟩ := unjoin e
  obtain ⟨hform, hx⟩ := unjoin e
  exact ⟨hform.symm, hx.symm, hy.symm⟩

/-- A field of a field. -/
theorem extract_fld (w : Word64) {lo len k n : Nat} (h : k + n ≤ len) : (fld w lo len).extractLsb' k n = fld w (lo + k) n := by
  ext i hi
  simp [fld, show k + i < len by omega, Nat.add_assoc]

/-- A word of a form other than 3 is no header (R77). -/
theorem high_ne_of_form {w : Word64} (h : fld w 62 2 ≠ 3#2) : fld w 60 4 ≠ 15#4 := by
  intro hhigh
  rw [← extract_fld w (lo := 60) (len := 4) (k := 2) (by decide), hhigh] at h
  exact h rfl

end Sys2Proof.Laws
end

section
/-! SUPPORT. What the encoder writes of a well-formed instruction decodes to it (R73 to R89). -/

namespace Sys2Proof.Laws

/-- Every instruction's fields are read back as it. -/
theorem F.all (i : Instr) : F.Statement i := by
  cases i with
  | nop => exact F.nop _ | bra => exact F.bra _ _ _ | brx => exact F.brx _ _ _ | call => exact F.call _ _
  | callx => exact F.callx _ _ | ret => exact F.ret | join => exact F.join | joint => exact F.joint _ _
  | exit => exact F.exit _ | delay => exact F.delay _ _ | yield => exact F.yield | rgn => exact F.rgn
  | phint => exact F.phint _ _ _ | ipf => exact F.ipf _ _ _ | iadd => exact F.iadd _ | isub => exact F.isub _
  | iadd3 => exact F.iadd3 _ | imul => exact F.imul _ | imulh => exact F.imulh _ | imad => exact F.imad _
  | imadw => exact F.imadw _ | idiv => exact F.idiv _ | irem => exact F.irem _ | imin => exact F.imin _
  | imax => exact F.imax _ | iabs => exact F.iabs _ | ineg => exact F.ineg _ | isad => exact F.isad _
  | idot4 => exact F.idot4 _ | iset => exact F.iset _ | sel => exact F.sel _ | lea => exact F.lea _ | mov => exact F.mov _
  | movi => exact F.movi _ _ _ | movw => exact F.movw _ _ _ | and => exact F.and _ | or => exact F.or _
  | xor => exact F.xor _ | not => exact F.not _ | bool3 => exact F.bool3 _ | shl => exact F.shl _ | shr => exact F.shr _
  | sar => exact F.sar _ | rot => exact F.rot _ | funnel => exact F.funnel _ | bfe => exact F.bfe _ | bfi => exact F.bfi _
  | popc => exact F.popc _ | clz => exact F.clz _ | ctz => exact F.ctz _ | brev => exact F.brev _ | prmt => exact F.prmt _
  | pand => exact F.pand _ | por => exact F.por _ | pxor => exact F.pxor _ | pnot => exact F.pnot _
  | pmov => exact F.pmov _ _ | fadd => exact F.fadd _ | fmul => exact F.fmul _ | ffma => exact F.ffma _
  | fmin => exact F.fmin _ | fmax => exact F.fmax _ | fdiv => exact F.fdiv _ | fset => exact F.fset _
  | fclass => exact F.fclass _ | frnd => exact F.frnd _ | fscale => exact F.fscale _ | rcp => exact F.rcp _
  | rsq => exact F.rsq _ | sqrt => exact F.sqrt _ | exp2 => exact F.exp2 _ | log2 => exact F.log2 _ | sin => exact F.sin _
  | cos => exact F.cos _ | tanh => exact F.tanh _ | dadd => exact F.dadd _ | dmul => exact F.dmul _ | dfma => exact F.dfma _
  | dmin => exact F.dmin _ | dmax => exact F.dmax _ | dset => exact F.dset _ | dclass => exact F.dclass _
  | dfrnd => exact F.dfrnd _ | dscale => exact F.dscale _ | drcp => exact F.drcp _ | drsq => exact F.drsq _
  | dsqrt => exact F.dsqrt _ | ddiv => exact F.ddiv _ | cvt => exact F.cvt _ | fcvt => exact F.fcvt _
  | qpack => exact F.qpack _ | qunpk => exact F.qunpk _ | qscale => exact F.qscale _ | amax => exact F.amax _
  | vote => exact F.vote _ | ballot => exact F.ballot _ | shfl => exact F.shfl _ | redux => exact F.redux _
  | scan => exact F.scan _ | match_ => exact F.match_ _ | elect => exact F.elect _ _ _ | regroup => exact F.regroup _ _
  | xmget => exact F.xmget _ | xmset => exact F.xmset _ | ld => exact F.ld _ | st => exact F.st _ | ldu => exact F.ldu _
  | stu => exact F.stu _ | ldf => exact F.ldf _ | stf => exact F.stf _ | pref => exact F.pref _
  | cctlInv => exact F.cctlInv _ | cctlWb => exact F.cctlWb _ | cctlLock => exact F.cctlLock _
  | cctlUnlock => exact F.cctlUnlock _ | cctlInvall => exact F.cctlInvall _ | cctlIinv => exact F.cctlIinv _
  | atom => exact F.atom _ | red => exact F.red _ | cas => exact F.cas _ | fence => exact F.fence _
  | waita => exact F.waita _ | waitge => exact F.waitge _ _ _ | cpy => exact F.cpy _ _ | cpg => exact F.cpg _
  | cpbat => exact F.cpbat _ | cpwait => exact F.cpwait _ | etail => exact F.etail _ _ _ | rec_ => exact F.rec_ _ _ _ _ _
  | dense => exact F.dense _ | mma => exact F.mma _ | mmah => exact F.mmah _ | mfence => exact F.mfence _ _
  | mwait => exact F.mwait _ _ | aclr => exact F.aclr _ _ _ | afill => exact F.afill _ _ _ _ _ | adrain => exact F.adrain _
  | amov => exact F.amov _ _ _ _ | nmcall => exact F.nmcall _ | nmclose => exact F.nmclose _ _ _ | embag => exact F.embag _ _
  | bar => exact F.bar _ | cbar => exact F.cbar _ | mbinit => exact F.mbinit _ _ _ | mbarv => exact F.mbarv _ _ _ _
  | mbexp => exact F.mbexp _ _ _ _ _ | mbwait => exact F.mbwait _ _ _ | mbinv => exact F.mbinv _ _ | trap => exact F.trap _ _
  | rte => exact F.rte | bkpt => exact F.bkpt _ | srd => exact F.srd _ _ _ | swr => exact F.swr _ _
  | pmev => exact F.pmev _ _
  | _ => exact noFields rfl

/-- A word with fields is their packing. -/
theorem encode_of_fields {i : Instr} {f : Fields} (h : i.fields = some f) : encode i = some f.pack := by
  unfold encode
  split
  · cases h
  · cases h
  · rw [h]; rfl

/-- A word that is encoded is a header, a pair or a packing of fields. -/
theorem encode_cases {i : Instr} {w : Word64} (h : encode i = some w) :
    (∃ hd, i = .clauseIssue hd ∧ w = hd.pack) ∨ (∃ x y, i = .pairedWord x y ∧ w = packPair x y) ∨
      ∃ f, i.fields = some f ∧ w = f.pack := by
  unfold encode at h
  split at h
  case h_1 hd => exact .inl ⟨hd, rfl, (Option.some.inj h).symm⟩
  case h_2 x y => exact .inr (.inl ⟨x, y, rfl, (Option.some.inj h).symm⟩)
  case h_3 =>
    obtain ⟨f, hf, hw⟩ := Option.map_eq_some_iff.mp h
    exact .inr (.inr ⟨f, hf, hw.symm⟩)

theorem decodeStart_pack {hd : Header} (hok : hd.ok = true) : decodeStart hd.pack = .ok hd := by
  obtain ⟨hhigh, hzero, hunpack⟩ := Header.fields_pack hd
  simp [decodeStart, hhigh, hzero, hunpack, hok]

theorem pairKind_isNone_of_fieldsOk {s : Slot} (h : s.fieldsOk = true) : (pairKind s.pop).isNone = false := by
  unfold Slot.fieldsOk at h
  cases hk : pairKind s.pop with
  | none => simp [hk] at h
  | some _ => rfl

theorem decode_packPair {c : DecodeCtx} {x y : Slot} (hwf : (Instr.pairedWord x y).wf c.toLaunchCtx = true) :
    decode c (packPair x y) = .ok (.pairedWord x y) := by
  obtain ⟨hform, hx, hy⟩ := fields_packPair x y
  obtain ⟨hregs, hfields⟩ := Bool.and_eq_true_iff.mp hwf
  simp only [Instr.fieldsOk, Bool.and_eq_true] at hfields
  obtain ⟨⟨hxok, hyok⟩, hbanks⟩ := hfields
  have hhigh := high_ne_of_form (w := packPair x y) (by rw [hform]; decide)
  simp [decode, hhigh, hform, decodePair, hx, hy, Slot.unpack_pack, pairKind_isNone_of_fieldsOk hxok,
    pairKind_isNone_of_fieldsOk hyok, hxok, hyok, hbanks, hregs]

/-- What a word's place in its clause refuses of an instruction that was read (R76, R87, R89). -/
def placed (c : DecodeCtx) (i : Instr) : Except (BitVec 8) Instr :=
  if i.endsClause && !c.last then .error 0x08
  else if i == .rgn then .error 0x09
  else if (i.longA || i.longB) && c.flagless then .error 0x0B
  else .ok i

/-- The class stands in the high bits of the opcode (R85). -/
theorem class_pack (f : Fields) (h : (opcOf f).toNat < 0x380) : (fld f.pack 58 4).toNat < 14 := by
  rw [← opc_pack f] at h
  rw [← extract_fld f.pack (lo := 52) (len := 10) (k := 6) (by decide), BitVec.extractLsb'_toNat, Nat.shiftRight_eq_div_pow]
  omega

theorem decode_pack {c : DecodeCtx} {i : Instr} {f : Fields} (hwf : i.wf c.toLaunchCtx = true) (hf : i.fields = some f) :
    decode c f.pack = placed c i := by
  obtain ⟨hacc, hparse⟩ := F.all i c.toLaunchCtx f hwf hf
  obtain ⟨hregs, hfields⟩ := Bool.and_eq_true_iff.mp hwf
  obtain ⟨hmap, hlt⟩ := Bool.and_eq_true_iff.mp hacc
  obtain ⟨fm, hfm, hfits⟩ := (Option.any_eq_true _ _).mp hmap
  have hclass := class_pack f (of_decide_eq_true hlt)
  have h14 : fld f.pack 58 4 ≠ 14#4 := fun h => by simp [h] at hclass
  have h15 : fld f.pack 58 4 ≠ 15#4 := fun h => by simp [h] at hclass
  have hread : decodeFields c f.pack = placed c i := by
    simp [decodeFields, placed, zeros_pack, h14, h15, opc_pack, hfm, unpack_pack hfits, hparse, hregs, hfields]
  obtain hform | hform := form_pack f
  · have hhigh := high_ne_of_form (w := f.pack) (by rw [hform]; decide)
    simp [decode, hhigh, hform, hread]
  · have hhigh := high_ne_of_form (w := f.pack) (by rw [hform]; decide)
    simp [decode, hhigh, hform, hread]

theorem placed_ok {c : DecodeCtx} {i : Instr} (hrgn : i ≠ .rgn) (hends : i.endsClause = true → c.last = true)
    (hlong : i.longA = true ∨ i.longB = true → c.flagless = false) : placed c i = .ok i := by
  unfold placed
  rw [if_neg (by simpa using hends), if_neg (by simpa using hrgn), if_neg (by simpa using hlong)]

/-- Settles O52: a header and a pair by their layouts, every other word by its instruction's reading. -/
theorem encodedDecodes : Obligations.EncodedDecodes := by
  intro c i w hwf henc
  obtain ⟨hd, rfl, rfl⟩ | ⟨x, y, rfl, rfl⟩ | ⟨f, hf, rfl⟩ := encode_cases henc
  · obtain ⟨-, hok⟩ := Bool.and_eq_true_iff.mp hwf
    refine ⟨fun h e => ?_, fun h => absurd rfl (h hd), fun h => (nomatch h)⟩
    cases e
    exact decodeStart_pack hok
  · exact ⟨fun _ e => (nomatch e), fun _ _ _ _ => decode_packPair hwf, fun e => (nomatch e)⟩
  · have hdec := decode_pack hwf hf
    refine ⟨fun h e => ?_, fun _ hrgn hends hlong => hdec.trans (placed_ok hrgn hends hlong), fun e => ?_⟩
    · subst e; cases hf
    · subst e; exact hdec

end Sys2Proof.Laws
end

section
/-! SUPPORT. What was read without fault is written again as the same fields: the operand shapes of classes 1 to 5 (R80). -/

namespace Sys2Proof.Laws

/-- Nothing was found wrong in the reading, and the instruction accepts its fields. -/
structure Clean (p : Parsed) : Prop where
  b5 : p.b5 = false
  b6 : p.b6 = false
  ok : ∃ c, p.i.fieldsOk c = true

/-! ## Encoders on what was read -/

/-- The fields that a last source was read from. -/
inductive LastOf (opc : BitVec 10) (d a : BitVec 8) (m : BitVec 12) (g : Guard) : BSrc → Fields → Prop
  | reg (b c : BitVec 8) : LastOf opc d a m g (.reg (bk m) b c (ck m)) (.f opc d a b c m g)
  | imm (i : BitVec 20) : LastOf opc d a m g (.imm i (bk m) (ck m)) (.fm opc d a m i g)

section
variable {opc : BitVec 10} {d a b c : BitVec 8} {m : BitVec 12} {g : Guard} {s : BSrc} {f : Fields}

theorem encBin_of {x y : Bool} {d' a' m8 : BitVec 8} (hs : LastOf opc d a m g s f) (h5 : s.b5 = false) (h6 : s.b6 = false)
    (hd : d' = d) (ha : a' = a) (hx : x = dk m) (hy : y = ak m) (hm : m8 = m.extractLsb' 0 8) :
    encBin opc d' a' x y s.src m8 g = f := by
  subst hd ha hx hy
  have kinds : b1 (dk m) ++ b1 (ak m) = m.extractLsb' 10 2 := join (b1_mbit m 11) (b1_mbit m 10)
  cases hs with
  | reg n c =>
    simp only [BSrc.b6, Bool.or_eq_false_iff, bne_eq_false_iff_eq] at h6
    obtain ⟨rfl, hck⟩ := h6
    have hm : b1 (dk m) ++ b1 (ak m) ++ b1 (bk m) ++ 0#1 ++ m8 = m :=
      eq_of_layout (join (join (join kinds (b1_mbit m 9)) (zero_ck hck)) hm)
    simp only [encBin, BSrc.src, isScalar_kreg, num_kreg h5, hm]
  | imm i =>
    obtain ⟨hbk, hck⟩ := Bool.or_eq_false_iff.mp h6
    have hm : b1 (dk m) ++ b1 (ak m) ++ 0#2 ++ m8 = m :=
      eq_of_layout (join (join kinds (zero_join (zero_bk hbk) (zero_ck hck))) hm)
    simp only [encBin, BSrc.src, hm]

theorem encTri_of {m8 : BitVec 8} (h5 : kbad4 d a b c m = false) (hm : m8 = m.extractLsb' 0 8) :
    encTri opc (kreg (dk m) d) (kreg (ak m) a) (kreg (bk m) b) (kreg (ck m) c) m8 g = .f opc d a b c m g := by
  simp only [kbad4, Bool.or_eq_false_iff] at h5
  obtain ⟨⟨⟨hd, ha⟩, hb⟩, hc⟩ := h5
  have hm : b1 (dk m) ++ b1 (ak m) ++ b1 (bk m) ++ b1 (ck m) ++ m8 = m :=
    eq_of_layout (join (join (join (join (b1_mbit m 11) (b1_mbit m 10)) (b1_mbit m 9)) (b1_mbit m 8)) hm)
  simp only [encTri, isScalar_kreg, num_kreg hd, num_kreg ha, num_kreg hb, num_kreg hc, hm]

theorem encUn_of {m8 : BitVec 8} (h5 : (kbad (dk m) d || kbad (ak m) a) = false) (h6 : unused2 b c m = false)
    (hm : m8 = m.extractLsb' 0 8) : encUn opc (kreg (dk m) d) (kreg (ak m) a) m8 g = .f opc d a b c m g := by
  simp only [unused2, Bool.or_eq_false_iff, bne_eq_false_iff_eq] at h5 h6
  obtain ⟨⟨⟨rfl, rfl⟩, hbk⟩, hck⟩ := h6
  have hm : b1 (dk m) ++ b1 (ak m) ++ 0#2 ++ m8 = m :=
    eq_of_layout (join (join (join (b1_mbit m 11) (b1_mbit m 10)) (zero_join (zero_bk hbk) (zero_ck hck))) hm)
  simp only [encUn, isScalar_kreg, num_kreg h5.1, num_kreg h5.2, hm]

/-! ## Two sources, the last a register or an immediate -/

theorem encIntBin_of {k} (hs : LastOf opc d a m g s f) (h : Clean (mkIntBin k d a m s g)) :
    encIntBin opc ⟨intTy m, mbit m 5, kreg (dk m) d, kreg (ak m) a, s.src, g⟩ = f := by
  obtain ⟨h5, h6, -⟩ := h
  simp only [mkIntBin, Bool.or_eq_false_iff] at h5 h6
  obtain ⟨⟨hd, ha⟩, hs5⟩ := h5
  exact encBin_of hs hs5 h6.1 (num_kreg hd) (num_kreg ha) (isScalar_kreg ..) (isScalar_kreg ..)
    (join (join (join (b1_mbit m 7) (b1_mbit m 6)) (b1_mbit m 5)) (zero_run h6.2))

theorem encLogBin_of {k} (hs : LastOf opc d a m g s f) (h : Clean (mkLogBin k d a m s g)) :
    encLogBin opc ⟨mbit m 7, kreg (dk m) d, kreg (ak m) a, s.src, g⟩ = f := by
  obtain ⟨h5, h6, -⟩ := h
  simp only [mkLogBin, Bool.or_eq_false_iff] at h5 h6
  obtain ⟨⟨hd, ha⟩, hs5⟩ := h5
  exact encBin_of hs hs5 h6.1 (num_kreg hd) (num_kreg ha) (isScalar_kreg ..) (isScalar_kreg ..)
    (join (b1_mbit m 7) (zero_run h6.2))

/-- The modifier bits of class 3: format, rounding, FTZ and a negated first source (R146). -/
theorem fp_head (m : BitVec 12) (hfmt : m.extractLsb' 6 2 ≠ 3#2) :
    (pfmt2 (m.extractLsb' 6 2)).enc ++ (rnd2 (m.extractLsb' 4 2)).enc ++ b1 (mbit m 3) ++ b1 (mbit m 2) = m.extractLsb' 2 6 :=
  join (join (join (enc_pfmt2 hfmt) (enc_rnd2 _)) (b1_mbit m 3)) (b1_mbit m 2)

theorem encFBin_of {k} (hs : LastOf opc d a m g s f) (h : Clean (mkFBin k d a m s g)) :
    encFBin opc ⟨pfmt2 (m.extractLsb' 6 2), rnd2 (m.extractLsb' 4 2), mbit m 3, mbit m 2, mbit m 1, kreg (dk m) d, kreg (ak m) a,
      s.src, g⟩ = f := by
  obtain ⟨h5, h6, -⟩ := h
  simp only [mkFBin, Bool.or_eq_false_iff, beq_eq_false_iff_ne] at h5 h6
  obtain ⟨⟨hd, ha⟩, hs5⟩ := h5
  obtain ⟨⟨hs6, hzero⟩, hfmt⟩ := h6
  exact encBin_of hs hs5 hs6 (num_kreg hd) (num_kreg ha) (isScalar_kreg ..) (isScalar_kreg ..)
    (join (join (fp_head m hfmt) (b1_mbit m 1)) (zero_bit hzero))

theorem encFSet_of {k} (hs : LastOf opc d a m g s f) (h : Clean (mkFSet k d a m s g)) :
    encFSet opc ⟨m.extractLsb' 0 3, mbit m 3, mbit m 4, d.setWidth 3, kreg (ak m) a, s.src, g⟩ = f := by
  obtain ⟨h5, h6, -⟩ := h
  simp only [mkFSet, Bool.or_eq_false_iff] at h5 h6
  obtain ⟨⟨hd, ha⟩, hs5⟩ := h5
  obtain ⟨⟨hs6, hdk⟩, hzero⟩ := h6
  exact encBin_of hs hs5 hs6 (e3_of_pr8 hd) (num_kreg ha) hdk.symm (isScalar_kreg ..)
    (join (join (join (zero_run hzero) (b1_mbit m 4)) (b1_mbit m 3)) rfl)

theorem encDBin_of {k} (hs : LastOf opc d a m g s f) (h : Clean (mkDBin k d a m s g)) :
    encDBin opc ⟨rnd2 (m.extractLsb' 4 2), mbit m 2, mbit m 1, kreg (dk m) d, kreg (ak m) a, s.src, g⟩ = f := by
  obtain ⟨h5, h6, -⟩ := h
  simp only [mkDBin, Bool.or_eq_false_iff] at h5 h6
  obtain ⟨⟨hd, ha⟩, hs5⟩ := h5
  obtain ⟨⟨⟨hs6, h0⟩, h3⟩, hzero⟩ := h6
  exact encBin_of hs hs5 hs6 (num_kreg hd) (num_kreg ha) (isScalar_kreg ..) (isScalar_kreg ..)
    (join (join (join (join (join (zero_run hzero) (enc_rnd2 _)) (zero_bit h3)) (b1_mbit m 2)) (b1_mbit m 1)) (zero_bit h0))

/-! ## Registers only -/

theorem encIntTri_of {k} (h : Clean (mkIntTri k d a b c m g)) :
    encIntTri opc ⟨intTy m, mbit m 5, kreg (dk m) d, kreg (ak m) a, kreg (bk m) b, kreg (ck m) c, g⟩ = .f opc d a b c m g :=
  encTri_of h.b5 (join (join (join (b1_mbit m 7) (b1_mbit m 6)) (b1_mbit m 5)) (zero_run h.b6))

theorem encIntUn_of {k} (h : Clean (mkIntUn k d a b c m g)) :
    encIntUn opc ⟨mbit m 7, mbit m 5, kreg (dk m) d, kreg (ak m) a, g⟩ = .f opc d a b c m g := by
  obtain ⟨h6, hzero⟩ := Bool.or_eq_false_iff.mp h.b6
  obtain ⟨hunused, hm6⟩ := Bool.or_eq_false_iff.mp h6
  exact encUn_of h.b5 hunused (join (join (join (b1_mbit m 7) (zero_bit hm6)) (b1_mbit m 5)) (zero_run hzero))

theorem encLogUn_of {k} (h : Clean (mkLogUn k d a b c m g)) :
    encLogUn opc ⟨mbit m 7, kreg (dk m) d, kreg (ak m) a, g⟩ = .f opc d a b c m g := by
  obtain ⟨hunused, hzero⟩ := Bool.or_eq_false_iff.mp h.b6
  exact encUn_of h.b5 hunused (join (b1_mbit m 7) (zero_run hzero))

theorem encFUn_of {k} (h : Clean (mkFUn k d a b c m g)) :
    encFUn opc ⟨pfmt2 (m.extractLsb' 6 2), rnd2 (m.extractLsb' 4 2), mbit m 3, mbit m 2, kreg (dk m) d, kreg (ak m) a, g⟩ =
      .f opc d a b c m g := by
  obtain ⟨h6, hfmt⟩ := Bool.or_eq_false_iff.mp h.b6
  obtain ⟨hunused, hzero⟩ := Bool.or_eq_false_iff.mp h6
  exact encUn_of h.b5 hunused (join (fp_head m (beq_eq_false_iff_ne.mp hfmt)) (zero_run hzero))

theorem encDUn_of {k} (h : Clean (mkDUn k d a b c m g)) :
    encDUn opc ⟨rnd2 (m.extractLsb' 4 2), mbit m 2, kreg (dk m) d, kreg (ak m) a, g⟩ = .f opc d a b c m g := by
  obtain ⟨h6, hhigh⟩ := Bool.or_eq_false_iff.mp h.b6
  obtain ⟨h6, h3⟩ := Bool.or_eq_false_iff.mp h6
  obtain ⟨hunused, hlow⟩ := Bool.or_eq_false_iff.mp h6
  exact encUn_of h.b5 hunused (join (join (join (join (zero_run hhigh) (enc_rnd2 _)) (zero_bit h3)) (b1_mbit m 2))
    (zero_run hlow))

theorem encPredBin_of {k} (h : Clean (mkPredBin k d a b c m g)) :
    encPredBin opc ⟨mbit m 1, mbit m 0, d.setWidth 3, a.setWidth 3, b.setWidth 3, g⟩ = .f opc d a b c m g := by
  obtain ⟨h5, h6, -⟩ := h
  simp only [mkPredBin, Bool.or_eq_false_iff, bne_eq_false_iff_eq] at h5 h6
  obtain ⟨⟨hd, ha⟩, hb⟩ := h5
  obtain ⟨rfl, hzero⟩ := h6
  have hm : 0#10 ++ b1 (mbit m 1) ++ b1 (mbit m 0) = m := eq_of_layout (join (join (zero_run hzero) (b1_mbit m 1)) (b1_mbit m 0))
  simp only [encPredBin, e3_of_pr8 hd, e3_of_pr8 ha, e3_of_pr8 hb, hm]

theorem encCvt_of {k} (h : Clean (mkCvt k d a b c m g)) :
    encCvt opc ⟨m.extractLsb' 4 4, m.extractLsb' 0 4, rnd2 (c.extractLsb' 0 2), c.getLsbD 2, kreg (dk m) d, kreg (ak m) a, g⟩ =
      .f opc d a b c m g := by
  obtain ⟨h5, h6, -⟩ := h
  simp only [mkCvt, Bool.or_eq_false_iff, bne_eq_false_iff_eq] at h5 h6
  obtain ⟨⟨⟨rfl, hbk⟩, hck⟩, hc⟩ := h6
  have hm : b1 (dk m) ++ b1 (ak m) ++ 0#2 ++ m.extractLsb' 4 4 ++ m.extractLsb' 0 4 = m := eq_of_layout
    (join (join (join (join (b1_mbit m 11) (b1_mbit m 10)) (zero_join (zero_bk hbk) (zero_ck hck))) rfl) rfl)
  have hc : 0#5 ++ b1 (c.getLsbD 2) ++ (rnd2 (c.extractLsb' 0 2)).enc = c :=
    eq_of_layout (join (join hc.symm (b1_getLsbD c 2)) (enc_rnd2 _))
  simp only [encCvt, isScalar_kreg, num_kreg h5.1, num_kreg h5.2, hm, hc]

end

/-! ## By opcode -/

/-- What `parseBin` reads without fault has the fields it was read from. -/
theorem parseBin_fields {n : Nat} {d a : BitVec 8} {m : BitVec 12} {g : Guard} {s : BSrc} {f : Fields} {p : Parsed}
    (hs : LastOf (BitVec.ofNat 10 n) d a m g s f) (h : parseBin n d a m s g = some p) (hp : Clean p) : p.i.fields = some f := by
  unfold parseBin at h
  split at h <;> cases h
  all_goals refine congrArg some ?_
  case h_1 | h_2 | h_3 | h_4 | h_5 | h_6 | h_7 | h_8 => exact encIntBin_of hs hp
  case h_9 => -- ISET
    obtain ⟨h5, h6, -⟩ := hp
    simp only [Bool.or_eq_false_iff] at h5 h6
    obtain ⟨⟨hd, ha⟩, hs5⟩ := h5
    obtain ⟨⟨⟨hs6, hdk⟩, hm5⟩, hzero⟩ := h6
    exact encBin_of hs hs5 hs6 (e3_of_pr8 hd) (num_kreg ha) hdk.symm (isScalar_kreg ..)
      (join (join (join (b1_mbit m 7) (b1_mbit m 6)) (zero_join (zero_bit hm5) (zero_run hzero))) rfl)
  case h_10 => -- LEA
    obtain ⟨h5, h6, -⟩ := hp
    simp only [Bool.or_eq_false_iff] at h5 h6
    obtain ⟨⟨hd, ha⟩, hs5⟩ := h5
    exact encBin_of hs hs5 h6.1 (num_kreg hd) (num_kreg ha) (isScalar_kreg ..) (isScalar_kreg ..)
      (join (join (join (b1_mbit m 7) (b1_mbit m 6)) (zero_bit h6.2)) rfl)
  case h_11 | h_12 | h_13 | h_14 | h_15 | h_16 | h_17 => exact encLogBin_of hs hp
  case h_18 => -- BFE
    obtain ⟨h5, h6, -⟩ := hp
    simp only [Bool.or_eq_false_iff] at h5 h6
    obtain ⟨⟨hd, ha⟩, hs5⟩ := h5
    exact encBin_of hs hs5 h6.1 (num_kreg hd) (num_kreg ha) (isScalar_kreg ..) (isScalar_kreg ..)
      (join (join (b1_mbit m 7) (b1_mbit m 6)) (zero_run h6.2))
  case h_19 | h_20 | h_21 | h_22 | h_25 => exact encFBin_of hs hp
  case h_23 | h_30 => exact encFSet_of hs hp
  case h_24 => -- FSCALE
    obtain ⟨h5, h6, -⟩ := hp
    simp only [Bool.or_eq_false_iff] at h5 h6
    obtain ⟨⟨hd, ha⟩, hs5⟩ := h5
    obtain ⟨⟨hs6, hlow⟩, hhigh⟩ := h6
    exact encBin_of hs hs5 hs6 (num_kreg hd) (num_kreg ha) (isScalar_kreg ..) (isScalar_kreg ..)
      (join (join (join (join (zero_run hhigh) (enc_rnd2 _)) (b1_mbit m 3)) (b1_mbit m 2)) (zero_run hlow))
  all_goals exact encDBin_of hs hp

end Sys2Proof.Laws
end

section
/-! SUPPORT. What was read without fault is written again as the same fields: classes 0 and 6, and classes 1 to 5 without an
immediate (R78 to R80, R115). -/

namespace Sys2Proof.Laws

variable {n : Nat} {d a b c : BitVec 8} {m : BitVec 12} {g : Guard} {p : Parsed}

/-- What `parseF15` reads without fault has the fields it was read from. -/
theorem parseF15_fields (h : parseF15 n d a b c m g = some p) (hp : Clean p) :
    p.i.fields = some (.f (BitVec.ofNat 10 n) d a b c m g) := by
  unfold parseF15 at h
  split at h
  case h_23 => -- PMOV
    dsimp only at h
    split at h <;> cases h
    all_goals
      obtain ⟨h5, h6, -⟩ := hp
      simp only [Bool.or_eq_false_iff, bne_eq_false_iff_eq] at h5 h6
      refine congrArg some ?_
    case h_1 he =>
      have hop : m.extractLsb' 2 2 = 0#2 := eq_ofNat_of_toNat he
      obtain ⟨⟨⟨rfl, rfl⟩, hhigh⟩, h0⟩ := h6
      have hm : 0#10 ++ b1 (mbit m 1) ++ 0#1 = m :=
        eq_of_layout (join (join (zero_join (zero_run hhigh) hop.symm) (b1_mbit m 1)) (zero_bit h0))
      rw [e3_of_pr8 h5.1, e3_of_pr8 h5.2, hm]; rfl
    case h_2 he =>
      have hop : m.extractLsb' 2 2 = 1#2 := eq_ofNat_of_toNat he
      obtain ⟨⟨⟨⟨⟨rfl, rfl⟩, hhigh⟩, h0⟩, h1⟩, rfl⟩ := h6
      have hm : 0#8 ++ 1#2 ++ 0#2 = m :=
        eq_of_layout (join (join (zero_run hhigh) hop.symm) (zero_join (zero_bit h1) (zero_bit h0)))
      rw [← hm]; rfl
    case h_3 he =>
      have hop : m.extractLsb' 2 2 = 2#2 := eq_ofNat_of_toNat he
      obtain ⟨⟨⟨⟨⟨rfl, rfl⟩, hhigh⟩, h0⟩, h1⟩, rfl⟩ := h6
      have hm : 0#8 ++ 2#2 ++ 0#2 = m :=
        eq_of_layout (join (join (zero_run hhigh) hop.symm) (zero_join (zero_bit h1) (zero_bit h0)))
      rw [← hm]; rfl
    case h_4 => cases h6
  all_goals cases h
  all_goals refine congrArg some ?_
  case h_1 | h_2 | h_3 | h_6 => exact encIntTri_of hp
  case h_4 | h_5 => exact encIntUn_of hp
  case h_7 => -- IDOT4
    obtain ⟨hhigh, hmid⟩ := Bool.or_eq_false_iff.mp hp.b6
    exact encTri_of hp.b5 (join (join (join (join (zero_run hhigh) (b1_mbit m 5)) (zero_run hmid)) (b1_mbit m 1)) (b1_mbit m 0))
  case h_8 => -- SEL
    obtain ⟨h5, h6, -⟩ := hp
    simp only [Bool.or_eq_false_iff] at h5 h6
    obtain ⟨⟨⟨hd, ha⟩, hb⟩, hc⟩ := h5
    have hm : b1 (dk m) ++ b1 (ak m) ++ b1 (bk m) ++ 0#1 ++ b1 (mbit m 7) ++ 0#7 = m := eq_of_layout
      (join (join (join (join (join (b1_mbit m 11) (b1_mbit m 10)) (b1_mbit m 9)) (zero_ck h6.1)) (b1_mbit m 7)) (zero_run h6.2))
    simp only [isScalar_kreg, num_kreg hd, num_kreg ha, num_kreg hb, e3_of_pr8 hc, hm]; rfl
  case h_9 | h_10 | h_14 | h_15 | h_16 | h_17 => exact encLogUn_of hp
  case h_11 => exact encTri_of hp.b5 rfl
  case h_12 => exact encTri_of hp.b5 (join (zero_run hp.b6) (b1_mbit m 0))
  case h_13 => exact encTri_of hp.b5 (join (b1_mbit m 7) (zero_run hp.b6))
  case h_18 => exact encTri_of hp.b5 (zero_run hp.b6)
  case h_19 | h_20 | h_21 => exact encPredBin_of hp
  case h_22 => -- PNOT
    obtain ⟨h5, h6, -⟩ := hp
    simp only [Bool.or_eq_false_iff, bne_eq_false_iff_eq] at h5 h6
    obtain ⟨⟨⟨rfl, rfl⟩, h0⟩, hhigh⟩ := h6
    have hm : 0#10 ++ b1 (mbit m 1) ++ 0#1 = m := eq_of_layout (join (join (zero_run hhigh) (b1_mbit m 1)) (zero_bit h0))
    simp only [e3_of_pr8 h5.1, e3_of_pr8 h5.2, hm]; rfl
  case h_24 => -- FFMA
    exact encTri_of hp.b5 (join (join (fp_head m (beq_eq_false_iff_ne.mp hp.b6)) (b1_mbit m 1)) (b1_mbit m 0))
  case h_25 | h_26 | h_27 | h_28 | h_29 | h_30 | h_31 | h_32 | h_33 | h_34 => exact encFUn_of hp
  case h_35 => -- DFMA
    obtain ⟨h3, hhigh⟩ := Bool.or_eq_false_iff.mp hp.b6
    exact encTri_of hp.b5
      (join (join (join (join (join (zero_run hhigh) (enc_rnd2 _)) (zero_bit h3)) (b1_mbit m 2)) (b1_mbit m 1)) (b1_mbit m 0))
  case h_36 | h_37 | h_38 | h_39 | h_40 => exact encDUn_of hp
  case h_41 | h_42 => exact encCvt_of hp
  case h_43 => -- QPACK
    obtain ⟨h5, h6, -⟩ := hp
    simp only [Bool.or_eq_false_iff, bne_eq_false_iff_eq] at h6
    obtain ⟨⟨⟨⟨rfl, hdk⟩, hak⟩, hck⟩, hlow⟩ := h6
    have hm : 0#2 ++ b1 (bk m) ++ 0#1 ++ m.extractLsb' 4 4 ++ (rnd2 (m.extractLsb' 2 2)).enc ++ 0#2 = m := eq_of_layout
      (join (join (join (join (join (zero_join (zero_dk hdk) (zero_ak hak)) (b1_mbit m 9)) (zero_ck hck)) rfl) (enc_rnd2 _))
        (zero_run hlow))
    simp only [isScalar_kreg, num_kreg h5, hm]; rfl
  case h_44 => -- QUNPK
    obtain ⟨h5, h6, _, hok⟩ := hp
    simp only [Bool.or_eq_false_iff, bne_eq_false_iff_eq] at h6
    obtain ⟨⟨⟨⟨rfl, hdk⟩, hak⟩, hck⟩, hlow⟩ := h6
    have hbk : bk m = false := by simpa [Instr.fieldsOk] using (Bool.and_eq_true_iff.mp hok).2
    have hm : 0#4 ++ m.extractLsb' 4 4 ++ 0#4 = m := eq_of_layout
      (join (join (zero_join (zero_join (zero_join (zero_dk hdk) (zero_ak hak)) (zero_bk hbk)) (zero_ck hck)) rfl) (zero_run hlow))
    simp only [num_kreg h5, hm]; rfl
  case h_45 => -- QSCALE
    obtain ⟨hunused, hlow⟩ := Bool.or_eq_false_iff.mp hp.b6
    exact encUn_of hp.b5 hunused (join rfl (zero_run hlow))
  case h_46 => -- AMAX
    obtain ⟨h5, h6, -⟩ := hp
    simp only [Bool.or_eq_false_iff, bne_eq_false_iff_eq] at h5 h6
    obtain ⟨⟨hd, ha⟩, hb⟩ := h5
    obtain ⟨⟨rfl, hck⟩, hlow⟩ := h6
    have hm : b1 (dk m) ++ b1 (ak m) ++ b1 (bk m) ++ 0#1 ++ m.extractLsb' 4 4 ++ 0#4 = m := eq_of_layout
      (join (join (join (join (join (b1_mbit m 11) (b1_mbit m 10)) (b1_mbit m 9)) (zero_ck hck)) rfl) (zero_run hlow))
    simp only [isScalar_kreg, num_kreg hd, num_kreg ha, num_kreg hb, hm]; rfl

/-- What `parseF0` reads without fault has the fields it was read from. -/
theorem parseF0_fields (h : parseF0 n d a b c m g = some p) (hp : Clean p) :
    p.i.fields = some (.f (BitVec.ofNat 10 n) d a b c m g) := by
  unfold parseF0 at h
  dsimp only at h
  split at h <;> cases h
  all_goals
    obtain ⟨h5, h6, -⟩ := hp
    simp only [Bool.or_eq_false_iff, bne_eq_false_iff_eq, not_isAlways_eq_false] at h5 h6
    refine congrArg some ?_
  case h_2 => -- CALLX
    obtain ⟨⟨⟨rfl, rfl⟩, rfl⟩, hhigh⟩ := h6
    have hm : 0#11 ++ b1 (mbit m 0) = m := eq_of_layout (join (zero_run hhigh) (b1_mbit m 0))
    simp only [isScalar_kreg, num_kreg h5, hm]; rfl
  case h_1 | h_5 => -- NOP, EXIT
    obtain ⟨⟨⟨⟨rfl, rfl⟩, rfl⟩, rfl⟩, rfl⟩ := h6
    rfl
  all_goals
    obtain ⟨⟨⟨⟨⟨rfl, rfl⟩, rfl⟩, rfl⟩, rfl⟩, rfl⟩ := h6
    rfl

/-- Class 6's modifier bits, written from what they were read as (R115). -/
theorem encLane_of {opc : BitVec 10} {G k e : Bool} {pr : BitVec 3} {op : BitVec 4} (hG : G = mbit m 11) (hk : k = mbit m 10)
    (he : e = mbit m 9) (hzero : (!mzero m 7 2) = false) (hpr : pr = m.extractLsb' 4 3) (hop : op = m.extractLsb' 0 4) :
    encLane opc d a b G k e pr op g = .f opc d a b 0 m g := by
  subst hG hk he
  have hm : b1 (mbit m 11) ++ b1 (mbit m 10) ++ b1 (mbit m 9) ++ 0#2 ++ pr ++ op = m := eq_of_layout
    (join (join (join (join (join (b1_mbit m 11) (b1_mbit m 10)) (b1_mbit m 9)) (zero_run hzero)) hpr) hop)
  simp only [encLane, hm]

/-- What `parseF6` reads without fault has the fields it was read from. -/
theorem parseF6_fields (h : parseF6 n d a b c m g = some p) (hp : Clean p) :
    p.i.fields = some (.f (BitVec.ofNat 10 n) d a b c m g) := by
  unfold parseF6 at h
  dsimp only at h
  split at h <;> cases h
  all_goals
    obtain ⟨h5, h6, -⟩ := hp
    simp only [Bool.or_eq_false_iff, bne_eq_false_iff_eq, not_isAlways_eq_false] at h5 h6
    refine congrArg some ?_
  case h_1 => -- VOTE
    obtain ⟨⟨⟨⟨⟨⟨rfl, hzero⟩, hpr⟩, hdk⟩, hex⟩, rfl⟩, hop⟩ := h6
    rw [e3_of_pr8 h5.1, e3_of_pr8 h5.2]
    exact encLane_of rfl hdk.symm hex.symm hzero (zero_run hpr) (setWidth_setWidth_of_lt hop)
  case h_2 => -- BALLOT
    obtain ⟨⟨⟨⟨⟨rfl, hzero⟩, hpr⟩, hex⟩, hop⟩, rfl⟩ := h6
    rw [num_kreg h5.1, e3_of_pr8 h5.2]
    exact encLane_of rfl (isScalar_kreg ..) hex.symm hzero (zero_run hpr) (zero_run hop)
  case h_3 => -- SHFL
    obtain ⟨⟨⟨rfl, hzero⟩, hdk⟩, hex⟩ := h6
    exact encLane_of rfl hdk.symm hex.symm hzero rfl rfl
  case h_4 | h_5 => -- REDUX, SCAN
    obtain ⟨⟨⟨⟨rfl, hzero⟩, hpr⟩, hdk⟩, rfl⟩ := h6
    exact encLane_of rfl hdk.symm rfl hzero (zero_run hpr) rfl
  case h_6 => -- MATCH
    obtain ⟨⟨⟨⟨⟨rfl, hzero⟩, hdk⟩, hex⟩, rfl⟩, hop⟩ := h6
    exact encLane_of rfl hdk.symm hex.symm hzero rfl (flag_of_lt_two hop)
  case h_8 => -- REGROUP
    obtain ⟨⟨⟨rfl, rfl⟩, rfl⟩, rfl⟩ := h6
    rw [e6_of_sc64 h5]; rfl
  case h_7 => -- ELECT
    obtain ⟨⟨⟨⟨⟨⟨⟨rfl, hzero⟩, hpr⟩, hdk⟩, hex⟩, hop⟩, rfl⟩, rfl⟩ := h6
    rw [e3_of_pr8 h5]
    exact encLane_of rfl hdk.symm hex.symm hzero (zero_run hpr) (zero_run hop)
  all_goals
    obtain ⟨⟨⟨⟨rfl, rfl⟩, rfl⟩, rfl⟩, rfl⟩ := h6
    rw [e6_of_sc64 h5]; rfl

end Sys2Proof.Laws
end

section
/-! SUPPORT. What was read without fault is written again as the same fields: classes 7 and 8, and the I32 layout (R78, R79,
R177, R275). -/

namespace Sys2Proof.Laws

variable {n : Nat} {d a b c : BitVec 8} {m : BitVec 12} {g : Guard} {p : Parsed}

/-! ## Class 7 -/

theorem enc_space2 {x : BitVec 2} (h : (x == 3) = false) : (space3 (x.setWidth 3)).enc.setWidth 2 = x := by revert x; decide

/-- Class 7's modifier bits, written from what they were read as (R178). -/
theorem encMem_of {opc : BitVec 10} {base : BitVec 6} {form : MemForm} {pr : BitVec 3}
    (h : (decide (5 ≤ (m.extractLsb' 9 3).toNat) || m.extractLsb' 6 3 == 7 || (ord4 (m.extractLsb' 2 4)).isNone) = false) :
    encMem opc ⟨space3 (m.extractLsb' 9 3), wid3 (m.extractLsb' 6 3), orElse' (ord4 (m.extractLsb' 2 4)) .relaxed,
      pol2 (m.extractLsb' 0 2), d, base, b, form, pr, g⟩ = enc7 opc d base b form pr m g := by
  simp only [Bool.or_eq_false_iff, beq_eq_false_iff_ne] at h
  obtain ⟨⟨hspace, hwid⟩, hord⟩ := h
  exact congrArg (enc7 opc d base b form pr · g)
    (eq_of_layout (join (join (join (enc_space3 hspace) (enc_wid3 hwid)) (enc_ord4 hord)) (enc_pol2 _)))

/-- CCTL's modifier bits hold the space alone (R184). -/
theorem cctlM_of (hspace : decide (5 ≤ (m.extractLsb' 9 3).toNat) = false) (hwid : m.extractLsb' 6 3 = 0) (hord : m.extractLsb' 2 4 = 0)
    (hpol : m.extractLsb' 0 2 = 0) : (space3 (m.extractLsb' 9 3)).enc ++ 0#9 = m :=
  eq_of_layout (join (enc_space3 hspace) (zero_join (zero_join hwid.symm hord.symm) hpol.symm))

/-- What `parse7` reads without fault has the fields it was read from; CCTL is read of F words only. -/
theorem parse7_fields {form : MemForm} {pr : BitVec 3} (h : parse7 n d a b form pr m g = some p) (hp : Clean p)
    (hcctl : n = 0x1C7 → ∃ ix, form = .f ix) :
    p.i.fields = some (enc7 (BitVec.ofNat 10 n) d (a.setWidth 6) b form pr m g) ∧ sc64 a = false := by
  unfold parse7 at h
  dsimp only at h
  split at h
  case h_8 => -- CCTL
    obtain ⟨ix, rfl⟩ := hcctl rfl
    split at h <;> cases h
    all_goals
      obtain ⟨h5, h6, -⟩ := hp
      simp only [Bool.or_eq_false_iff, bne_eq_false_iff_eq, not_isAlways_eq_false] at h5 h6
      refine ⟨congrArg some ?_, h5⟩
    case h_7 => cases h6
    case h_5 he =>
      obtain rfl : d = 4#8 := BitVec.eq_of_toNat_eq he
      obtain ⟨⟨⟨⟨⟨⟨⟨⟨hspace, hwid⟩, hord⟩, hpol⟩, rfl⟩, rfl⟩, hix⟩, rfl⟩, rfl⟩ := h6
      obtain rfl : ix = false := hix
      rw [cctlM_of hspace hwid hord hpol]; rfl
    case h_1 he | h_2 he | h_3 he | h_4 he | h_6 he =>
      obtain rfl := eq_ofNat_of_toNat he
      obtain ⟨⟨⟨hspace, hwid⟩, hord⟩, hpol⟩ := h6
      rw [encCctl, cctlM_of hspace hwid hord hpol]; rfl
  all_goals
    cases h
    all_goals obtain ⟨h5, h6, -⟩ := hp
  case h_7 => -- PREF
    simp only [Bool.or_eq_false_iff, bne_eq_false_iff_eq] at h5 h6
    obtain ⟨⟨⟨⟨hspace, hwid⟩, hord⟩, rfl⟩, hd⟩ := h6
    have hm : (space3 (m.extractLsb' 9 3)).enc ++ 0#7 ++ (pol2 (m.extractLsb' 0 2)).enc = m :=
      eq_of_layout (join (join (enc_space3 hspace) (zero_join hwid.symm hord.symm)) (enc_pol2 _))
    exact ⟨congrArg some (by rw [hm, flag_of_lt_two hd]; rfl), h5⟩
  case h_3 | h_4 => exact ⟨congrArg some (encMem_of h6), (Bool.or_eq_false_iff.mp h5).1⟩
  all_goals exact ⟨congrArg some (encMem_of h6), h5⟩

/-- An F word of class 7 holds the predicate and IX in its C field (R177). -/
theorem enc7_f {opc : BitVec 10} (ha : sc64 a = false) (h7 : c.getLsbD 7 = false) (hmid : c.extractLsb' 1 3 = 0#3) :
    enc7 opc d (a.setWidth 6) b (.f (c.getLsbD 0)) (c.extractLsb' 4 3) m g = .f opc d a b c m g := by
  have hc : 0#1 ++ c.extractLsb' 4 3 ++ 0#3 ++ b1 (c.getLsbD 0) = c :=
    eq_of_layout (join (join (join (zero_getLsbD h7) rfl) hmid.symm) (b1_getLsbD c 0))
  simp only [enc7, e6_of_sc64 ha, hc]

/-- An FI word of class 7 holds the index and the displacement in its I20 field (R177). -/
theorem enc7_fm {opc : BitVec 10} {i : BitVec 20} (ha : sc64 a = false) :
    enc7 opc d (a.setWidth 6) (i.extractLsb' 12 8) (.fi (i.extractLsb' 0 12)) 0 m g = .fm opc d a m i g := by
  have hi : i.extractLsb' 12 8 ++ i.extractLsb' 0 12 = i := eq_of_layout (join rfl rfl)
  simp only [enc7, e6_of_sc64 ha, hi]

/-! ## Class 8 -/

/-- Class 8's operands, written from what they were read as (R275). -/
theorem encAtom_of {opc : BitVec 10} (ha : sc64 a = false)
    (h : (m.extractLsb' 10 2 == 3 || (sem5 (m.extractLsb' 4 2) (m.extractLsb' 6 3)).isNone) = false) :
    encAtom opc ⟨space3 ((m.extractLsb' 10 2).setWidth 3), mbit m 9, orElse' (sem5 (m.extractLsb' 4 2) (m.extractLsb' 6 3)) .relaxed,
      m.extractLsb' 0 4, d, a.setWidth 6, b, c, g⟩ = .f opc d a b c m g := by
  obtain ⟨hspace, hsem⟩ := Bool.or_eq_false_iff.mp h
  have hm : (space3 ((m.extractLsb' 10 2).setWidth 3)).enc.setWidth 2 ++ b1 (mbit m 9) ++
      (orElse' (sem5 (m.extractLsb' 4 2) (m.extractLsb' 6 3)) .relaxed).enc ++ m.extractLsb' 0 4 = m := eq_of_layout
    (join (join (join (enc_space2 hspace) (b1_mbit m 9)) ((enc_sem5 hsem).trans (join rfl rfl))) rfl)
  simp only [encAtom, e6_of_sc64 ha, hm]

theorem enc_sem5_acq {x : BitVec 2} {y : BitVec 3} {sc : Scope} (h : sem5 x y = some (.acq sc)) : sc.enc = y ∧ 1#2 = x := by
  have hjoin : sc.enc ++ 1#2 = y ++ x := by simpa [h, orElse', Sem.enc] using enc_sem5 (x := x) (y := y) (by rw [h]; rfl)
  have hy := congrArg (BitVec.extractLsb' 2 3) hjoin
  have hx := congrArg (BitVec.extractLsb' 0 2) hjoin
  simp only [BitVec.extractLsb'_append_eq_left] at hy
  simp only [BitVec.extractLsb'_append_eq_right] at hx
  exact ⟨hy, hx⟩

/-- What `parseF8` reads without fault has the fields it was read from. -/
theorem parseF8_fields (h : parseF8 n d a b c m g = some p) (hp : Clean p) :
    p.i.fields = some (.f (BitVec.ofNat 10 n) d a b c m g) := by
  unfold parseF8 at h
  dsimp only at h
  split at h <;> cases h
  case h_6 => -- WAITGE
    obtain ⟨h5, h6, -⟩ := hp
    simp only [Bool.or_eq_false_iff, bne_eq_false_iff_eq, not_isAlways_eq_false] at h5 h6
    obtain ⟨⟨⟨⟨⟨⟨hmatch, rfl⟩, rfl⟩, hsp⟩, h9⟩, hop⟩, rfl⟩ := h6
    have hacq : ∃ sc, sem5 (m.extractLsb' 4 2) (m.extractLsb' 6 3) = some (.acq sc) := by
      split at hmatch
      · exact ⟨_, ‹_›⟩
      · cases hmatch
    obtain ⟨sc, hsc⟩ := hacq
    have hm : 0#3 ++ sc.enc ++ 1#2 ++ 0#4 = m := eq_of_layout
      (join (join (join (zero_join hsp.symm (zero_bit h9)) (enc_sem5_acq hsc).1) (enc_sem5_acq hsc).2) hop.symm)
    simp only [hsc]
    exact congrArg some (by rw [hm, e6_of_sc64 h5.1, e6_of_sc64 h5.2]; rfl)
  case h_4 => -- FENCE
    obtain ⟨h5, h6, -⟩ := hp
    simp only [Bool.or_eq_false_iff, bne_eq_false_iff_eq, not_isAlways_eq_false] at h6
    obtain ⟨⟨⟨⟨⟨⟨⟨⟨hsem, rfl⟩, rfl⟩, rfl⟩, rfl⟩, hsp⟩, h9⟩, hop⟩, rfl⟩ := h6
    have hm : 0#3 ++ (orElse' (sem5 (m.extractLsb' 4 2) (m.extractLsb' 6 3)) .relaxed).enc ++ 0#4 = m := eq_of_layout
      (join (join (zero_join hsp.symm (zero_bit h9)) ((enc_sem5 hsem).trans (join rfl rfl))) hop.symm)
    exact congrArg some (by rw [hm]; rfl)
  all_goals exact congrArg some (encAtom_of hp.b5 hp.b6)

/-! ## The I32 layout -/

/-- What `parseFi` reads without fault has the fields it was read from. -/
theorem parseFi_fields {imm : BitVec 32} (h : parseFi n d a imm g = some p) (hp : Clean p) :
    p.i.fields = some (.fi (BitVec.ofNat 10 n) d a imm g) := by
  unfold parseFi at h
  split at h <;> cases h
  all_goals
    obtain ⟨h5, h6, -⟩ := hp
    simp only [Bool.or_eq_false_iff, bne_eq_false_iff_eq, not_isAlways_eq_false] at h5 h6
    refine congrArg some ?_
  case h_1 => rw [BitVec.extractLsb'_append_eq_left, BitVec.extractLsb'_append_eq_right]; rfl
  case h_2 | h_4 => -- CALL, DELAY
    obtain ⟨rfl, rfl⟩ := h6
    rfl
  case h_3 => -- JOINT
    obtain ⟨rfl, rfl⟩ := h6
    rw [e3_of_pr8 h5]; rfl
  case h_5 => -- PHINT
    subst h6
    rfl
  case h_6 => -- IPF
    obtain ⟨rfl, hd⟩ := h6
    rw [setWidth_setWidth_of_lt hd]; rfl
  case h_7 | h_8 => rw [isScalar_kreg, num_kreg h5, flag_of_lt_two h6]; rfl
  case h_9 | h_11 => -- XMSET, CPWAIT
    obtain ⟨⟨rfl, rfl⟩, rfl⟩ := h6
    rfl
  case h_10 => -- CPY
    have hd : d.extractLsb' 6 2 ++ d.extractLsb' 0 6 = d := eq_of_layout (join rfl rfl)
    have ha : a.extractLsb' 6 2 ++ a.extractLsb' 0 6 = a := eq_of_layout (join rfl rfl)
    have himm : imm.extractLsb' 20 12 ++ imm.extractLsb' 10 10 ++ imm.extractLsb' 0 10 = imm :=
      eq_of_layout (join (join rfl rfl) rfl)
    rw [hd, ha, himm]; rfl
  case h_12 => -- TRAP
    obtain ⟨⟨rfl, rfl⟩, hhigh⟩ := h6
    have himm : 0#24 ++ imm.setWidth 8 = imm :=
      eq_of_layout (join hhigh.symm (BitVec.setWidth_eq_extractLsb' (by decide)))
    rw [himm]; rfl
  case h_13 => -- PMEV
    obtain ⟨⟨⟨hd, rfl⟩, hhigh⟩, rfl⟩ := h6
    have himm : 0#16 ++ imm.setWidth 16 = imm :=
      eq_of_layout (join hhigh.symm (BitVec.setWidth_eq_extractLsb' (by decide)))
    rw [himm, setWidth_setWidth_of_lt hd]; rfl

end Sys2Proof.Laws
end

section
/-! SUPPORT. What was read without fault is written again as the same fields: classes 9 to 13, F form (R197 to R200, R211, R225,
R270, R329). -/

namespace Sys2Proof.Laws

variable {n : Nat} {d a b c : BitVec 8} {m : BitVec 12} {g : Guard} {p : Parsed}

/-- REC's modifier: a zero bit and SCR (R285). -/
theorem zero_scr (h11 : mbit m 11 = false) : 0#1 ++ b1 (m.extractLsb' 10 2 == 1#2) = m.extractLsb' 10 2 := by
  have hx : 0#1 ++ m.extractLsb' 10 1 = m.extractLsb' 10 2 := join (zero_bit h11) rfl
  have hbit : ∀ x : BitVec 1, 0#1 ++ b1 (0#1 ++ x == 1#2) = 0#1 ++ x := by decide
  rw [← hx]
  exact hbit _

/-- What `parseF9` reads without fault has the fields it was read from. -/
theorem parseF9_fields (h : parseF9 n d a b c m g = some p) (hp : Clean p) :
    p.i.fields = some (.f (BitVec.ofNat 10 n) d a b c m g) := by
  unfold parseF9 at h
  dsimp only at h
  split at h <;> cases h
  all_goals
    obtain ⟨h5, h6, -⟩ := hp
    simp only [Bool.or_eq_false_iff, bne_eq_false_iff_eq, not_isAlways_eq_false] at h5 h6
    refine congrArg some ?_
  case h_1 => -- CPY
    obtain ⟨⟨⟨hd, ha⟩, hb⟩, hc⟩ := h5
    have hm : m.extractLsb' 10 2 ++ m.extractLsb' 8 2 ++ m.extractLsb' 6 2 ++ m.extractLsb' 4 2 ++ b1 (mbit m 3) ++
        b1 (mbit m 2) ++ m.extractLsb' 0 2 = m :=
      eq_of_layout (join (join (join (join (join (join rfl rfl) rfl) rfl) (b1_mbit m 3)) (b1_mbit m 2)) rfl)
    rw [hm, e6_of_sc64 hd, e6_of_sc64 ha, e6_of_sc64 hb, e6_of_sc64 hc]; rfl
  case h_2 => -- CPG
    obtain ⟨⟨hd, ha⟩, hc⟩ := h5
    have hm : m.extractLsb' 10 2 ++ 0#4 ++ m.extractLsb' 4 2 ++ 0#4 = m :=
      eq_of_layout (join (join (join rfl (zero_run h6.1)) rfl) (zero_run h6.2))
    rw [hm, e6_of_sc64 hd, e6_of_sc64 ha, e6_of_sc64 hc]; rfl
  case h_3 | h_4 => -- CPBAT, CPWAIT
    obtain ⟨⟨⟨⟨rfl, rfl⟩, rfl⟩, rfl⟩, rfl⟩ := h6
    rw [e6_of_sc64 h5]; rfl
  case h_5 => -- ETAIL
    obtain ⟨⟨rfl, rfl⟩, rfl⟩ := h6
    rw [e6_of_sc64 h5.1, e6_of_sc64 h5.2]; rfl
  case h_6 => -- REC
    obtain ⟨⟨ha, hb⟩, hc⟩ := h5
    obtain ⟨⟨rfl, hlow⟩, h11⟩ := h6
    have hm : 0#1 ++ b1 (m.extractLsb' 10 2 == 1#2) ++ 0#10 = m := eq_of_layout (join (zero_scr h11) (zero_run hlow))
    rw [hm, e6_of_sc64 ha, e6_of_sc64 hb, e6_of_sc64 hc]; rfl
  case h_7 => -- DENSE
    obtain ⟨⟨⟨⟨hd, ha⟩, hb⟩, hc⟩, rfl⟩ := h6
    rw [e6_of_sc64 hd, e6_of_sc64 ha, e6_of_sc64 hb, e6_of_sc64 hc]; rfl

/-- The modifier bits of MMA and MMAH, which differ in the three lowest (R211). -/
theorem encMmaM_of {bsp : Bool} {la : BitVec 2} {low : BitVec 3} (h11 : mbit m 11 = false) (hlow : low = m.extractLsb' 0 3) :
    encMmaM ⟨m.extractLsb' 8 3, mbit m 7, m.extractLsb' 5 2, mbit m 4, mbit m 3, bsp, la, d, a, b, c⟩ low = m :=
  eq_of_layout (join (join (join (join (join (join (zero_bit h11) rfl) (b1_mbit m 7)) rfl) (b1_mbit m 4)) (b1_mbit m 3)) hlow)

theorem scope3_eq_none {x : BitVec 3} (h : scope3 x = none) (hlt : decide (6 ≤ x.toNat) = false) : 0#3 = x := by
  revert x; decide

theorem scope3_eq_some {x : BitVec 3} {sc : Scope} (h : scope3 x = some sc) : sc.enc = x := by
  have hall : ∀ x : BitVec 3, (scope3 x).all fun sc => sc.enc == x := by decide
  simpa [h] using hall x

/-- What `parseF10` reads without fault has the fields it was read from. -/
theorem parseF10_fields (h : parseF10 n d a b c m g = some p) (hp : Clean p) :
    p.i.fields = some (.f (BitVec.ofNat 10 n) d a b c m g) := by
  unfold parseF10 at h
  dsimp only at h
  split at h <;> cases h
  all_goals
    obtain ⟨-, h6, -⟩ := hp
    simp only [Bool.or_eq_false_iff, bne_eq_false_iff_eq, not_isAlways_eq_false] at h6
  case h_8 => -- AMOV
    obtain ⟨⟨rfl, rfl⟩, hzero⟩ := h6
    have hm : 0#11 ++ b1 (mbit m 0) = m := eq_of_layout (join (zero_run hzero) (b1_mbit m 0))
    cases h0 : mbit m 0 <;> rw [h0] at hm <;> subst hm <;> rfl
  case h_7 => -- ADRAIN
    obtain ⟨⟨⟨⟨hd, hb⟩, hc⟩, h0⟩, hscope⟩ := h6
    have hm {code : BitVec 3} (hcode : code = m.extractLsb' 2 3) : m.extractLsb' 9 3 ++ b1 (mbit m 8) ++
        (rnd2 (m.extractLsb' 6 2)).enc ++ b1 (mbit m 5) ++ code ++ b1 (mbit m 1) ++ 0#1 = m :=
      eq_of_layout (join (join (join (join (join (join rfl (b1_mbit m 8)) (enc_rnd2 _)) (b1_mbit m 5)) hcode) (b1_mbit m 1))
        (zero_bit h0))
    cases hsc : scope3 (m.extractLsb' 2 3) with
    | none => exact congrArg some (by rw [hm (scope3_eq_none hsc hscope), e6_of_sc64 hd, e6_of_sc64 hb, e6_of_sc64 hc]; rfl)
    | some sc => exact congrArg some (by rw [hm (scope3_eq_some hsc), e6_of_sc64 hd, e6_of_sc64 hb, e6_of_sc64 hc]; rfl)
  all_goals refine congrArg some ?_
  case h_1 => -- MMA
    obtain ⟨⟨h11, hlow⟩, rfl⟩ := h6
    rw [encMmaM_of h11 (join (b1_mbit m 2) (zero_run hlow))]; rfl
  case h_2 => -- MMAH
    obtain ⟨⟨h11, h2⟩, rfl⟩ := h6
    rw [encMmaM_of h11 (join (zero_bit h2) rfl)]; rfl
  case h_3 => -- MFENCE
    obtain ⟨⟨⟨⟨rfl, rfl⟩, rfl⟩, hzero⟩, rfl⟩ := h6
    have hm : 0#8 ++ m.extractLsb' 0 4 = m := eq_of_layout (join (zero_run hzero) rfl)
    rw [hm]; rfl
  case h_4 => -- MWAIT
    obtain ⟨⟨⟨⟨rfl, rfl⟩, rfl⟩, hzero⟩, rfl⟩ := h6
    have hm : 0#11 ++ b1 (mbit m 0) = m := eq_of_layout (join (zero_run hzero) (b1_mbit m 0))
    rw [hm]; rfl
  case h_5 => -- ACLR
    obtain ⟨⟨⟨rfl, rfl⟩, rfl⟩, hzero⟩ := h6
    have hm : 0#8 ++ m.extractLsb' 0 4 = m := eq_of_layout (join (zero_run hzero) rfl)
    rw [hm]; rfl
  case h_6 => -- AFILL
    obtain ⟨⟨⟨ha, rfl⟩, rfl⟩, hzero⟩ := h6
    have hm : 0#7 ++ b1 (mbit m 4) ++ m.extractLsb' 0 4 = m := eq_of_layout (join (join (zero_run hzero) (b1_mbit m 4)) rfl)
    rw [hm, e6_of_sc64 ha]; rfl

/-- NMCALL's width code is 8 or 9 (R225). -/
theorem width_code {x : BitVec 4} (h : (x != 8#4 && x != 9#4) = false) : (if x == 9#4 then 9#4 else 8#4) = x := by
  revert x; decide

/-- What `parseF11` reads without fault has the fields it was read from. -/
theorem parseF11_fields (h : parseF11 n d a b c m g = some p) (hp : Clean p) :
    p.i.fields = some (.f (BitVec.ofNat 10 n) d a b c m g) := by
  unfold parseF11 at h
  dsimp only at h
  split at h <;> cases h
  all_goals
    obtain ⟨h5, h6, -⟩ := hp
    simp only [Bool.or_eq_false_iff, bne_eq_false_iff_eq, not_isAlways_eq_false] at h5 h6
    refine congrArg some ?_
  case h_1 => -- NMCALL
    obtain ⟨⟨⟨⟨⟨hd, ha⟩, hb⟩, hc⟩, hlow⟩, hwidth⟩ := h6
    have hm : m.extractLsb' 6 6 ++ (if m.extractLsb' 2 4 == 9#4 then 9#4 else 8#4) ++ 0#2 = m :=
      eq_of_layout (join (join rfl (width_code hwidth)) (zero_run hlow))
    rw [hm, e6_of_sc64 hd, e6_of_sc64 ha, e6_of_sc64 hb, e6_of_sc64 hc]; rfl
  case h_2 => -- NMCLOSE
    obtain ⟨⟨⟨⟨hd, ha⟩, rfl⟩, rfl⟩, rfl⟩ := h6
    rw [e6_of_sc64 hd, e6_of_sc64 ha]; rfl
  case h_3 => -- EMBAG
    obtain ⟨⟨⟨⟨hd, ha⟩, hb⟩, hc⟩, hlow⟩ := h6
    have hm : m.extractLsb' 10 2 ++ 0#10 = m := eq_of_layout (join rfl (zero_run hlow))
    rw [hm, e6_of_sc64 hd, e6_of_sc64 ha, e6_of_sc64 hb, e6_of_sc64 hc]; rfl
  case h_4 => -- BAR
    obtain ⟨⟨⟨⟨⟨rfl, rfl⟩, rfl⟩, rfl⟩, hzero⟩, rfl⟩ := h6
    have hm : 0#8 ++ m.extractLsb' 0 4 = m := eq_of_layout (join (zero_run hzero) rfl)
    rw [hm]; rfl
  case h_5 => -- CBAR
    obtain ⟨⟨⟨⟨⟨rfl, rfl⟩, rfl⟩, rfl⟩, hzero⟩, rfl⟩ := h6
    have hm : 0#10 ++ m.extractLsb' 0 2 = m := eq_of_layout (join (zero_run hzero) rfl)
    rw [hm]; rfl
  case h_6 => -- MBINIT
    obtain ⟨⟨rfl, rfl⟩, rfl⟩ := h6
    rw [e6_of_sc64 h5.1, e6_of_sc64 h5.2]; rfl
  case h_7 => -- MBARV
    obtain ⟨⟨rfl, rfl⟩, hzero⟩ := h6
    have hm : 0#4 ++ m.extractLsb' 0 8 = m := eq_of_layout (join (zero_run hzero) rfl)
    rw [hm, e6_of_sc64 h5.1, e6_of_sc64 h5.2]; rfl
  case h_8 => -- MBEXP
    obtain ⟨⟨hd, ha⟩, hb⟩ := h5
    obtain ⟨rfl, hzero⟩ := h6
    have hm : 0#4 ++ m.extractLsb' 0 8 = m := eq_of_layout (join (zero_run hzero) rfl)
    rw [hm, e6_of_sc64 hd, e6_of_sc64 ha, e6_of_sc64 hb]; rfl
  case h_9 => -- MBWAIT
    obtain ⟨⟨⟨rfl, rfl⟩, hzero⟩, rfl⟩ := h6
    have hm : 0#9 ++ m.extractLsb' 0 3 = m := eq_of_layout (join (zero_run hzero) rfl)
    rw [hm, e6_of_sc64 h5.1, e6_of_sc64 h5.2]; rfl
  case h_10 => -- MBINV
    obtain ⟨⟨⟨rfl, rfl⟩, rfl⟩, rfl⟩ := h6
    rw [e6_of_sc64 h5]; rfl
  case h_11 => -- RTE
    obtain ⟨⟨⟨⟨⟨rfl, rfl⟩, rfl⟩, rfl⟩, rfl⟩, rfl⟩ := h6
    rfl
  case h_12 => -- BKPT
    obtain ⟨⟨⟨⟨rfl, rfl⟩, rfl⟩, rfl⟩, rfl⟩ := h6
    rfl
  case h_13 => -- SRD
    obtain ⟨⟨⟨hd, rfl⟩, rfl⟩, hzero⟩ := h6
    have hm : b1 (mbit m 11) ++ 0#11 = m := eq_of_layout (join (b1_mbit m 11) (zero_run hzero))
    rw [isScalar_kreg, num_kreg hd, hm]; rfl
  case h_14 => -- SWR
    obtain ⟨⟨⟨rfl, rfl⟩, rfl⟩, rfl⟩ := h6
    rw [e6_of_sc64 h5]; rfl

end Sys2Proof.Laws
end

section
/-! SUPPORT. A word that decodes is the one word of the instruction (R73 to R89). -/

namespace Sys2Proof.Laws

/-! ## Any layout -/

theorem ofNat_toNat_opc (opc : BitVec 10) : BitVec.ofNat 10 opc.toNat = opc := by simp

/-- What `parseF` reads without fault has the fields it was read from. -/
theorem parseF_fields {opc : BitVec 10} {d a b c : BitVec 8} {m : BitVec 12} {g : Guard} {p : Parsed}
    (h : parseF opc d a b c m g = some p) (hp : Clean p) : p.i.fields = some (.f opc d a b c m g) := by
  rw [← ofNat_toNat_opc opc]
  unfold parseF at h
  dsimp only at h
  split at h
  case h_1 => exact parseF0_fields h hp
  case h_2 => exact parseF6_fields h hp
  case h_3 =>
    obtain ⟨q, hq, rfl⟩ := Option.map_eq_some_iff.mp h
    obtain ⟨h5, h6, hok⟩ := hp
    simp only [Bool.or_eq_false_iff, bne_eq_false_iff_eq] at h6
    obtain ⟨⟨hq6, h7⟩, hmid⟩ := h6
    obtain ⟨hfields, ha⟩ := parse7_fields hq ⟨h5, hq6, hok⟩ fun _ => ⟨_, rfl⟩
    rw [enc7_f ha h7 hmid] at hfields
    exact hfields
  case h_4 => exact parseF8_fields h hp
  case h_5 => exact parseF9_fields h hp
  case h_6 => exact parseF10_fields h hp
  case h_7 | h_8 | h_9 => exact parseF11_fields h hp
  case h_10 =>
    obtain hbin | ⟨-, htri⟩ := Option.or_eq_some_iff.mp h
    · exact parseBin_fields (.reg b c) hbin hp
    · exact parseF15_fields htri hp

/-- What `parseFm` reads without fault has the fields it was read from; CCTL takes no immediate (R86). -/
theorem parseFm_fields {opc : BitVec 10} {d a : BitVec 8} {m : BitVec 12} {i : BitVec 20} {g : Guard} {p : Parsed}
    (h : parseFm opc d a m i g = some p) (hp : Clean p) (hcctl : opc ≠ 0x1C7#10) : p.i.fields = some (.fm opc d a m i g) := by
  unfold parseFm at h
  dsimp only at h
  split at h
  case h_1 =>
    split at h <;> cases h
    case isTrue hopc =>
      obtain rfl : opc = 0x003#10 := BitVec.eq_of_toNat_eq (eq_of_beq hopc)
      obtain ⟨h5, h6, -⟩ := hp
      simp only [Bool.or_eq_false_iff, bne_eq_false_iff_eq] at h6
      obtain ⟨rfl, hzero⟩ := h6
      have hm : 0#11 ++ b1 (mbit m 0) = m := eq_of_layout (join (zero_run hzero) (b1_mbit m 0))
      exact congrArg some (by rw [isScalar_kreg, num_kreg h5, hm]; rfl)
  case h_2 =>
    split at h <;> cases h
    case isTrue hopc =>
      obtain rfl : opc = 0x182#10 := BitVec.eq_of_toNat_eq (eq_of_beq hopc)
      obtain ⟨-, h6, -⟩ := hp
      simp only [Bool.or_eq_false_iff] at h6
      obtain ⟨⟨hzero, h9⟩, h10⟩ := h6
      have hm : b1 (mbit m 11) ++ 0#4 ++ m.extractLsb' 4 3 ++ m.extractLsb' 0 4 = m := eq_of_layout
        (join (join (join (b1_mbit m 11) (zero_join (zero_join (zero_bit h10) (zero_bit h9)) (zero_run hzero))) rfl) rfl)
      exact congrArg some (by rw [hm]; rfl)
  case h_3 =>
    obtain ⟨hfields, ha⟩ := parse7_fields h hp fun hn => absurd (BitVec.eq_of_toNat_eq hn) hcctl
    rw [enc7_fm ha, ofNat_toNat_opc] at hfields
    exact hfields
  case h_4 =>
    rw [← ofNat_toNat_opc opc]
    exact parseBin_fields (.imm i) h hp

/-- What any layout is read as without fault has the fields it was read from. -/
theorem parse_fields {f : Fields} {p : Parsed} (h : f.parse = some p) (hp : Clean p)
    (hcctl : ∀ d a m i g, f ≠ .fm 0x1C7 d a m i g) : p.i.fields = some f := by
  cases f with
  | f opc d a b c m g => exact parseF_fields h hp
  | fm opc d a m i g => exact parseFm_fields h hp fun hopc => hcctl d a m i g (by rw [hopc]; rfl)
  | fi opc d a imm g => rw [← ofNat_toNat_opc opc]; exact parseFi_fields h hp

/-! ## The word -/

/-- A word of form F or FI, read under its opcode's layout, is the packing of what was read. -/
theorem pack_of_unpackFields {w : Word64} {fm : Forms} {f : Fields} (hform : fld w 62 2 = 0#2 ∨ fld w 62 2 = 2#2)
    (hfixed : (fld w 62 2 == 0#2 && fld w 0 4 != 0#4) = false) (hmap : opcForms (fld w 52 10) = some fm)
    (h : unpackFields w fm = some f) : f.pack = w ∧ ∀ d a m i g, f ≠ .fm 0x1C7 d a m i g := by
  unfold unpackFields at h
  obtain hform | hform := hform
  · rw [hform] at h hfixed
    simp only [beq_self_eq_true, Bool.true_and, bne_eq_false_iff_eq, if_true] at h hfixed
    split at h <;> cases h
    exact ⟨pack_unpackF hform hfixed, fun _ _ _ _ _ => (nomatch ·)⟩
  · rw [hform, if_neg (by decide)] at h
    split at h
    case isTrue hi20 =>
      cases h
      refine ⟨pack_unpackFm hform, fun _ _ _ _ _ he => ?_⟩
      have hopc : fld w 52 10 = 0x1C7#10 := congrArg opcOf he
      rw [hopc] at hmap
      cases hmap
      cases hi20
    case isFalse =>
      split at h <;> cases h
      exact ⟨pack_unpackFi hform, fun _ _ _ _ _ => (nomatch ·)⟩

/-- What a word's place lets through is the instruction that was read. -/
theorem eq_of_placed {c : DecodeCtx} {i j : Instr} (h : placed c j = .ok i) : i = j := by
  unfold placed at h
  repeat' split at h
  all_goals cases h
  rfl

theorem decodeFields_ok {c : DecodeCtx} {w : Word64} {i : Instr} (hform : fld w 62 2 = 0#2 ∨ fld w 62 2 = 2#2)
    (h : decodeFields c w = .ok i) : i.wf c.toLaunchCtx = true ∧ encode i = some w := by
  unfold decodeFields at h
  dsimp only at h
  split at h
  · cases h
  split at h
  · cases h
  split at h
  · cases h
  next fm hfm =>
  split at h
  · cases h
  next p hp =>
  split at h
  · cases h
  next h5 =>
  split at h
  · cases h
  next h6 =>
  obtain ⟨f, hunpack, hparse⟩ := Option.bind_eq_some_iff.mp hp
  simp only [Bool.or_eq_true, not_or, Bool.not_eq_true, Bool.not_eq_false'] at h5 h6
  obtain rfl : i = p.i := eq_of_placed h
  obtain ⟨hb5, hregs⟩ := h5
  obtain ⟨⟨hfixed, hb6⟩, hfields⟩ := h6
  obtain ⟨hpack, hcctl⟩ := pack_of_unpackFields hform hfixed hfm hunpack
  refine ⟨Bool.and_eq_true_iff.mpr ⟨hregs, hfields⟩, ?_⟩
  rw [encode_of_fields (parse_fields hparse ⟨hb5, hb6, _, hfields⟩ hcctl), hpack]

theorem decodePair_ok {c : DecodeCtx} {w : Word64} {i : Instr} (hform : fld w 62 2 = 1#2) (h : decodePair c w = .ok i) :
    i.wf c.toLaunchCtx = true ∧ encode i = some w := by
  unfold decodePair at h
  dsimp only at h
  split at h
  · cases h
  split at h
  · cases h
  next hfields =>
  split at h
  · cases h
  next hregs =>
  cases h
  simp only [Bool.or_eq_true, not_or, Bool.not_eq_true, Bool.not_eq_false'] at hfields hregs
  obtain ⟨⟨hx, hy⟩, hbanks⟩ := hfields
  refine ⟨?_, congrArg some (packPair_unpack hform)⟩
  simp only [Instr.wf, Instr.fieldsOk, hregs, hx, hy, hbanks, Bool.and_self]

theorem decode_ok {c : DecodeCtx} {w : Word64} {i : Instr} (h : decode c w = .ok i) :
    i.wf c.toLaunchCtx = true ∧ encode i = some w := by
  unfold decode at h
  split at h
  · cases h
  split at h
  · cases h
  next h3 =>
  split at h
  case isTrue hpair => exact decodePair_ok (eq_of_beq hpair) h
  case isFalse h1 =>
    have hforms : ∀ x : BitVec 2, ¬(x == 3#2) = true → ¬(x == 1#2) = true → x = 0#2 ∨ x = 2#2 := by decide
    exact decodeFields_ok (hforms _ h3 h1) h

theorem decodeStart_ok {c : LaunchCtx} {w : Word64} {hd : Header} (h : decodeStart w = .ok hd) :
    (Instr.clauseIssue hd).wf c = true ∧ encode (.clauseIssue hd) = some w := by
  unfold decodeStart at h
  split at h
  case isFalse => cases h
  case isTrue hform =>
    split at h <;> cases h
    case isTrue hok =>
      obtain ⟨hok, hzero⟩ := Bool.and_eq_true_iff.mp hok
      exact ⟨hok, congrArg some (Header.pack_unpack (eq_of_beq hform) (eq_of_beq hzero))⟩

/-- Settles O53: a word inside a clause and a header are each the packing of what was read. -/
theorem decodedEncodes : Obligations.DecodedEncodes :=
  ⟨fun _ _ _ => decode_ok, fun _ _ _ => decodeStart_ok⟩

end Sys2Proof.Laws
end

section
/-! SUPPORT. Where the words among a step's moves come from, and which word a split is about to issue (R64, R73, R89, R101). -/

namespace Sys2Proof.Machine

/-! ## The other moves are no words -/

/-- None of the moves is a word of a split. -/
def NoWords (ms : List Move) : Prop := ∀ m ∈ ms, m.isWord = false

@[simp] theorem noWords_nil : NoWords [] := fun _ h => (nomatch h)

@[simp] theorem noWords_cons {m : Move} {ms : List Move} : NoWords (m :: ms) ↔ m.isWord = false ∧ NoWords ms := by
  simp [NoWords]

@[simp] theorem noWords_append {ms ns : List Move} : NoWords (ms ++ ns) ↔ NoWords ms ∧ NoWords ns := by
  simp [NoWords, or_imp, forall_and]

@[simp] theorem noWords_flatMap {α : Type} {l : List α} {f : α → List Move} :
    NoWords (l.flatMap f) ↔ ∀ x ∈ l, NoWords (f x) where
  mp h x hx m hm := h m (List.mem_flatMap.mpr ⟨x, hx, hm⟩)
  mpr h m hm := by
    obtain ⟨x, hx, hm⟩ := List.mem_flatMap.mp hm
    exact h x hx m hm

@[simp] theorem noWords_map {α : Type} {l : List α} {f : α → Move} : NoWords (l.map f) ↔ ∀ x ∈ l, (f x).isWord = false := by
  simp [NoWords]

@[simp] theorem noWords_filterMap {α : Type} {l : List α} {f : α → Option Move} :
    NoWords (l.filterMap f) ↔ ∀ x ∈ l, ∀ m, f x = some m → m.isWord = false where
  mp h x hx m hm := h m (List.mem_filterMap.mpr ⟨x, hx, hm⟩)
  mpr h m hm := by
    obtain ⟨x, hx, hm⟩ := List.mem_filterMap.mp hm
    exact h x hx m hm

theorem noWords_ite {c : Prop} [Decidable c] {ms ns : List Move} (hms : NoWords ms) (hns : NoWords ns) :
    NoWords (if c then ms else ns) := by
  split
  · exact hms
  · exact hns

theorem noWords_if {c : Prop} [Decidable c] {ms : List Move} (h : NoWords ms) : NoWords (if c then ms else []) :=
  noWords_ite h noWords_nil

theorem State.noWords_outsideMoves (s : State) : NoWords s.outsideMoves := by
  unfold State.outsideMoves; split <;> simp [Move.isWord]

theorem State.noWords_luteMoves (s : State) : NoWords s.luteMoves := by
  simp only [State.luteMoves, noWords_append, noWords_flatMap]
  refine ⟨⟨fun p _ => ⟨noWords_if ?_, noWords_if (by simp [Move.isWord])⟩, noWords_if (by simp [Move.isWord])⟩,
    noWords_if (by simp [Move.isWord])⟩
  split <;> simp [Move.isWord]

theorem Dev.noWords_mergeMoves (d : Dev) : NoWords d.mergeMoves := by simp [Dev.mergeMoves, Move.isWord]

theorem Dev.noWords_splitMoves (d : Dev) : NoWords d.splitMoves := by
  simp only [Dev.splitMoves, noWords_append, noWords_flatMap]
  refine fun i _ => ⟨⟨⟨⟨noWords_if ?_, noWords_if ?_⟩, noWords_if ?_⟩, noWords_if ?_⟩, ?_⟩
  case refine_5 => split <;> simp [Move.isWord]
  all_goals simp [Move.isWord]

theorem Dev.noWords_groupMoves (d : Dev) : NoWords d.groupMoves := by
  simp only [Dev.groupMoves, noWords_append, noWords_flatMap]
  refine fun t _ g _ => ⟨⟨⟨?_, ?_⟩, noWords_if ?_⟩, ?_⟩
  case refine_4 => split <;> simp [Move.isWord]
  all_goals simp [Move.isWord]

theorem Dev.noWords_probes (d : Dev) (r : Req) : NoWords (d.probes r) := by
  refine noWords_if (noWords_filterMap.mpr fun x _ m h => ?_)
  dsimp only at h
  split at h <;> cases h
  rfl

theorem Dev.noWords_requestMoves (d : Dev) : NoWords d.requestMoves := by
  simp only [Dev.requestMoves, noWords_append, noWords_flatMap]
  refine fun r _ => ⟨noWords_ite (by simp [Move.isWord]) (noWords_ite (by simp [Move.isWord]) ?_), ?_⟩
  · refine noWords_append.mpr ⟨noWords_append.mpr ⟨by simp [Move.isWord], d.noWords_probes r⟩, ?_⟩
    split
    · exact noWords_if (by simp [Move.isWord])
    · simp [Move.isWord]
    · exact noWords_nil
  · split <;> simp [Move.isWord]

theorem Dev.noWords_memoryMoves (d : Dev) : NoWords d.memoryMoves := by
  simp only [Dev.memoryMoves, noWords_append, noWords_flatMap, noWords_map, noWords_filterMap]
  refine ⟨⟨⟨d.noWords_requestMoves, fun x _ m h => ?_⟩, fun _ _ _ _ => rfl⟩, fun x _ m h => ?_⟩
  all_goals
    split at h <;> cases h
    rfl

theorem Dev.noWords_unitMoves (d : Dev) : NoWords d.unitMoves := by
  simp only [Dev.unitMoves, noWords_append, noWords_flatMap, noWords_map, noWords_cons]
  refine ⟨⟨⟨⟨?_, fun m _ => ⟨by simp [Move.isWord], noWords_if ?_⟩⟩, ?_⟩, ?_⟩, ?_⟩
  all_goals simp [Move.isWord]

theorem noWords_packetInstr (q n : Nat) : NoWords (packetInstr q n) := by
  unfold packetInstr; split <;> simp [Move.isWord]

theorem Dev.noWords_queueMoves (d : Dev) : NoWords d.queueMoves := by
  simp only [Dev.queueMoves, noWords_append, noWords_flatMap]
  refine ⟨⟨⟨fun x _ => ?_, fun q _ => ?_⟩, fun g _ => ?_⟩,
    fun n _ => ⟨by simp [Move.isWord], noWords_if (by simp [Move.isWord])⟩⟩
  · split
    · split
      · exact noWords_packetInstr _ _
      · simp [Move.isWord]
    · exact noWords_ite noWords_nil (by simp [Move.isWord])
  · exact ⟨⟨⟨noWords_ite noWords_nil (by simp [Move.isWord]), by simp [Move.isWord]⟩,
      noWords_ite noWords_nil (by simp [Move.isWord])⟩, noWords_if (by simp [Move.isWord])⟩
  · refine noWords_cons.mpr ⟨rfl, noWords_flatMap.mpr fun x _ => noWords_append.mpr ⟨?_, ?_⟩⟩
    · exact noWords_if (by simp [Move.isWord])
    · exact noWords_if (by simp [Move.isWord])

theorem Dev.noWords_teamMoves (d : Dev) : NoWords d.teamMoves := by
  simp only [Dev.teamMoves, noWords_append, noWords_flatMap, noWords_filterMap]
  refine ⟨⟨⟨noWords_ite noWords_nil (by simp [Move.isWord]), fun k _ m h => ?_⟩, fun t _ => ?_⟩, fun x _ => ?_⟩
  · split at h <;> cases h
    rfl
  · split <;> simp [Move.isWord]
  · exact noWords_ite (by simp [Move.isWord]) (noWords_if (by simp [Move.isWord]))

theorem Dev.noWords_engineMoves (d : Dev) : NoWords d.engineMoves := by
  simp only [Dev.engineMoves, noWords_append, noWords_flatMap, noWords_map, noWords_cons]
  refine ⟨⟨⟨⟨⟨fun c _ => ⟨rfl, ?_⟩, ?_⟩, ?_⟩, ?_⟩, ?_⟩, ?_⟩
  case refine_1 => split <;> simp [Move.isWord]
  all_goals simp [Move.isWord]

/-- Whatever stands for pending work beside the splits' words is no word. -/
theorem State.noWords_candidates (s : State) : NoWords s.candidates := by
  simp only [State.candidates, noWords_append]
  refine ⟨⟨s.noWords_outsideMoves, s.noWords_luteMoves⟩, noWords_ite noWords_nil ?_⟩
  simp only [noWords_append]
  exact ⟨⟨⟨⟨⟨⟨⟨s.dev.noWords_mergeMoves, s.dev.noWords_splitMoves⟩, s.dev.noWords_groupMoves⟩, s.dev.noWords_memoryMoves⟩,
    s.dev.noWords_unitMoves⟩, s.dev.noWords_queueMoves⟩, s.dev.noWords_teamMoves⟩, s.dev.noWords_engineMoves⟩

/-! ## The words that the ports choose -/

theorem mem_of_portTakes {xs : List (Issuer × Instr)} {chose : List (SplitRef × Nat × Nat)} {q : Nat × Nat} {x : Issuer × Instr}
    (h : portTakes xs chose q = some x) : x ∈ xs := by
  unfold portTakes at h
  dsimp only at h
  split at h
  · cases h
  · exact (List.mem_filter.mp (mem_isort.mp (List.mem_of_head? h))).1

theorem mem_portMoves {xs : List (Issuer × Instr)} {chose : List (SplitRef × Nat × Nat)} {opens : Bool} {m : Move}
    (h : m ∈ portMoves xs chose opens) : ∃ x ∈ xs, m = .word x.1.splitRef x.2 opens := by
  obtain ⟨x, hx, rfl⟩ := List.mem_map.mp h
  obtain ⟨q, -, hq⟩ := List.mem_filterMap.mp hx
  exact ⟨x, mem_of_portTakes hq, rfl⟩

/-- A word move is the next word of a ready split. -/
theorem State.mem_wordMoves {s : State} {m : Move} (h : m ∈ s.wordMoves) :
    ∃ x ∈ s.readySplits, ∃ opens, m = .word x.1.splitRef x.2 opens := by
  unfold State.wordMoves at h
  dsimp only at h
  split at h
  all_goals
    obtain ⟨x, hx, hm⟩ := mem_portMoves h
    exact ⟨x, hx, _, hm⟩

theorem State.mem_readySplits {s : State} {x : Issuer × Instr} (h : x ∈ s.readySplits) :
    x.1 ∈ s.dev.issuers ∧ s.dev.nextWord? x.1 = some x.2 ∧ s.ready x.1 x.2 = true := by
  obtain ⟨i, hi, hbind⟩ := List.mem_filterMap.mp h
  obtain ⟨ins, hnext, hif⟩ := Option.bind_eq_some_iff.mp hbind
  split at hif <;> cases hif
  exact ⟨hi, hnext, ‹_›⟩

theorem Dev.splitRef_of_issuerAt? {d : Dev} {r : SplitRef} {i : Issuer} (h : d.issuerAt? r = some i) : i.splitRef = r := by
  obtain ⟨href, -, -, -, hsplit, -⟩ := Dev.issuerAt?_spec h
  have hstamp : i.sp.stamp = r.stamp := by simpa using List.find?_some hsplit
  rw [Issuer.splitRef, href, hstamp]

theorem Dev.issuerAt?_of_mem_issuers {d : Dev} {i : Issuer} (h : i ∈ d.issuers) : d.issuerAt? i.splitRef = some i := by
  obtain ⟨t, -, ht⟩ := List.mem_flatMap.mp h
  obtain ⟨g, -, hg⟩ := List.mem_flatMap.mp ht
  obtain ⟨sp, -, hsp⟩ := List.mem_filterMap.mp hg
  rw [Dev.splitRef_of_issuerAt? hsp, hsp]

/-- An open word is the next one of a ready split. -/
theorem State.ready_of_word_mem_moves {s : State} {r : SplitRef} {ins : Instr} {opens : Bool} (h : .word r ins opens ∈ s.moves) :
    ∃ i, s.dev.issuerAt? r = some i ∧ s.dev.nextWord? i = some ins ∧ s.ready i ins = true := by
  obtain hword | hother := mem_moves_cases h
  · have hchosen : .word r ins opens ∈ s.wordMoves := by
      have hmem := (List.mem_filter.mp hword).1
      split at hmem
      · cases hmem
      · exact hmem
    obtain ⟨⟨i, ins'⟩, hx, opens', hm⟩ := s.mem_wordMoves hchosen
    cases hm
    obtain ⟨hi, hnext, hready⟩ := s.mem_readySplits hx
    exact ⟨i, Dev.issuerAt?_of_mem_issuers hi, hnext, hready⟩
  · exact absurd (s.noWords_candidates _ (List.mem_filter.mp hother).1) (by simp [Move.isWord])

/-! ## What a taken word does -/

/-- A word of a split is run as the instruction, on the device that presents the split as the issuing one. -/
theorem run_word {s : State} {r : SplitRef} {i : Issuer} (ins : Instr) (opens : Bool) (h : s.dev.issuerAt? r = some i) :
    run (.word r ins opens) s = exec ins { s with dev := (s.dev.portChose i opens).present i ins } := by
  unfold run
  simp only [h]
  rfl

/-- A step that takes a picked move runs it, and time passes; a word passed over is counted (R20). -/
theorem step_of_run {s t : State} {m : Move} (hon : s.fw.on = true) (hpick : s.pickMove = some m) (hrun : run m s = .next t) :
    step s = .next ((if m.isWord || s.wordMoves.isEmpty then t else t.passedOver).pass 0) :=
  (step_of_pickMove_some hon hpick).trans (State.take_of_run hrun)

theorem Dev.nextWord?_header {d : Dev} {i : Issuer} {w : Word64} (hclause : i.sp.clause = none)
    (hheld : d.heldWord? i i.pc.toNat = some w) :
    (∀ h, decodeStart w = .ok h → d.nextWord? i = some (.clauseIssue h)) ∧
      ∀ e, decodeStart w = .error e → d.nextWord? i = some (.illop e) := by
  constructor <;> intro x hx <;> simp [Dev.nextWord?, hclause, hheld, hx]

theorem Dev.nextWord?_clause (d : Dev) {i : Issuer} {c : Clause} {w : Word64} {rest : List Word64} (hclause : i.sp.clause = some c)
    (hwords : c.words = w :: rest) :
    let x : DecodeCtx := { i.lc with last := decide (rest = []), flagless := decide (c.setA = 15 ∧ c.setB = 15) }
    (∀ ins, decode x w = .ok ins → d.nextWord? i = some ins) ∧ ∀ e, decode x w = .error e → d.nextWord? i = some (.illop e) := by
  have hlast : rest.isEmpty = decide (rest = []) := by cases rest <;> rfl
  have hflagless : (c.setA == 15 && c.setB == 15) = decide (c.setA = 15 ∧ c.setB = 15) := (Bool.decide_and ..).symm
  intro x
  constructor <;> intro y hy <;> simp only [Dev.nextWord?, hclause, hwords, hlast, hflagless] <;> rw [hy]

/-- Settles O54: an open word is that of a ready split, its run is the instruction's effect, and a step runs what it picks. -/
theorem stepRunsDecoded : Obligations.StepRunsDecoded := by
  refine ⟨fun s r ins opens hon hpick => ?_, fun d i c w rest => d.nextWord?_clause, fun d i w => Dev.nextWord?_header,
    fun d i ins => ⟨rfl, rfl⟩, fun d i opens => rfl, fun s m hon hpick => ?_, fun s => step_of_pickMove_none⟩
  · obtain ⟨i, hi, hnext, hready⟩ := State.ready_of_word_mem_moves (mem_moves_of_pickMove hpick)
    obtain ⟨t, hrun⟩ := run_of_pickMove hpick
    exact ⟨i, t, hi, hnext, hready, (run_word ins opens hi).symm.trans hrun, step_of_run hon hpick hrun⟩
  · obtain ⟨t, hrun⟩ := run_of_pickMove hpick
    refine ⟨t, _, hrun, step_of_run hon hpick hrun, fun h => if_pos (by simpa using h), fun hword hmoves => ?_⟩
    exact if_neg (by simp [hword, hmoves])

end Sys2Proof.Machine
end
